-- ==== Sys2Proof/Word.lean ====
section
/-! DEFINITION. The word types of the Gatur and the list form that every sparse store of the model takes. -/

namespace Sys2Proof

/-- One byte. -/
abbrev Byte := BitVec 8

/-- A 32-bit word: a row of the main file in one lane, a lane mask, a base word (R24, R126). -/
abbrev Word := BitVec 32

/-- A 64-bit value: a uniform register, a special register, an address (R126). -/
abbrev DWord := BitVec 64

/-- A sparse store: key and value pairs, keys strictly rising. What an absent key reads as is said where
the store is declared. -/
abbrev Map (β : Type) := List (Nat × β)

end Sys2Proof
end

