-- ==== Sys2Proof/Config.lean ====
section
/-! DEFINITION. What the part fixes and what the spec leaves open: constants without a body. Nothing in Lean
can evaluate one of them, so a statement about the machine holds whatever they are. -/

namespace Sys2Proof.Config

/-- The choice R47 leaves open: which of the values before and after an outstanding write a read takes, or
which of two writes an element keeps. Applied to the free counter and the element's number. Log entry 15. -/
opaque hazardPick : Nat → Nat → Nat

/-- The choice R431 leaves open among the code words that a fetch may return, as an index of their list. Log entry 16. -/
opaque codePick : Nat → Nat → Nat

/-- A free 64-bit value for a result the spec does not state. Log entry 17. -/
opaque freeValue : Nat → BitVec 64

/-- Whether the L2 slice of a line's home holds the line when it is read (R258, R411). Log entry 60. -/
opaque l2Holds : Nat → Nat → Bool

/-- A draw of a partition's sampler generator (R404). Log entry 18. -/
opaque sampleDraw : Nat → Nat

/-- The stage times of a SAMPLE or TAGGED card (R405, R406): time only. Log entry 18. -/
opaque sampleTimes : Nat → BitVec 64

/-- The bytes that bring-up measures: the boot ROM's identity (0), the images of firmware stages 1 and 2 (R432 to R434).
Log entry 19. -/
opaque bootImage : Nat → List (BitVec 8)

/-- The signing public key that comes with a stage image, x above y, and the image's signature, r above s (R433).
Log entry 19. -/
opaque bootKey : Nat → BitVec 768
opaque bootSig : Nat → BitVec 768

/-- The fused SHA-384 digest of the signing public key (R433). Log entry 19. -/
opaque keyDigest : BitVec 384

/-- The private attestation key that the package derives from its fused secret and measurements 1 to 3 (R435). Log entry 20. -/
opaque attestKey : List (BitVec 384) → BitVec 384

/-- The root certificate of slot 0, and the certificate of an attestation public key, x above y (R435). Log entry 20. -/
opaque rootCertificate : List (BitVec 8)
opaque keyCertificate : BitVec 768 → List (BitVec 8)

/-- A draw of the responder's generator; its time exponent (R435). Log entry 20. -/
opaque spdmDraw : Nat → BitVec 384
opaque spdmTime : BitVec 8

/-- CLMASK, DDRCH and CXLP as bring-up finds them, in CAP's places (R15, R432). Log entry 21. -/
opaque bringUpCap : BitVec 64

/-- The failed ports a core has at bring-up: VP0F in bits 3:0, VP1F in bits 7:4 (R17, R432). Log entry 21. -/
opaque bringUpPorts : Nat → BitVec 8

/-- The Waistavo links that trained, bit s for link s (R440). Log entry 21. -/
opaque bringUpLinks : BitVec 36

/-- The pod number the switch assigned (R440). Log entry 21. -/
opaque bringUpPod : BitVec 9

/-- How many of the two UCIe modules came up, 0 to 2 (R437). Log entry 21. -/
opaque bringUpUcie : Nat

/-- Capacity in bytes of the CXL device of a port (R442). Log entry 21. -/
opaque cxlCapacity : Nat → Nat

/-- Whether a failed or cancelled copy had moved an element or a 64-byte piece (R225, R228, R248). Log entry 22. -/
opaque copyTail : Nat → Nat → Bool

/-- Which failing element stops a copy (R228). Log entry 22. -/
opaque copyDone : Nat → Nat

/-- Whether a byte of the faulting row from a page before the faulting page has landed (R184). Log entry 23. -/
opaque rowTail : Nat → Nat → Bool

/-- Up-slots and down-slots of a port that transfers already waiting take before the second instruction of a turn
(R160, R161): time only. Log entry 40. -/
opaque waitingUps : Nat → Nat → Nat
opaque waitingDowns : Nat → Nat → Nat

/-- How many switch hops a replica lies away (R276). Log entry 24. -/
opaque switchHops : Nat → Nat → Nat

end Sys2Proof.Config
end

