-- ==== Sys2Proof/Syntax.lean ====
section
/-! DEFINITION. The instructions and events of the Gatur: one constructor for each row of
spec/opcode_table.json. Fields are what the words hold (R26 to R44); what a word may hold is in WellFormed. -/

namespace Sys2Proof

/-- A lane destination (R36). -/
inductive Dst
  | v (n : Fin 112)
  | q (n : Fin 16)
  deriving DecidableEq, Repr

/-- An 8-bit lane source field (R33). `imm n` is the value n - 16. -/
inductive Src
  | v (n : Fin 112)
  | q (n : Fin 16)
  | y (n : Fin 4)
  | k (n : Fin 32)
  | special (n : Fin 8)
  | reserved (n : Fin 4)
  | imm (n : Fin 80)
  deriving DecidableEq, Repr

/-- Operation types (R31). -/
inductive Ty
  | i32 | n32 | i16 | n16 | i8 | n8 | i64 | n64
  | f32 | f16 | bf16 | f64 | f16x2 | bf16x2 | xf | reserved
  deriving DecidableEq, Repr

/-- A 7-bit uniform field (R40). `imm n` is the value n. -/
inductive UFld
  | k (n : Fin 64)
  | kc (n : Fin 8)
  | lc (n : Fin 4)
  | lm (n : Fin 4)
  | special (n : Fin 16)
  | imm (n : Fin 32)
  deriving DecidableEq, Repr

/-- Field B of a uniform word (R42). `imm n` is the value n - 64. -/
inductive UB
  | fld (f : UFld)
  | imm (n : Fin 128)
  deriving DecidableEq, Repr

/-- A lane word with its modifier word (R26, R28). A word with `x` false carries the default modifier
fields (R29). `q` is bits 15:4 of the modifier word: SAT, CLAMP, NEGA, NEGB, ABSA, ABSB and SCALE in the
regular forms, the memory qualifiers of R262 or the bound of R323 in the memory forms. SUB is in the
constructor. -/
structure LaneForm (δ α β : Type) where
  s  : Bool
  x  : Bool
  d  : δ
  a  : α
  b  : β
  c  : BitVec 8
  g  : BitVec 3
  gn : Bool
  ty : Ty
  q  : BitVec 12
  deriving DecidableEq, Repr

/-- The regular layout (R26). -/
abbrev LaneW := LaneForm Dst Src Src
/-- The P layout with source fields: cmp, fcmp, vote.any, vote.all (R38). -/
abbrev PredW := LaneForm (BitVec 7) Src Src
/-- The P layout with predicate numbers: pand, por, pxor, pnot (R38). -/
abbrev PLogW := LaneForm (BitVec 7) (BitVec 8) (BitVec 8)
/-- The K layout: movk (R38). -/
abbrev KMovW := LaneForm Dst (BitVec 8) (BitVec 8)

/-- The branch layout (R37). `e` is the word that followed a base word with X = 1, which is illegal. -/
structure BraW where
  s    : Bool
  x    : Bool
  g    : BitVec 3
  gn   : Bool
  disp : BitVec 19
  e    : Word
  deriving DecidableEq, Repr

/-- A uniform word with its extension word (R39, R44); `e` is 0 when `x` is false. -/
structure UniW where
  s : Bool
  x : Bool
  d : UFld
  a : UFld
  b : UB
  e : Word
  deriving DecidableEq, Repr

/-- One constructor for each row of spec/opcode_table.json: instruction words first, then events. Where an
event falls (which group, core, queue, entry) is its subject, which the move that makes it puts in the
state; what it carries (a value written, the bytes of an access) is its operand. -/
inductive Instr
  -- lane integer
  | add (w : LaneW) | sub (w : LaneW) | addc (w : LaneW) | subb (w : LaneW)
  | mul (w : LaneW) | mulhi (w : LaneW) | mad (w : LaneW) | madhi (w : LaneW)
  | div (w : LaneW) | rem (w : LaneW) | min (w : LaneW) | max (w : LaneW)
  | and (w : LaneW) | or (w : LaneW) | xor (w : LaneW) | andn (w : LaneW)
  | shl (w : LaneW) | shr (w : LaneW) | sar (w : LaneW) | rot (w : LaneW)
  | clz (w : LaneW) | popc (w : LaneW) | brev (w : LaneW)
  | bfx (w : LaneW) | bfi (w : LaneW) | lea (w : LaneW)
  | cmp (sub : BitVec 4) (w : PredW) | sel (w : LaneW) | mov (w : LaneW) | movk (w : KMovW)
  | pand (w : PLogW) | por (w : PLogW) | pxor (w : PLogW) | pnot (w : PLogW)
  -- lane floating point
  | fadd (w : LaneW) | fsub (w : LaneW) | fmul (w : LaneW) | ffma (w : LaneW)
  | fmin (w : LaneW) | fmax (w : LaneW) | fcmp (sub : BitVec 4) (w : PredW) | fdiv (w : LaneW)
  | frcp (w : LaneW) | frsq (w : LaneW) | fsqrt (w : LaneW) | fex2 (w : LaneW) | flg2 (w : LaneW)
  | fsin (w : LaneW) | fcos (w : LaneW) | dot2 (w : LaneW) | hfma2 (w : LaneW)
  -- conversions
  | cvtFf (w : LaneW) | cvtFi (w : LaneW) | cvtIf (w : LaneW) | cvtIi (w : LaneW)
  | cvtxPack (w : LaneW) | cvtxUnpack (w : LaneW) | pack2 (w : LaneW) | fclass (w : LaneW)
  | bscl (w : LaneW) | qblk (w : LaneW)
  -- lane control
  | bra (w : BraW) | call (w : BraW) | brx (w : LaneW) | callx (w : LaneW) | ret (w : LaneW)
  | exit (w : LaneW) | brk (w : LaneW) | rejoin (w : LaneW) | yield (w : LaneW)
  -- collectives
  | voteAny (w : PredW) | voteAll (w : PredW) | voteBal (w : LaneW)
  | shflIdx (w : LaneW) | shflUp (w : LaneW) | shflDn (w : LaneW) | shflXor (w : LaneW)
  | redux (sub : BitVec 4) (w : LaneW) | scan (sub : BitVec 4) (w : LaneW) | match_ (w : LaneW)
  -- pigeonholes
  | spawn (w : LaneW) | phflush (w : LaneW)
  -- lane memory
  | ld (w : LaneW) | st (w : LaneW) | atom (sub : BitVec 4) (w : LaneW) | cas (w : LaneW)
  | prf (w : LaneW) | spt (w : LaneW) | spc (w : LaneW) | ldb (w : LaneW)
  | mtov (w : LaneW) | mvtot (w : LaneW)
  -- uniform arithmetic
  | kadd (w : UniW) | ksub (w : UniW) | kmul (w : UniW) | kand (w : UniW) | kor (w : UniW)
  | kxor (w : UniW) | kshl (w : UniW) | kshr (w : UniW) | kmin (w : UniW) | kmax (w : UniW)
  | kcmp (w : UniW) | ksel (w : UniW) | kmov (w : UniW) | kmovi (w : UniW)
  | lcset (w : UniW) | lcstep (w : UniW) | kcset (w : UniW) | kcwait (w : UniW)
  | kfmtSet (w : UniW) | kfmtSetPreset (w : UniW) | kfmtSetSeed (w : UniW) | kfmtGet (w : UniW)
  | kbra (w : UniW) | kcall (w : UniW) | kret (w : UniW)
  -- matrix
  | obres (w : UniW) | obfree (w : UniW) | mload (w : UniW) | mloadx (w : UniW) | mma (w : UniW)
  | mzero (w : UniW) | macc (w : UniW) | mst (w : UniW) | mbarArr (w : UniW) | mbarWait (w : UniW)
  | mseqGo (w : UniW) | mseqEnd (w : UniW) | mrow (w : UniW) | mrowClr (w : UniW)
  -- sparse
  | sdec (w : UniW) | mmat (w : UniW) | mres (w : UniW) | sbound (w : UniW) | sstat (w : UniW)
  | sstatClr (w : UniW)
  -- windows and rings
  | lrec (w : UniW) | lrecTap (w : UniW) | wbind (w : UniW) | wunbind (w : UniW) | wabs (w : UniW)
  | wtouch (w : UniW) | wpost (w : UniW) | wstat (w : UniW) | wstatRead (w : UniW) | wstatClr (w : UniW)
  | pmarm (w : UniW) | pmwait (w : UniW) | ringInit (w : UniW) | ringPut (w : UniW)
  | ringPutFree (w : UniW) | ringGet (w : UniW) | ringWait (w : UniW)
  -- uniform memory, translation
  | kld (w : UniW) | kst (w : UniW) | katom (w : UniW) | fence (w : UniW) | cwb (w : UniW)
  | cinv (w : UniW) | monArm (w : UniW) | monWait (w : UniW) | tlbinv (w : UniW) | pgmig (w : UniW)
  -- rounds, barriers, time
  | roundAdv (w : UniW) | roundGet (w : UniW) | roundFloor (w : UniW) | roundFloorClr (w : UniW)
  | barArr (w : UniW) | barWait (w : UniW) | barSync (w : UniW) | barJoin (w : UniW)
  | barLeave (w : UniW) | barGen (w : UniW) | rdtime (w : UniW) | rdcyc (w : UniW) | nap (w : UniW)
  -- queues, traps, trace, counters, code
  | post (w : UniW) | qreset (w : UniW) | trap (w : UniW) | sysc (w : UniW) | eret (w : UniW)
  | mfs (w : UniW) | mts (w : UniW) | halt (w : UniW) | tmark (w : UniW) | tsamp (w : UniW)
  | cntrd (w : UniW) | cntcfgEvent (w : UniW) | cntcfgClear (w : UniW) | cntcfgWrite (w : UniW)
  | icinv (w : UniW) | ipref (w : UniW) | nop (w : UniW) | hint (op : BitVec 4) (w : UniW)
  | reservedOpcode (w e : Word)
  -- register writes that are steps of their own, made by the host (R438) with the value written
  | rtctlCommit (v : DWord) | rtctlRelease (v : DWord)
  | qctlEnable (v : DWord) | qctlDisable (v : DWord) | qctlSuspend (v : DWord) | qctlResume (v : DWord)
  | tsctlOpen (v : DWord) | tsctlClose (v : DWord) | tsptrHeadWrite (v : DWord)
  | fqptrHeadWrite (v : DWord) | rtfailAck (v : DWord)
  -- clock, array errors and accesses from outside
  | clockChange (v : Word) | eccError (unit c addr : Nat) (correctable : Bool)
  | hostAccess (addr : Nat) (write : Bool) (data : List Byte)
  | peerAccess (addr : Nat) (write : Bool) (data : List Byte)
  -- SPDM requests in the host mailbox
  | getVersion | getCapabilities | negotiateAlgorithms | getDigests | getCertificate | challenge
  | getMeasurements | unsupportedRequest
  -- package
  | packageReset | timingLock | referenceLoss | portFailure
  | ucieModuleFailure | linkLoss | cxlSurpriseRemoval
  -- lanes and groups
  | pigeonholeExpiry | pendingGroupPlacement | leaseEnd
  | pathAgeLimit | holdCountLimit
  | convergenceRelease | rejoinRelease | markerRelease
  | resultLanding | completionLanding
  | kcwaitReturn | pmwaitReturn | monWaitReturn | monWaitTimeout
  | napExpiry | ringWaitReturn | ringPutRecord | arrivalRecord
  | barrierWaitReturn | mbarWaitReturn | spawnRelease
  -- memory, translation
  | storePerform | pageWalkComplete | faultRecordWrite
  | streamTrapDelivery | migrationComplete
  -- couriers and the stream
  | courierStart | runaheadStart | copyInEnd | copyOutEnd
  | mloadComplete | mstComplete | sdecComplete | streamEnd
  -- launches
  | groupEnd | launchComplete | anchorRead | startTimeReached
  | deadlinePass | arbitration | gridRotation
  -- rounds, coherence
  | roundNotice | stallPush | stallWatchTimeout | lineFill
  | invalidation | privatisedMerge
  -- trace, counters
  | cardDrain | stallEnd | sampleCountdown | counterAdd
  | referenceRelock | replicaUpdate | invalidationAcknowledged
  deriving DecidableEq, Repr

end Sys2Proof
end

