-- ==== Sys2Proof/Machine/Fields.lean ====
section
/-! DEFINITION. What the fields of a word stand for (R26 to R44) and the checks a form makes on them. -/

namespace Sys2Proof.Machine

/-- Bits hi:lo of x (R7). -/
def bits (x hi lo : Nat) : Nat := x / 2 ^ lo % 2 ^ (hi + 1 - lo)

/-- Bit i of x. -/
def bit (x i : Nat) : Bool := x / 2 ^ i % 2 == 1

/-! ## Operand field codes -/

/-- A 7-bit lane destination (R36). -/
def dstOf (n : Nat) : Dst :=
  if h : n < 112 then .v ⟨n, h⟩ else .q ⟨(n - 112) % 16, Nat.mod_lt _ (by decide)⟩

/-- The code of a lane destination. -/
def dstCode : Dst → Nat
  | .v n => n.val
  | .q n => 112 + n.val

/-- An 8-bit lane source (R33). -/
def srcOf (n : Nat) : Src :=
  if h : n < 112 then .v ⟨n, h⟩
  else if h : n < 128 then .q ⟨n - 112, by omega⟩
  else if h : n < 132 then .y ⟨n - 128, by omega⟩
  else if h : n < 164 then .k ⟨n - 132, by omega⟩
  else if h : n < 172 then .special ⟨n - 164, by omega⟩
  else if h : n < 176 then .reserved ⟨n - 172, by omega⟩
  else .imm ⟨(n - 176) % 80, Nat.mod_lt _ (by decide)⟩

/-- The code of a lane source. -/
def srcCode : Src → Nat
  | .v n => n.val
  | .q n => 112 + n.val
  | .y n => 128 + n.val
  | .k n => 132 + n.val
  | .special n => 164 + n.val
  | .reserved n => 172 + n.val
  | .imm n => 176 + n.val

/-- TYPE codes (R31). -/
def tyOf : Nat → Ty
  | 0 => .i32 | 1 => .n32 | 2 => .i16 | 3 => .n16 | 4 => .i8 | 5 => .n8 | 6 => .i64 | 7 => .n64
  | 8 => .f32 | 9 => .f16 | 10 => .bf16 | 11 => .f64 | 12 => .f16x2 | 13 => .bf16x2 | 14 => .xf
  | _ => .reserved

/-- The code of a type. -/
def tyCode : Ty → Nat
  | .i32 => 0 | .n32 => 1 | .i16 => 2 | .n16 => 3 | .i8 => 4 | .n8 => 5 | .i64 => 6 | .n64 => 7
  | .f32 => 8 | .f16 => 9 | .bf16 => 10 | .f64 => 11 | .f16x2 => 12 | .bf16x2 => 13 | .xf => 14
  | .reserved => 15

/-- A 7-bit uniform field (R40). -/
def ufldOf (n : Nat) : UFld :=
  if h : n < 64 then .k ⟨n, h⟩
  else if h : n < 72 then .kc ⟨n - 64, by omega⟩
  else if h : n < 76 then .lc ⟨n - 72, by omega⟩
  else if h : n < 80 then .lm ⟨n - 76, by omega⟩
  else if h : n < 96 then .special ⟨n - 80, by omega⟩
  else .imm ⟨(n - 96) % 32, Nat.mod_lt _ (by decide)⟩

/-- The code of a uniform field. -/
def ufldCode : UFld → Nat
  | .k n => n.val
  | .kc n => 64 + n.val
  | .lc n => 72 + n.val
  | .lm n => 76 + n.val
  | .special n => 80 + n.val
  | .imm n => 96 + n.val

/-- Field B of a uniform word (R42). -/
def ubOf (n : Nat) : UB :=
  if n < 128 then .fld (ufldOf n) else .imm ⟨(n - 128) % 128, Nat.mod_lt _ (by decide)⟩

/-- The code of field B. -/
def ubCode : UB → Nat
  | .fld f => ufldCode f
  | .imm n => 128 + n.val

/-! ## Types -/

/-- width(TYPE) in bits; a packed register is 32 bits wide. -/
def tyWidth : Ty → Nat
  | .i8 | .n8 => 8
  | .i16 | .n16 | .f16 | .bf16 => 16
  | .i64 | .n64 | .f64 => 64
  | _ => 32

/-- A type read and written as a register pair (R35). -/
def tyIs64 (t : Ty) : Bool := tyWidth t == 64

/-- Signed integer types (R66). -/
def tySigned : Ty → Bool
  | .i8 | .i16 | .i32 | .i64 => true
  | _ => false

/-- Unsigned integer types. -/
def tyUnsigned : Ty → Bool
  | .n8 | .n16 | .n32 | .n64 => true
  | _ => false

/-- Integer types. -/
def tyIsInt (t : Ty) : Bool := tySigned t || tyUnsigned t

/-- Floating types, the packed ones among them; xf is not one (R35). -/
def tyIsFloat : Ty → Bool
  | .f32 | .f16 | .bf16 | .f64 | .f16x2 | .bf16x2 => true
  | _ => false

/-- Packed types (R65). -/
def tyPacked : Ty → Bool
  | .f16x2 | .bf16x2 => true
  | _ => false

def intTys : List Ty := [.i8, .n8, .i16, .n16, .i32, .n32, .i64, .n64]
def words64 : List Ty := [.i32, .n32, .i64, .n64]
def scalarFloats : List Ty := [.f32, .f16, .bf16, .f64]
def floatTys : List Ty := [.f32, .f16, .bf16, .f64, .f16x2, .bf16x2]
def memTys : List Ty := intTys ++ floatTys

/-! ## Modifier fields -/

/-- SAT (R28). -/
def qSat (q : BitVec 12) : Bool := bit q.toNat 11
/-- CLAMP. -/
def qClamp (q : BitVec 12) : Nat := bits q.toNat 10 9
/-- NEGA. -/
def qNegA (q : BitVec 12) : Bool := bit q.toNat 8
/-- NEGB. -/
def qNegB (q : BitVec 12) : Bool := bit q.toNat 7
/-- ABSA. -/
def qAbsA (q : BitVec 12) : Bool := bit q.toNat 6
/-- ABSB. -/
def qAbsB (q : BitVec 12) : Bool := bit q.toNat 5
/-- SCALE, signed. -/
def qScale (q : BitVec 12) : Int :=
  let n := bits q.toNat 4 0
  if n < 16 then n else (n : Int) - 32
/-- SEM of a memory form (R262): 0 plain, 1 acquire, 2 release, 3 both. -/
def qSem (q : BitVec 12) : Nat := bits q.toNat 11 10
/-- SCOPE of a memory form. -/
def qScope (q : BitVec 12) : Nat := bits q.toNat 9 6
/-- CACHE of a memory form. -/
def qCache (q : BitVec 12) : Nat := bits q.toNat 5 4
/-- NR of a memory form. -/
def qNr (q : BitVec 12) : Bool := bit q.toNat 0

/-- Modifier bits a form may set, as a mask over bits 15:4 (R32). -/
def mSat : Nat := 0x800
def mNegAbs : Nat := 0x1E0
def mNegA : Nat := 0x100
def mAbsA : Nat := 0x040
def mClampScale : Nat := 0x61F
def mScale : Nat := 0x01F

/-! ## Checks of lane forms -/

/-- A source field read at a type (R33 to R35). `xf` stands for a 32-bit container. -/
def srcOk (t : Ty) : Src → Bool
  | .reserved _ => false
  | .v n => !tyIs64 t || n.val % 2 == 0
  | .q n => !tyIs64 t || n.val % 2 == 0
  | .y _ => true
  | .k _ => true
  | .special n => !tyIsFloat t || n.val < 2
  | .imm n => !tyUnsigned t || 16 ≤ n.val

/-- A destination at a type (R36). -/
def dstOk (t : Ty) : Dst → Bool
  | .v n => !tyIs64 t || n.val % 2 == 0
  | .q n => !tyIs64 t || n.val % 2 == 0

/-- A field that holds 0 (R27). -/
def src0 (s : Src) : Bool := s == .v 0
def dst0 (d : Dst) : Bool := d == .v 0

/-- Guard, default word and modifier checks common to every lane form (R29, R30, R32). -/
def modsOk {δ α β : Type} (w : LaneForm δ α β) (sub : Nat) (dflt : Ty) (types : List Ty) (mask : Nat) : Bool :=
  !(w.g == 7 && w.gn) && types.contains w.ty && (w.q.toNat &&& (0xFFF - mask) == 0) &&
  (w.x || (w.c == 0 && w.g == 7 && !w.gn && w.ty == dflt && w.q == 0 && sub == 0))

/-- CLAMP = 3 is illegal in the forms that accept it (R32). -/
def clampOk {δ α β : Type} (w : LaneForm δ α β) : Bool := qClamp w.q != 3

/-- Field C read as a source at a type. -/
def csrcOk (t : Ty) (c : BitVec 8) : Bool := srcOk t (srcOf c.toNat)

/-- A two-source form whose sources and result are at TYPE. -/
def okAB (w : LaneW) (sub : Nat) (dflt : Ty) (types : List Ty) (mask : Nat) : Bool :=
  modsOk w sub dflt types mask && srcOk w.ty w.a && srcOk w.ty w.b && dstOk w.ty w.d && w.c == 0

/-- A three-source form at TYPE. -/
def okABC (w : LaneW) (sub : Nat) (dflt : Ty) (types : List Ty) (mask : Nat) : Bool :=
  modsOk w sub dflt types mask && srcOk w.ty w.a && srcOk w.ty w.b && csrcOk w.ty w.c && dstOk w.ty w.d

/-- A one-source form at TYPE. -/
def okA (w : LaneW) (sub : Nat) (dflt : Ty) (types : List Ty) (mask : Nat) : Bool :=
  modsOk w sub dflt types mask && srcOk w.ty w.a && src0 w.b && dstOk w.ty w.d && w.c == 0

/-- A and the amount B at n32 (R139). -/
def okShift (w : LaneW) (sub : Nat) : Bool :=
  modsOk w sub .n32 intTys 0 && srcOk w.ty w.a && srcOk .n32 w.b && dstOk w.ty w.d && w.c == 0

/-- A bit-field form (R139). -/
def okField (w : LaneW) (sub : Nat) : Bool :=
  modsOk w sub .n32 intTys 0 && srcOk w.ty w.a && srcOk .n32 w.b && csrcOk .n32 w.c && dstOk w.ty w.d

/-- addc and subb: C names p0 to p6. -/
def okCarry (w : LaneW) (sub : Nat) : Bool :=
  modsOk w sub .i32 intTys 0 && srcOk w.ty w.a && srcOk w.ty w.b && dstOk w.ty w.d && w.c.toNat ≤ 6

/-- A conversion (R86): source type in C, mode in B where the form has one. -/
def okCvt (w : LaneW) (sub : Nat) (dflt : Ty) (from_ outs : List Ty) (mask : Nat) (mode : Bool) : Bool :=
  modsOk w sub dflt outs mask && w.c.toNat < 16 && from_.contains (tyOf w.c.toNat) &&
  srcOk (tyOf w.c.toNat) w.a && (if mode then srcOk .n32 w.b else src0 w.b) && dstOk w.ty w.d && clampOk w

/-- Primary 0x22 (R110): D 0, TYPE n64, no modifier. -/
def okCtl (w : LaneW) (sub : Nat) : Bool :=
  modsOk w sub .n64 [.n64] 0 && dst0 w.d && w.c == 0

/-- The address field of a memory form (R262, R263). -/
def addrOk (s : Src) : Bool :=
  match s with
  | .special _ => false
  | .imm _ => false
  | s => srcOk .n64 s

/-- The memory qualifiers of R262, with the SEM and CACHE values the form allows (R263). -/
def qualsOk (q : BitVec 12) (sems caches : List Nat) (nr : Bool) : Bool :=
  sems.contains (qSem q) && qScope q ≤ 12 && ((qSem q == 0) == (qScope q == 0)) &&
  caches.contains (qCache q) && bits q.toNat 3 1 == 0 && (nr || !qNr q)

/-- The types of an atom operation (R264). -/
def atomTys : Nat → List Ty
  | 0 | 1 | 2 | 3 | 4 | 5 => words64
  | 6 => words64 ++ [.f32, .f64]
  | 8 => [.f32, .f64, .f16x2, .bf16x2]
  | _ => []

/-- The types of a redux or scan operator (R118). -/
def reduxTys : Nat → List Ty
  | 0 | 1 | 2 => words64 ++ scalarFloats
  | 3 | 4 | 5 => words64
  | _ => []

/-- redux and scan. -/
def okRedux (w : LaneW) (sub : BitVec 4) (excl : Bool) : Bool :=
  modsOk w sub.toNat .i32 (reduxTys (sub.toNat % 8)) mSat && (excl || sub.toNat < 8) &&
  (!qSat w.q || (sub.toNat % 8 == 0 && tyIsInt w.ty)) &&
  srcOk w.ty w.a && src0 w.b && w.c == 0 && dstOk w.ty w.d

/-- shfl: C names the validity predicate (R117). -/
def okShfl (w : LaneW) (sub : Nat) : Bool :=
  modsOk w sub .n32 words64 0 && srcOk w.ty w.a && srcOk .n32 w.b && dstOk w.ty w.d && w.c.toNat ≤ 7

/-! ## Checks of uniform forms -/

def dK : UFld → Bool
  | .k _ => true
  | _ => false
def u0 (f : UFld) : Bool := f == .k 0
def b0 (b : UB) : Bool := b == .fld (.k 0)

/-- Extension kind N (R44). -/
def kindN (w : UniW) : Bool := !w.x
/-- Extension kind I (R44). -/
def kindI (w : UniW) : Bool := !w.x || b0 w.b

/-- A k register field whose number is even and at most 62. -/
def evenK : UFld → Bool
  | .k n => n.val % 2 == 0
  | _ => false

/-- The number in a field given as an immediate. -/
def immOf : UFld → Option Nat
  | .imm n => some n.val
  | _ => none

/-- A ring field 96 + N (R245). -/
def ringFld (f : UFld) : Bool :=
  match immOf f with
  | some n => n < 8
  | none => false

/-- Field set bits of a word. -/
def fs (w : UniW) (hi lo : Nat) : Nat := bits w.e.toNat hi lo

/-- A tile field set: the bit `sel` takes the tile from a loop counter, else from the number in thi:tlo, and INC, the
bit `inc`, goes with the counter (R186, R192, R208). The sub-field that the word does not use holds 0 (R27). -/
def tileFldOk (w : UniW) (sel inc thi tlo chi clo : Nat) : Bool :=
  if fs w sel sel == 1 then fs w thi tlo == 0 else fs w inc inc == 0 && fs w chi clo == 0

/-- XA and ASID (R290, R291): without XA the address space field is not used and holds 0 (R27). -/
def asidFldOk (w : UniW) : Bool := fs w 12 12 == 1 || fs w 11 0 == 0

end Sys2Proof.Machine
end

