-- ==== Sys2Proof/WellFormed.lean ====
section
/-! DEFINITION. The encodings that are legal: every other raises ILL (R27 to R44, R51 step 2, and the
chapter of each form). The rows a group holds (R127) are checked at issue. -/

namespace Sys2Proof

open Sys2Proof.Machine

/-- The legal words. An event is always well formed; a reserved opcode never is. fclass at f64 writes an n32 value, so
its D need not be even (a choice between R36 and R90, log entry 41). -/
def Instr.wf : Instr → Bool
  | .add w => okAB w 0 .i32 intTys (mNegAbs + mSat)
  | .sub w => okAB w 1 .i32 intTys (mNegAbs + mSat)
  | .addc w => okCarry w 2
  | .subb w => okCarry w 3
  | .mul w => okAB w 0 .i32 intTys (mNegAbs + mSat)
  | .mulhi w => okAB w 1 .i32 intTys mNegAbs
  | .mad w => okABC w 2 .i32 intTys (mNegAbs + mSat)
  | .madhi w => okABC w 3 .i32 intTys mNegAbs
  | .div w => okAB w 0 .i32 intTys (mNegAbs + mSat)
  | .rem w => okAB w 1 .i32 intTys (mNegAbs + mSat)
  | .min w => okAB w 0 .i32 intTys (mNegAbs + mSat)
  | .max w => okAB w 1 .i32 intTys (mNegAbs + mSat)
  | .and w => okAB w 0 .n32 intTys 0
  | .or w => okAB w 1 .n32 intTys 0
  | .xor w => okAB w 2 .n32 intTys 0
  | .andn w => okAB w 3 .n32 intTys 0
  | .shl w => okShift w 0
  | .shr w => okShift w 1
  | .sar w => okShift w 2
  | .rot w => okShift w 3
  | .clz w => okA w 0 .n32 intTys 0
  | .popc w => okA w 1 .n32 intTys 0
  | .brev w => okA w 2 .n32 intTys 0
  | .bfx w => okField w 0
  | .bfi w => okField w 1
  | .lea w => modsOk w 0 .n64 [.n64, .n32] 0 && srcOk w.ty w.a && srcOk .xf w.b && dstOk w.ty w.d &&
      w.c.toNat < 128
  | .cmp sb w => modsOk w sb.toNat .i32 intTys 0 && sb.toNat ≤ 9 && srcOk w.ty w.a && srcOk w.ty w.b &&
      w.c == 0 && w.d.toNat ≤ 6
  | .sel w => modsOk w 0 .n32 memTys 0 && srcOk w.ty w.a && srcOk w.ty w.b && dstOk w.ty w.d &&
      w.c.toNat ≤ 7
  | .mov w => okA w 0 .n32 memTys 0
  | .movk w => modsOk w 1 .n32 words64 0 && w.a.toNat ≤ 63 && w.b == 0 && w.c == 0 && dstOk w.ty w.d
  | .pand w => modsOk w 0 .i32 [.i32] 0 && w.d.toNat ≤ 6 && w.a.toNat ≤ 7 && w.b.toNat ≤ 7 && w.c == 0
  | .por w => modsOk w 1 .i32 [.i32] 0 && w.d.toNat ≤ 6 && w.a.toNat ≤ 7 && w.b.toNat ≤ 7 && w.c == 0
  | .pxor w => modsOk w 2 .i32 [.i32] 0 && w.d.toNat ≤ 6 && w.a.toNat ≤ 7 && w.b.toNat ≤ 7 && w.c == 0
  | .pnot w => modsOk w 3 .i32 [.i32] 0 && w.d.toNat ≤ 6 && w.a.toNat ≤ 7 && w.b == 0 && w.c == 0
  | .fadd w => okAB w 0 .f32 floatTys (mNegAbs + mClampScale) && clampOk w
  | .fsub w => okAB w 1 .f32 floatTys (mNegAbs + mClampScale) && clampOk w
  | .fmul w => okAB w 2 .f32 floatTys (mNegAbs + mClampScale) && clampOk w
  | .ffma w => okABC w 0 .f32 floatTys (mNegAbs + mClampScale) && clampOk w
  | .fmin w => okAB w 0 .f32 floatTys mNegAbs
  | .fmax w => okAB w 1 .f32 floatTys mNegAbs
  | .fcmp sb w => modsOk w sb.toNat .f32 scalarFloats mNegAbs && sb.toNat ≤ 13 && srcOk w.ty w.a &&
      srcOk w.ty w.b && w.c == 0 && w.d.toNat ≤ 6
  | .fdiv w => okAB w 0 .f32 scalarFloats (mNegAbs + mClampScale) && clampOk w
  | .frcp w => okA w 0 .f32 scalarFloats (mNegA + mAbsA + mClampScale) && clampOk w
  | .frsq w => okA w 1 .f32 scalarFloats (mNegA + mAbsA + mClampScale) && clampOk w
  | .fsqrt w => okA w 2 .f32 scalarFloats (mNegA + mAbsA + mClampScale) && clampOk w
  | .fex2 w => okA w 3 .f32 [.f32, .f16, .bf16] (mNegA + mAbsA + mClampScale) && clampOk w
  | .flg2 w => okA w 4 .f32 [.f32, .f16, .bf16] (mNegA + mAbsA + mClampScale) && clampOk w
  | .fsin w => okA w 5 .f32 [.f32, .f16, .bf16] (mNegA + mAbsA + mClampScale) && clampOk w
  | .fcos w => okA w 6 .f32 [.f32, .f16, .bf16] (mNegA + mAbsA + mClampScale) && clampOk w
  | .dot2 w => modsOk w 0 .bf16x2 [.bf16x2, .f16x2] (mNegAbs + mClampScale) && clampOk w &&
      srcOk w.ty w.a && srcOk w.ty w.b && csrcOk .f32 w.c && dstOk .f32 w.d
  | .hfma2 w => okABC w 0 .f16x2 [.f16x2, .bf16x2] (mNegAbs + mClampScale) && clampOk w
  | .cvtFf w => okCvt w 0 .f32 scalarFloats scalarFloats (mNegA + mAbsA + mClampScale) true
  | .cvtFi w => okCvt w 1 .i32 scalarFloats intTys (mNegA + mAbsA) true
  | .cvtIf w => okCvt w 2 .f32 intTys scalarFloats (mNegA + mAbsA + mClampScale) true
  | .cvtIi w => okCvt w 3 .i32 intTys intTys (mNegA + mAbsA + mSat) false
  | .cvtxPack w => modsOk w 0 .xf [.xf] (mNegA + mAbsA + mScale) && srcOk .f32 w.a && srcOk .xf w.b &&
      dstOk .xf w.d && w.c.toNat < 8
  | .cvtxUnpack w => modsOk w 1 .xf [.xf] mScale && srcOk .xf w.a && srcOk .n32 w.b && dstOk .xf w.d &&
      w.c.toNat < 8
  | .pack2 w => modsOk w 0 .f16x2 [.f16x2, .bf16x2] (mNegAbs + mClampScale) && clampOk w &&
      srcOk .f32 w.a && srcOk .f32 w.b && dstOk .f32 w.d && w.c == 0
  | .fclass w => modsOk w 0 .f32 (scalarFloats ++ [.xf]) 0 && srcOk w.ty w.a && src0 w.b && dstOk .n32 w.d &&
      (if w.ty == .xf then decide (w.c.toNat < 8) else w.c == 0)
  | .bscl w => modsOk w 0 .f32 [.f32] mAbsA && srcOk .f32 w.a && src0 w.b && dstOk .f32 w.d && w.c.toNat < 8
  | .qblk w => modsOk w 0 .xf [.xf] (mNegA + mAbsA + mScale) && srcOk .f32 w.a && srcOk .xf w.b &&
      dstOk .xf w.d && w.c.toNat < 8
  | .bra w => !w.x && !(w.g == 7 && w.gn)
  | .call w => !w.x && !(w.g == 7 && w.gn)
  | .brx w => okCtl w 0 && srcOk .n64 w.a && src0 w.b
  | .callx w => okCtl w 1 && srcOk .n64 w.a && src0 w.b
  | .ret w => okCtl w 2 && src0 w.a && src0 w.b
  | .exit w => okCtl w 3 && src0 w.a && src0 w.b
  | .brk w => okCtl w 4 && src0 w.a && (match w.b with | .imm n => decide (16 ≤ n.val) | _ => false)
  | .rejoin w => okCtl w 5 && src0 w.a && src0 w.b
  | .yield w => okCtl w 6 && src0 w.a && src0 w.b
  | .voteAny w => modsOk w 0 .i32 [.i32] 0 && w.d.toNat ≤ 6 && srcOk .n32 w.a && src0 w.b && w.c == 0
  | .voteAll w => modsOk w 1 .i32 [.i32] 0 && w.d.toNat ≤ 6 && srcOk .n32 w.a && src0 w.b && w.c == 0
  | .voteBal w => okA w 2 .i32 [.n32] 0
  | .shflIdx w => okShfl w 0
  | .shflUp w => okShfl w 1
  | .shflDn w => okShfl w 2
  | .shflXor w => okShfl w 3
  | .redux sb w => okRedux w sb false
  | .scan sb w => okRedux w sb true
  | .match_ w => okA w 0 .n32 words64 0
  | .spawn w => modsOk w 0 .n64 [.n64] 0 && dst0 w.d && srcOk .n64 w.a && csrcOk .n32 w.c &&
      (match w.b with | .v n => n.val % 4 == 0 && decide (n.val ≤ 108) | _ => false)
  | .phflush w => modsOk w 0 .n64 [.n64] 0 && dst0 w.d && srcOk .n64 w.a && src0 w.b && w.c == 0
  | .ld w => modsOk w 0 .n32 memTys 0xFFF && addrOk w.a && srcOk .i32 w.b && w.c == 0 && dstOk w.ty w.d &&
      qualsOk w.q [0, 1] [0, 1, 2, 3] false
  | .st w => modsOk w 0 .n32 memTys 0xFFF && addrOk w.a && srcOk .i32 w.b && csrcOk w.ty w.c && dst0 w.d &&
      qualsOk w.q [0, 2] [0, 1] false
  | .atom sb w => modsOk w sb.toNat .n32 (atomTys sb.toNat) 0xFFF && addrOk w.a && srcOk .i32 w.b &&
      csrcOk w.ty w.c && dstOk w.ty w.d && qualsOk w.q [0, 1, 2, 3] [0] true && (!qNr w.q || dst0 w.d)
  | .cas w => modsOk w 0 .n32 words64 0xFFF && addrOk w.a && srcOk w.ty w.b && csrcOk w.ty w.c &&
      dstOk w.ty w.d && qualsOk w.q [0, 1, 2, 3] [0] false
  | .prf w => modsOk w 0 .i32 [.i32] 0xFFF && addrOk w.a && srcOk .i32 w.b && w.c == 0 && dst0 w.d &&
      qualsOk w.q [0] [0, 1, 2] false
  | .spt w => okA w 0 .n64 [.n64] 0
  | .spc w => okA w 1 .n64 [.n64] 0
  | .ldb w => modsOk w 0 .n32 memTys 0xFFF && addrOk w.a && srcOk .i32 w.b && w.c == 0 && dstOk w.ty w.d
  | .mtov w => modsOk w 0 .f32 [.f32, .i32, .n32, .f64] 0 && srcOk .n32 w.a && srcOk .n32 w.b &&
      w.c == 0 && dstOk w.ty w.d
  | .mvtot w => modsOk w 0 .f32 [.f32, .i32, .n32, .f64] 0 && srcOk .n32 w.a && srcOk .n32 w.b &&
      csrcOk w.ty w.c && dst0 w.d
  | .kadd w | .ksub w | .kmul w | .kand w | .kor w | .kxor w | .kshl w | .kshr w | .kmin w | .kmax w =>
      kindI w && dK w.d
  | .kcmp w => u0 w.d && fs w 31 10 == 0 && fs w 7 7 == 0 && fs w 6 4 ≤ 6 && fs w 3 0 ≤ 10
  | .ksel w => dK w.d && fs w 31 4 == 0
  | .kmov w => kindN w && dK w.d && b0 w.b
  | .kmovi w => kindI w && dK w.d && u0 w.a
  | .lcset w => b0 w.b && (match w.d with | .lc _ => fs w 31 31 == 1 || fs w 30 0 == 0 | .lm _ => w.e == 0 | _ => false)
  | .lcstep w => kindN w && u0 w.a && (match w.d with | .lc _ => true | _ => false)
  | .kcset w => kindI w && u0 w.a && (match w.d with | .kc _ => true | _ => false)
  | .kcwait w => kindN w && dK w.d && b0 w.b && (match w.a with | .kc _ => true | _ => false)
  | .kfmtSet w => u0 w.d && b0 w.b && fs w 31 12 == 0 && fs w 8 7 == 0 && fs w 6 0 == 0
  | .kfmtSetPreset w => u0 w.d && b0 w.b && u0 w.a && fs w 31 12 == 0 && fs w 8 7 == 1 &&
      decide (1 ≤ fs w 6 0) && decide (fs w 6 0 ≤ 7)
  | .kfmtSetSeed w => u0 w.d && b0 w.b && fs w 31 12 == 0 && fs w 8 7 == 2 && fs w 6 0 == 0
  | .kfmtGet w => kindN w && dK w.d && b0 w.b && ringFld w.a
  | .kbra w | .kcall w => kindI w && u0 w.d && (match w.a with | .k n => decide (n.val ≤ 14) | _ => false)
  | .kret w | .mseqEnd w | .eret w | .halt w => kindN w && u0 w.d && u0 w.a && b0 w.b
  | .obres w => dK w.d && fs w 14 0 == 0
  | .obfree w | .mbarArr w => kindN w && u0 w.d && b0 w.b
  | .mload w => u0 w.d && evenK w.a && fs w 12 0 == 0
  | .mloadx w => u0 w.d && evenK w.a && fs w 12 10 ≤ 4 && fs w 9 0 == 0
  | .mma w => u0 w.d && tileFldOk w 19 18 23 20 17 16 && fs w 15 12 ≤ 6 && fs w 10 0 == 0
  | .mzero w => kindN w && u0 w.d && b0 w.b &&
      (match w.a with | .imm n => decide (n.val ≤ 15) | .lc _ => true | _ => false)
  | .macc w => u0 w.d && b0 w.b && fs w 19 0 == 0 && fs w 21 20 != 3 &&
      (if fs w 23 22 == 2 then fs w 27 24 == 0 else u0 w.a)
  | .mst w => u0 w.d && b0 w.b && evenK w.a && tileFldOk w 27 24 31 28 26 25 && fs w 23 20 ≤ 6 &&
      (fs w 19 19 == 1 || fs w 18 16 == 0) && fs w 15 0 == 0
  | .mbarWait w => kindN w && dK w.d && b0 w.b
  | .mseqGo w => u0 w.d && b0 w.b && fs w 31 6 == 0
  | .mrow w => kindN w && dK w.d && b0 w.b && w.a == .imm 0
  | .mrowClr w => kindN w && dK w.d && b0 w.b && w.a == .imm 1
  | .sdec w => u0 w.d && fs w 15 0 == 0 && (fs w 19 16 ≤ 1 || (fs w 19 16 == 3 && fs w 22 22 == 1))
  | .mmat w | .mres w => u0 w.d && tileFldOk w 19 18 23 20 17 16 && fs w 14 0 == 0
  | .sbound w => kindI w && u0 w.d && u0 w.a
  | .sstat w => kindN w && dK w.d && b0 w.b && w.a == .imm 0
  | .sstatClr w => kindN w && dK w.d && b0 w.b && w.a == .imm 1
  | .lrec w => u0 w.d && fs w 31 8 == 0 &&
      (match w.a with | .k n => decide (n.val + fs w 3 0 + 1 ≤ 64) | _ => false) &&
      decide (fs w 7 4 + fs w 3 0 + 1 ≤ 16)
  | .lrecTap w => u0 w.d && u0 w.a
  | .wbind w => kindN w && u0 w.d
  | .wunbind w | .wpost w | .pmarm w => kindN w && u0 w.d && u0 w.a
  | .wabs w => kindN w && u0 w.d && (match w.a with | .k n => decide (n.val ≤ 61) | _ => false)
  | .wtouch w => kindN w && dK w.d && u0 w.a
  | .wstat w => kindN w && dK w.d && w.a == .imm 0
  | .wstatRead w => kindN w && dK w.d && b0 w.b && w.a == .imm 1
  | .wstatClr w => kindN w && dK w.d && b0 w.b && w.a == .imm 2
  | .pmwait w => kindN w && dK w.d && u0 w.a && b0 w.b
  | .ringInit w => u0 w.d && b0 w.b && fs w 31 9 == 0
  | .ringPut w => kindN w && u0 w.d && ringFld w.a
  | .ringPutFree w => kindN w && u0 w.d && b0 w.b &&
      (match immOf w.a with | some n => decide (8 ≤ n) && decide (n < 16) | none => false)
  | .ringGet w => kindN w && dK w.d && b0 w.b && ringFld w.a
  | .ringWait w => kindN w && dK w.d && ringFld w.a && (w.b == .imm 64 || w.b == .imm 65)
  | .kld w | .kst w => kindI w && dK w.d && dK w.a
  | .katom w => dK w.d && dK w.a && (atomTys (fs w 31 28)).contains (tyOf (fs w 20 17)) &&
      fs w 25 22 ≤ 12 && ((fs w 27 26 == 0) == (fs w 25 22 == 0)) && (fs w 21 21 == 0 || u0 w.d) &&
      fs w 16 0 == 0
  | .fence w => u0 w.d && u0 w.a && b0 w.b && fs w 31 6 == 0 && fs w 5 4 != 3 && fs w 3 0 ≤ 12
  | .cwb w | .cinv w | .icinv w => kindN w && u0 w.d && dK w.a
  | .monArm w => kindN w && u0 w.d &&
      (match w.b with | .imm n => decide (64 ≤ n.val) && decide (n.val ≤ 67) | _ => false)
  | .monWait w => kindN w && dK w.d && u0 w.a
  | .tlbinv w => u0 w.d && b0 w.b && fs w 31 18 == 0 && fs w 15 14 != 3 && fs w 13 13 == 0 &&
      (if fs w 17 16 == 0 then dK w.a else u0 w.a) && (if fs w 17 16 ≤ 1 then asidFldOk w else fs w 12 0 == 0)
  | .pgmig w => dK w.d && dK w.a && fs w 31 13 == 0 && asidFldOk w
  | .roundAdv w | .roundGet w => kindN w && dK w.d && dK w.a && b0 w.b
  | .roundFloor w => kindN w && dK w.d && dK w.a
  | .roundFloorClr w => kindN w && u0 w.d && b0 w.b && w.a == .imm 0
  | .barArr w | .barLeave w => kindN w && u0 w.d && b0 w.b
  | .barWait w | .barSync w | .barJoin w | .barGen w => kindN w && dK w.d && b0 w.b
  | .rdtime w | .rdcyc w => kindN w && dK w.d && u0 w.a && b0 w.b
  | .nap w => kindN w && u0 w.d && b0 w.b
  | .post w => kindN w && dK w.d && dK w.a
  | .qreset w => kindN w && dK w.d && u0 w.a
  | .trap w | .sysc w | .tmark w => kindI w && u0 w.d && u0 w.a
  | .mfs w => kindN w && dK w.d && u0 w.a && (match w.b with | .imm n => decide (64 ≤ n.val) | _ => true)
  | .mts w => kindN w && u0 w.d && (match w.b with | .imm n => decide (64 ≤ n.val) | _ => true)
  | .tsamp w => dK w.d && u0 w.a && b0 w.b && fs w 31 16 == 0 && fs w 3 0 == 0 &&
      (if fs w 15 15 == 1 then decide (4 ≤ fs w 14 10) && decide (fs w 14 10 ≤ 20) else fs w 14 10 == 0) &&
      (if fs w 9 9 == 1 then decide (4 ≤ fs w 8 4) && decide (fs w 8 4 ≤ 20) else fs w 8 4 == 0)
  | .cntrd w => kindN w && dK w.d
  | .cntcfgEvent w => u0 w.d && b0 w.b && fs w 31 14 == 0 && fs w 13 12 == 0 && fs w 11 6 ≤ 19 && fs w 5 4 == 0
  | .cntcfgClear w => u0 w.d && b0 w.b && fs w 31 14 == 0 && fs w 13 12 == 1 && fs w 11 6 == 0 && fs w 5 4 == 0
  | .cntcfgWrite w => u0 w.d && fs w 31 14 == 0 && fs w 13 12 == 2 && fs w 11 6 == 0 && fs w 5 4 == 0
  | .ipref _ | .nop _ => true
  | .hint op _ => op.toNat != 0 && op.toNat != 15
  | .reservedOpcode _ _ => false
  | .rtctlCommit _ | .rtctlRelease _ | .qctlEnable _ | .qctlDisable _ | .qctlSuspend _ | .qctlResume _
  | .tsctlOpen _ | .tsctlClose _ | .tsptrHeadWrite _ | .fqptrHeadWrite _ | .rtfailAck _ | .clockChange _
  | .eccError _ _ _ _ | .hostAccess _ _ _ | .peerAccess _ _ _ | .getVersion | .getCapabilities
  | .negotiateAlgorithms | .getDigests | .getCertificate | .challenge | .getMeasurements | .unsupportedRequest
  | .packageReset | .timingLock | .referenceLoss | .portFailure | .ucieModuleFailure | .linkLoss
  | .cxlSurpriseRemoval | .pigeonholeExpiry | .pendingGroupPlacement | .leaseEnd | .pathAgeLimit
  | .holdCountLimit | .convergenceRelease | .rejoinRelease | .markerRelease | .resultLanding
  | .completionLanding | .kcwaitReturn | .pmwaitReturn | .monWaitReturn | .monWaitTimeout | .napExpiry
  | .ringWaitReturn | .ringPutRecord | .arrivalRecord | .barrierWaitReturn | .mbarWaitReturn
  | .spawnRelease | .storePerform | .pageWalkComplete | .faultRecordWrite | .streamTrapDelivery
  | .migrationComplete | .courierStart | .runaheadStart | .copyInEnd | .copyOutEnd | .mloadComplete
  | .mstComplete | .sdecComplete | .streamEnd | .groupEnd | .launchComplete | .anchorRead | .startTimeReached
  | .deadlinePass | .arbitration | .gridRotation | .roundNotice | .stallPush | .stallWatchTimeout
  | .lineFill | .invalidation | .privatisedMerge | .cardDrain | .stallEnd | .sampleCountdown
  | .counterAdd | .referenceRelock | .replicaUpdate | .invalidationAcknowledged => true

end Sys2Proof
end

