-- ==== Sys2Proof/Decode.lean ====
section
/-! DEFINITION. The decoder: instruction words to instructions (R24 to R56), total on any words and bytes,
rejecting by name; and the encoder, written from the same tables. -/

namespace Sys2Proof

open Sys2Proof.Machine

/-- Why bytes give no instruction. -/
inductive Reject
  /-- Fewer than four bytes: no base word. -/
  | truncated
  /-- The base word has X = 1 and fewer than four bytes follow it. -/
  | truncatedExt
  /-- The words are an encoding that raises ILL (R27 to R55). -/
  | illegal (i : Instr)
  deriving DecidableEq, Repr

namespace Decode

/-- A lane word and its modifier word, or the default modifier word when X = 0 (R26, R28, R29). -/
def lane {δ α β : Type} (fd : Nat → δ) (fa : Nat → α) (fb : Nat → β) (dflt : Ty) (w e : Nat) :
    LaneForm δ α β :=
  { s := bit w 30, x := bit w 29
    d := fd (bits w 22 16), a := fa (bits w 15 8), b := fb (bits w 7 0)
    c := if bit w 29 then BitVec.ofNat 8 (bits e 31 24) else 0
    g := if bit w 29 then BitVec.ofNat 3 (bits e 23 21) else 7
    gn := bit w 29 && bit e 20
    ty := if bit w 29 then tyOf (bits e 19 16) else dflt
    q := if bit w 29 then BitVec.ofNat 12 (bits e 15 4) else 0 }

def laneR (dflt : Ty) (w e : Nat) : LaneW := lane dstOf srcOf srcOf dflt w e
def laneP (dflt : Ty) (w e : Nat) : PredW := lane (BitVec.ofNat 7) srcOf srcOf dflt w e
def lanePL (dflt : Ty) (w e : Nat) : PLogW := lane (BitVec.ofNat 7) (BitVec.ofNat 8) (BitVec.ofNat 8) dflt w e
def laneK (dflt : Ty) (w e : Nat) : KMovW := lane dstOf (BitVec.ofNat 8) (BitVec.ofNat 8) dflt w e

/-- The branch layout (R37). -/
def braW (w e : Nat) : BraW :=
  { s := bit w 30, x := bit w 29, g := BitVec.ofNat 3 (bits w 22 20), gn := bit w 19
    disp := BitVec.ofNat 19 (bits w 18 0), e := if bit w 29 then BitVec.ofNat 32 e else 0 }

/-- A uniform word (R39, R44). -/
def uniW (w e : Nat) : UniW :=
  { s := bit w 30, x := bit w 29, d := ufldOf (bits w 21 15), a := ufldOf (bits w 14 8)
    b := ubOf (bits w 7 0), e := if bit w 29 then BitVec.ofNat 32 e else 0 }

/-- SUB of a lane word: 0 in the default modifier word (R29). -/
def subOf (w e : Nat) : Nat := if bit w 29 then bits e 3 0 else 0

/-- A ring field 104 + N (R245). -/
def freeFld (f : UFld) : Bool :=
  match f with
  | .imm n => decide (8 ≤ n.val) && decide (n.val < 16)
  | _ => false

/-- The instruction of an opcode that R53 and R54 leave unassigned. -/
def reserved (w e : Nat) : Instr := .reservedOpcode (BitVec.ofNat 32 w) (if bit w 29 then BitVec.ofNat 32 e else 0)

/-- Lane opcodes (R53). -/
def parseLane (w e : Nat) : Instr :=
  match bits w 28 23 with
  | 0 => match subOf w e with
    | 0 => .add (laneR .i32 w e)
    | 1 => .sub (laneR .i32 w e)
    | 2 => .addc (laneR .i32 w e)
    | 3 => .subb (laneR .i32 w e)
    | _ => reserved w e
  | 1 => match subOf w e with
    | 0 => .mul (laneR .i32 w e)
    | 1 => .mulhi (laneR .i32 w e)
    | 2 => .mad (laneR .i32 w e)
    | 3 => .madhi (laneR .i32 w e)
    | _ => reserved w e
  | 2 => match subOf w e with
    | 0 => .div (laneR .i32 w e)
    | 1 => .rem (laneR .i32 w e)
    | _ => reserved w e
  | 3 => match subOf w e with
    | 0 => .min (laneR .i32 w e)
    | 1 => .max (laneR .i32 w e)
    | _ => reserved w e
  | 4 => match subOf w e with
    | 0 => .and (laneR .n32 w e)
    | 1 => .or (laneR .n32 w e)
    | 2 => .xor (laneR .n32 w e)
    | 3 => .andn (laneR .n32 w e)
    | _ => reserved w e
  | 5 => match subOf w e with
    | 0 => .shl (laneR .n32 w e)
    | 1 => .shr (laneR .n32 w e)
    | 2 => .sar (laneR .n32 w e)
    | 3 => .rot (laneR .n32 w e)
    | _ => reserved w e
  | 6 => match subOf w e with
    | 0 => .clz (laneR .n32 w e)
    | 1 => .popc (laneR .n32 w e)
    | 2 => .brev (laneR .n32 w e)
    | _ => reserved w e
  | 7 => match subOf w e with
    | 0 => .bfx (laneR .n32 w e)
    | 1 => .bfi (laneR .n32 w e)
    | _ => reserved w e
  | 8 => match subOf w e with
    | 0 => .lea (laneR .n64 w e)
    | _ => reserved w e
  | 9 => .cmp (BitVec.ofNat 4 (subOf w e)) (laneP .i32 w e)
  | 10 => match subOf w e with
    | 0 => .sel (laneR .n32 w e)
    | _ => reserved w e
  | 11 => match subOf w e with
    | 0 => .mov (laneR .n32 w e)
    | 1 => .movk (laneK .n32 w e)
    | _ => reserved w e
  | 12 => match subOf w e with
    | 0 => .pand (lanePL .i32 w e)
    | 1 => .por (lanePL .i32 w e)
    | 2 => .pxor (lanePL .i32 w e)
    | 3 => .pnot (lanePL .i32 w e)
    | _ => reserved w e
  | 16 => match subOf w e with
    | 0 => .fadd (laneR .f32 w e)
    | 1 => .fsub (laneR .f32 w e)
    | 2 => .fmul (laneR .f32 w e)
    | _ => reserved w e
  | 17 => match subOf w e with
    | 0 => .ffma (laneR .f32 w e)
    | _ => reserved w e
  | 18 => match subOf w e with
    | 0 => .fmin (laneR .f32 w e)
    | 1 => .fmax (laneR .f32 w e)
    | _ => reserved w e
  | 19 => .fcmp (BitVec.ofNat 4 (subOf w e)) (laneP .f32 w e)
  | 20 => match subOf w e with
    | 0 => .fdiv (laneR .f32 w e)
    | _ => reserved w e
  | 21 => match subOf w e with
    | 0 => .frcp (laneR .f32 w e)
    | 1 => .frsq (laneR .f32 w e)
    | 2 => .fsqrt (laneR .f32 w e)
    | 3 => .fex2 (laneR .f32 w e)
    | 4 => .flg2 (laneR .f32 w e)
    | 5 => .fsin (laneR .f32 w e)
    | 6 => .fcos (laneR .f32 w e)
    | _ => reserved w e
  | 22 => match subOf w e with
    | 0 => .dot2 (laneR .bf16x2 w e)
    | _ => reserved w e
  | 23 => match subOf w e with
    | 0 => .hfma2 (laneR .f16x2 w e)
    | _ => reserved w e
  | 24 => match subOf w e with
    | 0 => .cvtFf (laneR .f32 w e)
    | 1 => .cvtFi (laneR .i32 w e)
    | 2 => .cvtIf (laneR .f32 w e)
    | 3 => .cvtIi (laneR .i32 w e)
    | _ => reserved w e
  | 25 => match subOf w e with
    | 0 => .cvtxPack (laneR .xf w e)
    | 1 => .cvtxUnpack (laneR .xf w e)
    | _ => reserved w e
  | 26 => match subOf w e with
    | 0 => .pack2 (laneR .f16x2 w e)
    | _ => reserved w e
  | 27 => match subOf w e with
    | 0 => .fclass (laneR .f32 w e)
    | _ => reserved w e
  | 28 => match subOf w e with
    | 0 => .bscl (laneR .f32 w e)
    | _ => reserved w e
  | 29 => match subOf w e with
    | 0 => .qblk (laneR .xf w e)
    | _ => reserved w e
  | 32 => .bra (braW w e)
  | 33 => .call (braW w e)
  | 34 => match subOf w e with
    | 0 => .brx (laneR .n64 w e)
    | 1 => .callx (laneR .n64 w e)
    | 2 => .ret (laneR .n64 w e)
    | 3 => .exit (laneR .n64 w e)
    | 4 => .brk (laneR .n64 w e)
    | 5 => .rejoin (laneR .n64 w e)
    | 6 => .yield (laneR .n64 w e)
    | _ => reserved w e
  | 36 => match subOf w e with
    | 0 => .voteAny (laneP .i32 w e)
    | 1 => .voteAll (laneP .i32 w e)
    | 2 => .voteBal (laneR .n32 w e)
    | _ => reserved w e
  | 37 => match subOf w e with
    | 0 => .shflIdx (laneR .n32 w e)
    | 1 => .shflUp (laneR .n32 w e)
    | 2 => .shflDn (laneR .n32 w e)
    | 3 => .shflXor (laneR .n32 w e)
    | _ => reserved w e
  | 38 => .redux (BitVec.ofNat 4 (subOf w e)) (laneR .i32 w e)
  | 39 => .scan (BitVec.ofNat 4 (subOf w e)) (laneR .i32 w e)
  | 40 => match subOf w e with
    | 0 => .match_ (laneR .n32 w e)
    | _ => reserved w e
  | 41 => match subOf w e with
    | 0 => .spawn (laneR .n64 w e)
    | _ => reserved w e
  | 42 => match subOf w e with
    | 0 => .phflush (laneR .n64 w e)
    | _ => reserved w e
  | 48 => match subOf w e with
    | 0 => .ld (laneR .n32 w e)
    | _ => reserved w e
  | 49 => match subOf w e with
    | 0 => .st (laneR .n32 w e)
    | _ => reserved w e
  | 50 => .atom (BitVec.ofNat 4 (subOf w e)) (laneR .n32 w e)
  | 51 => match subOf w e with
    | 0 => .cas (laneR .n32 w e)
    | _ => reserved w e
  | 52 => match subOf w e with
    | 0 => .prf (laneR .i32 w e)
    | _ => reserved w e
  | 53 => match subOf w e with
    | 0 => .spt (laneR .n64 w e)
    | 1 => .spc (laneR .n64 w e)
    | _ => reserved w e
  | 54 => match subOf w e with
    | 0 => .ldb (laneR .n32 w e)
    | _ => reserved w e
  | 56 => match subOf w e with
    | 0 => .mtov (laneR .f32 w e)
    | _ => reserved w e
  | 57 => match subOf w e with
    | 0 => .mvtot (laneR .f32 w e)
    | _ => reserved w e
  | _ => reserved w e

/-- Uniform opcodes (R54, R55). -/
def parseUni (w e : Nat) : Instr :=
  let u := uniW w e
  match bits w 28 22 with
  | 0 => .kadd u
  | 1 => .ksub u
  | 2 => .kmul u
  | 3 => .kand u
  | 4 => .kor u
  | 5 => .kxor u
  | 6 => .kshl u
  | 7 => .kshr u
  | 8 => .kmin u
  | 9 => .kmax u
  | 10 => .kcmp u
  | 11 => .ksel u
  | 12 => .kmov u
  | 13 => .kmovi u
  | 14 => .lcset u
  | 15 => .lcstep u
  | 16 => .kcset u
  | 17 => .kcwait u
  | 18 => if fs u 8 7 == 1 then .kfmtSetPreset u else if fs u 8 7 == 2 then .kfmtSetSeed u else .kfmtSet u
  | 19 => .kfmtGet u
  | 20 => .kbra u
  | 21 => .kcall u
  | 22 => .kret u
  | 24 => .obres u
  | 25 => .obfree u
  | 26 => .mload u
  | 27 => .mloadx u
  | 28 => .mma u
  | 29 => .mzero u
  | 30 => .macc u
  | 31 => .mst u
  | 32 => .mbarArr u
  | 33 => .mbarWait u
  | 34 => .mseqGo u
  | 35 => .mseqEnd u
  | 36 => if u.a == .imm 1 then .mrowClr u else .mrow u
  | 40 => .sdec u
  | 41 => .mmat u
  | 42 => .mres u
  | 43 => .sbound u
  | 44 => if u.a == .imm 1 then .sstatClr u else .sstat u
  | 48 => .lrec u
  | 49 => .lrecTap u
  | 50 => .wbind u
  | 51 => .wunbind u
  | 52 => .wabs u
  | 53 => .wtouch u
  | 54 => .wpost u
  | 55 => if u.a == .imm 1 then .wstatRead u else if u.a == .imm 2 then .wstatClr u else .wstat u
  | 56 => .pmarm u
  | 57 => .pmwait u
  | 58 => .ringInit u
  | 59 => if freeFld u.a then .ringPutFree u else .ringPut u
  | 60 => .ringGet u
  | 61 => .ringWait u
  | 64 => .kld u
  | 65 => .kst u
  | 66 => .katom u
  | 67 => .fence u
  | 68 => .cwb u
  | 69 => .cinv u
  | 70 => .monArm u
  | 71 => .monWait u
  | 72 => .tlbinv u
  | 73 => .pgmig u
  | 76 => .roundAdv u
  | 77 => .roundGet u
  | 78 => if u.a == .imm 0 then .roundFloorClr u else .roundFloor u
  | 80 => .barArr u
  | 81 => .barWait u
  | 82 => .barSync u
  | 83 => .barJoin u
  | 84 => .barLeave u
  | 85 => .barGen u
  | 86 => .rdtime u
  | 87 => .rdcyc u
  | 88 => .nap u
  | 92 => .post u
  | 93 => .qreset u
  | 96 => .trap u
  | 97 => .sysc u
  | 98 => .eret u
  | 99 => .mfs u
  | 100 => .mts u
  | 101 => .halt u
  | 104 => .tmark u
  | 105 => .tsamp u
  | 106 => .cntrd u
  | 107 => if fs u 13 12 == 1 then .cntcfgClear u else if fs u 13 12 == 2 then .cntcfgWrite u else .cntcfgEvent u
  | 108 => .icinv u
  | 112 => .ipref u
  | 127 => .nop u
  | 113 => .hint 1 u
  | 114 => .hint 2 u
  | 115 => .hint 3 u
  | 116 => .hint 4 u
  | 117 => .hint 5 u
  | 118 => .hint 6 u
  | 119 => .hint 7 u
  | 120 => .hint 8 u
  | 121 => .hint 9 u
  | 122 => .hint 10 u
  | 123 => .hint 11 u
  | 124 => .hint 12 u
  | 125 => .hint 13 u
  | 126 => .hint 14 u
  | _ => reserved w e

end Decode

/-- The instruction that a base word and the word after it hold (R24); the second word is read only when
X = 1. Total: an unassigned opcode is `reservedOpcode`. -/
def parse (w e : Nat) : Instr := if bit w 31 then Decode.parseUni w e else Decode.parseLane w e

/-- Four bytes, lowest address first, as a word (R3). -/
def wordOfBytes (a b c d : Byte) : Nat :=
  a.toNat + b.toNat * 2 ^ 8 + c.toNat * 2 ^ 16 + d.toNat * 2 ^ 24

/-- The bytes of a word, lowest address first (R3). -/
def bytesOfWord (w : Nat) : List Byte :=
  [BitVec.ofNat 8 w, BitVec.ofNat 8 (w / 2 ^ 8), BitVec.ofNat 8 (w / 2 ^ 16), BitVec.ofNat 8 (w / 2 ^ 24)]

/-- The next instruction of a byte string, legal or not, and the bytes after it. -/
def readInstr : List Byte → Except Reject (Instr × List Byte)
  | a :: b :: c :: d :: rest =>
    let w := wordOfBytes a b c d
    if bit w 29 then
      match rest with
      | a' :: b' :: c' :: d' :: rest' => .ok (parse w (wordOfBytes a' b' c' d'), rest')
      | _ => .error .truncatedExt
    else .ok (parse w 0, rest)
  | _ => .error .truncated

/-- The decoder: the next legal instruction and the bytes after it. -/
def decode (bs : List Byte) : Except Reject (Instr × List Byte) :=
  match readInstr bs with
  | .ok (i, rest) => if i.wf then .ok (i, rest) else .error (.illegal i)
  | .error r => .error r

/-- The instruction the decoder reads from a word numbered as spec/opcode_table.json numbers it: the base
word in bits 31:0, the extension word above it. A word that reads as an illegal encoding is still the
instruction it reads as: raising ILL is the machine's act (R51). -/
def decodeTableWord (_nbits w : Nat) : Option Instr :=
  match readInstr (bytesOfWord (w % 2 ^ 32) ++ bytesOfWord (w / 2 ^ 32 % 2 ^ 32)) with
  | .ok (i, _) => some i
  | .error _ => none

namespace Encode

/-- A base word of the lane set (R26). -/
def laneBase (op d a b : Nat) (s x : Bool) : Nat :=
  s.toNat * 2 ^ 30 + x.toNat * 2 ^ 29 + op * 2 ^ 23 + d * 2 ^ 16 + a * 2 ^ 8 + b

/-- A modifier word (R28). -/
def laneExt (c g : Nat) (gn : Bool) (ty q sub : Nat) : Nat :=
  c * 2 ^ 24 + g * 2 ^ 21 + gn.toNat * 2 ^ 20 + ty * 2 ^ 16 + q * 2 ^ 4 + sub

/-- A lane form as its words. -/
def lane {δ α β : Type} (fd : δ → Nat) (fa : α → Nat) (fb : β → Nat) (op sub : Nat) (w : LaneForm δ α β) :
    List Nat :=
  laneBase op (fd w.d) (fa w.a) (fb w.b) w.s w.x ::
    (if w.x then [laneExt w.c.toNat w.g.toNat w.gn (tyCode w.ty) w.q.toNat sub] else [])

def laneR (op sub : Nat) (w : LaneW) : List Nat := lane dstCode srcCode srcCode op sub w
def laneP (op sub : Nat) (w : PredW) : List Nat := lane BitVec.toNat srcCode srcCode op sub w
def lanePL (op sub : Nat) (w : PLogW) : List Nat := lane BitVec.toNat BitVec.toNat BitVec.toNat op sub w
def laneK (op sub : Nat) (w : KMovW) : List Nat := lane dstCode BitVec.toNat BitVec.toNat op sub w

/-- A branch word (R37). -/
def bra (op : Nat) (w : BraW) : List Nat :=
  [w.s.toNat * 2 ^ 30 + op * 2 ^ 23 + w.g.toNat * 2 ^ 20 + w.gn.toNat * 2 ^ 19 + w.disp.toNat]

/-- A uniform form as its words (R39, R44). -/
def uni (op : Nat) (w : UniW) : List Nat :=
  (2 ^ 31 + w.s.toNat * 2 ^ 30 + w.x.toNat * 2 ^ 29 + op * 2 ^ 22 + ufldCode w.d * 2 ^ 15 +
      ufldCode w.a * 2 ^ 8 + ubCode w.b) ::
    (if w.x then [w.e.toNat] else [])

end Encode

/-- The words of an instruction (R26 to R56), base word first; an event has none. -/
def encode : Instr → List Nat
  | .add w => Encode.laneR 0 0 w
  | .sub w => Encode.laneR 0 1 w
  | .addc w => Encode.laneR 0 2 w
  | .subb w => Encode.laneR 0 3 w
  | .mul w => Encode.laneR 1 0 w
  | .mulhi w => Encode.laneR 1 1 w
  | .mad w => Encode.laneR 1 2 w
  | .madhi w => Encode.laneR 1 3 w
  | .div w => Encode.laneR 2 0 w
  | .rem w => Encode.laneR 2 1 w
  | .min w => Encode.laneR 3 0 w
  | .max w => Encode.laneR 3 1 w
  | .and w => Encode.laneR 4 0 w
  | .or w => Encode.laneR 4 1 w
  | .xor w => Encode.laneR 4 2 w
  | .andn w => Encode.laneR 4 3 w
  | .shl w => Encode.laneR 5 0 w
  | .shr w => Encode.laneR 5 1 w
  | .sar w => Encode.laneR 5 2 w
  | .rot w => Encode.laneR 5 3 w
  | .clz w => Encode.laneR 6 0 w
  | .popc w => Encode.laneR 6 1 w
  | .brev w => Encode.laneR 6 2 w
  | .bfx w => Encode.laneR 7 0 w
  | .bfi w => Encode.laneR 7 1 w
  | .lea w => Encode.laneR 8 0 w
  | .cmp sb w => Encode.laneP 9 sb.toNat w
  | .sel w => Encode.laneR 10 0 w
  | .mov w => Encode.laneR 11 0 w
  | .movk w => Encode.laneK 11 1 w
  | .pand w => Encode.lanePL 12 0 w
  | .por w => Encode.lanePL 12 1 w
  | .pxor w => Encode.lanePL 12 2 w
  | .pnot w => Encode.lanePL 12 3 w
  | .fadd w => Encode.laneR 16 0 w
  | .fsub w => Encode.laneR 16 1 w
  | .fmul w => Encode.laneR 16 2 w
  | .ffma w => Encode.laneR 17 0 w
  | .fmin w => Encode.laneR 18 0 w
  | .fmax w => Encode.laneR 18 1 w
  | .fcmp sb w => Encode.laneP 19 sb.toNat w
  | .fdiv w => Encode.laneR 20 0 w
  | .frcp w => Encode.laneR 21 0 w
  | .frsq w => Encode.laneR 21 1 w
  | .fsqrt w => Encode.laneR 21 2 w
  | .fex2 w => Encode.laneR 21 3 w
  | .flg2 w => Encode.laneR 21 4 w
  | .fsin w => Encode.laneR 21 5 w
  | .fcos w => Encode.laneR 21 6 w
  | .dot2 w => Encode.laneR 22 0 w
  | .hfma2 w => Encode.laneR 23 0 w
  | .cvtFf w => Encode.laneR 24 0 w
  | .cvtFi w => Encode.laneR 24 1 w
  | .cvtIf w => Encode.laneR 24 2 w
  | .cvtIi w => Encode.laneR 24 3 w
  | .cvtxPack w => Encode.laneR 25 0 w
  | .cvtxUnpack w => Encode.laneR 25 1 w
  | .pack2 w => Encode.laneR 26 0 w
  | .fclass w => Encode.laneR 27 0 w
  | .bscl w => Encode.laneR 28 0 w
  | .qblk w => Encode.laneR 29 0 w
  | .bra w => Encode.bra 32 w
  | .call w => Encode.bra 33 w
  | .brx w => Encode.laneR 34 0 w
  | .callx w => Encode.laneR 34 1 w
  | .ret w => Encode.laneR 34 2 w
  | .exit w => Encode.laneR 34 3 w
  | .brk w => Encode.laneR 34 4 w
  | .rejoin w => Encode.laneR 34 5 w
  | .yield w => Encode.laneR 34 6 w
  | .voteAny w => Encode.laneP 36 0 w
  | .voteAll w => Encode.laneP 36 1 w
  | .voteBal w => Encode.laneR 36 2 w
  | .shflIdx w => Encode.laneR 37 0 w
  | .shflUp w => Encode.laneR 37 1 w
  | .shflDn w => Encode.laneR 37 2 w
  | .shflXor w => Encode.laneR 37 3 w
  | .redux sb w => Encode.laneR 38 sb.toNat w
  | .scan sb w => Encode.laneR 39 sb.toNat w
  | .match_ w => Encode.laneR 40 0 w
  | .spawn w => Encode.laneR 41 0 w
  | .phflush w => Encode.laneR 42 0 w
  | .ld w => Encode.laneR 48 0 w
  | .st w => Encode.laneR 49 0 w
  | .atom sb w => Encode.laneR 50 sb.toNat w
  | .cas w => Encode.laneR 51 0 w
  | .prf w => Encode.laneR 52 0 w
  | .spt w => Encode.laneR 53 0 w
  | .spc w => Encode.laneR 53 1 w
  | .ldb w => Encode.laneR 54 0 w
  | .mtov w => Encode.laneR 56 0 w
  | .mvtot w => Encode.laneR 57 0 w
  | .kadd w => Encode.uni 0 w
  | .ksub w => Encode.uni 1 w
  | .kmul w => Encode.uni 2 w
  | .kand w => Encode.uni 3 w
  | .kor w => Encode.uni 4 w
  | .kxor w => Encode.uni 5 w
  | .kshl w => Encode.uni 6 w
  | .kshr w => Encode.uni 7 w
  | .kmin w => Encode.uni 8 w
  | .kmax w => Encode.uni 9 w
  | .kcmp w => Encode.uni 10 w
  | .ksel w => Encode.uni 11 w
  | .kmov w => Encode.uni 12 w
  | .kmovi w => Encode.uni 13 w
  | .lcset w => Encode.uni 14 w
  | .lcstep w => Encode.uni 15 w
  | .kcset w => Encode.uni 16 w
  | .kcwait w => Encode.uni 17 w
  | .kfmtSetPreset w => Encode.uni 18 w
  | .kfmtSetSeed w => Encode.uni 18 w
  | .kfmtSet w => Encode.uni 18 w
  | .kfmtGet w => Encode.uni 19 w
  | .kbra w => Encode.uni 20 w
  | .kcall w => Encode.uni 21 w
  | .kret w => Encode.uni 22 w
  | .obres w => Encode.uni 24 w
  | .obfree w => Encode.uni 25 w
  | .mload w => Encode.uni 26 w
  | .mloadx w => Encode.uni 27 w
  | .mma w => Encode.uni 28 w
  | .mzero w => Encode.uni 29 w
  | .macc w => Encode.uni 30 w
  | .mst w => Encode.uni 31 w
  | .mbarArr w => Encode.uni 32 w
  | .mbarWait w => Encode.uni 33 w
  | .mseqGo w => Encode.uni 34 w
  | .mseqEnd w => Encode.uni 35 w
  | .mrowClr w => Encode.uni 36 w
  | .mrow w => Encode.uni 36 w
  | .sdec w => Encode.uni 40 w
  | .mmat w => Encode.uni 41 w
  | .mres w => Encode.uni 42 w
  | .sbound w => Encode.uni 43 w
  | .sstatClr w => Encode.uni 44 w
  | .sstat w => Encode.uni 44 w
  | .lrec w => Encode.uni 48 w
  | .lrecTap w => Encode.uni 49 w
  | .wbind w => Encode.uni 50 w
  | .wunbind w => Encode.uni 51 w
  | .wabs w => Encode.uni 52 w
  | .wtouch w => Encode.uni 53 w
  | .wpost w => Encode.uni 54 w
  | .wstatRead w => Encode.uni 55 w
  | .wstatClr w => Encode.uni 55 w
  | .wstat w => Encode.uni 55 w
  | .pmarm w => Encode.uni 56 w
  | .pmwait w => Encode.uni 57 w
  | .ringInit w => Encode.uni 58 w
  | .ringPutFree w => Encode.uni 59 w
  | .ringPut w => Encode.uni 59 w
  | .ringGet w => Encode.uni 60 w
  | .ringWait w => Encode.uni 61 w
  | .kld w => Encode.uni 64 w
  | .kst w => Encode.uni 65 w
  | .katom w => Encode.uni 66 w
  | .fence w => Encode.uni 67 w
  | .cwb w => Encode.uni 68 w
  | .cinv w => Encode.uni 69 w
  | .monArm w => Encode.uni 70 w
  | .monWait w => Encode.uni 71 w
  | .tlbinv w => Encode.uni 72 w
  | .pgmig w => Encode.uni 73 w
  | .roundAdv w => Encode.uni 76 w
  | .roundGet w => Encode.uni 77 w
  | .roundFloorClr w => Encode.uni 78 w
  | .roundFloor w => Encode.uni 78 w
  | .barArr w => Encode.uni 80 w
  | .barWait w => Encode.uni 81 w
  | .barSync w => Encode.uni 82 w
  | .barJoin w => Encode.uni 83 w
  | .barLeave w => Encode.uni 84 w
  | .barGen w => Encode.uni 85 w
  | .rdtime w => Encode.uni 86 w
  | .rdcyc w => Encode.uni 87 w
  | .nap w => Encode.uni 88 w
  | .post w => Encode.uni 92 w
  | .qreset w => Encode.uni 93 w
  | .trap w => Encode.uni 96 w
  | .sysc w => Encode.uni 97 w
  | .eret w => Encode.uni 98 w
  | .mfs w => Encode.uni 99 w
  | .mts w => Encode.uni 100 w
  | .halt w => Encode.uni 101 w
  | .tmark w => Encode.uni 104 w
  | .tsamp w => Encode.uni 105 w
  | .cntrd w => Encode.uni 106 w
  | .cntcfgClear w => Encode.uni 107 w
  | .cntcfgWrite w => Encode.uni 107 w
  | .cntcfgEvent w => Encode.uni 107 w
  | .icinv w => Encode.uni 108 w
  | .ipref w => Encode.uni 112 w
  | .nop w => Encode.uni 127 w
  | .hint op w => Encode.uni (112 + op.toNat) w
  | .reservedOpcode w e => if bit w.toNat 29 then [w.toNat, e.toNat] else [w.toNat]
  | .rtctlCommit _ | .rtctlRelease _ | .qctlEnable _ | .qctlDisable _ | .qctlSuspend _ | .qctlResume _
  | .tsctlOpen _ | .tsctlClose _ | .tsptrHeadWrite _ | .fqptrHeadWrite _ | .rtfailAck _ | .clockChange _
  | .eccError _ _ _ _ | .hostAccess _ _ _ | .peerAccess _ _ _ | .getVersion | .getCapabilities
  | .negotiateAlgorithms | .getDigests | .getCertificate | .challenge | .getMeasurements | .unsupportedRequest
  | .packageReset | .timingLock | .referenceLoss | .portFailure | .ucieModuleFailure | .linkLoss
  | .cxlSurpriseRemoval | .pigeonholeExpiry | .pendingGroupPlacement | .leaseEnd | .pathAgeLimit
  | .holdCountLimit | .convergenceRelease | .rejoinRelease | .markerRelease | .resultLanding
  | .completionLanding | .kcwaitReturn | .pmwaitReturn | .monWaitReturn | .monWaitTimeout | .napExpiry
  | .ringWaitReturn | .ringPutRecord | .arrivalRecord | .barrierWaitReturn | .mbarWaitReturn
  | .spawnRelease | .storePerform | .pageWalkComplete | .faultRecordWrite | .streamTrapDelivery
  | .migrationComplete | .courierStart | .runaheadStart | .copyInEnd | .copyOutEnd | .mloadComplete
  | .mstComplete | .sdecComplete | .streamEnd | .groupEnd | .launchComplete | .anchorRead | .startTimeReached
  | .deadlinePass | .arbitration | .gridRotation | .roundNotice | .stallPush | .stallWatchTimeout
  | .lineFill | .invalidation | .privatisedMerge | .cardDrain | .stallEnd | .sampleCountdown
  | .counterAdd | .referenceRelock | .replicaUpdate | .invalidationAcknowledged => []

/-- The words of a list as the instruction they hold. -/
def parseWords : List Nat → Option Instr
  | [w] => if bit w 29 then none else some (parse w 0)
  | [w, e] => if bit w 29 then some (parse w e) else none
  | _ => none

/-- Where the fields of an instruction stand: what the issue stage needs to know of any word. -/
inductive Head
  | lane (s x : Bool) (g : BitVec 3) (gn : Bool)
  | bra (w : BraW)
  | uni (w : UniW)
  | reserved (w e : Word)
  | event
  deriving DecidableEq, Repr

/-- The head of an instruction. -/
def headOf : Instr → Head
  | .add w => .lane w.s w.x w.g w.gn
  | .sub w => .lane w.s w.x w.g w.gn
  | .addc w => .lane w.s w.x w.g w.gn
  | .subb w => .lane w.s w.x w.g w.gn
  | .mul w => .lane w.s w.x w.g w.gn
  | .mulhi w => .lane w.s w.x w.g w.gn
  | .mad w => .lane w.s w.x w.g w.gn
  | .madhi w => .lane w.s w.x w.g w.gn
  | .div w => .lane w.s w.x w.g w.gn
  | .rem w => .lane w.s w.x w.g w.gn
  | .min w => .lane w.s w.x w.g w.gn
  | .max w => .lane w.s w.x w.g w.gn
  | .and w => .lane w.s w.x w.g w.gn
  | .or w => .lane w.s w.x w.g w.gn
  | .xor w => .lane w.s w.x w.g w.gn
  | .andn w => .lane w.s w.x w.g w.gn
  | .shl w => .lane w.s w.x w.g w.gn
  | .shr w => .lane w.s w.x w.g w.gn
  | .sar w => .lane w.s w.x w.g w.gn
  | .rot w => .lane w.s w.x w.g w.gn
  | .clz w => .lane w.s w.x w.g w.gn
  | .popc w => .lane w.s w.x w.g w.gn
  | .brev w => .lane w.s w.x w.g w.gn
  | .bfx w => .lane w.s w.x w.g w.gn
  | .bfi w => .lane w.s w.x w.g w.gn
  | .lea w => .lane w.s w.x w.g w.gn
  | .cmp _ w => .lane w.s w.x w.g w.gn
  | .sel w => .lane w.s w.x w.g w.gn
  | .mov w => .lane w.s w.x w.g w.gn
  | .movk w => .lane w.s w.x w.g w.gn
  | .pand w => .lane w.s w.x w.g w.gn
  | .por w => .lane w.s w.x w.g w.gn
  | .pxor w => .lane w.s w.x w.g w.gn
  | .pnot w => .lane w.s w.x w.g w.gn
  | .fadd w => .lane w.s w.x w.g w.gn
  | .fsub w => .lane w.s w.x w.g w.gn
  | .fmul w => .lane w.s w.x w.g w.gn
  | .ffma w => .lane w.s w.x w.g w.gn
  | .fmin w => .lane w.s w.x w.g w.gn
  | .fmax w => .lane w.s w.x w.g w.gn
  | .fcmp _ w => .lane w.s w.x w.g w.gn
  | .fdiv w => .lane w.s w.x w.g w.gn
  | .frcp w => .lane w.s w.x w.g w.gn
  | .frsq w => .lane w.s w.x w.g w.gn
  | .fsqrt w => .lane w.s w.x w.g w.gn
  | .fex2 w => .lane w.s w.x w.g w.gn
  | .flg2 w => .lane w.s w.x w.g w.gn
  | .fsin w => .lane w.s w.x w.g w.gn
  | .fcos w => .lane w.s w.x w.g w.gn
  | .dot2 w => .lane w.s w.x w.g w.gn
  | .hfma2 w => .lane w.s w.x w.g w.gn
  | .cvtFf w => .lane w.s w.x w.g w.gn
  | .cvtFi w => .lane w.s w.x w.g w.gn
  | .cvtIf w => .lane w.s w.x w.g w.gn
  | .cvtIi w => .lane w.s w.x w.g w.gn
  | .cvtxPack w => .lane w.s w.x w.g w.gn
  | .cvtxUnpack w => .lane w.s w.x w.g w.gn
  | .pack2 w => .lane w.s w.x w.g w.gn
  | .fclass w => .lane w.s w.x w.g w.gn
  | .bscl w => .lane w.s w.x w.g w.gn
  | .qblk w => .lane w.s w.x w.g w.gn
  | .bra w => .bra w
  | .call w => .bra w
  | .brx w => .lane w.s w.x w.g w.gn
  | .callx w => .lane w.s w.x w.g w.gn
  | .ret w => .lane w.s w.x w.g w.gn
  | .exit w => .lane w.s w.x w.g w.gn
  | .brk w => .lane w.s w.x w.g w.gn
  | .rejoin w => .lane w.s w.x w.g w.gn
  | .yield w => .lane w.s w.x w.g w.gn
  | .voteAny w => .lane w.s w.x w.g w.gn
  | .voteAll w => .lane w.s w.x w.g w.gn
  | .voteBal w => .lane w.s w.x w.g w.gn
  | .shflIdx w => .lane w.s w.x w.g w.gn
  | .shflUp w => .lane w.s w.x w.g w.gn
  | .shflDn w => .lane w.s w.x w.g w.gn
  | .shflXor w => .lane w.s w.x w.g w.gn
  | .redux _ w => .lane w.s w.x w.g w.gn
  | .scan _ w => .lane w.s w.x w.g w.gn
  | .match_ w => .lane w.s w.x w.g w.gn
  | .spawn w => .lane w.s w.x w.g w.gn
  | .phflush w => .lane w.s w.x w.g w.gn
  | .ld w => .lane w.s w.x w.g w.gn
  | .st w => .lane w.s w.x w.g w.gn
  | .atom _ w => .lane w.s w.x w.g w.gn
  | .cas w => .lane w.s w.x w.g w.gn
  | .prf w => .lane w.s w.x w.g w.gn
  | .spt w => .lane w.s w.x w.g w.gn
  | .spc w => .lane w.s w.x w.g w.gn
  | .ldb w => .lane w.s w.x w.g w.gn
  | .mtov w => .lane w.s w.x w.g w.gn
  | .mvtot w => .lane w.s w.x w.g w.gn
  | .kadd w => .uni w
  | .ksub w => .uni w
  | .kmul w => .uni w
  | .kand w => .uni w
  | .kor w => .uni w
  | .kxor w => .uni w
  | .kshl w => .uni w
  | .kshr w => .uni w
  | .kmin w => .uni w
  | .kmax w => .uni w
  | .kcmp w => .uni w
  | .ksel w => .uni w
  | .kmov w => .uni w
  | .kmovi w => .uni w
  | .lcset w => .uni w
  | .lcstep w => .uni w
  | .kcset w => .uni w
  | .kcwait w => .uni w
  | .kfmtSetPreset w => .uni w
  | .kfmtSetSeed w => .uni w
  | .kfmtSet w => .uni w
  | .kfmtGet w => .uni w
  | .kbra w => .uni w
  | .kcall w => .uni w
  | .kret w => .uni w
  | .obres w => .uni w
  | .obfree w => .uni w
  | .mload w => .uni w
  | .mloadx w => .uni w
  | .mma w => .uni w
  | .mzero w => .uni w
  | .macc w => .uni w
  | .mst w => .uni w
  | .mbarArr w => .uni w
  | .mbarWait w => .uni w
  | .mseqGo w => .uni w
  | .mseqEnd w => .uni w
  | .mrowClr w => .uni w
  | .mrow w => .uni w
  | .sdec w => .uni w
  | .mmat w => .uni w
  | .mres w => .uni w
  | .sbound w => .uni w
  | .sstatClr w => .uni w
  | .sstat w => .uni w
  | .lrec w => .uni w
  | .lrecTap w => .uni w
  | .wbind w => .uni w
  | .wunbind w => .uni w
  | .wabs w => .uni w
  | .wtouch w => .uni w
  | .wpost w => .uni w
  | .wstatRead w => .uni w
  | .wstatClr w => .uni w
  | .wstat w => .uni w
  | .pmarm w => .uni w
  | .pmwait w => .uni w
  | .ringInit w => .uni w
  | .ringPutFree w => .uni w
  | .ringPut w => .uni w
  | .ringGet w => .uni w
  | .ringWait w => .uni w
  | .kld w => .uni w
  | .kst w => .uni w
  | .katom w => .uni w
  | .fence w => .uni w
  | .cwb w => .uni w
  | .cinv w => .uni w
  | .monArm w => .uni w
  | .monWait w => .uni w
  | .tlbinv w => .uni w
  | .pgmig w => .uni w
  | .roundAdv w => .uni w
  | .roundGet w => .uni w
  | .roundFloorClr w => .uni w
  | .roundFloor w => .uni w
  | .barArr w => .uni w
  | .barWait w => .uni w
  | .barSync w => .uni w
  | .barJoin w => .uni w
  | .barLeave w => .uni w
  | .barGen w => .uni w
  | .rdtime w => .uni w
  | .rdcyc w => .uni w
  | .nap w => .uni w
  | .post w => .uni w
  | .qreset w => .uni w
  | .trap w => .uni w
  | .sysc w => .uni w
  | .eret w => .uni w
  | .mfs w => .uni w
  | .mts w => .uni w
  | .halt w => .uni w
  | .tmark w => .uni w
  | .tsamp w => .uni w
  | .cntrd w => .uni w
  | .cntcfgClear w => .uni w
  | .cntcfgWrite w => .uni w
  | .cntcfgEvent w => .uni w
  | .icinv w => .uni w
  | .ipref w => .uni w
  | .nop w => .uni w
  | .hint _ w => .uni w
  | .reservedOpcode w e => .reserved w e
  | .rtctlCommit _ | .rtctlRelease _ | .qctlEnable _ | .qctlDisable _ | .qctlSuspend _ | .qctlResume _
  | .tsctlOpen _ | .tsctlClose _ | .tsptrHeadWrite _ | .fqptrHeadWrite _ | .rtfailAck _ | .clockChange _
  | .eccError _ _ _ _ | .hostAccess _ _ _ | .peerAccess _ _ _ | .getVersion | .getCapabilities
  | .negotiateAlgorithms | .getDigests | .getCertificate | .challenge | .getMeasurements | .unsupportedRequest
  | .packageReset | .timingLock | .referenceLoss | .portFailure | .ucieModuleFailure | .linkLoss
  | .cxlSurpriseRemoval | .pigeonholeExpiry | .pendingGroupPlacement | .leaseEnd | .pathAgeLimit
  | .holdCountLimit | .convergenceRelease | .rejoinRelease | .markerRelease | .resultLanding
  | .completionLanding | .kcwaitReturn | .pmwaitReturn | .monWaitReturn | .monWaitTimeout | .napExpiry
  | .ringWaitReturn | .ringPutRecord | .arrivalRecord | .barrierWaitReturn | .mbarWaitReturn
  | .spawnRelease | .storePerform | .pageWalkComplete | .faultRecordWrite | .streamTrapDelivery
  | .migrationComplete | .courierStart | .runaheadStart | .copyInEnd | .copyOutEnd | .mloadComplete
  | .mstComplete | .sdecComplete | .streamEnd | .groupEnd | .launchComplete | .anchorRead | .startTimeReached
  | .deadlinePass | .arbitration | .gridRotation | .roundNotice | .stallPush | .stallWatchTimeout
  | .lineFill | .invalidation | .privatisedMerge | .cardDrain | .stallEnd | .sampleCountdown
  | .counterAdd | .referenceRelock | .replicaUpdate | .invalidationAcknowledged => .event

/-- S of a word (R45). -/
def Head.marker : Head → Bool
  | .lane s _ _ _ => s
  | .bra w => w.s
  | .uni w => w.s
  | .reserved w _ => bit w.toNat 30
  | .event => false

/-- X of a word (R24). -/
def Head.ext : Head → Bool
  | .lane _ x _ _ => x
  | .bra w => w.x
  | .uni w => w.x
  | .reserved w _ => bit w.toNat 29
  | .event => false

/-- A decoded word whose extension word is absent holds 0 there, as the decoder leaves it. -/
def Head.tidy : Head → Bool
  | .bra w => w.x || w.e == 0
  | .uni w => w.x || w.e == 0
  | _ => true

end Sys2Proof
end

