-- ==== Sys2Proof/Machine/State.lean ====
section
/-! DEFINITION. Everything the spec gives the machine, as plain data, and the machine after reset. Sparse
stores list only what differs from the value said beside them. -/

namespace Sys2Proof.Machine

/-! ## Stops -/

/-- Why a step stops with a fault. -/
inductive Fault
  /-- An instruction word is executed and the state names no resident agent that issues it. Raised by the
  issue operation; no run of the machine's own moves reaches it. Safe. -/
  | noIssuer
  /-- An access from outside the package names a physical address that R255 gives no memory. Raised by
  the host and peer access events. Safe. -/
  | noSuchAddress
  deriving DecidableEq, Repr

/-- Why a step is refused. -/
inductive Refusal
  /-- The instruction has no meaning in this model. Raised by Dispatch alone. Safe. -/
  | notModelled (mnemonic : String)
  deriving DecidableEq, Repr

/-! ## Registers (R126) -/

/-- A register an instruction writes and a later one may read too early (R46). -/
inductive Reg
  | v (n : Nat) | q (n : Nat) | y (n : Nat) | p (n : Nat)
  | k (n : Nat) | kp (n : Nat) | lc (n : Nat) | lm (n : Nat)
  deriving DecidableEq, Repr

/-- The lane files: key 32 * row + lane for v and q, 32 * n + lane for y; p holds a lane mask for each
predicate. An absent entry reads 0. -/
structure LFile where
  v : Map Word := []
  q : Map Word := []
  y : Map DWord := []
  p : Map Word := []
  deriving DecidableEq, Repr

/-- What has happened at a completion register at one CYC, for the order of R137: the count that the cycle started from or that
a kcset gave, the status word, what instructions have added and what landings have taken off. -/
structure KcNow where
  cyc  : Nat
  base : Nat
  st   : DWord
  adds : Nat := 0
  subs : Nat := 0
  deriving DecidableEq, Repr

/-- The uniform-side files of a group or a stream. An absent entry reads 0; an absent kf reads the reset
image (R77). `kst` holds the status words of the completion registers (R136), `kcn` what has happened at each of them in its
last cycle. -/
structure UFile where
  k   : Map DWord := []
  kp  : Map Bool := []
  lc  : Map Word := []
  lm  : Map Word := []
  kc  : Map DWord := []
  kst : Map DWord := []
  kcn : Map KcNow := []
  kf  : Map DWord := []
  deriving DecidableEq, Repr

/-- All registers of an agent; a stream's lane files stay empty. -/
structure Regs where
  u : UFile := {}
  l : LFile := {}
  deriving DecidableEq, Repr

/-- An issued instruction whose results are outstanding (R46): the registers it writes, the lanes it writes
them in, and the files as they stood before it. The files already hold its results; `sq` names the
store-queue entry that will supply one (an atomic's old value). -/
structure Out where
  pc     : DWord
  regs   : List Reg
  lanes  : Word
  before : Regs
  sq     : Option Nat
  /-- Landed since the last marker: kept only for marker-check mode (R50). -/
  landed : Bool
  deriving DecidableEq, Repr

/-! ## Waits (R101) -/

/-- An agent outside the store queues whose write waits at its homes: a courier's copy-out, an mst, an entry of a store queue that
writes as one operation (post, a replicated page's write), the writer of fault records, the drain of a trace buffer, a package's
replica, the end of a group's migration, the rows of an mst that a stream traps in (by its partition). -/
inductive Writer
  | courier (core n : Nat)
  | op (id : Nat)
  | entry (id : Nat)
  | record
  | drain (cl : Nat)
  | replica (pkg : Nat)
  | migration (uid : Nat)
  | rows (p : Nat)
  deriving DecidableEq, Repr

/-- What an instruction that has not executed yet waits for; it issues again from the start when that is
over. -/
inductive Why
  /-- A page walk in the cluster (R283). -/
  | walk (cl asid page : Nat)
  /-- An open FAULT entry (R285), or the writing of this agent's own fault record. -/
  | merge (cl asid page : Nat)
  /-- A full fault merge table (R22). -/
  | tableFull (cl : Nat)
  /-- A window's copy (R226). -/
  | window (blk w : Nat)
  /-- A full store queue (R261). -/
  | sqFull
  /-- A queued atomic whose value a load needs (R261). -/
  | sqEntry (id : Nat)
  /-- Earlier stores to be performed at a scope (R299). -/
  | drain (scope : Nat)
  /-- Stream operations in flight (R173, R183, R213). -/
  | inflight
  /-- The trace buffer of a die (R397). -/
  | stall (cl : Nat)
  /-- Free pigeonholes (R121). -/
  | holes
  /-- A push or a time-out of a STALL region (R321). -/
  | watch (id : Nat)
  /-- An earlier migration of the group, which a handler interrupted (R374). -/
  | migration
  /-- The end of a migration, by its group, whose page the word would reach at a home (R289). -/
  | blocked (uid : Nat)
  /-- Instructions in flight on a round region that is being released (R315). -/
  | region (r : Nat)
  /-- The homes of some lines to be ready for a writer (R192, R307). -/
  | homes (k : Writer) (lines : List Nat)
  /-- A word's own queue entry, at the head with its release performed and the homes of some lines ready for it (R261, R366). -/
  | turn (id rel : Nat) (lines : List Nat)
  deriving DecidableEq, Repr

/-- What an agent is parked on. -/
inductive WaitKind
  | retry (why : Why)
  | kcwait (d kc : Nat)
  | pmwait (d : Nat)
  | monWait (d : Nat) (limit : Option Nat)
  | ringPut (ring : Nat) (tag : Word)
  | ringGet (d ring : Nat)
  | ringWait (d ring side : Nat)
  /-- bar.arr, bar.sync or mbar.arr by a party that has arrived already: until that generation completes (R337, R196);
  it arrives then, and a bar.sync goes on to wait, with its destination. -/
  | arrive (key : Nat) (sync : Option Nat)
  /-- bar.wait, bar.sync, mbar.wait: until the generation in which the party last arrived has completed. -/
  | barWait (d key : Nat) (sync : Bool)
  | nap (until_ : Nat)
  | migration (d : Nat)
  /-- tlbinv: until the accesses numbered below `after` in its reach have been performed (R291). -/
  | tlbinv (after reach : Nat)
  /-- round.adv: until the accesses before it are performed at the region's scope (R326). -/
  | advance (d region : Nat)
  /-- An mts that set SUSP: until the other blocks of the queue's launches are saved (R364). -/
  | saves (q : Nat)
  /-- qreset: until the launches it kills are gone, of which it has counted n (R367). -/
  | resets (d q n : Nat)
  /-- A stream parked by its trap (R374). -/
  | trapped
  deriving DecidableEq, Repr

/-- A parked instruction: its address, the address past it, the lanes that wait at it and its S bit. -/
structure Wait where
  kind  : WaitKind
  pc    : DWord
  next  : DWord
  lanes : Word
  mark  : Bool
  deriving DecidableEq, Repr

/-- A release that is recorded later than it issues: after the store-queue entries up to `after` have left,
and for a stream after the operations up to that number have finished (R246, R337, R196). -/
inductive PendKind
  /-- An arrival, with the lanes it was released for and the live ones (R335). -/
  | arrive (key : Nat) (released live : Word)
  | put (ring slot : Nat) (tag : Word)
  | putFree (ring : Nat)
  deriving DecidableEq, Repr

structure Pend where
  kind  : PendKind
  after : Nat
  deriving DecidableEq, Repr

/-- The context that groups and streams share. `arrived` holds, by barrier key, the generation in which the
agent last arrived (R330); `since`, by address, the cycle at which a word that waits there to issue again first issued
(R232); `copied` the addresses of the words that have waited there for a window's copy (R405); `counted` those of the words that
wait there to issue again and have been counted already (R411). -/
structure UCtx where
  regs    : Regs := {}
  outs    : List Out := []
  mark    : Bool := false
  wait    : Option Wait := none
  wstat   : Word := 0
  pend    : List Pend := []
  arrived : Map Nat := []
  since   : Map Nat := []
  copied  : List Nat := []
  counted : List Nat := []
  deriving DecidableEq, Repr

/-! ## Memory places -/

/-- Where a byte lies after decode and translation: an offset of a core's scratchpad, or an address of
physical memory (a peer package's memory lies above 2^48, by package); a replicated page names its root and its replicas
(package, frame base, this byte's offset) besides. -/
inductive Place
  | spad (core off : Nat)
  | phys (addr : Nat) (nc : Bool)
  | repl (root : Nat) (reps : List (Nat × Nat)) (off : Nat)
  /-- A byte of a round region's counter word, read at the round table (R316). -/
  | counter (region byte : Nat)
  deriving DecidableEq, Repr

/-- A run of bytes of one access, lowest first. -/
structure Piece where
  place : Place
  len   : Nat
  deriving DecidableEq, Repr

/-! ## Store queue (R261) -/

inductive SqKind
  | store
  /-- An atomic (R264): operation, type, destination register and whether it is a lane's. -/
  | atomic (op : Nat) (ty : Ty) (dst : Option Reg)
  | cas (ty : Ty) (dst : Reg)
  /-- cwb: the lines to be written back (R271). -/
  | writeBack (lines : List Nat)
  /-- The place of a word that acts when its turn comes, by its address (post, R366). -/
  | hold (pc : DWord)
  deriving DecidableEq, Repr

/-- One lane's part of a store-queue entry. -/
structure SqItem where
  lane   : Nat
  pieces : List Piece
  data   : DWord
  cmp    : DWord
  deriving DecidableEq, Repr

structure SqE where
  id    : Nat
  kind  : SqKind
  /-- Scope of its release, 0 when plain (R299). -/
  rel   : Nat
  items : List SqItem
  frank : Nat
  /-- An acquire (R299): the group's later loads wait for it. -/
  acq   : Bool := false
  deriving DecidableEq, Repr

/-! ## Groups (R95 to R125) -/

/-- A record bank (R369, R373). -/
structure Bank where
  cause  : Word := 0
  pc     : DWord := 0
  addr   : DWord := 0
  lane   : Word := 0
  scr    : DWord := 0
  active : Bool := false
  deriving DecidableEq, Repr

/-- A handler in progress: its level, its lanes, where each lane's path was held and at which age, and where the trapping
path goes on (R371, R375). `strm` marks a stream trap, whose eret resumes the stream; `wait` is the barrier wait
that its delivery interrupted (R374). -/
structure Frame where
  sys   : Bool
  lanes : Word
  held  : Map DWord
  ages  : Map Nat := []
  trap  : Word
  pc    : DWord
  next  : DWord
  strm  : Bool
  wait  : Option Wait
  deriving DecidableEq, Repr

/-- What two-path issue keeps for a group (R97 to R113): per lane the program counter, return stack, path
age, and how many instructions of other lanes have issued since it came to its address (its hold count, R105); the
lanes of a released convergence instruction; the lanes of forced paths; the lanes let past a rejoin; and whether
yield holds the group back. -/
structure Sched where
  pc       : Map DWord := []
  rs       : Map (List DWord) := []
  age      : Map Nat := []
  hold     : Map Nat := []
  released : Option (DWord × Word) := none
  forced   : Word := 0
  passed   : Word := 0
  yielded  : Bool := false
  deriving DecidableEq, Repr

/-- A monitor slot (R272). Its place is forgotten by a tlbinv that reaches it, and found anew by the next check (R291). -/
structure Mon where
  addr  : DWord
  value : DWord
  place : List Piece
  deriving DecidableEq, Repr

/-- Sampling of a group (R404, R408): the setting and the two countdowns. -/
structure Samp where
  cfg  : Word := 0
  load : Nat := 0
  inst : Nat := 0
  deriving DecidableEq, Repr

/-- The parts of a group that traps use (R369 to R375). `privMode` is the mode of its launch's queue. -/
structure TrapCtx where
  privMode : Bool := false
  bankU    : Bank := {}
  bankS    : Bank := {}
  utvec    : DWord := 0
  frames   : List Frame := []
  deriving DecidableEq, Repr

/-- A resident group. `uid` names it wherever it resides. Floors (R319) are listed per lane, the entry set
least recently first, as (region, floor). -/
structure Group where
  uid    : Nat
  blk    : Nat
  vector : Bool
  grans  : Nat
  live   : Word
  ending : Bool := false
  u      : UCtx := {}
  sched  : Sched := {}
  tr     : TrapCtx := {}
  sq     : List SqE := []
  armed  : Map Nat := []
  mons   : Map Mon := []
  floors : Map (List (Nat × Nat)) := []
  ovf    : Word := 0
  atomcfg : Word := 0
  pbase  : DWord := 0
  samp   : Samp := {}
  deriving DecidableEq, Repr

/-! ## The matrix stream (R170 to R213) -/

/-- An engine operation of the stream. `rows` are the places its rows read or write; `obR` and `obW` the
operand-buffer ranges (start, length) and `tR` and `tW` the tiles it holds (R173). -/
inductive OpKind
  /-- mload and mloadx: destination byte of the buffer, row length, element bits (0 for mload), rows of the
  operand and the first row. -/
  | load (dst len ebits n first : Nat)
  /-- mst: tile, output type, completion register. -/
  | store (tile oty : Nat) (kc : Option Nat)
  /-- sdec: source byte, destination byte, KT, terms, value type, loss bound (R201). -/
  | sdec (src dst kt t ityp l : Nat)
  deriving DecidableEq, Repr

structure Op where
  id   : Nat
  kind : OpKind
  rows : List (List Piece)
  obR  : List (Nat × Nat)
  obW  : List (Nat × Nat)
  tR   : List Nat
  tW   : List Nat
  deriving DecidableEq, Repr

/-- Loop state of mseq.go (R197). -/
structure Loop where
  start : DWord
  len   : Nat
  done  : Nat
  left  : Nat
  deriving DecidableEq, Repr

/-- A trap of the stream (R374). -/
structure StreamTrap where
  cause     : Nat
  addr      : DWord
  pc        : DWord
  next      : DWord
  delivered : Bool
  deriving DecidableEq, Repr

/-- The load that a stream issued last, while nothing has issued after it: its operation, its address, the loop state before
it and its record. A pre-emption that stops it at a row boundary goes back there (R184). -/
structure LoadTail where
  id   : Nat
  pc   : DWord
  loop : Option Loop
  reg  : Nat
  deriving DecidableEq, Repr

structure Stream where
  blk     : Nat
  u       : UCtx := {}
  pc      : DWord := 0
  rs      : List DWord := []
  loop    : Option Loop := none
  ops     : List Op := []
  trap    : Option StreamTrap := none
  stopped : Bool := false
  tail    : Option LoadTail := none
  deriving DecidableEq, Repr

/-! ## Blocks, windows, rings, barriers -/

/-- Window states (R225). -/
inductive WinState
  | unbound | present | absent | runahead | copyin | copyout
  deriving DecidableEq, Repr

/-- A region-table entry (R218). `uid` and `after` are the fork of its next copy (R230): the group, and the
number past its store-queue entries. -/
structure Win where
  state : WinState := .unbound
  off   : Nat := 0
  size  : Nat := 0
  stage : Map DWord := []
  layout : Map DWord := []
  fmt   : DWord := 0
  org   : List Nat := []
  tap   : Word := 0
  ctap  : Word := 0
  seq   : Nat := 0
  prom  : Nat := 0
  uid   : Nat := 0
  after : Nat := 0
  deriving DecidableEq, Repr

/-- A stage ring (R243). -/
structure Ring where
  base : Nat
  ns   : Nat
  pr   : Nat := 0
  p    : Nat := 0
  a    : Nat := 0
  f    : Nat := 0
  deriving DecidableEq, Repr

/-- A party that ended, as the checker's card names it (R335), and whether its card has come. -/
structure BarEnder where
  party : Nat
  core  : Nat
  part  : Nat
  slot  : Nat
  frank : Nat
  live  : Word
  told  : Bool
  deriving DecidableEq, Repr

/-- A barrier's own state (R195, R330). Members are parties: 2 * uid for a group, 2 * block + 1 for a stream. `early` holds the
pending joiners whose arrival counts for the generation they join (R337). -/
structure BarBase where
  gen     : Nat := 0
  members : List Nat := []
  arrived : List Nat := []
  joins   : List Nat := []
  leaves  : List Nat := []
  mark    : Bool := false
  flag    : Bool := false
  holder  : Option Nat := none
  early   : List Nat := []
  deriving DecidableEq, Repr

/-- What has happened at a barrier at one CYC, for the order of R332: its state before that cycle, then the arrivals, the leaves,
the ends, and the joins each with its launch. -/
structure BarNow where
  cyc  : Nat := 0
  base : BarBase := {}
  arrs : List Nat := []
  lvs  : List Nat := []
  ends : List BarEnder := []
  jns  : List (Nat × Nat) := []
  deriving DecidableEq, Repr

/-- A barrier, with what has happened at it in its last cycle. -/
structure Bar extends BarBase where
  now : BarNow := {}
  deriving DecidableEq, Repr

/-- A reservation record (R176); a record with V = 0 is absent. -/
structure ObRec where
  base : Nat
  len  : Nat
  xf   : Bool
  soff : Nat
  fmt  : DWord
  deriving DecidableEq, Repr

/-- The matrix resources of a block that holds the sequencer, from its placement until it ends (R170): buffer units, buffer
bytes (absent 0), records, tile words at 256 * tile + 16 * i + j (absent 0), and the stream's special registers ROWPROG, SSTAT
and SBOUND, which its groups reach too (R470). -/
structure Matrix where
  units : Nat := 0
  ob    : Map Byte := []
  recs  : Map ObRec := []
  tiles : Map Word := []
  rowprog : Word := 0
  sstat   : DWord := 0
  sbound  : Word := 0
  deriving DecidableEq, Repr

/-- A placed block. `areas` are its pieces of the work area (base, size), `since` the cycle of its last
placement or restore. -/
structure Block where
  launch  : Nat
  num     : Nat
  blkid   : Nat
  core    : Nat
  part    : Nat
  spBase  : Nat
  spSize  : Nat
  winN    : Nat
  tctx    : DWord
  since   : Nat
  spawned : Bool
  /-- The slot of its lowest-numbered group (R286, R471). -/
  low     : Nat := 0
  wins    : Map Win := []
  rings   : Map Ring := []
  nbars   : Map Bar := []
  mat     : Option Matrix := none
  areas   : List (Nat × Nat) := []
  deriving DecidableEq, Repr

/-- A saved block: its whole context (R360), oldest save first in the list that holds it. `image` is what its image's area of
memory listed at the save, none where it had no page: the check word is right while that stands. -/
structure Saved where
  id     : Nat
  blk    : Block
  groups : List (Nat × Group)
  stream : Option Stream
  spad   : List Byte
  image  : Option (List Host.Cell) := some []
  deriving DecidableEq, Repr

/-! ## Cores and clusters -/

/-- A pigeonhole in use (R120): `order` is its place among the pending ones when it is pending. -/
structure Hole where
  entry   : DWord
  launch  : Nat
  threads : List (List Word)
  expiry  : Nat
  part    : Nat
  pending : Option Nat
  deriving DecidableEq, Repr

/-- A touched copy or a copy-out (R227). It runs after the queued stores of group `uid` up to `after`; `moved` numbers the
units moved already; the rest is when and for whom it was queued. -/
structure CopyJob where
  blk   : Nat
  win   : Nat
  out   : Bool
  ra    : Bool
  uid   : Nat
  after : Nat
  moved : List Nat := []
  cyc   : Nat := 0
  part  : Nat := 0
  slot  : Nat := 0
  deriving DecidableEq, Repr

/-- An L1 copy of a line (R258, R259): its bytes, when its lease ends (none when tracked or NC), whether the
directory tracks it, whether it is an NC copy, and its round tags by region (R318). -/
structure Line where
  data    : List Byte
  lexp    : Nat
  tracked : Bool
  nc      : Bool
  tags    : Map Nat
  /-- SEQ of the fill that brought a tracked copy (R311). -/
  seq     : Nat := 0
  /-- Its data carry an uncorrectable error (R376). -/
  poison  : Bool := false
  deriving DecidableEq, Repr

/-- A TLB entry (R283): its leaf entry and, for a replicated page, root and replicas. `count` is the
migration count (R288). -/
structure TlbE where
  asid  : Nat
  base  : Nat
  log2  : Nat
  pte   : DWord
  root  : Nat
  reps  : List (Nat × Nat)
  count : Nat
  deriving DecidableEq, Repr

/-- A core. `failing` are the ports, by partition and port, whose failure takes effect at the end of this cycle (R167), `agewas`
is the AGELIM that path choices of this cycle go by where it has been written in it (R99), `spawnAt` the cycle and the place
of the last deposit of a spawn (R121). -/
structure Core where
  corestat : Word := 0
  failing  : List (Nat × Nat) := []
  agelim   : Word := 64
  agewas   : Option Word := none
  spawnAt  : Nat × Nat := (0, 0)
  holes    : Map Hole := []
  couriers : Map CopyJob := []
  copyq    : List CopyJob := []
  l1       : Map Line := []
  known    : Map Nat := []
  tlb      : List TlbE := []
  /-- Instruction cache: the lines it holds, by physical line number, and whether each is marked poisoned (R430). -/
  icache   : Map Bool := []
  deriving DecidableEq, Repr

/-- A fault record's fields (R286). -/
structure FaultRec where
  kind  : Nat
  va    : Nat
  asid  : Nat
  frank : Nat
  acc   : Nat
  part  : Nat
  slot  : Nat
  core  : Nat
  lane  : Nat
  count : Nat
  deriving DecidableEq, Repr

/-- A fault merge entry (R285): a WALK while `cause` is none. `who` is the party whose access opened it, `user`
whether it was made in user mode. -/
structure MergeE where
  asid     : Nat
  page     : Nat
  who      : Nat
  blk      : Nat
  core     : Nat
  user     : Bool
  cause    : Option Nat
  recorded : Bool
  taken    : Bool
  rcd      : FaultRec
  deriving DecidableEq, Repr

/-- A card of the trace (R386). -/
structure Card where
  d0 : DWord
  d1 : DWord
  d2 : DWord
  d3 : DWord
  deriving DecidableEq, Repr

/-- A card in a trace buffer: the sessions that still receive it, and whether one of them has written it (R395,
R411). -/
structure BufCard where
  card    : Card
  who     : List Nat
  written : Bool
  deriving DecidableEq, Repr

/-- An engine that registered mail stalls at a card-emission point (R397): its source, or 65,536 plus the number of a block
that is being killed; the block or launch it works for, and the frank to which its stalled cycles count. -/
structure Held where
  key   : Nat
  who   : Nat
  frank : Nat
  deriving DecidableEq, Repr

structure Cluster where
  tlb   : List TlbE := []
  merge : List MergeE := []
  /-- The trace buffer, oldest first (R395). -/
  cards : List BufCard := []
  /-- When a high-water period is on: the engine-cycles stalled in it (R399). -/
  stall : Option Nat := none
  /-- TIME of the last STALL end card. -/
  ended : Nat := 0
  /-- The engines, other than parked groups and streams, that stall for room in this buffer (R397). -/
  held  : List Held := []
  deriving DecidableEq, Repr

/-- A partition's issue stage (R98): the slot last chosen, the CYC from which it chooses again (R159, R165), the second path of
this turn, CYC since which each ready slot has waited without an issue; `sampling` and `tagging` are the load and the tagged
instruction that its sampler follows (R404); `offered` lists, for a slot that has yielded, the slots offered a turn since. -/
structure Part where
  last     : Nat := 15
  free     : Nat := 0
  second   : Option (Nat × DWord × Word) := none
  waited   : Map Nat := []
  sampling : Option Card := none
  tagging  : Option Card := none
  offered  : Map (List Nat) := []
  deriving DecidableEq, Repr

/-! ## Package units -/

/-- Identity and package registers. -/
structure Ident where
  prof    : Word
  cap     : DWord
  errwin  : DWord
  podid   : Word
  lnkstat : DWord
  pwrstat : Word
  mcstat  : DWord
  hevt    : DWord
  stvec   : DWord
  deriving DecidableEq, Repr

/-- CYC, TIME in nanoseconds with the fraction of the running one in units of 10^-12 ns, how much faster than its nominal rate it
ran last in parts per million, TSTAT and whether the first lock after reset has happened (R338 to R340), and the PWRSTAT that the
end of this cycle brings (R444). -/
structure Clock where
  cyc    : Nat
  time   : Nat
  sub    : Nat := 0
  rate   : Int := 0
  tstat  : Word
  locked : Bool
  change : Option Word := none
  deriving DecidableEq, Repr

/-- Where bring-up stands (R432, R433, R437). -/
inductive BootPhase
  /-- Before the boot ROM has run. -/
  | rom
  /-- A stage failed to verify; only the SPDM responder answers. -/
  | recovery (stage : Nat)
  /-- Both UCIe modules failed: stopped at step 3. -/
  | stopped
  /-- Steps 1 to 4 are done. -/
  | up
  /-- The timing unit has locked: step 5. -/
  | ready
  deriving DecidableEq, Repr

/-- The connection of the SPDM responder (R435): how far its version, capabilities and algorithms are agreed (1 to 3), and the
messages that its signatures cover: those of that agreement, those of GET_DIGESTS and GET_CERTIFICATE since, those of
GET_MEASUREMENTS without a signature since. -/
structure Spdm where
  step : Nat := 0
  vca  : List Byte := []
  auth : List Byte := []
  meas : List Byte := []
  deriving DecidableEq, Repr

/-- Boot, measurements (R434), the responder's connection and the host mailbox (R438). -/
structure Boot where
  phase : BootPhase := .rom
  meas  : List (BitVec 384) := []
  len   : Nat := 0
  busy  : Bool := false
  rlen  : Nat := 0
  req   : List Byte := []
  rsp   : List Byte := []
  spdm  : Spdm := {}
  deriving DecidableEq, Repr

/-- A queue's context (R345, R346) and the packets it has taken since EN was set (R347). -/
structure Queue where
  ctl   : DWord := 0
  tctx  : DWord := 0
  head  : DWord := 0
  tail  : DWord := 0
  work  : DWord := 0
  count : Nat := 0
  deriving DecidableEq, Repr

/-- A launch taken and not complete: its packet as 16 dwords (R349), and whether its queue was privileged when it was taken
(R369). `next` is its least block not yet placed and `ahead` the later ones that a rotation has placed before it (R363),
`reserve` the areas of its save images (R358), `stuck` the first cycle of a stretch in which the condition of R363 has held,
`fmts` the kernel's .fmt images (R421), `dying` the status and code of a kill that is under way (R365), `reset` whether a qreset
waits for it (R367), `last` the group that is killed last, the issuer of its halt or qreset (R367, R385). -/
structure Launch where
  queue   : Nat
  seq     : Nat
  addr    : DWord
  pkt     : List DWord
  priv    : Bool := false
  next    : Nat := 0
  ahead   : List Nat := []
  late    : Bool := false
  reserve : List (Nat × Nat) := []
  stuck   : Option Nat := none
  fmts    : Map DWord := []
  dying   : Option (Nat × Nat) := none
  reset   : Bool := false
  last    : Option Nat := none
  deriving DecidableEq, Repr

/-- A kernel that the loader has loaded for a queue: the entries that its packets name (0: none) and its .fmt images by
format register (R421). -/
structure Kernel where
  queue : Nat
  copy  : DWord
  vec   : DWord
  mat   : DWord
  fmts  : Map DWord
  deriving DecidableEq, Repr

/-- The mail queues: QSEL, the contexts, the launches by number, the saved blocks (R344 to R365), and the kernels
loaded, the last loaded first (R421). -/
structure Mail where
  sel      : Word := 0
  queues   : Map Queue := []
  launches : Map Launch := []
  saved    : List Saved := []
  kernels  : List Kernel := []
  deriving DecidableEq, Repr

/-- FQCFG, FQPTR, the record sequence number and the records waiting to be written, each with the cluster
of its merge entry (R286). -/
structure FaultUnit where
  cfg  : DWord := 4
  ptr  : DWord := 0
  seq  : Nat := 0
  pend : List (Nat × FaultRec) := []
  deriving DecidableEq, Repr

/-- An entry of the round table (R313). -/
structure RtEntry where
  base : DWord := 16
  cva  : DWord := 0
  ctl  : DWord := 0x92
  cnt  : DWord := 0
  deriving DecidableEq, Repr

structure Rounds where
  sel  : Word := 0
  ents : Map RtEntry := []
  deriving DecidableEq, Repr

/-- A trace session (R391, R392): `drops` counts since the last DROP card. -/
structure Session where
  ctl   : DWord := 0
  ring  : DWord := 8
  ptr   : DWord := 0
  drop  : DWord := 0
  drops : Nat := 0
  deriving DecidableEq, Repr

structure Trace where
  sel      : Word := 0
  sessions : Map Session := []
  /-- SEQ of each source, by SRC (R388). -/
  seqs     : Map Nat := []
  deriving DecidableEq, Repr

/-- What a counter was before the cycle of its last cntcfg (R414): its value, OVF and event; and the group whose write it was,
which meets its own write (R416). -/
structure CtNow where
  cyc : Nat
  who : Nat
  val : DWord
  ovf : Bool
  ev  : Nat
  deriving DecidableEq, Repr

/-- A counter set (R409, R412): values, selected events (absent: n + 1), OVF, energy remainder. `wrote` holds the counters that a
cntcfg has written, each with what its cycle found, `cleared` the cycle in which one last cleared the remainder and the
remainder before that cycle (R414). -/
structure CtSet where
  ct    : Map DWord := []
  ev    : Map Nat := []
  ovf   : Map Bool := []
  rem   : Nat := 0
  wrote : Map CtNow := []
  cleared : Option (Nat × Nat) := none
  deriving DecidableEq, Repr

/-- An event counted at a cycle for a frank, and not yet added (R413). -/
structure CtEvt where
  frank : Nat
  ev    : Nat
  n     : Nat
  cyc   : Nat
  deriving DecidableEq, Repr

/-- The counter sets and the events counted but not yet added, oldest first (R413). -/
structure Counters where
  sets : Map CtSet := []
  pend : List CtEvt := []
  deriving DecidableEq, Repr

/-! ## Coherence (R307 to R321) -/

/-- A privatised copy (R309): the core, its byte mask and the bytes it holds by offset, the frank of the last store into
it, to which its write-back is charged (R411), and whether its data carry an uncorrectable error (R376). -/
structure PrivCopy where
  core  : Nat
  mask  : List Nat
  data  : Map Byte
  frank : Nat := 0
  poison : Bool := false
  deriving DecidableEq, Repr

/-- A directory entry: holders, SEQ, the cycles of recent invalidations, the bytes each core has asked to
write, privatised copies, and the cycle until which the line stays unprivatised. -/
structure Dir where
  holders : List Nat := []
  seq     : Nat := 0
  recent  : List Nat := []
  priv    : List PrivCopy := []
  until_  : Nat := 0
  deriving DecidableEq, Repr

/-- A write past its core-scope point that waits at its home for leases and acknowledgements; `cost` is the number of bytes that it
counts at its tier (R411). -/
structure HomeW where
  id     : Nat
  core   : Nat
  uid    : Nat
  line   : Nat
  bytes  : List Host.Cell
  until_ : Nat
  acks   : List Nat
  frank  : Nat
  cost   : Nat := 128
  deriving DecidableEq, Repr

/-- A writer's claim on a line at its home (R307, R308): its write has arrived there and waits for the leases granted before it and
for the acknowledgements of the invalidations that it has sent. Its bytes come when it performs. -/
structure Claim where
  id   : Nat
  who  : Writer
  line : Nat
  acks : List Nat
  deriving DecidableEq, Repr

/-- A lease granted: core, line, LEXP. -/
structure Lease where
  core : Nat
  line : Nat
  lexp : Nat
  deriving DecidableEq, Repr

/-- A fill in flight, with the invalidation held for it (R311). -/
structure Fill where
  core : Nat
  line : Nat
  copy : Line
  seq  : Nat
  held : Option (Nat × Nat)
  deriving DecidableEq, Repr

/-- An invalidation in flight to a core, for the home write or the claim `wid`. -/
structure Inval where
  core : Nat
  line : Nat
  seq  : Nat
  wid  : Nat
  deriving DecidableEq, Repr

/-- A watch of a STALL region (R321): done when the home has pushed the line or the time has passed. -/
structure Watch where
  id    : Nat
  core  : Nat
  line  : Nat
  uid   : Nat
  limit : Nat
  fired : Bool
  tag   : Nat
  region : Nat
  frank : Nat := 0
  /-- Its page is mapped NC: the copy pushed is an NC copy (R260). -/
  nc     : Bool := false
  deriving DecidableEq, Repr

/-- A migration in progress (R289): the writes numbered from `after` on have arrived at its homes since the block. -/
structure Migration where
  uid    : Nat
  asid   : Nat
  va     : Nat
  log2   : Nat
  old    : Nat
  new    : Nat
  pteAt  : Nat
  after  : Nat := 0
  deriving DecidableEq, Repr

structure Coh where
  dirs    : Map Dir := []
  homeq   : List HomeW := []
  claims  : List Claim := []
  leases  : List Lease := []
  fills   : List Fill := []
  invals  : List Inval := []
  /-- Acknowledgements in flight: the home write or the claim, and the core. -/
  acks    : List (Nat × Nat) := []
  watches : List Watch := []
  migs    : List Migration := []
  /-- Round notices in flight: core, region, count (R317). -/
  notices : List (Nat × Nat × Nat) := []
  /-- Writes a root switch has ordered and a replica has not applied: package, address, byte (R277). -/
  reps    : List (Nat × List Host.Cell) := []
  /-- Lines marked poisoned where they lie outside the L1s and instruction caches (R376), each with the unit that holds the error:
  4 for a copy in an L2 slice, else the memory of its home (R377). -/
  poison  : Map Nat := []
  /-- Values of aligned words that writes have replaced and that no icinv has covered since, by physical address: a fetch
  may still return them (R431). -/
  stale   : Map (List Word) := []
  /-- CXL ports whose device has been removed (R442). -/
  removed : List Nat := []
  deriving DecidableEq, Repr

/-! ## Agents and moves -/

/-- Who issues an instruction word: the group at a place, or the stream of a partition. -/
inductive Agent
  | group (g : Nat)
  | stream (p : Nat)
  deriving DecidableEq, Repr

/-- An instruction word being issued: by whom, where, for which lanes, and its words. -/
structure Issue where
  agent : Agent
  pc    : DWord
  lanes : Word
  word  : Word
  ext   : Word
  deriving DecidableEq, Repr

/-- A move of the machine: an event with its subject, the issue of a path or of a stream, a turn of a
partition's issue stage, a register access of the host (R438), the loader's work on an object for a queue with its text and
data at addresses, its symbols bound and, for a Uzora object, its native code (R421, R427), a replacement in a TLB or an L1
(0 a core's L1 TLB, 1 a cluster's L2 TLB, 2 a line of a core's L1; R283, R311), a unit of a courier's copy moved before the
copy ends (core, courier, unit; R228, R230), a row of a stream's engine operation landed before the operation ends (partition, operation; R182, R192), a row's pages translated ahead
of its issue (partition, address of the instruction, row; R174), a write of a CXL device's own engines to its memory (address,
bytes; R260, R442), or a cycle in which nothing happens. -/
inductive Move
  | event (i : Instr) (subj : List Nat)
  | issue (a : Agent) (pc : DWord) (lanes : Word)
  | turn (p : Nat)
  | hostWrite (reg : Nat) (v : DWord)
  | hostRead (reg : Nat)
  | load (queue text data : Nat) (img : List Byte) (syms : List Nat) (native : List Byte)
  | evict (what at_ key : Nat)
  | unit (core courier i : Nat)
  | row (p i : Nat)
  | ahead (p : Nat) (pc : DWord) (row : Nat)
  | device (at_ : Nat) (bs : List Byte)
  | idle
  deriving DecidableEq, Repr

/-- How far the clocks advance with a step: cycles, and how much faster than its nominal rate TIME runs meanwhile, in parts per
million (R339). -/
structure Tick where
  cycles : Nat
  slew   : Int := 0
  deriving DecidableEq, Repr

/-! ## The machine -/

/-- The whole package. Places: a partition is 4 * core + partition, a group's place 16 * partition + slot,
with core = 48 * y + x. `mem` is physical memory, `spad` holds offset o of core c at 2^20 * c + o; an
unlisted byte of either reads 0. `cur`, `subj`, `agenda`, `ticks`, `fresh`, `nextId` and `turn` are the model's own
(log entries 10 to 14). -/
structure State where
  cur      : Option Issue
  subj     : List Nat
  agenda   : List Move
  ticks    : List Tick
  fresh    : Nat
  nextId   : Nat
  idn      : Ident
  clk      : Clock
  boot     : Boot
  mem      : List Host.Cell
  spad     : List Host.Cell
  cores    : Map Core
  clusters : Map Cluster
  parts    : Map Part
  groups   : Map Group
  streams  : Map Stream
  blocks   : Map Block
  mail     : Mail
  faults   : FaultUnit
  rounds   : Rounds
  trace    : Trace
  ctrs     : Counters
  bars     : Map Bar
  coh      : Coh
  /-- The value the last register read of the host returned (R438). -/
  hostVal  : DWord
  /-- How far this cycle has come: the issue stages (2 p) and streams (2 p + 1) below it have had their turn (the model's own,
  log entry 11). -/
  turn     : Nat
  deriving DecidableEq, Repr

/-- The machine right after package reset: every register at its Reset column; where the spec gives none,
the value a log entry names (PROF 1, bring-up fields 2, STVEC 3, memory 4, the model's own fields 10 to
14). -/
def State.reset : State where
  cur := none
  subj := []
  agenda := []
  ticks := []
  fresh := 0
  nextId := 0
  idn :=
    { prof := 0x103, cap := 0x00184101, errwin := 0x7, podid := 0x1FF, lnkstat := 0
      pwrstat := 1050, mcstat := 0, hevt := 0, stvec := 0 }
  clk := { cyc := 0, time := 0, tstat := 0x00FFFFFF, locked := false }
  boot := {}
  mem := []
  spad := []
  cores := []
  clusters := []
  parts := []
  groups := []
  streams := []
  blocks := []
  mail := {}
  faults := {}
  rounds := {}
  trace := {}
  ctrs := {}
  bars := []
  coh := {}
  hostVal := 0
  turn := 0

end Sys2Proof.Machine
end

