-- ==== Sys2Proof/Machine/Maps.lean ====
section
/-! DEFINITION. Sparse stores: reading, writing and erasing a key in a list of pairs kept with rising keys. -/

namespace Sys2Proof.Machine

/-- The entry of a key, if there is one. -/
def mfind {β : Type} : Map β → Nat → Option β
  | [], _ => none
  | (k, v) :: m, n => if k = n then some v else mfind m n

/-- The value of a key; an absent key reads `d`. -/
def mget {β : Type} (d : β) (m : Map β) (n : Nat) : β :=
  match mfind m n with
  | some v => v
  | none => d

/-- The store without a key. -/
def mdel {β : Type} (m : Map β) (n : Nat) : Map β := m.filter (fun e => e.1 != n)

/-- A pair put before the first greater key. -/
def minsert {β : Type} : Map β → Nat → β → Map β
  | [], n, v => [(n, v)]
  | (k, w) :: m, n, v => if n < k then (n, v) :: (k, w) :: m else (k, w) :: minsert m n v

/-- The store with a key set. -/
def mput {β : Type} (m : Map β) (n : Nat) (v : β) : Map β := minsert (mdel m n) n v

/-- The store with a key set; a value equal to what an absent key reads as is not listed. -/
def mset {β : Type} [DecidableEq β] (d : β) (m : Map β) (n : Nat) (v : β) : Map β :=
  if v = d then mdel m n else mput m n v

/-- The least number that is no key, below a bound. -/
def mfree {β : Type} (m : Map β) (bound : Nat) : Option Nat :=
  (List.range bound).find? (fun n => (mfind m n).isNone)

/-! ## Memory: bytes by address; an unlisted byte reads 0 (log entry 4) -/

/-- What an unlisted byte reads as. -/
def emptyByte : Byte := 0

/-- A byte of a memory. -/
def readByte (m : List Host.Cell) (a : Nat) : Byte := mget emptyByte m a

/-- A memory with one byte written. -/
def writeByte (m : List Host.Cell) (a : Nat) (b : Byte) : List Host.Cell := mset emptyByte m a b

/-- A memory with a list of bytes written, in order. -/
def writeCells (m : List Host.Cell) (cs : List Host.Cell) : List Host.Cell :=
  cs.foldl (fun m c => writeByte m c.1 c.2) m

/-- The bytes [a, a + n). -/
def readBytes (m : List Host.Cell) (a n : Nat) : List Byte := (List.range n).map (fun i => readByte m (a + i))

/-- The cells of a run of bytes from an address up. -/
def cellsAt (a : Nat) (bs : List Byte) : List Host.Cell :=
  bs.zipIdx.map (fun e => (a + e.2, e.1))

/-- A little-endian value (R3). -/
def ofBytes : List Byte → Nat
  | [] => 0
  | b :: bs => b.toNat + 256 * ofBytes bs

/-- The n bytes of a value, lowest address first (R3). -/
def toBytes : Nat → Nat → List Byte
  | 0, _ => []
  | n + 1, v => BitVec.ofNat 8 v :: toBytes n (v / 256)

/-- Keys strictly rising. -/
def sortedKeys {β : Type} : Map β → Bool
  | [] => true
  | [_] => true
  | a :: b :: m => decide (a.1 < b.1) && sortedKeys (b :: m)

/-- The canonical form of a memory: addresses strictly rising, no byte that an unlisted address reads as. -/
def Memory.wf (m : List Host.Cell) : Bool := sortedKeys m && m.all (fun c => c.2 != emptyByte)

end Sys2Proof.Machine
end

