-- ==== Sys2Proof/Machine/Update.lean ====
section
/-! DEFINITION. What a step may change: a list of updates, each of one component of the state. No update
touches what is fused (PROF, ERRWIN, the fused fields of CAP), and memory is written only as bytes. -/

namespace Sys2Proof.Machine

/-- The registers of `Ident` that change (R13 to R17, R373, R377, R439, R440, R443). -/
inductive IdReg
  | cap | podid | lnkstat | pwrstat | mcstat | hevt | stvec
  deriving DecidableEq, Repr

/-- One update. -/
inductive Upd
  | mem (cs : List Host.Cell)
  | spad (cs : List Host.Cell)
  | ident (r : IdReg) (v : DWord)
  | clk (c : Clock)
  | boot (b : Boot)
  | core (n : Nat) (c : Core)
  | cluster (n : Nat) (c : Cluster)
  | part (n : Nat) (p : Part)
  | group (n : Nat) (g : Group)
  | delGroup (n : Nat)
  | stream (n : Nat) (t : Stream)
  | delStream (n : Nat)
  | block (n : Nat) (b : Block)
  | delBlock (n : Nat)
  | mail (m : Mail)
  | faults (f : FaultUnit)
  | rounds (r : Rounds)
  | trace (t : Trace)
  | ctrs (c : Counters)
  | bar (n : Nat) (b : Bar)
  | coh (c : Coh)
  | fresh (n : Nat)
  | nextId (n : Nat)
  | hostVal (v : DWord)
  | cur (c : Option Issue)
  | subj (l : List Nat)
  | agenda (l : List Move)
  | ticks (l : List Tick)
  | turn (n : Nat)
  /-- Package reset: everything but what is fused, memory and the model's own fields. -/
  | reset
  deriving Repr

/-- CAP with its bring-up fields replaced (R15): the fused fields keep their bits. -/
def capWith (old v : DWord) : DWord :=
  (old &&& 0x0000000000FFFFFF) ||| (v &&& 0x0000FFFFFC000000)

/-- The identity registers with one of them written. -/
def Ident.with (i : Ident) (r : IdReg) (v : DWord) : Ident :=
  match r with
  | .cap => { i with cap := capWith i.cap v }
  | .podid => { i with podid := v.setWidth 32 }
  | .lnkstat => { i with lnkstat := v }
  | .pwrstat => { i with pwrstat := v.setWidth 32 }
  | .mcstat => { i with mcstat := v }
  | .hevt => { i with hevt := v }
  | .stvec => { i with stvec := v }

/-- The package after reset, with what a reset leaves: the fused values, memory, the model's own fields. -/
def resetOf (s : State) : State :=
  { State.reset with
    idn := { State.reset.idn with prof := s.idn.prof, errwin := s.idn.errwin, cap := capWith s.idn.cap 0 }
    mem := s.mem, agenda := s.agenda, ticks := s.ticks, fresh := s.fresh, nextId := s.nextId
    cur := s.cur, subj := s.subj, turn := s.turn }

/-- The state after one update. -/
def Upd.apply (u : Upd) (s : State) : State :=
  match u with
  | .mem cs => { s with mem := writeCells s.mem cs }
  | .spad cs => { s with spad := writeCells s.spad cs }
  | .ident r v => { s with idn := s.idn.with r v }
  | .clk c => { s with clk := c }
  | .boot b => { s with boot := b }
  | .core n c => { s with cores := mput s.cores n c }
  | .cluster n c => { s with clusters := mput s.clusters n c }
  | .part n p => { s with parts := mput s.parts n p }
  | .group n g => { s with groups := mput s.groups n g }
  | .delGroup n => { s with groups := mdel s.groups n }
  | .stream n t => { s with streams := mput s.streams n t }
  | .delStream n => { s with streams := mdel s.streams n }
  | .block n b => { s with blocks := mput s.blocks n b }
  | .delBlock n => { s with blocks := mdel s.blocks n }
  | .mail m => { s with mail := m }
  | .faults f => { s with faults := f }
  | .rounds r => { s with rounds := r }
  | .trace t => { s with trace := t }
  | .ctrs c => { s with ctrs := c }
  | .bar n b => { s with bars := mput s.bars n b }
  | .coh c => { s with coh := c }
  | .fresh n => { s with fresh := n }
  | .nextId n => { s with nextId := n }
  | .hostVal v => { s with hostVal := v }
  | .cur c => { s with cur := c }
  | .subj l => { s with subj := l }
  | .agenda l => { s with agenda := l }
  | .ticks l => { s with ticks := l }
  | .turn n => { s with turn := n }
  | .reset => resetOf s

/-- The state after a list of updates, in order. -/
def applyAll (us : List Upd) (s : State) : State := us.foldl (fun s u => u.apply s) s

/-- What an operation does to a state, as the updates it makes. -/
abbrev Eff := State → List Upd

namespace Eff

/-- No update. -/
def nop : Eff := fun _ => []

/-- One operation, then another on the state it leaves. -/
def seq (f g : Eff) : Eff := fun s =>
  let us := f s
  us ++ g (applyAll us s)

/-- Operations in order. -/
def all : List Eff → Eff
  | [] => nop
  | f :: fs => seq f (all fs)

/-- An operation under a condition. -/
def when (c : Bool) (f : Eff) : Eff := if c then f else nop

/-- The same operation for each item, in order. -/
def forEach {α : Type} (l : List α) (f : α → Eff) : Eff := all (l.map f)

/-- An optional operation: nothing where there is none. -/
def opt (o : Option Eff) : Eff :=
  match o with
  | some eff => eff
  | none => nop

end Eff

/-- Two operations in order. -/
def thenDo (f g : Eff) : Eff := Eff.seq f g

/-- The outcome of an operation: the state its updates leave. -/
def commit (f : Eff) (s : State) : Host.Outcome State Fault Refusal := .next (applyAll (f s) s)

end Sys2Proof.Machine
end

