-- ==== Sys2Proof/Machine/Base.lean ====
section
/-! DEFINITION. Places, look-ups and register-file access: the named reads and writes that every family
uses. -/

namespace Sys2Proof.Machine

/-! ## Places (R6) -/

/-- Core of a group's place. -/
def coreOfG (g : Nat) : Nat := g / 64
/-- Partition place of a group's place. -/
def partOfG (g : Nat) : Nat := g / 16
/-- Slot of a group's place. -/
def slotOfG (g : Nat) : Nat := g % 16
/-- x of a core. -/
def coreX (c : Nat) : Nat := c % 48
/-- y of a core. -/
def coreY (c : Nat) : Nat := c / 48
/-- The core at (x, y). -/
def coreAt (x y : Nat) : Nat := 48 * y + x
/-- Cluster of a core (R6). -/
def clusterOf (c : Nat) : Nat := coreY c / 8 * 3 + coreX c / 16
/-- Local number of a core in its cluster (R6). -/
def localOf (c : Nat) : Nat := coreY c % 8 * 16 + coreX c % 16
/-- The core of a cluster with a local number. -/
def coreOfLocal (cl n : Nat) : Nat := coreAt (cl % 3 * 16 + n % 16) (cl / 3 * 8 + n / 16)

/-! ## Lanes -/

/-- Lane l is in a mask. -/
def inMask (m : Word) (l : Nat) : Bool := m.getLsbD l
/-- A mask as its lanes, ascending. -/
def lanesOf (m : Word) : List Nat := (List.range 32).filter (inMask m)
/-- The mask of the lanes that satisfy a test. -/
def maskOf (f : Nat → Bool) : Word :=
  (List.range 32).foldl (fun (a : Word) l => if f l then a ||| ((1 : Word) <<< l) else a) 0
/-- The lowest lane of a mask, 0 for an empty one. -/
def lowest (m : Word) : Nat := ((List.range 32).find? (inMask m)).getD 0
/-- How many lanes a mask holds. -/
def popCount (m : Word) : Nat := (lanesOf m).length

/-! ## Field access on 64-bit images -/

/-- Field hi:lo of a register image. -/
def fld (v : DWord) (hi lo : Nat) : Nat := bits v.toNat hi lo
/-- A register image with field hi:lo replaced. -/
def setFld (v : DWord) (hi lo x : Nat) : DWord :=
  BitVec.ofNat 64 (v.toNat - bits v.toNat hi lo * 2 ^ lo + x % 2 ^ (hi + 1 - lo) * 2 ^ lo)
/-- Sign extension of the low w bits (R7). -/
def sextN (x w : Nat) : Int :=
  let m := x % 2 ^ w
  if m < 2 ^ (w - 1) then m else (m : Int) - 2 ^ w
/-- An integer as a w-bit pattern. -/
def patOf (x : Int) (w : Nat) : Nat := (x % (2 ^ w : Int)).toNat
/-- A 64-bit sum. -/
def add64 (a b : DWord) : DWord := a + b

/-! ## Look-ups -/

def getCore (s : State) (c : Nat) : Core := mget {} s.cores c
def getCluster (s : State) (c : Nat) : Cluster := mget {} s.clusters c
def getPart (s : State) (p : Nat) : Part := mget {} s.parts p
def getQueue (s : State) (q : Nat) : Queue := mget {} s.mail.queues q
def getBar (s : State) (k : Nat) : Bar := mget {} s.bars k
def getRt (s : State) (n : Nat) : RtEntry := mget {} s.rounds.ents n
def getSession (s : State) (n : Nat) : Session := mget {} s.trace.sessions n
def getSet (s : State) (n : Nat) : CtSet := mget {} s.ctrs.sets n
def getDir (s : State) (line : Nat) : Dir := mget {} s.coh.dirs line

/-- TIME as its register reads (R338). -/
def timeReg (c : Clock) : DWord :=
  BitVec.ofNat 64 (c.time / 1000000000 * 2 ^ 30 + c.time % 1000000000)

/-- Field hi:lo of dword d of a launch's packet (R349). -/
def pktF (l : Launch) (d hi lo : Nat) : Nat := fld (l.pkt.getD d 0) hi lo
/-- The launch's frank. -/
def frankOf (l : Launch) : Nat := pktF l 1 63 56
def launchOfBlk (s : State) (b : Nat) : Option Launch :=
  match mfind s.blocks b with
  | some k => mfind s.mail.launches k.launch
  | none => none
/-- The frank of a block's launch. -/
def frankOfBlk (s : State) (b : Nat) : Nat :=
  match launchOfBlk s b with
  | some l => frankOf l
  | none => 0

/-- The resident groups of a block, with their places, lowest first. -/
def groupsOfBlk (s : State) (b : Nat) : List (Nat × Group) := s.groups.filter (fun e => e.2.blk == b)
/-- The resident stream of a block. -/
def streamOfBlk (s : State) (b : Nat) : Option (Nat × Stream) := s.streams.find? (fun e => e.2.blk == b)
/-- The host group of a block: its lowest-numbered live group (R374). -/
def hostGroup (s : State) (b : Nat) : Option (Nat × Group) :=
  (groupsOfBlk s b).find? (fun e => !e.2.ending && e.2.live != 0)
/-- The slot of the block's lowest-numbered group (R286, R471). -/
def lowSlot (s : State) (b : Nat) : Nat :=
  match mfind s.blocks b with
  | some x => x.low
  | none => 0
/-- The place of the group a uid names. -/
def placeOfUid (s : State) (uid : Nat) : Option (Nat × Group) := s.groups.find? (fun e => e.2.uid == uid)

/-- Marker-check mode of a launch (R50). -/
def launchMchk (l : Launch) : Bool := pktF l 1 41 41 == 1
/-- A COMPAT bit the launch holds and the device honours (R422, R423). -/
def compatBit (s : State) (l : Launch) (i : Nat) : Bool :=
  bit (l.pkt.getD 11 0).toNat i && bit s.idn.errwin.toNat i

/-! ## Register elements -/

/-- The reset image of a format register: preset e4m3 (R77). -/
def kfReset : DWord := 0x2841C341

def getK (u : UFile) (n : Nat) : DWord := mget 0 u.k n
def getKp (u : UFile) (n : Nat) : Bool := if n == 7 then true else mget false u.kp n
def getLc (u : UFile) (n : Nat) : Word := mget 0 u.lc n
def getLm (u : UFile) (n : Nat) : Word := mget 0 u.lm n
def getKc (u : UFile) (n : Nat) : DWord := mget 0 u.kc n
def getKst (u : UFile) (n : Nat) : DWord := mget 0 u.kst n
def getKf (u : UFile) (n : Nat) : DWord := mget kfReset u.kf n
def getV (l : LFile) (row lane : Nat) : Word := mget 0 l.v (32 * row + lane)
def getQ (l : LFile) (n lane : Nat) : Word := mget 0 l.q (32 * n + lane)
def getY (l : LFile) (n lane : Nat) : DWord := mget 0 l.y (32 * n + lane)
def getP (l : LFile) (n : Nat) : Word := if n == 7 then BitVec.allOnes 32 else mget 0 l.p n

def setK (u : UFile) (n : Nat) (v : DWord) : UFile := { u with k := mset 0 u.k n v }
def setKp (u : UFile) (n : Nat) (v : Bool) : UFile := { u with kp := mset false u.kp n v }
def setLcRaw (u : UFile) (n : Nat) (v : Word) : UFile := { u with lc := mset 0 u.lc n v }
def setKc (u : UFile) (n : Nat) (v : DWord) : UFile := { u with kc := mset 0 u.kc n v }
def setKst (u : UFile) (n : Nat) (v : DWord) : UFile := { u with kst := mset 0 u.kst n v }
/-- What has happened at a completion register at a CYC (R137). -/
def kcNow (cyc : Nat) (u : UFile) (kc : Nat) : KcNow :=
  match mfind u.kcn kc with
  | some x => if x.cyc = cyc then x else { cyc := cyc, base := (getKc u kc).toNat, st := getKst u kc }
  | none => { cyc := cyc, base := (getKc u kc).toNat, st := getKst u kc }
/-- A completion register after the events of a cycle in the order of R137: what a kcset gave, additions, then subtractions; one
that would take the count below 0 leaves it at 0 and sets UNDER (R136). -/
def kcPut (kc : Nat) (x : KcNow) (u : UFile) : UFile :=
  let v := (x.base + x.adds) % 2 ^ 64
  let u := { u with kcn := mput u.kcn kc x }
  if v < x.subs then setKst (setKc u kc 0) kc (x.st ||| 0x8000000000) else setKst (setKc u kc (BitVec.ofNat 64 (v - x.subs))) kc x.st
/-- A completion register set, or raised by an instruction that issues, at a CYC. -/
def kcSet (cyc kc v : Nat) (u : UFile) : UFile := kcPut kc { kcNow cyc u kc with base := v } u
def kcRaise (cyc kc n : Nat) (u : UFile) : UFile := let x := kcNow cyc u kc; kcPut kc { x with adds := x.adds + n } u
def setKf (u : UFile) (n : Nat) (v : DWord) : UFile := { u with kf := mset kfReset u.kf n v }
def setV (l : LFile) (row lane : Nat) (v : Word) : LFile := { l with v := mset 0 l.v (32 * row + lane) v }
def setQ (l : LFile) (n lane : Nat) (v : Word) : LFile := { l with q := mset 0 l.q (32 * n + lane) v }
def setY (l : LFile) (n lane : Nat) (v : DWord) : LFile := { l with y := mset 0 l.y (32 * n + lane) v }
def setP (l : LFile) (n : Nat) (v : Word) : LFile := { l with p := mset 0 l.p n v }

/-- A value reduced by a ring size, 2^32 when it is 0 (R134). -/
def ringMod (v : Nat) (size : Word) : Word :=
  if size == 0 then BitVec.ofNat 32 v else BitVec.ofNat 32 (v % size.toNat)

/-- A write of lcN: mod its size (R134). -/
def setLc (u : UFile) (n v : Nat) : UFile := setLcRaw u n (ringMod v (getLm u n))
/-- A write of lmN: lcN is reduced in the same cycle (R134). -/
def setLm (u : UFile) (n : Nat) (v : Word) : UFile :=
  setLcRaw { u with lm := mset 0 u.lm n v } n (ringMod (getLc u n).toNat v)
/-- The automatic increment of lcN (R135). -/
def incLc (u : UFile) (n : Nat) : UFile := setLc u n ((getLc u n).toNat + 1)

/-- A 32-bit element of a register: of a lane for the lane files, of a half for 64-bit registers. -/
def elem (r : Regs) (reg : Reg) (lane half : Nat) : Nat :=
  match reg with
  | .v n => (getV r.l n lane).toNat
  | .q n => (getQ r.l n lane).toNat
  | .y n => bits (getY r.l n lane).toNat (32 * half + 31) (32 * half)
  | .p n => if inMask (getP r.l n) lane then 1 else 0
  | .k n => bits (getK r.u n).toNat (32 * half + 31) (32 * half)
  | .kp n => if getKp r.u n then 1 else 0
  | .lc n => (getLc r.u n).toNat
  | .lm n => (getLm r.u n).toNat

/-- The number that names an element to the free choices. -/
def elemCode (reg : Reg) (lane half : Nat) : Nat :=
  let c := match reg with
    | .v n => n
    | .q n => 112 + n
    | .y n => 128 + n
    | .p n => 132 + n
    | .k n => 140 + n
    | .kp n => 204 + n
    | .lc n => 212 + n
    | .lm n => 216 + n
  (c * 32 + lane) * 2 + half

/-- Whether a register belongs to lanes. -/
def regIsLane : Reg → Bool
  | .v _ => true
  | .q _ => true
  | .y _ => true
  | .p _ => true
  | _ => false

/-- An outstanding write covers an element. -/
def outCovers (o : Out) (reg : Reg) (lane : Nat) : Bool :=
  !o.landed && o.regs.contains reg && (!regIsLane reg || inMask o.lanes lane)

/-- The value a read of an element takes (R47): the value itself when no write to it is outstanding, else
one of the values before and after each outstanding write. -/
def readElem (u : UCtx) (fresh : Nat) (reg : Reg) (lane half : Nat) : Nat :=
  let now := elem u.regs reg lane half
  match (u.outs.filter (fun o => outCovers o reg lane)).map (fun o => elem o.before reg lane half) with
  | [] => now
  | olds =>
    let all := olds ++ [now]
    all.getD (Config.hazardPick fresh (elemCode reg lane half) % all.length) now

/-- A 64-bit register read in halves. -/
def readPair (u : UCtx) (fresh : Nat) (reg : Reg) (lane : Nat) : Nat :=
  readElem u fresh reg lane 0 + 2 ^ 32 * readElem u fresh reg lane 1

/-- A file with one element replaced. -/
def setElem (r : Regs) (reg : Reg) (lane half v : Nat) : Regs :=
  let mix (old : DWord) : DWord :=
    if half == 0 then setFld old 31 0 v else setFld old 63 32 v
  match reg with
  | .v n => { r with l := setV r.l n lane (BitVec.ofNat 32 v) }
  | .q n => { r with l := setQ r.l n lane (BitVec.ofNat 32 v) }
  | .y n => { r with l := setY r.l n lane (mix (getY r.l n lane)) }
  | .p n => { r with l := setP r.l n (maskOf (fun i => if i == lane then v != 0 else inMask (getP r.l n) i)) }
  | .k n => { r with u := setK r.u n (mix (getK r.u n)) }
  | .kp n => { r with u := setKp r.u n (v != 0) }
  | .lc n => { r with u := setLcRaw r.u n (BitVec.ofNat 32 v) }
  | .lm n => { r with u := { r.u with lm := mset 0 r.u.lm n (BitVec.ofNat 32 v) } }

/-- The elements an instruction writes that a later outstanding one writes too, with the value the later one
found: where the earlier write may stand (R47). y registers keep the order of their shifts (R133). -/
def clashes (o : Out) (later : List Out) : List (Reg × Nat × Nat × Nat) :=
  o.regs.flatMap (fun reg =>
    match reg with
    | .y _ => []
    | _ =>
      let ls := if regIsLane reg then lanesOf o.lanes else [0]
      let hs := match reg with
        | .k _ => [0, 1]
        | _ => [0]
      ls.flatMap (fun l => hs.flatMap (fun h =>
        match later.find? (fun p => outCovers p reg l) with
        | some p => [(reg, l, h, elem p.before reg l h)]
        | none => [])))

/-- The landing of the oldest outstanding result: its registers stand, and where a later outstanding write
meets one of them each element keeps either write's value. -/
def landOne (u : UCtx) (fresh : Nat) : UCtx :=
  let rec go (done todo : List Out) : UCtx :=
    match todo with
    | [] => u
    | o :: rest =>
      if o.landed || o.sq.isSome then go (done ++ [o]) rest
      else
        let regs := (clashes o rest).foldl (fun r (e : Reg × Nat × Nat × Nat) =>
          if Config.hazardPick fresh (elemCode e.1 e.2.1 e.2.2.1) % 2 == 0
          then setElem r e.1 e.2.1 e.2.2.1 e.2.2.2 else r) u.regs
        { u with regs := regs, outs := done ++ { o with landed := true, before := {} } :: rest }
  go [] u.outs

/-- Every outstanding result that waits for nothing lands. -/
def landAll (u : UCtx) (fresh : Nat) : UCtx :=
  u.outs.foldl (fun u _ => landOne u fresh) u

/-- No result is outstanding. -/
def allLanded (u : UCtx) : Bool := u.outs.all (·.landed)

end Sys2Proof.Machine
end

