-- ==== Sys2Proof/Machine/Cards.lean ====
section
/-! DEFINITION. Cards, sessions and counters as other units use them (17: R386 to R399, R471; 18: R409 to
R413). -/

namespace Sys2Proof.Machine

/-! ## Counters -/

/-- An event counted for a frank: added to its counter later (R413). -/
def count (frank ev n : Nat) : Eff := fun s =>
  if n = 0 then []
  else [.ctrs { s.ctrs with pend := s.ctrs.pend ++ [{ frank := frank, ev := ev, n := n, cyc := s.clk.cyc }] }]

/-- The tier of a physical address, as its event code (R255, R411): vault, LPDDR-5X, CXL, host, peer. -/
def tierEvent (a : Nat) : Nat :=
  if a ≥ 2 ^ 48 then 13
  else if a ≥ 2 ^ 47 then 17
  else if a ≥ 0x100000000000 then 12
  else if a ≥ 0x10000000000 then 11
  else 10

/-- Bytes of an access at an address counted: at its tier, or over Waistavo links once for each of the two it crosses, this
package's to a switch and the switch's to the peer (R411, R441). -/
def countAt (frank a n : Nat) : Eff := count frank (tierEvent a) (if a ≥ 2 ^ 48 then 2 * n else n)

/-- The L2 slice of a line's home holds it: only of LPDDR-5X and CXL (R258); otherwise open (log entry 60). -/
def l2Holds (s : State) (a : Nat) : Bool :=
  decide (0x10000000000 ≤ a) && decide (a < 2 ^ 47) && Config.l2Holds s.fresh (a / 128)

/-- Bytes read at an address counted; a hit in an L2 slice counts nothing. -/
def countRead (frank a n : Nat) : Eff := fun s => if l2Holds s a then [] else countAt frank a n s

/-- The event that a counter selects. -/
def ctEvent (x : CtSet) (n : Nat) : Nat := mget (n + 1) x.ev n

/-- The value of a counter. -/
def ctVal (x : CtSet) (n : Nat) : DWord := mget 0 x.ct n

/-- The energy charge of one unit of an event, in 0.01 pJ (R411). -/
def energyOf (ev : Nat) : Nat :=
  match ev with
  | 1 => 600
  | 2 => 2000
  | 3 => 24
  | 4 => 90
  | 5 => 10
  | 6 => 8
  | 7 => 200
  | 10 => 40
  | 11 => 400
  | 12 => 900
  | 13 => 700
  | 17 => 600
  | 19 => 100
  | _ => 0

/-- What the cycle of a counter's cntcfg found, where that is a given cycle. -/
def ctNow (x : CtSet) (cyc n : Nat) : Option CtNow := (mfind x.wrote n).filter (fun w => w.cyc == cyc)

/-- What a set's events of a cycle add to the counter of an event; the energy charge in whole mJ is `mj`. -/
def eventSum (evs : List CtEvt) (mj e : Nat) : Nat :=
  if e = 16 then mj else if e = 0 then 0 else ((evs.filter (fun y => y.ev == e)).map (·.n)).foldl (· + ·) 0

/-- The remainder with the charges of a cycle's events, which the cycle began with or a cntcfg of it cleared (R412). -/
def chargedRem (x : CtSet) (cyc : Nat) (evs : List CtEvt) : Nat :=
  (match x.cleared with
   | some (c, r) => if c = cyc then r else x.rem
   | none => x.rem) + (evs.map (fun y => y.n * energyOf y.ev)).foldl (· + ·) 0

/-- Whole mJ that a cycle's events move out of the remainder (R412). -/
def wholeMj (x : CtSet) (cyc : Nat) (evs : List CtEvt) : Nat := chargedRem x cyc evs / 100000000000

/-- The addition of a cycle's events carries out of a counter that a cntcfg wrote in it, from the value that it replaced (R414). -/
def ctCarry (x : CtSet) (evs : List CtEvt) (w : CtNow) : Bool :=
  decide (2 ^ 64 ≤ w.val.toNat + eventSum evs (wholeMj x w.cyc evs) w.ev)

/-- One addition to a counter of what a cycle's events come to (R414). Where a cntcfg of the same cycle has won, the addition
is discarded and OVF follows from the value that the write replaced, by the event selected before it. -/
def addCount (cyc mj n : Nat) (evs : List CtEvt) (x : CtSet) : CtSet :=
  match ctNow x cyc n with
  | some w => { x with ovf := mset false x.ovf n (mget false x.ovf n || decide (2 ^ 64 ≤ w.val.toNat + eventSum evs mj w.ev)) }
  | none =>
    let v := (ctVal x n).toNat + eventSum evs mj (ctEvent x n)
    { x with
      ct := mset 0 x.ct n (BitVec.ofNat 64 v)
      ovf := mset false x.ovf n (mget false x.ovf n || decide (2 ^ 64 ≤ v)) }

/-- A set's events of one cycle added to its counters, and their charges to its remainder (R412, R414): a cntcfg of the cycle
that cleared the remainder leaves it 0. -/
def addEvents (cyc : Nat) (evs : List CtEvt) (x : CtSet) : CtSet :=
  let wins := x.cleared.any (fun c => c.1 == cyc)
  (List.range 16).foldl (fun y n => addCount cyc (wholeMj x cyc evs) n evs y)
    { x with rem := if wins then 0 else chargedRem x cyc evs % 100000000000 }

/-- A set's events, cycle by cycle. -/
def addCycles (evs : List CtEvt) (x : CtSet) : CtSet :=
  ((evs.map (·.cyc)).eraseDups).foldl (fun x c => addEvents c (evs.filter (fun e => e.cyc == c)) x) x

/-- The counter set of a frank (R409). -/
def setOfFrank (frank : Nat) : Nat := frank % 64

/-- A set's events of a cycle that are still to be added. -/
def cycleEvents (s : State) (set cyc : Nat) : List CtEvt :=
  s.ctrs.pend.filter (fun e => setOfFrank e.frank == set && e.cyc == cyc)

/-- OVF of a counter of a set: also where the addition that a cntcfg discards, still to come, carries (R414). -/
def ctOvf (s : State) (set n : Nat) (x : CtSet) : Bool :=
  mget false x.ovf n || (mfind x.wrote n).any (fun w => ctCarry x (cycleEvents s set w.cyc) w)

/-- The events counted before a cycle are added to their sets. -/
def addBefore (cyc : Nat) : Eff := fun s =>
  let due := s.ctrs.pend.filter (fun e => decide (e.cyc < cyc))
  if due.isEmpty then []
  else
    let sets := (due.map (fun e => setOfFrank e.frank)).eraseDups
    [.ctrs
      { sets := sets.foldl (fun m n =>
          mput m n (addCycles (due.filter (fun e => setOfFrank e.frank == n)) (mget {} m n))) s.ctrs.sets
        pend := s.ctrs.pend.filter (fun e => !decide (e.cyc < cyc)) }]

/-! ## Cards -/

/-- Cards of a full trace buffer, of the high-water mark and of the low-water mark (R395 to R397). -/
def bufCards : Nat := 262144
def highCards : Nat := 229376
def lowCards : Nat := 196608

/-- The source of a card (R387). -/
structure Src387 where
  die    : Nat
  core   : Nat
  part   : Nat
  engine : Nat
  deriving DecidableEq, Repr

/-- The source's number. -/
def srcNum (s : Src387) : Nat := s.die * 2 ^ 13 + s.core * 2 ^ 6 + s.part * 2 ^ 4 + s.engine

/-- An engine of a core. -/
def coreSrc (c part engine : Nat) : Src387 := ⟨clusterOf c, localOf c, part, engine⟩
/-- An engine of the package units. -/
def pkgSrc (engine : Nat) : Src387 := ⟨6, 0, 0, engine⟩

/-- The lowest cluster in service, whose buffer takes the package units' cards (R395). -/
def pkgBuf (s : State) : Nat := ((List.range 6).find? (fun c => fld s.idn.cap (26 + c) (26 + c) == 1)).getD 0

/-- The buffer a source's cards enter (R395). -/
def bufOf (s : State) (src : Src387) : Nat := if src.die < 6 then src.die else pkgBuf s

/-- An open session. -/
def sessOpen (x : Session) : Bool := fld x.ctl 0 0 == 1
/-- Registered mail. -/
def sessReg (x : Session) : Bool := fld x.ctl 1 1 == 1

/-- A session receives a card of a type and frank (R394). -/
def receives (x : Session) (ty frank : Nat) : Bool :=
  sessOpen x && fld x.ctl (23 + ty) (23 + ty) == 1 && (fld x.ctl 55 55 == 1 || fld x.ctl 63 56 == frank)

/-- The cards that never stall their emitter (R398). -/
def neverStalls (ty : Nat) : Bool := [14, 15, 16, 17, 18, 19, 20, 21, 22, 23].contains ty

/-- An emitter of such a card stalls now (R397): a registered session receives it and its buffer is at the
high-water mark. -/
def mustStall (s : State) (src : Src387) (ty frank : Nat) : Bool :=
  !neverStalls ty && decide (highCards ≤ (getCluster s (bufOf s src)).cards.length) &&
  s.trace.sessions.any (fun e => sessReg e.2 && receives e.2 ty frank)

/-- An emitter stalled for room in a buffer may go on (R397, R399): the occupancy has fallen below the low-water mark, and
TIME has passed that of the STALL end card. -/
def stallOver (s : State) (cl : Nat) : Bool :=
  (getCluster s cl).stall.isNone && decide ((getCluster s cl).ended < s.clk.time)

/-- Dword 0 of a card (R386). -/
def cardHead (slot seq lane frank src ty : Nat) : DWord :=
  BitVec.ofNat 64 (slot % 16 * 2 ^ 56 + seq % 65536 * 2 ^ 40 + lane % 256 * 2 ^ 32 + frank % 256 * 2 ^ 24 +
    src % 65536 * 2 ^ 8 + ty % 256)

/-- A drop counted for a session (R396). -/
def addDrop (x : Session) : Session := { x with drop := x.drop + 1, drops := x.drops + 1 }

/-- The frank of a session's own cards (R471). -/
def sessFrank (x : Session) : Nat := if fld x.ctl 55 55 = 1 then 0 else fld x.ctl 63 56

/-- A card put at the end of a buffer. -/
def pushCard (cl : Nat) (k : BufCard) : Eff := fun s =>
  if k.who.isEmpty then [] else [.cluster cl { getCluster s cl with cards := (getCluster s cl).cards ++ [k] }]

/-- The next SEQ of a source (R388). -/
def nextSeq (s : State) (src : Nat) : Nat := mget 0 s.trace.seqs src

/-- A source has emitted a card. -/
def bumpSeq (src : Nat) : Eff := fun s =>
  [.trace { s.trace with seqs := mput s.trace.seqs src ((nextSeq s src + 1) % 65536) }]

/-- Drops counted for some sessions: in TSDROP and as event 18 (R396, R411). -/
def dropAll (ns : List Nat) (frank : Session → Nat) : Eff := fun s =>
  Eff.seq
    (fun s => if ns.isEmpty then [] else
      [.trace { s.trace with sessions := s.trace.sessions.map (fun e => if ns.contains e.1 then (e.1, addDrop e.2) else e) }])
    (Eff.forEach ((s.trace.sessions.filter (fun e => ns.contains e.1)).map (fun e => frank e.2)) (fun f => count f 18 1)) s

/-- A card of a source comes into its buffer for the sessions `keep`, and is dropped for the sessions `lost`. -/
def putCard (cl src : Nat) (card : Card) (keep lost : List Nat) (frank : Session → Nat) : Eff :=
  Eff.all [bumpSeq src, dropAll lost frank, pushCard cl { card := card, who := keep, written := false }]

/-- A STALL card of a cluster's fabric, for every open session: 0 begin, 1 end (R390, R399). Each ring gets it with that
session's frank; a full buffer drops it (R398). -/
def stallCard (cl event : Nat) (cycles : Nat) : Eff := fun s =>
  let src := srcNum ⟨cl, 0, 0, 11⟩
  let n := (getCluster s cl).cards.length
  let card : Card :=
    { d0 := cardHead 0 (nextSeq s src) 255 0 src 21, d1 := timeReg s.clk
      d2 := BitVec.ofNat 64 (event + n * 32 / 65536 * 2 ^ 16), d3 := BitVec.ofNat 64 cycles }
  let ns := (s.trace.sessions.filter (fun e => sessOpen e.2)).map (·.1)
  if ns.isEmpty then []
  else putCard cl src card (if bufCards ≤ n then [] else ns) (if bufCards ≤ n then ns else []) sessFrank s

/-- The high-water mark is reached while a registered session is open: a period begins (R399). -/
def checkHigh (cl : Nat) : Eff := fun s =>
  let c := getCluster s cl
  if c.stall.isNone && decide (highCards ≤ c.cards.length) &&
      s.trace.sessions.any (fun e => sessOpen e.2 && sessReg e.2) then
    Eff.seq (fun s => [.cluster cl { getCluster s cl with stall := some 0 }]) (stallCard cl 0 0) s
  else []

/-- A card is lost for a session: a full buffer takes none of those that never stall their emitter (R398), ordinary mail takes
none of the others at the high-water mark (R396). Registered mail loses none of the others: its emitter waits. -/
def cardLost (ty n : Nat) (x : Session) : Bool :=
  if neverStalls ty then decide (bufCards ≤ n) else !sessReg x && decide (highCards ≤ n)

/-- An event's card (R386 to R398): it enters its source's buffer for the sessions that receive it and do not lose it. -/
def emit (src : Src387) (ty lane slot frank : Nat) (p0 p1 : DWord) : Eff := fun s =>
  let cl := bufOf s src
  let n := (getCluster s cl).cards.length
  let who := s.trace.sessions.filter (fun e => receives e.2 ty frank)
  if who.isEmpty then []
  else
    let sn := srcNum src
    let card : Card :=
      { d0 := cardHead slot (nextSeq s sn) lane frank sn ty, d1 := timeReg s.clk, d2 := p0, d3 := p1 }
    let lost := who.filter (fun e => cardLost ty n e.2)
    let keep := who.filter (fun e => !cardLost ty n e.2)
    Eff.seq (putCard cl sn card (keep.map (·.1)) (lost.map (·.1)) (fun _ => frank)) (checkHigh cl) s

/-! ## Engines at a card-emission point (R397) -/

/-- A session bound to a queue that is being reset: it ends with the reset and holds nothing back (R401, R402). -/
def boundTo (q : Option Nat) (x : Session) : Bool := q.any (fun q => fld x.ctl 54 54 == 1 && fld x.ctl 53 48 == q)

/-- A card in a buffer that a registered session receives and whose emitter waits for room. -/
def waitsForRoom (s : State) (skip : Option Nat) (k : BufCard) : Bool :=
  !neverStalls (fld k.card.d0 7 0) && k.who.any (fun n => sessReg (mget {} s.trace.sessions n) && !boundTo skip (mget {} s.trace.sessions n))

/-- An engine stalls for room in a buffer. -/
def engineHeld (s : State) (cl key : Nat) : Bool := (getCluster s cl).held.any (fun h => h.key == key) && !stallOver s cl

/-- An effect puts no such card into a buffer that stands at the high-water mark, nor one of an engine that stalls there. -/
def fitsCards (skip : Option Nat) (eff : Eff) (s : State) : Bool :=
  s.trace.sessions.all (fun e => !(sessOpen e.2 && sessReg e.2)) ||
  (applyAll (eff s) s).clusters.all (fun e =>
    let n := (getCluster s e.1).cards.length
    (e.2.cards.drop n).zipIdx.all (fun k =>
      !waitsForRoom s skip k.1 || (decide (n + k.2 < highCards) && !engineHeld s e.1 (fld k.1.card.d0 23 8))))

/-- It no longer does. -/
def unhold (cl key : Nat) : Eff := fun s =>
  if (getCluster s cl).held.any (fun h => h.key == key) then
    [.cluster cl { getCluster s cl with held := (getCluster s cl).held.filter (fun h => h.key != key) }]
  else []

/-- Engines that stall for a block or a launch that is gone are free. -/
def unholdFor (who : Nat) : Eff := fun s =>
  (s.clusters.filter (fun e => e.2.held.any (fun h => h.who == who))).map (fun e =>
    .cluster e.1 { e.2 with held := e.2.held.filter (fun h => h.who != who) })

/-- An engine at a card-emission point: its event and its card happen together when the card finds room; otherwise it stalls
there. None while it is stalled. -/
def atPoint (cl key who frank : Nat) (skip : Option Nat) (eff : Eff) (s : State) : Option Eff :=
  if engineHeld s cl key then none
  else if fitsCards skip eff s then some (Eff.seq (unhold cl key) eff)
  else if (getCluster s cl).held.any (fun h => h.key == key) then none
  else some (fun s => [.cluster cl { getCluster s cl with held := (getCluster s cl).held ++ [{ key := key, who := who, frank := frank }] }])

/-- The same for an engine that a card's source names. -/
def cardPoint (src : Src387) (who frank : Nat) (eff : Eff) (s : State) : Option Eff :=
  atPoint (bufOf s src) (srcNum src) who frank none eff s

end Sys2Proof.Machine
end

