-- ==== Sys2Proof/Machine/Mem.lean ====
section
/-! DEFINITION. The memory behind translation: homes, L1 copies, leases, the directory, privatised copies and
replicas (10: R255 to R261, R276, R277; 12: R295, R307 to R311; 13: R318). -/

namespace Sys2Proof.Machine

/-- Line of an address. -/
def lineOf (a : Nat) : Nat := a / 128

/-- The cluster whose unit is the home of a line, none for the host and for peers (R255, R257). R257 gives no function that
spreads the LPDDR-5X and CXL blocks over the clusters: the model's, block number mod 6, is a choice, and decides which
copies hold leases and which the directory tracks (log entry 40). -/
def homeCluster (a : Nat) : Option Nat :=
  if a < 0x10000000000 then some (clusterOf (a / 0x2000000 % 768))
  else if a < 0x800000000000 then some (a / 4096 % 6)
  else none

/-- The port of a CXL address. -/
def cxlPort (a : Nat) : Nat := (a - 0x100000000000) / 0x18000000000

/-- An address of the CXL ranges. -/
def isCxl (a : Nat) : Bool := decide (0x100000000000 ≤ a) && decide (a < 0x100000000000 + 8 * 0x18000000000)

/-- An address of one of the ranges that every package has (R255). -/
def physRange (a : Nat) : Bool :=
  if a < 0x10000000000 then decide (a / 0x2000000 < 768) && decide (a % 0x2000000 < 0x1800000)
  else decide (a < 0x28000000000) || isCxl a || (decide (0x800000000000 ≤ a) && decide (a < 2 ^ 48))

/-- The part's memory holds an address (R255, R442). CXLP counts the trained CXL ports and does not say which they are: the
lowest-numbered ones, by choice (log entry 21). -/
def physExists (s : State) (a : Nat) : Bool :=
  physRange a &&
  (!isCxl a ||
   (decide (cxlPort a < fld s.idn.cap 41 38) &&
    decide ((a - 0x100000000000) % 0x18000000000 < min 0x18000000000 (Config.cxlCapacity (cxlPort a)))))

/-- Byte of a peer package's memory. -/
def peerAddr (pkg a : Nat) : Nat := (pkg + 1) * 2 ^ 48 + a

/-- The pod number of this package (R440). -/
def ownPkg (s : State) : Nat := s.idn.podid.toNat % 512

/-- An address of a package, this one or a peer. -/
def pkgAddr (s : State) (pkg a : Nat) : Nat := if pkg = ownPkg s then a else peerAddr pkg a

/-- The aligned word of memory at an address. -/
def memWord (m : List Host.Cell) (a : Nat) : Word := BitVec.ofNat 32 (ofBytes (readBytes m a 4))

/-- Memory written. A fetch of an aligned word whose value changes may still return the one it replaces, until an icinv
covers the word (R431). -/
def writeMem (cs : List Host.Cell) : Eff := fun s =>
  let ws := (cs.map (fun c => c.1 / 4 * 4)).eraseDups.filter (fun a => memWord (writeCells s.mem cs) a != memWord s.mem a)
  .mem cs ::
    (if ws.isEmpty then []
     else [.coh { s.coh with
       stale := ws.foldl (fun m a => mput m a ((mget [] m a).filter (· != memWord s.mem a) ++ [memWord s.mem a])) s.coh.stale }])

/-! ## Privatised copies (R309, R310) -/

/-- The bytes a merge takes from the privatised copies of a line. -/
def privCells (line : Nat) (d : Dir) : List Host.Cell :=
  d.priv.flatMap (fun p => p.mask.map (fun o => (line * 128 + o, mget 0 p.data o)))

/-- A directory message: SEQ rises (R308). -/
def dirSend (d : Dir) : Dir := { d with seq := (d.seq + 1) % 65536 }

/-- Invalidations sent to some holders of a line at a cycle: SEQ rises with each, and they count towards contention (R308, R309). -/
def dirInval (cyc : Nat) (hs : List Nat) (d : Dir) : Dir :=
  hs.foldl (fun d h => dirSend { d with holders := d.holders.filter (· != h), recent := d.recent ++ [cyc] }) d

/-- The directory without the holders of some lines, each of them invalidated. -/
def clearHolders (cyc : Nat) (ls : List Nat) (m : Map Dir) : Map Dir :=
  m.map (fun e => if ls.contains e.1 then (e.1, dirInval cyc e.2.holders e.2) else e)

/-- The acknowledgements of the invalidations that some fills hold. -/
def heldAcks (fs : List Fill) : List (Nat × Nat) := fs.filterMap (fun f => f.held.map (fun h => (h.2, f.core)))

/-- Every L1 copy of the lines is invalidated, and a fill on its way is not installed: the invalidations and their
acknowledgements within one move (log entry 36). Leases run on at the home. -/
def invalLines (ls : List Nat) : Eff := fun s =>
  Eff.seq
    (fun s => s.cores.flatMap (fun e =>
      if ls.any (fun l => (mfind e.2.l1 l).isSome)
      then [.core e.1 { e.2 with l1 := e.2.l1.filter (fun x => !ls.contains x.1) }] else []))
    (fun s => [.coh { s.coh with
      fills := s.coh.fills.filter (fun x => !ls.contains x.line),
      acks := s.coh.acks ++ heldAcks (s.coh.fills.filter (fun x => ls.contains x.line)),
      dirs := clearHolders s.clk.cyc ls s.coh.dirs }]) s

/-- Every L1 copy of the lines is gone: with it its lease and the directory's record. -/
def dropLines (ls : List Nat) : Eff :=
  Eff.seq (invalLines ls) (fun s => [.coh { s.coh with leases := s.coh.leases.filter (fun x => !ls.contains x.line) }])

/-- The memory unit of a line's home: 5 vault, 6 LPDDR-5X, 7 CXL (R377). -/
def memUnit (line : Nat) : Nat :=
  if line * 128 < 0x10000000000 then 5 else if line * 128 < 0x100000000000 then 6 else 7

/-- A line's home takes the mark of a poisoned copy that comes to it (R376). -/
def markHome (line : Nat) (bad : Bool) : Eff := fun s =>
  if bad && (mfind s.coh.poison line).isNone then [.coh { s.coh with poison := mput s.coh.poison line (memUnit line) }] else []

/-- A merge: recalls the copies, each a write-back of its line, composes the line, ends privatisation for 65,536 cycles.
Cached copies of the line, which the composed bytes replace, are dropped. -/
def mergeLine (line : Nat) : Eff := fun s =>
  let d := getDir s line
  if d.priv.isEmpty then []
  else
    Eff.seq
      (Eff.seq (writeMem (privCells line d))
        (fun s => [.coh { s.coh with dirs := mput s.coh.dirs line { d with priv := [], until_ := s.clk.cyc + 65536 } }]))
      (Eff.all [markHome line (d.priv.any (·.poison)), dropLines [line],
        Eff.forEach d.priv (fun p => countAt p.frank (line * 128) 128)]) s

/-- Some privatised copy of another core holds a byte. -/
def privForeign (s : State) (core a : Nat) : Bool :=
  (getDir s (lineOf a)).priv.any (fun p => p.core != core && p.mask.contains (a % 128))

/-- The core's own privatised copy of a line. -/
def privOwn (s : State) (core line : Nat) : Option PrivCopy :=
  (getDir s line).priv.find? (fun p => p.core == core)

/-- Lines of a run of addresses. -/
def linesOf (a n : Nat) : List Nat :=
  (List.range (lineOf (a + n - 1) + 1 - lineOf a)).map (· + lineOf a)

/-- The newest write of a core that waits at a home for a byte. -/
def homeqByte (s : State) (core a : Nat) : Option Byte :=
  (s.coh.homeq.filter (fun w => w.core == core)).foldl (fun r w =>
    match w.bytes.reverse.find? (fun c => c.1 == a) with
    | some c => some c.2
    | none => r) none

/-- Bytes of a line that a core's access meets enter its mask, where it holds a privatised copy and no mask holds them
(R309). -/
def extendMask (core line : Nat) (as : List Nat) : Eff := fun s =>
  let d := getDir s line
  match d.priv.find? (fun p => p.core == core) with
  | none => []
  | some p =>
    let new := (as.filter (fun a => lineOf a == line && d.priv.all (fun q => !q.mask.contains (a % 128)))).eraseDups
    if new.isEmpty then []
    else
      let p' : PrivCopy :=
        { p with
          mask := p.mask ++ new.map (· % 128)
          data := new.foldl (fun m a => mput m (a % 128) ((homeqByte s core a).getD (readByte s.mem a))) p.data }
      [.coh { s.coh with dirs := mput s.coh.dirs line { d with priv := d.priv.map (fun q => if q.core == core then p' else q) } }]

/-- What the lines of an access do (R309): one that meets another core's bytes is merged; in the core's own privatised
copy its bytes enter the mask. -/
def mergeFor (core a n : Nat) : Eff := fun s =>
  let as := (List.range n).map (a + ·)
  Eff.forEach (linesOf a n) (fun l => fun s =>
    if as.any (fun x => lineOf x == l && privForeign s core x) then mergeLine l s else extendMask core l as s) s

/-! ## Reading -/

/-- The newest write of any core that waits at a home for a byte: the last in its coherence order. -/
def lastByte (s : State) (a : Nat) : Byte :=
  s.coh.homeq.foldl (fun r w =>
    match w.bytes.reverse.find? (fun c => c.1 == a) with
    | some c => c.2
    | none => r) (readByte s.mem a)

/-- An L1 copy serves a plain load: its lease has not ended, or it is tracked, or NC (R259, R260). A lease runs in the
cycles before LEXP, since a copy with LEXP = fill CYC has already ended. -/
def lineFresh (s : State) (l : Line) : Bool := l.nc || l.tracked || decide (s.clk.cyc < l.lexp)

/-- The core's own privatised value of a byte. -/
def privByte (s : State) (core a : Nat) : Option Byte :=
  match privOwn s core (lineOf a) with
  | some p => if p.mask.contains (a % 128) then some (mget 0 p.data (a % 128)) else none
  | none => none

/-- The value of a byte that a core's own writes give it before any copy: privatised, or still waiting at the home. -/
def ownByte (s : State) (core a : Nat) : Option Byte := (privByte s core a).or (homeqByte s core a)

/-- A byte as an agent of a core reads it: its own newest, else a copy that serves plain loads, else the home's. `useL1` is
false for a read at home. -/
def coreByte (s : State) (core a : Nat) (useL1 : Bool) : Byte :=
  match ownByte s core a with
  | some b => b
  | none =>
    match (if useL1 then mfind (getCore s core).l1 (lineOf a) else none) with
    | some l => if lineFresh s l then l.data.getD (a % 128) 0 else readByte s.mem a
    | none => readByte s.mem a

/-- The core holds a copy of a line that serves plain loads. -/
def l1Hit (s : State) (core line : Nat) : Bool :=
  match mfind (getCore s core).l1 line with
  | some l => lineFresh s l
  | none => false

/-- A read past a copy whose lease has ended gives the copy up, so that no bounded load serves an older value
afterwards (R322). -/
def dropStale (core line : Nat) : Eff := fun s =>
  match mfind (getCore s core).l1 line with
  | some l =>
    if lineFresh s l then []
    else [.core core { getCore s core with l1 := mdel (getCore s core).l1 line }]
  | none => []

/-- An atomic reads at home: a copy that is not kept coherent with it, or no longer serves plain loads, is given up, so that
the core reads no older value afterwards (R296). -/
def dropOld (core line : Nat) : Eff := fun s =>
  match mfind (getCore s core).l1 line with
  | some l => if l.nc || !lineFresh s l then [.core core { getCore s core with l1 := mdel (getCore s core).l1 line }] else []
  | none => []

/-! ## Fills (R258, R259, R308, R311, R318) -/

/-- A line at its home. -/
def homeLine (s : State) (line : Nat) : List Byte := readBytes s.mem (line * 128) 128

/-- A line as a fill for a core installs it: the home's bytes, over them what the core's own waiting writes hold
(R307: they were placed in its copy at the core-scope point). -/
def fillLine (s : State) (core line : Nat) : List Byte :=
  (List.range 128).map (fun i => (homeqByte s core (line * 128 + i)).getD (readByte s.mem (line * 128 + i)))

/-- A write with its bytes waits at the home of a line. -/
def homeWaits (s : State) (line : Nat) : Bool := s.coh.homeq.any (fun w => w.line == line)

/-- A store waits at the home of a line, one whose bytes come when it performs included. -/
def storeWaits (s : State) (line : Nat) : Bool := homeWaits s line || s.coh.claims.any (fun c => c.line == line)

/-- A line is homed in the core's own cluster: its copies hold leases (R258). -/
def leased (core line : Nat) : Bool := homeCluster (line * 128) == some (clusterOf core)

/-- Invalidations of a line sent to some of its holders at a cycle for a write that waits at its home. -/
def invalidate (line cyc wid : Nat) (hs : List Nat) (c : Coh) : Coh :=
  if hs.isEmpty then c
  else
    let d := mget {} c.dirs line
    let invs := hs.zipIdx.map (fun e => ({ core := e.1, line := line, seq := (d.seq + 1 + e.2) % 65536, wid := wid } : Inval))
    { c with dirs := mput c.dirs line (dirInval cyc hs d), invals := c.invals ++ invs }

/-- The directory grants a tracked copy (R308, R311): SEQ rises with the fill, and once more with an invalidation for each
write of another core that waits at the home, which must be acknowledged too before that write performs. The SEQ of
the fill, and the coherence state after it. -/
def grantTracked (core line : Nat) (c : Coh) (cyc : Nat) : Nat × Coh :=
  let d := dirSend (mget {} c.dirs line)
  let ws := (c.homeq.filter (fun w => w.line == line && w.core != core)).map (·.id) ++
    (c.claims.filter (fun x => x.line == line)).map (·.id)
  let invs := ws.zipIdx.map (fun e => ({ core := core, line := line, seq := (d.seq + 1 + e.2) % 65536, wid := e.1 } : Inval))
  let holders := d.holders.filter (· != core) ++ (if ws.isEmpty then [core] else [])
  let d' := { d with seq := (d.seq + ws.length) % 65536, holders := holders, recent := d.recent ++ ws.map (fun _ => cyc) }
  (d.seq,
   { c with
     dirs := mput c.dirs line d'
     invals := c.invals ++ invs
     homeq := c.homeq.map (fun w => if w.line == line && w.core != core then { w with acks := w.acks ++ [core] } else w)
     claims := c.claims.map (fun x => if x.line == line then { x with acks := x.acks ++ [core] } else x) })

/-- Tags of two fills of one line: the higher for each region (R318). -/
def joinTags (old new : Map Nat) : Map Nat :=
  new.foldl (fun m e => match mfind m e.1 with
    | some n => mput m e.1 (max n e.2)
    | none => mput m e.1 e.2) old

/-- A fill requested by a core's miss. The lease has the length asked for, or has already ended where a store
waits at the home (R259); a line of another cluster is tracked instead. A second miss of a line whose fill is on its way
adds its tags (R318). -/
def requestFill (core line span : Nat) (nc : Bool) (tags : Map Nat) (frank : Nat) : Eff := fun s =>
  let pending (f : Fill) : Bool := f.core == core && f.line == line
  if s.coh.fills.any pending then
    if tags.isEmpty then []
    else
      [.coh { s.coh with fills := s.coh.fills.map (fun f =>
        if pending f then { f with copy := { f.copy with tags := joinTags f.copy.tags tags } } else f) }]
  else if (privOwn s core line).isSome then []
  else
    let own := leased core line && !nc
    let track := !own && !nc
    let lexp := if storeWaits s line then s.clk.cyc else s.clk.cyc + span
    let g := if track then grantTracked core line s.coh s.clk.cyc else (0, s.coh)
    let copy : Line :=
      { data := homeLine s line, lexp := (if own then lexp else 0), tracked := track, nc := nc, tags := tags, seq := g.1 }
    let fill : Fill := { core := core, line := line, copy := copy, seq := g.1, held := none }
    Eff.seq
      (fun _ => [.coh { g.2 with
        fills := g.2.fills ++ [fill],
        leases := (if own then g.2.leases ++ [{ core := core, line := line, lexp := lexp }] else g.2.leases) }])
      (countRead frank (line * 128) 128) s

/-! ## Writing -/

/-- Some bytes are the whole of a line. -/
def wholeLine (line : Nat) (cs : List Host.Cell) : Bool := (List.range 128).all (fun i => cs.any (fun c => c.1 == line * 128 + i))

/-- A line with bytes replaced; all 128 clear its mark (R376). -/
def patchLine (l : Line) (line : Nat) (cs : List Host.Cell) : Line :=
  { l with data := cs.foldl (fun d c => if lineOf c.1 == line then d.set (c.1 % 128) c.2 else d) l.data
           poison := l.poison && !wholeLine line cs }

/-- The writer's own L1 copies take the bytes (R295, R318: tags are kept). -/
def patchL1 (core : Nat) (cs : List Host.Cell) : Eff := fun s =>
  let c := getCore s core
  let ls := (cs.map (fun e => lineOf e.1)).eraseDups
  if ls.all (fun l => (mfind c.l1 l).isNone) then []
  else
    let l1 := ls.foldl (fun m l =>
      match mfind m l with
      | some x => mput m l (patchLine x l cs)
      | none => m) c.l1
    [.core core { c with l1 := l1 }]

/-- Watches of STALL regions on the lines fire: the home pushes at its next performed write (R321). -/
def fireWatches (ls : List Nat) : Eff := fun s =>
  if s.coh.watches.any (fun w => ls.contains w.line && !w.fired) then
    [.coh { s.coh with watches := s.coh.watches.map (fun w =>
      if ls.contains w.line then { w with fired := true } else w) }]
  else []

/-- A write of all 128 bytes of a poisoned line clears its mark (R376). -/
def clearPoison (cs : List Host.Cell) : Eff := fun s =>
  if s.coh.poison.any (fun e => wholeLine e.1 cs) then
    [.coh { s.coh with poison := s.coh.poison.filter (fun e => !wholeLine e.1 cs) }]
  else []

/-- Bytes written at their homes, now performed at package scope. -/
def performCells (cs : List Host.Cell) : Eff :=
  Eff.all [writeMem cs, clearPoison cs, fireWatches ((cs.map (fun c => lineOf c.1)).eraseDups)]

/-- Leases on a line that have not ended, the writer's own included (R259, R307). -/
def liveLeases (s : State) (line : Nat) : List Lease :=
  s.coh.leases.filter (fun x => x.line == line && decide (s.clk.cyc < x.lexp))

/-- A line lies in the old frame of a migration. -/
def migLine (m : Migration) (l : Nat) : Bool := decide (lineOf m.old ≤ l) && decide (l < lineOf (m.old + 2 ^ m.log2))

/-- The home of a line is blocked by a migration (R289): accesses that arrive there wait for its end. -/
def lineBlocked (s : State) (l : Nat) : Bool := s.coh.migs.any (fun m => migLine m l)

/-- No lease runs on a line and no core holds it tracked or privatised. -/
def lineQuiet (s : State) (line : Nat) : Bool :=
  (liveLeases s line).isEmpty && (getDir s line).holders.isEmpty && (getDir s line).priv.isEmpty

/-- A writer's claim on a line. -/
def claimOf (s : State) (k : Writer) (line : Nat) : Option Claim := s.coh.claims.find? (fun c => c.who == k && c.line == line)

/-- A writer's write may be performed at a line's home (R307, R308): the leases granted before it arrived have ended, no core holds
the line, the invalidations that it sent are acknowledged, and no write that arrived before it waits. -/
def lineReady (s : State) (k : Writer) (line : Nat) : Bool :=
  lineQuiet s line && !lineBlocked s line &&
  match claimOf s k line with
  | some c => c.acks.isEmpty && s.coh.homeq.all (fun w => w.line != line || decide (c.id < w.id))
  | none => !homeWaits s line

/-- The lines at whose homes a writer's write has still to arrive: there it cannot be performed at once. -/
def toClaim (s : State) (k : Writer) (ls : List Nat) : List Nat :=
  ls.eraseDups.filter (fun l => !lineReady s k l && (claimOf s k l).isNone)

/-- A writer's write arrives at a line's home and waits there: privatised bytes merge, the holders are invalidated. -/
def claimLine (k : Writer) (line : Nat) : Eff :=
  Eff.seq (mergeLine line) (fun s =>
    let hs := (getDir s line).holders
    let c := invalidate line s.clk.cyc s.nextId hs s.coh
    [.coh { c with claims := c.claims ++ [{ id := s.nextId, who := k, line := line, acks := hs }] }, .nextId (s.nextId + 1)])

/-- A writer's write arrives at the homes where it must wait. -/
def claimLines (k : Writer) (ls : List Nat) : Eff := fun s => Eff.forEach (toClaim s k ls) (claimLine k) s

/-- A writer's claims on some lines are served. -/
def unclaim (k : Writer) (ls : List Nat) : Eff := fun s =>
  if s.coh.claims.any (fun c => c.who == k && ls.contains c.line) then
    [.coh { s.coh with claims := s.coh.claims.filter (fun c => !(c.who == k && ls.contains c.line)) }]
  else []

/-- The NC copies of some lines at cores other than the writer's are gone: a write of the package is performed for every core
of it when it is written through (R295, R260). -/
def dropNc (core : Nat) (ls : List Nat) : Eff := fun s =>
  s.cores.flatMap (fun e =>
    if e.1 != core && ls.any (fun l => ((mfind e.2.l1 l).map (·.nc)) == some true)
    then [.core e.1 { e.2 with l1 := e.2.l1.filter (fun x => !(ls.contains x.1 && x.2.nc)) }] else [])

/-- Other holders the directory records for a line. -/
def foreignHolders (s : State) (core line : Nat) : List Nat :=
  (getDir s line).holders.filter (· != core)

/-- A line is contended (R309). -/
def contended (s : State) (d : Dir) : Bool :=
  decide (4 ≤ (d.recent.filter (fun t => decide (s.clk.cyc ≤ t + 4096))).length) && decide (d.until_ ≤ s.clk.cyc)

/-- The bytes of a write into the core's privatised copy: performed at once at every scope up to package
(R310). -/
def privWrite (core frank line : Nat) (cs : List Host.Cell) : Eff := fun s =>
  let d := getDir s line
  let old := (d.priv.find? (fun p => p.core == core)).getD { core := core, mask := [], data := [] }
  let new : PrivCopy :=
    { old with
      frank := frank
      mask := (old.mask ++ cs.map (fun (c : Host.Cell) => c.1 % 128)).eraseDups
      data := cs.foldl (fun m (c : Host.Cell) => mput m (c.1 % 128) c.2) old.data }
  let new := { new with poison := old.poison && !wholeLine line cs }
  let d := { d with priv := d.priv.filter (fun p => p.core != core) ++ [new] }
  Eff.seq (fun s => [.coh { s.coh with dirs := mput s.coh.dirs line d }]) (clearPoison cs) s

/-- The numbers that stand among the writers at a home for an agent outside the package, and for an engine or unit of it, which is
none of the cores. -/
def outsideCore : Nat := 1024
def unitCore : Nat := 1025

/-- A write at its home (R295, R307, R308): performed at once when no other core holds the line, else it waits for
leases and acknowledgements. It counts `cost` bytes. -/
def queueWrite (core uid frank cost : Nat) (line : Nat) (cs : List Host.Cell) : Eff := fun s =>
  let leases := liveLeases s line
  let holders := foreignHolders s core line
  if leases.isEmpty && holders.isEmpty && !homeWaits s line && (core == outsideCore || !lineBlocked s line) then
    Eff.all [performCells cs, Eff.when (core != outsideCore) (dropNc core [line]), countAt frank (line * 128) cost] s
  else
    let wid := s.nextId
    let w : HomeW :=
      { id := wid, core := core, uid := uid, line := line, bytes := cs, acks := holders, frank := frank
        until_ := leases.foldl (fun m x => max m x.lexp) 0, cost := cost }
    let c := invalidate line s.clk.cyc wid holders s.coh
    [.coh { c with homeq := c.homeq ++ [w] }, .nextId (s.nextId + 1)]

/-- The part of a write that falls on one line reaches its home (R295, R307 to R310): into a privatised copy when
the line is contended, no write waits there that comes before it in coherence order, and no other core's bytes are met. `unc`:
uncached, an atomic's, which counts its bytes where another's counts its line's write-back (R411). -/
def homeWrite (core uid frank : Nat) (unc : Bool) (line : Nat) (cs : List Host.Cell) : Eff := fun s =>
  let cost := if unc then cs.length else 128
  let d := getDir s line
  let clash := cs.any (fun c => privForeign s core c.1)
  if !d.priv.isEmpty && !clash then privWrite core frank line cs s
  else if clash then Eff.seq (mergeLine line) (queueWrite core uid frank cost line cs) s
  else if contended s d && !storeWaits s line && !lineBlocked s line then privWrite core frank line cs s
  else queueWrite core uid frank cost line cs s

/-- A write from outside the package (R436, R288): privatised copies merge first. The host's own accesses to its memory do not
cross its link. -/
def outsideWrite (frank line : Nat) (cs : List Host.Cell) : Eff :=
  Eff.seq (mergeLine line) (queueWrite outsideCore 0 frank (if line * 128 < 2 ^ 47 then cs.length else 0) line cs)

/-- A write through a page mapped NC at its home: at once, unless another mapping of the line has given leases or tracked copies
or has writes there, which it then waits for (R259, R260). -/
def ncWrite (core uid frank : Nat) (line : Nat) (cs : List Host.Cell) : Eff :=
  Eff.seq (mergeLine line) (fun s =>
    if (liveLeases s line).isEmpty && (foreignHolders s core line).isEmpty && !homeWaits s line && !lineBlocked s line then
      Eff.all [performCells cs, dropNc core [line], countAt frank (line * 128) cs.length] s
    else queueWrite core uid frank cs.length line cs s)

/-- The lines of some cells, in their order. -/
def cellLines (cs : List Host.Cell) : List Nat := (cs.map (fun c => lineOf c.1)).eraseDups

/-- A write that leaves its store queue: the core's copies take it, then each line goes to its home. -/
def storeCells (core uid frank : Nat) (nc unc : Bool) (cs : List Host.Cell) : Eff :=
  Eff.seq (patchL1 core cs)
    (Eff.forEach (cellLines cs) (fun l =>
      let own := cs.filter (fun c => lineOf c.1 == l)
      if nc then ncWrite core uid frank l own else homeWrite core uid frank unc l own))

/-- A write that has arrived at a home since a migration blocked it: it performs at the new home (R289). Those from outside the
package still reach the old frame. -/
def stoodBack (s : State) (w : HomeW) : Bool :=
  w.core != outsideCore && s.coh.migs.any (fun m => migLine m w.line && decide (m.after ≤ w.id))

/-- A write waiting at a home may perform: its leases have ended, every holder has acknowledged, and no
earlier write to the line waits. -/
def homeReady (s : State) (w : HomeW) : Bool :=
  decide (w.until_ ≤ s.clk.cyc) && w.acks.isEmpty && !stoodBack s w &&
  match s.coh.homeq.find? (fun x => x.line == w.line) with
  | some x => x.id == w.id
  | none => false

/-- A waiting write performs at its home. -/
def homePerform (w : HomeW) : Eff := fun s =>
  Eff.all
    [fun s => [.coh { s.coh with
       homeq := s.coh.homeq.filter (fun x => x.id != w.id)
       leases := s.coh.leases.filter (fun x => !(x.line == w.line && decide (x.lexp ≤ s.clk.cyc))) }],
     performCells w.bytes,
     Eff.when (w.core != outsideCore) (dropNc w.core [w.line]),
     countAt w.frank (w.line * 128) w.cost] s

/-- A writer's write performed at homes that are ready for it (R295, R307, R308; log entry 27). -/
def writeThrough (k : Writer) (cs : List Host.Cell) : Eff :=
  Eff.all [unclaim k (cellLines cs), performCells cs, dropNc unitCore (cellLines cs)]

/-- A write that performs without waiting: the copies of its lines are given up, and what waits at their homes performs before it. -/
def forceWrite (cs : List Host.Cell) : Eff :=
  Eff.all
    [Eff.forEach (cellLines cs) mergeLine, dropLines (cellLines cs),
     fun s => Eff.forEach (s.coh.homeq.filter (fun w => (cellLines cs).contains w.line)) homePerform s,
     performCells cs, dropNc unitCore (cellLines cs)]

/-! ## Replicated pages (R276, R277) -/

/-- Bytes of a replica as its root has ordered them: the writes not yet applied there included. -/
def replByte (s : State) (a : Nat) : Byte :=
  s.coh.reps.foldl (fun r u =>
    match u.2.reverse.find? (fun c => c.1 == a) with
    | some c => c.2
    | none => r) (readByte s.mem a)

/-- The replica a load takes: this package's, else the fewest hops, else the lowest package (R276). -/
def nearest (s : State) (reps : List (Nat × Nat)) : Nat × Nat :=
  match reps.find? (fun r => r.1 == ownPkg s) with
  | some r => r
  | none =>
    reps.foldl (fun (b : Nat × Nat) r =>
      let hb := Config.switchHops (ownPkg s) b.1
      let hr := Config.switchHops (ownPkg s) r.1
      if hr < hb || (hr == hb && r.1 < b.1) then r else b) (reps.getD 0 (0, 0))

/-- The lines that a replicated write meets at the replica that this package's loads take. -/
def replLines (s : State) (reps : List (Nat × Nat)) (off n : Nat) : List Nat :=
  linesOf (pkgAddr s (nearest s reps).1 ((nearest s reps).2 + off)) n

/-- That replica has applied what the root has ordered for it so far. -/
def replNow (s : State) (reps : List (Nat × Nat)) : Bool := s.coh.reps.all (fun u => u.1 != (nearest s reps).1)

/-- The root orders a write for some replicas of a page (R277): each applies it in the root's order. -/
def replOrder (rs : List (Nat × Nat)) (off : Nat) (bs : List Byte) : Eff := fun s =>
  if rs.isEmpty then []
  else [.coh { s.coh with reps := s.coh.reps ++ rs.map (fun x => (x.1, cellsAt (pkgAddr s x.1 (x.2 + off)) bs)) }]

/-- A write of the package that the root has ordered (R277): where its homes are ready it is applied at once to the replica that
this package's loads take, so that the issuer's later accesses see it (R305), and ordered for the others; otherwise ordered for
all. -/
def replWrite (k : Writer) (reps : List (Nat × Nat)) (off : Nat) (bs : List Byte) : Eff := fun s =>
  let r := nearest s reps
  if replNow s reps && (replLines s reps off bs.length).all (lineReady s k) then
    Eff.seq (writeThrough k (cellsAt (pkgAddr s r.1 (r.2 + off)) bs)) (replOrder (reps.filter (· != r)) off bs) s
  else replOrder reps off bs s

/-- The root's value of bytes: of the replica that this package's loads take, with what it still has to apply. -/
def replValue (s : State) (reps : List (Nat × Nat)) (off n : Nat) : List Byte :=
  let r := nearest s reps
  (List.range n).map (fun i => replByte s (pkgAddr s r.1 (r.2 + off + i)))

/-! ## Package units (R351, R439) -/

/-- Bytes that a package unit writes reach their homes: they perform there in coherence order, once leases have ended. -/
def unitCells (frank : Nat) (cs : List Host.Cell) : Eff :=
  Eff.forEach (cellLines cs) (fun l =>
    let own := cs.filter (fun c => lineOf c.1 == l)
    Eff.seq (mergeLine l) (queueWrite unitCore 0 frank own.length l own))

/-- A host-scope atomic add of 1 at the event word of a kind, when HEVT names one: the value is the newest in the word's
coherence order. -/
def hostEvent (kind : Nat) : Eff := fun s =>
  if s.idn.hevt == 0 then []
  else
    let a := bits s.idn.hevt.toNat 47 6 * 64 + 8 * kind
    Eff.seq (mergeLine (lineOf a))
      (fun s =>
        let v := ofBytes ((List.range 8).map (fun i => lastByte s (a + i)))
        unitCells 0 (cellsAt a (toBytes 8 ((v + 1) % 2 ^ 64))) s) s

end Sys2Proof.Machine
end

