-- ==== Sys2Proof/Machine/Walk.lean ====
section
/-! DEFINITION. Generic addresses (10: R250 to R254), page tables (11: R278 to R281, R284), the TLBs and the
fault merge tables (R282, R283, R285, R286, R288). -/

namespace Sys2Proof.Machine

/-! ## Generic addresses -/

/-- What a generic address names (R250). -/
inductive Gen
  | global (va : Nat)
  | priv (off : Nat)
  /-- A scratchpad byte: `foreign` when a scratchpad-local address names another core (R253). -/
  | spad (core off : Nat) (foreign : Bool)
  | bad
  deriving DecidableEq, Repr

/-- Decode of a generic address by an agent of a core (R250, R253). -/
def genOf (core : Nat) (ea : DWord) : Gen :=
  let tag := fld ea 63 56
  if tag = 0 then .global (fld ea 55 0)
  else if tag = 0xF8 then (if fld ea 55 32 = 0 then .priv (fld ea 31 0) else .bad)
  else if tag = 0xF9 then
    if fld ea 55 27 = 0 then
      .spad (coreOfLocal (clusterOf core) (fld ea 26 20)) (fld ea 19 0) (fld ea 26 20 != localOf core)
    else .bad
  else if tag = 0xFA then
    if fld ea 55 27 = 0 then .spad (coreOfLocal (clusterOf core) (fld ea 26 20)) (fld ea 19 0) false else .bad
  else .bad

/-- The global virtual address of a piece of private memory (R252). -/
def privVa (pbase : DWord) (o lane : Nat) : Nat :=
  (pbase.toNat + o / 4 * 128 + 4 * lane + o % 4) % 2 ^ 56

/-- The space code of spt (R254). -/
def spaceCode (core : Nat) (a : DWord) : Nat :=
  match genOf core a with
  | .global _ => 0
  | .priv _ => 1
  | .spad _ _ f => if fld a 63 56 = 0xFA then 4 else if f then 3 else 2
  | .bad => 15

/-! ## Page tables -/

/-- A byte of physical memory as a coherent agent outside the cores reads it: of a privatised copy when one
holds it (R310). -/
def cohByte (s : State) (a : Nat) : Byte :=
  match (getDir s (lineOf a)).priv.find? (fun p => p.mask.contains (a % 128)) with
  | some p => mget 0 p.data (a % 128)
  | none => readByte s.mem a

/-- A little-endian value of n bytes of physical memory, read coherently. -/
def cohVal (s : State) (a n : Nat) : Nat := ofBytes ((List.range n).map (fun i => cohByte s (a + i)))

/-- A dword of physical memory, read coherently. -/
def cohDword (s : State) (a : Nat) : DWord := BitVec.ofNat 64 (cohVal s a 8)

/-- How a walk ends. -/
inductive WalkRes
  | unmapped
  | leaf (e : TlbE) (at_ : Nat)
  deriving DecidableEq, Repr

/-- log2 of the page size of a leaf at a level; 0 where a leaf is never legal (R279). -/
def leafLog (level : Nat) : Nat :=
  match level with
  | 0 => 16
  | 1 => 21
  | 2 => 30
  | _ => 0

/-- The index of a virtual address in a level's table (R279). -/
def levelIndex (level va : Nat) : Nat :=
  match level with
  | 4 => bits va 55 48
  | 3 => bits va 47 39
  | 2 => bits va 38 30
  | 1 => bits va 29 21
  | _ => bits va 20 16

/-- Frame of a leaf or of a replica dword (R280, R284). -/
def frameOf (p : DWord) : Nat := fld p 47 16 * 2 ^ 16

/-- A page lies in a tier that may hold it (R255): in memory of this package, or in a range of a peer's, whose trained ports
this package does not know. -/
def frameOk (s : State) (pkg frame log2 : Nat) : Bool :=
  let here (a : Nat) : Bool := if pkg = ownPkg s then physExists s a else physRange a
  here frame && here (frame + 2 ^ log2 - 1) &&
  (frame / 2 ^ log2 * 2 ^ log2 == frame) && !(log2 == 30 && decide (frame < 0x10000000000))

/-- The replicas of a descriptor of a page (R284), none when it makes the page unmapped: also where a replica's frame lies in
no tier (R255). -/
def replicasOf (s : State) (desc log2 : Nat) : Option (Nat × List (Nat × Nat)) :=
  let d0 := cohDword s desc
  let root := fld d0 5 0
  let n := fld d0 10 8
  let reps := (List.range n).map (fun i =>
    let d := cohDword s (desc + 8 * (i + 1))
    (fld d 56 48, frameOf d))
  if n = 0 || root > 35 || (reps.map (·.1)).eraseDups.length != n || !reps.all (fun r => frameOk s r.1 r.2 log2) then none
  else some (root, reps)

/-- A leaf entry found at a level (R281). -/
def leafOf (s : State) (asid va level at_ : Nat) (p : DWord) : WalkRes :=
  let log2 := leafLog level
  let repl := fld p 11 11 == 1
  let remote := fld p 10 10 == 1
  let nc := fld p 9 9 == 1
  let entry (root : Nat) (reps : List (Nat × Nat)) : WalkRes :=
    .leaf { asid := asid, base := va / 2 ^ log2, log2 := log2, pte := p, root := root, reps := reps, count := 0 } at_
  if fld p 2 2 != 0 || fld p 63 57 != 0 then .unmapped
  else if fld p 56 48 != 0 && !remote then .unmapped
  else if fld p 56 48 > 287 then .unmapped
  else if repl then
    if nc || remote || log2 = 30 then .unmapped
    else
      let desc := fld p 47 12 * 4096
      if !physExists s desc then .unmapped
      else
        match replicasOf s desc log2 with
        | some (root, reps) => entry root reps
        | none => .unmapped
  else if fld p 15 12 != 0 || !frameOk s (if remote then fld p 56 48 else ownPkg s) (frameOf p) log2 then .unmapped
  else entry 0 []

/-- A walk from a table of a level down (R279, R281). -/
def walkFrom (s : State) (asid va table : Nat) : Nat → WalkRes
  | 0 =>
    let at_ := table + 8 * levelIndex 0 va
    let p := cohDword s at_
    if fld p 0 0 = 0 || fld p 1 1 = 0 then .unmapped else leafOf s asid va 0 at_ p
  | level + 1 =>
    let at_ := table + 8 * levelIndex (level + 1) va
    let p := cohDword s at_
    if fld p 0 0 = 0 then .unmapped
    else if fld p 1 1 = 1 then (if level + 1 ≥ 3 then .unmapped else leafOf s asid va (level + 1) at_ p)
    else if fld p 63 48 != 0 || fld p 11 1 != 0 then .unmapped
    else walkFrom s asid va (fld p 47 12 * 4096) level

/-- The entries that a walk from a table of a level down reads, with the descriptor of a replicated page (R279, R284). -/
def walkAddrs (s : State) (va table : Nat) : Nat → List (Nat × Nat)
  | 0 =>
    let at_ := table + 8 * levelIndex 0 va
    (at_, 8) :: descAddrs s (cohDword s at_)
  | level + 1 =>
    let at_ := table + 8 * levelIndex (level + 1) va
    let p := cohDword s at_
    (at_, 8) ::
      (if fld p 0 0 = 0 then [] else if fld p 1 1 = 1 then descAddrs s p else walkAddrs s va (fld p 47 12 * 4096) level)
where
  /-- The dwords of a leaf's descriptor. -/
  descAddrs (s : State) (p : DWord) : List (Nat × Nat) :=
    if fld p 0 0 = 1 && fld p 1 1 = 1 && fld p 11 11 = 1 then
      [(fld p 47 12 * 4096, 8 * (1 + fld (cohDword s (fld p 47 12 * 4096)) 10 8))]
    else []

/-- A walk's reads are counted (R411). -/
def countWalk (frank : Nat) (tctx : DWord) (va : Nat) : Eff := fun s =>
  Eff.forEach (walkAddrs s va (fld tctx 47 12 * 4096) 4) (fun r => countRead frank r.1 r.2) s

/-- A walk under a translation context (R278, R279). -/
def walk (s : State) (tctx : DWord) (asid va : Nat) : WalkRes := walkFrom s asid va (fld tctx 47 12 * 4096) 4

/-! ## Access kinds and permissions -/

/-- What an access does, with its ACC code (R286). -/
inductive Acc
  | load | store | atomic | fetch | cread | cwrite | mrow | mst
  /-- A load that is read at home (R263). -/
  | home
  /-- A load that a root switch serves: an acquire at pod or system scope (R303). -/
  | acq
  deriving DecidableEq, Repr

/-- ACC code. -/
def Acc.code : Acc → Nat
  | .load => 0
  | .store => 1
  | .atomic => 2
  | .fetch => 3
  | .cread => 4
  | .cwrite => 5
  | .mrow => 6
  | .mst => 7
  | .acq => 0
  | .home => 0

/-- The access of an ACC code. -/
def accOf : Nat → Acc
  | 0 => .load
  | 1 => .store
  | 2 => .atomic
  | 3 => .fetch
  | 4 => .cread
  | 5 => .cwrite
  | 6 => .mrow
  | _ => .mst

/-- An access writes (R316). -/
def Acc.writes : Acc → Bool
  | .store => true
  | .atomic => true
  | .cwrite => true
  | .mst => true
  | _ => false

/-- Permission of a mapped page (R281). -/
def permOk (p : DWord) (a : Acc) (user : Bool) : Bool :=
  let r := fld p 3 3 == 1
  let w := fld p 4 4 == 1
  let x := fld p 5 5 == 1
  let u := fld p 6 6 == 1
  (!user || u) &&
  match a with
  | .load => r
  | .acq => r
  | .home => r
  | .cread => r
  | .mrow => r
  | .store => w
  | .cwrite => w
  | .mst => w
  | .atomic => r && w
  | .fetch => x

/-! ## TLBs (R283) -/

/-- A TLB entry serves an address. -/
def tlbHit (e : TlbE) (asid va : Nat) : Bool :=
  (e.asid == asid || fld e.pte 7 7 == 1) && (va / 2 ^ e.log2 == e.base)

/-- An entry put into a TLB of a size; the oldest entry gives way. -/
def tlbPut (cap : Nat) (l : List TlbE) (e : TlbE) : List TlbE :=
  let l := l.filter (fun x => !(x.asid == e.asid && x.base == e.base && x.log2 == e.log2))
  (if cap ≤ l.length then l.drop 1 else l) ++ [e]

/-- The entry a core finds: in its L1 TLB, else in its cluster's L2 TLB. -/
def tlbFind (s : State) (core asid va : Nat) : Option TlbE :=
  match (getCore s core).tlb.find? (fun e => tlbHit e asid va) with
  | some e => some e
  | none => (getCluster s (clusterOf core)).tlb.find? (fun e => tlbHit e asid va)

/-- An entry enters a core's L1 TLB. -/
def tlbFillL1 (core : Nat) (e : TlbE) : Eff := fun s =>
  if (getCore s core).tlb.contains { e with count := 0 } then []
  else [.core core { getCore s core with tlb := tlbPut 64 (getCore s core).tlb { e with count := 0 } }]

/-- An entry enters the L2 TLB of a cluster. -/
def tlbFillL2 (cl : Nat) (e : TlbE) : Eff := fun s =>
  [.cluster cl { getCluster s cl with tlb := tlbPut 8192 (getCluster s cl).tlb e }]

/-- Where a byte of a mapped page lies (R276, R284, R288). -/
def placeOf (s : State) (e : TlbE) (va : Nat) : Place :=
  let off := va % 2 ^ e.log2
  if fld e.pte 11 11 = 1 then .repl e.root e.reps off
  else
    let a := frameOf e.pte + off
    .phys (if fld e.pte 10 10 = 1 then pkgAddr s (fld e.pte 56 48) a else a) (fld e.pte 9 9 == 1)

/-! ## Who makes an access -/

/-- The maker of an access, as translation, checks and records need it. `pbase` and `psize` are its private
memory, 0 for one that has none. -/
structure Who where
  party  : Nat
  blk    : Nat
  core   : Nat
  part   : Nat
  slot   : Nat
  tctx   : DWord
  asid   : Nat
  frank  : Nat
  launch : Nat
  user   : Bool
  pbase  : DWord
  psize  : Nat
  deriving DecidableEq, Repr

/-- A fault record's fields for an access (R286). -/
def recordOf (w : Who) (a : Acc) (kind va lane count : Nat) : FaultRec :=
  { kind := kind, va := va, asid := w.asid, frank := w.frank, acc := a.code, part := w.part, slot := w.slot
    core := w.core, lane := lane, count := count }

/-- The 64 KiB virtual page of an address. -/
def pageOf (va : Nat) : Nat := va / 65536

/-- The open merge entry of a page (R285). -/
def mergeFind (s : State) (cl asid page : Nat) : Option MergeE :=
  (getCluster s cl).merge.find? (fun m => m.asid == asid && m.page == page)

/-- A merge table is full. -/
def mergeFull (s : State) (cl : Nat) : Bool := decide (256 ≤ (getCluster s cl).merge.length)

/-- A merge entry opened: a WALK, or a FAULT of a cause whose record is queued. -/
def mergeOpen (w : Who) (a : Acc) (va lane : Nat) (cause : Option Nat) : Eff := fun s =>
  let cl := clusterOf w.core
  let rcd := recordOf w a (if cause = some 9 then 2 else 1) va lane 0
  let m : MergeE :=
    { asid := w.asid, page := pageOf va, who := w.party, blk := w.blk, core := w.core, user := w.user
      cause := cause, recorded := false, taken := false, rcd := rcd }
  .cluster cl { getCluster s cl with merge := (getCluster s cl).merge ++ [m] } ::
  (if cause.isSome then [.faults { s.faults with pend := s.faults.pend ++ [(cl, rcd)] }] else [])

/-- A merge entry changed. -/
def mergeSet (cl : Nat) (m : MergeE) : Eff := fun s =>
  [.cluster cl { getCluster s cl with
    merge := (getCluster s cl).merge.map (fun x => if x.asid == m.asid && x.page == m.page then m else x) }]

/-- A walk's end as its opener's access takes it (R285): an entry to fill, or the cause of a fault. -/
def walkEnd (s : State) (tctx : DWord) (asid va : Nat) (a : Acc) (user : Bool) : TlbE ⊕ Nat :=
  match walk s tctx asid va with
  | .unmapped => .inr 8
  | .leaf e _ => if permOk e.pte a user then .inl e else .inr 9

/-! ## Round regions by address (R312, R316) -/

/-- A registered region. -/
def rtValid (e : RtEntry) : Bool := fld e.ctl 0 0 == 1
def rtAsid (e : RtEntry) : Nat := fld e.ctl 43 32
def rtBase (e : RtEntry) : Nat := fld e.base 55 16 * 65536
def rtSize (e : RtEntry) : Nat := 2 ^ fld e.base 5 0
def rtCva (e : RtEntry) : Nat := fld e.cva 55 3 * 8
def rtScope (e : RtEntry) : Nat := fld e.ctl 7 4
def rtCl (e : RtEntry) : Nat := fld e.ctl 10 8

/-- The registered region of an address space that holds an address. -/
def regionOf (s : State) (asid va : Nat) : Option Nat :=
  (s.rounds.ents.find? (fun e => rtValid e.2 && rtAsid e.2 == asid && decide (rtBase e.2 ≤ va) &&
    decide (va < rtBase e.2 + rtSize e.2))).map (·.1)

/-- The registered region whose counter word holds an address. -/
def counterOf (s : State) (asid va : Nat) : Option Nat :=
  (s.rounds.ents.find? (fun e => rtValid e.2 && rtAsid e.2 == asid && rtCva e.2 == va / 8 * 8)).map (·.1)

/-- COUNT of a region. -/
def countOf (s : State) (r : Nat) : Nat := fld (getRt s r).cnt 47 0

/-- A core lies in a region's scope instance (R313, R317). -/
def inRegionScope (s : State) (r core : Nat) : Bool :=
  rtScope (getRt s r) == 9 || clusterOf core == rtCl (getRt s r)

/-- The known round of a core for a region (R317). -/
def knownRound (s : State) (core r : Nat) : Nat := mget 0 (getCore s core).known r

/-- A core hears a round of a region in whose scope it lies: the known round never falls (R317). -/
def hear (core r n : Nat) : Eff := fun s =>
  if inRegionScope s r core && decide (knownRound s core r < n) then
    [.core core { getCore s core with known := mput (getCore s core).known r n }]
  else []

/-! ## Translating the accesses of one instruction (R265, R282, R285) -/

/-- One access to be translated: its lane (255 for a uniform word), the address a trap names, its virtual
address. -/
structure TReq where
  lane : Nat
  ea   : DWord
  va   : Nat
  deriving DecidableEq, Repr

/-- A page whose root switch this package has no link to: an access that the root must serve finds it unmapped
(R441). -/
def rootDown (s : State) (e : TlbE) (a : Acc) : Bool :=
  fld e.pte 11 11 == 1 && (a.writes || a == .acq) && !bit s.idn.lnkstat.toNat e.root

/-- The cause that a mapped page gives an access, none when it is allowed. -/
def denyCause (s : State) (e : TlbE) (a : Acc) (user : Bool) : Option Nat :=
  if rootDown s e a then some 8 else if permOk e.pte a user then none else some 9

/-- How one access stands. -/
inductive TSt
  | hit (e : TlbE)
  /-- Mapped, not allowed for a cause, no entry open. -/
  | denied (cause : Nat)
  /-- The access's own fault, recorded and not yet taken. -/
  | mine (cause : Nat)
  /-- An engine's row that meets a FAULT entry: it fails for the cause without a record (R285). -/
  | failed (cause : Nat)
  /-- Waits on an entry. -/
  | waits
  /-- A miss without an entry. -/
  | miss
  deriving DecidableEq, Repr

/-- A matrix row's or an mst row's access: an engine's (R285). -/
def Acc.isRow : Acc → Bool
  | .mrow => true
  | .mst => true
  | _ => false

/-- How an access stands with its open merge entry. -/
def mergeSt (w : Who) (a : Acc) (m : MergeE) : TSt :=
  match m.cause with
  | some c =>
    if m.who == w.party && !m.taken then (if m.recorded then .mine c else .waits)
    else if a.isRow then .failed c
    else .waits
  | none => .waits

/-- How an access stands. -/
def trState (s : State) (w : Who) (a : Acc) (va : Nat) : TSt :=
  match tlbFind s w.core w.asid va with
  | some e =>
    match denyCause s e a w.user with
    | none => .hit e
    | some cause =>
      match mergeFind s (clusterOf w.core) w.asid (pageOf va) with
      | some m => mergeSt w a m
      | none => .denied cause
  | none =>
    match mergeFind s (clusterOf w.core) w.asid (pageOf va) with
    | some m => mergeSt w a m
    | none => .miss

/-- What comes of translating a list of accesses. -/
inductive TRes
  | ok (eff : Eff)
  | trap (cause lane : Nat) (addr : DWord) (eff : Eff)
  | park (why : Why) (eff : Eff)

/-- A page whose accesses a core's cluster counts for migration (R288): remote, or a vault page of another core. -/
def migCounts (core : Nat) (e : TlbE) : Bool :=
  fld e.pte 8 8 == 1 &&
  (fld e.pte 10 10 == 1 ||
   (frameOf e.pte < 0x10000000000 && frameOf e.pte / 0x2000000 != core && fld e.pte 11 11 == 0))

/-- A core's own L1 serves a plain load of a line: by a copy, or by its privatised bytes. -/
def servedL1 (s : State) (core a : Nat) : Bool := l1Hit s core (lineOf a) || (privByte s core a).isSome

/-- An access that the core's own caches serve: to a remote page it is not forwarded. -/
def servedHere (s : State) (w : Who) (a : Acc) (e : TlbE) (va : Nat) : Bool :=
  match placeOf s e va, a with
  | .phys x _, .load => servedL1 s w.core x
  | .phys x _, .fetch => (mfind (getCore s w.core).icache (lineOf x)).isSome
  | _, _ => false

/-- One access of a page counted, in its entry of the L2 TLB; at a threshold other than 0 a HOT record is queued and the
count cleared (R286, R288). -/
def countMig (w : Who) (a : Acc) (e : TlbE) (va : Nat) : Eff := fun s =>
  let cl := clusterOf w.core
  if !migCounts w.core e || (fld e.pte 10 10 == 1 && servedHere s w a e va) then []
  else
    match (getCluster s cl).tlb.find? (fun x => x.asid == e.asid && x.base == e.base && x.log2 == e.log2) with
    | none => []
    | some x =>
      let n := x.count + 1
      let limit := fld s.faults.cfg 63 48
      let hot := limit != 0 && decide (limit ≤ n)
      let tlb := (getCluster s cl).tlb.map (fun y => if y == x then { x with count := if hot then 0 else n } else y)
      .cluster cl { getCluster s cl with tlb := tlb } ::
      (if hot then
        [.faults { s.faults with pend := s.faults.pend ++ [(cl, recordOf w a 3 (e.base * 2 ^ e.log2) 255 n)] }]
       else [])

/-- The access on the lowest page, the earlier of two on one page. -/
def lowestPage : List TReq → Option TReq
  | [] => none
  | r :: rs =>
    match lowestPage rs with
    | some x => if pageOf x.va < pageOf r.va then some x else some r
    | none => some r

/-- An access's own fault is taken with its trap. -/
def takeFault (w : Who) (va : Nat) : Eff := fun s =>
  match mergeFind s (clusterOf w.core) w.asid (pageOf va) with
  | some m => mergeSet (clusterOf w.core) { m with taken := true } s
  | none => []

/-- Which access an instruction with a recorded fault of a cause names: the lowest lane that fails for it, one that a TLB
denies included; none when no fault of the cause is recorded. -/
def failsFirst (st : TReq → TSt) (cause : Nat) (rs : List TReq) : Option TReq :=
  let ready (r : TReq) : Bool := st r == .mine cause || st r == .failed cause
  if rs.any ready then rs.find? (fun r => ready r || st r == .denied cause) else none

/-- An access waits on an entry whose fault is not a PERM, or is not known yet: it may still fail PAGE. -/
def mayPage (s : State) (w : Who) (st : TReq → TSt) (r : TReq) : Bool :=
  st r == .waits &&
  match mergeFind s (clusterOf w.core) w.asid (pageOf r.va) with
  | some m => m.cause != some 9
  | none => true

/-- What an access that meets an entry waits for: the end of its walk, or of its fault. -/
def mergeWait (s : State) (w : Who) (r : TReq) : Why :=
  let cl := clusterOf w.core
  match mergeFind s cl w.asid (pageOf r.va) with
  | some m => if m.cause.isNone then .walk cl w.asid (pageOf r.va) else .merge cl w.asid (pageOf r.va)
  | none => .merge cl w.asid (pageOf r.va)

/-- The accesses that have been forwarded are counted towards migration (R288). -/
def countForwards (w : Who) (a : Acc) (vas : List Nat) : Eff :=
  Eff.forEach vas (fun va => fun s =>
    match tlbFind s w.core w.asid va with
    | some e => countMig w a e va s
    | none => [])

/-- The accesses of an instruction, lanes ascending, are translated: every page is looked up, in ascending
order; a miss without an entry opens a walk; PAGE comes before PERM, also one that is not known yet; the lowest lane that fails
is named (R265, R281, R282, R285). -/
def translate (s : State) (w : Who) (a : Acc) (rs : List TReq) : TRes :=
  let cl := clusterOf w.core
  let st (r : TReq) : TSt := trState s w a r.va
  let open_ (r : TReq) (cause : Nat) : TRes :=
    if mergeFull s cl then .park (.tableFull cl) Eff.nop
    else .park (.merge cl w.asid (pageOf r.va)) (mergeOpen w a r.va r.lane (some cause))
  let fail (r : TReq) (cause : Nat) : TRes :=
    match st r with
    | .mine _ => .trap cause r.lane r.ea (takeFault w r.va)
    | .failed _ => .trap cause r.lane r.ea Eff.nop
    | _ => open_ r cause
  match lowestPage (rs.filter (fun r => st r == .miss)) with
  | some r =>
    if mergeFull s cl then .park (.tableFull cl) Eff.nop
    else .park (.walk cl w.asid (pageOf r.va)) (mergeOpen w a r.va r.lane none)
  | none =>
    match failsFirst st 8 rs, rs.find? (fun r => st r == .denied 8), rs.find? (mayPage s w st) with
    | some r, _, _ => fail r 8
    | none, some r, _ => open_ r 8
    | none, none, some r => .park (mergeWait s w r) Eff.nop
    | none, none, none =>
      match failsFirst st 9 rs, rs.find? (fun r => st r == .waits), rs.find? (fun r => st r == .denied 9) with
      | some r, _, _ => fail r 9
      | none, some r, _ => .park (mergeWait s w r) Eff.nop
      | none, none, some r => open_ r 9
      | none, none, none =>
        .ok (Eff.forEach ((rs.filterMap (fun r =>
          match st r with
          | .hit e => some e
          | _ => none)).eraseDups) (tlbFillL1 w.core))

/-- The place of a translated byte; an untranslated one is not asked for. -/
def placeAt (s : State) (w : Who) (va : Nat) : Place :=
  match tlbFind s w.core w.asid va with
  | some e => placeOf s e va
  | none => .phys va false

/-- An engine's access (R285): the entry the TLBs hold, else a walk made at once; its fault's cause, and
whether the access opens the entry and writes the record. Waits where the table is full. -/
inductive ERes
  | ok (place : Place) (eff : Eff)
  | fails (cause : Nat) (eff : Eff)
  | waits

/-- Translation for an engine or a package unit. -/
def engineTranslate (s : State) (w : Who) (a : Acc) (va : Nat) : ERes :=
  let cl := clusterOf w.core
  let fault (c : Nat) : ERes :=
    match mergeFind s cl w.asid (pageOf va) with
    | some m => if m.cause.isSome then .fails c Eff.nop else .waits
    | none => if mergeFull s cl then .waits else .fails c (mergeOpen w a va 255 (some c))
  match tlbFind s w.core w.asid va with
  | some e =>
    match denyCause s e a w.user with
    | none => .ok (placeOf s e va) (countMig w a e va)
    | some cause => fault cause
  | none =>
    match mergeFind s cl w.asid (pageOf va) with
    | some m => match m.cause with
      | some c => .fails c Eff.nop
      | none => .waits
    | none =>
      if mergeFull s cl then .waits
      else
      match walkEnd s w.tctx w.asid va a w.user with
      | .inl e =>
        if rootDown s e a then fault 8
        else
          .ok (placeOf s e va)
            (Eff.all [countWalk w.frank w.tctx va, tlbFillL2 cl e, tlbFillL1 w.core e, countMig w a e va])
      | .inr c => fault c

end Sys2Proof.Machine
end

