-- ==== Sys2Proof/Machine/Num.lean ====
section
/-! DEFINITION. Exact numbers, the IEEE formats and rounding (03: R64 to R69; R148). -/

namespace Sys2Proof.Machine

/-- An exact value: NaN, an infinity, or (-1)^neg * m * 2^e; m = 0 is a zero of that sign. A value that is
no dyadic number is carried with enough bits and an odd last bit, so that every rounding of it is right. -/
inductive FVal
  | nan
  | inf (neg : Bool)
  | fin (neg : Bool) (m : Nat) (e : Int)
  deriving DecidableEq, Repr

/-- An IEEE format: exponent and fraction widths (R64). -/
structure FFmt where
  ew : Nat
  fw : Nat
  deriving DecidableEq, Repr

def fmt64 : FFmt := ⟨11, 52⟩
def fmt32 : FFmt := ⟨8, 23⟩
def fmt16 : FFmt := ⟨5, 10⟩
def fmtB16 : FFmt := ⟨8, 7⟩

/-- The format of a floating type; a packed type's element format. -/
def fmtOf : Ty → FFmt
  | .f64 => fmt64
  | .f16 | .f16x2 => fmt16
  | .bf16 | .bf16x2 => fmtB16
  | _ => fmt32

/-- Bias of a format. -/
def FFmt.bias (f : FFmt) : Nat := 2 ^ (f.ew - 1) - 1
/-- Exponent of the smallest subnormal. -/
def FFmt.qmin (f : FFmt) : Int := 1 - (f.bias : Int) - f.fw
/-- The pattern of +infinity. -/
def FFmt.infPat (f : FFmt) : Nat := (2 ^ f.ew - 1) * 2 ^ f.fw
/-- The sign bit of a pattern. -/
def FFmt.signPat (f : FFmt) : Nat := 2 ^ (f.ew + f.fw)
/-- The canonical quiet NaN (R68). -/
def FFmt.nanPat (f : FFmt) : Nat := f.infPat + 2 ^ (f.fw - 1)

/-- A pattern as its value (R64). -/
def decodeF (f : FFmt) (x : Nat) : FVal :=
  let neg := bit x (f.ew + f.fw)
  let ex := bits x (f.ew + f.fw - 1) f.fw
  let fr := x % 2 ^ f.fw
  if ex = 2 ^ f.ew - 1 then (if fr = 0 then .inf neg else .nan)
  else if ex = 0 then .fin neg fr f.qmin
  else .fin neg (2 ^ f.fw + fr) (f.qmin + ex - 1)

/-- Rounding modes (R69). -/
inductive RMode
  | rne | rz | ru | rd
  /-- Stochastic, with the 32-bit draw u (R70). -/
  | sr (u : Nat)
  deriving DecidableEq, Repr

/-- A mode code 0 to 3. -/
def modeOf : Nat → RMode
  | 0 => .rne
  | 1 => .rz
  | 2 => .ru
  | _ => .rd

/-- Whether a magnitude that lies between grid indices `idx` and `idx + 1`, the remainder being rem out of
2^sh, goes up (R69, R70). An exact one stays. -/
def roundUp (mode : RMode) (neg : Bool) (idx rem sh : Nat) : Bool :=
  if rem = 0 then false
  else match mode with
    | .rne => 2 * rem > 2 ^ sh || (2 * rem == 2 ^ sh && idx % 2 == 1)
    | .rz => false
    | .ru => !neg
    | .rd => neg
    | .sr u =>
      if neg then !(u < (2 ^ sh - rem) * 2 ^ 32 / 2 ^ sh)
      else u < rem * 2 ^ 32 / 2 ^ sh

/-- The grid index of a magnitude m * 2^e (m > 0) on the grid with fw fraction bits above quantum 2^qmin:
index (q - qmin) * 2^fw + n stands for n * 2^q, whichever way the index is split. -/
def gridRound (fw : Nat) (qmin : Int) (mode : RMode) (neg : Bool) (m : Nat) (e : Int) : Nat :=
  let top : Int := e + (Nat.log2 m : Nat)
  let q : Int := max (top - fw) qmin
  let base := (q - qmin).toNat * 2 ^ fw
  if q ≤ e then base + m * 2 ^ (e - q).toNat
  else
    let sh := (q - e).toNat
    let idx := base + m / 2 ^ sh
    if roundUp mode neg idx (m % 2 ^ sh) sh then idx + 1 else idx

/-- ROUND(x, fmt, mode) as a pattern (R68, R69). -/
def roundF (f : FFmt) (mode : RMode) (x : FVal) : Nat :=
  match x with
  | .nan => f.nanPat
  | .inf neg => (if neg then f.signPat else 0) + f.infPat
  | .fin neg m e =>
    let sg := if neg then f.signPat else 0
    if m = 0 then sg
    else
      let p := gridRound f.fw f.qmin mode neg m e
      if p < f.infPat then sg + p
      else match mode with
        | .rz => sg + (f.infPat - 1)
        | .ru => sg + (if neg then f.infPat - 1 else f.infPat)
        | .rd => sg + (if neg then f.infPat else f.infPat - 1)
        | _ => sg + f.infPat

/-! ## Exact operations (R148) -/

def FVal.neg : FVal → FVal
  | .nan => .nan
  | .inf s => .inf (!s)
  | .fin s m e => .fin (!s) m e

def FVal.abs : FVal → FVal
  | .nan => .nan
  | .inf _ => .inf false
  | .fin _ m e => .fin false m e

/-- x * 2^k. -/
def FVal.scale (x : FVal) (k : Int) : FVal :=
  match x with
  | .fin s m e => .fin s m (e + k)
  | y => y

/-- A signed mantissa at an exponent not above e. -/
def signedAt (s : Bool) (m : Nat) (e low : Int) : Int :=
  let v : Int := (m : Int) * 2 ^ (e - low).toNat
  if s then -v else v

/-- Sum of two exact values (R148): an exact zero sum is +0, but -0 and -0 give -0. -/
def FVal.add (a b : FVal) : FVal :=
  match a, b with
  | .nan, _ => .nan
  | _, .nan => .nan
  | .inf s, .inf t => if s == t then .inf s else .nan
  | .inf s, _ => .inf s
  | _, .inf t => .inf t
  | .fin s m e, .fin t n g =>
    if m = 0 then (if n = 0 then .fin (s && t) 0 0 else b)
    else if n = 0 then a
    else
      let low := min e g
      let v := signedAt s m e low + signedAt t n g low
      if v = 0 then .fin false 0 0 else .fin (decide (v < 0)) v.natAbs low

/-- Product of two exact values. -/
def FVal.mul (a b : FVal) : FVal :=
  match a, b with
  | .nan, _ => .nan
  | _, .nan => .nan
  | .inf s, .inf t => .inf (s != t)
  | .inf s, .fin t n _ => if n = 0 then .nan else .inf (s != t)
  | .fin s m _, .inf t => if m = 0 then .nan else .inf (s != t)
  | .fin s m e, .fin t n g => .fin (s != t) (m * n) (e + g)

/-- A quotient of positive integers scaled by 2^k, with an odd last bit when it is not exact. -/
def quotSticky (m n k : Nat) : Nat :=
  2 * (m * 2 ^ k / n) + (if m * 2 ^ k % n = 0 then 0 else 1)

/-- Quotient of two exact values (R148). -/
def FVal.div (a b : FVal) : FVal :=
  match a, b with
  | .nan, _ => .nan
  | _, .nan => .nan
  | .inf _, .inf _ => .nan
  | .inf s, .fin t _ _ => .inf (s != t)
  | .fin s _ _, .inf t => .fin (s != t) 0 0
  | .fin s m e, .fin t n g =>
    if n = 0 then (if m = 0 then .nan else .inf (s != t))
    else if m = 0 then .fin (s != t) 0 0
    else
      let k := 256 + Nat.log2 n
      .fin (s != t) (quotSticky m n k) (e - g - k - 1)

/-- A value below another, -0 equal to +0; false with a NaN. -/
def FVal.lt (a b : FVal) : Bool :=
  match a, b with
  | .nan, _ => false
  | _, .nan => false
  | .inf s, .inf t => s && !t
  | .inf s, _ => s
  | _, .inf t => !t
  | .fin s m e, .fin t n g => decide (signedAt s m e (min e g) < signedAt t n g (min e g))

/-- Equal values, -0 equal to +0; false with a NaN. -/
def FVal.eq (a b : FVal) : Bool :=
  match a, b with
  | .nan, _ => false
  | _, .nan => false
  | .inf s, .inf t => s == t
  | .inf _, _ => false
  | _, .inf _ => false
  | .fin s m e, .fin t n g => decide (signedAt s m e (min e g) = signedAt t n g (min e g))

def FVal.isNan : FVal → Bool
  | .nan => true
  | _ => false

def FVal.isInf : FVal → Bool
  | .inf _ => true
  | _ => false

def FVal.isNeg : FVal → Bool
  | .nan => false
  | .inf s => s
  | .fin s _ _ => s

def FVal.isZero : FVal → Bool
  | .fin _ m _ => m == 0
  | _ => false

/-- fmin and fmax (R148): -0 below +0; one NaN gives the other operand. -/
def FVal.pick (big : Bool) (a b : FVal) : FVal :=
  if a.isNan then b
  else if b.isNan then a
  else
    let less := a.lt b || (a.eq b && a.isNeg && !b.isNeg)
    if less == big then b else a

/-- An integer as an exact value. -/
def FVal.ofInt (n : Int) : FVal := .fin (decide (n < 0)) n.natAbs 0

/-- ROUND_TO_INTEGER of a finite value. -/
def roundInt (mode : RMode) (neg : Bool) (m : Nat) (e : Int) : Int :=
  let n :=
    if 0 ≤ e then m * 2 ^ e.toNat
    else
      let sh := (-e).toNat
      let n := m / 2 ^ sh
      if roundUp mode neg n (m % 2 ^ sh) sh then n + 1 else n
  if neg then -(n : Int) else n

/-- The integer square root, bit by bit from 2^n down. -/
def isqrtAux : Nat → Nat → Nat → Nat
  | 0, r, x => if (r + 1) * (r + 1) ≤ x then r + 1 else r
  | n + 1, r, x =>
    let t := r + 2 ^ (n + 1)
    isqrtAux n (if t * t ≤ x then t else r) x

/-- floor(sqrt x). -/
def isqrt (x : Nat) : Nat := isqrtAux (Nat.log2 x / 2 + 1) 0 x

/-- The square root of an exact value (R150). -/
def FVal.sqrt (a : FVal) : FVal :=
  match a with
  | .nan => .nan
  | .inf s => if s then .nan else .inf false
  | .fin s m e =>
    if m = 0 then .fin s 0 0
    else if s then .nan
    else
      let k : Nat := 256
      let (m', e') := if e % 2 = 0 then (m, e) else (2 * m, e - 1)
      let x := m' * 2 ^ (2 * k)
      let r := isqrt x
      .fin false (2 * r + (if r * r = x then 0 else 1)) (e' / 2 - k - 1)

/-- 1 / sqrt of an exact value (R150). -/
def FVal.rsqrt (a : FVal) : FVal :=
  match a with
  | .nan => .nan
  | .inf s => if s then .nan else .fin false 0 0
  | .fin s m e =>
    if m = 0 then .inf s
    else if s then .nan
    else
      let (m', e') := if e % 2 = 0 then (m, e) else (2 * m, e - 1)
      let k : Nat := 256 + Nat.log2 m'
      let x := 2 ^ (2 * k)
      let r := isqrt (x / m')
      .fin false (2 * r + (if r * r * m' = x then 0 else 1)) (-(e' / 2) - k - 1)

/-! ## Integer types (R66) -/

/-- A pattern at an integer type. -/
def intVal (t : Ty) (x : Nat) : Int :=
  if tySigned t then sextN x (tyWidth t) else ((x % 2 ^ tyWidth t : Nat) : Int)

/-- The ends of an integer type. -/
def intMin (t : Ty) : Int := if tySigned t then -(2 ^ (tyWidth t - 1) : Int) else 0
def intMax (t : Ty) : Int := if tySigned t then 2 ^ (tyWidth t - 1) - 1 else 2 ^ tyWidth t - 1

/-- SAT(x, type). -/
def satInt (t : Ty) (x : Int) : Int := max (intMin t) (min (intMax t) x)

/-- A result at an integer type as its register pattern: narrow results extended to 32 bits by their sign
(R66). -/
def intPat (t : Ty) (x : Int) : Nat :=
  let w := tyWidth t
  let v := intVal t (patOf x w)
  patOf v (max w 32)

/-- Half i of a packed register. -/
def half16 (x i : Nat) : Nat := bits x (16 * i + 15) (16 * i)

/-- A floating pattern read at a type. -/
def fVal (t : Ty) (x : Nat) : FVal := decodeF (fmtOf t) x

/-- CLAMP applied to a rounded result (R32): a NaN becomes +0. -/
def clampF (f : FFmt) (clamp x : Nat) : Nat :=
  let one := roundF f .rne (.fin false 1 0)
  let mone := one + f.signPat
  if clamp = 0 then x
  else
    let v := decodeF f x
    if v.isNan then 0
    else
      let lo : FVal := if clamp = 1 then .fin false 0 0 else .fin true 1 0
      let v1 := FVal.pick true v lo
      let v2 := FVal.pick false v1 (.fin false 1 0)
      if v2.eq (.fin false 1 0) then one
      else if clamp = 2 && v2.eq (.fin true 1 0) then mone
      else roundF f .rne v2

end Sys2Proof.Machine
end

