-- ==== Sys2Proof/Machine/Xf.lean ====
section
/-! DEFINITION. Configurable narrow formats, block scales and format registers (03: R70 to R80, R91). -/

namespace Sys2Proof.Machine

/-- A format register's fields (R77). -/
structure XFmt where
  s     : Nat
  e     : Nat
  m     : Nat
  bias  : Nat
  pol   : Nat
  rnd   : Nat
  blen  : Nat
  e8m0  : Bool
  seed  : Nat
  deriving DecidableEq, Repr

/-- The fields of a format image. -/
def xfmtOf (v : DWord) : XFmt :=
  { s := fld v 0 0, e := fld v 7 4, m := fld v 11 8, bias := fld v 21 14, pol := fld v 23 22
    rnd := fld v 26 24, blen := 16 * 2 ^ fld v 28 27, e8m0 := fld v 29 29 == 1, seed := fld v 63 32 }

/-- Code width w = S + E + M. -/
def XFmt.width (f : XFmt) : Nat := f.s + f.e + f.m

/-- Container width (R75). -/
def XFmt.cont (f : XFmt) : Nat := if f.width ≤ 4 then 4 else 8

/-- A valid format image (R78). -/
def kfValid (v : DWord) : Bool :=
  let f := xfmtOf v
  fld v 31 30 == 0 && fld v 13 12 == 0 && fld v 3 1 == 0 && decide (f.rnd ≤ 4) && decide (f.pol ≤ 2) &&
  decide (2 ≤ f.width) && decide (f.width ≤ 8) && decide (f.m ≤ 8) && decide (f.e ≤ 8) &&
  (f.e != 0 || f.pol == 0) && (f.pol != 1 || decide (1 ≤ f.e)) &&
  (f.pol != 2 || (decide (2 ≤ f.e) && decide (1 ≤ f.m))) &&
  (if f.e = 0 then decide (f.bias ≤ 149)
   else decide (2 ^ f.e - 1 ≤ 127 + f.bias) && decide (f.bias + f.m ≤ 150))

/-- Exponent of the format's quantum. -/
def XFmt.qmin (f : XFmt) : Int := 1 - (f.bias : Int) - f.m

/-- XF_ISNAN (R72), of a w-bit code. -/
def xfIsNan (c : Nat) (f : XFmt) : Bool :=
  let mag := c % 2 ^ (f.e + f.m)
  match f.pol with
  | 1 => mag == 2 ^ (f.e + f.m) - 1 || (f.s == 1 && c == 2 ^ (f.width - 1))
  | 2 => decide ((2 ^ f.e - 1) * 2 ^ f.m < mag)
  | _ => false

/-- XF_VALUE (R71). -/
def xfValue (code : Nat) (f : XFmt) : FVal :=
  let c := code % 2 ^ f.width
  if f.e = 0 then
    let n : Int := if f.s = 1 then sextN c f.width else c
    .fin (decide (n < 0)) n.natAbs (-(f.bias : Int))
  else
    let sg := f.s == 1 && bit c (f.width - 1)
    let ex := bits c (f.e + f.m - 1) f.m
    let mn := c % 2 ^ f.m
    if xfIsNan c f then .nan
    else if f.pol = 2 && ex = 2 ^ f.e - 1 then .inf sg
    else if ex = 0 then .fin sg mn f.qmin
    else .fin sg (2 ^ f.m + mn) (f.qmin + ex - 1)

/-- The largest grid index that is a finite value. -/
def XFmt.maxIdx (f : XFmt) : Nat :=
  match f.pol with
  | 1 => 2 ^ (f.e + f.m) - 2
  | 2 => (2 ^ f.e - 1) * 2 ^ f.m - 1
  | _ => 2 ^ (f.e + f.m) - 1

/-- MAXF (R72): for an integer format the top of its range. -/
def XFmt.maxf (f : XFmt) : FVal :=
  if f.e = 0 then .fin false (2 ^ f.m - 1) (-(f.bias : Int))
  else xfValue f.maxIdx { f with s := 0, pol := 0 }

/-- floor(log2 x) of a nonzero finite value. -/
def floorLog2 (x : FVal) : Int :=
  match x with
  | .fin _ m e => e + (Nat.log2 m : Nat)
  | _ => 0

/-- The canonical NaN code (R72). -/
def XFmt.nanCode (f : XFmt) : Nat :=
  match f.pol with
  | 1 => 2 ^ (f.e + f.m) - 1
  | 2 => (2 ^ f.e - 1) * 2 ^ f.m + 2 ^ (f.m - 1)
  | _ => 0

/-- The rounding mode of the format with the draw u (R69, R77). -/
def XFmt.mode (f : XFmt) (u : Nat) : RMode := if f.rnd = 4 then .sr u else modeOf f.rnd

/-- The code of a negative number that is zero (R74). -/
def XFmt.negZero (f : XFmt) : Nat :=
  if f.s = 1 && 1 ≤ f.e && f.pol ≠ 1 then 2 ^ (f.width - 1) else 0

/-- The code of a magnitude's grid index under a sign. -/
def XFmt.signed (f : XFmt) (neg : Bool) (idx : Nat) : Nat :=
  if !neg then idx else if idx = 0 then f.negZero else 2 ^ (f.width - 1) + idx

/-- The code a magnitude at or beyond the format's end takes (R69, R73). -/
def XFmt.overflow (f : XFmt) (mode : RMode) (neg : Bool) : Nat :=
  if f.pol = 2 then
    match mode with
    | .rz => f.signed neg f.maxIdx
    | .ru => f.signed neg (if neg then f.maxIdx else f.maxIdx + 1)
    | .rd => f.signed neg (if neg then f.maxIdx + 1 else f.maxIdx)
    | _ => f.signed neg (f.maxIdx + 1)
  else f.signed neg f.maxIdx

/-- XF_ENCODE(x, f, u) (R73, R74). -/
def xfEncode (x : FVal) (f : XFmt) (u : Nat) : Nat :=
  match x with
  | .nan => f.nanCode
  | .inf neg =>
    if f.s = 0 && neg then 0
    else if f.e = 0 then
      if neg then 2 ^ f.m else 2 ^ f.m - 1
    else f.overflow (f.mode u) neg
  | .fin neg m e =>
    if m = 0 then (if f.s = 0 || !neg then 0 else f.negZero)
    else if f.s = 0 && neg then 0
    else if f.e = 0 then
      let n := roundInt (f.mode u) neg m (e + f.bias)
      let n := max (if f.s = 1 then -(2 ^ f.m : Int) else 0) (min (2 ^ f.m - 1 : Int) n)
      patOf n f.width
    else
      let idx := gridRound f.m f.qmin (f.mode u) neg m e
      if idx ≤ f.maxIdx then f.signed neg idx else f.overflow (f.mode u) neg

/-! ## The stochastic generator (R70) -/

/-- XS(z). -/
def xs32 (z0 : Nat) : Nat :=
  let z1 := z0 ^^^ (z0 * 2 ^ 13 % 2 ^ 32)
  let z2 := z1 ^^^ (z1 / 2 ^ 17)
  z2 ^^^ (z2 * 2 ^ 5 % 2 ^ 32)

/-- u(l, j). -/
def srDraw (seed l j : Nat) : Nat := xs32 ((seed + 0x9E3779B9 * (32 * j + l)) % 2 ^ 32)

/-- A format image after an issue that rounds by SR through it. -/
def advanceSeed (v : DWord) : DWord := setFld v 63 32 ((fld v 63 32 + 0x6D2B79F5) % 2 ^ 32)

/-! ## Block scales (R76) -/

/-- The value of a 32-bit scale. -/
def scaleVal (e8m0 : Bool) (x : Nat) : FVal :=
  if e8m0 then
    let b := x % 256
    if b = 255 then .nan else .fin false 1 ((b : Int) - 127)
  else decodeF fmt32 x

/-- The scale 1.0 of a kind (R222). -/
def scaleOne (e8m0 : Bool) : Nat := if e8m0 then 0x7F else 0x3F800000

/-- bscl (R91). A format with no nonzero finite value has no EMAXF and no MAXF: the free value stands there. -/
def bsclVal (f : XFmt) (free : Nat) (a : FVal) : Nat :=
  match a with
  | .nan => if f.e8m0 then 0xFF else fmt32.nanPat
  | .inf _ => if f.e8m0 then 0xFF else fmt32.nanPat
  | .fin _ m e =>
    if m = 0 then scaleOne f.e8m0
    else if f.maxf.isZero then free % 2 ^ 32
    else if f.e8m0 then
      let t : Int := max (-127) (min 127 (floorLog2 (.fin false m e) - floorLog2 f.maxf))
      (t + 127).toNat
    else roundF fmt32 .ru ((FVal.fin false m e).div f.maxf)

/-- Preset images, bits 31:0 (R79). -/
def presetOf : Nat → Nat
  | 1 => 0x2841C341
  | 2 => 0x2883C251
  | 3 => 0x28004121
  | 4 => 0x2800C231
  | 5 => 0x28004321
  | 6 => 0x28000301
  | _ => 0x28000701

end Sys2Proof.Machine
end

