-- ==== Sys2Proof/Machine/Windows.lean ====
section
/-! DEFINITION. Windows: layout records, payloads, postmarks, touches and promises (09: R218 to R232). -/

namespace Sys2Proof.Machine

/-! ## Layout records (R219, R220) -/

/-- Dword n of a record. -/
def ldw (l : Map DWord) (n : Nat) : DWord := mget 0 l n

def layRank (l : Map DWord) : Nat := fld (ldw l 1) 10 8
def layImg (l : Map DWord) : Bool := fld (ldw l 1) 16 16 == 1
def layXf (l : Map DWord) : Bool := fld (ldw l 1) 17 17 == 1
def layDec (l : Map DWord) : Bool := fld (ldw l 1) 18 18 == 1
def layKf (l : Map DWord) : Nat := fld (ldw l 1) 21 19
def layNext (l : Map DWord) : Option Nat :=
  if fld (ldw l 1) 25 25 = 1 then some (fld (ldw l 1) 31 26) else none
def layEsz (l : Map DWord) : Nat := fld (ldw l 1) 2 0
/-- Element bits: 4 for a 4-bit container. -/
def layEbits (l : Map DWord) : Nat := if layEsz l = 4 then 4 else 8 * 2 ^ layEsz l
/-- Extent E_d. -/
def layExt (l : Map DWord) (d : Nat) : Nat :=
  fld (ldw l (2 + d / 2)) (32 * (d % 2) + 31) (32 * (d % 2))
/-- Stride S_d, d from 1 to 4. -/
def layStride (l : Map DWord) (d : Nat) : Nat := (ldw l (4 + d)).toNat
/-- Box extent B_d. -/
def layBox (l : Map DWord) (d : Nat) : Nat :=
  if d = 4 then fld (ldw l 10) 15 0 else fld (ldw l 9) (16 * d + 15) (16 * d)

/-- The box extents in use, dimension 0 first: B1 positions of B0 channels in image mode. -/
def layBoxes (l : Map DWord) : List Nat :=
  if layImg l then [layBox l 0, layBox l 1] else (List.range (layRank l)).map (layBox l)

/-- Box elements. -/
def layCount (l : Map DWord) : Nat := (layBoxes l).foldl (· * ·) 1

/-- Quotient rounded up. -/
def ceilDiv (a b : Nat) : Nat := (a + b - 1) / b

/-- Offset of the scales (R222). -/
def layScaleOff (l : Map DWord) : Nat := ceilDiv (ceilDiv (layCount l * layEbits l) 8) 256 * 256

/-- Payload bytes (R222). -/
def layPayload (l : Map DWord) (fmt : DWord) : Nat :=
  if !layXf l then layCount l * layEbits l / 8
  else if layDec l then 2 * layCount l
  else layScaleOff l + 4 * layCount l / (xfmtOf fmt).blen

/-- Payload bytes of a window. -/
def winPayload (w : Win) : Nat := layPayload w.layout w.fmt

/-! ## Places in the scratchpad -/

/-- Key of a scratchpad byte. -/
def spadKey (core off : Nat) : Nat := core * 2 ^ 20 + off

/-- Key of byte i of a block's range. -/
def blkByte (b : Block) (i : Nat) : Nat := spadKey b.core (b.spBase + i)

/-- A byte of the scratchpad. -/
def spadByte (s : State) (core off : Nat) : Byte := readByte s.spad (spadKey core off)

/-- A window of a block. -/
def getWin (b : Block) (w : Nat) : Win := mget {} b.wins w

/-- A block with a window changed. -/
def withWin (b : Block) (w : Nat) (x : Win) : Block := { b with wins := mput b.wins w x }

/-- A window changed in the state. -/
def setWin (blk w : Nat) (x : Win) : Eff := fun s =>
  match mfind s.blocks blk with
  | some b => [.block blk (withWin b w x)]
  | none => []

/-- STATE codes (R242). -/
def winCode : WinState → Nat
  | .unbound => 0
  | .present => 1
  | .absent => 2
  | .runahead => 3
  | .copyin => 4
  | .copyout => 5

/-- A range [off, off + n) of a core's scratchpad meets the payload area of a bound window of a block. -/
def meetsPayload (b : Block) (x : Win) (core off n : Nat) : Bool :=
  b.core == core && x.state != .unbound && decide (b.spBase + x.off < off + n) &&
  decide (off < b.spBase + x.off + x.size - 8)

/-- The bound windows whose payload areas meet [off, off + n) of a core's scratchpad, lowest first (R226). -/
def payloadsAt (s : State) (core off n : Nat) : List (Nat × Nat) :=
  s.blocks.flatMap (fun e => (e.2.wins.filter (fun w => meetsPayload e.2 w.2 core off n)).map (fun w => (e.1, w.1)))

/-- The range [off, off + n) lies in a range of a block of a launch on that core (R217). -/
def spadAllowed (s : State) (launch core off n : Nat) : Bool :=
  s.blocks.any (fun e => e.2.core == core && e.2.launch == launch && decide (e.2.spBase ≤ off) &&
    decide (off + n ≤ e.2.spBase + e.2.spSize))

/-! ## Postmarks (R229) -/

/-- A postmark: SEQ, STATUS, CODE, DIR, RA, WIN, BYTES. -/
def postmark (seq status code dir ra win bytes : Nat) : DWord :=
  BitVec.ofNat 64 (seq * 2 ^ 48 + status * 2 ^ 40 + code * 2 ^ 32 + dir * 2 ^ 31 + ra * 2 ^ 30 + win * 2 ^ 24 + bytes)

/-- The postmark of a window, one indivisible store. -/
def writePostmark (b : Block) (x : Win) (v : DWord) : Eff := fun _ =>
  [.spad (cellsAt (blkByte b (x.off + x.size - 8)) (toBytes 8 v.toNat))]

/-- The postmark a window holds. -/
def readPostmark (s : State) (b : Block) (x : Win) : DWord :=
  BitVec.ofNat 64 (ofBytes (readBytes s.spad (blkByte b (x.off + x.size - 8)) 8))

/-! ## Elements (R221) -/

/-- Tensor coordinates of the box element of an index, dimension 0 first. -/
def boxCoords : List Nat → Nat → List Nat
  | [], _ => []
  | b :: bs, i => i % b :: boxCoords bs (i / b)

/-- c_d of a box element in tensor mode. -/
def tensorCoords (x : Win) (i : Nat) : List Nat :=
  (boxCoords (layBoxes x.layout) i).zipIdx.map (fun e => x.org.getD e.2 0 + e.1)

/-- A tensor element's place: its base without dimension 0's term, and c0; none when out of range. -/
def tensorElem (x : Win) (i : Nat) : Option (Nat × Nat) :=
  let cs := tensorCoords x i
  if cs.zipIdx.all (fun e => decide (e.1 < layExt x.layout e.2)) then
    some ((ldw x.layout 0).toNat + ((cs.drop 1).zipIdx.map (fun e => e.1 * layStride x.layout (e.2 + 1))).foldl (· + ·) 0,
      cs.headD 0)
  else none

/-- An image element's place (R221). -/
def imageElem (x : Win) (i : Nat) : Option (Nat × Nat) :=
  let l := x.layout
  let b0 := layBox l 0
  let ow_ := fld (ldw l 12) 15 0
  let oh_ := fld (ldw l 12) 31 16
  let sw := fld (ldw l 12) 39 32
  let sh := fld (ldw l 12) 47 40
  let q := x.org.getD 1 0 + i / b0
  let c := x.org.getD 0 0 + i % b0
  let ow := q % ow_
  let oh := q / ow_ % oh_
  let n := q / (ow_ * oh_)
  let h : Int := (oh * sh : Nat) + sextN (bits x.ctap.toNat 31 16) 16
  let w : Int := (ow * sw : Nat) + sextN (bits x.ctap.toNat 15 0) 16
  if 0 ≤ h && h < (layExt l 2 : Int) && 0 ≤ w && w < (layExt l 1 : Int) && decide (n < layExt l 3) &&
      decide (c < layExt l 0) then
    some ((ldw l 0).toNat + w.toNat * layStride l 1 + h.toNat * layStride l 2 + n * layStride l 3, c)
  else none

/-- An element's place. -/
def elemAt (x : Win) (i : Nat) : Option (Nat × Nat) := if layImg x.layout then imageElem x i else tensorElem x i

/-- Address of the scale of the tensor element of a box index (R222). -/
def scaleAddr (x : Win) (i : Nat) : Nat :=
  let l := x.layout
  let cs := if layImg l then
      let q := x.org.getD 1 0 + i / layBox l 0
      [x.org.getD 0 0 + i % layBox l 0, q]
    else tensorCoords x i
  let blen := (xfmtOf x.fmt).blen
  let nb := ceilDiv (layExt l 0) blen
  let c (d : Nat) : Nat := cs.getD d 0
  (ldw l 11).toNat + 4 * (c 0 / blen + nb * (c 1 + layExt l 1 * (c 2 + layExt l 2 * (c 3 + layExt l 3 * c 4))))

/-- Address of the scale of an image element: its tensor coordinates are channel, column, row, image. -/
def imageScaleAddr (x : Win) (i : Nat) : Nat :=
  let l := x.layout
  let ow_ := fld (ldw l 12) 15 0
  let oh_ := fld (ldw l 12) 31 16
  let q := x.org.getD 1 0 + i / layBox l 0
  let c := x.org.getD 0 0 + i % layBox l 0
  let h := ((q / ow_ % oh_ * fld (ldw l 12) 47 40 : Nat) + sextN (bits x.ctap.toNat 31 16) 16).toNat
  let w := ((q % ow_ * fld (ldw l 12) 39 32 : Nat) + sextN (bits x.ctap.toNat 15 0) 16).toNat
  let n := q / (ow_ * oh_)
  let blen := (xfmtOf x.fmt).blen
  let nb := ceilDiv (layExt l 0) blen
  (ldw l 11).toNat + 4 * (c / blen + nb * (w + layExt l 1 * (h + layExt l 2 * n)))

/-- The scale of a box element's run. -/
def elemScale (x : Win) (i : Nat) : Nat := if layImg x.layout then imageScaleAddr x i else scaleAddr x i

/-! ## Units of a copy -/

/-- A piece of a copy: its window bytes, what it reads of memory (address, length), and its bytes from what
was read. For a copy-out, `reads` names what it writes. -/
structure CUnit where
  off   : Nat
  len   : Nat
  reads : List (Nat × Nat)
  make  : List Nat → List Byte

/-- Elements of whole bytes. -/
def plainUnit (x : Win) (i : Nat) : CUnit :=
  let es := layEbits x.layout / 8
  { off := i * es, len := es
    reads := match elemAt x i with
      | some (b, c0) => [(b + c0 * es, es)]
      | none => []
    make := fun vs => toBytes es (vs.headD 0) }

/-- Two 4-bit elements that share a byte of the window. -/
def nibUnit (x : Win) (i : Nat) : CUnit :=
  let one (e : Option (Nat × Nat)) : List (Nat × Nat) :=
    match e with
    | some (b, c0) => [(b + c0 / 2, 1)]
    | none => []
  let lo := elemAt x (2 * i)
  let hi := elemAt x (2 * i + 1)
  let nib (e : Option (Nat × Nat)) (v : Nat) : Nat :=
    match e with
    | some (_, c0) => v / 16 ^ (c0 % 2) % 16
    | none => 0
  { off := i, len := 1, reads := one lo ++ one hi
    make := fun vs =>
      let l := if lo.isSome then nib lo (vs.headD 0) else 0
      let h := if hi.isSome then nib hi (vs.getD (one lo).length 0) else 0
      [BitVec.ofNat 8 (l + 16 * h)] }

/-- An xf element decompressed to bf16 (R82, R222). -/
def decUnit (x : Win) (i : Nat) : CUnit :=
  let f := xfmtOf x.fmt
  let e := elemAt x i
  let byteOf (b c0 : Nat) : Nat := if layEbits x.layout = 4 then b + c0 / 2 else b + c0
  let code (c0 v : Nat) : Nat := if layEbits x.layout = 4 then v / 16 ^ (c0 % 2) % 16 else v
  { off := 2 * i, len := 2
    reads := match e with
      | some (b, c0) => [(byteOf b c0, 1), (elemScale x i, 4)]
      | none => []
    make := fun vs =>
      match e with
      | some (_, c0) =>
        toBytes 2 (roundF fmtB16 .rne (FVal.mul (xfValue (code c0 (vs.headD 0)) f) (scaleVal f.e8m0 (vs.getD 1 0))))
      | none => [0, 0] }

/-- A scale of a run of BLEN elements (R222). -/
def scaleUnit (x : Win) (j : Nat) : CUnit :=
  let f := xfmtOf x.fmt
  let first := (List.range f.blen).find? (fun t => (elemAt x (f.blen * j + t)).isSome)
  { off := layScaleOff x.layout + 4 * j, len := 4
    reads := match first with
      | some t => [(elemScale x (f.blen * j + t), 4)]
      | none => []
    make := fun vs => if first.isSome then toBytes 4 (vs.headD 0) else toBytes 4 (scaleOne f.e8m0) }

/-- The units of a window's copy, in window order (R228). -/
def unitsOf (x : Win) : List CUnit :=
  let l := x.layout
  let n := layCount l
  if layXf l && layDec l then (List.range n).map (decUnit x)
  else
    (if layEbits l = 4 then (List.range (n / 2)).map (nibUnit x) else (List.range n).map (plainUnit x)) ++
    (if layXf l then (List.range (n / (xfmtOf x.fmt).blen)).map (scaleUnit x) else [])

/-- The units that a copy has still to move, when it has moved some already, by their numbers. -/
def unitsLeft (x : Win) (moved : List Nat) : List CUnit :=
  ((unitsOf x).zipIdx.filter (fun e => !moved.contains e.2)).map (·.1)

/-! ## Touches and promises (R225, R226, R231, R232) -/

/-- Cycles until a courier takes a copy: 0 when one is idle, else an estimate the spec leaves open (log
entry 28). -/
def courierWait (s : State) (core : Nat) : Nat :=
  if (getCore s core).couriers.length < 2 then 0 else (Config.freeValue s.fresh).toNat % 2 ^ 32

/-- A promise for a copy not yet begun (R231). -/
def promiseOf (s : State) (core : Nat) (x : Win) : Nat :=
  (s.clk.cyc + courierWait s core + 96 + 2 * ceilDiv (winPayload x) 64) % 2 ^ 64

/-- The 64-byte pieces of the payload not yet written, of a copy that has moved some units. -/
def piecesLeft (x : Win) (moved : List Nat) : Nat :=
  ((unitsLeft x moved).flatMap (fun u => [u.off / 64, (u.off + u.len - 1) / 64])).eraseDups.length

/-- The courier that carries a window's copy, and its job. -/
def courierOf (s : State) (core blk w : Nat) : Option (Nat × CopyJob) :=
  (getCore s core).couriers.find? (fun e => e.2.blk == blk && e.2.win == w)

/-- A renewed promise (R232): of a running copy, 2 cycles for each piece not yet written. -/
def renewedPromise (s : State) (core blk w : Nat) (x : Win) : Nat :=
  match courierOf s core blk w with
  | some (_, j) => (s.clk.cyc + 96 + 2 * piecesLeft x j.moved) % 2 ^ 64
  | none => promiseOf s core x

/-- The place in the order of R227 of a party that queues a copy: its cycle, partition and group slot. A stream, which has no
slot, comes after the groups of its partition (log entry 57). -/
structure Queuer where
  part : Nat
  slot : Nat
  deriving DecidableEq, Repr

/-- A copy enters the queue of its core: in the order of touches and wposts, those of one cycle by partition and slot, equal
ones as they come (R227). -/
def queueCopy (core : Nat) (j : CopyJob) : Eff := fun s =>
  let c := getCore s core
  let after (x : CopyJob) : Bool :=
    x.cyc == j.cyc && (decide (j.part < x.part) || (x.part == j.part && decide (j.slot < x.slot)))
  [.core core { c with
    copyq := c.copyq.takeWhile (fun x => !after x) ++ j :: c.copyq.dropWhile (fun x => !after x) }]

/-- A touch of a window (R225): an ABSENT window's copy is queued, a RUNAHEAD copy becomes a touched one. -/
def touch (q : Queuer) (blk w : Nat) : Eff := fun s =>
  match mfind s.blocks blk with
  | none => []
  | some b =>
    let x := getWin b w
    let go : Block := withWin b w { x with state := .copyin, prom := promiseOf s b.core x }
    match x.state with
    | .absent =>
      .block blk go :: queueCopy b.core
        { blk := blk, win := w, out := false, ra := false, uid := x.uid, after := x.after, cyc := s.clk.cyc
          part := q.part, slot := q.slot } s
    | .runahead => [.block blk go]
    | _ => []

/-- A copy of a window leaves the queue or its courier. -/
def dropCopy (core blk w : Nat) : Eff := fun s =>
  let c := getCore s core
  [.core core { c with couriers := c.couriers.filter (fun e => !(e.2.blk == blk && e.2.win == w))
                       copyq := c.copyq.filter (fun j => !(j.blk == blk && j.win == w)) }]

/-- A window's copy is being made. -/
def winBusy (s : State) (blk w : Nat) : Bool :=
  match mfind s.blocks blk with
  | some b => (getWin b w).state == .copyin || (getWin b w).state == .copyout
  | none => false

/-- The names of the windows whose payload an access meets. -/
def payloadsOf (s : State) (l : List (Nat × Nat × Nat)) : List (Nat × Nat) :=
  (l.flatMap (fun e => payloadsAt s e.1 e.2.1 e.2.2)).eraseDups

/-- What an access to payload areas comes to (R226). -/
inductive PRes
  | go
  | late (blk w : Nat) (prom : Nat)
  | park (blk w : Nat) (eff : Eff)

/-- An access of runs (core, offset, length) of scratchpad: `late` is the cycle at which a lane load or kld, which may raise
LATE, first issued (R232). The windows that one access touches queue their copies in the order of its runs, which R227 does
not give (log entry 57). -/
def payloadCheck (s : State) (q : Queuer) (writes : Bool) (late : Option Nat) (l : List (Nat × Nat × Nat)) : PRes :=
  let ps := payloadsOf s l
  let st (p : Nat × Nat) : WinState :=
    match mfind s.blocks p.1 with
    | some b => (getWin b p.2).state
    | none => .unbound
  let overdue (p : Nat × Nat) : Bool :=
    st p == .copyin &&
    match mfind s.blocks p.1, late with
    | some b, some n => decide ((getWin b p.2).prom ≤ n)
    | _, _ => false
  match ps.find? overdue with
  | some p =>
    match mfind s.blocks p.1 with
    | some b => .late p.1 p.2 (renewedPromise s b.core p.1 p.2 (getWin b p.2))
    | none => .go
  | none =>
    let waits (p : Nat × Nat) : Bool :=
      match st p with
      | .absent => true
      | .runahead => true
      | .copyin => true
      | .copyout => writes
      | _ => false
    match ps.find? waits with
    | some p => .park p.1 p.2 (Eff.forEach ps (fun p => touch q p.1 p.2))
    | none => .go

end Sys2Proof.Machine
end

