-- ==== Sys2Proof/Machine/Lsu.lean ====
section
/-! DEFINITION. The accesses of lanes and uniform words: the checks of R265, the store queue (R261), the bytes
loads return, and performing what leaves the queue (10: R261 to R269; 12: R295 to R299; 13: R316 to R319). -/

namespace Sys2Proof.Machine

/-! ## Where an instruction's accesses go -/

/-- One lane's access (lane 255 for a uniform word). -/
structure LReq where
  lane : Nat
  ea   : DWord
  deriving DecidableEq, Repr

/-- What the checks of R265 give: the pieces of each lane's access, a trap, or a wait. -/
inductive LRes
  | ok (at_ : List (Nat × List Piece)) (eff : Eff)
  | trap (cause lane : Nat) (addr : DWord) (eff : Eff)
  | park (why : Why) (eff : Eff)

/-- WINDOW (R250, R252). -/
def windowBad (w : Who) (n : Nat) (ea : DWord) : Bool :=
  match genOf w.core ea with
  | .bad => true
  | .priv o => decide (w.psize < o + n)
  | _ => false

/-- SPFOREIGN (R253). -/
def foreignBad (w : Who) (ea : DWord) : Bool :=
  match genOf w.core ea with
  | .spad _ _ f => f
  | _ => false

/-- PERM of a scratchpad range (R217). -/
def rangeBad (s : State) (w : Who) (n : Nat) (ea : DWord) : Bool :=
  match genOf w.core ea with
  | .spad c o _ => !spadAllowed s w.launch c o n
  | _ => false

/-- The virtual pieces of an access: address and length; private ones of 4 bytes (R252). -/
def vPieces (w : Who) (n lane : Nat) (ea : DWord) : List (Nat × Nat) :=
  match genOf w.core ea with
  | .global va => [(va, n)]
  | .priv o => if n ≤ 4 then [(privVa w.pbase o lane, n)] else [(privVa w.pbase o lane, 4), (privVa w.pbase (o + 4) lane, 4)]
  | _ => []

/-- An access covers a byte of a region's counter word (R316). -/
def counterHit (s : State) (w : Who) (n : Nat) (r : LReq) : Bool :=
  (vPieces w n r.lane r.ea).any (fun p => (counterOf s w.asid p.1).isSome)

/-- The translations an access asks for: a counter word's bytes need none (R316). -/
def tReqs (s : State) (w : Who) (n : Nat) (r : LReq) : List TReq :=
  ((vPieces w n r.lane r.ea).filter (fun p => (counterOf s w.asid p.1).isNone)).map (fun p =>
    { lane := r.lane, ea := r.ea, va := p.1 })

/-- The place of a virtual piece: the round table's for a counter word. -/
def vPlace (s : State) (w : Who) (va : Nat) : Place :=
  match counterOf s w.asid va with
  | some reg => .counter reg (va % 8)
  | none => placeAt s w va

/-- The pieces of a checked access. -/
def piecesOf (s : State) (w : Who) (n : Nat) (r : LReq) : List Piece :=
  match genOf w.core r.ea with
  | .spad c o _ => [{ place := .spad c o, len := n }]
  | _ => (vPieces w n r.lane r.ea).map (fun p => { place := vPlace s w p.1, len := p.2 })

/-- The scratchpad runs of some accesses. -/
def spadRuns (w : Who) (n : Nat) (l : List LReq) : List (Nat × Nat × Nat) :=
  l.filterMap (fun r =>
    match genOf w.core r.ea with
    | .spad c o _ => some (c, o, n)
    | _ => none)

/-- A window's PROM changed (R232). -/
def setProm (blk w prom : Nat) : Eff := fun s =>
  match mfind s.blocks blk with
  | some b => setWin blk w { getWin b w with prom := prom } s
  | none => []

/-- The maker of an access as it queues copies (R227). -/
def Who.queuer (w : Who) : Queuer := { part := w.part, slot := if w.party % 2 = 1 then 16 else w.slot }

/-- The payload areas that checked accesses meet (R226). -/
def windowsThen (s : State) (w : Who) (a : Acc) (n : Nat) (late : Option Nat) (l : List LReq) (eff : Eff) : LRes :=
  match payloadCheck s w.queuer a.writes late (spadRuns w n l) with
  | .late blk win prom =>
    .trap 10 ((l.map (·.lane)).headD 255) (BitVec.ofNat 64 prom) (setProm blk win prom)
  | .park blk win eff => .park (.window blk win) eff
  | .go => .ok (l.map (fun r => (r.lane, piecesOf s w n r))) eff

/-- The checks of R265 on n-byte accesses, lanes ascending: WINDOW, SPFOREIGN, ALIGN, PERM of the range,
translation PAGE and PERM; the earliest check that fails is raised, for its lowest lane. A write of a counter
word is a PERM (R316). `late` is the cycle of the first issue of a form that may raise LATE. -/
def locate (s : State) (w : Who) (a : Acc) (n : Nat) (late : Option Nat) (l : List LReq) : LRes :=
  match l.find? (fun r => windowBad w n r.ea) with
  | some r => .trap 6 r.lane r.ea Eff.nop
  | none =>
    match l.find? (fun r => foreignBad w r.ea) with
    | some r => .trap 5 r.lane r.ea Eff.nop
    | none =>
      match l.find? (fun r => r.ea.toNat % n != 0) with
      | some r => .trap 11 r.lane r.ea Eff.nop
      | none =>
        match l.find? (fun r => rangeBad s w n r.ea) with
        | some r => .trap 9 r.lane r.ea Eff.nop
        | none =>
          let counter := if a.writes then l.find? (counterHit s w n) else none
          match translate s w a (l.flatMap (tReqs s w n)), counter with
          | .trap 9 lane addr eff, some r =>
            if r.lane < lane then .trap 9 r.lane r.ea Eff.nop else .trap 9 lane addr eff
          | .trap cause lane addr eff, _ => .trap cause lane addr eff
          | .park why eff, _ => .park why eff
          | .ok _, some r => .trap 9 r.lane r.ea Eff.nop
          | .ok eff, none => windowsThen s w a n late l eff

/-- Its accesses counted, when they have been made (R288). -/
def countAccess (w : Who) (a : Acc) (n : Nat) (l : List LReq) : Eff := fun s =>
  countForwards w a ((l.flatMap (tReqs s w n)).map (·.va)) s

/-! ## The store queue -/

/-- What names byte i of a place: the space and its address. -/
def byteKey (p : Place) (i : Nat) : Nat × Nat :=
  match p with
  | .spad c o => (0, spadKey c (o + i))
  | .phys a _ => (1, a + i)
  | .repl _ reps off => (2, ((reps.getD 0 (0, 0)).1 + 1) * 2 ^ 48 + (reps.getD 0 (0, 0)).2 + off + i)
  | .counter r b => (3, 8 * r + b + i)

/-- The bytes of some pieces, in order. -/
def keysOf (ps : List Piece) : List (Nat × Nat) :=
  ps.flatMap (fun p => (List.range p.len).map (byteKey p.place))

/-- The bytes an item stores, in order. -/
def itemBytes (it : SqItem) : List ((Nat × Nat) × Byte) :=
  let ks := keysOf it.pieces
  ks.zip (toBytes ks.length it.data.toNat)

/-- What an entry holds for a byte: nothing, its value, or a value not known before it performs. -/
def entryLook (e : SqE) (k : Nat × Nat) : Option (Byte ⊕ Nat) :=
  match e.kind with
  | .store => (e.items.reverse.findSome? (fun it => (itemBytes it).find? (fun b => b.1 == k))).map (fun b => .inl b.2)
  | .writeBack _ => none
  | .hold _ => none
  | _ => if e.items.any (fun it => (keysOf it.pieces).contains k) then some (.inr e.id) else none

/-- The newest queued byte (R261). -/
def sqLook (sq : List SqE) (k : Nat × Nat) : Option (Byte ⊕ Nat) := sq.reverse.findSome? (fun e => entryLook e k)

/-- An acquire that a queue still holds: what the group reads comes after it (R299). -/
def acqHeld (sq : List SqE) : Option Nat := (sq.find? (·.acq)).map (·.id)

/-- An atomic or cas that a queue still holds, the newest. -/
def atomHeld (sq : List SqE) : Option Nat :=
  (sq.reverse.find? (fun e =>
    match e.kind with
    | .atomic _ _ _ => true
    | .cas _ _ => true
    | _ => false)).map (·.id)

/-- The queue is full. -/
def sqFull (sq : List SqE) : Bool := decide (32 ≤ sq.length)

/-! ## Reading -/

/-- A byte of a place as an agent of a core reads it behind its store queue. `useL1` is false for a read at
home, `root` true for an acquire that a root switch serves (R303). -/
def placeByte (s : State) (core : Nat) (useL1 root : Bool) (p : Place) (i : Nat) : Byte :=
  match p with
  | .spad c o => spadByte s c (o + i)
  | .phys a _ => coreByte s core (a + i) useL1
  | .repl _ reps off =>
    if root then (replValue s reps (off + i) 1).getD 0 0
    else
      let r := nearest s reps
      coreByte s core (pkgAddr s r.1 (r.2 + off + i)) useL1
  | .counter r b => BitVec.ofNat 8 (countOf s r / 2 ^ (8 * (b + i)))

/-- The bytes of some pieces, or the queued atomic that must perform first. -/
def loadPieces (s : State) (core : Nat) (sq : List SqE) (useL1 root : Bool) (ps : List Piece) : List Byte ⊕ Nat :=
  let cells : List (Byte ⊕ Nat) := ps.flatMap (fun p => (List.range p.len).map (fun i =>
    match sqLook sq (byteKey p.place i) with
    | some v => v
    | none => .inl (placeByte s core useL1 root p.place i)))
  match cells.findSome? (fun c => match c with | .inr id => some id | .inl _ => none) with
  | some id => .inr id
  | none => .inl (cells.map (fun c => match c with | .inl b => b | .inr _ => 0))

/-- Physical runs (address, length, NC) among some pieces; a replicated page gives its nearest replica's. -/
def physRuns (s : State) (ps : List Piece) : List (Nat × Nat × Bool) :=
  ps.filterMap (fun p =>
    match p.place with
    | .phys a nc => some (a, p.len, nc)
    | .repl _ reps off =>
      let r := nearest s reps
      some (pkgAddr s r.1 (r.2 + off), p.len, false)
    | _ => none)

/-- The group whose migration blocks a line of some runs (R289). -/
def blockedBy (s : State) (rs : List (Nat × Nat × Bool)) : Option Nat :=
  (s.coh.migs.find? (fun m => rs.any (fun r => migLine m (lineOf r.1)))).map (·.uid)

/-- Merges that an access of a core calls for (R309). -/
def mergeRuns (core : Nat) (rs : List (Nat × Nat × Bool)) : Eff :=
  Eff.forEach rs (fun r => mergeFor core r.1 r.2.1)

/-- A physical address lies behind a CXL port whose device has been removed (R442). -/
def portGone (s : State) (a : Nat) : Bool :=
  decide (0x100000000000 ≤ a) && decide (a < 0x800000000000) && s.coh.removed.contains ((a - 0x100000000000) / 0x18000000000)

/-- A run behind a removed port. -/
def goneRun (s : State) (rs : List (Nat × Nat × Bool)) : Option Nat :=
  (rs.find? (fun r => portGone s r.1)).map (fun r => lineOf r.1)

/-- A run's line is marked poisoned outside the L1s (R376), or its device is gone. -/
def badHome (s : State) (a : Nat) : Bool := (mfind s.coh.poison (lineOf a)).isSome || portGone s a

/-- A line read at its home is marked poisoned (R376), or its device is gone. -/
def poisoned (s : State) (rs : List (Nat × Nat × Bool)) : Option Nat :=
  (rs.find? (fun r => badHome s r.1)).map (fun r => lineOf r.1)

/-- A core's copy of a line in its L1, privatised or not, carries an error. -/
def badCopy (s : State) (core line : Nat) : Bool :=
  ((mfind (getCore s core).l1 line).map (·.poison)).getD false || ((privOwn s core line).map (·.poison)).getD false

/-- A line that a load reads carries an error (R376): in the core's L1, where that serves it, else at its home. -/
def poisonedLoad (s : State) (core : Nat) (useL1 : Bool) (rs : List (Nat × Nat × Bool)) : Option Nat :=
  (rs.find? (fun r => if useL1 && servedL1 s core r.1 then badCopy s core (lineOf r.1) else badHome s r.1)).map
    (fun r => lineOf r.1)

/-- What a load's miss does: a fill of the length its qualifier names (R259), or an uncached read. -/
def missEffect (core frank span : Nat) (alloc : Bool) (tags : Map Nat) (r : Nat × Nat × Bool) : Eff := fun s =>
  if l1Hit s core (lineOf r.1) && alloc then []
  else
    Eff.seq (dropStale core (lineOf r.1))
      (if alloc then requestFill core (lineOf r.1) span r.2.2 tags frank else countRead frank r.1 r.2.1) s

/-! ## Performing (R295) -/

/-- The physical cells that an item stores, with its page's NC mark. -/
def itemCells (it : SqItem) : List (Bool × Host.Cell) :=
  let rec go : List Piece → List Byte → List (Bool × Host.Cell)
    | [], _ => []
    | p :: ps, bs =>
      (match p.place with
       | .phys a nc => (cellsAt a (bs.take p.len)).map (fun c => (nc, c))
       | _ => []) ++ go ps (bs.drop p.len)
  go it.pieces (toBytes (keysOf it.pieces).length it.data.toNat)

/-- A queue entry's release may perform: earlier writes are performed at its scope (R299). -/
def relReady (s : State) (rel : Nat) : Bool :=
  (decide (rel < 5) || s.coh.homeq.isEmpty) && (decide (rel < 10) || s.coh.reps.isEmpty)

/-- Every earlier store of a queue is performed at a scope (R299). -/
def drained (s : State) (sq : List SqE) (scope : Nat) : Bool := sq.isEmpty && relReady s scope

/-- The lines at which the replica that this package's loads take is written. -/
def replicaLines (s : State) (ps : List Piece) : List Nat :=
  ps.flatMap (fun p =>
    match p.place with
    | .repl _ reps off => replLines s reps off p.len
    | _ => [])

/-- That replica has applied, for every replicated piece, what the root has ordered for it before. -/
def replsNow (s : State) (ps : List Piece) : Bool :=
  ps.all (fun p =>
    match p.place with
    | .repl _ reps _ => replNow s reps
    | _ => true)

/-- The lines at which some pieces are written. -/
def pieceLines (s : State) (ps : List Piece) : List Nat :=
  ps.flatMap (fun p =>
    match p.place with
    | .phys a _ => linesOf a p.len
    | .repl _ reps off => replLines s reps off p.len
    | _ => [])

/-- The homes of some pieces are ready for a writer (R259, R307, R308). -/
def piecesReady (s : State) (k : Writer) (ps : List Piece) : Bool :=
  replsNow s ps && (pieceLines s ps).all (lineReady s k)

/-- A writer has still to arrive at some of those homes. -/
def piecesClaim (s : State) (k : Writer) (ps : List Piece) : Bool := !(toClaim s k (pieceLines s ps)).isEmpty

/-- It arrives there. -/
def claimPieces (k : Writer) (ps : List Piece) : Eff := fun s => claimLines k (pieceLines s ps) s

/-- What a writer does at its homes: its effect when they are ready, else its arrival there; none while it waits. -/
def whenReady (s : State) (k : Writer) (ps : List Piece) (eff : Eff) : Option Eff :=
  if piecesReady s k ps then some eff else if piecesClaim s k ps then some (claimPieces k ps) else none

/-- Bytes of a write to a replicated page counted: over the links to the root and to each replica, and at this package's own frame
(R277, R411). -/
def countRepl (frank : Nat) (reps : List (Nat × Nat)) (off n : Nat) : Eff :=
  Eff.seq (count frank 13 (n * (reps.length + 1))) (fun s =>
    Eff.forEach (reps.filter (fun r => r.1 == ownPkg s)) (fun r => countAt frank (r.2 + off) n) s)

/-- Bytes written to the place of one piece, uncached. -/
def writePiece (k : Writer) (core uid frank : Nat) (p : Piece) (bs : List Byte) : Eff := fun s =>
  match p.place with
  | .spad c o => [.spad (cellsAt (spadKey c o) bs)]
  | .phys a nc => storeCells core uid frank nc true (cellsAt a bs) s
  | .repl _ reps off => Eff.seq (replWrite k reps off bs) (countRepl frank reps off bs.length) s
  | .counter _ _ => []

/-- Bytes written over some pieces, in order. -/
def writePieces (k : Writer) (core uid frank : Nat) : List Piece → List Byte → Eff
  | [], _ => Eff.nop
  | p :: ps, bs =>
    Eff.seq (writePiece k core uid frank p (bs.take p.len)) (writePieces k core uid frank ps (bs.drop p.len))

/-- Bytes of an engine written at their places and homes, performed at package scope (log entry 27). -/
def engineWrite (k : Writer) (frank : Nat) : List Piece → List Byte → Eff
  | [], _ => Eff.nop
  | p :: ps, bs =>
    let b := bs.take p.len
    Eff.seq
      (match p.place with
       | .spad c o => fun _ => [.spad (cellsAt (spadKey c o) b)]
       | .phys a _ => Eff.seq (writeThrough k (cellsAt a b)) (countAt frank a b.length)
       | .repl _ reps off => Eff.seq (replWrite k reps off b) (countRepl frank reps off b.length)
       | .counter _ _ => Eff.nop)
      (engineWrite k frank ps (bs.drop p.len))

/-- Bytes of a package unit written for a launch: they reach their homes, or the root switch, and perform there in their order. -/
def unitWrite (frank : Nat) (p : Place) (bs : List Byte) : Eff :=
  match p with
  | .phys a _ => unitCells frank (cellsAt a bs)
  | .repl _ reps off => Eff.seq (replOrder reps off bs) (countRepl frank reps off bs.length)
  | _ => Eff.nop

/-- The newest value of a piece in its bytes' coherence order: what an atomic reads (R296). -/
def newestBytes (s : State) (core : Nat) (p : Piece) : List Byte :=
  match p.place with
  | .spad c o => readBytes s.spad (spadKey c o) p.len
  | .phys a _ => (List.range p.len).map (fun i => (privByte s core (a + i)).getD (lastByte s (a + i)))
  | .repl _ reps off => replValue s reps off p.len
  | .counter r b => (List.range p.len).map (fun i => BitVec.ofNat 8 (countOf s r / 2 ^ (8 * (b + i))))

/-- The new value of an atomic at a type (R264). -/
def atomVal (op : Nat) (ty : Ty) (old x : Nat) : Nat :=
  let w := tyWidth ty
  let fadd (t : Ty) (a b : Nat) : Nat := roundF (fmtOf t) .rne (FVal.add (fVal t a) (fVal t b))
  match op with
  | 0 => (old + x) % 2 ^ w
  | 1 => if intVal ty x < intVal ty old then x % 2 ^ w else old
  | 2 => if intVal ty old < intVal ty x then x % 2 ^ w else old
  | 3 => Nat.land old x % 2 ^ w
  | 4 => Nat.lor old x % 2 ^ w
  | 5 => Nat.xor old x % 2 ^ w
  | 6 => x % 2 ^ w
  | _ =>
    if tyPacked ty then
      let t := if ty == .f16x2 then Ty.f16 else Ty.bf16
      fadd t (half16 old 0) (half16 x 0) + 2 ^ 16 * fadd t (half16 old 1) (half16 x 1)
    else fadd ty old x

/-- The old value that a root switch returns crosses the issuer's link (R277, R411). -/
def countOld (frank : Nat) (kind : SqKind) (ps : List Piece) : Eff :=
  let returns := match kind with
    | .atomic _ _ d => d.isSome
    | .cas _ _ => true
    | _ => false
  Eff.when returns (Eff.forEach ps (fun p =>
    match p.place with
    | .repl _ _ _ => count frank 13 p.len
    | _ => Eff.nop))

/-- A cas that fails is served at its tier all the same, or crosses the link to its root (R277, R411). -/
def casCount (frank : Nat) (ps : List Piece) : Eff :=
  Eff.forEach ps (fun p =>
    match p.place with
    | .phys a _ => countAt frank a p.len
    | .repl _ _ _ => count frank 13 p.len
    | _ => Eff.nop)

/-- One lane's atomic or cas, performed: its writes, with the value it found. -/
def atomItem (k : Writer) (core uid frank : Nat) (kind : SqKind) (it : SqItem) : State → List Upd × Nat := fun s =>
  let rs := physRuns s it.pieces
  let us := Eff.all [mergeRuns core rs, Eff.forEach rs (fun r => dropOld core (lineOf r.1)), countOld frank kind it.pieces] s
  let s1 := applyAll us s
  let bs := it.pieces.flatMap (newestBytes s1 core)
  let old := ofBytes bs
  let put (v : Nat) : List Upd := writePieces k core uid frank it.pieces (toBytes bs.length v) s1
  match kind with
  | .atomic op ty _ => (us ++ put (atomVal op ty old it.data.toNat), old)
  | .cas ty _ => (us ++ (if old == it.cmp.toNat % 2 ^ tyWidth ty then put it.data.toNat else casCount frank it.pieces s1), old)
  | _ => (us, old)

/-- The lanes of an atomic or cas one at a time, ascending (R266). -/
def atomItems (k : Writer) (core uid frank : Nat) (kind : SqKind) : List SqItem → State → List Upd × List (Nat × Nat)
  | [], _ => ([], [])
  | it :: rest, s =>
    let r := atomItem k core uid frank kind it s
    let r' := atomItems k core uid frank kind rest (applyAll r.1 s)
    (r.1 ++ r'.1, (it.lane, r.2) :: r'.2)

/-- An element of a register takes the value of an outstanding result, unless a later outstanding write to it
stands (R47). -/
def lateElem (fresh : Nat) (later : List Out) (reg : Reg) (lane half v : Nat) (r : Regs) : Regs :=
  if later.any (fun o => outCovers o reg lane) && Config.hazardPick fresh (elemCode reg lane half) % 2 == 0
  then r else setElem r reg lane half v

/-- A value of a type written to a register of a lane, or to a k register (R36, R269). -/
def lateWrite (fresh : Nat) (later : List Out) (ty : Ty) (dst : Reg) (lane v : Nat) (r : Regs) : Regs :=
  match dst with
  | .v n =>
    let r := lateElem fresh later (.v n) lane 0 (v % 2 ^ 32) r
    if tyIs64 ty then lateElem fresh later (.v (n + 1)) lane 0 (v / 2 ^ 32) r else r
  | .q n =>
    let r := lateElem fresh later (.q n) lane 0 (v % 2 ^ 32) r
    if tyIs64 ty then lateElem fresh later (.q (n + 1)) lane 0 (v / 2 ^ 32) r else r
  | d => lateElem fresh later d 0 1 (v / 2 ^ 32) (lateElem fresh later d 0 0 (v % 2 ^ 32) r)

/-- The old values of an atomic reach its destination. -/
def atomResults (id fresh : Nat) (kind : SqKind) (olds : List (Nat × Nat)) (g : Group) : Group :=
  let dt : Option (Reg × Ty) := match kind with
    | .atomic _ ty (some d) => some (d, ty)
    | .cas ty d => some (d, ty)
    | _ => none
  match dt with
  | none => g
  | some (d, ty) =>
    let later := (g.u.outs.dropWhile (fun o => o.sq != some id)).drop 1
    let regs := olds.foldl (fun r e => lateWrite fresh later ty d e.1 e.2 r) g.u.regs
    let outs := g.u.outs.map (fun o => if o.sq == some id then { o with sq := none } else o)
    { g with u := { g.u with regs := regs, outs := outs } }

/-- The lines of an entry still wait at their homes for the core. -/
def linesWait (s : State) (core : Nat) (ls : List Nat) : Bool :=
  s.coh.homeq.any (fun w => w.core == core && ls.contains w.line)

/-- The lines that an entry's items meet. -/
def entryLines (s : State) (e : SqE) : List Nat :=
  e.items.flatMap (fun it => (physRuns s it.pieces).map (fun r => lineOf r.1))

/-- The head of a store queue may leave it (R261, R271, R299): an atomic reads the write before its own, so none may wait at
its home (R296); a replicated page's own replica must be free of leases. -/
def headReady (s : State) (core : Nat) (e : SqE) : Bool :=
  relReady s e.rel &&
  e.items.all (fun it => replsNow s it.pieces && (replicaLines s it.pieces).all (lineReady s (.entry e.id))) &&
  match e.kind with
  | .store => true
  | .writeBack ls => !linesWait s core ls
  | .hold _ => false
  | _ => (entryLines s e).all (fun l => !homeWaits s l && !lineBlocked s l)

/-- The lines of its replica at whose homes the head of a store queue has still to arrive. -/
def headClaims (s : State) (e : SqE) : List Nat :=
  toClaim s (.entry e.id) (e.items.flatMap (fun it => replicaLines s it.pieces))

/-- The stores of an entry, all lanes' bytes of a line as one write of it (R376). -/
def storeEntry (core uid : Nat) (e : SqE) : Eff :=
  let cells := e.items.flatMap itemCells
  let other (p : Piece) : Bool :=
    match p.place with
    | .phys _ _ => false
    | _ => true
  Eff.all
    [Eff.forEach e.items (fun it => fun s => mergeRuns core (physRuns s it.pieces) s),
     storeCells core uid e.frank false false ((cells.filter (fun c => !c.1)).map (·.2)),
     storeCells core uid e.frank true false ((cells.filter (·.1)).map (·.2)),
     Eff.when (e.items.any (fun it => it.pieces.any other)) (Eff.forEach e.items (fun it =>
       let rec go : List Piece → List Byte → Eff
         | [], _ => Eff.nop
         | p :: ps, bs =>
           Eff.seq (if other p then writePiece (.entry e.id) core uid e.frank p (bs.take p.len) else Eff.nop)
             (go ps (bs.drop p.len))
       go it.pieces (toBytes (keysOf it.pieces).length it.data.toNat)))]

/-- The head of a group's store queue performs and leaves the queue. A scratchpad store met R226's test where it issued; a copy
of its window that comes later begins when it has left (forkDone). -/
def performHead (place : Nat) : Eff := fun s =>
  match mfind s.groups place with
  | none => []
  | some g =>
    match g.sq with
    | [] => []
    | e :: rest =>
      let core := coreOfG place
      let pop (olds : List (Nat × Nat)) : Eff := fun s =>
        match mfind s.groups place with
        | some g => [.group place (atomResults e.id s.fresh e.kind olds { g with sq := rest }), .fresh (s.fresh + 1)]
        | none => []
      match e.kind with
      | .store => Eff.seq (storeEntry core g.uid e) (pop []) s
      | .writeBack _ => pop [] s
      | .hold _ => pop [] s
      | k =>
        let r := atomItems (.entry e.id) core g.uid e.frank k e.items s
        r.1 ++ pop r.2 (applyAll r.1 s)

end Sys2Proof.Machine
end

