-- ==== Sys2Proof/Machine/Copies.lean ====
section
/-! DEFINITION. What a copy of a window moves (09: R221, R222, R228, R230, R248; 03: R82). -/

namespace Sys2Proof.Machine

/-- The party that no group or stream is: engines and package units (R285). -/
def engineParty : Nat := 2 ^ 70

/-- A block's launch runs in user mode (R369). -/
def blkUser (s : State) (b : Block) : Bool :=
  match mfind s.mail.launches b.launch with
  | some l => !l.priv
  | none => true

/-- An engine of a block as the maker of an access (R286, R293). -/
def engineWho (s : State) (blk : Nat) (b : Block) : Who :=
  { party := engineParty, blk := blk, core := b.core, part := b.part, slot := lowSlot s blk, tctx := b.tctx
    asid := fld b.tctx 11 0, frank := frankOfBlk s blk, launch := b.launch, user := blkUser s b, pbase := 0, psize := 0 }

/-! ## One access of a courier -/

/-- Stands for an access to a removed CXL device: the machine check ECC of the copy's launch (R442). -/
def portCause : Nat := 256 + 18

/-- A courier's access: the piece it reaches, or a failure's cause, or a wait for a merge table. -/
def courierReach (s : State) (w : Who) (a : Acc) (addr n : Nat) : ERes ⊕ Unit :=
  if addr ≥ 2 ^ 56 then .inl (.fails 6 Eff.nop)
  else
    match counterOf s w.asid addr with
    | some r => if a.writes then .inl (.fails 9 Eff.nop) else .inl (.ok (.counter r (addr % 8)) Eff.nop)
    | none => if n = 0 then .inr () else .inl (engineTranslate s w a addr)

/-- The value of n bytes at an address as a courier reads them, with the updates, or a failure's cause; none
when it must wait. -/
def courierRead (s : State) (w : Who) (addr n : Nat) : Option (List Upd × (Nat ⊕ Nat)) :=
  match courierReach s w .cread addr n with
  | .inr _ => some ([], .inl 0)
  | .inl .waits => none
  | .inl (.fails c eff) => some (eff s, .inr c)
  | .inl (.ok p eff) =>
    let ps : List Piece := [{ place := p, len := n }]
    let us := Eff.seq eff (Eff.seq (mergeRuns w.core (physRuns s ps))
      (Eff.forEach (physRuns s ps) (fun r => countRead w.frank r.1 n))) s
    let s1 := applyAll us s
    if (blockedBy s1 (physRuns s1 ps)).isSome then none
    else if (goneRun s1 (physRuns s1 ps)).isSome then some (us, .inr portCause)
    else if (poisoned s1 (physRuns s1 ps)).isSome then some (us, .inr 18)
    else some (us, .inl (ofBytes ((List.range n).map (placeByte s1 w.core false false p))))

/-- The values of a unit's reads. -/
def readsOf (w : Who) : List (Nat × Nat) → State → Option (List Upd × (List Nat ⊕ Nat))
  | [], _ => some ([], .inl [])
  | r :: rs, s =>
    match courierRead s w r.1 r.2 with
    | none => none
    | some (us, .inr c) => some (us, .inr c)
    | some (us, .inl v) =>
      match readsOf w rs (applyAll us s) with
      | none => none
      | some (us', .inr c) => some (us ++ us', .inr c)
      | some (us', .inl vs) => some (us ++ us', .inl (v :: vs))

/-- How a copy has gone: updates, the payload bytes known moved, the cause that stopped it. -/
structure CopyEnd where
  us    : List Upd
  good  : Nat
  cause : Option Nat
  deriving Repr

/-- What a copy-out writes at an address: whole bytes, or one nibble of a byte whose other nibble stays (R228). -/
inductive OutW
  | bytes (bs : List Byte)
  | nib (high : Bool) (v : Nat)

/-- The bytes written, of those that stand in memory. -/
def OutW.over (w : OutW) (old : List Byte) : List Byte :=
  match w with
  | .bytes bs => bs
  | .nib high v =>
    let o := (old.headD 0).toNat
    [BitVec.ofNat 8 (if high then o % 16 + 16 * (v % 16) else o / 16 * 16 + v % 16)]

/-- How many. -/
def OutW.len (w : OutW) : Nat :=
  match w with
  | .bytes bs => bs.length
  | .nib _ _ => 1

/-- A courier's write at an address; it waits until the home is ready for it (R307, R308). -/
def courierWrite (k : Writer) (s : State) (w : Who) (addr : Nat) (o : OutW) : Option (List Upd × Option Nat) :=
  match courierReach s w .cwrite addr o.len with
  | .inr _ => some ([], none)
  | .inl .waits => none
  | .inl (.fails c eff) => some (eff s, some c)
  | .inl (.ok p eff) =>
    let ps : List Piece := [{ place := p, len := o.len }]
    if (goneRun s (physRuns s ps)).isSome then some (eff s, some portCause)
    else if !piecesReady s k ps then none
    else
      some (Eff.all
        [eff, mergeRuns w.core (physRuns s ps),
         fun s => engineWrite k w.frank ps (o.over (newestBytes s w.core { place := p, len := o.len })) s] s, none)

/-- What a copy-out unit writes: each element's own, an element of 4 bits its own nibble. -/
def outBytes (s : State) (x : Win) (base : Nat) (u : CUnit) : List (Nat × OutW) :=
  let here := readBytes s.spad (base + u.off) u.len
  if layEbits x.layout = 4 && u.len = 1 then
    let v := (here.headD 0).toNat
    let one (e : Option (Nat × Nat)) (v : Nat) : List (Nat × OutW) :=
      match e with
      | some (b, c0) => [(b + c0 / 2, .nib (c0 % 2 == 1) v)]
      | none => []
    match elemAt x (2 * u.off), elemAt x (2 * u.off + 1) with
    | some (b, c0), some (b', c1) =>
      if c0 % 2 = 0 && b + c0 / 2 = b' + c1 / 2 then [(b + c0 / 2, .bytes here)]
      else one (some (b, c0)) (v % 16) ++ one (some (b', c1)) (v / 16)
    | lo, hi => one lo (v % 16) ++ one hi (v / 16)
  else u.reads.map (fun r => (r.1, .bytes here))

/-- The writes of one unit, in order. -/
def writesOf (k : Writer) (w : Who) : List (Nat × OutW) → State → Option (List Upd × Option Nat)
  | [], _ => some ([], none)
  | r :: rs, s =>
    match courierWrite k s w r.1 r.2 with
    | none => none
    | some (us, some c) => some (us, some c)
    | some (us, none) =>
      match writesOf k w rs (applyAll us s) with
      | none => none
      | some (us', c) => some (us ++ us', c)

/-- One unit of a copy: its bytes read and written, or the cause that stops the courier; none when a walk must wait. -/
def unitStep (k : Writer) (w : Who) (x : Win) (base : Nat) (out : Bool) (u : CUnit) (s : State) : Option (List Upd × Option Nat) :=
  if out then writesOf k w (outBytes s x base u) s
  else
    match readsOf w u.reads s with
    | none => none
    | some (us, .inr c) => some (us, some c)
    | some (us, .inl vs) => some (us ++ [.spad (cellsAt (base + u.off) (u.make vs))], none)

/-- Units in order up to the first that fails (R228). -/
def copyUnits (k : Writer) (w : Who) (x : Win) (base : Nat) (out : Bool) : List CUnit → State → Option CopyEnd
  | [], _ => some { us := [], good := winPayload x, cause := none }
  | u :: rest, s =>
    match unitStep k w x base out u s with
    | none => none
    | some (us, some c) => some { us := us, good := u.off, cause := some c }
    | some (us, none) =>
      match copyUnits k w x base out rest (applyAll us s) with
      | none => none
      | some e => some { e with us := us ++ e.us }

/-- A unit can be moved. -/
def unitOk (k : Writer) (w : Who) (x : Win) (base : Nat) (out : Bool) (s : State) (u : CUnit) : Bool :=
  match unitStep k w x base out u s with
  | some (_, none) => true
  | _ => false

/-- A unit fails. -/
def unitFails (k : Writer) (w : Who) (x : Win) (base : Nat) (out : Bool) (s : State) (u : CUnit) : Bool :=
  match unitStep k w x base out u s with
  | some (_, some _) => true
  | _ => false

/-- The lowest window byte of some units, the payload when there is none: every payload byte below it is written when these are
the units not moved. The gap before the scales holds nothing to write and counts as written (log entry 22). -/
def firstOff (x : Win) (l : List CUnit) : Nat := (l.map (·.off)).foldl min (winPayload x)

/-- A copy that meets a failure: the courier takes the units in any order, so which of the failing ones stops it and which
others it had moved are open; BYTES ends below the first unit not moved (R228; log entry 22). -/
def stoppedCopy (k : Writer) (w : Who) (x : Win) (base : Nat) (out : Bool) (left : List CUnit) (e : CopyEnd) (s : State) : Option CopyEnd :=
  let moves (u : CUnit) : Bool := unitOk k w x base out s u && Config.copyTail s.fresh u.off
  let bad := left.filter (unitFails k w x base out s)
  match bad[Config.copyDone s.fresh % bad.length]? with
  | none => some e
  | some u =>
    (copyUnits k w x base out (left.filter moves ++ [u]) s).map (fun e => { e with
      good := firstOff x (left.filter (fun u => !moves u)) })

/-- A window's copy to its end, when it has moved some units already. -/
def copyAll (k : Writer) (w : Who) (x : Win) (base : Nat) (out : Bool) (moved : List Nat) (s : State) : Option CopyEnd :=
  match copyUnits k w x base out (unitsLeft x moved) s with
  | none => none
  | some e => if e.cause.isNone then some e else stoppedCopy k w x base out (unitsLeft x moved) e s

/-- The places that the writes of some units reach, as far as they translate. -/
def outPieces (s : State) (w : Who) (x : Win) (base : Nat) (us : List CUnit) : List Piece :=
  (us.flatMap (outBytes s x base)).filterMap (fun r =>
    match courierReach s w .cwrite r.1 r.2.len with
    | .inl (.ok p _) => some { place := p, len := r.2.len }
    | _ => none)

/-! ## Cancelled copies (R225, R248) -/

/-- Where a cancelled copy-out finds a byte of a piece that it completes: no wait and no record comes of it. -/
def outReach (s : State) (w : Who) (addr : Nat) : Option Place :=
  if addr ≥ 2 ^ 56 || (counterOf s w.asid addr).isSome then none
  else
    let e := match tlbFind s w.core w.asid addr with
      | some e => some e
      | none =>
        match walk s w.tctx w.asid addr with
        | .leaf e _ => some e
        | .unmapped => none
    e.bind (fun e => if (denyCause s e .cwrite w.user).isNone && !badPort s (placeOf s e addr) then some (placeOf s e addr) else none)
where
  /-- The place lies behind a port whose device is gone. -/
  badPort (s : State) (p : Place) : Bool :=
    match p with
    | .phys a _ => portGone s a
    | _ => false

/-- A write of a cancelled copy-out reaches its home and performs there in its order. -/
def outFinish (w : Who) (r : Nat × OutW) : Eff := fun s =>
  match outReach s w r.1 with
  | some p => unitWrite w.frank p (r.2.over (newestBytes s w.core { place := p, len := r.2.len })) s
  | none => []

/-- A copy in a courier is cancelled: what it had moved before it stopped stays, of a copy-out whole 64-byte pieces, each that it
had begun included (R225, R248); the payload below the first unit not moved is known written (R229). A copy still in the queue
has moved nothing. -/
def cancelledAt (s : State) (blk : Nat) (b : Block) (w : Nat) : CopyEnd :=
  let x := getWin b w
  let base := blkByte b x.off
  let who := engineWho s blk b
  match courierOf s b.core blk w with
  | none => { us := [], good := 0, cause := none }
  | some (n, j) =>
    let left := unitsLeft x j.moved
    if x.state == .copyout then
      let begun := ((unitsOf x).zipIdx.filter (fun e => j.moved.contains e.2)).flatMap (fun e =>
        (outBytes s x base e.1).map (·.1 / 64))
      let sel (r : Nat × OutW) : Bool :=
        begun.contains (r.1 / 64) || (Config.copyTail s.fresh (r.1 / 64) && (outReach s who r.1).isSome)
      { us := Eff.forEach ((left.flatMap (outBytes s x base)).filter sel) (outFinish who) s
        good := firstOff x (left.filter (fun u => !(outBytes s x base u).all sel)), cause := none }
    else
      let moves (u : CUnit) : Bool := unitOk (.courier b.core n) who x base false s u && Config.copyTail s.fresh u.off
      match copyUnits (.courier b.core n) who x base false (left.filter moves) s with
      | some e => { e with good := firstOff x (left.filter (fun u => !moves u)), cause := none }
      | none => { us := [], good := firstOff x left, cause := none }

end Sys2Proof.Machine
end

