-- ==== Sys2Proof/Machine/Barriers.lean ====
section
/-! DEFINITION. Barriers: names, arrivals, generations, ends of members, the checker (07: R195, R196; 14: R329
to R337). A barrier's key is its number for a numbered barrier, 16 + 256 * cluster + i for a cluster barrier
and 16 + 1536 + i for a package barrier. -/

namespace Sys2Proof.Machine

/-- The barrier an operand names, by its key (R329); none raises BARRIER. -/
def barKeyOf (core v : Nat) : Option Nat :=
  if v < 16 then some v
  else if 0x100 ≤ v && v < 0x200 then some (16 + 256 * clusterOf core + (v - 0x100))
  else if 0x200 ≤ v && v < 0x240 then some (16 + 1536 + (v - 0x200))
  else none

/-- The operand that names a key (R390). -/
def barOperand (key : Nat) : Nat :=
  if key < 16 then key else if key < 16 + 1536 then 0x100 + (key - 16) % 256 else 0x200 + (key - 16 - 1536)

/-- Scope of a barrier's release (R329). -/
def barScope (key : Nat) : Nat := if key < 16 then 3 else if key < 16 + 1536 then 8 else 9

/-- A barrier as a block's parties see it. -/
def barAt (s : State) (blk key : Nat) : Bar :=
  if key < 16 then
    match mfind s.blocks blk with
    | some b => mget {} b.nbars key
    | none => {}
  else getBar s (key - 16)

/-- A barrier changed. -/
def setBar (blk key : Nat) (x : Bar) : Eff := fun s =>
  if key < 16 then
    match mfind s.blocks blk with
    | some b => [.block blk { b with nbars := mput b.nbars key x }]
    | none => []
  else [.bar (key - 16) x]

/-- The party of a group and of a stream. -/
def groupParty (uid : Nat) : Nat := 2 * uid
def streamParty (blk : Nat) : Nat := 2 * blk + 1

/-- The current generation is complete (R331): it has begun and every remaining member has arrived. A named barrier left
without members is complete too, and so becomes free. -/
def barDone (key : Nat) (x : BarBase) : Bool :=
  x.members.all (x.arrived.contains ·) && (!x.arrived.isEmpty || (x.members.isEmpty && decide (16 ≤ key)))

/-- What a completion does, in the order of R331: the generation rises, its mark becomes its flag, pending joins and leaves
apply, the joiners' arrivals stand for the generation they join (R337), an empty named barrier becomes free. -/
def barComplete (key : Nat) (x : BarBase) : BarBase :=
  let ms := (x.members ++ x.joins).filter (fun p => !x.leaves.contains p)
  if ms.isEmpty && 16 ≤ key then {}
  else
    { x with gen := (x.gen + 1) % 65536, flag := x.mark, arrived := x.early.filter (ms.contains ·), mark := false
             members := ms, joins := [], leaves := [], early := [] }

/-- The completion test: joiners that have arrived already may complete the generation they join as well. -/
def barSettle (key : Nat) (x : BarBase) : BarBase :=
  if barDone key x then
    let y := barComplete key x
    if !y.arrived.isEmpty && barDone key y then barComplete key y else y
  else x

/-- A party put into a list that has it at most once. -/
def withParty (l : List Nat) (p : Nat) : List Nat := if l.contains p then l else l ++ [p]

/-- An arrival: a pending joiner's counts for the generation it joins (R337). -/
def barArrive (x : BarBase) (p : Nat) : BarBase :=
  if x.joins.contains p && !x.members.contains p then { x with early := withParty x.early p }
  else { x with arrived := withParty x.arrived p }

/-- A leave waits for the generation's completion. -/
def barLeave (x : BarBase) (p : Nat) : BarBase := { x with leaves := withParty x.leaves p }

/-- A member ends (R334): it leaves at once; a generation that has begun without its arrival is marked. -/
def barEnd (x : BarBase) (p : Nat) : BarBase :=
  { x with
    joins := x.joins.filter (· != p), early := x.early.filter (· != p)
    members := x.members.filter (· != p), leaves := x.leaves.filter (· != p)
    mark := x.mark || (x.members.contains p && !x.arrived.isEmpty && !x.arrived.contains p) }

/-- A join of a group of a launch after the completion test: it applies at once where the generation has not begun, and where
the generation before it completed in this cycle (R331, R332); else it is pending. A free barrier is taken. -/
def barJoin (done : Bool) (x : BarBase) (j : Nat × Nat) : BarBase :=
  let x := { x with holder := some (x.holder.getD j.2) }
  if done || x.arrived.isEmpty then { x with members := withParty x.members j.1 } else { x with joins := withParty x.joins j.1 }

/-- What has happened at a barrier at a CYC. -/
def nowAt (cyc : Nat) (x : Bar) : BarNow := if x.now.cyc = cyc then x.now else { cyc := cyc, base := x.toBarBase }

/-- The barrier when the arrivals of a cycle have applied, and when its ends have too. -/
def barReached (n : BarNow) : BarBase := n.lvs.foldl barLeave (n.arrs.foldl barArrive n.base)
def barLeft (n : BarNow) : BarBase := (n.ends.map (·.party)).foldl barEnd (barReached n)

/-- A generation completes at this cycle: an arrival or an end of it, or a leave, brings that about. -/
def barCompletes (key : Nat) (n : BarNow) : Bool :=
  barDone key (barLeft n) && !(n.arrs.isEmpty && n.lvs.isEmpty && n.ends.isEmpty)

/-- The barrier after the events of a cycle in the order of R332: arrivals and leaves, ends, the completion test, joins. A party
that ended in the cycle joins nothing. -/
def barAfter (key : Nat) (n : BarNow) : Bar :=
  let done := barCompletes key n
  let x := if done then barSettle key (barLeft n) else barLeft n
  { (n.jns.filter (fun j => n.ends.all (fun e => e.party != j.1))).foldl (barJoin done) x with now := n }

/-- A party's arrival may be recorded at a CYC: it belongs to a generation that the cycle began with. A second arrival of the
cycle, and one of a party that joined in it, come a cycle later (log entry 71). -/
def mayReach (cyc party : Nat) (x : Bar) : Bool :=
  let n := nowAt cyc x
  x.now.cyc != cyc ||
    (!n.arrs.contains party &&
     (n.base.members.contains party && !n.base.arrived.contains party || n.base.joins.contains party && !n.base.early.contains party))

/-- The word of bar.wait, bar.sync, bar.gen and mbar.wait (R196, R333). -/
def barWord (x : Bar) : DWord := BitVec.ofNat 64 (x.gen * 2 ^ 16 + if x.flag then 1 else 0)

/-- The checker reports an end in a barrier's state when the arrivals of the cycle have applied (R332, R335). -/
def endReported (party : Nat) (x : BarBase) : Bool :=
  x.members.contains party && !x.arrived.contains party && !x.arrived.isEmpty

/-- A BARCHK card (R335, R390). -/
def barchk (core part slot lane frank key reason gen : Nat) (live released : Word) : Eff :=
  emit (coreSrc core part 5) 4 lane slot frank
    (BitVec.ofNat 64 (barOperand key + reason * 2 ^ 16 + gen * 2 ^ 32))
    (BitVec.ofNat 64 (live.toNat + released.toNat * 2 ^ 32))

/-- The keys of the barriers of which a party is a member or a pending joiner. -/
def barsOf (s : State) (blk party : Nat) : List Nat :=
  let has (x : Bar) : Bool := x.members.contains party || x.joins.contains party
  (match mfind s.blocks blk with
   | some b => (b.nbars.filter (fun e => has e.2)).map (·.1)
   | none => []) ++ (s.bars.filter (fun e => has e.2)).map (fun e => e.1 + 16)

/-- A party ends: it leaves every barrier, with the checker's cards (R334, R335). -/
def partyEnd (blk party core part slot : Nat) (live : Word) : Eff := fun s =>
  Eff.forEach (barsOf s blk party) (fun key => fun s =>
    let n := nowAt s.clk.cyc (barAt s blk key)
    let tell := endReported party (barReached n) && party % 2 == 0
    let e : BarEnder :=
      { party := party, core := core, part := part, slot := slot, frank := frankOfBlk s blk, live := live, told := tell || party % 2 == 1 }
    Eff.seq
      (Eff.when tell (barchk core part slot 255 (frankOfBlk s blk) key 1 n.base.gen live 0))
      (setBar blk key (barAfter key { n with ends := n.ends ++ [e] })) s) s

/-- The named barriers a launch holds become free (R334). -/
def freeBars (launch : Nat) : Eff := fun s =>
  (s.bars.filter (fun e => e.2.holder == some launch)).map (fun e => .bar e.1 {})

end Sys2Proof.Machine
end

