-- ==== Sys2Proof/Machine/Blocks.lean ====
section
/-! DEFINITION. Ends and kills of groups, blocks and launches, completion postmarks, machine checks (04: R124,
R125; 09: R247, R248; 15: R351, R365; 16: R376, R377). -/

namespace Sys2Proof.Machine

/-! ## The queue front-end's own accesses -/

/-- A record of the front-end (R286): it names no core. -/
def frontRecord (tctx : DWord) (frank : Nat) (a : Acc) (cause va : Nat) : FaultRec :=
  { kind := if cause = 9 then 2 else 1, va := va, asid := fld tctx 11 0, frank := frank, acc := a.code, part := 0
    slot := 0, core := 1023, lane := 255, count := 0 }

/-- Where the front-end finds a byte, or the cause of a fault. -/
def frontReach (s : State) (tctx : DWord) (a : Acc) (va : Nat) : Place ⊕ Nat :=
  match walkEnd s tctx (fld tctx 11 0) va a false with
  | .inl e => if rootDown s e a then .inr 8 else .inl (placeOf s e va)
  | .inr c => .inr c

/-- A fault record of the front-end is queued: it has no merge entry. -/
def frontFault (tctx : DWord) (frank : Nat) (a : Acc) (cause va : Nat) : Eff := fun s =>
  [.faults { s.faults with pend := s.faults.pend ++ [(6, frontRecord tctx frank a cause va)] }]

/-- Bytes of a place as a package unit reads them. -/
def unitBytes (s : State) (p : Place) (n : Nat) : List Byte :=
  match p with
  | .phys a _ => (List.range n).map (fun i => cohByte s (a + i))
  | .repl _ reps off => replValue s reps off n
  | .spad c o => readBytes s.spad (spadKey c o) n
  | .counter r b => (List.range n).map (fun i => BitVec.ofNat 8 (countOf s r / 2 ^ (8 * (b + i))))

/-- The parts of [va, va + n) in the 64 KiB pages it meets: address and length. -/
def pageRuns (va n : Nat) : List (Nat × Nat) :=
  (List.range (ceilDiv (va % 65536 + n) 65536)).map (fun i =>
    let page := va / 65536 * 65536 + 65536 * i
    (max va page, min (va + n) (page + 65536) - max va page))

/-- Where the front-end finds n bytes at a virtual address, page by page, or the first fault's cause and address. -/
def frontPieces (s : State) (tctx : DWord) (a : Acc) (va n : Nat) : List Piece ⊕ (Nat × Nat) :=
  let reach (r : Nat × Nat) : Place ⊕ Nat := frontReach s tctx a r.1
  match (pageRuns va n).findSome? (fun r =>
    match reach r with
    | .inr c => some (c, r.1)
    | .inl _ => none) with
  | some f => .inr f
  | none =>
    .inl ((pageRuns va n).filterMap (fun r =>
      match reach r with
      | .inl p => some { place := p, len := r.2 }
      | .inr _ => none))

/-- n bytes at a virtual address read by the front-end, or a fault's cause and address. -/
def frontRead (s : State) (tctx : DWord) (va n : Nat) : List Byte ⊕ (Nat × Nat) :=
  match frontPieces s tctx .acq va n with
  | .inl ps => .inl (ps.flatMap (fun p => unitBytes s p.place p.len))
  | .inr f => .inr f

/-- They lie on a page that a migration has blocked at its homes (R289): the front-end's access waits for its end. -/
def frontBlocked (s : State) (tctx : DWord) (a : Acc) (va n : Nat) : Bool :=
  match frontPieces s tctx a va n with
  | .inl ps => (blockedBy s (physRuns s ps)).isSome
  | .inr _ => false

/-- Its read counted at their tiers (R411). -/
def countFront (frank : Nat) (tctx : DWord) (va n : Nat) : Eff := fun s =>
  match frontPieces s tctx .acq va n with
  | .inl ps => Eff.forEach (physRuns s ps) (fun r => countRead frank r.1 r.2.1) s
  | .inr _ => []

/-! ## Cards of the front-end (R390, R471) -/

/-- QUEUE and SEQ of a launch's cards. -/
def queueP0 (l : Launch) : Nat := l.queue + l.seq * 2 ^ 16

/-- A card of the front-end about a launch. -/
def launchCard (ty : Nat) (l : Launch) (more : Nat) (p1 : DWord) : Eff :=
  emit (pkgSrc 7) ty 255 0 (frankOf l) (BitVec.ofNat 64 (queueP0 l + more)) p1

/-! ## Launch postmarks (R351) -/

/-- A launch-completion postmark. -/
def launchMark (seq status code refuse : Nat) : DWord :=
  BitVec.ofNat 64 (seq * 2 ^ 48 + status * 2 ^ 40 + code * 2 ^ 32 + refuse)

/-- MCSTAT with a machine check recorded. -/
def mcWith (old : DWord) (cause unit core : Nat) : DWord :=
  BitVec.ofNat 64 (fld old 63 48 * 2 ^ 48 + cause * 2 ^ 40 + unit * 2 ^ 32 + core * 2 ^ 22)

/-- What a machine check leaves besides the kill (R377): MCSTAT, the MCHK card, the host event. -/
def checkNote (frank cause unit core : Nat) (src : Src387) (addr : DWord) : Eff := fun s =>
  let v := mcWith s.idn.mcstat cause unit core
  Eff.all [fun _ => [.ident .mcstat v], emit src 19 255 0 frank v addr, hostEvent 0] s

/-- The postmark is stored at COMPL, if there is one; a fault is recorded and nothing else changes. Behind a CXL port whose device
has been removed it is not written: a machine check of a launch that has nothing left to kill (R442; log entry 64). -/
def storeMark (l : Launch) (v : DWord) : Eff := fun s =>
  let a := (l.pkt.getD 10 0).toNat
  let tctx := (getQueue s l.queue).tctx
  if a = 0 then []
  else
    match frontReach s tctx .store (a % 2 ^ 56) with
    | .inl p =>
      match goneRun s (physRuns s [{ place := p, len := 8 }]) with
      | some line => checkNote (frankOf l) 18 7 0 (pkgSrc 7) (BitVec.ofNat 64 (line * 128)) s
      | none => unitWrite (frankOf l) p (toBytes 8 v.toNat) s
    | .inr c => frontFault tctx (frankOf l) .store c (a % 2 ^ 56) s

/-- A launch leaves: its reserve is freed, and what the front-end was held for. -/
def dropLaunch (n : Nat) : Eff :=
  Eff.seq (fun s => [.mail { s.mail with launches := mdel s.mail.launches n }]) (unholdFor n)

/-! ## Groups and blocks -/

/-- Every write that waits at a home or at a replica performs: the copies it waits for are given up (log entry 27). -/
def flushHomes : Eff :=
  Eff.seq
    (fun s => Eff.forEach s.coh.homeq (fun w => Eff.seq (dropLines [w.line]) (homePerform w)) s)
    (fun s => Eff.forEach s.coh.reps (fun r => Eff.seq (fun s => [.coh { s.coh with reps := s.coh.reps.drop 1 }])
      (forceWrite r.2)) s)

/-- The head of a store queue performs now, what its release covers before it. -/
def forceHead (place : Nat) : Eff := fun s =>
  match mfind s.groups place with
  | some g => Eff.seq (Eff.when (g.sq.any (fun e => !relReady s e.rel)) flushHomes) (performHead place) s
  | none => []

/-- Every entry of a store queue performs (R125, R306). -/
def drainQueue (place : Nat) : Eff := fun s =>
  match mfind s.groups place with
  | some g => Eff.all (g.sq.map (fun _ => forceHead place)) s
  | none => []

/-- Merge entries that a block's accesses opened close (R285). -/
def closeMerges (blk : Nat) : Eff := fun s =>
  (s.clusters.filter (fun e => e.2.merge.any (fun m => m.blk == blk))).map (fun e =>
    .cluster e.1 { e.2 with merge := e.2.merge.filter (fun m => m.blk != blk) })

/-- A COPY card (R390). -/
def copyCard (blk : Nat) (b : Block) (courier w : Nat) (j : CopyJob) (event payload : Nat) (p1 : DWord) : Eff :=
  fun s =>
    emit (coreSrc b.core 0 (2 + courier)) 5 255 (lowSlot s blk) (frankOfBlk s blk)
      (BitVec.ofNat 64 (w + (if j.out then 1 else 0) * 2 ^ 6 + (if j.ra then 1 else 0) * 2 ^ 7 + event * 2 ^ 8 +
        payload * 2 ^ 32)) p1 s

/-- A COPYIN or COPYOUT copy is cancelled with a postmark (R225, R247, R248): BYTES ends below the first unit that it had
not moved (log entry 22). -/
def cancelCopy (blk w : Nat) : Eff := fun s =>
  match mfind s.blocks blk with
  | none => []
  | some b =>
    let x := getWin b w
    let job := courierOf s b.core blk w
    let ra := match job with
      | some (_, j) => if j.ra then 1 else 0
      | none => 0
    let e := cancelledAt s blk b w
    let v := postmark x.seq 3 0 (if x.state == .copyout then 1 else 0) ra w e.good
    Eff.all
      [fun _ => e.us,
       fun s => [.fresh (s.fresh + 1)],
       dropCopy b.core blk w,
       writePostmark b x v,
       match job with
       | some (n, j) => copyCard blk b n w j 1 (winPayload x) v
       | none => Eff.nop] s

/-- A RUNAHEAD copy is cancelled silently (R225). -/
def cancelRunahead (blk w : Nat) : Eff := fun s =>
  match mfind s.blocks blk with
  | none => []
  | some b => Eff.all [fun s => (cancelledAt s blk b w).us, fun s => [.fresh (s.fresh + 1)], dropCopy b.core blk w] s

/-- An entry becomes UNBOUND (R247). -/
def unbindWin (blk w : Nat) : Eff := fun s =>
  match mfind s.blocks blk with
  | some b => setWin blk w { getWin b w with state := .unbound } s
  | none => []

/-- A block's windows as it ends (R247) or is killed (R248): `out` cancels copy-outs too. A cancelled window is UNBOUND from
then on: nothing waits for it, and no later step cancels it again. -/
def cancelCopies (blk : Nat) (out : Bool) : Eff := fun s =>
  match mfind s.blocks blk with
  | none => []
  | some b => Eff.forEach b.wins (fun e =>
      match e.2.state with
      | .copyin => Eff.seq (cancelCopy blk e.1) (unbindWin blk e.1)
      | .runahead => Eff.seq (cancelRunahead blk e.1) (unbindWin blk e.1)
      | .copyout => if out then Eff.seq (cancelCopy blk e.1) (unbindWin blk e.1) else Eff.nop
      | _ => Eff.nop) s

/-- A block whose groups and stream have ended is reclaimed (R247): at once, or when its last copy-out has its
final postmark. -/
def reclaim (blk : Nat) : Eff := fun s =>
  match mfind s.blocks blk with
  | none => []
  | some _ =>
    if !(groupsOfBlk s blk).isEmpty || (streamOfBlk s blk).isSome then []
    else
      Eff.all [cancelCopies blk false, closeMerges blk, fun s =>
        match mfind s.blocks blk with
        | some b => if b.wins.any (fun e => e.2.state == .copyout) then [] else [.delBlock blk]
        | none => []] s

/-- A group leaves its place: its barriers, its private memory, its migration and watches, its slot (R124, R334,
R357). -/
def removeGroup (place : Nat) : Eff := fun s =>
  match mfind s.groups place with
  | none => []
  | some g =>
    Eff.all
      [partyEnd g.blk (groupParty g.uid) (coreOfG place) (partOfG place % 4) (slotOfG place) g.live,
       fun s =>
         match mfind s.blocks g.blk with
         | some b => [.block g.blk { b with areas := b.areas.filter (fun a => a.1 != g.pbase.toNat || a.2 == 0) }]
         | none => [],
       fun s => if s.coh.migs.any (fun m => m.uid == g.uid) || s.coh.watches.any (fun w => w.uid == g.uid) then
           [.coh { s.coh with
             migs := s.coh.migs.filter (fun m => m.uid != g.uid)
             watches := s.coh.watches.filter (fun w => w.uid != g.uid) }]
         else [],
       fun _ => [.delGroup place]] s

/-- A stream leaves: its barriers (R195, R198). -/
def removeStream (p : Nat) : Eff := fun s =>
  match mfind s.streams p with
  | none => []
  | some t => Eff.seq (partyEnd t.blk (streamParty t.blk) (p / 4) (p % 4) 0 0) (fun _ => [.delStream p]) s

/-- A core gives up the lines that its L1 owns: its privatised copies merge (R309, R365). -/
def giveUpOwned (core : Nat) : Eff := fun s =>
  Eff.forEach (s.coh.dirs.filter (fun e => e.2.priv.any (fun p => p.core == core))) (fun e => mergeLine e.1) s

/-- The groups of a block in the order in which a kill takes them: the issuer of a halt or a qreset last (R367, R385). -/
def killOrder (s : State) (blk : Nat) : List (Nat × Group) :=
  let last (e : Nat × Group) : Bool := ((launchOfBlk s blk).bind (·.last)) == some e.2.uid
  (groupsOfBlk s blk).filter (fun e => !last e) ++ (groupsOfBlk s blk).filter last

/-- A killed block (R125, R248, R365): queued stores perform, copies are cancelled, everything else goes. -/
def killBlock (blk : Nat) : Eff := fun s =>
  Eff.all
    [Eff.forEach (killOrder s blk) (fun e => drainQueue e.1),
     cancelCopies blk true,
     Eff.forEach (killOrder s blk) (fun e => removeGroup e.1),
     match streamOfBlk s blk with
     | some (p, _) => removeStream p
     | none => Eff.nop,
     closeMerges blk,
     fun s =>
       match mfind s.blocks blk with
       | some b => giveUpOwned b.core s
       | none => [],
     unholdFor blk,
     fun _ => [.delBlock blk]] s

/-- Pigeonholes of a launch are freed (R125). -/
def freeHoles (launch : Nat) : Eff := fun s =>
  (s.cores.filter (fun e => e.2.holes.any (fun h => h.2.launch == launch))).map (fun e =>
    .core e.1 { e.2 with holes := e.2.holes.filter (fun h => h.2.launch != launch) })

/-- The queue whose reset waits for a launch's kill, none for another kill: a session bound to it holds no card of the kill back
(R401, R402). -/
def resetOfLaunch (l : Launch) : Option Nat := if l.reset then some l.queue else none

/-- A resident block of a dying launch is killed, unless a card of its end must wait for room (R397). -/
def killNext (l : Launch) (blk : Nat) : Eff := fun s =>
  match mfind s.blocks blk with
  | some b => Eff.opt (atPoint (clusterOf b.core) (65536 + blk) blk (frankOf l) (resetOfLaunch l) (killBlock blk) s) s
  | none => []

/-- The saved blocks of a dying launch are discarded (R334, R365). -/
def killSaved (n : Nat) : Eff := fun s =>
  Eff.forEach (s.mail.saved.filter (fun x => x.blk.launch == n)) (fun x =>
    Eff.all [
      Eff.forEach x.groups (fun e => partyEnd x.id (groupParty e.2.uid) x.blk.core x.blk.part e.1 e.2.live), closeMerges x.id,
      (fun s => [.mail { s.mail with saved := s.mail.saved.filter (fun y => y.id != x.id) }])]) s

/-- No event of a launch's frank is counted and not yet added (R413). -/
def allAdded (s : State) (l : Launch) : Bool := s.ctrs.pend.all (fun e => e.frank != frankOf l)

/-- The end of a kill: what the launch still holds, its postmark, the KILL card. -/
def killRest (n : Nat) (l : Launch) (st code : Nat) : Eff :=
  Eff.all
    [killSaved n, freeHoles n, freeBars n, storeMark l (launchMark l.seq st code 0), launchCard 14 l (code * 2 ^ 32) 0,
     dropLaunch n]

/-- Some blocks of a launch are resident. -/
def hasBlocks (s : State) (n : Nat) : Bool := s.blocks.any (fun e => e.2.launch == n)

/-- The resident blocks of a dying launch are killed, as far as their cards find room; that of the group which is killed last
comes when no other is left. -/
def killBlocks (n : Nat) (l : Launch) : Eff := fun s =>
  let last (e : Nat × Block) : Bool := l.last.isSome && (groupsOfBlk s e.1).any (fun g => some g.2.uid == l.last)
  let bs := s.blocks.filter (fun e => e.2.launch == n)
  Eff.seq (Eff.forEach (bs.filter (fun e => !last e)) (fun e => killNext l e.1))
    (fun s => if (bs.filter (fun e => !last e)).any (fun e => (mfind s.blocks e.1).isSome) then []
      else Eff.forEach (bs.filter last) (fun e => killNext l e.1) s) s

/-- What a kill does besides: with no resident block left and every event of the launch added, its end. The sessions bound to
a queue that is reset end with the last of its kills (R402). -/
def killEnds (n : Nat) (l : Launch) (ends : Nat → Eff) : Eff := fun s =>
  match l.dying with
  | some (st, code) =>
    if hasBlocks s n || !allAdded s l then []
    else
      Eff.opt (atPoint (pkgBuf s) (65536 + n) n (frankOf l) (resetOfLaunch l)
        (Eff.seq (killRest n l st code) (fun s =>
          if l.reset && s.mail.launches.all (fun e => e.2.queue != l.queue || !e.2.reset) then ends l.queue s else [])) s) s
  | none => []

/-- A launch is killed (R365): from now on it does nothing. Its postmark will read the status and code, which the KILL card
names too; the group `last` is killed last. -/
def killLaunch (n status code : Nat) (last : Option Nat := none) : Eff := fun s =>
  match mfind s.mail.launches n with
  | none => []
  | some l =>
    if l.dying.isSome then []
    else
      let l := { l with dying := some (status, code), last := last }
      Eff.seq (fun s => [.mail { s.mail with launches := mput s.mail.launches n l }]) (killBlocks n l) s

/-! ## Machine checks (R376, R377) -/

/-- A machine check of a launch (none when no launch is affected): MCSTAT, the MCHK card, the host event, the kill. -/
def machineCheck (launch : Option Nat) (cause unit core : Nat) (src : Src387) (addr : DWord) : Eff := fun s =>
  let frank := match launch with
    | some n => (match mfind s.mail.launches n with
      | some l => frankOf l
      | none => 0)
    | none => 0
  Eff.seq (checkNote frank cause unit core src addr)
    (match launch with
     | some n => killLaunch n 2 cause
     | none => Eff.nop) s

/-- The unit that holds a line read at its home, and the core that CORE names: a vault's own; an L2 slice, LPDDR-5X and CXL, which
R377 gives no core, name the reader's (log entry 64). A poisoned line names the unit of its error. -/
def homeUnit (s : State) (core line : Nat) : Nat × Nat :=
  let unit := (mfind s.coh.poison line).getD (memUnit line)
  (unit, if unit = 5 then line * 128 / 0x2000000 else core)

/-- An uncorrectable error met by a read of a poisoned line in a unit (R376, R377): a machine check of the reader's launch. -/
def poisonIn (unit : Nat × Nat) (launch core line : Nat) : Eff :=
  machineCheck (some launch) 18 unit.1 unit.2 (coreSrc core 0 8) (BitVec.ofNat 64 (line * 128))

/-- The front-end meets an error in a line for a launch, in a unit (R376, R442; log entry 64). -/
def frontDead (unit : Nat × Nat) (launch line : Nat) : Eff :=
  machineCheck (some launch) 18 unit.1 unit.2 (pkgSrc 7) (BitVec.ofNat 64 (line * 128))

/-- A poisoned line read at its home. -/
def poisonRead (launch core line : Nat) : Eff := fun s => poisonIn (homeUnit s core line) launch core line s

/-- A poisoned line read by a load: in the core's L1 where that serves it, else at its home. -/
def poisonLoad (useL1 : Bool) (launch core line : Nat) : Eff := fun s =>
  if useL1 && badCopy s core line then poisonIn (3, core) launch core line s else poisonRead launch core line s

end Sys2Proof.Machine
end

