-- ==== Sys2Proof/Machine/Operands.lean ====
section
/-! DEFINITION. Who issues an instruction and what its operand fields read (02: R30, R33 to R36, R40 to R42). -/

namespace Sys2Proof.Machine

/-! ## The issuing agent -/

/-- What an instruction word sees of the agent that issues it: its words, its place, its block and launch, its
registers, the mode, and the counters sampled in the issue cycle. -/
structure Ctx where
  i      : Instr
  iss    : Issue
  next   : DWord
  strm   : Bool
  /-- Place of the group or partition place of the stream. -/
  key    : Nat
  uid    : Nat
  u      : UCtx
  vector : Bool
  grans  : Nat
  live   : Word
  blkId  : Nat
  blk    : Block
  launch : Nat
  l      : Launch
  core   : Nat
  part   : Nat
  slot   : Nat
  /-- The slot that its fault records name (R286): for the stream, that of the host group. -/
  recSlot : Nat
  sys    : Bool
  fresh  : Nat
  cyc    : Nat
  time   : DWord
  pbase  : DWord
  sq     : List SqE

namespace Ctx

/-- The frank of the launch. -/
def frank (c : Ctx) : Nat := frankOf c.l
/-- Its lanes at this word (R25, R98, R105). -/
def lanes (c : Ctx) : Word := c.iss.lanes
/-- Its base word's address. -/
def pc (c : Ctx) : DWord := c.iss.pc
/-- The party it is in a barrier or a merge table. -/
def party (c : Ctx) : Nat := if c.strm then streamParty c.blkId else groupParty c.uid
/-- The block's TCTX.ASID (R278). -/
def asid (c : Ctx) : Nat := fld c.blk.tctx 11 0

/-- The maker of its accesses: lane accesses have private memory, uniform ones have none (R252). -/
def who (c : Ctx) (lane : Bool) : Who :=
  { party := c.party, blk := c.blkId, core := c.core, part := c.part, slot := c.recSlot, tctx := c.blk.tctx
    asid := c.asid, frank := c.frank, launch := c.launch, user := !c.sys, pbase := c.pbase
    psize := if lane then 4 * pktF c.l 1 23 8 else 0 }

/-- The cycle at which the word first issued: it may have waited since (R232). -/
def firstCyc (c : Ctx) : Nat := mget c.cyc c.u.since c.pc.toNat

/-- The role special (R41). -/
def role (c : Ctx) : Nat := if c.strm then 2 else if c.vector then 1 else 0

end Ctx

/-! ## Lane operands -/

/-- A 32-bit element as an operand in a position reads it (R47). -/
def Ctx.el (c : Ctx) (pos : Nat) (r : Reg) (lane half : Nat) : Nat := readElem c.u (4 * c.fresh + pos) r lane half

/-- Both halves of a pair of rows or of a 64-bit register. -/
def Ctx.row2 (c : Ctx) (pos : Nat) (lo hi : Reg) (lane hiHalf : Nat) : Nat :=
  c.el pos lo lane 0 + 2 ^ 32 * c.el pos hi lane hiHalf

/-- A lane special (R34). -/
def Ctx.laneSpecial (c : Ctx) (n lane : Nat) : Nat :=
  match n with
  | 0 => 0
  | 1 => 1
  | 2 => lane
  | 3 => c.slot
  | 4 => c.part
  | 5 => coreX c.core
  | 6 => coreY c.core
  | _ => c.cyc % 2 ^ 32

/-- An integer converted exactly to a floating type, both halves of a packed one (R35). -/
def floatImm (t : Ty) (x : Int) : Nat :=
  if tyPacked t then
    let h := roundF (fmtOf (if t == .f16x2 then .f16 else .bf16)) .rne (FVal.ofInt x)
    h + 2 ^ 16 * h
  else roundF (fmtOf t) .rne (FVal.ofInt x)

/-- A source field read at a type: its pattern of the type's width. xf stands for a 32-bit container (R35). -/
def Ctx.src (c : Ctx) (pos : Nat) (t : Ty) (f : Src) (lane : Nat) : Nat :=
  let w := tyWidth t
  let v := match f with
    | .v n => if tyIs64 t then c.row2 pos (.v n.val) (.v (n.val + 1)) lane 0 else c.el pos (.v n.val) lane 0
    | .q n => if tyIs64 t then c.row2 pos (.q n.val) (.q (n.val + 1)) lane 0 else c.el pos (.q n.val) lane 0
    | .y n => if tyIs64 t then c.row2 pos (.y n.val) (.y n.val) lane 1 else c.el pos (.y n.val) lane 0
    | .k n => if tyIs64 t then c.row2 pos (.k n.val) (.k n.val) 0 1 else c.el pos (.k n.val) 0 0
    | .special n =>
      if tyIsFloat t then floatImm t (if n.val = 1 then 1 else 0) else c.laneSpecial n.val lane
    | .reserved _ => 0
    | .imm n =>
      let x : Int := (n.val : Int) - 16
      if tyIsFloat t then floatImm t x else patOf x w
  v % 2 ^ w

/-- A predicate of a lane; p7 reads 1. -/
def Ctx.pred (c : Ctx) (pos n lane : Nat) : Bool :=
  if n == 7 then true else c.el pos (.p n) lane 0 == 1

/-- The lanes of a guarded lane word whose guard holds (R30). -/
def Ctx.active (c : Ctx) (g : BitVec 3) (gn : Bool) : Word :=
  maskOf (fun l => inMask c.lanes l && (c.pred 3 g.toNat l != gn))

/-! ## Uniform operands -/

/-- A uniform special (R41). -/
def Ctx.uniSpecial (c : Ctx) (n : Nat) : Nat :=
  match n with
  | 0 => 0
  | 1 => 2 ^ 64 - 1
  | 2 => coreX c.core
  | 3 => coreY c.core
  | 4 => c.part
  | 5 => c.slot
  | 6 => c.blk.blkid
  | 7 => pktF c.l 2 63 58
  | 8 => pktF c.l 2 57 54
  | 9 => pktF c.l 2 53 48 + 1
  | 10 => pktF c.l 2 47 44 + 1
  | 11 => pktF c.l 2 43 38 + 1
  | 12 => c.role
  | 13 => c.frank
  | 14 => c.cyc
  | _ => if c.strm then 0 else c.live.toNat

/-- A uniform register read as 64 bits. -/
def Ctx.kreg (c : Ctx) (pos n : Nat) : Nat := c.row2 pos (.k n) (.k n) 0 1

/-- A uniform predicate; kp7 reads 1. -/
def Ctx.kpred (c : Ctx) (pos n : Nat) : Bool := if n == 7 then true else c.el pos (.kp n) 0 0 == 1

/-- A 7-bit uniform field (R40). -/
def Ctx.uf (c : Ctx) (pos : Nat) (f : UFld) : Nat :=
  match f with
  | .k n => c.kreg pos n.val
  | .kc n => (getKc c.u.regs.u n.val).toNat
  | .lc n => c.el pos (.lc n.val) 0 0
  | .lm n => c.el pos (.lm n.val) 0 0
  | .special n => c.uniSpecial n.val
  | .imm n => n.val

/-- Field B of a uniform word as 64 bits (R42). -/
def Ctx.ub (c : Ctx) (w : UniW) : Nat :=
  match w.b with
  | .fld f => c.uf 1 f
  | .imm n => patOf ((n.val : Int) - 64) 64

/-- The operand of an I-kind form: field B, or the extension word sign-extended (R44). -/
def Ctx.ubI (c : Ctx) (w : UniW) : Nat := if w.x then patOf (sextN w.e.toNat 32) 64 else c.ub w

/-- Field A of a uniform word. -/
def Ctx.ua (c : Ctx) (w : UniW) : Nat := c.uf 0 w.a

/-! ## Results -/

/-- A value put in a lane's destination and in its y registers (R36, R133). -/
def putLane (t : Ty) (d : Dst) (y : Bool) (lane v : Nat) (r : Regs) : Regs :=
  let w64 := tyIs64 t
  let lo := BitVec.ofNat 32 v
  let hi := BitVec.ofNat 32 (v / 2 ^ 32)
  let l := match d with
    | .v n => if w64 then setV (setV r.l n.val lane lo) (n.val + 1) lane hi else setV r.l n.val lane lo
    | .q n => if w64 then setQ (setQ r.l n.val lane lo) (n.val + 1) lane hi else setQ r.l n.val lane lo
  let y0 : DWord := if w64 then BitVec.ofNat 64 v else BitVec.ofNat 64 (v % 2 ^ 32)
  let l := if y then setY (setY (setY (setY l 3 lane (getY l 2 lane)) 2 lane (getY l 1 lane)) 1 lane (getY l 0 lane)) 0 lane y0
    else l
  { r with l := l }

/-- A result for each lane of a mask. -/
def putLanes (t : Ty) (d : Dst) (y : Bool) (m : Word) (f : Nat → Nat) (r : Regs) : Regs :=
  (lanesOf m).foldl (fun r l => putLane t d y l (f l) r) r

/-- A predicate set in each lane of a mask. -/
def putPred (n : Nat) (m : Word) (f : Nat → Bool) (r : Regs) : Regs :=
  if n == 7 then r
  else { r with l := setP r.l n (maskOf (fun l => if inMask m l then f l else inMask (getP r.l n) l)) }

/-- A k register written. -/
def putK (n v : Nat) (r : Regs) : Regs := { r with u := setK r.u n (BitVec.ofNat 64 v) }

/-- A uniform destination written; only k registers are destinations (R43). -/
def putU (d : UFld) (v : Nat) (r : Regs) : Regs :=
  match d with
  | .k n => putK n.val v r
  | _ => r

end Sys2Proof.Machine
end

