-- ==== Sys2Proof/Machine/Flags.lean ====
section
/-! DEFINITION. Carries, borrows and conditions: every predicate value the forms compute (05: R140, R144, R149,
R153). -/

namespace Sys2Proof.Machine

/-- addc: sum and carry of w-bit patterns (R140). -/
def addCarry (w a b : Nat) (cin : Bool) : Nat × Bool :=
  let s := a % 2 ^ w + b % 2 ^ w + cin.toNat
  (s % 2 ^ w, decide (2 ^ w ≤ s))

/-- subb: difference and borrow (R140). -/
def subBorrow (w a b : Nat) (bin : Bool) : Nat × Bool :=
  let s : Int := (a % 2 ^ w : Nat) - (b % 2 ^ w : Nat) - (bin.toNat : Int)
  (patOf s w, decide (s < 0))

/-- The conditions of cmp on patterns read at an integer type (R144). -/
def cmpCond (t : Ty) (sub a b : Nat) : Bool :=
  let w := tyWidth t
  let x := intVal t a
  let y := intVal t b
  match sub with
  | 0 => decide (x = y)
  | 1 => decide (x ≠ y)
  | 2 => decide (x < y)
  | 3 => decide (x ≤ y)
  | 4 => decide (y < x)
  | 5 => decide (y ≤ x)
  | 6 => Nat.land a b % 2 ^ w != 0
  | 7 => Nat.land a b % 2 ^ w == 0
  | 8 => decide (2 ^ w ≤ a % 2 ^ w + b % 2 ^ w)
  | _ =>
    let s := sextN a w + sextN b w
    decide (s < -(2 ^ (w - 1) : Int)) || decide ((2 ^ (w - 1) : Int) ≤ s)

/-- The conditions of fcmp (R149): from 6 on, also when unordered. -/
def fcmpCond (sub : Nat) (a b : FVal) : Bool :=
  let uno := a.isNan || b.isNan
  let rel (n : Nat) : Bool :=
    match n with
    | 0 => a.eq b
    | 1 => !a.eq b
    | 2 => a.lt b
    | 3 => a.lt b || a.eq b
    | 4 => b.lt a
    | _ => b.lt a || a.eq b
  if sub < 6 then !uno && rel sub
  else if sub < 12 then uno || rel (sub - 6)
  else if sub = 12 then !uno
  else uno

/-- The conditions of kcmp on 64-bit values (R153). -/
def kcmpCond (n a b : Nat) : Bool :=
  let x := sextN a 64
  let y := sextN b 64
  match n with
  | 0 => decide (a = b)
  | 1 => decide (a ≠ b)
  | 2 => decide (x < y)
  | 3 => decide (x ≤ y)
  | 4 => decide (y < x)
  | 5 => decide (y ≤ x)
  | 6 => decide (a < b)
  | 7 => decide (a ≤ b)
  | 8 => decide (b < a)
  | 9 => decide (b ≤ a)
  | _ => Nat.land a b != 0

/-- How kcmp combines its condition with the target (R153). -/
def kcmpComb (comb : Nat) (old t : Bool) : Bool :=
  match comb with
  | 0 => t
  | 1 => old && t
  | 2 => old || t
  | _ => old != t

/-- The condition of kbra and kcall (R114). -/
def kbraCond (kp : Nat → Bool) (n : Nat) : Bool :=
  if n < 7 then kp n else if n = 7 then true else !kp (n - 8)

end Sys2Proof.Machine
end

