-- ==== Sys2Proof/Machine/Access.lean ====
section
/-! DEFINITION. The registers each instruction word reads and writes (02: R46, R47, R50) and whether its result
enters y0 (05: R133). -/

namespace Sys2Proof.Machine

/-- Registers read, registers written, and whether y shifts. -/
structure Acs where
  reads  : List Reg := []
  writes : List Reg := []
  y      : Bool := false

/-- A pair of rows at a 64-bit type. -/
def pairV (t : Ty) (n : Nat) : List Reg := if tyIs64 t then [.v n, .v (n + 1)] else [.v n]
def pairQ (t : Ty) (n : Nat) : List Reg := if tyIs64 t then [.q n, .q (n + 1)] else [.q n]

/-- Registers of a lane source at a type. -/
def srcRegs (t : Ty) : Src → List Reg
  | .v n => pairV t n.val
  | .q n => pairQ t n.val
  | .y n => [.y n.val]
  | .k n => [.k n.val]
  | _ => []

/-- Registers of a lane destination at a type. -/
def dstRegs (t : Ty) : Dst → List Reg
  | .v n => pairV t n.val
  | .q n => pairQ t n.val

/-- A predicate register; p7 is a constant. -/
def predRegs (n : Nat) : List Reg := if n = 7 then [] else [.p n]

/-- Field C as a source. -/
def csrcRegs (t : Ty) (x : BitVec 8) : List Reg := srcRegs t (srcOf x.toNat)

/-- A lane form: sources, a destination at a type, y shifted. -/
def laneAcs {δ α β : Type} (w : LaneForm δ α β) (reads writes : List Reg) (y : Bool) : Acs :=
  { reads := reads ++ predRegs w.g.toNat, writes := writes, y := y }

/-- A at TYPE. -/
def acsA (w : LaneW) : Acs := laneAcs w (srcRegs w.ty w.a) (dstRegs w.ty w.d) true
/-- A and B at TYPE. -/
def acsAB (w : LaneW) : Acs := laneAcs w (srcRegs w.ty w.a ++ srcRegs w.ty w.b) (dstRegs w.ty w.d) true
/-- A, B and C at TYPE. -/
def acsABC (w : LaneW) : Acs :=
  laneAcs w (srcRegs w.ty w.a ++ srcRegs w.ty w.b ++ csrcRegs w.ty w.c) (dstRegs w.ty w.d) true
/-- A at TYPE, B at n32. -/
def acsShift (w : LaneW) : Acs := laneAcs w (srcRegs w.ty w.a ++ srcRegs .n32 w.b) (dstRegs w.ty w.d) true
/-- A at TYPE, B and C at n32. -/
def acsField (w : LaneW) : Acs :=
  laneAcs w (srcRegs w.ty w.a ++ srcRegs .n32 w.b ++ csrcRegs .n32 w.c) (dstRegs w.ty w.d) true
/-- addc and subb. -/
def acsCarry (w : LaneW) : Acs :=
  laneAcs w (srcRegs w.ty w.a ++ srcRegs w.ty w.b ++ [.p w.c.toNat]) (dstRegs w.ty w.d ++ [.p w.c.toNat]) true
/-- A comparison into a predicate. -/
def acsCmp (w : PredW) : Acs := laneAcs w (srcRegs w.ty w.a ++ srcRegs w.ty w.b) [.p w.d.toNat] false
/-- Predicate logic. -/
def acsPLog (w : PLogW) : Acs := laneAcs w (predRegs w.a.toNat ++ predRegs w.b.toNat) [.p w.d.toNat] false
/-- A conversion: A at the type in C, B a mode where the form has one. -/
def acsCvt (mode : Bool) (w : LaneW) : Acs :=
  laneAcs w (srcRegs (tyOf w.c.toNat) w.a ++ (if mode then srcRegs .n32 w.b else [])) (dstRegs w.ty w.d) true
/-- 32-bit sources and result. -/
def acs32 (w : LaneW) : Acs := laneAcs w (srcRegs .n32 w.a ++ srcRegs .n32 w.b) (dstRegs .n32 w.d) true
/-- shfl: the validity predicate in C. -/
def acsShfl (w : LaneW) : Acs :=
  laneAcs w (srcRegs w.ty w.a ++ srcRegs .n32 w.b)
    (dstRegs w.ty w.d ++ (if w.c == 0 then [] else [.p (w.c.toNat - 1)])) true
/-- A memory form that loads. -/
def acsLoad (w : LaneW) : Acs := laneAcs w (srcRegs .n64 w.a ++ srcRegs .i32 w.b) (dstRegs w.ty w.d) false
/-- Control by A as a target. -/
def acsCtl (w : LaneW) : Acs := laneAcs w (srcRegs .n64 w.a) [] false

/-- Registers of a uniform field. -/
def ufRegs : UFld → List Reg
  | .k n => [.k n.val]
  | .lc n => [.lc n.val]
  | .lm n => [.lm n.val]
  | _ => []

/-- Registers of field B. -/
def ubRegs : UB → List Reg
  | .fld f => ufRegs f
  | .imm _ => []

/-- A k register destination. -/
def udRegs : UFld → List Reg
  | .k n => [.k n.val]
  | _ => []

/-- A uniform form: which of the fields A, B and D are operands of it. A field the form does not use names no
register (R27, R46); nor does a B that an extension word stands in for (R44). -/
def uniAcs (a b d : Bool) (w : UniW) : Acs :=
  { reads := (if a then ufRegs w.a else []) ++ (if b then ubRegs w.b else []), writes := if d then udRegs w.d else [] }
/-- A uniform form of kind I with operand B. -/
def uniI (a d : Bool) (w : UniW) : Acs := uniAcs a (!w.x) d w
/-- n k registers from a field's number on. -/
def kRun (f : UFld) (n : Nat) : List Reg :=
  match f with
  | .k m => (List.range n).map (fun i => .k (m.val + i))
  | _ => []

/-- The loop counter that a 2-bit field names, under a selector bit. -/
def lcIf (on : Bool) (n : Nat) : List Reg := if on then [.lc n] else []

/-- The registers of an instruction word. -/
def acsOf : Instr → Acs
  | .add w | .sub w | .mul w | .mulhi w | .div w | .rem w | .min w | .max w | .and w | .or w | .xor w
  | .andn w | .fadd w | .fsub w | .fmul w | .fmin w | .fmax w | .fdiv w => acsAB w
  | .addc w | .subb w => acsCarry w
  | .mad w | .madhi w | .ffma w | .hfma2 w => acsABC w
  | .shl w | .shr w | .sar w | .rot w => acsShift w
  | .clz w | .popc w | .brev w | .mov w | .frcp w | .frsq w | .fsqrt w | .fex2 w | .flg2 w | .fsin w
  | .fcos w | .voteBal w | .redux _ w | .scan _ w | .match_ w | .spt w | .spc w => acsA w
  | .bfx w => acsField w
  | .bfi w => let x := acsField w; { x with reads := x.reads ++ dstRegs w.ty w.d }
  | .lea w => laneAcs w (srcRegs w.ty w.a ++ srcRegs .xf w.b) (dstRegs w.ty w.d) true
  | .cmp _ w | .fcmp _ w => acsCmp w
  | .sel w => laneAcs w (srcRegs w.ty w.a ++ srcRegs w.ty w.b ++ predRegs w.c.toNat) (dstRegs w.ty w.d) true
  | .movk w => laneAcs w [.k w.a.toNat] (dstRegs w.ty w.d) true
  | .pand w | .por w | .pxor w => acsPLog w
  | .pnot w => laneAcs w (predRegs w.a.toNat) [.p w.d.toNat] false
  | .dot2 w =>
    laneAcs w (srcRegs .n32 w.a ++ srcRegs .n32 w.b ++ csrcRegs .n32 w.c) (dstRegs .n32 w.d) true
  | .cvtFf w | .cvtFi w | .cvtIf w => acsCvt true w
  | .cvtIi w => acsCvt false w
  | .cvtxPack w | .cvtxUnpack w | .pack2 w | .qblk w => acs32 w
  | .fclass w => laneAcs w (srcRegs w.ty w.a) (dstRegs .n32 w.d) true
  | .bscl w => laneAcs w (srcRegs .n32 w.a) (dstRegs .n32 w.d) true
  | .bra w | .call w => { reads := predRegs w.g.toNat }
  | .brx w | .callx w => acsCtl w
  | .ret w | .exit w | .brk w | .rejoin w | .yield w => laneAcs w [] [] false
  | .voteAny w | .voteAll w => laneAcs w (srcRegs .n32 w.a) [.p w.d.toNat] false
  | .shflIdx w | .shflUp w | .shflDn w | .shflXor w => acsShfl w
  | .spawn w =>
    let rows := match w.b with
      | .v n => [.v n.val, .v (n.val + 1), .v (n.val + 2), .v (n.val + 3)]
      | _ => []
    laneAcs w (srcRegs .n64 w.a ++ rows ++ csrcRegs .n32 w.c) [] false
  | .phflush w => laneAcs w (srcRegs .n64 w.a) [] false
  | .ld w | .ldb w => acsLoad w
  | .st w => laneAcs w (srcRegs .n64 w.a ++ srcRegs .i32 w.b ++ csrcRegs w.ty w.c) [] false
  | .atom _ w =>
    laneAcs w (srcRegs .n64 w.a ++ srcRegs .i32 w.b ++ csrcRegs w.ty w.c)
      (if qNr w.q then [] else dstRegs w.ty w.d) false
  | .cas w =>
    laneAcs w (srcRegs .n64 w.a ++ srcRegs w.ty w.b ++ csrcRegs w.ty w.c) (dstRegs w.ty w.d) false
  | .prf w => laneAcs w (srcRegs .n64 w.a ++ srcRegs .i32 w.b) [] false
  | .mtov w => laneAcs w (srcRegs .n32 w.a ++ srcRegs .n32 w.b) (dstRegs w.ty w.d) true
  | .mvtot w => laneAcs w (srcRegs .n32 w.a ++ srcRegs .n32 w.b ++ csrcRegs w.ty w.c) [] false
  | .kcmp w =>
    { reads := ufRegs w.a ++ ubRegs w.b ++ (if fs w 9 8 == 0 then [] else [.kp (fs w 6 4)])
      writes := [.kp (fs w 6 4)] }
  | .ksel w =>
    { reads := ufRegs w.a ++ ubRegs w.b ++ (if fs w 2 0 == 7 then [] else [.kp (fs w 2 0)])
      writes := udRegs w.d }
  | .lcset w =>
    match w.d with
    | .lc n => { reads := ufRegs w.a, writes := .lc n.val :: (if fs w 31 31 == 1 then [.lm n.val] else []) }
    | .lm n => { reads := ufRegs w.a, writes := [.lm n.val, .lc n.val] }
    | _ => {}
  | .lcstep w =>
    match w.d with
    | .lc n => { reads := .lc n.val :: (uniAcs false true false w).reads, writes := [.lc n.val] }
    | _ => {}
  | .kbra w | .kcall w =>
    match w.a with
    | .k n =>
      { reads := (if n.val = 7 then [] else [.kp (if n.val < 7 then n.val else n.val - 8)]) ++ (uniI false false w).reads }
    | _ => {}
  | .mload w | .mloadx w => { reads := kRun w.a 2 ++ ubRegs w.b }
  | .mma w | .mmat w | .mres w => { reads := ufRegs w.a ++ ubRegs w.b ++ lcIf (fs w 19 19 == 1) (fs w 17 16) }
  | .mst w => { reads := kRun w.a 2 ++ lcIf (fs w 27 27 == 1) (fs w 26 25) }
  | .lrec w => { reads := kRun w.a (fs w 3 0 + 1) ++ ubRegs w.b }
  | .wabs w => { reads := kRun w.a 3 ++ ubRegs w.b }
  | .kst w => { reads := udRegs w.d ++ (uniI true false w).reads }
  | .katom w =>
    { reads := ufRegs w.a ++ ubRegs w.b, writes := if fs w 21 21 == 1 then [] else udRegs w.d }
  | .tlbinv w => { reads := if fs w 17 16 == 0 then ufRegs w.a else [] }
  | .kadd w | .ksub w | .kmul w | .kand w | .kor w | .kxor w | .kshl w | .kshr w | .kmin w | .kmax w
  | .kld w => uniI true true w
  | .kmovi w => uniI false true w
  | .kcset w | .sbound w | .trap w | .sysc w | .tmark w => uniI false false w
  | .obres w | .pgmig w | .roundFloor w | .post w | .cntrd w => uniAcs true true true w
  | .kmov w | .mbarWait w | .roundAdv w | .roundGet w | .barWait w | .barSync w | .barJoin w | .barGen w =>
    uniAcs true false true w
  | .wtouch w | .wstat w | .monWait w | .qreset w | .mfs w => uniAcs false true true w
  | .kcwait w | .kfmtGet w | .mrow w | .mrowClr w | .sstat w | .sstatClr w | .wstatRead w | .wstatClr w
  | .pmwait w | .ringGet w | .ringWait w | .rdtime w | .rdcyc w | .tsamp w => uniAcs false false true w
  | .sdec w | .wbind w | .cwb w | .cinv w | .icinv w | .mts w | .cntcfgWrite w => uniAcs true true false w
  | .kfmtSet w | .kfmtSetSeed w | .obfree w | .mzero w | .mbarArr w | .mseqGo w | .ringInit w | .monArm w
  | .barArr w | .barLeave w | .nap w | .cntcfgEvent w | .cntcfgClear w => uniAcs true false false w
  | .macc w => uniAcs (fs w 23 22 == 2) false false w
  | .lrecTap w | .wunbind w | .wpost w | .pmarm w | .ringPut w => uniAcs false true false w
  | _ => {}

/-- The v rows a lane word names are below the rows its group holds (R127). -/
def rowsOk (i : Instr) (grans : Nat) : Bool :=
  ((acsOf i).reads ++ (acsOf i).writes).all (fun r =>
    match r with
    | .v n => decide (n < 16 * grans)
    | _ => true)

end Sys2Proof.Machine
end

