-- ==== Sys2Proof/Machine/Fetch.lean ====
section
/-! DEFINITION. The issuing agent as an instruction sees it, instruction fetch (02: R24, R25; 19: R429, R431), and the
paths of a group with what holds them (04: R97, R105, R106, R112). -/

namespace Sys2Proof.Machine

/-! ## The agent -/

/-- The group runs in system mode (R369). -/
def sysMode (g : Group) : Bool := g.tr.privMode || g.tr.bankS.active

/-- The context of an issue; none when the agent, its block or its launch is not resident. -/
def ctxOf (i : Instr) (iss : Issue) (s : State) : Option Ctx :=
  let next : DWord := iss.pc + (if (headOf i).ext then 8 else 4)
  match iss.agent with
  | .group p =>
    match mfind s.groups p with
    | none => none
    | some g =>
      match mfind s.blocks g.blk with
      | none => none
      | some b =>
        match mfind s.mail.launches b.launch with
        | none => none
        | some l =>
          some { i := i, iss := iss, next := next, strm := false, key := p, uid := g.uid, u := g.u, vector := g.vector
                 grans := g.grans, live := g.live, blkId := g.blk, blk := b, launch := b.launch, l := l
                 core := coreOfG p, part := partOfG p % 4, slot := slotOfG p, recSlot := slotOfG p, sys := sysMode g, fresh := s.fresh
                 cyc := s.clk.cyc, time := timeReg s.clk, pbase := g.pbase, sq := g.sq }
  | .stream p =>
    match mfind s.streams p with
    | none => none
    | some t =>
      match mfind s.blocks t.blk with
      | none => none
      | some b =>
        match mfind s.mail.launches b.launch with
        | none => none
        | some l =>
          some { i := i, iss := iss, next := next, strm := true, key := p, uid := 0, u := t.u, vector := false
                 grans := 0, live := 0, blkId := t.blk, blk := b, launch := b.launch, l := l
                 core := p / 4, part := p % 4, slot := lowSlot s t.blk
                 recSlot := ((hostGroup s t.blk).map (fun e => slotOfG e.1)).getD (lowSlot s t.blk), sys := l.priv, fresh := s.fresh
                 cyc := s.clk.cyc, time := timeReg s.clk, pbase := 0, sq := [] }

/-- The group of a context, as a state holds it. -/
def groupOf (c : Ctx) (s : State) : Option Group := if c.strm then none else mfind s.groups c.key
/-- The stream of a context. -/
def streamOf (c : Ctx) (s : State) : Option Stream := if c.strm then mfind s.streams c.key else none

/-- A change of the group of a context, if it still stands. -/
def onGroup (c : Ctx) (f : Group → Group) : Eff := fun s =>
  match groupOf c s with
  | some g => if g.uid == c.uid then [.group c.key (f g)] else []
  | none => []

/-- A change of the stream of a context. -/
def onStream (c : Ctx) (f : Stream → Stream) : Eff := fun s =>
  match streamOf c s with
  | some t => if t.blk == c.blkId then [.stream c.key (f t)] else []
  | none => []

/-- A change of what groups and streams share. -/
def onU (c : Ctx) (f : UCtx → UCtx) : Eff :=
  if c.strm then onStream c (fun t => { t with u := f t.u }) else onGroup c (fun g => { g with u := f g.u })


/-! ## Kinds of words -/

/-- Opcode of a word: 28:23 of a lane word, 28:22 of a uniform one. -/
def opOf (i : Instr) : Nat :=
  let w := (encode i).headD 0
  if bit w 31 then bits w 28 22 else bits w 28 23

/-- A word of the uniform set. -/
def isUniform (i : Instr) : Bool := bit ((encode i).headD 0) 31

/-- A hint-space word (R55). -/
def isHint (i : Instr) : Bool := isUniform i && decide (0x70 ≤ opOf i)

/-- The guard of a lane word: predicate and inversion. -/
def guardOf (i : Instr) : Nat × Bool :=
  match i with
  | .bra w | .call w => (w.g.toNat, w.gn)
  | i =>
    match encode i with
    | [_, e] => (bits e 23 21, bit e 20)
    | _ => (7, false)

/-- The lane collectives (R105). -/
def isCollective : Instr → Bool
  | .voteAny _ | .voteAll _ | .voteBal _ | .shflIdx _ | .shflUp _ | .shflDn _ | .shflXor _ | .redux _ _
  | .scan _ _ | .match_ _ => true
  | _ => false

/-- A convergence instruction (R105). -/
def isConv (i : Instr) : Bool := isUniform i || isCollective i

/-! ## Code (R431) -/

/-- The values that a fetch of the code word at a physical address may return: what memory holds, and what it held of late
and no icinv has covered since. -/
def codeValues (s : State) (a : Nat) : List Word :=
  let now := memWord s.mem a
  now :: (mget [] s.coh.stale a).filter (· != now)

/-- The code word that a fetch returns: the choice among several values is open (log entry 16). -/
def codeWord (s : State) (a : Nat) : Word :=
  match codeValues s a with
  | [] => 0
  | [x] => x
  | x :: l => (x :: l).getD (Config.codePick s.fresh a % (l.length + 1)) x

/-- The physical address of a translated code word: of a replicated page, in its nearest replica. -/
def codeAddr (s : State) (p : Place) : Nat :=
  match p with
  | .phys a _ => a
  | .repl _ reps off => let r := nearest s reps; pkgAddr s r.1 (r.2 + off)
  | _ => 0

/-- A line of code enters a core's instruction cache, with its mark, where it is not there. -/
def cacheLine (core line : Nat) (bad : Bool) : Eff := fun s =>
  let k := getCore s core
  if (mfind k.icache line).isSome then [] else [.core core { k with icache := mput k.icache line bad }]

/-- A fetch's line of code enters a core's instruction cache: a fill of 128 bytes, where it is not there (R411). -/
def cacheCode (core frank line : Nat) (bad : Bool) : Eff := fun s =>
  if (mfind (getCore s core).icache line).isSome then []
  else Eff.seq (cacheLine core line bad) (countRead frank (line * 128) 128) s

/-- The line is poisoned for a fetch on a core: in its instruction cache where that holds it, else where memory marks it (R376,
R430). -/
def codePoison (s : State) (core line : Nat) : Bool :=
  match mfind (getCore s core).icache line with
  | some bad => bad
  | none => (mfind s.coh.poison line).isSome

/-! ## Fetch (R25) -/

/-- What a fetch comes to. -/
inductive FRes
  | word (w e : Word) (eff : Eff)
  | trap (cause : Nat) (addr : DWord) (eff : Eff)
  | park (why : Why) (eff : Eff)
  /-- The line is poisoned, or its device is gone: a machine check. -/
  | dead (line : Nat) (eff : Eff)

/-- The lane that the record of a fetch's fault names. -/
def Ctx.fetchLane (c : Ctx) : Nat := if c.strm then 255 else lowest c.lanes

/-- The fetch of one aligned code word. -/
def fetchOne (c : Ctx) (s : State) (pc : DWord) : FRes :=
  if fld pc 63 56 ≠ 0 then .trap 6 pc Eff.nop
  else
    let w := c.who false
    match translate s w .fetch [{ lane := c.fetchLane, ea := pc, va := pc.toNat }] with
    | .trap cause _ addr eff => .trap cause addr eff
    | .park why eff => .park why eff
    | .ok eff =>
      let a := codeAddr s (placeAt s w pc.toNat)
      let there := (mfind (getCore s c.core).icache (lineOf a)).isSome
      if codePoison s c.core (lineOf a) || (!there && portGone s a) then .dead (lineOf a) eff
      else
        match (if there then none else blockedBy s [(a, 4, false)]) with
        | some uid => .park (.blocked uid) eff
        | none =>
          .word (codeWord s a) 0 (Eff.all [eff, countForwards w .fetch [pc.toNat], cacheCode c.core (c.frank) (lineOf a) false])

/-- The fetch of an instruction: its base word and, when X = 1, its extension word. -/
def fetchInstr (c : Ctx) (s : State) : FRes :=
  match fetchOne c s c.pc with
  | .word w _ eff =>
    if bit w.toNat 29 then
      match fetchOne c s (c.pc + 4) with
      | .word e _ eff2 => .word w e (Eff.seq eff eff2)
      | .trap cause addr eff2 => .trap cause addr (Eff.seq eff eff2)
      | .park why eff2 => .park why (Eff.seq eff eff2)
      | .dead line eff2 => .dead line (Eff.seq eff eff2)
    else .word w 0 eff
  | r => r

/-- A word of an agent at an address that its next fetch would return without a wait or a fault. -/
def peekWord (s : State) (w : Who) (pc : DWord) : Option Word :=
  if fld pc 63 56 ≠ 0 then none
  else
    match trState s w .fetch pc.toNat with
    | .hit e => some (codeWord s (codeAddr s (placeOf s e pc.toNat)))
    | _ => none

/-- The instruction at an address, as far as it is known before its fetch. -/
def peekInstr (s : State) (w : Who) (pc : DWord) : Option Instr :=
  match peekWord s w pc with
  | none => none
  | some b =>
    if bit b.toNat 29 then (peekWord s w (pc + 4)).map (fun e => parse b.toNat e.toNat)
    else some (parse b.toNat 0)

/-- The maker of the fetches of a group. -/
def groupWho (s : State) (place : Nat) (g : Group) : Option Who :=
  let iss : Issue := { agent := .group place, pc := 0, lanes := g.live, word := 0, ext := 0 }
  (ctxOf (.reservedOpcode 0 0) iss s).map (fun c => c.who false)

/-! ## Paths (R97) -/

/-- The lanes that may issue: a handler's while one runs (R371). -/
def activeLanes (g : Group) : Word :=
  match g.tr.frames with
  | f :: _ => f.lanes &&& g.live
  | [] => g.live

/-- The paths of a group: program counters with their lanes, lowest address first. -/
def pathsOf (g : Group) : List (DWord × Word) :=
  let act := activeLanes g
  let at_ (l : Nat) : DWord := mget 0 g.sched.pc l
  let pcs := ((lanesOf act).map at_).eraseDups
  let rec ins (a : DWord) : List DWord → List DWord
    | [] => [a]
    | b :: l => if a.toNat < b.toNat then a :: b :: l else b :: ins a l
  (pcs.foldl (fun m a => ins a m) []).map (fun a => (a, maskOf (fun l => inMask act l && at_ l == a)))

/-- The instruction that holds or would hold a path of a group. -/
def pathInstr (s : State) (place : Nat) (g : Group) (pc : DWord) : Option Instr :=
  (groupWho s place g).bind (fun w => peekInstr s w pc)

/-- A path waits at a convergence instruction (R105). -/
def pathHeld (s : State) (place : Nat) (g : Group) (pc : DWord) : Bool :=
  match pathInstr s place g pc with
  | some i => isConv i
  | none => false

/-- The lanes of a path that execute its word. -/
def wordLanes (g : Group) (i : Instr) (lanes : Word) : Word :=
  let p := guardOf i
  if p.1 = 7 then (if p.2 then 0 else lanes) else maskOf (fun l => inMask lanes l && (inMask (getP g.u.regs.l p.1) l != p.2))

/-- The lanes of a path that a rejoin holds: those whose guard holds and that have not been let past (R112). The others
go on to the next instruction (R110). -/
def rejoinHolds (g : Group) (i : Instr) (lanes : Word) : Word :=
  match i with
  | .rejoin _ => wordLanes g i lanes &&& ~~~g.sched.passed
  | _ => 0

/-- The lanes of a path that wait at a rejoin. -/
def rejoinHeld (s : State) (place : Nat) (g : Group) (p : DWord × Word) : Word :=
  match pathInstr s place g p.1 with
  | some i => rejoinHolds g i p.2
  | none => 0

/-- How many instructions of other paths a path has seen since it came to its address (R105). -/
def holdCount (g : Group) (lanes : Word) : Nat :=
  (lanesOf lanes).foldl (fun m l => max m (mget 0 g.sched.hold l)) 0

/-- The age of a path. -/
def pathAge (g : Group) (lanes : Word) : Nat := (lanesOf lanes).foldl (fun m l => max m (mget 0 g.sched.age l)) 0

/-- A path is a candidate for issue (R97): it is not held, or it has been released, or some of its lanes pass its rejoin. -/
def isCandidate (s : State) (place : Nat) (g : Group) (p : DWord × Word) : Bool :=
  match pathInstr s place g p.1 with
  | some i => p.2 &&& ~~~rejoinHolds g i p.2 != 0 && (!isConv i || g.sched.released == some p)
  | none => true

/-- The lowest address at which other lanes of the group are held at a convergence instruction (R106). -/
def heldElsewhere (c : Ctx) (s : State) : Option DWord :=
  match groupOf c s with
  | none => none
  | some g =>
    ((pathsOf g).find? (fun p => p.1 != c.pc && pathHeld s c.key g p.1)).map (·.1)

end Sys2Proof.Machine
end

