-- ==== Sys2Proof/Machine/Ops.lean ====
section
/-! DEFINITION. The shared operations of every instruction: issue with its checks in the order of R51, taking a
trap (R369 to R375) and returning from one, parking (R101), and completion (R46, R98, R105, R197, R404, R411). -/

namespace Sys2Proof.Machine

/-! ## What a body answers -/

/-- Where the issuing lanes, or the stream, go. -/
inductive Go
  | seq
  /-- A target for each lane (lane 0 for the stream), with changed return stacks. -/
  | jump (target : Nat → DWord) (rs : Nat → Option (List DWord))
  /-- mseq.go: the body's length and count (R197). -/
  | loop (len count : Nat)

/-- A completed instruction: what it does to the agent's registers and in which lanes, what it does to the rest
of the state, where it goes; `sq` is the queue entry that will supply its result, `level` and `addr` what a
sample of it shows (R405). -/
structure Done where
  act   : Word
  regs  : Regs → Regs := id
  eff   : Eff := Eff.nop
  go    : Go := .seq
  sq    : Option Nat := none
  level : Nat := 0
  addr  : DWord := 0

/-- What the body of an instruction comes to. -/
inductive Res
  | done (d : Done)
  | trap (cause : Nat) (addr : DWord) (lane : Nat) (eff : Eff)
  | park (k : WaitKind) (eff : Eff)
  /-- The agent or its launch is gone, or the word has not issued. -/
  | over (eff : Eff)

/-! ## Traps -/

/-- A trap to be taken. -/
structure TrapReq where
  cause : Nat
  addr  : DWord
  lane  : Nat
  deriving DecidableEq, Repr

/-- The causes a user handler takes (R370). -/
def userCause (n : Nat) : Bool := n == 3 || n == 10 || n == 13

/-- RETRY of a cause (R370). -/
def retryOf (n : Nat) : Bool := !(n == 14 || n == 16 || n == 17)

/-- TRAPCAUSE (R373). -/
def trapCauseWord (strm retry pmode : Bool) (cause : Nat) : Word :=
  BitVec.ofNat 32 (strm.toNat * 2 ^ 15 + retry.toNat * 2 ^ 14 + pmode.toNat * 2 ^ 13 + cause % 256)

/-- TRAPLANE (R373). -/
def trapLaneWord (core part slot lane : Nat) : Word :=
  BitVec.ofNat 32 (core * 2 ^ 22 + part * 2 ^ 20 + slot * 2 ^ 16 + lane % 32)

/-- A queued atomic whose result is outstanding: a trap waits for it to land (R368, R371). -/
def trapWaits (u : UCtx) : Option Nat := u.outs.findSome? (·.sq)

/-- Every result that waits for no atomic has landed and is forgotten. -/
def settle (u : UCtx) (fresh : Nat) : UCtx :=
  let u := landAll u fresh
  { u with outs := u.outs.filter (fun o => o.sq.isSome), mark := false }

/-- A form that waits for what it has begun, which a second issue would begin again: a migration, the accesses before a tlbinv, a
queue's pre-emptions or kills. -/
def begunWait : WaitKind → Bool
  | .migration _ | .tlbinv _ _ | .saves _ | .resets _ _ _ => true
  | _ => false

/-- A waiting form that a stream trap's delivery interrupts issues again after the handler, but for a bar.sync whose arrival
is recorded, which resumes as its wait alone; an arrival not yet recorded is withdrawn (R374). So do the forms that have begun what
they wait for (log entry 64). -/
def interruptWait (u : UCtx) : UCtx × Option Wait :=
  match u.wait with
  | some w =>
    match w.kind with
    | .barWait _ key sync =>
      let mine (p : Pend) : Bool :=
        match p.kind with
        | .arrive k _ _ => k == key
        | _ => false
      if sync && u.pend.any mine then
        ({ u with wait := none, pend := u.pend.filter (fun p => !mine p) }, none)
      else ({ u with wait := none }, if sync then some w else none)
    | .monWait _ _ =>
      ({ u with wait := none, since := mdel u.since w.pc.toNat, counted := u.counted.erase w.pc.toNat }, none)
    | k => ({ u with wait := none, counted := u.counted.erase w.pc.toNat }, if begunWait k then some w else none)
  | none => (u, none)

/-- An entry that is no word's place: a word that has not acted gives its place up when it is interrupted. -/
def notHold (e : SqE) : Bool :=
  match e.kind with
  | .hold _ => false
  | _ => true

/-- Which handler takes a trap (R369): user level or system level, with cause, TRAPADDR and RETRY. -/
structure TrapTo where
  sys   : Bool
  vec   : DWord
  cause : Nat
  addr  : DWord
  retry : Bool
  deriving DecidableEq, Repr

/-- The choice of handler (R369). -/
def trapTo (g : Group) (stvec : DWord) (cause : Nat) (addr : DWord) : TrapTo :=
  if userCause cause && g.tr.utvec != 0 && !g.tr.bankU.active then
    if g.tr.utvec.toNat % 4 != 0 then { sys := true, vec := stvec, cause := 11, addr := g.tr.utvec, retry := true }
    else { sys := false, vec := g.tr.utvec, cause := cause, addr := addr, retry := retryOf cause }
  else { sys := true, vec := stvec, cause := cause, addr := addr, retry := retryOf cause }

/-- A precise trap of a group (R371): results land, the bank of the level is filled, the trapping lanes go to
the handler and every other lane is held. A trap while bank S is active is the machine check NEST (R369). -/
def takeTrap (place : Nat) (strm : Bool) (lanes : Word) (pc next : DWord) (t : TrapReq) : Eff := fun s =>
  match mfind s.groups place with
  | none => []
  | some g =>
    let core := coreOfG place
    let part := partOfG place % 4
    let slot := slotOfG place
    let frank := frankOfBlk s g.blk
    if g.tr.bankS.active then
      machineCheck ((mfind s.blocks g.blk).map (·.launch)) 20 11 core (coreSrc core 0 8) 0 s
    else
      let dest := trapTo g s.idn.stvec t.cause t.addr
      let old := if dest.sys then g.tr.bankS else g.tr.bankU
      let bank : Bank :=
        { cause := trapCauseWord strm dest.retry (sysMode g) dest.cause, pc := pc, addr := dest.addr
          lane := trapLaneWord core part slot t.lane, scr := old.scr, active := true }
      let iw := interruptWait g.u
      let frame : Frame :=
        { sys := dest.sys, lanes := lanes, held := (lanesOf lanes).map (fun l => (l, mget 0 g.sched.pc l))
          ages := g.sched.age.filter (fun e => inMask lanes e.1), trap := if strm then 0 else lanes, pc := pc, next := next
          strm := strm, wait := iw.2 }
      let tr := { g.tr with frames := frame :: g.tr.frames }
      let tr := if dest.sys then { tr with bankS := bank } else { tr with bankU := bank }
      let pcs := (lanesOf lanes).foldl (fun m l => mset 0 m l dest.vec) g.sched.pc
      let sched := { g.sched with pc := pcs, released := none
                                  age := g.sched.age.filter (fun e => !inMask lanes e.1)
                                  hold := g.sched.hold.filter (fun e => !inMask lanes e.1) }
      Eff.seq
        (fun s =>
          let u := { settle iw.1 s.fresh with since := mdel iw.1.since pc.toNat, counted := iw.1.counted.erase pc.toNat }
          [.group place { g with u := u, tr := tr, sched := sched, sq := g.sq.filter notHold }, .fresh (s.fresh + 1)])
        (emit (coreSrc core part 0) 2 t.lane slot frank
          (BitVec.ofNat 64 (dest.cause + dest.retry.toNat * 2 ^ 8 + strm.toNat * 2 ^ 9)) pc) s

/-- A trap of the stream (R175, R374): it parks until its delivery to the host group; without a live group it is
the machine check NEST. -/
def takeStreamTrap (c : Ctx) (t : TrapReq) : Eff := fun s =>
  match hostGroup s c.blkId with
  | none => machineCheck (some c.launch) 20 11 c.core (coreSrc c.core 0 8) 0 s
  | some _ =>
    Eff.seq
      (onStream c (fun x => { x with
        u := { settle x.u c.fresh with
               since := mdel x.u.since c.pc.toNat
               wait := some { kind := .trapped, pc := c.pc, next := c.next, lanes := 0, mark := false } }
        trap := some { cause := t.cause, addr := t.addr, pc := c.pc, next := c.next, delivered := false }
        tail := none }))
      (fun s => [.fresh (s.fresh + 1)]) s

/-- The lowest live lane of the group, which a uniform word's records name (R52). -/
def Ctx.uniLane (c : Ctx) : Nat := lowest c.live

/-- Taking a trap at an instruction word. A TRAP card that must stall parks the group first (R397). -/
def raise (c : Ctx) (t : TrapReq) (eff : Eff) : Eff := fun s =>
  if c.strm then Eff.seq eff (takeStreamTrap c t) s
  else Eff.seq eff (takeTrap c.key false c.lanes c.pc c.next t) s

/-- Where the stream goes after an instruction, its loop taken into account (R197). -/
def streamNext (t : Stream) (next : DWord) : Stream :=
  match t.loop with
  | none => { t with pc := next }
  | some l =>
    if l.done + 1 < l.len then { t with pc := next, loop := some { l with done := l.done + 1 } }
    else if 1 < l.left then { t with pc := l.start, loop := some { l with done := 0, left := l.left - 1 } }
    else { t with pc := next, loop := none }

/-! ## Return from a handler (R375) -/

/-- eret ends the handler in progress: its lanes return to their held counters, the trapping path to the
instruction or past it, as RETRY gives. -/
def returnFrom (place : Nat) : Eff := fun s =>
  match mfind s.groups place with
  | none => []
  | some g =>
    match g.tr.frames with
    | [] => []
    | f :: rest =>
      let bank := if f.sys then g.tr.bankS else g.tr.bankU
      let retry := bit bank.cause.toNat 14
      let back : DWord := if retry then f.pc else f.next
      let pcs := (lanesOf (f.lanes &&& g.live)).foldl (fun m l =>
        mset 0 m l (if inMask f.trap l then back else mget 0 f.held l)) g.sched.pc
      let tr := { g.tr with frames := rest }
      let tr := if f.sys then { tr with bankS := { bank with active := false } }
        else { tr with bankU := { bank with active := false } }
      let back (e : Nat × Nat) : Bool := inMask g.live e.1 && (retry || !inMask f.trap e.1)
      let ages := (f.ages.filter back).foldl (fun m e => mput m e.1 e.2) (g.sched.age.filter (fun e => !inMask f.lanes e.1))
      let sched := { g.sched with
        pc := pcs, age := ages, hold := g.sched.hold.filter (fun e => !inMask f.lanes e.1), released := none }
      let g' := { g with tr := tr, sched := sched, u := { g.u with wait := f.wait } }
      Eff.seq (fun _ => [.group place g'])
        (fun s =>
          if f.strm then
            match streamOfBlk s g.blk with
            | some (p, t) =>
              let t := { t with trap := none, u := { t.u with wait := none } }
              [.stream p (if retry then { t with pc := f.pc } else streamNext t f.next)]
            | none => []
          else []) s

/-! ## The checks before an instruction's own (R51) -/

/-- The words as TRAPADDR gives them (R52). -/
def Ctx.words (c : Ctx) : DWord := BitVec.ofNat 64 (c.iss.word.toNat + 2 ^ 32 * c.iss.ext.toNat)

/-- The uniform opcodes the stream may issue (R172). -/
def streamOp (op : Nat) : Bool :=
  decide (op ≤ 0x16) || (decide (0x18 ≤ op) && decide (op ≤ 0x24)) || (decide (0x28 ≤ op) && decide (op ≤ 0x2C)) ||
  (decide (0x3B ≤ op) && decide (op ≤ 0x3D)) || op == 0x40 || op == 0x43 || op == 0x56 || op == 0x57 ||
  op == 0x60 || op == 0x63 || op == 0x68 || decide (0x70 ≤ op)

/-- A lane opcode a copy group may issue (R103). -/
def copyLane : Instr → Bool
  | .bra _ | .call _ | .exit _ | .brk _ | .rejoin _ | .yield _ => true
  | _ => false

/-- A form the issuing role may issue (R103, R172). mtov and mvtot need a block that holds the sequencer, which
its chapter gives as ROLE too (R193). -/
def roleOk (c : Ctx) : Bool :=
  let op := opOf c.i
  if isUniform c.i then
    if c.strm then streamOp op
    else
      let matrix := decide (0x18 ≤ op) && decide (op ≤ 0x2C)
      let courier := decide (0x34 ≤ op) && decide (op ≤ 0x36)
      !matrix && !(c.vector && courier)
  else
    !c.strm && (c.vector || copyLane c.i) &&
    match c.i with
    | .mtov _ => c.blk.mat.isSome
    | .mvtot _ => c.blk.mat.isSome
    | _ => true

/-- PROFILE of the package: 1 Base, 2 Narrow, 3 Double (R14). -/
def profileOf (s : State) : Nat := bits s.idn.prof.toNat 3 0

/-- A mark rule broken (R47, R50): the earliest instruction since the last marker that writes a register this one
reads or writes; writes of y are never checked, and prf, of the hint layer, raises nothing after ROLE (R267). -/
def markBroken (c : Ctx) : Option DWord :=
  let silent := match c.i with
    | .prf _ => true
    | _ => false
  if silent || !launchMchk c.l then none
  else
    let a := acsOf c.i
    let isY (r : Reg) : Bool :=
      match r with
      | .y _ => true
      | _ => false
    let bad (o : Out) : Bool := a.reads.any (o.regs.contains ·) || a.writes.any (fun r => !isY r && o.regs.contains r)
    (c.u.outs.find? bad).map (·.pc)

/-- A form that may not stand in a body of mseq.go (R197). -/
def barredInBody : Instr → Bool
  | .mseqGo _ | .mseqEnd _ | .kbra _ | .kcall _ | .kret _ => true
  | _ => false

/-- ILL at step 2 of R51. -/
def illegal (c : Ctx) (s : State) : Bool :=
  !c.i.wf || !((headOf c.i).tidy || isHint c.i) || (!isUniform c.i && !c.strm && !rowsOk c.i c.grans) ||
  (match streamOf c s with
   | some t => t.loop.isSome && barredInBody c.i
   | none => false)

/-- The lane a check's record names: the lowest of the path, or of the group for a uniform word (R52). -/
def Ctx.checkLane (c : Ctx) : Nat := if isUniform c.i then c.uniLane else lowest c.lanes

/-- The lowest-numbered active lane, which MARKERR names (R50): of the path, under a lane word's guard; where the guard lets no
lane through, the lowest of the path (log entry 39). -/
def Ctx.markLane (c : Ctx) : Nat :=
  if isUniform c.i then lowest c.lanes
  else
    let p := guardOf c.i
    let act := maskOf (fun l => inMask c.lanes l && (c.pred 3 p.1 l != p.2))
    lowest (if act == 0 then c.lanes else act)

/-- The checks of R51 up to MARKERR; `profile` says that the form lacks in this profile. -/
def preCheck (c : Ctx) (profile : Ctx → State → Bool) (s : State) : Option TrapReq :=
  if illegal c s then some { cause := 1, addr := c.words, lane := c.checkLane }
  else if !isHint c.i && !roleOk c then some { cause := 2, addr := c.words, lane := lowest c.lanes }
  else if !isHint c.i && profile c s then some { cause := 3, addr := c.words, lane := c.checkLane }
  else
    match markBroken c with
    | some pc => some { cause := 4, addr := pc, lane := c.markLane }
    | none => none

/-- What the other lanes have seen issue rises by 1; the issuing lanes start afresh (R105). -/
def bumpHold (lanes others : Word) (m : Map Nat) : Map Nat :=
  (lanesOf others).foldl (fun m l => mput m l (mget 0 m l + 1)) (m.filter (fun e => !inMask lanes e.1))

/-- The slot of a group that issues an instruction no longer waits (R98). -/
def slotServed (c : Ctx) : Eff := fun s =>
  let p := partOfG c.key
  if c.strm then [] else [.part p { getPart s p with waited := mdel (getPart s p).waited c.slot }]

/-- Ages of lanes raised by n. -/
def ageUp (n : Nat) (ls : List Nat) (m : Map Nat) : Map Nat := ls.foldl (fun m l => mput m l (mget 0 m l + n)) m

/-- A word that counts as not issued (R98): its path ages. -/
def notIssued (c : Ctx) : Eff := onGroup c (fun g => { g with sched := { g.sched with age := ageUp 1 (lanesOf c.lanes) g.sched.age } })

/-! ## Sampling (R404 to R406) -/

/-- A load counts down the load countdown (R404). -/
def isLoad : Instr → Bool
  | .ld _ | .ldb _ | .kld _ => true
  | _ => false

/-- A countdown drawn anew (R404). -/
def drawCount (n fresh : Nat) : Nat := 2 ^ (n - 1) + Config.sampleDraw fresh % 2 ^ n

/-- One countdown's step: counted down; at 0 the instruction is taken if the sampler is free. -/
def countStep (n fresh cur : Nat) (free : Bool) : Nat × Bool :=
  if cur ≠ 0 then (cur - 1, false) else if free then (drawCount n fresh, true) else (0, false)

/-- The stages of a tagged instruction: free cycles; a uniform word has none in COLLECT and SLOT (R406). -/
def stageTimes (uniform : Bool) (fresh level : Nat) : DWord :=
  let t := setFld (Config.sampleTimes fresh) 63 60 level
  if uniform then setFld t 39 20 0 else t

/-- A partition's sampler holds no card back, and takes new samples (R397). -/
def samplerOpen (s : State) (p : Nat) : Bool :=
  !engineHeld s (clusterOf (p / 4)) (srcNum (coreSrc (p / 4) (p % 4) 4))

/-- Sampling at an instruction that a group issues: the countdowns fall, and a taken load and a taken tagged instruction go to
the partition's sampler, which follows one of each. -/
def sampleStep (c : Ctx) (d : Done) : Eff := fun s =>
  match groupOf c s with
  | none => []
  | some g =>
    let cfg := g.samp.cfg.toNat
    if cfg = 0 then []
    else
      let p := partOfG c.key
      let x := getPart s p
      let lane := if isUniform c.i then lowest c.lanes else if d.act == 0 then 255 else lowest d.act
      let card (ty : Nat) (p0 p1 : DWord) : Card :=
        { d0 := cardHead c.slot 0 lane c.frank (srcNum (coreSrc c.core c.part 4)) ty, d1 := 0, d2 := p0, d3 := p1 }
      let ld := if bit cfg 15 && isLoad c.i then
          countStep (bits cfg 14 10) s.fresh g.samp.load (x.sampling.isNone && samplerOpen s p)
        else (g.samp.load, false)
      let it := if bit cfg 9 then countStep (bits cfg 8 4) (s.fresh + 1) g.samp.inst (x.tagging.isNone && samplerOpen s p)
        else (g.samp.inst, false)
      .group c.key { g with samp := { g.samp with load := ld.1, inst := it.1 } } :: .fresh (s.fresh + 2) ::
      (if ld.2 || it.2 then
         [.part p { x with
           sampling := if ld.2 then some (card 7 (setFld (Config.sampleTimes s.fresh) 3 0 d.level) d.addr) else x.sampling
           tagging := if it.2 then some (card 8 (stageTimes (isUniform c.i) (s.fresh + 1) d.level) c.pc) else x.tagging }]
       else [])

/-! ## Parking -/

/-- The word has been counted before, when it first parked as a waiting form (R411). -/
def Ctx.counted (c : Ctx) : Bool := c.u.counted.contains c.pc.toNat

/-- The group or stream parks at the instruction (R101). A word that has not issued keeps its release; a waiting
form counts as issued (R404, R411). -/
def parkAt (c : Ctx) (k : WaitKind) : Eff :=
  let w : Wait := { kind := k, pc := c.pc, next := c.next, lanes := c.lanes, mark := (headOf c.i).marker }
  let isRetry := match k with
    | .retry _ => true
    | _ => false
  let isCopy := match k with
    | .retry (.window _ _) => true
    | _ => false
  let keeps := isRetry || (match k with
    | .monWait _ _ => true
    | _ => false)
  let held (u : UCtx) : UCtx :=
    { u with
      wait := some w
      since := if keeps then mput u.since c.pc.toNat (mget c.cyc u.since c.pc.toNat) else u.since
      copied := if isCopy then c.pc.toNat :: u.copied.erase c.pc.toNat else u.copied }
  Eff.seq
    (if c.strm then onStream c (fun t => { t with u := held t.u, tail := if isRetry then t.tail else none })
     else onGroup c (fun g => { g with
       u := held g.u
       sched := { g.sched with
         released := if isRetry && isConv c.i then some (c.pc, c.lanes) else none
         hold := if isRetry then g.sched.hold else bumpHold c.lanes (activeLanes g &&& ~~~c.lanes) g.sched.hold } }))
    (Eff.when (!isRetry) (Eff.seq (slotServed c)
      (Eff.when (!c.counted) (Eff.seq (count c.frank 2 1) (sampleStep c { act := c.lanes })))))

/-! ## Completion -/

/-- The registers an instruction leaves outstanding: what it writes, and the y shift (R46). -/
def outRegs (i : Instr) : List Reg :=
  (acsOf i).writes ++ (if (acsOf i).y then [.y 0, .y 1, .y 2, .y 3] else [])

/-- The shared part after an instruction: its registers, its outstanding result, its marker. -/
def finishU (c : Ctx) (d : Done) (u : UCtx) : UCtx :=
  let rs := outRegs c.i
  let o : Out := { pc := c.pc, regs := rs, lanes := d.act, before := u.regs, sq := d.sq, landed := false }
  { u with regs := d.regs u.regs, outs := if rs.isEmpty then u.outs else u.outs ++ [o]
           mark := u.mark || (headOf c.i).marker, wait := none, since := mdel u.since c.pc.toNat
           copied := u.copied.erase c.pc.toNat, counted := u.counted.erase c.pc.toNat }

/-- The paths of the group after an instruction: counters, return stacks, ages, and the counts of what the other
lanes have seen issue (R97, R98, R105). -/
def finishSched (c : Ctx) (d : Done) (others : Word) (x : Sched) : Sched :=
  let ls := lanesOf c.lanes
  let target (l : Nat) : DWord :=
    match d.go with
    | .jump f _ => f l
    | _ => c.next
  let stack (l : Nat) : Option (List DWord) :=
    match d.go with
    | .jump _ r => r l
    | _ => none
  { x with
    pc := ls.foldl (fun m l => mset 0 m l (target l)) x.pc
    rs := ls.foldl (fun m l =>
      match stack l with
      | some st => mset [] m l st
      | none => m) x.rs
    age := x.age.filter (fun e => !inMask c.lanes e.1)
    hold := bumpHold c.lanes others x.hold
    released := none
    forced := x.forced &&& ~~~c.lanes
    passed := x.passed &&& ~~~c.lanes }

/-- The load that an instruction of the stream has just forked (R184). -/
def loadTail (c : Ctx) (t : Stream) : Option LoadTail :=
  let tail (w : UniW) : Option LoadTail :=
    t.ops.getLast?.map (fun o => { id := o.id, pc := c.pc, loop := t.loop, reg := fs w 31 28 })
  match c.i with
  | .mload w => tail w
  | .mloadx w => tail w
  | _ => none

/-- The stream after an instruction. -/
def finishStream (c : Ctx) (d : Done) (t : Stream) : Stream :=
  let t := { t with u := finishU c d t.u, tail := loadTail c t }
  match d.go with
  | .seq => streamNext t c.next
  | .jump f r => { t with pc := f 0, rs := (r 0).getD t.rs }
  | .loop len cnt => { t with pc := c.next, loop := some { start := c.next, len := len, done := 0, left := cnt } }

/-- What an instruction counts at issue (R411): its lanes, or one uniform instruction; hints count nothing. -/
def issueCount (c : Ctx) (d : Done) : Eff :=
  if isUniform c.i then Eff.when (!isHint c.i) (count c.frank 2 1) else count c.frank 1 (popCount d.act)

/-- Completion of an instruction: its own effect, then its agent. -/
def finish (c : Ctx) (d : Done) : Eff :=
  Eff.all
    [d.eff,
     if c.strm then onStream c (finishStream c d)
     else onGroup c (fun g => { g with
       u := finishU c d g.u, sched := finishSched c d (activeLanes g &&& ~~~c.lanes) g.sched }),
     fun s => [.fresh (s.fresh + 1)],
     slotServed c,
     Eff.when (!c.counted) (Eff.seq (issueCount c d) (sampleStep c d))]

/-! ## Issue -/

/-- The USPLIT card of a convergence instruction that executes while lanes are held elsewhere (R106). -/
def usplit (c : Ctx) (s : State) : Option DWord := if isConv c.i then heldElsewhere c s else none

/-- The cluster whose trace buffer the issuing core's cards enter. -/
def Ctx.cl (c : Ctx) : Nat := clusterOf c.core

/-- The USPLIT card (R390). -/
def splitCard (c : Ctx) (split : Option DWord) : Eff :=
  match split with
  | some a => emit (coreSrc c.core c.part 0) 3 (lowest c.lanes) c.slot c.frank c.pc a
  | none => Eff.nop

/-- A word's trap: it is taken when its TRAP card need not stall (R397) and every earlier result has landed (R371); until then
the word parks without effect and issues again. -/
def trapOr (c : Ctx) (t : TrapReq) (eff : Eff) : Eff := fun s =>
  if !c.strm && mustStall s (coreSrc c.core c.part 0) 2 c.frank then parkAt c (.retry (.stall c.cl)) s
  else
    match trapWaits c.u with
    | some id => parkAt c (.retry (.sqEntry id)) s
    | none => raise c t eff s

/-- An instruction word issues: the checks of R51 in order, a USPLIT card's stall (R397), then its body. The card comes when
the word issues: with a form that parks to wait, before it parks. -/
def issueEff (c : Ctx) (profile : Ctx → State → Bool) (body : Ctx → State → Res) : Eff := fun s =>
  match preCheck c profile s with
  | some t => trapOr c t Eff.nop s
  | none =>
    let split := usplit c s
    if split.isSome && mustStall s (coreSrc c.core c.part 0) 3 c.frank then parkAt c (.retry (.stall c.cl)) s
    else
      match body c s with
      | .trap cause addr lane eff => trapOr c { cause := cause, addr := addr, lane := lane } eff s
      | .park (.retry y) eff => Eff.seq eff (parkAt c (.retry y)) s
      | .park k eff => Eff.all [splitCard c split, eff, parkAt c k] s
      | .over eff => eff s
      | .done d =>
        Eff.seq
          (splitCard c split) (finish c d) s

/-- A form that every profile has. -/
def anyProfile : Ctx → State → Bool := fun _ _ => false

/-- The meaning of an instruction word, of a profile: the issuing agent stands in the state. -/
def issueP (i : Instr) (profile : Ctx → State → Bool) (body : Ctx → State → Res) (s : State) :
    Host.Outcome State Fault Refusal :=
  match s.cur with
  | none => .fault .noIssuer
  | some iss =>
    match ctxOf i iss s with
    | none => .fault .noIssuer
    | some c => commit (issueEff c profile body) s

/-- The meaning of an instruction word that every profile has. -/
def issue (i : Instr) (body : Ctx → State → Res) (s : State) : Host.Outcome State Fault Refusal :=
  issueP i anyProfile body s

/-! ## A waiting form returns -/

/-- A parked form completes (R101): registers written, its lanes go past it, its marker acts. -/
def wake (a : Agent) (sets : List Reg) (regs : Regs → Regs) : Eff := fun s =>
  let fin (u : UCtx) (w : Wait) : UCtx :=
    let o : Out := { pc := w.pc, regs := sets, lanes := 0, before := u.regs, sq := none, landed := false }
    { u with regs := regs u.regs, outs := if sets.isEmpty then u.outs else u.outs ++ [o]
             mark := u.mark || w.mark, wait := none, since := mdel u.since w.pc.toNat, counted := u.counted.erase w.pc.toNat }
  match a with
  | .group p =>
    match mfind s.groups p with
    | none => []
    | some g =>
      match g.u.wait with
      | none => []
      | some w =>
        let pcs := (lanesOf w.lanes).foldl (fun m l => mset 0 m l w.next) g.sched.pc
        [.group p { g with u := fin g.u w
                           sched := { g.sched with pc := pcs, released := none
                                                   hold := g.sched.hold.filter (fun e => !inMask w.lanes e.1)
                                                   age := g.sched.age.filter (fun e => !inMask w.lanes e.1) } }]
  | .stream p =>
    match mfind s.streams p with
    | none => []
    | some t =>
      match t.u.wait with
      | none => []
      | some w => [.stream p (streamNext { t with u := fin t.u w } w.next)]

/-- A waiting form goes back to its issue without being counted again (R411). -/
def reissue (u : UCtx) : UCtx :=
  match u.wait with
  | some w => { u with wait := none, counted := w.pc.toNat :: u.counted.erase w.pc.toNat }
  | none => u

/-- A word that had not issued may issue again. -/
def retry (a : Agent) : Eff := fun s =>
  match a with
  | .group p =>
    match mfind s.groups p with
    | some g => [.group p { g with u := { g.u with wait := none } }]
    | none => []
  | .stream p =>
    match mfind s.streams p with
    | some t => [.stream p { t with u := { t.u with wait := none } }]
    | none => []

end Sys2Proof.Machine
end

