-- ==== Sys2Proof/Machine/Uniform.lean ====
section
/-! DEFINITION. Uniform arithmetic, moves, loop counters and completion registers (05: R134 to R137, R152 to
R156). -/

namespace Sys2Proof.Machine

/-- A uniform form that writes kD. -/
def uniRes (c : Ctx) (w : UniW) (v : Nat) : Res := .done { act := c.lanes, regs := putU w.d (v % 2 ^ 64) }

/-- KADD. -/
def execKadd (w : UniW) : State → Host.Outcome State Fault Refusal :=
  issue (.kadd w) (fun c _ => uniRes c w (c.ua w + c.ubI w))

/-- KSUB. -/
def execKsub (w : UniW) : State → Host.Outcome State Fault Refusal :=
  issue (.ksub w) (fun c _ => uniRes c w (patOf ((c.ua w : Int) - (c.ubI w : Int)) 64))

/-- KMUL. -/
def execKmul (w : UniW) : State → Host.Outcome State Fault Refusal :=
  issue (.kmul w) (fun c _ => uniRes c w (c.ua w * c.ubI w))

/-- KAND. -/
def execKand (w : UniW) : State → Host.Outcome State Fault Refusal :=
  issue (.kand w) (fun c _ => uniRes c w (Nat.land (c.ua w) (c.ubI w)))

/-- KOR. -/
def execKor (w : UniW) : State → Host.Outcome State Fault Refusal :=
  issue (.kor w) (fun c _ => uniRes c w (Nat.lor (c.ua w) (c.ubI w)))

/-- KXOR. -/
def execKxor (w : UniW) : State → Host.Outcome State Fault Refusal :=
  issue (.kxor w) (fun c _ => uniRes c w (Nat.xor (c.ua w) (c.ubI w)))

/-- KSHL: 0 for amounts of 64 and more. -/
def execKshl (w : UniW) : State → Host.Outcome State Fault Refusal :=
  issue (.kshl w) (fun c _ => uniRes c w (if 64 ≤ c.ubI w then 0 else c.ua w * 2 ^ c.ubI w))

/-- KSHR. -/
def execKshr (w : UniW) : State → Host.Outcome State Fault Refusal :=
  issue (.kshr w) (fun c _ => uniRes c w (if 64 ≤ c.ubI w then 0 else c.ua w / 2 ^ c.ubI w))

/-- KMIN: as signed values. -/
def execKmin (w : UniW) : State → Host.Outcome State Fault Refusal :=
  issue (.kmin w) (fun c _ => uniRes c w (if sextN (c.ubI w) 64 < sextN (c.ua w) 64 then c.ubI w else c.ua w))

/-- KMAX: as signed values. -/
def execKmax (w : UniW) : State → Host.Outcome State Fault Refusal :=
  issue (.kmax w) (fun c _ => uniRes c w (if sextN (c.ua w) 64 < sextN (c.ubI w) 64 then c.ubI w else c.ua w))

/-- KCMP (R153). -/
def execKcmp (w : UniW) : State → Host.Outcome State Fault Refusal :=
  issue (.kcmp w) (fun c _ =>
    let n := fs w 6 4
    let t := kcmpCond (fs w 3 0) (c.ua w) (c.ub w)
    let v := kcmpComb (fs w 9 8) (c.kpred 2 n) t
    .done { act := c.lanes, regs := fun r => { r with u := setKp r.u n v } })

/-- KSEL (R154). -/
def execKsel (w : UniW) : State → Host.Outcome State Fault Refusal :=
  issue (.ksel w) (fun c _ => uniRes c w (if c.kpred 2 (fs w 2 0) != (fs w 3 3 == 1) then c.ua w else c.ub w))

/-- KMOV. -/
def execKmov (w : UniW) : State → Host.Outcome State Fault Refusal :=
  issue (.kmov w) (fun c _ => uniRes c w (c.ua w))

/-- KMOVI: field B or the extension word. -/
def execKmovi (w : UniW) : State → Host.Outcome State Fault Refusal :=
  issue (.kmovi w) (fun c _ => uniRes c w (c.ubI w))

/-- LCSET (R155): SIZE first under SETM, then the value mod the size; a write of lmN reduces lcN. -/
def execLcset (w : UniW) : State → Host.Outcome State Fault Refusal :=
  issue (.lcset w) (fun c _ =>
    let a := c.ua w
    .done
      { act := c.lanes
        regs := fun r =>
          match w.d with
          | .lc n =>
            let u := if fs w 31 31 = 1 then setLm r.u n.val (BitVec.ofNat 32 (fs w 30 0)) else r.u
            { r with u := setLc u n.val a }
          | .lm n => { r with u := setLm r.u n.val (BitVec.ofNat 32 a) }
          | _ => r })

/-- The residue of a loop counter's sum. -/
def lcSum (lc b : Nat) (size : Word) : Nat :=
  let m : Int := if size == 0 then 2 ^ 32 else size.toNat
  (((lc : Int) + sextN b 64) % m).toNat

/-- LCSTEP (R155). -/
def execLcstep (w : UniW) : State → Host.Outcome State Fault Refusal :=
  issue (.lcstep w) (fun c _ =>
    match w.d with
    | .lc n =>
      let v := lcSum (c.uf 0 w.d) (c.ub w) (getLm c.u.regs.u n.val)
      .done { act := c.lanes, regs := fun r => { r with u := setLc r.u n.val v } }
    | _ => .done { act := c.lanes })

/-- KCSET (R156): before the additions and landings of its cycle (R137); the status word stays. -/
def execKcset (w : UniW) : State → Host.Outcome State Fault Refusal :=
  issue (.kcset w) (fun c _ =>
    .done
      { act := c.lanes
        regs := fun r =>
          match w.d with
          | .kc n => { r with u := kcSet c.cyc n.val (c.ubI w) r.u }
          | _ => r })

/-- The number of the completion register a field names. -/
def kcNum : UFld → Nat
  | .kc n => n.val
  | _ => 0

/-- The number of the k register a field names. -/
def kNum : UFld → Nat
  | .k n => n.val
  | _ => 0

/-- kcwait's end: kD takes the status word, which is cleared (R156). -/
def kcwaitRegs (d kc : Nat) (r : Regs) : Regs :=
  let r' := putK d (getKst r.u kc).toNat r
  { r' with u := { setKst r'.u kc 0 with kcn := mdel r'.u.kcn kc } }

/-- KCWAIT: released at once when the count is 0, else parked. -/
def execKcwait (w : UniW) : State → Host.Outcome State Fault Refusal :=
  issue (.kcwait w) (fun c _ =>
    let kc := kcNum w.a
    if getKc c.u.regs.u kc == 0 then .done { act := c.lanes, regs := kcwaitRegs (kNum w.d) kc }
    else .park (.kcwait (kNum w.d) kc) Eff.nop)

end Sys2Proof.Machine
end

