-- ==== Sys2Proof/Machine/Control.lean ====
section
/-! DEFINITION. Branches, calls, exit, rejoin and yield of lanes, and the uniform branches (04: R109 to R114,
R124). -/

namespace Sys2Proof.Machine

/-- The return stack of a lane, or the stream's. -/
def stackOf (c : Ctx) (s : State) (l : Nat) : List DWord :=
  if c.strm then
    match streamOf c s with
    | some t => t.rs
    | none => []
  else
    match groupOf c s with
    | some g => mget [] g.sched.rs l
    | none => []

/-- An address plus a displacement in words. -/
def wordsFrom (pc : DWord) (disp : Int) : DWord := BitVec.ofNat 64 (patOf ((pc.toNat : Int) + 4 * disp) 64)

/-- Lanes that move to targets; the others of the path go on. -/
def goTo (c : Ctx) (act : Word) (target : Nat → DWord) : Res :=
  .done { act := act, go := .jump (fun l => if inMask act l then target l else c.next) (fun _ => none) }

/-- The same with the next address pushed; a full stack is CALLDEPTH (R111). -/
def callTo (c : Ctx) (s : State) (act : Word) (target : Nat → DWord) : Res :=
  match (lanesOf act).find? (fun l => decide (16 ≤ (stackOf c s l).length)) with
  | some l => .trap 15 0 l Eff.nop
  | none =>
    .done { act := act
            go := .jump (fun l => if inMask act l then target l else c.next)
              (fun l => if inMask act l then some (c.next :: stackOf c s l) else none) }

/-- Lanes that pop; an empty stack is CALLDEPTH. -/
def popTo (c : Ctx) (s : State) (act : Word) : Res :=
  match (lanesOf act).find? (fun l => (stackOf c s l).isEmpty) with
  | some l => .trap 15 0 l Eff.nop
  | none =>
    .done { act := act
            go := .jump (fun l => if inMask act l then (stackOf c s l).headD 0 else c.next)
              (fun l => if inMask act l then some ((stackOf c s l).drop 1) else none) }

/-- The target of a branch word. -/
def braTarget (c : Ctx) (w : BraW) : DWord := wordsFrom c.pc (sextN w.disp.toNat 19)

/-- BRA. -/
def execBra (w : BraW) : State → Host.Outcome State Fault Refusal :=
  issue (.bra w) (fun c _ => goTo c (c.active w.g w.gn) (fun _ => braTarget c w))

/-- CALL. -/
def execCall (w : BraW) : State → Host.Outcome State Fault Refusal :=
  issue (.call w) (fun c s => callTo c s (c.active w.g w.gn) (fun _ => braTarget c w))

/-- The target a lane reads from A. -/
def Ctx.target (c : Ctx) (w : LaneW) (l : Nat) : DWord := BitVec.ofNat 64 (c.src 0 .n64 w.a l)

/-- ALIGN for the lowest lane whose target is no word address, else the rest (R110). -/
def alignedThen (c : Ctx) (w : LaneW) (k : Word → Res) : Res :=
  let act := c.active w.g w.gn
  match (lanesOf act).find? (fun l => (c.target w l).toNat % 4 != 0) with
  | some l => .trap 11 (c.target w l) l Eff.nop
  | none => k act

/-- BRX. -/
def execBrx (w : LaneW) : State → Host.Outcome State Fault Refusal :=
  issue (.brx w) (fun c _ => alignedThen c w (fun act => goTo c act (c.target w)))

/-- CALLX. -/
def execCallx (w : LaneW) : State → Host.Outcome State Fault Refusal :=
  issue (.callx w) (fun c s => alignedThen c w (fun act => callTo c s act (c.target w)))

/-- RET. -/
def execRet (w : LaneW) : State → Host.Outcome State Fault Refusal :=
  issue (.ret w) (fun c s => popTo c s (c.active w.g w.gn))

/-- Lanes exit; with the last one the group is ending (R124). Where all lanes of a running handler exit while other lanes
are held, no lane may issue and the group stays as it is: the spec does not say more (log entry 38). -/
def exitLanes (act : Word) (g : Group) : Group :=
  let live := g.live &&& ~~~act
  { g with live := live, ending := g.ending || live == 0 }

/-- EXIT. -/
def execExit (w : LaneW) : State → Host.Outcome State Fault Refusal :=
  issue (.exit w) (fun c _ =>
    let act := c.active w.g w.gn
    .done { act := act, eff := onGroup c (exitLanes act) })

/-- BRK: BREAK with the code, if the guard holds in a lane. -/
def execBrk (w : LaneW) : State → Host.Outcome State Fault Refusal :=
  issue (.brk w) (fun c _ =>
    let act := c.active w.g w.gn
    if act == 0 then .done { act := act }
    else .trap 14 (BitVec.ofNat 64 (c.src 1 .n32 w.b (lowest act))) (lowest act) Eff.nop)

/-- REJOIN: a path that is no longer held goes on (R112); the hold is a matter of candidacy. -/
def execRejoin (w : LaneW) : State → Host.Outcome State Fault Refusal :=
  issue (.rejoin w) (fun c _ => .done { act := c.active w.g w.gn })

/-- The age at which a path of a core is forced (R99). -/
def ageLimit (s : State) (core : Nat) : Nat := max 1 (((getCore s core).agewas.getD (getCore s core).agelim).toNat % 65536)

/-- What yield does to its group (R113): it is held back, and the other candidate paths age. -/
def yieldGroup (c : Ctx) (s : State) (limit : Nat) (g : Group) : Group :=
  let others := ((pathsOf g).filter (fun p => p.1 != c.pc && isCandidate s c.key g p)).flatMap (fun p => lanesOf p.2)
  { g with sched := { g.sched with
      yielded := true
      age := others.foldl (fun m l => mput m l (max (mget 0 m l) (limit - 1))) g.sched.age } }

/-- YIELD. -/
def execYield (w : LaneW) : State → Host.Outcome State Fault Refusal :=
  issue (.yield w) (fun c s =>
    let act := c.active w.g w.gn
    .done { act := act, eff := Eff.when (act != 0) (onGroup c (yieldGroup c s (ageLimit s c.core))) })

/-! ## Uniform branches (R114) -/

/-- The condition that field A codes. -/
def Ctx.kcond (c : Ctx) (w : UniW) : Bool := kbraCond (c.kpred 0) (kNum w.a)

/-- The target of a uniform branch. -/
def kTarget (c : Ctx) (w : UniW) : DWord := wordsFrom c.pc (sextN (c.ubI w) 64)

/-- The lanes that a uniform branch moves; the stream counts as lane 0. -/
def Ctx.movers (c : Ctx) : Word := if c.strm then 1 else c.lanes

/-- KBRA. -/
def execKbra (w : UniW) : State → Host.Outcome State Fault Refusal :=
  issue (.kbra w) (fun c _ =>
    if c.kcond w then goTo c c.movers (fun _ => kTarget c w) else .done { act := c.lanes })

/-- KCALL. -/
def execKcall (w : UniW) : State → Host.Outcome State Fault Refusal :=
  issue (.kcall w) (fun c s =>
    if c.kcond w then callTo c s c.movers (fun _ => kTarget c w) else .done { act := c.lanes })

/-- KRET. -/
def execKret (w : UniW) : State → Host.Outcome State Fault Refusal :=
  issue (.kret w) (fun c s => popTo c s c.movers)

end Sys2Proof.Machine
end

