-- ==== Sys2Proof/Machine/LaneInt.lean ====
section
/-! DEFINITION. Lane integer forms, moves and predicate logic (05: R139 to R146). -/

namespace Sys2Proof.Machine

/-! ## Shapes shared by the lane families -/

/-- A lane form with a result at TYPE in each lane whose guard holds; it enters y0. -/
def laneRes (c : Ctx) (w : LaneW) (ty : Ty) (f : Nat → Nat) : Res :=
  let act := c.active w.g w.gn
  .done { act := act, regs := putLanes ty w.d true act f }

/-- A form that sets a predicate in each lane whose guard holds. -/
def predRes {α β : Type} (c : Ctx) (w : LaneForm (BitVec 7) α β) (f : Nat → Bool) : Res :=
  let act := c.active w.g w.gn
  .done { act := act, regs := putPred w.d.toNat act f }

/-- ABS, then NEG, of an exact integer (R32). -/
def absNegI (ab ng : Bool) (x : Int) : Int :=
  let y : Int := if ab then x.natAbs else x
  if ng then -y else y

/-- Operand A of an integer form: read at TYPE, modified (R32). -/
def Ctx.intA (c : Ctx) (w : LaneW) (l : Nat) : Int :=
  absNegI (qAbsA w.q) (qNegA w.q) (intVal w.ty (c.src 0 w.ty w.a l))
/-- Operand B of an integer form. -/
def Ctx.intB (c : Ctx) (w : LaneW) (l : Nat) : Int :=
  absNegI (qAbsB w.q) (qNegB w.q) (intVal w.ty (c.src 1 w.ty w.b l))
/-- Operand C of an integer form; no modifier acts on it. -/
def Ctx.intC (c : Ctx) (w : LaneW) (l : Nat) : Int := intVal w.ty (c.src 2 w.ty (srcOf w.c.toNat) l)

/-- Operand A as a pattern. -/
def Ctx.patA (c : Ctx) (w : LaneW) (l : Nat) : Nat := c.src 0 w.ty w.a l
/-- Operand B as a pattern. -/
def Ctx.patB (c : Ctx) (w : LaneW) (l : Nat) : Nat := c.src 1 w.ty w.b l
/-- Field B read at n32: an amount, a position, an index. -/
def Ctx.amtB (c : Ctx) (w : LaneW) (l : Nat) : Nat := c.src 1 .n32 w.b l
/-- Field C read at n32: a length. -/
def Ctx.amtC (c : Ctx) (w : LaneW) (l : Nat) : Nat := c.src 2 .n32 (srcOf w.c.toNat) l

/-- An exact result saturated under SAT, or wrapped, as it is written (R32, R66). -/
def intRes (w : LaneW) (x : Int) : Nat := intPat w.ty (if qSat w.q then satInt w.ty x else x)

/-- A w-bit pattern as it is written at an integer type (R66). -/
def patRes (t : Ty) (x : Nat) : Nat := intPat t (x : Int)

/-! ## Arithmetic (R140, R141) -/

/-- ADD. -/
def execAdd (w : LaneW) : State → Host.Outcome State Fault Refusal :=
  issue (.add w) (fun c _ => laneRes c w w.ty (fun l => intRes w (c.intA w l + c.intB w l)))

/-- SUB. -/
def execSub (w : LaneW) : State → Host.Outcome State Fault Refusal :=
  issue (.sub w) (fun c _ => laneRes c w w.ty (fun l => intRes w (c.intA w l - c.intB w l)))

/-- A carry form: its result and its predicate. -/
def carryRes (c : Ctx) (w : LaneW) (f : Nat → Nat × Bool) : Res :=
  let act := c.active w.g w.gn
  .done { act := act
          regs := fun r => putPred w.c.toNat act (fun l => (f l).2)
            (putLanes w.ty w.d true act (fun l => patRes w.ty (f l).1) r) }

/-- ADDC. -/
def execAddc (w : LaneW) : State → Host.Outcome State Fault Refusal :=
  issue (.addc w) (fun c _ => carryRes c w (fun l =>
    addCarry (tyWidth w.ty) (c.patA w l) (c.patB w l) (c.pred 2 w.c.toNat l)))

/-- SUBB. -/
def execSubb (w : LaneW) : State → Host.Outcome State Fault Refusal :=
  issue (.subb w) (fun c _ => carryRes c w (fun l =>
    subBorrow (tyWidth w.ty) (c.patA w l) (c.patB w l) (c.pred 2 w.c.toNat l)))

/-- MUL. -/
def execMul (w : LaneW) : State → Host.Outcome State Fault Refusal :=
  issue (.mul w) (fun c _ => laneRes c w w.ty (fun l => intRes w (c.intA w l * c.intB w l)))

/-- The high part of an exact product, rounded down. -/
def mulHigh (wd : Nat) (a b : Int) : Int := (a * b).fdiv (2 ^ wd)

/-- MULHI. -/
def execMulhi (w : LaneW) : State → Host.Outcome State Fault Refusal :=
  issue (.mulhi w) (fun c _ => laneRes c w w.ty (fun l =>
    intPat w.ty (mulHigh (tyWidth w.ty) (c.intA w l) (c.intB w l))))

/-- MAD. -/
def execMad (w : LaneW) : State → Host.Outcome State Fault Refusal :=
  issue (.mad w) (fun c _ => laneRes c w w.ty (fun l => intRes w (c.intA w l * c.intB w l + c.intC w l)))

/-- MADHI. -/
def execMadhi (w : LaneW) : State → Host.Outcome State Fault Refusal :=
  issue (.madhi w) (fun c _ => laneRes c w w.ty (fun l =>
    intPat w.ty (mulHigh (tyWidth w.ty) (c.intA w l) (c.intB w l) + c.intC w l)))

/-- A division: DIVZ names the lowest lane whose divisor is 0 (R141). -/
def divRes (c : Ctx) (w : LaneW) (f : Int → Int → Int) : Res :=
  let act := c.active w.g w.gn
  match (lanesOf act).find? (fun l => c.intB w l == 0) with
  | some l => .trap 12 0 l Eff.nop
  | none => laneRes c w w.ty (fun l => intRes w (f (c.intA w l) (c.intB w l)))

/-- DIV: the quotient rounded toward zero. -/
def execDiv (w : LaneW) : State → Host.Outcome State Fault Refusal :=
  issue (.div w) (fun c _ => divRes c w (fun a b => a.tdiv b))

/-- REM: the remainder with the sign of a. -/
def execRem (w : LaneW) : State → Host.Outcome State Fault Refusal :=
  issue (.rem w) (fun c _ => divRes c w (fun a b => a - b * a.tdiv b))

/-- MIN. -/
def execMin (w : LaneW) : State → Host.Outcome State Fault Refusal :=
  issue (.min w) (fun c _ => laneRes c w w.ty (fun l => intRes w (min (c.intA w l) (c.intB w l))))

/-- MAX. -/
def execMax (w : LaneW) : State → Host.Outcome State Fault Refusal :=
  issue (.max w) (fun c _ => laneRes c w w.ty (fun l => intRes w (max (c.intA w l) (c.intB w l))))

/-! ## Bitwise, shifts, bit fields (R142) -/

/-- AND. -/
def execAnd (w : LaneW) : State → Host.Outcome State Fault Refusal :=
  issue (.and w) (fun c _ => laneRes c w w.ty (fun l => patRes w.ty (Nat.land (c.patA w l) (c.patB w l))))

/-- OR. -/
def execOr (w : LaneW) : State → Host.Outcome State Fault Refusal :=
  issue (.or w) (fun c _ => laneRes c w w.ty (fun l => patRes w.ty (Nat.lor (c.patA w l) (c.patB w l))))

/-- XOR. -/
def execXor (w : LaneW) : State → Host.Outcome State Fault Refusal :=
  issue (.xor w) (fun c _ => laneRes c w w.ty (fun l => patRes w.ty (Nat.xor (c.patA w l) (c.patB w l))))

/-- The complement of a pattern. -/
def notPat (wd x : Nat) : Nat := 2 ^ wd - 1 - x % 2 ^ wd

/-- ANDN: a and not b. -/
def execAndn (w : LaneW) : State → Host.Outcome State Fault Refusal :=
  issue (.andn w) (fun c _ => laneRes c w w.ty (fun l =>
    patRes w.ty (Nat.land (c.patA w l) (notPat (tyWidth w.ty) (c.patB w l)))))

/-- A left shift; 0 from the width on. -/
def shlPat (wd x s : Nat) : Nat := if wd ≤ s then 0 else x * 2 ^ s % 2 ^ wd
/-- A logical right shift; 0 from the width on. -/
def shrPat (wd x s : Nat) : Nat := if wd ≤ s then 0 else x % 2 ^ wd / 2 ^ s
/-- An arithmetic right shift; all sign bits from the width on. -/
def sarPat (wd x s : Nat) : Nat := patOf ((sextN x wd).fdiv (2 ^ (min s wd))) wd
/-- A rotation left by s mod the width. -/
def rotPat (wd x s : Nat) : Nat :=
  let k := s % wd
  (x % 2 ^ wd * 2 ^ k + x % 2 ^ wd / 2 ^ (wd - k)) % 2 ^ wd

/-- SHL. -/
def execShl (w : LaneW) : State → Host.Outcome State Fault Refusal :=
  issue (.shl w) (fun c _ => laneRes c w w.ty (fun l =>
    patRes w.ty (shlPat (tyWidth w.ty) (c.patA w l) (c.amtB w l))))

/-- SHR. -/
def execShr (w : LaneW) : State → Host.Outcome State Fault Refusal :=
  issue (.shr w) (fun c _ => laneRes c w w.ty (fun l =>
    patRes w.ty (shrPat (tyWidth w.ty) (c.patA w l) (c.amtB w l))))

/-- SAR. -/
def execSar (w : LaneW) : State → Host.Outcome State Fault Refusal :=
  issue (.sar w) (fun c _ => laneRes c w w.ty (fun l =>
    patRes w.ty (sarPat (tyWidth w.ty) (c.patA w l) (c.amtB w l))))

/-- ROT. -/
def execRot (w : LaneW) : State → Host.Outcome State Fault Refusal :=
  issue (.rot w) (fun c _ => laneRes c w w.ty (fun l =>
    patRes w.ty (rotPat (tyWidth w.ty) (c.patA w l) (c.amtB w l))))

/-- Bits of a pattern up to its highest one. -/
def bitLen (x : Nat) : Nat := if x = 0 then 0 else Nat.log2 x + 1
/-- One bits of a pattern. -/
def onesOf (wd x : Nat) : Nat := ((List.range wd).filter (bit x)).length
/-- A pattern with its bits in reverse order. -/
def revPat (wd x : Nat) : Nat := (List.range wd).foldl (fun a i => a + (if bit x (wd - 1 - i) then 2 ^ i else 0)) 0

/-- CLZ. -/
def execClz (w : LaneW) : State → Host.Outcome State Fault Refusal :=
  issue (.clz w) (fun c _ => laneRes c w w.ty (fun l => tyWidth w.ty - bitLen (c.patA w l)))

/-- POPC. -/
def execPopc (w : LaneW) : State → Host.Outcome State Fault Refusal :=
  issue (.popc w) (fun c _ => laneRes c w w.ty (fun l => onesOf (tyWidth w.ty) (c.patA w l)))

/-- BREV. -/
def execBrev (w : LaneW) : State → Host.Outcome State Fault Refusal :=
  issue (.brev w) (fun c _ => laneRes c w w.ty (fun l => patRes w.ty (revPat (tyWidth w.ty) (c.patA w l))))

/-- The field of n bits from p on, extended by signedness (R142). -/
def bfxPat (t : Ty) (x p n : Nat) : Int :=
  let wd := tyWidth t
  if wd ≤ p || n = 0 then 0
  else
    let m := min n (wd - p)
    let f := bits x (p + m - 1) p
    if tySigned t then sextN f m else f

/-- BFX. -/
def execBfx (w : LaneW) : State → Host.Outcome State Fault Refusal :=
  issue (.bfx w) (fun c _ => laneRes c w w.ty (fun l =>
    intPat w.ty (bfxPat w.ty (c.patA w l) (c.amtB w l) (c.amtC w l))))

/-- A pattern with n bits from p on replaced (R142). -/
def bfiPat (wd old x p n : Nat) : Nat :=
  if wd ≤ p || n = 0 then old
  else
    let m := min n (wd - p)
    old - bits old (p + m - 1) p * 2 ^ p + x % 2 ^ m * 2 ^ p

/-- The destination read as a source. -/
def dstSrc : Dst → Src
  | .v n => .v n
  | .q n => .q n

/-- BFI. -/
def execBfi (w : LaneW) : State → Host.Outcome State Fault Refusal :=
  issue (.bfi w) (fun c _ => laneRes c w w.ty (fun l =>
    patRes w.ty (bfiPat (tyWidth w.ty) (c.src 2 w.ty (dstSrc w.d) l) (c.patA w l) (c.amtB w l) (c.amtC w l))))

/-! ## LEA, comparison, moves (R143 to R146) -/

/-- LEA: A plus B extended and shifted. B is a 32-bit pattern (log entry 29). -/
def execLea (w : LaneW) : State → Host.Outcome State Fault Refusal :=
  issue (.lea w) (fun c _ => laneRes c w w.ty (fun l =>
    let b := c.src 1 .xf w.b l
    let x : Int := if bit w.c.toNat 6 then (b : Int) else sextN b 32
    patOf ((c.patA w l : Int) + x * 2 ^ (bits w.c.toNat 5 0)) (tyWidth w.ty)))

/-- CMP. -/
def execCmp (sub : BitVec 4) (w : PredW) : State → Host.Outcome State Fault Refusal :=
  issue (.cmp sub w) (fun c _ => predRes c w (fun l =>
    cmpCond w.ty sub.toNat (c.src 0 w.ty w.a l) (c.src 1 w.ty w.b l)))

/-- A pattern of a type as a move writes it. -/
def movePat (t : Ty) (x : Nat) : Nat := if tyIsInt t then patRes t x else x

/-- SEL. -/
def execSel (w : LaneW) : State → Host.Outcome State Fault Refusal :=
  issue (.sel w) (fun c _ => laneRes c w w.ty (fun l =>
    movePat w.ty (if c.pred 2 w.c.toNat l then c.patA w l else c.patB w l)))

/-- MOV. -/
def execMov (w : LaneW) : State → Host.Outcome State Fault Refusal :=
  issue (.mov w) (fun c _ => laneRes c w w.ty (fun l => movePat w.ty (c.patA w l)))

/-- MOVK. -/
def execMovk (w : KMovW) : State → Host.Outcome State Fault Refusal :=
  issue (.movk w) (fun c _ =>
    let act := c.active w.g w.gn
    .done { act := act, regs := putLanes w.ty w.d true act (fun _ => c.kreg 0 w.a.toNat % 2 ^ tyWidth w.ty) })

/-- PAND. -/
def execPand (w : PLogW) : State → Host.Outcome State Fault Refusal :=
  issue (.pand w) (fun c _ => predRes c w (fun l => c.pred 0 w.a.toNat l && c.pred 1 w.b.toNat l))

/-- POR. -/
def execPor (w : PLogW) : State → Host.Outcome State Fault Refusal :=
  issue (.por w) (fun c _ => predRes c w (fun l => c.pred 0 w.a.toNat l || c.pred 1 w.b.toNat l))

/-- PXOR. -/
def execPxor (w : PLogW) : State → Host.Outcome State Fault Refusal :=
  issue (.pxor w) (fun c _ => predRes c w (fun l => c.pred 0 w.a.toNat l != c.pred 1 w.b.toNat l))

/-- PNOT. -/
def execPnot (w : PLogW) : State → Host.Outcome State Fault Refusal :=
  issue (.pnot w) (fun c _ => predRes c w (fun l => !c.pred 0 w.a.toNat l))

end Sys2Proof.Machine
end

