-- ==== Sys2Proof/Machine/LaneMem.lean ====
section
/-! DEFINITION. Lane memory forms (10: R250 to R254, R261 to R267; 13: R316 to R324). -/

namespace Sys2Proof.Machine

/-! ## Floors and tags (R318, R319) -/

/-- A lane's floor for a region; 0 when it has none. -/
def floorOf (g : Group) (lane r : Nat) : Nat :=
  match (mget [] g.floors lane).find? (fun e => e.1 == r) with
  | some e => e.2
  | none => 0

/-- A lane has a floor entry for a region. -/
def hasFloor (g : Group) (lane r : Nat) : Bool := (mget [] g.floors lane).any (fun e => e.1 == r)

/-- A lane's floor for a region raised to n: the entry set least recently gives way, with OVF. -/
def raiseFloor (lane r n : Nat) (g : Group) : Group :=
  let t := mget [] g.floors lane
  let rest := t.filter (fun e => e.1 != r)
  let full := rest.length == t.length && decide (4 ≤ t.length)
  { g with
    floors := mset [] g.floors lane ((if full then rest.drop 1 else rest) ++ [(r, max (floorOf g lane r) n)])
    ovf := if full then g.ovf ||| ((1 : Word) <<< lane) else g.ovf }

/-- The tags a line takes that is filled for an access of a lane (R318). -/
def tagsFor (c : Ctx) (s : State) (lane : Nat) (ea : DWord) : Map Nat :=
  match (vPieces (c.who true) 1 lane ea).head? with
  | some p =>
    match regionOf s c.asid p.1 with
    | some r =>
      let f := match groupOf c s with
        | some g => floorOf g lane r
        | none => 0
      [(r, max (knownRound s c.core r) f)]
    | none => []
  | none => []

/-! ## Requests -/

/-- The effective address of a form with an offset (R251). -/
def Ctx.ea (c : Ctx) (w : LaneW) (l : Nat) : DWord :=
  BitVec.ofNat 64 (patOf ((c.src 0 .n64 w.a l : Int) + sextN (c.src 1 .i32 w.b l) 32) 64)

/-- The address of a form without one. -/
def Ctx.ea0 (c : Ctx) (w : LaneW) (l : Nat) : DWord := BitVec.ofNat 64 (c.src 0 .n64 w.a l)

/-- The accesses of the lanes of a mask, ascending. -/
def reqsOf (act : Word) (f : Nat → DWord) : List LReq := (lanesOf act).map (fun l => { lane := l, ea := f l })

/-- Bytes of an access at a type. -/
def tyBytes (t : Ty) : Nat := tyWidth t / 8

/-- The level that serves an access (R405); `waited` says that it waited for a window's copy. Whether the L2 slice of an
LPDDR-5X or CXL line's home held the line is a free choice (log entry 60). -/
def levelOf (s : State) (core : Nat) (useL1 waited : Bool) (ps : List Piece) : Nat :=
  let far (a tier : Nat) : Nat := if l2Holds s a then 6 else tier
  match ps with
  | [] => 0
  | p :: _ =>
    match p.place with
    | .spad c _ => if waited then 12 else if c = core then 2 else 3
    | .counter _ _ => 11
    | _ =>
      match physRuns s [p] with
      | (a, _, _) :: _ =>
        if useL1 && servedL1 s core a then 1
        else if a ≥ 2 ^ 48 then 10
        else if a ≥ 2 ^ 47 then 9
        else if a ≥ 0x100000000000 then far a 8
        else if a ≥ 0x10000000000 then far a 7
        else if a / 0x2000000 = core then 4 else 5
      | [] => 0

/-- The level of the first lane's access of the word that issues. -/
def Ctx.level (c : Ctx) (s : State) (useL1 : Bool) (at_ : List (Nat × List Piece)) : Nat :=
  levelOf s c.core useL1 (c.u.copied.contains c.pc.toNat) ((at_.headD (0, [])).2)

/-! ## Loads -/

/-- How a load reads: its L1 qualifiers and whether a root switch serves it. -/
structure LdMode where
  useL1 : Bool := true
  alloc : Bool := true
  span  : Nat := 512
  root  : Bool := false
  /-- Acquire: the counter words it covers raise floors (R319). -/
  acq   : Bool := false

/-- What a load heard: rounds of the counter words it covers, and under acquire the floors of its lanes. -/
def heardEff (c : Ctx) (acq : Bool) (lanes : Nat → List Nat) (at_ : List (Nat × List Piece)) : Eff :=
  Eff.forEach at_ (fun e => Eff.forEach e.2 (fun p =>
    match p.place with
    | .counter r _ => fun s =>
      let n := countOf s r
      Eff.seq (hear c.core r n)
        (if acq then onGroup c (fun g => (lanes e.1).foldl (fun g l => raiseFloor l r n g) g) else Eff.nop) s
    | _ => Eff.nop))

/-- The bytes of a root-served load cross the issuer's link to the root (R277, R303, R411). -/
def countRoot (frank : Nat) (ps : List Piece) : Eff :=
  Eff.forEach ps (fun p =>
    match p.place with
    | .repl _ _ _ => count frank 13 p.len
    | _ => Eff.nop)

/-- A piece of a replicated page. -/
def isRepl (p : Piece) : Bool :=
  match p.place with
  | .repl _ _ _ => true
  | _ => false

/-- The misses of a load: each line is filled, with the tags of its lane, or read without a fill; what the root serves is not
fetched from a replica. -/
def missesEff (c : Ctx) (m : LdMode) (rs : List LReq) (at_ : List (Nat × List Piece)) : Eff :=
  Eff.forEach (at_.zip rs) (fun e => fun s =>
    Eff.seq
      (Eff.forEach (physRuns s (e.1.2.filter (fun p => !(m.root && isRepl p))))
        (missEffect c.core c.frank m.span m.alloc (tagsFor c s e.2.lane e.2.ea)))
      (Eff.when m.root (countRoot c.frank e.1.2)) s)

/-- The access that a load's mode makes. -/
def LdMode.acc (m : LdMode) : Acc := if m.root then .acq else if m.useL1 then .load else .home

/-- The bytes of each lane's pieces, or the queued atomic that must perform first. -/
def valuesOf (f : List Piece → List Byte ⊕ Nat) : List (Nat × List Piece) → List (Nat × Nat) ⊕ Nat
  | [] => .inl []
  | e :: es =>
    match f e.2 with
    | .inr id => .inr id
    | .inl bs =>
      match valuesOf f es with
      | .inr id => .inr id
      | .inl vs => .inl ((e.1, ofBytes bs) :: vs)

/-- The lane a trap names: a uniform word's access is lane 255 in records, the lowest live lane in traps. -/
def Ctx.trapLane (c : Ctx) (l : Nat) : Nat := if l = 255 then c.uniLane else l

/-- An access that reads: the checks of R265, merges, poison, queued atomics; then `k` on the state they leave,
with the places and values. -/
def withLoad (c : Ctx) (s : State) (w : Who) (n : Nat) (late : Option Nat) (rs : List LReq) (m : LdMode)
    (k : State → Eff → List (Nat × List Piece) → List (Nat × Nat) → Res) : Res :=
  match locate s w m.acc n late rs with
  | .trap cause l addr eff => .trap cause addr (c.trapLane l) eff
  | .park why eff => .park (.retry why) eff
  | .ok at_ eff =>
    let runs := at_.flatMap (fun e => physRuns s e.2)
    let pre := Eff.seq eff (mergeRuns c.core runs)
    let s1 := applyAll (pre s) s
    match poisonedLoad s1 c.core m.useL1 runs with
    | some line => .over (Eff.seq pre (poisonLoad m.useL1 c.launch c.core line))
    | none =>
      match blockedBy s1 runs with
      | some uid => .park (.retry (.blocked uid)) pre
      | none =>
      match acqHeld c.sq with
      | some id => .park (.retry (.sqEntry id)) pre
      | none =>
      match valuesOf (loadPieces s1 c.core c.sq m.useL1 m.root) at_ with
      | .inr id => .park (.retry (.sqEntry id)) pre
      | .inl vs => k s1 pre at_ vs

/-- A loaded value of a lane. -/
def valAt (vs : List (Nat × Nat)) (l : Nat) : Nat := ((vs.find? (fun e => e.1 == l)).map (·.2)).getD 0

/-- The mode of a ld: CACHE 0 normal, 1 no allocation, 2 long lease, 3 at home; an acquire at pod or system
scope is served by the root (R263, R303). -/
def ldMode (w : LaneW) : LdMode :=
  { useL1 := qCache w.q != 3
    alloc := qCache w.q == 0 || qCache w.q == 2
    span := if qCache w.q = 2 then 8192 else 512
    acq := qSem w.q == 1
    root := qSem w.q == 1 && decide (11 ≤ qScope w.q) }

/-- A lane load's completion. -/
def loadDone (c : Ctx) (m : LdMode) (w : LaneW) (act : Word) (s1 : State) (eff : Eff) (rs : List LReq)
    (at_ : List (Nat × List Piece)) (vs : List (Nat × Nat)) : Res :=
  .done
    { act := act
      regs := putLanes w.ty w.d false act (fun l => movePat w.ty (valAt vs l))
      eff := eff
      level := c.level s1 m.useL1 at_
      addr := (rs.headD { lane := 0, ea := 0 }).ea }

/-- LD (R265). -/
def execLd (w : LaneW) : State → Host.Outcome State Fault Refusal :=
  issue (.ld w) (fun c s =>
    let act := c.active w.g w.gn
    let rs := reqsOf act (c.ea w)
    let m := ldMode w
    withLoad c s (c.who true) (tyBytes w.ty) (some c.firstCyc) rs m (fun s1 pre at_ vs =>
      loadDone c m w act s1
        (Eff.all [pre, countAccess (c.who true) m.acc (tyBytes w.ty) rs, missesEff c m rs at_, heardEff c m.acq (fun l => [l]) at_])
        rs at_ vs))

/-! ## The bounded load (R320 to R324) -/

/-- The bound of a lane at a piece of global memory, none for a plain read: the region, the tag t that a line takes for
it (R318), and the least tag m that serves it (R320). -/
structure Bound where
  region : Nat
  tag    : Nat
  least  : Nat
  deriving DecidableEq, Repr

/-- The bound of a lane's access. -/
def boundOf (c : Ctx) (s : State) (kb lane : Nat) (ea : DWord) : Option Bound :=
  match genOf c.core ea with
  | .global va =>
    match regionOf s c.asid va with
    | some r =>
      match groupOf c s with
      | some g =>
        if !inRegionScope s r c.core || (!hasFloor g lane r && inMask g.ovf lane) then none
        else
          let t := max (knownRound s c.core r) (floorOf g lane r)
          some { region := r, tag := t, least := t - kb }
      | none => none
    | none => none
  | _ => none

/-- A copy serves a bounded load: it serves a plain one, or its tag is high enough. -/
def boundServes (s : State) (r m : Nat) (l : Line) : Bool :=
  lineFresh s l ||
  match mfind l.tags r with
  | some t => decide (m ≤ t)
  | none => false

/-- A byte as a bounded load reads it from a copy that serves it, or from home. -/
def boundByte (s : State) (core r m a : Nat) : Byte :=
  match ownByte s core a with
  | some b => b
  | none =>
    match mfind (getCore s core).l1 (lineOf a) with
    | some l => if boundServes s r m l then l.data.getD (a % 128) 0 else readByte s.mem a
    | none => readByte s.mem a

/-- The bytes of a lane's pieces under its bound, its own queued stores first. -/
def boundPieces (s : State) (c : Ctx) (r m : Nat) (ps : List Piece) : List Byte ⊕ Nat :=
  let cells : List (Byte ⊕ Nat) := ps.flatMap (fun p => (List.range p.len).map (fun i =>
    match sqLook c.sq (byteKey p.place i) with
    | some v => v
    | none =>
      .inl (match physRuns s [p] with
        | (a, _, _) :: _ => boundByte s c.core r m (a + i)
        | [] => placeByte s c.core true false p.place i)))
  match cells.findSome? (fun x => match x with | .inr id => some id | .inl _ => none) with
  | some id => .inr id
  | none => .inl (cells.map (fun x => match x with | .inl b => b | .inr _ => 0))

/-- The lines at which a bounded access misses, with their pages' NC marks. -/
def boundMisses (s : State) (c : Ctx) (r m : Nat) (ps : List Piece) : List (Nat × Bool) :=
  ((physRuns s ps).filter (fun x =>
    (privOwn s c.core (lineOf x.1)).isNone &&
    match mfind (getCore s c.core).l1 (lineOf x.1) with
    | some l => !boundServes s r m l
    | none => true)).map (fun x => (lineOf x.1, x.2.2))

/-- The watch of this group on a line. -/
def watchOf (s : State) (c : Ctx) (line : Nat) : Option Watch :=
  s.coh.watches.find? (fun w => w.uid == c.uid && w.line == line && w.core == c.core)

/-- A watch whose push or time-out has come: its limit is cleared. -/
def watchDone (w : Watch) : Bool := w.limit == 0

/-- A region makes its bounded misses wait for a push (R321). -/
def stallsMisses (s : State) (r : Nat) : Bool := fld (getRt s r).ctl 2 1 == 0 && fld (getRt s r).ctl 63 48 != 0

/-- A bounded miss: the line, its region, the tag it takes, and its page's NC mark. -/
structure Miss where
  line   : Nat
  region : Nat
  tag    : Nat
  nc     : Bool := false
  deriving DecidableEq, Repr

/-- Misses with those of one line made one: the higher tag (R318). -/
def joinMisses (l : List Miss) : List Miss :=
  ((l.map (·.line)).eraseDups).filterMap (fun n =>
    match l.filter (fun x => x.line == n) with
    | [] => none
    | x :: xs => some { x with tag := xs.foldl (fun m y => max m y.tag) x.tag })

/-- Watches registered at the homes of lines. -/
def watchEff (c : Ctx) (l : List Miss) : Eff := fun s =>
  let new := l.zipIdx.map (fun e =>
    ({ id := s.nextId + e.2, core := c.core, line := e.1.line, uid := c.uid,
       limit := s.clk.cyc + fld (getRt s e.1.region).ctl 63 48, fired := false, tag := e.1.tag, region := e.1.region
       frank := c.frank, nc := e.1.nc } : Watch))
  [.coh { s.coh with watches := s.coh.watches ++ new }, .nextId (s.nextId + new.length)]

/-- The watches of the group end. -/
def endWatches (c : Ctx) : Eff := fun s =>
  if s.coh.watches.any (fun w => w.uid == c.uid) then
    [.coh { s.coh with watches := s.coh.watches.filter (fun w => w.uid != c.uid) }]
  else []

/-- The bounded misses of the lanes. -/
def ldbMisses (c : Ctx) (s : State) (kb : Nat) (rs : List LReq) (at_ : List (Nat × List Piece)) : List Miss :=
  (at_.zip rs).flatMap (fun e =>
    match boundOf c s kb e.2.lane e.2.ea with
    | some b => (boundMisses s c b.region b.least e.1.2).map (fun l => { line := l.1, region := b.region, tag := b.tag, nc := l.2 })
    | none => [])

/-- The misses that still wait for a push or a time-out of their region (R321). -/
def ldbWaits (c : Ctx) (s : State) (l : List Miss) : List Miss :=
  joinMisses (l.filter (fun x =>
    stallsMisses s x.region &&
    match watchOf s c x.line with
    | some w => !watchDone w
    | none => true))

/-- What a bounded load does beside its value: misses fetch their lines under REFETCH, or come pushed. -/
def ldbEff (c : Ctx) (kb : Nat) (rs : List LReq) (at_ : List (Nat × List Piece)) : Eff :=
  Eff.forEach (at_.zip rs) (fun e => fun s =>
    match boundOf c s kb e.2.lane e.2.ea with
    | none => Eff.forEach (physRuns s e.1.2) (missEffect c.core c.frank 512 true (tagsFor c s e.2.lane e.2.ea)) s
    | some b =>
      Eff.forEach (boundMisses s c b.region b.least e.1.2) (fun l =>
        Eff.seq (dropStale c.core l.1) (requestFill c.core l.1 512 l.2 [(b.region, b.tag)] c.frank)) s)

/-- A bounded load's first lane is served in the L1, by a copy that its bound lets serve or by the core's own bytes (R405). -/
def ldbLocal (c : Ctx) (s : State) (kb : Nat) (rs : List LReq) (at_ : List (Nat × List Piece)) : Bool :=
  match at_, rs with
  | (_, ps) :: _, r :: _ =>
    match boundOf c s kb r.lane r.ea with
    | some b => !(physRuns s ps).isEmpty && (boundMisses s c b.region b.least ps).isEmpty
    | none => false
  | _, _ => false

/-- LDB (R324). -/
def execLdb (w : LaneW) : State → Host.Outcome State Fault Refusal :=
  issue (.ldb w) (fun c s =>
    let act := c.active w.g w.gn
    let rs := reqsOf act (c.ea w)
    let kb := w.q.toNat
    withLoad c s (c.who true) (tyBytes w.ty) (some c.firstCyc) rs {} (fun s1 pre at_ _ =>
      let waits := ldbWaits c s1 (ldbMisses c s1 kb rs at_)
      match waits with
      | x :: _ =>
        let new := waits.filter (fun y => (watchOf s1 c y.line).isNone)
        let id := match watchOf s1 c x.line with
          | some w => w.id
          | none => s1.nextId
        .park (.retry (.watch id)) (Eff.seq pre (watchEff c new))
      | [] =>
        let get (l : Nat) (ea : DWord) (ps : List Piece) : List Byte ⊕ Nat :=
          match boundOf c s1 kb l ea with
          | some b => boundPieces s1 c b.region b.least ps
          | none => loadPieces s1 c.core c.sq true false ps
        let vs := (at_.zip rs).map (fun e =>
          (e.1.1, match get e.2.lane e.2.ea e.1.2 with
            | .inl bs => ofBytes bs
            | .inr _ => 0))
        let eff := Eff.all
          [pre, countAccess (c.who true) .load (tyBytes w.ty) rs, ldbEff c kb rs at_, heardEff c false (fun l => [l]) at_, endWatches c]
        match loadDone c {} w act s1 eff rs at_ vs with
        | .done d => .done { d with level := if ldbLocal c s1 kb rs at_ then 1 else d.level }
        | r => r))

/-! ## Stores and atomics -/

/-- A new entry of the group's store queue (R261). -/
def pushSq (c : Ctx) (kind : SqKind) (rel : Nat) (acq : Bool) (items : List SqItem) : Eff := fun s =>
  Eff.seq
    (onGroup c (fun g => { g with
      sq := g.sq ++ [{ id := s.nextId, kind := kind, rel := rel, items := items, frank := c.frank, acq := acq }] }))
    (fun s => [.nextId (s.nextId + 1)]) s

/-- A word that finds its queue full (R261): a lane word has not issued, a uniform word waits. -/
def queueIsFull (c : Ctx) (eff : Eff) : Res :=
  if isUniform c.i then .park (.retry .sqFull) eff else .over (Eff.seq eff (notIssued c))

/-- An access that writes: the checks, a place in the queue, then `k`. -/
def withStore (c : Ctx) (s : State) (w : Who) (a : Acc) (n : Nat) (rs : List LReq)
    (k : State → Eff → List (Nat × List Piece) → Res) : Res :=
  match locate s w a n none rs with
  | .trap cause l addr eff => .trap cause addr (c.trapLane l) eff
  | .park why eff => .park (.retry why) eff
  | .ok at_ eff =>
    let s1 := applyAll (eff s) s
    let runs := at_.flatMap (fun e => physRuns s1 e.2)
    match (if a == .atomic then poisoned s1 runs else goneRun s1 runs) with
    | some line => .over (Eff.seq eff (poisonRead c.launch c.core line))
    | none => if sqFull c.sq then queueIsFull c eff else k s1 (Eff.seq eff (countAccess w a n rs)) at_

/-- The scope of a release among the SEM values; 0 for none. -/
def relScope (sem scope : Nat) : Nat := if sem = 2 || sem = 3 then scope else 0

/-- ST (R265). -/
def execSt (w : LaneW) : State → Host.Outcome State Fault Refusal :=
  issue (.st w) (fun c s =>
    let act := c.active w.g w.gn
    withStore c s (c.who true) .store (tyBytes w.ty) (reqsOf act (c.ea w)) (fun s1 eff at_ =>
      let items := at_.map (fun e =>
        ({ lane := e.1, pieces := e.2, data := BitVec.ofNat 64 (c.src 2 w.ty (srcOf w.c.toNat) e.1), cmp := 0 } : SqItem))
      .done { act := act, eff := Eff.seq eff (pushSq c .store (relScope (qSem w.q) (qScope w.q)) false items)
              level := c.level s1 false at_ }))

/-- The register of a lane destination. -/
def dstReg : Dst → Reg
  | .v n => .v n.val
  | .q n => .q n.val

/-- An atomic or cas (R265, R266): queued, its result to come; what the group reads after one with acquire order waits
for it (R299). -/
def atomRes (c : Ctx) (s : State) (act : Word) (kind : SqKind) (dst : Option Reg) (sem scope : Nat)
    (eff : Eff) (items : List SqItem) : Res :=
  .done
    { act := act
      eff := Eff.seq eff (pushSq c kind (relScope sem scope) (sem == 1 || sem == 3) items)
      sq := if dst.isSome then some s.nextId else none
      level := c.level s false (items.map (fun it => (it.lane, it.pieces))) }

/-- ATOM (R264 to R266). -/
def execAtom (sub : BitVec 4) (w : LaneW) : State → Host.Outcome State Fault Refusal :=
  issue (.atom sub w) (fun c s =>
    let act := c.active w.g w.gn
    withStore c s (c.who true) .atomic (tyBytes w.ty) (reqsOf act (c.ea w)) (fun s1 eff at_ =>
      let items := at_.map (fun e =>
        ({ lane := e.1, pieces := e.2, data := BitVec.ofNat 64 (c.src 2 w.ty (srcOf w.c.toNat) e.1), cmp := 0 } : SqItem))
      let dst := if qNr w.q then none else some (dstReg w.d)
      atomRes c s1 act (.atomic sub.toNat w.ty dst) dst (qSem w.q) (qScope w.q) eff items))

/-- CAS. -/
def execCas (w : LaneW) : State → Host.Outcome State Fault Refusal :=
  issue (.cas w) (fun c s =>
    let act := c.active w.g w.gn
    withStore c s (c.who true) .atomic (tyBytes w.ty) (reqsOf act (c.ea0 w)) (fun s1 eff at_ =>
      let items := at_.map (fun e =>
        ({ lane := e.1, pieces := e.2, data := BitVec.ofNat 64 (c.src 2 w.ty (srcOf w.c.toNat) e.1)
           cmp := BitVec.ofNat 64 (c.src 1 w.ty w.b e.1) } : SqItem))
      atomRes c s1 act (.cas w.ty (dstReg w.d)) (some (dstReg w.d)) (qSem w.q) (qScope w.q) eff items))

/-! ## prf, spt, spc -/

/-- The line a lane's prf fetches: a global, mapped, permitted, aligned address that is no counter word. -/
def prfLine (c : Ctx) (s : State) (ea : DWord) : Option (Nat × Bool) :=
  match genOf c.core ea with
  | .global va =>
    if (counterOf s c.asid va).isSome || va % 4 ≠ 0 then none
    else
      match tlbFind s c.core c.asid va with
      | some e =>
        if !permOk e.pte .load (!c.sys) then none
        else
          match placeOf s e va with
          | .phys a nc => some (a, nc)
          | .repl _ reps off => let r := nearest s reps; some (pkgAddr s r.1 (r.2 + off), false)
          | _ => none
      | none => none
  | _ => none

/-- PRF (R267): a hint; CACHE 1 reaches the L2 only. With CACHE 2 the lease is the long one that R263 names, though R259
says that prf fills with short leases: the model's choice (log entry 34). -/
def execPrf (w : LaneW) : State → Host.Outcome State Fault Refusal :=
  issue (.prf w) (fun c s =>
    let act := c.active w.g w.gn
    .done
      { act := act
        level := match (lanesOf act).head?.bind (fun l => prfLine c s (c.ea w l)) with
          | some (a, nc) => levelOf s c.core true false [{ place := .phys a nc, len := 4 }]
          | none => 0
        eff := Eff.forEach (lanesOf act) (fun l => fun s =>
          match prfLine c s (c.ea w l) with
          | some (a, nc) =>
            if qCache w.q = 1 || l1Hit s c.core (lineOf a) || lineBlocked s (lineOf a) then []
            else requestFill c.core (lineOf a) (if qCache w.q = 2 then 8192 else 512) nc
              (tagsFor c s l (c.ea w l)) c.frank s
          | none => []) })

/-- SPT (R254). -/
def execSpt (w : LaneW) : State → Host.Outcome State Fault Refusal :=
  issue (.spt w) (fun c _ => laneRes c w .n64 (fun l => spaceCode c.core (c.ea0 w l)))

/-- spc's result; none where it raises WINDOW. -/
def spcVal (core : Nat) (a : DWord) : Option DWord :=
  match fld a 63 56 with
  | 0x00 => some a
  | 0xFA => some a
  | 0xF9 => if genOf core a == .bad then none else some (setFld a 63 56 0xFA)
  | _ => none

/-- SPC (R254). -/
def execSpc (w : LaneW) : State → Host.Outcome State Fault Refusal :=
  issue (.spc w) (fun c _ =>
    match (lanesOf (c.active w.g w.gn)).find? (fun l => (spcVal c.core (c.ea0 w l)).isNone) with
    | some l => .trap 6 (c.ea0 w l) l Eff.nop
    | none => laneRes c w .n64 (fun l => ((spcVal c.core (c.ea0 w l)).getD 0).toNat))

end Sys2Proof.Machine
end

