-- ==== Sys2Proof/Machine/UniMem.lean ====
section
/-! DEFINITION. Uniform memory words, monitors, fences and cache maintenance (10: R268 to R273; 12: R294, R298,
R299), code maintenance (19: R429 to R431). -/

namespace Sys2Proof.Machine

/-! ## kld, kst, katom (R268, R269) -/

/-- The one access of a uniform word. -/
def uReq (ea : DWord) : List LReq := [{ lane := 255, ea := ea }]

/-- The address of kld and kst. -/
def Ctx.kea (c : Ctx) (w : UniW) : DWord := BitVec.ofNat 64 (c.ua w + c.ubI w)

/-- KLD. -/
def execKld (w : UniW) : State → Host.Outcome State Fault Refusal :=
  issue (.kld w) (fun c s =>
    let rs := uReq (c.kea w)
    withLoad c s (c.who false) 8 (some c.firstCyc) rs {} (fun s1 pre at_ vs =>
      .done
        { act := c.lanes
          regs := putU w.d (valAt vs 255)
          eff := Eff.all [pre, countAccess (c.who false) .load 8 rs, missesEff c {} rs at_, heardEff c false (fun _ => []) at_]
          level := c.level s1 true at_
          addr := c.kea w }))

/-- KST: field D is read. -/
def execKst (w : UniW) : State → Host.Outcome State Fault Refusal :=
  issue (.kst w) (fun c s =>
    withStore c s (c.who false) .store 8 (uReq (c.kea w)) (fun s1 eff at_ =>
      let items := at_.map (fun e =>
        ({ lane := e.1, pieces := e.2, data := BitVec.ofNat 64 (c.uf 2 w.d), cmp := 0 } : SqItem))
      .done { act := c.lanes, eff := Eff.seq eff (pushSq c .store 0 false items), level := c.level s1 false at_ }))

/-- KATOM. -/
def execKatom (w : UniW) : State → Host.Outcome State Fault Refusal :=
  issue (.katom w) (fun c s =>
    let ty := tyOf (fs w 20 17)
    let nr := fs w 21 21 == 1
    withStore c s (c.who false) .atomic (tyBytes ty) (uReq (BitVec.ofNat 64 (c.ua w))) (fun s1 eff at_ =>
      let items := at_.map (fun e =>
        ({ lane := e.1, pieces := e.2, data := BitVec.ofNat 64 (c.ub w % 2 ^ tyWidth ty), cmp := 0 } : SqItem))
      let dst := if nr then none else some (Reg.k (kNum w.d))
      atomRes c s1 c.lanes (.atomic (fs w 31 28) ty dst) dst (fs w 27 26) (fs w 25 22) eff items))

/-! ## Fences (R270, R298, R299) -/

/-- The scope a fence waits for: 0 in the field set is system; lane and group scope wait for nothing. -/
def fenceScope (n : Nat) : Nat := if n = 0 then 12 else n

/-- FENCE: a full or release fence waits until earlier accesses are performed at its scope; an acquire fence until
the values that earlier atomics read are fixed, and adds nothing to R297 (R298, R299). -/
def execFence (w : UniW) : State → Host.Outcome State Fault Refusal :=
  issue (.fence w) (fun c s =>
    let scope := fenceScope (fs w 3 0)
    if scope < 3 then .done { act := c.lanes }
    else if fs w 5 4 = 1 then
      match atomHeld c.sq with
      | some id => .park (.retry (.sqEntry id)) Eff.nop
      | none => .done { act := c.lanes }
    else if drained s c.sq scope then .done { act := c.lanes }
    else .park (.retry (.drain scope)) Eff.nop)

/-! ## Ranges of virtual memory -/

/-- log2 of what an entry of a level's table covers, and the entries of a table (R279). -/
def levelShift (level : Nat) : Nat :=
  match level with
  | 4 => 48
  | 3 => 39
  | 2 => 30
  | 1 => 21
  | _ => 16
def levelEntries (level : Nat) : Nat :=
  match level with
  | 4 => 256
  | 0 => 32
  | _ => 512

/-- The pages mapped in [lo, hi) below a table. -/
def pagesFrom (s : State) (asid lo hi : Nat) : Nat → Nat → Nat → List TlbE
  | 0, table, base =>
    (List.range (levelEntries 0)).filterMap (fun i =>
      let va := base + i * 2 ^ levelShift 0
      let p := cohDword s (table + 8 * i)
      if hi ≤ va || va + 2 ^ levelShift 0 ≤ lo || fld p 0 0 = 0 || fld p 1 1 = 0 then none
      else
        match leafOf s asid va 0 (table + 8 * i) p with
        | .leaf e _ => some e
        | .unmapped => none)
  | level + 1, table, base =>
    (List.range (levelEntries (level + 1))).flatMap (fun i =>
      let va := base + i * 2 ^ levelShift (level + 1)
      let p := cohDword s (table + 8 * i)
      if hi ≤ va || va + 2 ^ levelShift (level + 1) ≤ lo || fld p 0 0 = 0 then []
      else if fld p 1 1 = 1 then
        (if level + 1 ≥ 3 then []
         else
          match leafOf s asid va (level + 1) (table + 8 * i) p with
          | .leaf e _ => [e]
          | .unmapped => [])
      else if fld p 63 48 != 0 || fld p 11 1 != 0 then []
      else pagesFrom s asid lo hi level (fld p 47 12 * 4096) va)

/-- The mapped pages of a range under a translation context; unmapped ones are skipped. -/
def pagesIn (s : State) (tctx : DWord) (lo hi : Nat) : List TlbE :=
  if hi ≤ lo then [] else pagesFrom s (fld tctx 11 0) lo hi 4 (fld tctx 47 12 * 4096) 0

/-- Where a page begins in physical memory. -/
def pagePhys (s : State) (e : TlbE) : Nat :=
  match placeOf s e (e.base * 2 ^ e.log2) with
  | .phys a _ => a
  | .repl _ reps _ => let r := nearest s reps; pkgAddr s r.1 r.2
  | _ => 0

/-- A physical run [a, a + n) meets the range through one of its pages. -/
def meetsRange (s : State) (pages : List TlbE) (lo hi a n : Nat) : Bool :=
  pages.any (fun e =>
    let p := pagePhys s e
    let va := e.base * 2 ^ e.log2 + (a - p)
    decide (p ≤ a) && decide (a < p + 2 ^ e.log2) && decide (va < hi) && decide (lo < va + n))

/-- The checks of a range (R271, R316): WINDOW where it is not global; `counters` refuses a counter word. -/
def rangeTrap (s : State) (c : Ctx) (a n : Nat) (counters : Bool) : Option Nat :=
  if n = 0 then none
  else if 2 ^ 56 < a + n then some 6
  else if counters && s.rounds.ents.any (fun e => rtValid e.2 && rtAsid e.2 == c.asid &&
      decide (rtCva e.2 < a + n) && decide (a < rtCva e.2 + 8)) then some 9
  else none

/-- Lines of the core that are on their way home and meet a range, queued ones of the group included. -/
def dirtyLines (s : State) (c : Ctx) (pages : List TlbE) (lo hi : Nat) : List Nat :=
  let queued := c.sq.flatMap (fun e => e.items.flatMap (fun it => (physRuns s it.pieces).map (fun r => lineOf r.1)))
  (((s.coh.homeq.filter (fun w => w.core == c.core)).map (·.line) ++ queued).eraseDups).filter (fun l =>
    meetsRange s pages lo hi (l * 128) 128)

/-- Privatised lines of the core that meet a range. -/
def ownedLines (s : State) (c : Ctx) (pages : List TlbE) (lo hi : Nat) : List Nat :=
  (s.coh.dirs.filter (fun e => e.2.priv.any (fun p => p.core == c.core) && meetsRange s pages lo hi (e.1 * 128) 128)).map (·.1)

/-- CWB (R271). -/
def execCwb (w : UniW) : State → Host.Outcome State Fault Refusal :=
  issue (.cwb w) (fun c s =>
    let a := c.ua w
    let n := c.ub w
    match rangeTrap s c a n true with
    | some cause => .trap cause (BitVec.ofNat 64 a) c.uniLane Eff.nop
    | none =>
      if sqFull c.sq then .park (.retry .sqFull) Eff.nop
      else
        let pages := pagesIn s c.blk.tctx a (a + n)
        .done
          { act := c.lanes
            eff := Eff.seq (Eff.forEach (ownedLines s c pages a (a + n)) mergeLine)
              (pushSq c (.writeBack (dirtyLines s c pages a (a + n))) 0 false []) })

/-- CINV (R271): written bytes are on their way home by themselves, so no store is lost. -/
def execCinv (w : UniW) : State → Host.Outcome State Fault Refusal :=
  issue (.cinv w) (fun c s =>
    let a := c.ua w
    let n := c.ub w
    match rangeTrap s c a n true with
    | some cause => .trap cause (BitVec.ofNat 64 a) c.uniLane Eff.nop
    | none =>
      let pages := pagesIn s c.blk.tctx a (a + n)
      .done
        { act := c.lanes
          eff := Eff.seq (Eff.forEach (ownedLines s c pages a (a + n)) mergeLine) (fun s =>
            let k := getCore s c.core
            [.core c.core { k with l1 := k.l1.filter (fun e => !meetsRange s pages a (a + n) (e.1 * 128) 128) }]) })

/-! ## Monitors (R272, R273) -/

/-- A monitored word lies in a replicated page to whose root switch this package has no link (R441). -/
def monLost (s : State) (m : Mon) : Bool :=
  m.place.any (fun p =>
    match p.place with
    | .repl root _ _ => !bit s.idn.lnkstat.toNat root
    | _ => false)

/-- A byte of a monitored word as a check reads it, an acquire at system scope (R273): of a privatised copy of any core, which the
check that returns it merges (R309, R310), else the newest of the core's own or the home's. -/
def monByte (s : State) (core : Nat) (root : Bool) (p : Place) (i : Nat) : Byte :=
  match p with
  | .phys a _ =>
    match (getDir s (lineOf (a + i))).priv.find? (fun q => q.mask.contains ((a + i) % 128)) with
    | some q => mget 0 q.data ((a + i) % 128)
    | none => coreByte s core (a + i) false
  | p => placeByte s core false root p i

/-- The value of a monitored word now: of a replicated page its root's, while there is a link to it; as recorded while its place is
not known. -/
def monValue (s : State) (core : Nat) (sq : List SqE) (m : Mon) : DWord :=
  let cells : List (Byte ⊕ Nat) := m.place.flatMap (fun p => (List.range p.len).map (fun i =>
    match sqLook sq (byteKey p.place i) with
    | some v => v
    | none => .inl (monByte s core (!monLost s m) p.place i)))
  if m.place.isEmpty || cells.any (·.isRight) then m.value
  else BitVec.ofNat 64 (ofBytes (cells.map (fun c => match c with | .inl b => b | .inr _ => 0)))

/-- MON.ARM. -/
def execMonArm (w : UniW) : State → Host.Outcome State Fault Refusal :=
  issue (.monArm w) (fun c s =>
    let ea := BitVec.ofNat 64 (c.ua w)
    let slot := c.ub w % 4
    let rs := uReq ea
    withLoad c s (c.who false) 8 none rs {} (fun s1 pre at_ vs =>
      let m : Mon := { addr := ea, value := BitVec.ofNat 64 (valAt vs 255), place := (at_.headD (0, [])).2 }
      .done
        { act := c.lanes
          eff := Eff.all [pre, countAccess (c.who false) .load 8 rs, missesEff c {} rs at_, heardEff c false (fun _ => []) at_,
            onGroup c (fun g => { g with mons := mput g.mons slot m })]
          level := c.level s1 true at_ }))

/-- The armed slots whose words differ, as a mask. -/
def monDiffer (s : State) (core : Nat) (g : Group) : Nat :=
  (g.mons.filter (fun e => monValue s core g.sq e.2 != e.2.value)).foldl (fun m e => m + 2 ^ e.1) 0

/-- The runs of physical memory of the armed slots of a mask. -/
def monRuns (s : State) (g : Group) (mask : Nat) : List (Nat × Nat × Bool) :=
  (g.mons.filter (fun e => bit mask e.1)).flatMap (fun e => physRuns s e.2.place)

/-- The poisoned line that a check of the armed slots reads (R376). -/
def monPoison (s : State) (g : Group) : Option Nat := g.mons.findSome? (fun e => poisoned s (physRuns s e.2.place))

/-- The migration that blocks an armed word (R289). -/
def monBlocked (s : State) (g : Group) : Option Nat := blockedBy s (g.mons.flatMap (fun e => physRuns s e.2.place))

/-- The accesses of the slots that differ and whose acquire the lost root switch cannot serve (R273, R441). -/
def monDenied (s : State) (core : Nat) (g : Group) : List TReq :=
  (g.mons.filter (fun e => monLost s e.2 && monValue s core g.sq e.2 != e.2.value)).map (fun e =>
    { lane := 255, ea := e.2.addr, va := e.2.addr.toNat })

/-- Slots of a mask disarmed. -/
def disarm (mask : Nat) (g : Group) : Group := { g with mons := g.mons.filter (fun e => !bit mask e.1) }

/-- A slot whose place has been forgotten. -/
def monBlind (e : Nat × Mon) : Bool := e.2.place.isEmpty

/-- Places found again for those slots, in order. -/
def monPlaced (at_ : List (Nat × List Piece)) (g : Group) : Group :=
  { g with mons := ((g.mons.filter monBlind).zip at_).foldl (fun m e => mput m e.1.1 { e.1.2 with place := e.2.2 }) g.mons }

/-- MON.WAIT: at once with no armed slot or with one that differs, else parked up to the limit. -/
def execMonWait (w : UniW) : State → Host.Outcome State Fault Refusal :=
  issue (.monWait w) (fun c s =>
    match groupOf c s with
    | none => .done { act := c.lanes }
    | some g =>
      match locate s (c.who false) .home 8 none ((g.mons.filter monBlind).map (fun e => { lane := 255, ea := e.2.addr })) with
      | .trap cause l addr eff => .trap cause addr (c.trapLane l) eff
      | .park why eff => .park (.retry why) eff
      | .ok at_ found =>
      let g := monPlaced at_ g
      let found := Eff.seq found (onGroup c (monPlaced at_))
      let mask := monDiffer s c.core g
      let limit := c.ub w
      match monPoison s g, monBlocked s g with
      | some line, _ => .over (Eff.seq found (poisonRead c.launch c.core line))
      | none, some uid => .park (.retry (.blocked uid)) found
      | none, none =>
      match translate s (c.who false) .acq (monDenied s c.core g) with
      | .trap cause _ addr eff => .trap cause addr c.uniLane (Eff.seq found eff)
      | .park why eff => .park (.retry why) (Eff.seq found eff)
      | .ok _ =>
      if g.mons.isEmpty || mask ≠ 0 then
        .done { act := c.lanes, regs := putU w.d mask
                eff := Eff.all [found, mergeRuns c.core (monRuns s g mask), onGroup c (disarm mask)] }
      else .park (.monWait (kNum w.d) (if limit = 0 then none else some (c.firstCyc + limit))) found)

/-! ## Code (R429 to R431) -/

/-- Code dropped: the privatised copies of its lines are merged, the lines leave every instruction cache of the package, and
what their words held before is forgotten (R431). -/
def dropCode (meets : Nat → Nat → Bool) : Eff :=
  Eff.all
    [fun s => Eff.forEach ((s.coh.dirs.filter (fun e => !e.2.priv.isEmpty && meets (e.1 * 128) 128)).map (·.1)) mergeLine s,
     fun s => s.cores.flatMap (fun e =>
       let keep := e.2.icache.filter (fun x => !meets (x.1 * 128) 128)
       if keep.length = e.2.icache.length then [] else [.core e.1 { e.2 with icache := keep }]),
     fun s =>
       let keep := s.coh.stale.filter (fun x => !meets x.1 4)
       if keep.length = s.coh.stale.length then [] else [.coh { s.coh with stale := keep }]]

/-- ICINV: a release at package scope, then the lines leave every instruction cache. -/
def execIcinv (w : UniW) : State → Host.Outcome State Fault Refusal :=
  issue (.icinv w) (fun c s =>
    let a := c.ua w
    let n := c.ub w
    match rangeTrap s c a n false with
    | some cause => .trap cause (BitVec.ofNat 64 a) c.uniLane Eff.nop
    | none =>
      if n = 0 then .done { act := c.lanes }
      else if !drained s c.sq 9 then .park (.retry (.drain 9)) Eff.nop
      else
        let lo := a / 128 * 128
        let hi := (a + n + 127) / 128 * 128
        let pages := pagesIn s c.blk.tctx lo hi
        .done
          { act := c.lanes
            eff := dropCode (fun a n => meetsRange s pages lo hi a n) })

/-- The lines of code that a prefetch brings in: of mapped, executable, readable pages, on a port whose device is there. -/
def iprefLines (s : State) (c : Ctx) (lo hi : Nat) : List Nat :=
  let pages := (pagesIn s c.blk.tctx lo hi).filter (fun e => permOk e.pte .fetch (!c.sys) && permOk e.pte .load (!c.sys))
  (pages.flatMap (fun e =>
    let base := e.base * 2 ^ e.log2
    let from_ := max lo base
    let upTo := min hi (base + 2 ^ e.log2)
    let a := codeAddr s (placeOf s e from_)
    (List.range ((upTo - from_) / 128)).map (fun i => lineOf a + i))).filter (fun l => !portGone s (l * 128))

/-- A line of code prefetched, which changes no counter (R55): a poisoned one keeps its mark, with a POISON card (R430). -/
def prefetchLine (core frank line : Nat) : Eff := fun s =>
  let bad := (mfind s.coh.poison line).isSome
  Eff.seq (cacheLine core line bad)
    (Eff.when bad (emit (coreSrc core 0 8) 18 255 0 frank 8 (BitVec.ofNat 64 (line * 128)))) s

/-- IPREF: a hint; at most 8 KiB, parts that cannot be fetched dropped silently, nothing raised. -/
def execIpref (w : UniW) : State → Host.Outcome State Fault Refusal :=
  issue (.ipref w) (fun c s =>
    let a := c.ua w
    let n := min 8192 (c.ubI w)
    let legal := kindI w && u0 w.d && dK w.a
    if !legal || n = 0 then .done { act := c.lanes }
    else
      let ls := iprefLines s c (a / 128 * 128) (min (2 ^ 56) ((a + n + 127) / 128 * 128))
      .done { act := c.lanes, eff := Eff.forEach ls (prefetchLine c.core (c.frank)) })

/-- NOP. -/
def execNop (w : UniW) : State → Host.Outcome State Fault Refusal :=
  issue (.nop w) (fun c _ => .done { act := c.lanes })

/-- The other hint opcodes, as nop (R55). -/
def execHint (op : BitVec 4) (w : UniW) : State → Host.Outcome State Fault Refusal :=
  issue (.hint op w) (fun c _ => .done { act := c.lanes })

/-- A reserved opcode: ILL, at the checks of R51. -/
def execReservedOpcode (w e : Word) : State → Host.Outcome State Fault Refusal :=
  issue (.reservedOpcode w e) (fun c _ => .trap 1 c.words c.checkLane Eff.nop)

end Sys2Proof.Machine
end

