-- ==== Sys2Proof/Machine/Transl.lean ====
section
/-! DEFINITION. tlbinv and pgmig (11: R289 to R291); the round instructions (13: R325 to R327). -/

namespace Sys2Proof.Machine

/-- PERM of a form that user mode may not use (R380): before every other trap of the form (R51). -/
def systemOnly (c : Ctx) (k : Res) : Res := if c.sys then k else .trap 9 0 c.uniLane Eff.nop

/-- The address space that a field set names. -/
def asidOf (c : Ctx) (w : UniW) : Nat := if fs w 12 12 = 1 then fs w 11 0 else c.asid

/-! ## tlbinv (R291) -/

/-- An entry is removed: kind 0 page, 1 asid, 2 nonglobal, 3 all. -/
def tlbDrop (kind asid va : Nat) (e : TlbE) : Bool :=
  match kind with
  | 0 => (e.asid == asid || fld e.pte 7 7 == 1) && va / 2 ^ e.log2 == e.base
  | 1 => e.asid == asid && fld e.pte 7 7 == 0
  | 2 => fld e.pte 7 7 == 0
  | _ => true

/-- A fault-merge entry is covered. -/
def mergeDrop (kind asid va : Nat) (m : MergeE) : Bool :=
  match kind with
  | 0 => m.asid == asid && m.page == pageOf va
  | 1 => m.asid == asid
  | _ => true

/-- A core lies in reach: 0 the core itself, 1 its cluster, 2 the package. -/
def inReach (own reach core : Nat) : Bool :=
  match reach with
  | 0 => core == own
  | 1 => clusterOf core == clusterOf own
  | _ => true

/-- A cluster lies in reach; the core's own cluster always does. -/
def clReach (own reach cl : Nat) : Bool := 2 ≤ reach || cl == clusterOf own

/-- Entries leave the TLBs in reach, and merge entries of the clusters in reach close. -/
def tlbClear (own reach kind asid va : Nat) : Eff :=
  Eff.seq
    (fun s => (s.cores.filter (fun e => inReach own reach e.1 && e.2.tlb.any (tlbDrop kind asid va))).map (fun e =>
      .core e.1 { e.2 with tlb := e.2.tlb.filter (fun x => !tlbDrop kind asid va x) }))
    (fun s => (s.clusters.filter (fun e => clReach own reach e.1)).map (fun e =>
      .cluster e.1 { e.2 with
        tlb := (if reach = 0 then e.2.tlb.map (fun x => if tlbDrop kind asid va x then { x with count := 0 } else x)
          else e.2.tlb.filter (fun x => !tlbDrop kind asid va x))
        merge := e.2.merge.filter (fun m => !mergeDrop kind asid va m) }))

/-- The groups in reach forget where the words they monitor lie: their next checks translate anew (log entry 50). -/
def monForget (own reach : Nat) : Eff := fun s =>
  let kept (m : Mon) : Bool := m.place.all (fun p =>
    match p.place with
    | .phys _ _ => false
    | .repl _ _ _ => false
    | _ => true)
  (s.groups.filter (fun e => inReach own reach (coreOfG e.1) && e.2.mons.any (fun m => !kept m.2))).map (fun e =>
    .group e.1 { e.2 with mons := e.2.mons.map (fun m => (m.1, if kept m.2 then m.2 else { m.2 with place := [] })) })

/-- Accesses numbered below a bound are still to be performed in reach. -/
def accessesLeft (s : State) (own reach bound : Nat) : Bool :=
  s.groups.any (fun e => inReach own reach (coreOfG e.1) && e.2.sq.any (fun x => decide (x.id < bound))) ||
  s.streams.any (fun e => inReach own reach (e.1 / 4) && e.2.ops.any (fun x => decide (x.id < bound))) ||
  s.coh.homeq.any (fun w => inReach own reach w.core && decide (w.id < bound))

/-- TLBINV: parks until the accesses translated before it have been performed. -/
def execTlbinv (w : UniW) : State → Host.Outcome State Fault Refusal :=
  issue (.tlbinv w) (fun c s =>
    systemOnly c
      (let kind := fs w 17 16
       let reach := fs w 15 14
       let ea := BitVec.ofNat 64 (c.ua w)
       if kind = 0 && fld ea 63 56 ≠ 0 then .trap 6 ea c.uniLane Eff.nop
       else
         let eff := Eff.seq (tlbClear c.core reach kind (asidOf c w) ea.toNat) (monForget c.core reach)
         if accessesLeft s c.core reach s.nextId then .park (.tlbinv s.nextId reach) eff
         else .done { act := c.lanes, eff := eff }))

/-! ## pgmig (R289, R290) -/

/-- The status of a refused migration, or the page it moves: entry and place of its leaf. -/
def migCheck (s : State) (tctx : DWord) (asid va dst : Nat) : Nat ⊕ (TlbE × Nat) :=
  match walk s tctx asid va with
  | .unmapped => .inl 1
  | .leaf e at_ =>
    let size := 2 ^ e.log2
    let old := frameOf e.pte
    if fld e.pte 11 9 ≠ 0 then .inl 2
    else if !frameOk s (ownPkg s) dst e.log2 || 0x800000000000 ≤ dst || (dst < old + size && old < dst + size) then .inl 3
    else if s.coh.migs.any (fun m => m.pteAt == at_ || (m.asid == asid || fld e.pte 7 7 == 1) && m.va == e.base * size) then .inl 4
    else .inr (e, at_)

/-- The lines in a range of memory that a core may hold a copy of, or hold privatised. -/
def heldLines (s : State) (meets : Nat → Bool) : List Nat :=
  ((s.cores.flatMap (fun e => e.2.l1.map (·.1))) ++ s.coh.dirs.map (·.1) ++ s.coh.fills.map (·.line)).eraseDups.filter meets

/-- A page is blocked at the homes of its lines (R289): privatised bytes merge, L1 copies are invalidated; its leases run on. Writes
numbered from now on come after the block. -/
def blockPage (m : Migration) : Eff := fun s =>
  let ls := heldLines s (migLine m)
  Eff.all
    [Eff.forEach ls mergeLine, invalLines ls,
     fun s => [.coh { s.coh with migs := s.coh.migs ++ [{ m with after := s.nextId }] }, .nextId (s.nextId + 1)]] s

/-- PGMIG: refused at once with a status, else parked until MIGRATION_COMPLETE. -/
def execPgmig (w : UniW) : State → Host.Outcome State Fault Refusal :=
  issue (.pgmig w) (fun c s =>
    systemOnly c
      (let ea := BitVec.ofNat 64 (c.ua w)
       let asid := asidOf c w
       if fld ea 63 56 ≠ 0 then .trap 6 ea c.uniLane Eff.nop
       else
         match migCheck s c.blk.tctx asid ea.toNat (c.ub w) with
         | .inl st => .done { act := c.lanes, regs := putU w.d st }
         | .inr (e, at_) =>
           if s.coh.migs.any (fun m => m.uid == c.uid) then .park (.retry .migration) Eff.nop
           else
             .park (.migration (kNum w.d)) (blockPage
               { uid := c.uid, asid := asid, va := e.base * 2 ^ e.log2, log2 := e.log2, old := frameOf e.pte
                 new := c.ub w, pteAt := at_ })))

/-! ## Rounds (R325 to R327) -/

/-- The region that an operand names: WINDOW for no global address, RECORD for no region. -/
def withRegion (c : Ctx) (s : State) (w : UniW) (k : DWord → Nat → Res) : Res :=
  let ea := BitVec.ofNat 64 (c.ua w)
  match genOf c.core ea with
  | .global va =>
    match regionOf s c.asid va with
    | some r => k ea r
    | none =>
      match counterOf s c.asid va with
      | some r => if rtCva (getRt s r) = va then k ea r else .trap 7 ea c.uniLane Eff.nop
      | none => .trap 7 ea c.uniLane Eff.nop
  | _ => .trap 6 ea c.uniLane Eff.nop

/-- A region's entry with its count changed. -/
def setCount (r n : Nat) : Eff := fun s =>
  [.rounds { s.rounds with ents := mput s.rounds.ents r { getRt s r with cnt := setFld (getRt s r).cnt 47 0 n } }]

/-- Notices of a new count to the caches of the region's scope (R317). -/
def sendNotices (r n : Nat) : Eff := fun s =>
  let cores := (List.range 768).filter (fun k =>
    inRegionScope s r k && fld s.idn.cap (26 + clusterOf k) (26 + clusterOf k) == 1)
  [.coh { s.coh with notices := s.coh.notices ++ cores.map (fun k => (k, r, n)) }]

/-- The increment of a round.adv: the count, its notices, its card. -/
def advanceRegion (core frank r : Nat) : Eff := fun s =>
  let n := countOf s r + 1
  Eff.all
    [setCount r n, sendNotices r n, hear core r n,
     emit (pkgSrc 6) 6 255 0 frank (BitVec.ofNat 64 r) (BitVec.ofNat 64 n)] s

/-- ROUND.ADV (R326): where earlier accesses are not performed yet it takes a queue entry and waits with it for its turn. -/
def execRoundAdv (w : UniW) : State → Host.Outcome State Fault Refusal :=
  issue (.roundAdv w) (fun c s => withRegion c s w (fun ea r =>
    let scope := rtScope (getRt s r)
    if scope = 8 && clusterOf c.core ≠ rtCl (getRt s r) then .trap 9 ea c.uniLane Eff.nop
    else if countOf s r = 2 ^ 48 - 1 then .trap 7 ea c.uniLane Eff.nop
    else if !drained s c.sq scope then
      if sqFull c.sq then .park (.retry .sqFull) Eff.nop
      else .park (.advance (kNum w.d) r) (pushSq c (.hold c.pc) 0 false [])
    else if mustStall s (pkgSrc 6) 6 c.frank then .park (.retry (.stall (pkgBuf s))) Eff.nop
    else .done { act := c.lanes, regs := putU w.d (countOf s r + 1), eff := advanceRegion c.core c.frank r }))

/-- A parked round.adv goes on when its entry is the queue's head, its release is performed and its card need not stall. At
the greatest count it issues again, to trap. -/
def advanceOver (s : State) (p : Nat) : Option Eff :=
  match mfind s.groups p with
  | none => none
  | some g =>
    match g.u.wait, g.sq with
    | some w, e :: rest =>
      match w.kind with
      | .advance d r =>
        let frank := frankOfBlk s g.blk
        if e.kind != .hold w.pc || !relReady s (rtScope (getRt s r)) then none
        else
          let pop : Eff := fun _ => [.group p { g with sq := rest }]
          if countOf s r = 2 ^ 48 - 1 then some (Eff.seq pop (retry (.group p)))
          else
            let n := BitVec.ofNat 64 (countOf s r + 1)
            cardPoint (pkgSrc 6) g.blk frank (Eff.all
              [pop, advanceRegion (coreOfG p) frank r,
               wake (.group p) [.k d] (fun x => { x with u := setK x.u d n })]) s
      | _ => none
    | _, _ => none

/-- ROUND.GET (R325): the count, an acquire that raises the floor of every released lane. -/
def execRoundGet (w : UniW) : State → Host.Outcome State Fault Refusal :=
  issue (.roundGet w) (fun c s => withRegion c s w (fun _ r =>
    match acqHeld c.sq with
    | some id => .park (.retry (.sqEntry id)) Eff.nop
    | none =>
      let n := countOf s r
      .done
        { act := c.lanes
          regs := putU w.d n
          eff := Eff.seq (hear c.core r n)
            (onGroup c (fun g => (lanesOf c.lanes).foldl (fun g l => raiseFloor l r n g) g)) }))

/-- ROUND.FLOOR (R327). -/
def execRoundFloor (w : UniW) : State → Host.Outcome State Fault Refusal :=
  issue (.roundFloor w) (fun c s => withRegion c s w (fun _ r =>
    let v := c.ub w
    if 2 ^ 48 ≤ v then .trap 7 (BitVec.ofNat 64 v) c.uniLane Eff.nop
    else
      match groupOf c s with
      | none => .done { act := c.lanes }
      | some g =>
        let floors := (lanesOf c.lanes).map (fun l => max (floorOf g l r) v)
        .done
          { act := c.lanes
            regs := putU w.d (floors.foldl min (floors.headD v))
            eff := onGroup c (fun g => (lanesOf c.lanes).foldl (fun g l => raiseFloor l r v g) g) }))

/-- ROUND.FLOOR.CLR. -/
def execRoundFloorClr (w : UniW) : State → Host.Outcome State Fault Refusal :=
  issue (.roundFloorClr w) (fun c _ =>
    .done
      { act := c.lanes
        eff := onGroup c (fun g => { g with
          floors := g.floors.filter (fun e => !inMask c.lanes e.1)
          ovf := g.ovf &&& ~~~c.lanes }) })

end Sys2Proof.Machine
end

