-- ==== Sys2Proof/Machine/BarOps.lean ====
section
/-! DEFINITION. Barrier instructions of groups and of the stream, time and nap (14: R329 to R343; 07: R195, R196). -/

namespace Sys2Proof.Machine

/-! ## Parties -/

/-- A party of a barrier as its arrivals need it. -/
structure Party where
  id    : Nat
  blk   : Nat
  core  : Nat
  part  : Nat
  slot  : Nat
  u     : UCtx
  sq    : List SqE
  ops   : List Op
  deriving DecidableEq, Repr

/-- The party of an agent. -/
def partyOf (s : State) (a : Agent) : Option Party :=
  match a with
  | .group p => (mfind s.groups p).map (fun g =>
      { id := groupParty g.uid, blk := g.blk, core := coreOfG p, part := partOfG p % 4, slot := slotOfG p, u := g.u
        sq := g.sq, ops := [] })
  | .stream p => (mfind s.streams p).map (fun t =>
      { id := streamParty t.blk, blk := t.blk, core := p / 4, part := p % 4, slot := lowSlot s t.blk, u := t.u
        sq := [], ops := t.ops })

/-- The shared part of an agent changed. -/
def setU (a : Agent) (f : UCtx → UCtx) : Eff := fun s =>
  match a with
  | .group p =>
    match mfind s.groups p with
    | some g => [.group p { g with u := f g.u }]
    | none => []
  | .stream p =>
    match mfind s.streams p with
    | some t => [.stream p { t with u := f t.u }]
    | none => []

/-! ## Arrivals (R337, R196) -/

/-- What is numbered below a bound has left the store queue, or has finished in the stream, and what left it is
performed at a scope. -/
def earlierDone (s : State) (x : Party) (after scope : Nat) : Bool :=
  x.sq.all (fun e => decide (after ≤ e.id)) && x.ops.all (fun o => decide (after ≤ o.id)) && relReady s scope

/-- The members that ended earlier in this cycle and that an arrival of the cycle, which comes before their ends, makes reported
(R332, R335). -/
def lateEnds (n : BarNow) : List BarEnder := n.ends.filter (fun e => !e.told && endReported e.party (barReached n))

/-- Their cards. -/
def lateCards (key : Nat) (n : BarNow) : Eff :=
  Eff.forEach (lateEnds n) (fun e => barchk e.core e.part e.slot 255 e.frank key 1 n.base.gen e.live 0)

/-- What has happened at a barrier with those ends told. -/
def tellEnds (n : BarNow) : BarNow := { n with ends := n.ends.map (fun e => { e with told := e.told || endReported e.party (barReached n) }) }

/-- An arrival is recorded: the checker's card of a divergent one, the arrival, the party's own record: the generation in
which it arrived. -/
def recordArrive (a : Agent) (x : Party) (key : Nat) (released live : Word) : Eff := fun s =>
  let n := nowAt s.clk.cyc (barAt s x.blk key)
  let gen := if n.base.joins.contains x.id && !n.base.members.contains x.id then (n.base.gen + 1) % 65536 else n.base.gen
  let m := { n with arrs := n.arrs ++ [x.id] }
  Eff.all
    [Eff.when (released != live)
       (barchk x.core x.part x.slot (lowest released) (frankOfBlk s x.blk) key 2 n.base.gen live released),
     lateCards key m,
     setBar x.blk key (barAfter key (tellEnds m)),
     setU a (fun u => { u with arrived := mput u.arrived key gen })] s

/-- The record of a pending arrival of an agent, when everything before it is done; one with a card of the checker waits at the
barrier for room (R335, R397). -/
def arrivalOf (s : State) (a : Agent) (x : Party) (p : Pend) : Option Eff :=
  match p.kind with
  | .arrive key r l =>
    if earlierDone s x p.after (barScope key) && mayReach s.clk.cyc x.id (barAt s x.blk key) then
      cardPoint (coreSrc x.core x.part 5) x.blk (frankOfBlk s x.blk)
        (Eff.seq (setU a (fun u => { u with pend := u.pend.filter (· != p) })) (recordArrive a x key r l)) s
    else none
  | _ => none

/-- The first pending arrival of an agent that may be recorded. -/
def arrivalNow (s : State) (a : Agent) : Option Eff :=
  match partyOf s a with
  | none => none
  | some x => x.u.pend.findSome? (arrivalOf s a x)

/-- It is recorded and no longer pending. -/
def takeArrival (a : Agent) : Eff := fun s => Eff.opt (arrivalNow s a) s

/-- An arrival of an agent for lanes: pending, and recorded at once where nothing holds it back. -/
def arriveFor (a : Agent) (key : Nat) (lanes live : Word) : Eff := fun s =>
  let p : Pend := { kind := .arrive key lanes live, after := s.nextId }
  Eff.all
    [setU a (fun u => { u with pend := u.pend ++ [p] }), fun s => [.nextId (s.nextId + 1)], takeArrival a] s

/-- An arrival issues. -/
def arrive (c : Ctx) (key : Nat) : Eff := arriveFor c.iss.agent key c.lanes c.live

/-- An arrival of the party at a barrier is not recorded yet. -/
def arrivePending (u : UCtx) (key : Nat) : Bool :=
  u.pend.any (fun p =>
    match p.kind with
    | .arrive k _ _ => k == key
    | _ => false)

/-- The party has arrived in the current generation. -/
def hasArrived (s : State) (x : Party) (key : Nat) : Bool :=
  arrivePending x.u key || (barAt s x.blk key).arrived.contains x.id || (barAt s x.blk key).early.contains x.id

/-- A bar.leave of the party comes after its arrival: one of the generation that a cycle began with counts until the completion
test at that cycle's end (R332). -/
def arrivedYet (s : State) (x : Party) (key : Nat) : Bool :=
  let b := barAt s x.blk key
  hasArrived s x key || (b.now.cyc == s.clk.cyc && (b.now.base.arrived.contains x.id || b.now.arrs.contains x.id))

/-- The generation in which the party last arrived has completed, or it never arrived. -/
def waitOver (s : State) (x : Party) (key : Nat) : Bool :=
  !hasArrived s x key || (!arrivePending x.u key && (mfind x.u.arrived key).isNone)

/-! ## Forms of groups -/

/-- BARRIER with the operand (R329). -/
def barTrap (c : Ctx) (v : Nat) : Res := .trap 13 (BitVec.ofNat 64 v) c.uniLane Eff.nop

/-- The barrier that field A names. -/
def withBar (c : Ctx) (s : State) (w : UniW) (k : Nat → Bar → Res) : Res :=
  match barKeyOf c.core (c.ua w) with
  | some key => k key (barAt s c.blkId key)
  | none => barTrap c (c.ua w)

/-- A divergent arrival of a launch with the barrier-trap flag (R335). -/
def divergeTraps (c : Ctx) : Bool := c.lanes != c.live && pktF c.l 1 42 42 == 1

/-- It raises BARRIER beside the checker's card, before the arrival is recorded; a card that must stall parks it first
(R397). -/
def divergeTrap (c : Ctx) (s : State) (w : UniW) (key : Nat) : Res :=
  if mustStall s (coreSrc c.core c.part 5) 4 c.frank then .park (.retry (.stall c.cl)) Eff.nop
  else
    .trap 13 (BitVec.ofNat 64 (c.ua w)) c.uniLane
      (barchk c.core c.part c.slot (lowest c.lanes) c.frank key 2 (barAt s c.blkId key).gen c.live c.lanes)

/-- BAR.ARR: a party that has arrived already waits for the generation and then arrives. -/
def execBarArr (w : UniW) : State → Host.Outcome State Fault Refusal :=
  issue (.barArr w) (fun c s => withBar c s w (fun key b =>
    if !b.members.contains c.party && !b.joins.contains c.party then barTrap c (c.ua w)
    else if divergeTraps c then divergeTrap c s w key
    else
      match partyOf s c.iss.agent with
      | none => .done { act := c.lanes }
      | some x =>
        if hasArrived s x key then .park (.arrive key none) Eff.nop
        else .done { act := c.lanes, eff := arrive c key }))

/-- The wait of bar.wait and mbar.wait: over at once, or parked. -/
def barWaitRes (c : Ctx) (s : State) (w : UniW) (key : Nat) : Res :=
  match partyOf s c.iss.agent with
  | none => .done { act := c.lanes }
  | some x =>
    if waitOver s x key then .done { act := c.lanes, regs := putU w.d (barWord (barAt s c.blkId key)).toNat }
    else .park (.barWait (kNum w.d) key false) Eff.nop

/-- BAR.WAIT. -/
def execBarWait (w : UniW) : State → Host.Outcome State Fault Refusal :=
  issue (.barWait w) (fun c s => withBar c s w (fun key _ => barWaitRes c s w key))

/-- BAR.SYNC: bar.arr, then bar.wait; the arrival that completes a generation does not park. -/
def execBarSync (w : UniW) : State → Host.Outcome State Fault Refusal :=
  issue (.barSync w) (fun c s => withBar c s w (fun key b =>
    if !b.members.contains c.party && !b.joins.contains c.party then barTrap c (c.ua w)
    else if divergeTraps c then divergeTrap c s w key
    else
      match partyOf s c.iss.agent with
      | none => .done { act := c.lanes }
      | some x =>
        if hasArrived s x key then .park (.arrive key (some (kNum w.d))) Eff.nop
        else
          let s0 := applyAll (splitCard c (usplit c s) s) s
          let s1 := applyAll (arrive c key s0) s0
          match partyOf s1 c.iss.agent with
          | some x1 =>
            if waitOver s1 x1 key then
              .done { act := c.lanes, eff := arrive c key, regs := putU w.d (barWord (barAt s1 c.blkId key)).toNat }
            else .park (.barWait (kNum w.d) key true) (arrive c key)
          | none => .done { act := c.lanes }))

/-- BAR.JOIN: a status (R337). -/
def execBarJoin (w : UniW) : State → Host.Outcome State Fault Refusal :=
  issue (.barJoin w) (fun c s => withBar c s w (fun key b =>
    let st (n : Nat) (eff : Eff) : Res := .done { act := c.lanes, regs := putU w.d n, eff := eff }
    if key < 16 then st 3 Eff.nop
    else if b.holder.isSome && b.holder != some c.launch then st 1 Eff.nop
    else if b.members.contains c.party || b.joins.contains c.party then st 2 Eff.nop
    else
      let n := nowAt c.cyc b
      st 0 (setBar c.blkId key (barAfter key { n with jns := n.jns ++ [(c.party, c.launch)] }))))

/-- BAR.LEAVE: arrives where it has not, and leaves when the generation completes. -/
def execBarLeave (w : UniW) : State → Host.Outcome State Fault Refusal :=
  issue (.barLeave w) (fun c s => withBar c s w (fun key b =>
    if key < 16 then barTrap c (c.ua w)
    else if !b.members.contains c.party then .done { act := c.lanes }
    else
      match partyOf s c.iss.agent with
      | none => .done { act := c.lanes }
      | some x =>
        let leave : Eff := fun s =>
          let n := nowAt c.cyc (barAt s c.blkId key)
          setBar c.blkId key (barAfter key { n with lvs := n.lvs ++ [c.party] }) s
        if arrivedYet s x key then .done { act := c.lanes, eff := leave }
        else if divergeTraps c then divergeTrap c s w key
        else .done { act := c.lanes, eff := Eff.seq leave (arrive c key) }))

/-- BAR.GEN. -/
def execBarGen (w : UniW) : State → Host.Outcome State Fault Refusal :=
  issue (.barGen w) (fun c s => withBar c s w (fun _ b =>
    .done { act := c.lanes, regs := putU w.d (barWord b).toNat }))

/-! ## Forms of the stream (R196) -/

/-- The numbered barrier of field A; a value above 15 raises BARRIER. -/
def withNumBar (c : Ctx) (w : UniW) (k : Nat → Res) : Res := if c.ua w < 16 then k (c.ua w) else barTrap c (c.ua w)

/-- MBAR.ARR. -/
def execMbarArr (w : UniW) : State → Host.Outcome State Fault Refusal :=
  issue (.mbarArr w) (fun c s => withNumBar c w (fun key =>
    match partyOf s c.iss.agent with
    | none => .done { act := c.lanes }
    | some x =>
      if hasArrived s x key then .park (.arrive key none) Eff.nop
      else .done { act := c.lanes, eff := arriveFor c.iss.agent key 0 0 }))

/-- MBAR.WAIT. -/
def execMbarWait (w : UniW) : State → Host.Outcome State Fault Refusal :=
  issue (.mbarWait w) (fun c s => withNumBar c w (fun key => barWaitRes c s w key))

/-! ## Time (R342, R343) -/

/-- RDTIME. -/
def execRdtime (w : UniW) : State → Host.Outcome State Fault Refusal :=
  issue (.rdtime w) (fun c _ => .done { act := c.lanes, regs := putU w.d c.time.toNat })

/-- RDCYC. -/
def execRdcyc (w : UniW) : State → Host.Outcome State Fault Refusal :=
  issue (.rdcyc w) (fun c _ => .done { act := c.lanes, regs := putU w.d c.cyc })

/-- NAP: over at once when CYC has come, else parked. -/
def execNap (w : UniW) : State → Host.Outcome State Fault Refusal :=
  issue (.nap w) (fun c _ =>
    if c.ua w ≤ c.cyc then .done { act := c.lanes } else .park (.nap (c.ua w)) Eff.nop)

end Sys2Proof.Machine
end

