-- ==== Sys2Proof/Machine/Trans.lean ====
section
/-! DEFINITION. The transcendental functions of R150 in fixed point: 512 fraction bits, an exact result
exact, any other with an odd last bit (log entry 26). -/

namespace Sys2Proof.Machine

/-- Fraction bits of the fixed point. -/
def fpBits : Nat := 512

/-- 1.0. -/
def fpOne : Nat := 2 ^ fpBits

/-- Product of two fixed-point numbers. -/
def fpMul (a b : Nat) : Nat := a * b / fpOne

/-- Sum over k of z^(2k+1) / (2k+1), n terms: atanh z; `p` is z^(2k+1). -/
def atanhSum (z2 : Nat) : Nat → Nat → Nat → Nat
  | 0, _, _ => 0
  | n + 1, k, p => p / (2 * k + 1) + atanhSum z2 n (k + 1) (fpMul p z2)

/-- atanh of z, for z at most 1/3. -/
def fpAtanh (z : Nat) : Nat := atanhSum (fpMul z z) 170 0 z

/-- ln 2 = 2 atanh(1/3). -/
def fpLn2 : Nat := 2 * fpAtanh (fpOne / 3)

/-- Sum over k of (-1)^k / ((2k+1) d^(2k+1)), n terms: atan(1/d); `p` is 1/d^(2k+1). -/
def atanSum (d : Nat) : Nat → Nat → Nat → Int
  | 0, _, _ => 0
  | n + 1, k, p =>
    let t : Int := ((p / (2 * k + 1) : Nat) : Int)
    (if k % 2 = 0 then t else -t) + atanSum d n (k + 1) (p / (d * d))

/-- pi = 16 atan(1/5) - 4 atan(1/239). -/
def fpPi : Nat :=
  (16 * atanSum 5 120 0 (fpOne / 5) - 4 * atanSum 239 40 0 (fpOne / 239)).toNat

/-- Sum over k of t^k / k!, n terms: e^t; `p` is t^k / k!. -/
def expSum (t : Nat) : Nat → Nat → Nat → Nat
  | 0, _, _ => 0
  | n + 1, k, p => p + expSum t n (k + 1) (fpMul p t / (k + 1))

/-- The alternating sum of t^j / j! for j = k, k+2, ...: sin t from k = 1, cos t from k = 0. -/
def sinSum (t2 : Nat) : Nat → Nat → Bool → Nat → Int
  | 0, _, _, _ => 0
  | n + 1, k, plus, p =>
    (if plus then (p : Int) else -(p : Int)) +
      sinSum t2 n (k + 2) (!plus) (fpMul p t2 / ((k + 1) * (k + 2)))

/-- An inexact fixed-point number as an exact value with an odd last bit. -/
def fpVal (neg : Bool) (x : Nat) : FVal := .fin neg (2 * x + 1) (-(fpBits : Int) - 1)

/-- 2^a (R150). Beyond every format's range the exponent is cut to a power that overflows or underflows. -/
def FVal.ex2 (a : FVal) : FVal :=
  match a with
  | .nan => .nan
  | .inf s => if s then .fin false 0 0 else .inf false
  | .fin s m e =>
    if m = 0 then .fin false 1 0
    else if 16 < e + (Nat.log2 m : Nat) then .fin false 1 (if s then -100000 else 100000)
    else
      -- a in units of 2^-512: an input's last bit is never below 2^-149, so this is exact
      let x : Int := signedAt s m (e + fpBits) 0
      let n := x / (fpOne : Int)
      let f := (x - n * fpOne).toNat
      if f = 0 then .fin false 1 n
      else (fpVal false (expSum (fpMul f fpLn2) 110 0 fpOne)).scale n

/-- log2 a (R150). -/
def FVal.lg2 (a : FVal) : FVal :=
  match a with
  | .nan => .nan
  | .inf s => if s then .nan else .inf false
  | .fin s m e =>
    if m = 0 then .inf true
    else if s then .nan
    else
      let top : Int := e + (Nat.log2 m : Nat)
      -- y = m / 2^log2 m in [1, 2)
      let y := m * fpOne / 2 ^ Nat.log2 m
      if y = fpOne then FVal.ofInt top
      else
        let z := (y - fpOne) * fpOne / (y + fpOne)
        let l := 2 * fpAtanh z * fpOne / fpLn2
        let v : Int := top * fpOne + l
        fpVal (decide (v < 0)) v.natAbs

/-- sin(pi r) for r = k / 2^n half-turns given as a fixed-point number in [0, 1/2]. -/
def fpSinPi (r : Nat) : Nat :=
  let t := fpMul fpPi r
  (sinSum (fpMul t t) 90 1 true t).toNat

/-- sin(pi x) for x in [0, 2), in fixed point. -/
def sinPiPos (x : Nat) : FVal :=
  let neg := decide (fpOne ≤ x)
  let y := x % fpOne
  let r := if 2 * y ≤ fpOne then y else fpOne - y
  if r = 0 then .fin neg 0 0
  else if 2 * r = fpOne then .fin neg 1 0
  else fpVal neg (fpSinPi r)

/-- sin(pi a) (R150): for a nonzero integer n, +0 when n > 0 and -0 when n < 0. -/
def FVal.sinPi (a : FVal) : FVal :=
  match a with
  | .nan => .nan
  | .inf _ => .nan
  | .fin s m e =>
    if m = 0 then a
    else
      let x := if 0 ≤ e + fpBits then m * 2 ^ (e + fpBits).toNat % (2 * fpOne) else 0
      match sinPiPos x with
      | .fin neg n g => if n = 0 then .fin s 0 0 else .fin (s != neg) n g
      | v => v

/-- cos(pi a) (R150): +0 at the odd halves. -/
def FVal.cosPi (a : FVal) : FVal :=
  match a with
  | .nan => .nan
  | .inf _ => .nan
  | .fin _ m e =>
    let x := if 0 ≤ e + fpBits then m * 2 ^ (e + fpBits).toNat % (2 * fpOne) else 0
    match sinPiPos ((x + fpOne / 2) % (2 * fpOne)) with
    | .fin neg n g => if n = 0 then .fin false 0 0 else .fin neg n g
    | v => v

end Sys2Proof.Machine
end

