-- ==== Sys2Proof/Machine/LaneFloat.lean ====
section
/-! DEFINITION. Lane floating forms (05: R147 to R151). -/

namespace Sys2Proof.Machine

/-! ## Operands and results -/

/-- ABS, then NEG, of an exact value (R32). -/
def absNegF (ab ng : Bool) (x : FVal) : FVal :=
  let y := if ab then x.abs else x
  if ng then y.neg else y

/-- Element i of a pattern at a floating type; an unpacked type has element 0 alone. -/
def elemF (t : Ty) (x i : Nat) : FVal :=
  if tyPacked t then decodeF (fmtOf t) (half16 x i) else fVal t x

/-- Element i of operand A, modified (R32). -/
def Ctx.fltA (c : Ctx) (w : LaneW) (l i : Nat) : FVal :=
  absNegF (qAbsA w.q) (qNegA w.q) (elemF w.ty (c.src 0 w.ty w.a l) i)
/-- Element i of operand B, modified. -/
def Ctx.fltB (c : Ctx) (w : LaneW) (l i : Nat) : FVal :=
  absNegF (qAbsB w.q) (qNegB w.q) (elemF w.ty (c.src 1 w.ty w.b l) i)
/-- Element i of operand C; no modifier acts on it. -/
def Ctx.fltC (c : Ctx) (w : LaneW) (l i : Nat) : FVal := elemF w.ty (c.src 2 w.ty (srcOf w.c.toNat) l) i

/-- SCALE, one rounding, CLAMP (R32). -/
def fltOut (f : FFmt) (mode : RMode) (q : BitVec 12) (x : FVal) : Nat :=
  clampF f (qClamp q) (roundF f mode (x.scale (qScale q)))

/-- Both halves of a packed register, or the one element of another type. -/
def eachElem (t : Ty) (f : Nat → Nat) : Nat := if tyPacked t then f 0 + 2 ^ 16 * f 1 else f 0

/-- A floating form: an exact value for each element, rounded once by RNE (R147). -/
def fltRes (c : Ctx) (w : LaneW) (f : Nat → Nat → FVal) : Res :=
  laneRes c w w.ty (fun l => eachElem w.ty (fun i => fltOut (fmtOf w.ty) .rne w.q (f l i)))

/-! ## The forms -/

/-- FADD. -/
def execFadd (w : LaneW) : State → Host.Outcome State Fault Refusal :=
  issue (.fadd w) (fun c _ => fltRes c w (fun l i => (c.fltA w l i).add (c.fltB w l i)))

/-- FSUB: a plus the negated b. -/
def execFsub (w : LaneW) : State → Host.Outcome State Fault Refusal :=
  issue (.fsub w) (fun c _ => fltRes c w (fun l i => (c.fltA w l i).add (c.fltB w l i).neg))

/-- FMUL. -/
def execFmul (w : LaneW) : State → Host.Outcome State Fault Refusal :=
  issue (.fmul w) (fun c _ => fltRes c w (fun l i => (c.fltA w l i).mul (c.fltB w l i)))

/-- FFMA. -/
def execFfma (w : LaneW) : State → Host.Outcome State Fault Refusal :=
  issue (.ffma w) (fun c _ => fltRes c w (fun l i => ((c.fltA w l i).mul (c.fltB w l i)).add (c.fltC w l i)))

/-- FMIN. -/
def execFmin (w : LaneW) : State → Host.Outcome State Fault Refusal :=
  issue (.fmin w) (fun c _ => fltRes c w (fun l i => FVal.pick false (c.fltA w l i) (c.fltB w l i)))

/-- FMAX. -/
def execFmax (w : LaneW) : State → Host.Outcome State Fault Refusal :=
  issue (.fmax w) (fun c _ => fltRes c w (fun l i => FVal.pick true (c.fltA w l i) (c.fltB w l i)))

/-- FCMP. -/
def execFcmp (sub : BitVec 4) (w : PredW) : State → Host.Outcome State Fault Refusal :=
  issue (.fcmp sub w) (fun c _ => predRes c w (fun l =>
    fcmpCond sub.toNat (absNegF (qAbsA w.q) (qNegA w.q) (fVal w.ty (c.src 0 w.ty w.a l)))
      (absNegF (qAbsB w.q) (qNegB w.q) (fVal w.ty (c.src 1 w.ty w.b l)))))

/-- FDIV. -/
def execFdiv (w : LaneW) : State → Host.Outcome State Fault Refusal :=
  issue (.fdiv w) (fun c _ => fltRes c w (fun l i => (c.fltA w l i).div (c.fltB w l i)))

/-- FRCP: 1 / a. -/
def execFrcp (w : LaneW) : State → Host.Outcome State Fault Refusal :=
  issue (.frcp w) (fun c _ => fltRes c w (fun l i => (FVal.fin false 1 0).div (c.fltA w l i)))

/-- FRSQ: 1 / sqrt a. -/
def execFrsq (w : LaneW) : State → Host.Outcome State Fault Refusal :=
  issue (.frsq w) (fun c _ => fltRes c w (fun l i => (c.fltA w l i).rsqrt))

/-- FSQRT. -/
def execFsqrt (w : LaneW) : State → Host.Outcome State Fault Refusal :=
  issue (.fsqrt w) (fun c _ => fltRes c w (fun l i => (c.fltA w l i).sqrt))

/-- FEX2: 2^a. -/
def execFex2 (w : LaneW) : State → Host.Outcome State Fault Refusal :=
  issue (.fex2 w) (fun c _ => fltRes c w (fun l i => (c.fltA w l i).ex2))

/-- FLG2: log2 a. -/
def execFlg2 (w : LaneW) : State → Host.Outcome State Fault Refusal :=
  issue (.flg2 w) (fun c _ => fltRes c w (fun l i => (c.fltA w l i).lg2))

/-- FSIN: sin(pi a). -/
def execFsin (w : LaneW) : State → Host.Outcome State Fault Refusal :=
  issue (.fsin w) (fun c _ => fltRes c w (fun l i => (c.fltA w l i).sinPi))

/-- FCOS: cos(pi a). -/
def execFcos (w : LaneW) : State → Host.Outcome State Fault Refusal :=
  issue (.fcos w) (fun c _ => fltRes c w (fun l i => (c.fltA w l i).cosPi))

/-- DOT2: an exact sum of two products and an f32 addend; the result is f32 (R151). -/
def execDot2 (w : LaneW) : State → Host.Outcome State Fault Refusal :=
  issue (.dot2 w) (fun c _ => laneRes c w .f32 (fun l =>
    let p (i : Nat) : FVal := (c.fltA w l i).mul (c.fltB w l i)
    fltOut fmt32 .rne w.q (((p 0).add (p 1)).add (fVal .f32 (c.src 2 .f32 (srcOf w.c.toNat) l)))))

/-- HFMA2: an ffma for each element (R151). -/
def execHfma2 (w : LaneW) : State → Host.Outcome State Fault Refusal :=
  issue (.hfma2 w) (fun c _ => fltRes c w (fun l i => ((c.fltA w l i).mul (c.fltB w l i)).add (c.fltC w l i)))

end Sys2Proof.Machine
end

