-- ==== Sys2Proof/Machine/Collect.lean ====
section
/-! DEFINITION. Lane collectives (04: R107, R108, R115 to R119) and the combining order (03: R84). -/

namespace Sys2Proof.Machine

/-- A vote: the tests of the participating lanes into pD. -/
def voteRes (c : Ctx) (w : PredW) (f : List Bool → Bool) : Res :=
  let act := c.active w.g w.gn
  let t := f ((lanesOf act).map (fun l => c.src 0 .n32 w.a l != 0))
  .done { act := act, regs := putPred w.d.toNat act (fun _ => t) }

/-- VOTE.ANY. -/
def execVoteAny (w : PredW) : State → Host.Outcome State Fault Refusal :=
  issue (.voteAny w) (fun c _ => voteRes c w (fun ts => ts.any id))

/-- VOTE.ALL. -/
def execVoteAll (w : PredW) : State → Host.Outcome State Fault Refusal :=
  issue (.voteAll w) (fun c _ => voteRes c w (fun ts => ts.all id))

/-- VOTE.BAL. -/
def execVoteBal (w : LaneW) : State → Host.Outcome State Fault Refusal :=
  issue (.voteBal w) (fun c _ =>
    let act := c.active w.g w.gn
    let m := maskOf (fun l => inMask act l && c.src 0 .n32 w.a l != 0)
    laneRes c w .n32 (fun _ => m.toNat))

/-- The context with no result outstanding: a present lane's value is the one it last wrote (R108). -/
def Ctx.settled (c : Ctx) : Ctx := { c with u := { c.u with outs := [] } }

/-- What a lane receives from lane j (R108): its value, and its validity. Under erratum 0x0014 an out-of-range lane
gives its own (R422). -/
def shflGet (c : Ctx) (w : LaneW) (act : Word) (old : Bool) (own : Nat) (j : Int) : Nat × Bool :=
  if j < 0 || 31 < j then (if old then (c.src 0 w.ty w.a own, true) else (0, false))
  else
    let l := j.toNat
    if inMask act l then (c.src 0 w.ty w.a l, true)
    else if inMask c.live l then (c.settled.src 0 w.ty w.a l, true)
    else (0, false)

/-- A shuffle: the source lane from the lane and b. -/
def shflRes (c : Ctx) (s : State) (w : LaneW) (f : Nat → Nat → Int) : Res :=
  let act := c.active w.g w.gn
  let got (l : Nat) : Nat × Bool := shflGet c w act (compatBit s c.l 1) l (f l (c.src 1 .n32 w.b l))
  .done
    { act := act
      regs := fun r =>
        let r := putLanes w.ty w.d true act (fun l => patRes w.ty (got l).1) r
        if w.c == 0 then r else putPred (w.c.toNat - 1) act (fun l => (got l).2) r }

/-- SHFL.IDX. -/
def execShflIdx (w : LaneW) : State → Host.Outcome State Fault Refusal :=
  issue (.shflIdx w) (fun c s => shflRes c s w (fun _ b => b))

/-- SHFL.UP. -/
def execShflUp (w : LaneW) : State → Host.Outcome State Fault Refusal :=
  issue (.shflUp w) (fun c s => shflRes c s w (fun l b => (l : Int) - b))

/-- SHFL.DN. -/
def execShflDn (w : LaneW) : State → Host.Outcome State Fault Refusal :=
  issue (.shflDn w) (fun c s => shflRes c s w (fun l b => (l : Int) + b))

/-- SHFL.XOR. -/
def execShflXor (w : LaneW) : State → Host.Outcome State Fault Refusal :=
  issue (.shflXor w) (fun c s => shflRes c s w (fun l b => (Nat.xor l b : Nat)))

/-- The identity of an operator at a type, as a pattern (R118). -/
def reduxId (op : Nat) (t : Ty) : Nat :=
  let w := tyWidth t
  if tyIsFloat t then
    match op with
    | 0 => (fmtOf t).signPat
    | 1 => (fmtOf t).infPat
    | _ => (fmtOf t).signPat + (fmtOf t).infPat
  else
    match op with
    | 1 => patOf (intMax t) w
    | 2 => patOf (intMin t) w
    | 3 => 2 ^ w - 1
    | _ => 0

/-- One combination, the left operand from the lower lane (R84, R118). -/
def reduxOp (op : Nat) (t : Ty) (sat : Bool) (a b : Nat) : Nat :=
  let w := tyWidth t
  if tyIsFloat t then
    let x := fVal t a
    let y := fVal t b
    roundF (fmtOf t) .rne
      (match op with
       | 0 => x.add y
       | 1 => FVal.pick false x y
       | _ => FVal.pick true x y)
  else
    match op with
    | 0 =>
      let s := intVal t a + intVal t b
      patOf (if sat then satInt t s else s) w
    | 1 => if intVal t b < intVal t a then b else a
    | 2 => if intVal t a < intVal t b then b else a
    | 3 => Nat.land a b
    | 4 => Nat.lor a b
    | _ => Nat.xor a b

/-- One level of the tree: distance d. -/
def reduxLevel (f : Nat → Nat → Nat) (d : Nat) (xs : List Nat) : List Nat :=
  xs.zipIdx.map (fun e => if e.2 < d then e.1 else f (xs.getD (e.2 - d) 0) e.1)

/-- The 32 positions combined in the order of R84. -/
def reduxTree (f : Nat → Nat → Nat) (xs : List Nat) : List Nat :=
  [1, 2, 4, 8, 16].foldl (fun xs d => reduxLevel f d xs) xs

/-- The operands: the participating lanes' own, the identity elsewhere (R107). -/
def reduxIn (c : Ctx) (w : LaneW) (op : Nat) : List Nat :=
  let act := c.active w.g w.gn
  (List.range 32).map (fun l => if inMask act l then c.src 0 w.ty w.a l else reduxId op w.ty)

/-- A result as it is written: NaN canonical (R68). -/
def reduxOut (t : Ty) (x : Nat) : Nat := if tyIsFloat t then roundF (fmtOf t) .rne (fVal t x) else patRes t x

/-- REDUX. -/
def execRedux (sub : BitVec 4) (w : LaneW) : State → Host.Outcome State Fault Refusal :=
  issue (.redux sub w) (fun c _ =>
    let op := sub.toNat % 8
    let r := (reduxTree (reduxOp op w.ty (qSat w.q)) (reduxIn c w op)).getD 31 0
    laneRes c w w.ty (fun _ => reduxOut w.ty r))

/-- SCAN: bit 3 of SUB makes it exclusive. -/
def execScan (sub : BitVec 4) (w : LaneW) : State → Host.Outcome State Fault Refusal :=
  issue (.scan sub w) (fun c _ =>
    let op := sub.toNat % 8
    let rs := reduxTree (reduxOp op w.ty (qSat w.q)) (reduxIn c w op)
    laneRes c w w.ty (fun l =>
      reduxOut w.ty
        (if sub.toNat < 8 then rs.getD l 0
         else if l = 0 then reduxId op w.ty else rs.getD (l - 1) 0)))

/-- MATCH. -/
def execMatch (w : LaneW) : State → Host.Outcome State Fault Refusal :=
  issue (.match_ w) (fun c _ =>
    let act := c.active w.g w.gn
    let a (l : Nat) : Nat := c.src 0 w.ty w.a l
    laneRes c w w.ty (fun l => (maskOf (fun j => inMask act j && a j == a l)).toNat))

end Sys2Proof.Machine
end

