-- ==== Sys2Proof/Machine/Convert.lean ====
section
/-! DEFINITION. Conversions and the forms that read a format register (03: R85 to R94). -/

namespace Sys2Proof.Machine

/-! ## cvt (R86, R87) -/

/-- The source type that field C holds (R85). -/
def cvtTy (w : LaneW) : Ty := tyOf w.c.toNat

/-- The rounding mode that field B gives. -/
def Ctx.cvtMode (c : Ctx) (w : LaneW) (l : Nat) : RMode := modeOf (c.src 1 .n32 w.b l % 4)

/-- A floating source, modified. -/
def Ctx.cvtF (c : Ctx) (w : LaneW) (l : Nat) : FVal :=
  absNegF (qAbsA w.q) (qNegA w.q) (fVal (cvtTy w) (c.src 0 (cvtTy w) w.a l))

/-- An integer source, modified. -/
def Ctx.cvtI (c : Ctx) (w : LaneW) (l : Nat) : Int :=
  absNegI (qAbsA w.q) (qNegA w.q) (intVal (cvtTy w) (c.src 0 (cvtTy w) w.a l))

/-- CVT.FF. -/
def execCvtFf (w : LaneW) : State → Host.Outcome State Fault Refusal :=
  issue (.cvtFf w) (fun c _ => laneRes c w w.ty (fun l => fltOut (fmtOf w.ty) (c.cvtMode w l) w.q (c.cvtF w l)))

/-- A floating value as an integer type's pattern: a NaN gives 0, everything else saturates. -/
def cvtToInt (t : Ty) (mode : RMode) (x : FVal) : Nat :=
  match x with
  | .nan => 0
  | .inf s => intPat t (if s then intMin t else intMax t)
  | .fin s m e => intPat t (satInt t (roundInt mode s m e))

/-- The same under erratum 0x0011 (R422): a NaN gives the most negative value, 0 for unsigned types. -/
def cvtToIntOld (t : Ty) (mode : RMode) (x : FVal) : Nat :=
  match x with
  | .nan => intPat t (intMin t)
  | x => cvtToInt t mode x

/-- CVT.FI. -/
def execCvtFi (w : LaneW) : State → Host.Outcome State Fault Refusal :=
  issue (.cvtFi w) (fun c s => laneRes c w w.ty (fun l =>
    (if compatBit s c.l 0 then cvtToIntOld else cvtToInt) w.ty (c.cvtMode w l) (c.cvtF w l)))

/-- CVT.IF. -/
def execCvtIf (w : LaneW) : State → Host.Outcome State Fault Refusal :=
  issue (.cvtIf w) (fun c _ => laneRes c w w.ty (fun l =>
    fltOut (fmtOf w.ty) (c.cvtMode w l) w.q (FVal.ofInt (c.cvtI w l))))

/-- CVT.II. -/
def execCvtIi (w : LaneW) : State → Host.Outcome State Fault Refusal :=
  issue (.cvtIi w) (fun c _ => laneRes c w w.ty (fun l => intRes w (c.cvtI w l)))

/-! ## Forms that name a format register -/

/-- The format register that field C names (R85). -/
def kfNum (w : LaneW) : Nat := bits w.c.toNat 2 0

/-- Its image: a write of it is never outstanding (R80). -/
def Ctx.kfImg (c : Ctx) (n : Nat) : DWord := getKf c.u.regs.u n

/-- Its fields. -/
def Ctx.kfFmt (c : Ctx) (w : LaneW) : XFmt := xfmtOf (c.kfImg (kfNum w))

/-- SEED advances at the issue of a form that rounds by SR (R70). -/
def stepSeed (n : Nat) (r : Regs) : Regs :=
  let v := getKf r.u n
  if (xfmtOf v).rnd = 4 then { r with u := setKf r.u n (advanceSeed v) } else r

/-- An xf conversion: its result per lane, and the seed. -/
def xfRes (c : Ctx) (w : LaneW) (f : Nat → Nat) : Res :=
  let act := c.active w.g w.gn
  .done { act := act, regs := fun r => stepSeed (kfNum w) (putLanes .n32 w.d true act f r) }

/-- Operand A as an f32 value, modified. -/
def Ctx.f32A (c : Ctx) (w : LaneW) (l : Nat) : FVal :=
  absNegF (qAbsA w.q) (qNegA w.q) (fVal .f32 (c.src 0 .f32 w.a l))

/-- CVTX.PACK (R88). -/
def execCvtxPack (w : LaneW) : State → Host.Outcome State Fault Refusal :=
  issue (.cvtxPack w) (fun c _ => xfRes c w (fun l =>
    let f := c.kfFmt w
    let code := xfEncode ((c.f32A w l).scale (qScale w.q)) f (srDraw f.seed l 0)
    Nat.lor (c.src 1 .xf w.b l * 2 ^ f.cont % 2 ^ 32) code))

/-- CVTX.UNPACK (R88). -/
def execCvtxUnpack (w : LaneW) : State → Host.Outcome State Fault Refusal :=
  issue (.cvtxUnpack w) (fun c _ => laneRes c w .n32 (fun l =>
    let f := c.kfFmt w
    let i := c.src 1 .n32 w.b l % (32 / f.cont)
    let code := bits (c.src 0 .xf w.a l) (f.cont * i + f.cont - 1) (f.cont * i)
    roundF fmt32 .rne ((xfValue code f).scale (qScale w.q))))

/-- PACK2 (R89). -/
def execPack2 (w : LaneW) : State → Host.Outcome State Fault Refusal :=
  issue (.pack2 w) (fun c _ => laneRes c w .n32 (fun l =>
    let b := absNegF (qAbsB w.q) (qNegB w.q) (fVal .f32 (c.src 1 .f32 w.b l))
    fltOut (fmtOf w.ty) .rne w.q (c.f32A w l) + 2 ^ 16 * fltOut (fmtOf w.ty) .rne w.q b))

/-- The class of a floating pattern, as a bit number (R90). -/
def classOf (f : FFmt) (x : Nat) : Nat :=
  let ex := bits x (f.ew + f.fw - 1) f.fw
  let fr := x % 2 ^ f.fw
  let neg := bit x (f.ew + f.fw)
  if ex = 2 ^ f.ew - 1 then
    if fr = 0 then (if neg then 0 else 7) else if bit fr (f.fw - 1) then 9 else 8
  else if ex = 0 then
    if fr = 0 then (if neg then 3 else 4) else if neg then 2 else 5
  else if neg then 1 else 6

/-- The class of an xf code. -/
def xfClass (f : XFmt) (code : Nat) : Nat :=
  match xfValue code f with
  | .nan => 9
  | .inf s => if s then 0 else 7
  | .fin s m _ =>
    if m = 0 then (if s then 3 else 4)
    else if f.e ≠ 0 ∧ bits (code % 2 ^ f.width) (f.e + f.m - 1) f.m = 0 then (if s then 2 else 5)
    else if s then 1 else 6

/-- FCLASS (R90). -/
def execFclass (w : LaneW) : State → Host.Outcome State Fault Refusal :=
  issue (.fclass w) (fun c _ => laneRes c w .n32 (fun l =>
    let x := c.src 0 w.ty w.a l
    2 ^ (if w.ty == .xf then xfClass (c.kfFmt w) (x % 2 ^ (c.kfFmt w).cont) else classOf (fmtOf w.ty) x)))

/-- BSCL (R91). -/
def execBscl (w : LaneW) : State → Host.Outcome State Fault Refusal :=
  issue (.bscl w) (fun c _ => laneRes c w .n32 (fun l =>
    bsclVal (c.kfFmt w) (Config.freeValue (c.fresh * 32 + l)).toNat (fVal .f32 (c.src 0 .f32 w.a l))))

/-- The value that qblk encodes: NaN under a scale that is 0, NaN or infinite. -/
def qblkVal (sc a : FVal) (k : Int) : FVal :=
  match sc with
  | .fin _ m _ => if m = 0 then .nan else (a.div sc).scale k
  | _ => .nan

/-- QBLK (R92). -/
def execQblk (w : LaneW) : State → Host.Outcome State Fault Refusal :=
  issue (.qblk w) (fun c _ => xfRes c w (fun l =>
    let f := c.kfFmt w
    xfEncode (qblkVal (scaleVal f.e8m0 (c.src 1 .xf w.b l)) (c.f32A w l) (qScale w.q)) f (srDraw f.seed l 0)))

/-! ## kfmt (R93, R94) -/

/-- The image a kfmt.set would write: from A, a preset, or a seed. -/
def kfmtRes (c : Ctx) (w : UniW) (img : DWord) : Res :=
  if kfValid img then .done { act := c.lanes, regs := fun r => { r with u := setKf r.u (fs w 11 9) img } }
  else .trap 7 img c.uniLane Eff.nop

/-- KFMT.SET: the image of a uniform field. -/
def execKfmtSet (w : UniW) : State → Host.Outcome State Fault Refusal :=
  issue (.kfmtSet w) (fun c _ => kfmtRes c w (BitVec.ofNat 64 (c.ua w)))

/-- KFMT.SET of a preset; SEED stays. -/
def execKfmtSetPreset (w : UniW) : State → Host.Outcome State Fault Refusal :=
  issue (.kfmtSetPreset w) (fun c _ => kfmtRes c w (setFld (c.kfImg (fs w 11 9)) 31 0 (presetOf (fs w 6 0))))

/-- KFMT.SET.SEED. -/
def execKfmtSetSeed (w : UniW) : State → Host.Outcome State Fault Refusal :=
  issue (.kfmtSetSeed w) (fun c _ => kfmtRes c w (setFld (c.kfImg (fs w 11 9)) 63 32 (c.ua w)))

/-- KFMT.GET. -/
def execKfmtGet (w : UniW) : State → Host.Outcome State Fault Refusal :=
  issue (.kfmtGet w) (fun c _ =>
    .done { act := c.lanes, regs := putU w.d (c.kfImg ((immOf w.a).getD 0)).toNat })

end Sys2Proof.Machine
end

