-- ==== Sys2Proof/Machine/Pigeon.lean ====
section
/-! DEFINITION. Pigeonholes: spawn and phflush (04: R120, R121, R123). -/

namespace Sys2Proof.Machine

/-- Pigeonholes of a core. -/
def holeCount : Nat := 32

/-- The open pigeonhole of an entry and a launch. -/
def openHole (k : Core) (launch : Nat) (entry : DWord) : Option (Nat × Hole) :=
  k.holes.find? (fun e => e.2.pending.isNone && e.2.entry == entry && e.2.launch == launch)

/-- Pigeonholes that a spawn with m lanes for an entry opens (R121). -/
def holeNeed (k : Core) (launch : Nat) (entry : DWord) (m : Nat) : Nat :=
  let f := match openHole k launch entry with
    | some h => 32 - h.2.threads.length
    | none => 0
  (m - f + 31) / 32

/-- One thread deposited: into the open pigeonhole, or into one newly opened; a full one becomes pending. The
second component numbers the next pending one. -/
def deposit (launch part : Nat) (entry : DWord) (expiry : Nat) (args : List Word) (k : Core × Nat) : Core × Nat :=
  let put (n : Nat) (h : Hole) : Core × Nat :=
    let h := { h with threads := h.threads ++ [args] }
    let full := decide (32 ≤ h.threads.length)
    ({ k.1 with holes := mput k.1.holes n (if full then { h with pending := some k.2 } else h) },
     if full then k.2 + 1 else k.2)
  match openHole k.1 launch entry with
  | some (n, h) => put n h
  | none =>
    match mfree k.1.holes holeCount with
    | some n => put n { entry := entry, launch := launch, threads := [], expiry := expiry, part := part, pending := none }
    | none => k

/-- The four argument words of a lane. -/
def Ctx.spawnArgs (c : Ctx) (w : LaneW) (l : Nat) : List Word :=
  match w.b with
  | .v n => (List.range 4).map (fun i => BitVec.ofNat 32 (c.el 1 (.v (n.val + i)) l 0))
  | _ => []

/-- The timer of a lane, clamped. -/
def Ctx.spawnTimer (c : Ctx) (w : LaneW) (l : Nat) : Nat :=
  max 1 (min 65535 (c.src 2 .n32 (srcOf w.c.toNat) l))

/-- Pigeonholes that the deposits of a spawn open (R121). -/
def spawnNeed (c : Ctx) (w : LaneW) (k : Core) : Nat :=
  let ls := lanesOf (c.active w.g w.gn)
  let es := (ls.map (c.target w)).eraseDups
  (es.map (fun e => holeNeed k c.launch e (ls.filter (fun l => c.target w l == e)).length)).foldl (· + ·) 0

/-- The core has the pigeonholes that a spawn opens, and no group of a later place has deposited in this cycle: such a spawn
reaches the pigeonholes in the next one. -/
def spawnFits (c : Ctx) (s : State) (w : LaneW) : Bool :=
  let k := getCore s c.core
  decide (spawnNeed c w k ≤ holeCount - k.holes.length) && !(k.spawnAt.1 == c.cyc && decide (c.key < k.spawnAt.2))

/-- What a spawn does: it parks until the core has the pigeonholes that its deposits open (R121). -/
def spawnBody (w : LaneW) (c : Ctx) (s : State) : Res :=
  let act := c.active w.g w.gn
  let ls := lanesOf act
  match ls.find? (fun l => (c.target w l).toNat % 4 != 0) with
  | some l => .trap 11 (c.target w l) l Eff.nop
  | none =>
    if !spawnFits c s w then .park (.retry .holes) Eff.nop
    else
      .done
        { act := act
          eff := fun s =>
            let r := ls.foldl (fun k l =>
              deposit c.launch c.part (c.target w l) (c.cyc + c.spawnTimer w l) (c.spawnArgs w l) k)
              (getCore s c.core, s.nextId)
            [.core c.core { r.1 with spawnAt := if act == 0 then r.1.spawnAt else (c.cyc, c.key) }, .nextId r.2] }

/-- SPAWN. -/
def execSpawn (w : LaneW) : State → Host.Outcome State Fault Refusal := issue (.spawn w) (spawnBody w)

/-- Open pigeonholes that satisfy a test become pending, lowest number first. -/
def flushHoles (p : Hole → Bool) (k : Core × Nat) : Core × Nat :=
  k.1.holes.foldl (fun k e =>
    if e.2.pending.isNone && p e.2 then
      ({ k.1 with holes := mput k.1.holes e.1 { e.2 with pending := some k.2 } }, k.2 + 1)
    else k) k

/-- PHFLUSH (R123). -/
def execPhflush (w : LaneW) : State → Host.Outcome State Fault Refusal :=
  issue (.phflush w) (fun c _ =>
    let act := c.active w.g w.gn
    let es := (lanesOf act).map (c.target w)
    .done
      { act := act
        eff := fun s =>
          let r := flushHoles (fun h => es.contains h.entry) (getCore s c.core, s.nextId)
          [.core c.core r.1, .nextId r.2] })

end Sys2Proof.Machine
end

