-- ==== Sys2Proof/Machine/Matrix.lean ====
section
/-! DEFINITION. The matrix unit, its operand buffer and the forms of the stream (07: R170 to R199; 03: R81, R83). -/

namespace Sys2Proof.Machine

/-! ## Operand buffer, tiles, operations in flight -/

/-- The matrix resources of the agent's block; a block without the sequencer has none (R170). -/
def Ctx.mat (c : Ctx) : Matrix := c.blk.mat.getD {}

/-- A change of a block's matrix resources. -/
def onMatrix (blk : Nat) (f : Matrix → Matrix) : Eff := fun s =>
  match mfind s.blocks blk with
  | some b =>
    match b.mat with
    | some m => [.block blk { b with mat := some (f m) }]
    | none => []
  | none => []

/-- A byte of the operand buffer. -/
def obByte (m : Matrix) (a : Nat) : Byte := mget 0 m.ob a

/-- n bytes of the buffer as a little-endian value. -/
def obVal (m : Matrix) (a n : Nat) : Nat := ofBytes ((List.range n).map (fun i => obByte m (a + i)))

/-- Bytes of the buffer written. -/
def putOb (m : Matrix) (a : Nat) (bs : List Byte) : Matrix :=
  { m with ob := bs.zipIdx.foldl (fun o e => mset 0 o (a + e.2) e.1) m.ob }

/-- The limit of an operand in a reservation (R187). -/
def recLim (r : ObRec) : Nat := if r.xf then 256 * r.soff else 1024 * r.len

/-- Element (i,j) of a tile, or of a tile pair as binary64 (R189). -/
def tileAt (m : Matrix) (t : Nat) (pair : Bool) (i j : Nat) : Nat :=
  if pair then
    (mget 0 m.tiles (256 * t + 32 * i + 2 * j)).toNat + 2 ^ 32 * (mget 0 m.tiles (256 * t + 32 * i + 2 * j + 1)).toNat
  else (mget 0 m.tiles (256 * t + 16 * i + j)).toNat

/-- An element written. -/
def putTile (m : Matrix) (t : Nat) (pair : Bool) (i j v : Nat) : Matrix :=
  if pair then
    let k := 256 * t + 32 * i + 2 * j
    { m with tiles := mset 0 (mset 0 m.tiles k (BitVec.ofNat 32 v)) (k + 1) (BitVec.ofNat 32 (v / 2 ^ 32)) }
  else { m with tiles := mset 0 m.tiles (256 * t + 16 * i + j) (BitVec.ofNat 32 v) }

/-- Every element of a tile replaced. -/
def mapTile (m : Matrix) (t : Nat) (pair : Bool) (f : Nat → Nat → Nat) : Matrix :=
  (List.range 256).foldl (fun m n => putTile m t pair (n / 16) (n % 16) (f (n / 16) (n % 16))) m

/-- The tiles a tile number covers. -/
def tilesOf (t : Nat) (pair : Bool) : List Nat := if pair then [t, t + 1] else [t]

/-- Two sets of ranges (start, length) meet. -/
def rangesMeet (a b : List (Nat × Nat)) : Bool :=
  a.any (fun x => b.any (fun y => decide (x.1 < y.1 + y.2) && decide (y.1 < x.1 + x.2)))

/-- An operation in flight that an instruction with these reads and writes must wait for (R173). -/
def opClash (obR obW : List (Nat × Nat)) (tR tW : List Nat) (o : Op) : Bool :=
  rangesMeet obR o.obW || rangesMeet obW (o.obR ++ o.obW) || tR.any (o.tW.contains ·) ||
  tW.any ((o.tR ++ o.tW).contains ·)

/-- The waits of R173, then the rest. -/
def waitOps (c : Ctx) (s : State) (obR obW : List (Nat × Nat)) (tR tW : List Nat) (k : Res) : Res :=
  match streamOf c s with
  | some t => if t.ops.any (opClash obR obW tR tW) then .park (.retry .inflight) Eff.nop else k
  | none => k

/-- An engine operation forked at issue (R304). -/
def forkOp (c : Ctx) (op : Op) : Eff := fun s =>
  Eff.seq (onStream c (fun t => { t with ops := t.ops ++ [{ op with id := s.nextId }] }))
    (fun s => [.nextId (s.nextId + 1)]) s

/-- RECORD of a form that states no TRAPADDR: the free value stands there. -/
def recTrap (c : Ctx) : Res := .trap 7 (Config.freeValue c.fresh) c.uniLane Eff.nop
/-- ALIGN of a tile number: TRAPADDR is not stated. -/
def tileTrap (c : Ctx) : Res := .trap 11 (Config.freeValue c.fresh) c.uniLane Eff.nop

/-! ## Reservations (R176 to R178) -/

/-- The status of obres. -/
def obresStatus (m : Matrix) (reg b n : Nat) (xf : Bool) (soff : Nat) : Nat :=
  if (mfind m.recs reg).isSome then 1
  else if n = 0 || m.units < b + n then 2
  else if m.recs.any (fun e => decide (b < e.2.base + e.2.len) && decide (e.2.base < b + n)) then 3
  else if (xf && (soff = 0 || 1024 * n ≤ 256 * soff)) || (!xf && soff ≠ 0) then 4
  else 0

/-- OBRES. -/
def execObres (w : UniW) : State → Host.Outcome State Fault Refusal :=
  issue (.obres w) (fun c _ =>
    let reg := fs w 31 28
    let b := c.ua w
    let n := c.ub w
    let xf := fs w 27 27 == 1
    let soff := fs w 23 15
    let st := obresStatus c.mat reg b n xf soff
    let r : ObRec := { base := b, len := n, xf := xf, soff := soff, fmt := getKf c.u.regs.u (fs w 26 24) }
    .done { act := c.lanes, regs := putU w.d st
            eff := if st = 0 then onMatrix c.blkId (fun m => { m with recs := mput m.recs reg r }) else Eff.nop })

/-- OBFREE. -/
def execObfree (w : UniW) : State → Host.Outcome State Fault Refusal :=
  issue (.obfree w) (fun c s =>
    let reg := c.ua w
    if 16 ≤ reg then recTrap c
    else
      match mfind c.mat.recs reg with
      | none => .done { act := c.lanes }
      | some r =>
        waitOps c s [] [(1024 * r.base, 1024 * r.len)] [] []
          (.done { act := c.lanes, eff := onMatrix c.blkId (fun m => { m with recs := mdel m.recs reg }) }))

/-! ## Rows (R182, R192) -/

/-- How a row's places are found. -/
inductive RowRes
  | ok (ps : List Piece) (us : List Upd)
  /-- A trap, with the pieces of the row before the fault. -/
  | trap (cause : Nat) (addr : DWord) (eff : Eff) (before : List Piece)
  | park (why : Why) (eff : Eff)

/-- A run of virtual bytes cut at the counter words it covers (R316). -/
def cutCounters : List Nat → Nat → Nat → List (Nat × Nat)
  | [], va, n => if n = 0 then [] else [(va, n)]
  | w :: ws, va, n =>
    if w < va || va + n ≤ w then cutCounters ws va n
    else (if w = va then [] else [(va, w - va)]) ++ (w, 8) :: cutCounters ws (w + 8) (va + n - (w + 8))

/-- Counter words of an address space, ascending. -/
def counterWords (s : State) (asid : Nat) : List Nat :=
  ((s.rounds.ents.filter (fun e => rtValid e.2 && rtAsid e.2 == asid)).map (fun e => rtCva e.2)).mergeSort

/-- The segments of a global run: cut at 64 KiB pages and at counter words. -/
def rowSegs (s : State) (asid va n : Nat) : List (Nat × Nat) :=
  let k := min n (65536 - va % 65536)
  let ws := counterWords s asid
  cutCounters ws va k ++ cutCounters ws (va + k) (n - k)

/-- The segments of a row, translated in ascending order. -/
def rowGo (c : Ctx) (a : Acc) : List (Nat × Nat) → List Piece → List Upd → State → RowRes
  | [], ps, us, _ => .ok ps us
  | (va, n) :: rest, ps, us, s =>
    match counterOf s c.asid va with
    | some r =>
      if a.writes then .trap 9 (BitVec.ofNat 64 va) Eff.nop ps
      else rowGo c a rest (ps ++ [{ place := .counter r (va % 8), len := n }]) us s
    | none =>
      match translate s (c.who false) a [{ lane := 255, ea := BitVec.ofNat 64 va, va := va }] with
      | .trap cause _ addr eff => .trap cause addr eff ps
      | .park why eff => .park why eff
      | .ok eff =>
        let u := eff s
        rowGo c a rest (ps ++ [{ place := placeAt s (c.who false) va, len := n }]) (us ++ u) (applyAll u s)

/-- The places of a row: the checks of R182 and R265, then translation. -/
def rowAt (c : Ctx) (a : Acc) (ea : DWord) (n : Nat) (s : State) : RowRes :=
  match genOf c.core ea with
  | .spad core off foreign =>
    if foreign then .trap 5 ea Eff.nop []
    else if !spadAllowed s c.launch core off n then .trap 9 ea Eff.nop []
    else
      match payloadCheck s (c.who false).queuer a.writes none [(core, off, n)] with
      | .park blk w eff => .park (.window blk w) eff
      | _ => .ok [{ place := .spad core off, len := n }] []
  | .global va => if 2 ^ 56 < va + n then .trap 6 ea Eff.nop [] else rowGo c a (rowSegs s c.asid va n) [] [] s
  | _ => .trap 6 ea Eff.nop []

/-- The rows of an instruction as far as they translate. -/
structure RowsRes where
  rows : List (List Piece)
  us   : List Upd
  /-- The row at which it stops, and how. -/
  stop : Option (Nat × RowRes)

/-- Rows in ascending order, each due when the one before is translated (R174). -/
def rowsGo (c : Ctx) (a : Acc) (n : Nat) (ea : Nat → DWord) : List Nat → List (List Piece) → List Upd → State → RowsRes
  | [], rows, us, _ => { rows := rows, us := us, stop := none }
  | r :: rs, rows, us, s =>
    match rowAt c a (ea r) n s with
    | .ok ps u => rowsGo c a n ea rs (rows ++ [ps]) (us ++ u) (applyAll u s)
    | x => { rows := rows, us := us, stop := some (r, x) }

/-- The address of row r (R182, R192). -/
def rowAddr (base stride r : Nat) : DWord := BitVec.ofNat 64 (base + r * stride)

/-- The accesses of some rows of n bytes, from row `first` on, counted towards migration (R288). -/
def countRows (c : Ctx) (a : Acc) (n : Nat) (ea : Nat → DWord) (rows first : Nat) : Eff := fun s =>
  let vas (r : Nat) : List Nat :=
    match genOf c.core (ea r) with
    | .global va => ((rowSegs s c.asid va n).map (·.1)).filter (fun x => (counterOf s c.asid x).isNone)
    | _ => []
  countForwards (c.who false) a ((List.range rows).flatMap (fun i => vas (first + i))) s

/-! ## Loads -/

/-- The bytes of a row as the stream's engine reads them. -/
def readRow (s : State) (core : Nat) (ps : List Piece) : List Byte :=
  ps.flatMap (fun p => (List.range p.len).map (placeByte s core false false p.place))

/-- Source row r lands in the buffer (R182): whole elements whose first source byte `keep` holds. -/
def landRow (dst ebits n r : Nat) (keep : Nat → Bool) (bs : List Byte) (m : Matrix) : Matrix :=
  let len := bs.length
  if ebits = 0 then
    bs.zipIdx.foldl (fun m e => if keep e.2 then putOb m (dst + r * len + e.2) [e.1] else m) m
  else if ebits = 4 then
    (List.range (2 * len)).foldl (fun m k =>
      if keep (k / 2) then
        let x := (bs.getD (k / 2) 0).toNat / 16 ^ (k % 2) % 16
        let a := dst + k * (n / 2) + r / 2
        let old := (obByte m a).toNat
        putOb m a [BitVec.ofNat 8 (if r % 2 = 0 then old / 16 * 16 + x else old % 16 + 16 * x)]
      else m) m
  else
    let eb := ebits / 8
    (List.range (len / eb)).foldl (fun m k =>
      if keep (k * eb) then putOb m (dst + k * (n * eb) + r * eb) ((bs.drop (k * eb)).take eb) else m) m

/-- Rows land, from row r on; a poisoned line is a machine check and stops them (R376). -/
def landRows (launch core blk frank dst ebits n : Nat) : Nat → List (List Piece) → Eff
  | _, [] => Eff.nop
  | r, ps :: rest => fun s =>
    let runs := physRuns s ps
    let us := mergeRuns core runs s
    let s1 := applyAll us s
    match poisoned s1 runs with
    | some line => us ++ poisonRead launch core line s1
    | none =>
      us ++ Eff.all
        [onMatrix blk (landRow dst ebits n r (fun _ => true) (readRow s1 core ps)),
         Eff.forEach runs (fun x => countRead frank x.1 x.2.1),
         Eff.forEach ps (fun p =>
           match p.place with
           | .counter reg _ => fun s => hear core reg (countOf s reg) s
           | _ => Eff.nop),
         landRows launch core blk frank dst ebits n (r + 1) rest] s1

/-- ROWPROG (R183). -/
def rowprogOf (reg row : Nat) : Word := BitVec.ofNat 32 (2 ^ 31 + reg * 2 ^ 16 + row % 256)

/-- A load in flight. -/
def isLoadOp (o : Op) : Bool :=
  match o.kind with
  | .load _ _ _ _ _ => true
  | _ => false

/-- mload and mloadx (R182, R184): `ebits` is 0 for mload. A fault lands the rows before it and sets ROWPROG. -/
def loadRes (c : Ctx) (s : State) (w : UniW) (ebits : Nat) : Res :=
  let reg := fs w 31 28
  let n := fs w 27 20 + 1
  let len := 32 * (fs w 19 13 + 1)
  let o := 32 * c.ub w
  let base := c.kreg 0 (kNum w.a)
  let stride := c.kreg 0 (kNum w.a + 1)
  match mfind c.mat.recs reg, streamOf c s with
  | some r, some t =>
    if 1024 * r.len < o + n * len || (ebits ≠ 0 && n * ebits % 256 ≠ 0) then recTrap c
    else if base % 16 ≠ 0 || stride % 16 ≠ 0 then .trap 11 (BitVec.ofNat 64 base) c.uniLane Eff.nop
    else
      let dst := 1024 * r.base + o
      let prog := c.mat.rowprog.toNat
      let going := t.ops.any isLoadOp && bit prog 31
      if going then .park (.retry .inflight) Eff.nop
      else
        waitOps c s [] [(dst, n * len)] [] []
          (let first := if bit prog 31 && bits prog 19 16 == reg then bits prog 7 0 else 0
           let rows := (List.range n).filter (fun r => decide (first ≤ r))
           let x := rowsGo c .mrow len (rowAddr base stride) rows [] [] s
           match x.stop with
           | some (_, .park why eff) => .park (.retry why) eff
           | some (r, .trap cause addr eff before) =>
             let s1 := applyAll x.us s
             let runs := physRuns s1 (x.rows.flatten ++ before)
             if (poisoned s1 (physRuns s1 x.rows.flatten)).isSome then
               .over (Eff.seq (fun _ => x.us) (landRows c.launch c.core c.blkId c.frank dst ebits n first x.rows))
             else
               match blockedBy s1 runs with
               | some uid => .park (.retry (.blocked uid)) (fun _ => x.us)
               | none =>
                 .trap cause addr c.uniLane (Eff.all
                   [fun _ => x.us, countRows c .mrow len (rowAddr base stride) x.rows.length first,
                    landRows c.launch c.core c.blkId c.frank dst ebits n first x.rows,
                    fun s => onMatrix c.blkId (landRow dst ebits n r
                      (fun i => decide (i < (readRow s c.core before).length) && Config.rowTail c.fresh i)
                      (readRow s c.core before ++ List.replicate (len - (readRow s c.core before).length) 0)) s,
                    onMatrix c.blkId (fun m => { m with rowprog := rowprogOf reg r }),
                    eff])
           | _ =>
             .done
               { act := c.lanes
                 eff := Eff.all [fun _ => x.us, countRows c .mrow len (rowAddr base stride) x.rows.length first,
                   forkOp c { id := 0, kind := .load dst len ebits n first, rows := x.rows, obR := []
                              obW := [(dst, n * len)], tR := [], tW := [] }] })
  | _, _ => recTrap c

/-- XF reservations do not load on Base (R182). -/
def xfOnBase (w : UniW) (c : Ctx) (s : State) : Bool :=
  profileOf s == 1 &&
  match mfind c.mat.recs (fs w 31 28) with
  | some r => r.xf
  | none => false

/-- MLOAD. -/
def execMload (w : UniW) : State → Host.Outcome State Fault Refusal :=
  issueP (.mload w) (xfOnBase w) (fun c s => loadRes c s w 0)

/-- Element bits of mloadx's ESZ. -/
def eszBits (n : Nat) : Nat := if n = 4 then 4 else 8 * 2 ^ n

/-- MLOADX. -/
def execMloadx (w : UniW) : State → Host.Outcome State Fault Refusal :=
  issueP (.mloadx w) (xfOnBase w) (fun c s => loadRes c s w (eszBits (fs w 12 10)))

/-! ## Steps (R83, R185 to R187) -/

/-- How a step's input type is stepped. -/
structure Step185 where
  k      : Nat
  row    : Nat
  chunk  : Nat
  event  : Nat
  pair   : Bool

/-- The table of R185; `cont` is the container width of xf. -/
def stepOf (ityp cont : Nat) : Step185 :=
  match ityp with
  | 0 => { k := 32, row := 64, chunk := 8, event := 3, pair := false }
  | 1 => { k := 32, row := 64, chunk := 8, event := 3, pair := false }
  | 2 => { k := 8, row := 32, chunk := 4, event := 4, pair := false }
  | 3 => { k := 64, row := 64, chunk := 16, event := 5, pair := false }
  | 4 => { k := 16, row := 32, chunk := 8, event := 5, pair := false }
  | 5 => if cont = 4 then { k := 128, row := 64, chunk := 32, event := 6, pair := false }
         else { k := 64, row := 64, chunk := 16, event := 6, pair := false }
  | _ => { k := 4, row := 32, chunk := 2, event := 7, pair := true }

/-- Input types summed in integers. -/
def ityInt (ityp : Nat) : Bool := ityp == 3 || ityp == 4

/-- A subnormal bf16 or f16 input is flushed to a zero of its sign (R81). -/
def flushSub (f : FFmt) (x : Nat) : FVal :=
  match decodeF f x with
  | .fin neg m e => if m < 2 ^ f.fw then .fin neg 0 0 else .fin neg m e
  | v => v

/-- A pattern of an input type as its value after R81. -/
def inputVal (ityp x : Nat) : FVal :=
  match ityp with
  | 0 => flushSub fmtB16 x
  | 1 => flushSub fmt16 x
  | 2 => decodeF fmt32 x
  | 6 => decodeF fmt64 x
  | _ => .nan

/-- An integer input. -/
def inputInt (ityp x : Nat) : Int := sextN x (if ityp = 3 then 8 else 16)

/-- Bytes of an input element that is no xf code. -/
def ityBytes (ityp : Nat) : Nat :=
  match ityp with
  | 2 => 4
  | 3 => 1
  | 6 => 8
  | _ => 2

/-- The pattern of element k of an operand row at byte o of a reservation. -/
def operandPat (m : Matrix) (r : ObRec) (ityp o k : Nat) : Nat :=
  obVal m (1024 * r.base + o + k * ityBytes ityp) (ityBytes ityp)

/-- An xf element with its block scale (R179); a scale past the reservation is not stated. -/
def operandXf (m : Matrix) (r : ObRec) (fresh o k : Nat) : FVal :=
  let f := xfmtOf r.fmt
  let code := if f.cont = 4 then (obByte m (1024 * r.base + o + k / 2)).toNat / 16 ^ (k % 2) % 16
    else (obByte m (1024 * r.base + o + k)).toNat
  let at_ := 256 * r.soff + 4 * ((o * 8 / f.cont + k) / f.blen)
  let sc := if at_ + 4 ≤ 1024 * r.len then obVal m (1024 * r.base + at_) 4
    else (Config.freeValue (2 * fresh + at_)).toNat % 2 ^ 32
  FVal.mul (xfValue code f) (scaleVal f.e8m0 sc)

/-- A sum of exact products. -/
def sumProducts : List FVal → FVal
  | [] => .fin false 0 0
  | p :: ps => ps.foldl FVal.add p

/-- R83: chunks of d products in ascending k, one rounding for each. -/
def chunkSum (f : FFmt) (d acc : Nat) (ps : List FVal) : Nat :=
  (List.range (ps.length / d)).foldl (fun acc t =>
    roundF f .rne (FVal.add (decodeF f acc) (sumProducts ((ps.drop (t * d)).take d)))) acc

/-- The K values of row i of an operand. -/
def rowVals (k : Nat) (f : Nat → FVal) : List FVal := (List.range k).map f

/-- A floating step of a tile: A by rows, B by columns. -/
def floatStep (m : Matrix) (t : Nat) (pair ovw : Bool) (d : Nat) (a b : List (List FVal)) : Matrix :=
  let f := if pair then fmt64 else fmt32
  mapTile m t pair (fun i j =>
    chunkSum f d (if ovw then 0 else tileAt m t pair i j) (List.zipWith FVal.mul (a.getD i []) (b.getD j [])))

/-- An integer step: it wraps modulo 2^32. -/
def intStep (m : Matrix) (t : Nat) (ovw : Bool) (a b : List (List Int)) : Matrix :=
  mapTile m t false (fun i j =>
    patOf ((if ovw then 0 else (tileAt m t false i j : Int)) +
      (List.zipWith (· * ·) (a.getD i []) (b.getD j [])).foldl (· + ·) 0) 32)

/-- The 16 rows of an operand. -/
def rows16 {α : Type} (k : Nat) (f : Nat → Nat → α) : List (List α) :=
  (List.range 16).map (fun i => (List.range k).map (f i))

/-- The step of mma. -/
def mmaStep (ityp oa ob : Nat) (ra rb : ObRec) (t : Nat) (ovw : Bool) (fresh : Nat) (m : Matrix) : Matrix :=
  let p := stepOf ityp (xfmtOf ra.fmt).cont
  if ityInt ityp then
    intStep m t ovw (rows16 p.k (fun i k => inputInt ityp (operandPat m ra ityp (oa + i * p.row) k)))
      (rows16 p.k (fun j k => inputInt ityp (operandPat m rb ityp (ob + j * p.row) k)))
  else
    let val (r : ObRec) (o k : Nat) : FVal :=
      if ityp = 5 then operandXf m r fresh o k else inputVal ityp (operandPat m r ityp o k)
    floatStep m t p.pair ovw p.chunk (rows16 p.k (fun i k => val ra (oa + i * p.row) k))
      (rows16 p.k (fun j k => val rb (ob + j * p.row) k))

/-- The tile a step names: its number, or lc mod 16. -/
def Ctx.tileNum (c : Ctx) (byLc : Bool) (lc n : Nat) : Nat := if byLc then c.el 2 (.lc lc) 0 0 % 16 else n

/-- The automatic increment (R135). -/
def autoInc (on : Bool) (lc : Nat) (r : Regs) : Regs := if on then { r with u := incLc r.u lc } else r

/-- The ranges a step reads of an operand: its rows, and the scales of an xf reservation. -/
def operandRange (r : ObRec) (o n : Nat) : List (Nat × Nat) :=
  (1024 * r.base + o, n) :: (if r.xf then [(1024 * r.base + 256 * r.soff, 1024 * r.len - 256 * r.soff)] else [])

/-- The reservations fit the input type (R187). -/
def recsOk (ityp : Nat) (ra rb : ObRec) : Bool :=
  let fa := xfmtOf ra.fmt
  let fb := xfmtOf rb.fmt
  if ityp = 5 then
    let k := (stepOf 5 fa.cont).k
    ra.xf && rb.xf && fa.cont == fb.cont && k % fa.blen == 0 && k % fb.blen == 0
  else !ra.xf && !rb.xf

/-- MMA. -/
def execMma (w : UniW) : State → Host.Outcome State Fault Refusal :=
  issueP (.mma w)
    (fun _ s => (fs w 15 12 == 5 && profileOf s == 1) || (fs w 15 12 == 6 && profileOf s != 3))
    (fun c s =>
      let ityp := fs w 15 12
      match mfind c.mat.recs (fs w 31 28), mfind c.mat.recs (fs w 27 24) with
      | some ra, some rb =>
        if !recsOk ityp ra rb then recTrap c
        else
          let byLc := fs w 19 19 == 1
          let lc := fs w 17 16
          let t := c.tileNum byLc lc (fs w 23 20)
          let p := stepOf ityp (xfmtOf ra.fmt).cont
          let oa := 32 * c.ua w
          let ob := 32 * c.ub w
          if p.pair && t % 2 == 1 then tileTrap c
          else if recLim ra < oa + 16 * p.row || recLim rb < ob + 16 * p.row then recTrap c
          else
            waitOps c s (operandRange ra oa (16 * p.row) ++ operandRange rb ob (16 * p.row)) []
              (tilesOf t p.pair) (tilesOf t p.pair)
              (.done
                { act := c.lanes
                  regs := autoInc (byLc && fs w 18 18 == 1) lc
                  eff := Eff.seq (onMatrix c.blkId (mmaStep ityp oa ob ra rb t (fs w 11 11 == 1) c.fresh))
                    (count c.frank p.event (256 * p.k)) })
      | _, _ => recTrap c)

/-! ## Accumulators (R190, R191, R193) -/

/-- The tile mzero names. -/
def zeroTile (c : Ctx) (f : UFld) : Nat :=
  match f with
  | .imm n => n.val % 16
  | .lc n => c.tileNum true n.val 0
  | _ => 0

/-- MZERO. -/
def execMzero (w : UniW) : State → Host.Outcome State Fault Refusal :=
  issue (.mzero w) (fun c s =>
    let t := zeroTile c w.a
    waitOps c s [] [] [] [t]
      (.done { act := c.lanes, eff := onMatrix c.blkId (fun m => mapTile m t false (fun _ _ => 0)) }))

/-- One element of macc: operation 0 add, 1 copy, 2 scale by x, 3 max; type 0 f32, 1 i32, 2 f64. -/
def maccVal (op ty d x : Nat) : Nat :=
  if op = 1 then x
  else if ty = 1 then
    match op with
    | 0 => (d + x) % 2 ^ 32
    | 2 => d * x % 2 ^ 32
    | _ => if sextN d 32 < sextN x 32 then x else d
  else
    let f := if ty = 2 then fmt64 else fmt32
    let a := decodeF f d
    let b := decodeF f x
    roundF f .rne
      (match op with
       | 0 => a.add b
       | 2 => a.mul b
       | _ => FVal.pick true a b)

/-- MACC. -/
def execMacc (w : UniW) : State → Host.Outcome State Fault Refusal :=
  issueP (.macc w) (fun _ s => fs w 21 20 == 2 && profileOf s != 3)
    (fun c s =>
      let dst := fs w 31 28
      let src := fs w 27 24
      let op := fs w 23 22
      let ty := fs w 21 20
      let pair := ty == 2
      if pair && (dst % 2 == 1 || src % 2 == 1) then tileTrap c
      else
        let sc := c.ua w % (if pair then 2 ^ 64 else 2 ^ 32)
        let tR := tilesOf dst pair ++ (if op = 2 then [] else tilesOf src pair)
        waitOps c s [] [] tR (tilesOf dst pair)
          (.done
            { act := c.lanes
              eff := onMatrix c.blkId (fun m => mapTile m dst pair (fun i j =>
                maccVal op ty (tileAt m dst pair i j) (if op = 2 then sc else tileAt m src pair i j))) }))

/-- The tile of each lane of mtov and mvtot: the first lane whose number is above 15 raises RECORD, an odd one at
f64 ALIGN (R193). -/
def laneTiles (c : Ctx) (w : LaneW) (k : (Nat → Nat) → Res) : Res :=
  let act := c.active w.g w.gn
  let t (l : Nat) : Nat := c.src 0 .n32 w.a l
  match (lanesOf act).find? (fun l => decide (15 < t l)) with
  | some l => .trap 7 (Config.freeValue c.fresh) l Eff.nop
  | none =>
    match (if w.ty == .f64 then (lanesOf act).find? (fun l => t l % 2 == 1) else none) with
    | some l => .trap 11 (Config.freeValue c.fresh) l Eff.nop
    | none => k t

/-- The row of a lane's element. -/
def laneRow (c : Ctx) (w : LaneW) (l : Nat) : Nat := (c.src 1 .n32 w.b l + l / 16) % 16

/-- MTOV. -/
def execMtov (w : LaneW) : State → Host.Outcome State Fault Refusal :=
  issue (.mtov w) (fun c _ => laneTiles c w (fun t =>
    let act := c.active w.g w.gn
    .done { act := act
            regs := putLanes w.ty w.d true act (fun l => tileAt c.mat (t l) (w.ty == .f64) (laneRow c w l) (l % 16)) }))

/-- MVTOT: of two lanes at one element the higher stands. -/
def execMvtot (w : LaneW) : State → Host.Outcome State Fault Refusal :=
  issue (.mvtot w) (fun c _ => laneTiles c w (fun t =>
    let act := c.active w.g w.gn
    .done { act := act
            eff := onMatrix c.blkId (fun m => (lanesOf act).foldl (fun m l =>
              putTile m (t l) (w.ty == .f64) (laneRow c w l) (l % 16) (c.src 2 w.ty (srcOf w.c.toNat) l)) m) }))

/-! ## Stores (R192) -/

/-- Bytes of an output element. -/
def otyBytes (oty : Nat) : Nat :=
  match oty with
  | 1 => 2
  | 2 => 2
  | 4 => 1
  | 5 => 2
  | 6 => 8
  | _ => 4

/-- A tile element as an output type writes it. -/
def otyVal (oty x : Nat) : Nat :=
  let sat (w : Nat) : Nat :=
    patOf (max (-(2 ^ (w - 1) : Int)) (min (2 ^ (w - 1) - 1 : Int) (sextN x 32))) w
  match oty with
  | 0 => roundF fmt32 .rne (decodeF fmt32 x)
  | 1 => roundF fmtB16 .rne (decodeF fmt32 x)
  | 2 => roundF fmt16 .rne (decodeF fmt32 x)
  | 4 => sat 8
  | 5 => sat 16
  | _ => x

/-- Row i of a tile as it is stored. -/
def storeRow (m : Matrix) (t oty i : Nat) : List Byte :=
  (List.range 16).flatMap (fun j => toBytes (otyBytes oty) (otyVal oty (tileAt m t (oty == 6) i j)))

/-- Rows of a tile written, from row i on. -/
def storeRows (k : Writer) (frank : Nat) (m : Matrix) (t oty : Nat) : Nat → List (List Piece) → Eff
  | _, [] => Eff.nop
  | i, ps :: rest => Eff.seq (engineWrite k frank ps (storeRow m t oty i)) (storeRows k frank m t oty (i + 1) rest)

/-- A completion register's count raised at issue (R136). -/
def kcAdd (cyc : Nat) (kc : Option Nat) (n : Nat) (r : Regs) : Regs :=
  match kc with
  | some k => { r with u := kcRaise cyc k n r.u }
  | none => r

/-- MST: all rows are translated, then their stores are forked; a fault at row i stores the rows before it and
withdraws the count (R192). -/
def execMst (w : UniW) : State → Host.Outcome State Fault Refusal :=
  issue (.mst w) (fun c s =>
    let byLc := fs w 27 27 == 1
    let lc := fs w 26 25
    let t := c.tileNum byLc lc (fs w 31 28)
    let oty := fs w 23 20
    let base := c.kreg 0 (kNum w.a)
    let stride := c.kreg 0 (kNum w.a + 1)
    let rb := 16 * otyBytes oty
    let kc := if fs w 19 19 = 1 then some (fs w 18 16) else none
    if oty = 6 && t % 2 = 1 then tileTrap c
    else if base % 16 ≠ 0 || stride % 16 ≠ 0 then .trap 11 (BitVec.ofNat 64 base) c.uniLane Eff.nop
    else
      waitOps c s [] [] (tilesOf t (oty == 6)) []
        (let x := rowsGo c .mst rb (rowAddr base stride) (List.range 16) [] [] s
         match x.stop with
         | some (_, .park why eff) => .park (.retry why) eff
         | some (_, .trap cause addr eff _) =>
           match goneRun s (x.rows.flatMap (physRuns s)) with
           | some line => .over (Eff.seq (fun _ => x.us) (poisonRead c.launch c.core line))
           | none =>
           let s1 := applyAll x.us s
           let k := Writer.rows c.key
           if !piecesReady s1 k x.rows.flatten then
             .park (.retry (.homes k (pieceLines s1 x.rows.flatten))) (Eff.seq (fun _ => x.us) (claimPieces k x.rows.flatten))
           else
           .trap cause addr c.uniLane
             (Eff.all [fun _ => x.us, countRows c .mst rb (rowAddr base stride) x.rows.length 0, storeRows k c.frank c.mat t oty 0 x.rows, eff])
         | _ =>
           .done
             { act := c.lanes
               regs := fun r => kcAdd c.cyc kc (16 * rb) (autoInc (byLc && fs w 24 24 == 1) lc r)
               eff := Eff.all [fun _ => x.us, countRows c .mst rb (rowAddr base stride) 16 0,
                 (forkOp c { id := 0, kind := .store t oty kc, rows := x.rows, obR := [], obW := []
                             tR := tilesOf t (oty == 6), tW := [] })] }))

/-! ## The sequencer (R197 to R199) -/

/-- MSEQ.GO. -/
def execMseqGo (w : UniW) : State → Host.Outcome State Fault Refusal :=
  issue (.mseqGo w) (fun c _ => .done { act := c.lanes, go := .loop (fs w 5 0 + 1) (c.ua w) })

/-- MSEQ.END: the stream stops issuing. -/
def execMseqEnd (w : UniW) : State → Host.Outcome State Fault Refusal :=
  issue (.mseqEnd w) (fun c _ => .done { act := c.lanes, eff := onStream c (fun t => { t with stopped := true }) })

/-- mrow: once every earlier load has completed or stopped (R183, R199). -/
def mrowRes (c : Ctx) (s : State) (w : UniW) (clr : Bool) : Res :=
  match streamOf c s with
  | none => .done { act := c.lanes }
  | some t =>
    if t.ops.any isLoadOp then .park (.retry .inflight) Eff.nop
    else
      .done { act := c.lanes, regs := putU w.d c.mat.rowprog.toNat
              eff := if clr then onMatrix c.blkId (fun m => { m with rowprog := 0 }) else Eff.nop }

/-- MROW. -/
def execMrow (w : UniW) : State → Host.Outcome State Fault Refusal :=
  issue (.mrow w) (fun c s => mrowRes c s w false)

/-- MROW.CLR. -/
def execMrowClr (w : UniW) : State → Host.Outcome State Fault Refusal :=
  issue (.mrowClr w) (fun c s => mrowRes c s w true)

end Sys2Proof.Machine
end

