-- ==== Sys2Proof/Machine/Sparse.lean ====
section
/-! DEFINITION. Sparse tiles: decomposition, structured steps, residuals (08: R200 to R213). -/

namespace Sys2Proof.Machine

/-! ## Decomposition (R200 to R203) -/

/-- An entry of a sparse tile: its row, its k, its place s among the entries of its group of four, its pattern. -/
structure SpEntry where
  i   : Nat
  k   : Nat
  s   : Nat
  pat : Nat
  deriving DecidableEq, Repr

/-- Bytes of a value: bf16 and f16 2, i8 1. -/
def spBytes (ityp : Nat) : Nat := if ityp = 3 then 1 else 2

/-- Bitmap bit (i,k) of a tile at byte src of the buffer. -/
def spBit (m : Matrix) (src i k : Nat) : Bool := bit (obByte m (src + 16 * i + k / 8)).toNat (k % 8)

/-- The positions of a tile's entries, row-major. -/
def spPositions (m : Matrix) (src kt : Nat) : List (Nat × Nat) :=
  (List.range 16).flatMap (fun i => ((List.range kt).filter (spBit m src i)).map (fun k => (i, k)))

/-- The entries of a tile. -/
def spEntries (m : Matrix) (src kt ityp : Nat) : List SpEntry :=
  (spPositions m src kt).zipIdx.map (fun e =>
    let i := e.1.1
    let k := e.1.2
    let s := ((List.range (k % 4)).filter (fun d => spBit m src i (k / 4 * 4 + d))).length
    { i := i, k := k, s := s, pat := obVal m (src + 256 + spBytes ityp * e.2) (spBytes ityp) })

/-- A stored value, before R81. -/
def spVal (ityp pat : Nat) : FVal :=
  match ityp with
  | 0 => decodeF fmtB16 pat
  | 1 => decodeF fmt16 pat
  | _ => FVal.ofInt (sextN pat 8)

/-- The exact sum of magnitudes. -/
def spMass (ityp : Nat) (es : List SpEntry) : FVal :=
  es.foldl (fun a e => a.add (spVal ityp e.pat).abs) (.fin false 0 0)

/-- What R201 decides of a tile. -/
structure Decomp where
  terms  : List SpEntry
  res    : List SpEntry
  all    : List SpEntry
  tm     : Nat
  rmass  : FVal
  naninf : Bool
  drop   : Bool
  dense  : Bool

/-- The decomposition of a tile's entries under a term limit and a loss bound. -/
def decompose (es : List SpEntry) (ityp t l : Nat) : Decomp :=
  let terms := es.filter (fun e => decide (e.s / 2 < t))
  let res := es.filter (fun e => decide (t ≤ e.s / 2))
  let special (e : SpEntry) : Bool :=
    match spVal ityp e.pat with
    | .fin _ _ _ => false
    | _ => true
  let naninf := es.any special
  let rmass := spMass ityp res
  let bound := (FVal.ofInt l).mul (spMass ityp es)
  let drop := !res.isEmpty && !naninf && !bound.lt (rmass.scale 16)
  { terms := terms, res := res, all := es, tm := terms.foldl (fun m e => max m (e.s / 2 + 1)) 0
    rmass := rmass, naninf := naninf, drop := drop, dense := !drop && decide (64 < res.length) }

/-- DMASS. -/
def dmassOf (d : Decomp) : Nat := if d.drop then roundF fmt32 .rne d.rmass else 0

/-- SSTAT (R203). -/
def sstatOf (d : Decomp) (ityp kt : Nat) : DWord :=
  BitVec.ofNat 64 (dmassOf d * 2 ^ 32 + d.res.length * 2 ^ 21 + ityp * 2 ^ 16 + d.dense.toNat * 2 ^ 15 +
    d.drop.toNat * 2 ^ 14 + d.naninf.toNat * 2 ^ 13 + 2 ^ 12 + (kt / 32 - 1) * 2 ^ 10 + d.tm * 2 ^ 8)

/-- Term size and the decomposed tile's size (R202). -/
def termSize (kt e : Nat) : Nat := 8 * kt * e + 2 * kt
def decSize (kt e : Nat) : Nat := 64 + 2 * termSize kt e + 256

/-- The residual word of an entry (R202). -/
def resWord (ityp : Nat) (e : SpEntry) : Nat :=
  e.i * 2 ^ 28 + e.k * 2 ^ 21 + (if ityp = 3 then patOf (sextN e.pat 8) 16 else e.pat)

/-- An entry put into its term: its value and its position. -/
def putTerm (dst kt e : Nat) (m : Matrix) (x : SpEntry) : Matrix :=
  let base := dst + 64 + x.s / 2 * termSize kt e
  let m := putOb m (base + x.i * kt * e / 2 + e * (2 * (x.k / 4) + x.s % 2)) (toBytes e x.pat)
  let b := 4 * (x.k / 4) + 2 * (x.s % 2)
  let a := base + 8 * kt * e + x.i * kt / 8 + b / 8
  putOb m a [obByte m a ||| BitVec.ofNat 8 (x.k % 4 * 2 ^ (b % 8))]

/-- The decomposed tile written at byte dst of the buffer (R202). -/
def writeDecomp (dst kt ityp : Nat) (d : Decomp) (m : Matrix) : Matrix :=
  let e := spBytes ityp
  let m := putOb m dst (List.replicate (decSize kt e) 0)
  let m := putOb m dst (toBytes 4 ((sstatOf d ityp kt).toNat % 2 ^ 32))
  let m := putOb m (dst + 4) (toBytes 4 (dmassOf d))
  if d.dense then
    d.all.foldl (fun m x => putOb m (dst + 64 + (x.i * kt + x.k) * e) (toBytes e x.pat)) m
  else
    let m := d.terms.foldl (putTerm dst kt e) m
    (d.res.take 64).zipIdx.foldl (fun m x =>
      putOb m (dst + 64 + 2 * termSize kt e + 4 * x.2) (toBytes 4 (resWord ityp x.1))) m

/-- floor(DMASS * 2^24), at most 2^64 - 1 (R411). -/
def droppedMass (dmass : Nat) : Nat :=
  match decodeF fmt32 dmass with
  | .fin _ m e =>
    let x : Int := e + 24
    min (2 ^ 64 - 1) (if 0 ≤ x then m * 2 ^ x.toNat else m / 2 ^ (-x).toNat)
  | _ => 2 ^ 64 - 1

/-! ## sdec (R205, R206) -/

/-- The codes of R206 that the bitmap decides: 3 to 6. -/
def sdecCode (m : Matrix) (rs rd : ObRec) (so do_ kt ityp : Nat) : Option Nat :=
  let e := spBytes ityp
  let src := 1024 * rs.base + so
  let dst := 1024 * rd.base + do_
  let n := (spPositions m src kt).length
  if (List.range 16).any (fun i => (List.range 128).any (fun k => decide (kt ≤ k) && spBit m src i k)) then some 3
  else if recLim rs < so + 256 + e * n then some 4
  else if recLim rd < do_ + decSize kt e then some 5
  else if rangesMeet [(src, 256 + e * n)] [(dst, decSize kt e)] then some 6
  else none

/-- RECORD of sdec with its code. -/
def sdecTrap (c : Ctx) (code : Nat) : Res := .trap 7 (BitVec.ofNat 64 code) c.uniLane Eff.nop

/-- SDEC: the checks, then the decomposition in flight, with the loss bound of its issue. -/
def execSdec (w : UniW) : State → Host.Outcome State Fault Refusal :=
  issue (.sdec w) (fun c s =>
    let kt := 32 * (fs w 23 22 + 1)
    let t := fs w 21 20 + 1
    let ityp := fs w 19 16
    let so := 32 * c.ua w
    let do_ := 32 * c.ub w
    match mfind c.mat.recs (fs w 31 28), mfind c.mat.recs (fs w 27 24) with
    | some rs, some rd =>
      let src := 1024 * rs.base + so
      let dst := 1024 * rd.base + do_
      let l := bits c.mat.sbound.toNat 16 0
      if rs.xf || rd.xf then sdecTrap c 1
      else if recLim rs < so + 256 then sdecTrap c 2
      else
        waitOps c s [(src, 256)] [] [] []
          (match sdecCode c.mat rs rd so do_ kt ityp with
           | some code => sdecTrap c code
           | none =>
             let e := spBytes ityp
             let obR := [(src, 256 + e * (spPositions c.mat src kt).length)]
             let obW := [(dst, decSize kt e)]
             waitOps c s obR obW [] []
               (.done { act := c.lanes
                        eff := forkOp c { id := 0, kind := .sdec src dst kt t ityp l, rows := [], obR := obR
                                          obW := obW, tR := [], tW := [] } }))
    | _, _ => sdecTrap c 1)

/-- An sdec completes: its tile, SSTAT, the counters of its launch (R206). -/
def sdecEnd (p frank src dst kt t ityp l : Nat) : Eff := fun s =>
  match mfind s.streams p with
  | none => []
  | some x =>
    match (mfind s.blocks x.blk).bind (·.mat) with
    | none => []
    | some m =>
      let d := decompose (spEntries m src kt ityp) ityp t l
      Eff.all
        [onMatrix x.blk (fun m => { writeDecomp dst kt ityp d m with sstat := sstatOf d ityp kt }),
         count frank 8 d.tm,
         count frank 9 (droppedMass (dmassOf d))] s

/-! ## sbound, sstat (R207, R212) -/

/-- SBOUND. -/
def execSbound (w : UniW) : State → Host.Outcome State Fault Refusal :=
  issue (.sbound w) (fun c _ =>
    let v := c.ubI w
    if 65536 < v then .trap 7 (BitVec.ofNat 64 v) c.uniLane Eff.nop
    else .done { act := c.lanes, eff := onMatrix c.blkId (fun m => { m with sbound := BitVec.ofNat 32 v }) })

/-- A decomposition in flight. -/
def isSdecOp (o : Op) : Bool :=
  match o.kind with
  | .sdec _ _ _ _ _ _ => true
  | _ => false

/-- sstat: once every earlier sdec has completed (R213). -/
def sstatRes (c : Ctx) (s : State) (w : UniW) (clr : Bool) : Res :=
  match streamOf c s with
  | none => .done { act := c.lanes }
  | some t =>
    if t.ops.any isSdecOp then .park (.retry .inflight) Eff.nop
    else
      .done { act := c.lanes, regs := putU w.d c.mat.sstat.toNat
              eff := if clr then onMatrix c.blkId (fun m => { m with sstat := 0 }) else Eff.nop }

/-- SSTAT. -/
def execSstat (w : UniW) : State → Host.Outcome State Fault Refusal :=
  issue (.sstat w) (fun c s => sstatRes c s w false)

/-- SSTAT.CLR. -/
def execSstatClr (w : UniW) : State → Host.Outcome State Fault Refusal :=
  issue (.sstatClr w) (fun c s => sstatRes c s w true)

/-! ## mmat and mres (R208 to R211) -/

/-- The header of a decomposed tile. -/
structure SpHdr where
  valid : Bool
  ityp  : Nat
  kt    : Nat
  tm    : Nat
  rcnt  : Nat
  drop  : Bool
  dense : Bool

/-- The header at a byte of the buffer. -/
def hdrAt (m : Matrix) (a : Nat) : SpHdr :=
  let v := obVal m a 4
  { valid := bit v 12, ityp := bits v 19 16, kt := 32 * (bits v 11 10 + 1), tm := bits v 9 8, rcnt := bits v 31 21
    drop := bit v 14, dense := bit v 15 }

/-- A header that mmat, or mres, accepts. -/
def hdrOk (h : SpHdr) (resOnly : Bool) : Bool :=
  h.valid && (h.ityp == 0 || h.ityp == 1 || (h.ityp == 3 && (h.kt == 64 || h.kt == 128))) && h.tm != 3 &&
  !(!h.drop && !h.dense && decide (64 < h.rcnt)) && (!resOnly || (!h.dense && decide (h.rcnt ≤ 64)))

/-- A' as patterns by i * KT + k; a later item replaces an earlier one (R209, R210). Of an i8 residual entry the low 8 bits are the
value: sdec makes the bits above them its sign, and for a buffer altered since R209 does not say (log entry 56). -/
def spOperand (m : Matrix) (a : Nat) (h : SpHdr) (resOnly : Bool) : Map Nat :=
  let e := spBytes h.ityp
  if h.dense then
    (List.range (16 * h.kt)).foldl (fun x n => mset 0 x n (obVal m (a + 64 + n * e) e)) []
  else
    let slots : List (Nat × Nat) := if resOnly then [] else
      (List.range h.tm).flatMap (fun t => (List.range (16 * (h.kt / 2))).map (fun n => (t, n)))
    let terms := slots.foldl (fun (x : Map Nat) (y : Nat × Nat) =>
      let base := a + 64 + y.1 * termSize h.kt e
      let v := obVal m (base + y.2 * e) e
      let i := y.2 / (h.kt / 2)
      let g := y.2 % (h.kt / 2) / 2
      let b := 4 * g + 2 * (y.2 % 2)
      let pos := (obByte m (base + 8 * h.kt * e + i * h.kt / 8 + b / 8)).toNat / 2 ^ (b % 8) % 4
      if v = 0 then x else mset 0 x (i * h.kt + 4 * g + pos) v) []
    if h.drop && !resOnly then terms
    else
      (List.range h.rcnt).foldl (fun x n =>
        let v := obVal m (a + 64 + 2 * termSize h.kt e + 4 * n) 4
        let k := bits v 27 21
        if k < h.kt then mset 0 x (bits v 31 28 * h.kt + k) (v % 2 ^ (8 * e)) else x) terms

/-- The step of mmat and mres. -/
def spStep (a ob : Nat) (rb : ObRec) (h : SpHdr) (resOnly : Bool) (t : Nat) (ovw : Bool) (m : Matrix) : Matrix :=
  let p := stepOf h.ityp 8
  let x := spOperand m a h resOnly
  let pa (i k : Nat) : Nat := mget 0 x (i * h.kt + k)
  let pb (j k : Nat) : Nat := operandPat m rb h.ityp (ob + k / p.k * (16 * p.row) + j * p.row) (k % p.k)
  if ityInt h.ityp then
    intStep m t ovw (rows16 h.kt (fun i k => inputInt h.ityp (pa i k))) (rows16 h.kt (fun j k => inputInt h.ityp (pb j k)))
  else
    floatStep m t false ovw p.chunk (rows16 h.kt (fun i k => inputVal h.ityp (pa i k)))
      (rows16 h.kt (fun j k => inputVal h.ityp (pb j k)))

/-- The MACs counted (R211). -/
def spMacs (h : SpHdr) (resOnly : Bool) : Nat :=
  if resOnly then 16 * h.rcnt
  else if h.dense then 256 * h.kt
  else 128 * h.tm * h.kt + (if h.drop then 0 else 16 * h.rcnt)

/-- mmat and mres. -/
def sparseRes (c : Ctx) (s : State) (w : UniW) (resOnly : Bool) : Res :=
  match mfind c.mat.recs (fs w 31 28), mfind c.mat.recs (fs w 27 24) with
  | some rd, some rb =>
    let o := 32 * c.ua w
    let ob := 32 * c.ub w
    let a := 1024 * rd.base + o
    if rd.xf || rb.xf || recLim rd < o + 4 then recTrap c
    else
      waitOps c s [(a, 4)] [] [] []
        (let h := hdrAt c.mat a
         let p := stepOf h.ityp 8
         let nb := 16 * p.row * (h.kt / p.k)
         if !hdrOk h resOnly then recTrap c
         else if recLim rd < o + decSize h.kt (spBytes h.ityp) || recLim rb < ob + nb then recTrap c
         else
           let byLc := fs w 19 19 == 1
           let lc := fs w 17 16
           let t := c.tileNum byLc lc (fs w 23 20)
           waitOps c s [(a, decSize h.kt (spBytes h.ityp)), (1024 * rb.base + ob, nb)] [] [t] [t]
             (.done
               { act := c.lanes
                 regs := autoInc (byLc && fs w 18 18 == 1) lc
                 eff := Eff.seq (onMatrix c.blkId (spStep a ob rb h resOnly t (fs w 15 15 == 1)))
                   (count c.frank p.event (spMacs h resOnly)) }))
  | _, _ => recTrap c

/-- MMAT. -/
def execMmat (w : UniW) : State → Host.Outcome State Fault Refusal :=
  issue (.mmat w) (fun c s => sparseRes c s w false)

/-- MRES. -/
def execMres (w : UniW) : State → Host.Outcome State Fault Refusal :=
  issue (.mres w) (fun c s => sparseRes c s w true)

end Sys2Proof.Machine
end

