-- ==== Sys2Proof/Machine/WinOps.lean ====
section
/-! DEFINITION. Window instructions and stage rings (09: R218 to R246). -/

namespace Sys2Proof.Machine

/-! ## RECORD of the window forms (R223, R224, R233) -/

/-- A WSTAT value. -/
def wstatOf (code op win : Nat) : Word := BitVec.ofNat 32 (2 ^ 31 + code * 2 ^ 16 + op * 2 ^ 8 + win % 64)

/-- RECORD with a code: WSTAT is set, TRAPADDR holds it. -/
def winTrap (c : Ctx) (code win : Nat) : Res :=
  let v := wstatOf code (opOf c.i) win
  .trap 7 (v.setWidth 64) c.uniLane (onU c (fun u => { u with wstat := v }))

/-- The window that field B names (code 1). -/
def withWinNum (c : Ctx) (w : UniW) (k : Nat → Win → Res) : Res :=
  let n := c.ub w
  if c.blk.winN ≤ n then winTrap c 1 n else k n (getWin c.blk n)

/-- A bound window (code 15). -/
def withBound (c : Ctx) (w : UniW) (k : Nat → Win → Res) : Res :=
  withWinNum c w (fun n x => if x.state == .unbound then winTrap c 15 n else k n x)

/-- A window changed. -/
def onWin (blk w : Nat) (f : Win → Win) : Eff := fun s =>
  match mfind s.blocks blk with
  | some b => [.block blk (withWin b w (f (getWin b w)))]
  | none => []

/-- The wait for a window's running copy to be final (R225). -/
def waitFinal (c : Ctx) (n : Nat) : Res := .park (.retry (.window c.blkId n)) Eff.nop

/-! ## lrec (R234, R235) -/

/-- LREC. -/
def execLrec (w : UniW) : State → Host.Outcome State Fault Refusal :=
  issue (.lrec w) (fun c _ => withWinNum c w (fun n _ =>
    .done { act := c.lanes
            eff := onWin c.blkId n (fun x => { x with
              stage := (List.range (fs w 3 0 + 1)).foldl (fun m i =>
                mset 0 m (fs w 7 4 + i) (BitVec.ofNat 64 (c.kreg 0 (kNum w.a + i)))) x.stage }) }))

/-- LREC.TAP. -/
def execLrecTap (w : UniW) : State → Host.Outcome State Fault Refusal :=
  issue (.lrecTap w) (fun c _ => withBound c w (fun n x =>
    if !layImg x.layout then winTrap c 12 n
    else .done { act := c.lanes, eff := onWin c.blkId n (fun x => { x with tap := BitVec.ofNat 32 (fs w 31 0) }) }))

/-! ## wbind (R223, R236) -/

/-- The dimensions below a rank. -/
def dims (lo hi : Nat) : List Nat := (List.range hi).filter (fun d => decide (lo ≤ d))

/-- Twice the bytes of an element, 1 for a 4-bit container. -/
def layHalf (l : Map DWord) : Nat := layEbits l / 4

/-- The payload exceeds a size (R222), counted exactly. -/
def payloadOver (l : Map DWord) (fmt : DWord) (room : Nat) : Bool :=
  if !layXf l then decide (8 * room < layCount l * layEbits l)
  else if layDec l then decide (room < 2 * layCount l)
  else
    let bl := (xfmtOf fmt).blen
    decide (room * bl < layScaleOff l * bl + 4 * layCount l)

/-- Codes 5 to 14 of a staging record, in the order of R223. -/
def stageCode (l : Map DWord) (fmt : DWord) (winN size : Nat) : Option Nat :=
  let esz := layEsz l
  let rank := layRank l
  let unit := if 4 ≤ esz then 1 else 2 ^ esz
  let use := if layImg l then 2 else rank
  let f := xfmtOf fmt
  let tests : List (Nat × Bool) :=
    [(5, fld (ldw l 0) 63 56 != 0 || (ldw l 0).toNat % unit != 0 ||
        (dims 1 rank).any (fun d => decide (d < 5) && layStride l d % unit != 0)),
     (6, decide (4 < esz)),
     (7, rank == 0 || decide (5 < rank) || (layImg l && rank != 4)),
     (8, (dims 0 rank).any (fun d => layExt l d == 0) || (dims rank 5).any (fun d => layExt l d != 0)),
     (9, decide (2 ≤ rank) && (decide (2 * layStride l 1 < layExt l 0 * layHalf l) ||
        (dims 2 rank).any (fun d => decide (layStride l d < layExt l (d - 1) * layStride l (d - 1))))),
     (10, (dims 0 use).any (fun d => layBox l d == 0) || (dims use 5).any (fun d => layBox l d != 0) ||
        payloadOver l fmt (size - 8)),
     (11, (layDec l && !layXf l) || (layXf l && esz != (if f.cont = 8 then 0 else 4)) || (esz == 4 && !layXf l) ||
        (layXf l && (layBox l 0 % f.blen != 0 || (ldw l 11).toNat % 4 != 0))),
     (12, if layImg l then fld (ldw l 12) 15 0 == 0 || fld (ldw l 12) 31 16 == 0 || fld (ldw l 12) 39 32 == 0 ||
          fld (ldw l 12) 47 40 == 0
        else ldw l 12 != 0),
     (13, fld (ldw l 1) 63 32 != 0 || fld (ldw l 1) 24 22 != 0 || fld (ldw l 1) 15 11 != 0 || fld (ldw l 1) 7 3 != 0 ||
        fld (ldw l 4) 63 32 != 0 || fld (ldw l 10) 63 16 != 0 || fld (ldw l 12) 63 48 != 0 || ldw l 13 != 0 ||
        ldw l 14 != 0 || ldw l 15 != 0),
     (14, match layNext l with
        | some n => decide (winN ≤ n)
        | none => false)]
  (tests.find? (·.2)).map (·.1)

/-- The first code of wbind's operand and the other windows. -/
def bindCode (b : Block) (n : Nat) (x : Win) (v : DWord) : Option Nat :=
  let off := fld v 19 0
  let size := fld v 51 32
  if size % 4096 != 0 || size = 0 || 262144 < size || off % 4096 != 0 || fld v 31 20 != 0 || fld v 63 52 != 0 ||
      decide (b.spSize < off + size) then some 2
  else if b.wins.any (fun e => e.1 != n && e.2.state != .unbound && decide (e.2.off < off + size) &&
      decide (off < e.2.off + e.2.size)) then some 3
  else if x.state != .unbound then some 4
  else none

/-- A private SBASE in a record that uses it: WINDOW (R252), once the record passes the checks of R223. A private BASE, of which
R252 says the same, has bits 63:56 not 0 and meets code 5 of R223 before (log entry 57). -/
def stagePriv (core : Nat) (l : Map DWord) : Option DWord :=
  match layXf l, genOf core (ldw l 11) with
  | true, .priv _ => some (ldw l 11)
  | _, _ => none

/-- WBIND. -/
def execWbind (w : UniW) : State → Host.Outcome State Fault Refusal :=
  issue (.wbind w) (fun c _ => withWinNum c w (fun n x =>
    let v := BitVec.ofNat 64 (c.ua w)
    let fmt := getKf c.u.regs.u (layKf x.stage)
    match bindCode c.blk n x v with
    | some code => winTrap c code n
    | none =>
    match stageCode x.stage fmt c.blk.winN (fld v 51 32), stagePriv c.core x.stage with
    | some code, _ => winTrap c code n
    | none, some a => .trap 6 a c.uniLane Eff.nop
    | none, none =>
      .done { act := c.lanes
              eff := onWin c.blkId n (fun x => { x with
                state := .present, off := fld v 19 0, size := fld v 51 32, layout := x.stage, fmt := fmt }) }))

/-! ## wunbind, wabs, wtouch, wpost (R225, R237 to R240) -/

/-- A window leaves every armed set of its block. -/
def disarmWin (blk n : Nat) : Eff := fun s =>
  (groupsOfBlk s blk).map (fun e => .group e.1 { e.2 with armed := mdel e.2.armed n })

/-- WUNBIND. -/
def execWunbind (w : UniW) : State → Host.Outcome State Fault Refusal :=
  issue (.wunbind w) (fun c _ => withWinNum c w (fun n x =>
    let fin (e : Eff) : Res :=
      .done { act := c.lanes
              eff := Eff.all [e, onWin c.blkId n (fun x => { x with state := .unbound }), disarmWin c.blkId n] }
    match x.state with
    | .unbound => .done { act := c.lanes }
    | .copyout => waitFinal c n
    | .copyin => fin (cancelCopy c.blkId n)
    | .runahead => fin (cancelRunahead c.blkId n)
    | _ => fin Eff.nop))

/-- The postmark of a window in a block as it stands. -/
def markWin (blk n : Nat) (v : DWord) : Eff := fun s =>
  match mfind s.blocks blk with
  | some b => writePostmark b (getWin b n) v s
  | none => []

/-- WABS: the fork of the next copy (R230). -/
def execWabs (w : UniW) : State → Host.Outcome State Fault Refusal :=
  issue (.wabs w) (fun c s => withBound c w (fun n x =>
    match x.state with
    | .copyin => waitFinal c n
    | .copyout => waitFinal c n
    | st =>
      let k (i : Nat) : Nat := c.kreg 0 (kNum w.a + i)
      let org := [k 0 % 2 ^ 32, k 0 / 2 ^ 32, k 1 % 2 ^ 32, k 1 / 2 ^ 32, k 2 % 2 ^ 32]
      let seq := (x.seq + 1) % 65536
      if layXf x.layout && org.headD 0 % (xfmtOf x.fmt).blen != 0 then winTrap c 17 n
      else
        .done { act := c.lanes
                eff := Eff.all
                  [if st == .runahead then cancelRunahead c.blkId n else Eff.nop,
                   onWin c.blkId n (fun x => { x with
                     state := .absent, org := org, ctap := x.tap, seq := seq, uid := c.uid, after := s.nextId }),
                   fun s => [.nextId (s.nextId + 1)],
                   markWin c.blkId n (postmark seq 0 0 0 0 0 0)] }))

/-- The issuing group as it queues copies (R227). -/
def Ctx.queuer (c : Ctx) : Queuer := { part := c.part, slot := c.slot }

/-- WTOUCH. -/
def execWtouch (w : UniW) : State → Host.Outcome State Fault Refusal :=
  issue (.wtouch w) (fun c s => withBound c w (fun n _ =>
    let s1 := applyAll (touch c.queuer c.blkId n s) s
    let v := match mfind s1.blocks c.blkId with
      | some b => if (getWin b n).state == .copyin then (getWin b n).prom else 0
      | none => 0
    .done { act := c.lanes, regs := putU w.d v, eff := touch c.queuer c.blkId n }))

/-- WPOST. -/
def execWpost (w : UniW) : State → Host.Outcome State Fault Refusal :=
  issue (.wpost w) (fun c s => withBound c w (fun n x =>
    if layImg x.layout || layDec x.layout then winTrap c 16 n
    else
      match x.state with
      | .absent => winTrap c 18 n
      | .runahead => winTrap c 18 n
      | .copyin => waitFinal c n
      | .copyout => waitFinal c n
      | _ =>
        let seq := (x.seq + 1) % 65536
        let job : CopyJob :=
          { blk := c.blkId, win := n, out := true, ra := false, uid := c.uid, after := s.nextId, cyc := s.clk.cyc
            part := c.part, slot := c.slot }
        .done { act := c.lanes
                eff := Eff.all
                  [onWin c.blkId n (fun x => { x with state := .copyout, seq := seq, uid := c.uid, after := s.nextId }),
                   fun s => [.nextId (s.nextId + 1)],
                   markWin c.blkId n (postmark seq 0 0 0 0 0 0),
                   queueCopy c.core job] }))

/-! ## wstat (R242) -/

/-- A window's state word. -/
def winWord (x : Win) : Nat :=
  if x.state == .unbound then x.seq * 2 ^ 48
  else
    x.seq * 2 ^ 48 + winCode x.state * 2 ^ 40 + (layDec x.layout).toNat * 2 ^ 37 + (layXf x.layout).toNat * 2 ^ 36 +
      (layImg x.layout).toNat * 2 ^ 35 + (x.size / 4096 - 1) * 2 ^ 20 + x.off

/-- WSTAT of a window. -/
def execWstat (w : UniW) : State → Host.Outcome State Fault Refusal :=
  issue (.wstat w) (fun c _ => withWinNum c w (fun _ x => .done { act := c.lanes, regs := putU w.d (winWord x) }))

/-- WSTAT, the register. -/
def execWstatRead (w : UniW) : State → Host.Outcome State Fault Refusal :=
  issue (.wstatRead w) (fun c _ => .done { act := c.lanes, regs := putU w.d c.u.wstat.toNat })

/-- WSTAT.CLR. -/
def execWstatClr (w : UniW) : State → Host.Outcome State Fault Refusal :=
  issue (.wstatClr w) (fun c _ =>
    .done { act := c.lanes, regs := putU w.d c.u.wstat.toNat, eff := onU c (fun u => { u with wstat := 0 }) })

/-! ## pmarm and pmwait (R241) -/

/-- PMARM. -/
def execPmarm (w : UniW) : State → Host.Outcome State Fault Refusal :=
  issue (.pmarm w) (fun c _ => withBound c w (fun n x =>
    .done { act := c.lanes, eff := onGroup c (fun g => { g with armed := mput g.armed n x.seq }) }))

/-- The lowest armed window whose postmark is final or carries another SEQ, with that postmark. -/
def pmReady (s : State) (g : Group) : Option (Nat × DWord) :=
  match mfind s.blocks g.blk with
  | none => none
  | some b =>
    g.armed.findSome? (fun e =>
      let v := readPostmark s b (getWin b e.1)
      if fld v 47 40 != 0 || fld v 63 48 != e.2 then some (e.1, v) else none)

/-- PMWAIT. -/
def execPmwait (w : UniW) : State → Host.Outcome State Fault Refusal :=
  issue (.pmwait w) (fun c s =>
    match groupOf c s with
    | none => .done { act := c.lanes }
    | some g =>
      if g.armed.isEmpty then .done { act := c.lanes, regs := putU w.d 0 }
      else
        match pmReady s g with
        | some (n, v) =>
          .done { act := c.lanes, regs := putU w.d v.toNat, eff := onGroup c (fun g => { g with armed := mdel g.armed n }) }
        | none => .park (.pmwait (kNum w.d)) Eff.nop)

/-! ## Rings (R243 to R246) -/

/-- A 32-bit difference of counts. -/
def countDiff (a b : Nat) : Nat := (a + 2 ^ 32 - b) % 2 ^ 32

/-- A slot is free to be taken; a publish is there to be acquired. -/
def ringRoom (r : Ring) : Bool := decide (countDiff r.pr r.f < r.ns)
def ringFull (r : Ring) : Bool := countDiff r.p r.a != 0

/-- A ring of a block. -/
def ringAt (s : State) (blk n : Nat) : Option Ring := (mfind s.blocks blk).bind (fun b => mfind b.rings n)

/-- A ring changed. -/
def setRing (blk n : Nat) (r : Ring) : Eff := fun s =>
  match mfind s.blocks blk with
  | some b => [.block blk { b with rings := mput b.rings n r }]
  | none => []

/-- The header of a slot. -/
def ringHeader (s : State) (b : Block) (r : Ring) (slot : Nat) : DWord :=
  BitVec.ofNat 64 (ofBytes (readBytes s.spad (blkByte b (r.base + 8 * slot)) 8))

/-- A header written, one indivisible store. -/
def putHeader (blk : Nat) (r : Ring) (slot : Nat) (f : DWord → DWord) : Eff := fun s =>
  match mfind s.blocks blk with
  | some b =>
    [.spad (cellsAt (blkByte b (r.base + 8 * slot)) (toBytes 8 (f (ringHeader s b r slot)).toNat))]
  | none => []

/-- The header's kept bits. -/
def headerOf (tag : Nat) (full free : Bool) : DWord :=
  BitVec.ofNat 64 (tag % 2 ^ 32 * 2 ^ 32 + free.toNat * 2 + full.toNat)

/-- A pending release of a ring. -/
def pendRing (p : Pend) : Option Nat :=
  match p.kind with
  | .put r _ _ => some r
  | .putFree r => some r
  | _ => none

/-- Frees of a ring that its block's parties have issued and not recorded. -/
def pendingFrees (s : State) (blk n : Nat) : Nat :=
  let cnt (u : UCtx) : Nat := (u.pend.filter (fun p => p.kind == .putFree n)).length
  ((groupsOfBlk s blk).map (fun e => cnt e.2.u)).foldl (· + ·) 0 +
  (match streamOfBlk s blk with
   | some (_, t) => cnt t.u
   | none => 0)

/-- A pending put or free may be recorded: what was before it is done, and a put has the next slot (R245, R246). -/
def ringPendReady (s : State) (x : Party) (p : Pend) : Bool :=
  earlierDone s x p.after 3 &&
  match p.kind with
  | .put n slot _ =>
    match ringAt s x.blk n with
    | some r => decide (slot = r.p % r.ns)
    | none => false
  | .putFree _ => true
  | _ => false

/-- Its recording: the header and the count. -/
def recordRing (x : Party) (p : Pend) : Eff := fun s =>
  match p.kind with
  | .put n slot tag =>
    match ringAt s x.blk n with
    | some r =>
      Eff.seq (putHeader x.blk r slot (fun h => headerOf tag.toNat (!bit h.toNat 0) (bit h.toNat 1)))
        (setRing x.blk n { r with p := (r.p + 1) % 2 ^ 32 }) s
    | none => []
  | .putFree n =>
    match ringAt s x.blk n with
    | some r =>
      Eff.seq (putHeader x.blk r (r.f % r.ns) (fun h => headerOf (h.toNat / 2 ^ 32) (bit h.toNat 0) (!bit h.toNat 1)))
        (setRing x.blk n { r with f := (r.f + 1) % 2 ^ 32 }) s
    | none => []
  | _ => []

/-- The first pending ring release of an agent that may be recorded. -/
def ringPendNow (s : State) (a : Agent) : Option Pend :=
  match partyOf s a with
  | none => none
  | some x => x.u.pend.find? (fun p => (pendRing p).isSome && ringPendReady s x p)

/-- It is recorded and no longer pending. -/
def takeRing (a : Agent) : Eff := fun s =>
  match partyOf s a, ringPendNow s a with
  | some x, some p => Eff.seq (setU a (fun u => { u with pend := u.pend.erase p })) (recordRing x p) s
  | _, _ => []

/-- A ring release issues: pending, and recorded at once where nothing holds it back. -/
def ringRelease (a : Agent) (k : PendKind) : Eff := fun s =>
  Eff.all
    [setU a (fun u => { u with pend := u.pend ++ [{ kind := k, after := s.nextId }] }),
     fun s => [.nextId (s.nextId + 1)],
     takeRing a] s

/-- A put takes its slot (R245). -/
def putTakes (a : Agent) (blk n : Nat) (tag : Word) : Eff := fun s =>
  match ringAt s blk n with
  | some r =>
    Eff.seq (setRing blk n { r with pr := (r.pr + 1) % 2 ^ 32 }) (ringRelease a (.put n (r.pr % r.ns) tag)) s
  | none => []

/-- What ring.get and ring.wait side 1 return: the tag and number of the next slot. -/
def ringTag (s : State) (blk : Nat) (r : Ring) : Nat :=
  match mfind s.blocks blk with
  | some b => (ringHeader s b r (r.a % r.ns)).toNat / 2 ^ 32 * 2 ^ 32 + r.a % r.ns
  | none => 0

/-- The ring a form names (code 20). -/
def withRing (c : Ctx) (s : State) (n : Nat) (k : Ring → Res) : Res :=
  match ringAt s c.blkId n with
  | some r => k r
  | none => winTrap c 20 n

/-- The ring number of field A. -/
def ringNum (w : UniW) : Nat := (immOf w.a).getD 0 % 8

/-- Pending releases of a ring are forgotten. -/
def dropRingPends (blk n : Nat) : Eff := fun s =>
  let keep (u : UCtx) : UCtx := { u with pend := u.pend.filter (fun p => pendRing p != some n) }
  (groupsOfBlk s blk).map (fun e => .group e.1 { e.2 with u := keep e.2.u }) ++
  (match streamOfBlk s blk with
   | some (p, t) => [.stream p { t with u := keep t.u }]
   | none => [])

/-- RING.INIT. -/
def execRingInit (w : UniW) : State → Host.Outcome State Fault Refusal :=
  issue (.ringInit w) (fun c _ =>
    let n := fs w 8 6
    let ns := fs w 5 0 + 1
    let base := c.ua w
    if base % 8 ≠ 0 || c.blk.spSize < base + 8 * ns then winTrap c 19 n
    else
      .done { act := c.lanes
              eff := Eff.all
                [fun _ => [.spad (cellsAt (blkByte c.blk base) (List.replicate (8 * ns) 0))],
                 dropRingPends c.blkId n,
                 setRing c.blkId n { base := base, ns := ns }] })

/-- RING.PUT. -/
def execRingPut (w : UniW) : State → Host.Outcome State Fault Refusal :=
  issue (.ringPut w) (fun c s =>
    let n := ringNum w
    let tag := BitVec.ofNat 32 (c.ub w)
    withRing c s n (fun r =>
      if ringRoom r then .done { act := c.lanes, eff := putTakes c.iss.agent c.blkId n tag }
      else .park (.ringPut n tag) Eff.nop))

/-- RING.PUT.FREE. -/
def execRingPutFree (w : UniW) : State → Host.Outcome State Fault Refusal :=
  issue (.ringPutFree w) (fun c s =>
    let n := ringNum w
    withRing c s n (fun r =>
      if countDiff r.a r.f ≤ pendingFrees s c.blkId n then winTrap c 20 n
      else .done { act := c.lanes, eff := ringRelease c.iss.agent (.putFree n) }))

/-- RING.GET. -/
def execRingGet (w : UniW) : State → Host.Outcome State Fault Refusal :=
  issue (.ringGet w) (fun c s =>
    let n := ringNum w
    withRing c s n (fun r =>
      if ringFull r then
        .done { act := c.lanes, regs := putU w.d (ringTag s c.blkId r)
                eff := setRing c.blkId n { r with a := (r.a + 1) % 2 ^ 32 } }
      else .park (.ringGet (kNum w.d) n) Eff.nop))

/-- RING.WAIT: side 0 for a free slot, side 1 for a publish. -/
def execRingWait (w : UniW) : State → Host.Outcome State Fault Refusal :=
  issue (.ringWait w) (fun c s =>
    let n := ringNum w
    let side := if w.b == .imm 65 then 1 else 0
    withRing c s n (fun r =>
      if side = 0 && ringRoom r then .done { act := c.lanes, regs := putU w.d (r.pr % r.ns) }
      else if side = 1 && ringFull r then .done { act := c.lanes, regs := putU w.d (ringTag s c.blkId r) }
      else .park (.ringWait (kNum w.d) n side) Eff.nop))

end Sys2Proof.Machine
end

