-- ==== Sys2Proof/Machine/Sessions.lean ====
section
/-! DEFINITION. Trace sessions: rings, drains, opening and closing (17: R391 to R403); tmark and tsamp (R404,
R407, R408). -/

namespace Sys2Proof.Machine

/-! ## Rings (R392) -/

/-- TAIL and HEAD of a session. -/
def sessTail (x : Session) : Nat := fld x.ptr 31 0
def sessHead (x : Session) : Nat := fld x.ptr 63 32

/-- The ring is full: its last slot is kept for TRUNC. -/
def ringIsFull (x : Session) : Bool := decide (countDiff (sessTail x) (sessHead x) = 2 ^ fld x.ring 4 0 - 1)

/-- A session changed. -/
def setSession (n : Nat) (x : Session) : Eff := fun s =>
  [.trace { s.trace with sessions := mput s.trace.sessions n x }]

/-- The bytes of a card. -/
def cardBytes (k : Card) : List Byte :=
  toBytes 8 k.d0.toNat ++ toBytes 8 k.d1.toNat ++ toBytes 8 k.d2.toNat ++ toBytes 8 k.d3.toNat

/-- Where a session's next card goes. -/
def ringAddr (x : Session) : Nat := fld x.ring 47 12 * 4096 + 32 * (sessTail x % 2 ^ fld x.ring 4 0)

/-- A card as a session's ring gets it: a STALL card with the session's own frank (R471). -/
def cardFor (x : Session) (k : Card) : Card :=
  if fld k.d0 7 0 = 21 then { k with d0 := setFld k.d0 31 24 (sessFrank x) } else k

/-- The frank of a card. -/
def cardFrank (k : Card) : Nat := fld k.d0 31 24

/-- A card is written into a session's ring, by a drain whose home is ready for it, else it reaches its home and performs there in
its order (log entry 27); TAIL counts it. An address that no memory has takes nothing. -/
def ringWrite (by_ : Option Writer) (n : Nat) (k : Card) : Eff := fun s =>
  let x := getSession s n
  let a := ringAddr x
  let frank := cardFrank (cardFor x k)
  let cs := cellsAt a (cardBytes (cardFor x k))
  let ready := by_.filter (fun k => (cellLines cs).all (lineReady s k))
  Eff.seq
    (Eff.when (physExists s a)
      (match ready with
       | some k => Eff.seq (writeThrough k cs) (countAt frank a 32)
       | none => unitCells frank cs))
    (setSession n { x with ptr := setFld x.ptr 31 0 (sessTail x + 1) }) s

/-- The buffer that takes the package units' cards is entirely full. -/
def pkgBufFull (s : State) : Bool := decide (bufCards ≤ (getCluster s (pkgBuf s)).cards.length)

/-- A card of the session control, DROP or TRUNC (R390, R471). -/
def sessionCard (s : State) (n ty : Nat) (p0 p1 : DWord) : Card :=
  let src := srcNum (pkgSrc 11)
  { d0 := cardHead 0 (nextSeq s src) 255 (sessFrank (getSession s n)) src ty, d1 := timeReg s.clk, d2 := p0, d3 := p1 }

/-- The DROP card of a session and the TRUNC card with its reason and count. -/
def dropOf (s : State) (n : Nat) : Card := let x := getSession s n; sessionCard s n 22 (BitVec.ofNat 64 x.drops) x.drop
def truncOf (s : State) (n reason lost : Nat) : Card :=
  sessionCard s n 23 (BitVec.ofNat 64 (reason + lost % 2 ^ 32 * 2 ^ 32)) (BitVec.ofNat 64 ((sessTail (getSession s n) + 1) % 2 ^ 32))

/-- The session's DROP card is due before its next card (R396). -/
def dropDue (s : State) (n : Nat) : Bool := (getSession s n).drops != 0 && !ringIsFull (getSession s n)

/-- A session's drops since its last DROP card are told. -/
def dropsTold (n : Nat) : Eff := fun s => setSession n { getSession s n with drops := 0 } s

/-- A card of the session control that finds the buffer of the package units entirely full is dropped and counted (R398). -/
def loseCard (n : Nat) : Eff := Eff.seq (bumpSeq (srcNum (pkgSrc 11))) (dropAll [n] sessFrank)

/-- The DROP card of a session comes into the buffer of the package units, as the next one that it writes (log entry 60). -/
def enterDrop (n : Nat) : Eff := fun s =>
  if pkgBufFull s then loseCard n s
  else
    let cl := pkgBuf s
    let k : BufCard := { card := dropOf s n, who := [n], written := false }
    Eff.all
      [bumpSeq (srcNum (pkgSrc 11)), fun s => [.cluster cl { getCluster s cl with cards := k :: (getCluster s cl).cards }],
       checkHigh cl, dropsTold n] s

/-- A DROP card of the session stands in that buffer: its other cards wait. -/
def dropStands (s : State) (n : Nat) : Bool :=
  (getCluster s (pkgBuf s)).cards.any (fun b => fld b.card.d0 7 0 == 22 && b.who.contains n)

/-- A card of the session control at a flush: it comes into the buffer of the package units, and as the last of the session's
cards leaves it for the ring. -/
def passCard (n : Nat) (k : Card) (told : Eff) : Eff := fun s =>
  if pkgBufFull s then loseCard n s
  else
    let cl := pkgBuf s
    Eff.all
      [bumpSeq (srcNum (pkgSrc 11)), pushCard cl { card := k, who := [n], written := false }, checkHigh cl,
       fun s => [.cluster cl { getCluster s cl with cards := (getCluster s cl).cards.filter (fun b => b.card != k || b.who != [n]) }],
       ringWrite none n k, count (sessFrank (getSession s n)) 14 1, told] s

/-- The DROP card due at a flush. -/
def passDrop (n : Nat) : Eff := fun s => if dropDue s n then passCard n (dropOf s n) (dropsTold n) s else []

/-- A card is dropped for a session. -/
def dropFor (n : Nat) (k : Card) : Eff := dropAll [n] (fun x => cardFrank (cardFor x k))

/-! ## Draining a buffer (R395) -/

/-- How a session takes the card at a buffer's head. -/
inductive Taken
  | written | dropped | held
  deriving DecidableEq, Repr

/-- A card waits for a session's DROP card, which comes first (R396). -/
def afterDrop (s : State) (n : Nat) (k : Card) : Bool := fld k.d0 7 0 != 22 && dropStands s n

/-- A session takes a card: it is written, after a DROP card that stands before it; a full ring drops it for ordinary mail and
holds it for registered mail. `flush` drops for both. -/
def takeCard (by_ : Option Writer) (n : Nat) (k : Card) (flush : Bool) (s : State) : List Upd × Taken :=
  let x := getSession s n
  if !flush && afterDrop s n k then ([], .held)
  else if !ringIsFull x then (ringWrite by_ n k s, .written)
  else if flush || !sessReg x then (dropFor n k s, .dropped)
  else ([], .held)

/-- The sessions of a card take it in turn: the updates, those that hold it, whether one wrote it. -/
def takeAll (by_ : Writer) (k : Card) : List Nat → Bool → State → List Upd × List Nat × Bool
  | [], w, _ => ([], [], w)
  | n :: ns, w, s =>
    let r := takeCard (some by_) n k false s
    let rest := takeAll by_ k ns (w || r.2 == .written) (applyAll r.1 s)
    (r.1 ++ rest.1, if r.2 == .held then n :: rest.2.1 else rest.2.1, rest.2.2)

/-- A buffer's card list changed. -/
def setCards (cl : Nat) (f : List BufCard → List BufCard) : Eff := fun s =>
  [.cluster cl { getCluster s cl with cards := f (getCluster s cl).cards }]

/-- A card counts once as written (R411), a STALL card with the frank of the session that it is first written for. -/
def countWritten (b : BufCard) (w : Bool) : Eff := fun s =>
  Eff.when (w && !b.written) (count (cardFrank (cardFor (getSession s (b.who.headD 0)) b.card)) 14 1) s

/-- The sessions of a card whose DROP card has to come into its buffer first. -/
def needDrop (s : State) (b : BufCard) : List Nat :=
  if fld b.card.d0 7 0 = 22 || pkgBufFull s then [] else b.who.filter (fun n => dropDue s n && !dropStands s n)

/-- The lines of the rings that the head of a cluster's buffer is written to. -/
def drainLines (s : State) (b : BufCard) : List Nat :=
  (b.who.filter (fun n => !afterDrop s n b.card && !ringIsFull (getSession s n) && physExists s (ringAddr (getSession s n)))).flatMap
    (fun n => linesOf (ringAddr (getSession s n)) 32)

/-- The head of a cluster's buffer is written to its sessions' rings, or dropped, or held; the DROP cards due before it come
first, and its arrival at homes where it must wait (R307). One that finds its buffer entirely full is lost. -/
def drainHead (cl : Nat) : Eff := fun s =>
  match (getCluster s cl).cards with
  | [] => []
  | b :: _ =>
    if !(needDrop s b).isEmpty then Eff.forEach (needDrop s b) enterDrop s
    else if !(toClaim s (.drain cl) (drainLines s b)).isEmpty then claimLines (.drain cl) (drainLines s b) s
    else
    let us := Eff.when (pkgBufFull s && fld b.card.d0 7 0 != 22) (Eff.forEach (b.who.filter (dropDue s)) loseCard) s
    us ++ (fun s =>
    let r := takeAll (.drain cl) b.card b.who false s
    r.1 ++ Eff.seq
      (setCards cl (fun l => (if r.2.1.isEmpty then [] else [{ b with who := r.2.1, written := b.written || r.2.2 }]) ++
        l.drop 1))
      (countWritten b r.2.2) (applyAll r.1 s)) (applyAll us s)

/-- A drain of a cluster's head would move a card, and the homes where it is written are ready or have still to be reached (R307). -/
def drainReady (s : State) (cl : Nat) : Bool :=
  match (getCluster s cl).cards with
  | [] => false
  | b :: _ =>
    b.who.isEmpty || !(needDrop s b).isEmpty ||
    (b.who.any (fun n => !afterDrop s n b.card && (!ringIsFull (getSession s n) || !sessReg (getSession s n))) &&
     (!(toClaim s (.drain cl) (drainLines s b)).isEmpty || (drainLines s b).all (lineReady s (.drain cl))))

/-! ## Opening and closing (R393, R402) -/

/-- ERR of the last open. -/
def setTsErr (e : Nat) : Eff := fun s =>
  [.trace { s.trace with sel := BitVec.ofNat 32 (s.trace.sel.toNat % 65536 + e * 65536) }]

/-- The session TSSEL selects. -/
def tsIdx (s : State) : Nat := bits s.trace.sel.toNat 3 0

/-- A write of TSCTL with EN = 1. A registered session that opens finds buffers that stand at the high-water mark already:
their periods begin (log entry 60). -/
def openSession (v : DWord) : Eff := fun s =>
  let n := tsIdx s
  let x := getSession s n
  if sessOpen x then setTsErr 1 s
  else if fld v 23 2 != 0 then setTsErr 2 s
  else
    Eff.all
      [setSession n { x with ctl := v, ptr := 0, drop := 0, drops := 0 }, setTsErr 0,
       Eff.forEach s.clusters (fun e => checkHigh e.1)] s

/-- Card i of a buffer leaves a session that it was admitted for: written, or dropped where the ring is full. -/
def flushCard (n cl i : Nat) : Eff := fun s =>
  match (getCluster s cl).cards[i]? with
  | none => []
  | some b =>
    if !b.who.contains n then []
    else
      let us := Eff.when (fld b.card.d0 7 0 != 22) (passDrop n) s
      let s := applyAll us s
      let r := takeCard none n b.card true s
      let w := r.2 == .written
      us ++ r.1 ++ Eff.seq (setCards cl (fun l => l.set i { b with who := b.who.filter (· != n), written := b.written || w }))
        (countWritten b w) (applyAll r.1 s)

/-- The cards of a buffer leave a session, in order. -/
def flushBuf (n cl : Nat) : Eff := fun s =>
  Eff.seq (Eff.forEach (List.range (getCluster s cl).cards.length) (flushCard n cl))
    (setCards cl (fun l => l.filter (fun b => !b.who.isEmpty))) s

/-- A session ends: its cards are flushed, a TRUNC card takes the last slot, EN falls. -/
def endSession (n reason : Nat) : Eff := fun s =>
  let before := (getSession s n).drop
  Eff.all
    [Eff.forEach s.clusters (fun e => flushBuf n e.1),
     passDrop n,
     fun s => passCard n (truncOf s n reason ((getSession s n).drop - before).toNat) Eff.nop s,
     fun s =>
       let x := getSession s n
       setSession n { x with ctl := setFld x.ctl 0 0 0 } s] s

/-- A write of TSCTL: it opens, closes, or sets the fields of a closed session. -/
def writeTsctl (v : DWord) : Eff := fun s =>
  let n := tsIdx s
  let x := getSession s n
  if fld v 0 0 = 1 then openSession v s
  else if sessOpen x then endSession n 2 s
  else setSession n { x with ctl := v &&& 0xFFFFFFFFFF000003 } s

/-- A write of TSRING, ignored while the session is open; another LOG2N stores 8. -/
def writeTsring (v : DWord) : Eff := fun s =>
  let n := tsIdx s
  let x := getSession s n
  if sessOpen x then []
  else
    let l := fld v 4 0
    let l := if 8 ≤ l && l ≤ 26 then l else 8
    setSession n { x with ring := BitVec.ofNat 64 (fld v 47 12 * 4096 + l) } s

/-- A write of TSPTR: HEAD alone. -/
def writeTsptr (v : DWord) : Eff := fun s =>
  let n := tsIdx s
  let x := getSession s n
  setSession n { x with ptr := setFld x.ptr 63 32 (fld v 63 32) } s

/-- The sessions bound to a queue end (R402). -/
def endBound (q : Nat) : Eff := fun s =>
  Eff.forEach (s.trace.sessions.filter (fun e => sessOpen e.2 && fld e.2.ctl 54 54 == 1 && fld e.2.ctl 53 48 == q))
    (fun e => endSession e.1 1) s

/-- A STALL period ends (R399). -/
def stallEnds (cl : Nat) : Eff := fun s =>
  match (getCluster s cl).stall with
  | none => []
  | some n =>
    Eff.seq (stallCard cl 1 n)
      (fun s => [.cluster cl { getCluster s cl with stall := none, ended := s.clk.time }]) s

/-! ## tmark and tsamp -/

/-- TMARK: the card, or a wait for the buffer first (R397). -/
def execTmark (w : UniW) : State → Host.Outcome State Fault Refusal :=
  issue (.tmark w) (fun c s =>
    let src := coreSrc c.core c.part (if c.strm then 1 else 0)
    if mustStall s src 1 c.frank then .park (.retry (.stall c.cl)) Eff.nop
    else
      .done { act := c.lanes
              eff := emit src 1 (if c.strm then 255 else lowest c.lanes) c.slot c.frank (BitVec.ofNat 64 (c.ubI w)) c.pc })

/-- TSAMP: kD takes the old setting; each enabled countdown is drawn afresh. -/
def execTsamp (w : UniW) : State → Host.Outcome State Fault Refusal :=
  issue (.tsamp w) (fun c s =>
    let cfg := fs w 15 0
    let old := match groupOf c s with
      | some g => g.samp.cfg.toNat
      | none => 0
    .done { act := c.lanes, regs := putU w.d old
            eff := Eff.seq
              (onGroup c (fun g => { g with samp :=
                { cfg := BitVec.ofNat 32 cfg
                  load := if bit cfg 15 then drawCount (bits cfg 14 10) (4 * c.fresh) else 0
                  inst := if bit cfg 9 then drawCount (bits cfg 8 4) (4 * c.fresh + 1) else 0 } }))
              (fun s => [.fresh (s.fresh + 1)]) })

end Sys2Proof.Machine
end

