-- ==== Sys2Proof/Machine/SpecRegs.lean ====
section
/-! DEFINITION. Special registers: who holds them, what a read gives, what a write does (R379, R380, R383,
R470 and the rules that lay out each register). -/

namespace Sys2Proof.Machine

/-! ## Numbers and access (R379, R380) -/

/-- Numbers that a chapter assigns. -/
def sregKnown (n : Nat) : Bool :=
  [0x00, 0x01, 0x02, 0x08, 0x09, 0x0C, 0x0D, 0x0E, 0x0F, 0x10, 0x11, 0x12, 0x13, 0x14, 0x15, 0x16, 0x18, 0x19, 0x1A,
    0x1C, 0x1E, 0x1F, 0x20, 0x21, 0x22, 0x23, 0x24, 0x28, 0x29, 0x2A, 0x2B, 0x2C, 0x2D, 0x30, 0x31, 0x32, 0x33, 0x34,
    0x35, 0x38, 0x39, 0x3A, 0x3B, 0x3C, 0x3D, 0x3E].contains n

/-- Privileged registers: neither read nor written in user mode. -/
def sregPriv (n : Nat) : Bool :=
  [0x10, 0x1E, 0x1F, 0x20, 0x21, 0x22, 0x23, 0x24, 0x29, 0x2C, 0x2D, 0x30, 0x31, 0x32, 0x33, 0x34, 0x35, 0x38, 0x39,
    0x3A, 0x3B, 0x3C].contains n

/-- Registers that user mode reads and only system mode writes. -/
def sregSysWrite (n : Nat) : Bool := [0x02, 0x0D, 0x14, 0x15, 0x16, 0x19, 0x1C].contains n

/-- Registers without an RW or W1C field, which no mts may name; SSTAT, SBOUND and WSTAT are excepted. -/
def sregReadOnly (n : Nat) : Bool :=
  [0x00, 0x01, 0x08, 0x09, 0x0F, 0x11, 0x12, 0x18, 0x28, 0x2A, 0x2B, 0x3C, 0x3D, 0x3E].contains n

/-! ## Who reads or writes -/

/-- A reader or writer of special registers: a group by its place, a stream by its partition place, or the host
(R438), which has no block. -/
structure Reader where
  group  : Option Nat
  stream : Option Nat
  core   : Nat
  blk    : Nat
  frank  : Nat
  sys    : Bool
  deriving DecidableEq, Repr

/-- The reader of an instruction word. -/
def Ctx.reader (c : Ctx) : Reader :=
  { group := if c.strm then none else some c.key, stream := if c.strm then some c.key else none, core := c.core
    blk := c.blkId, frank := c.frank, sys := c.sys }

/-- The host; the core whose per-core registers it reaches is left open (log entry 30). -/
def hostReader (s : State) : Reader :=
  { group := none, stream := none, core := (Config.freeValue s.fresh).toNat % 768, blk := 0, frank := 0, sys := true }

/-- The group of a reader. -/
def Reader.grp (r : Reader) (s : State) : Option Group :=
  match r.group with
  | some p => mfind s.groups p
  | none => none

/-- The stream whose registers a reader sees: its own, or that of its block (R470). -/
def Reader.strm (r : Reader) (s : State) : Option (Nat × Stream) :=
  match r.stream, r.group with
  | some p, _ => (mfind s.streams p).map (fun t => (p, t))
  | none, some _ => streamOfBlk s r.blk
  | none, none => none

/-- The bank of the running level: outside any handler, bank U (R383). -/
def runBank (g : Group) : Bank :=
  match g.tr.frames with
  | f :: _ => if f.sys then g.tr.bankS else g.tr.bankU
  | [] => g.tr.bankU

/-- The bank of the running level replaced. -/
def setRunBank (g : Group) (b : Bank) : Group :=
  match g.tr.frames with
  | f :: _ => if f.sys then { g with tr := { g.tr with bankS := b } } else { g with tr := { g.tr with bankU := b } }
  | [] => { g with tr := { g.tr with bankU := b } }

/-! ## Reads -/

/-- A 64-bit value of a 32-bit register. -/
def zext (w : Word) : DWord := w.setWidth 64

/-- A field of the reader's group, 0 where there is none. -/
def ofGroup (s : State) (r : Reader) (f : Group → DWord) : DWord :=
  match r.grp s with
  | some g => f g
  | none => 0

/-- A field of the stream, 0 where there is none. -/
def ofStream (s : State) (r : Reader) (f : Stream → DWord) : DWord :=
  match r.strm s with
  | some (_, t) => f t
  | none => 0

/-- A register of the stream of the reader's block, which stands while the block holds the sequencer; 0 where there is none
(R170, R470). -/
def ofMatrix (s : State) (r : Reader) (f : Matrix → DWord) : DWord :=
  if r.group.isNone && r.stream.isNone then 0
  else
    match (mfind s.blocks r.blk).bind (·.mat) with
    | some m => f m
    | none => 0

/-- A field of the reader's block. -/
def ofBlock (s : State) (r : Reader) (f : Block → DWord) : DWord :=
  if r.group.isNone && r.stream.isNone then 0
  else
    match mfind s.blocks r.blk with
    | some b => f b
    | none => 0

/-- The registers of the selected round-table entry and of the selected queue. -/
def curRt (s : State) : Nat := bits s.rounds.sel.toNat 9 0
def curQ (s : State) : Nat := bits s.mail.sel.toNat 5 0

/-- SPSEG (R216). -/
def spseg (b : Block) : DWord := BitVec.ofNat 64 (b.spSize * 2 ^ 32 + b.spBase)

/-- AGENCY (R410). -/
def agency (frank : Nat) : DWord := BitVec.ofNat 64 (frank % 64 * 256 + frank)

/-- The value of a special register as a reader reads it. -/
def readSpecial (s : State) (r : Reader) (n : Nat) : DWord :=
  match n with
  | 0x00 =>
    match s.boot.phase with
    | .recovery _ => 0
    | _ => s.idn.cap
  | 0x01 => zext s.idn.prof
  | 0x02 => zext (getCore s r.core).corestat
  | 0x08 => timeReg s.clk
  | 0x09 => BitVec.ofNat 64 s.clk.cyc
  | 0x0C => ofGroup s r (·.tr.utvec)
  | 0x0D => s.idn.stvec
  | 0x0E => ofGroup s r (fun g => zext (runBank g).cause)
  | 0x0F => ofGroup s r (fun g => (runBank g).pc)
  | 0x10 => zext (getCore s r.core).agelim
  | 0x11 => ofGroup s r (fun g => (runBank g).addr)
  | 0x12 => ofGroup s r (fun g => zext (runBank g).lane)
  | 0x13 => ofGroup s r (fun g => (runBank g).scr)
  | 0x14 => ofMatrix s r (fun m => zext m.rowprog)
  | 0x15 => ofMatrix s r (·.sstat)
  | 0x16 => ofMatrix s r (fun m => zext m.sbound)
  | 0x18 => ofBlock s r spseg
  | 0x19 =>
    if r.stream.isSome then ofStream s r (fun t => zext t.u.wstat) else ofGroup s r (fun g => zext g.u.wstat)
  | 0x1A => ofGroup s r (fun g => zext g.atomcfg)
  | 0x1C => ofBlock s r (·.tctx)
  | 0x1E => s.faults.cfg
  | 0x1F => s.faults.ptr
  | 0x20 => zext s.rounds.sel
  | 0x21 => (getRt s (curRt s)).base
  | 0x22 => (getRt s (curRt s)).cva
  | 0x23 => (getRt s (curRt s)).ctl
  | 0x24 => (getRt s (curRt s)).cnt
  | 0x28 => zext s.clk.tstat
  | 0x29 => s.idn.mcstat
  | 0x2A => zext s.idn.pwrstat
  | 0x2B => zext s.idn.podid
  | 0x2C => s.idn.lnkstat
  | 0x2D => s.idn.hevt
  | 0x30 => zext s.mail.sel
  | 0x31 => (getQueue s (curQ s)).ctl
  | 0x32 => (getQueue s (curQ s)).tctx
  | 0x33 => (getQueue s (curQ s)).head
  | 0x34 => (getQueue s (curQ s)).tail
  | 0x35 => (getQueue s (curQ s)).work
  | 0x38 => zext s.trace.sel
  | 0x39 => (getSession s (tsIdx s)).ctl
  | 0x3A => (getSession s (tsIdx s)).ring
  | 0x3B => (getSession s (tsIdx s)).ptr
  | 0x3C => (getSession s (tsIdx s)).drop
  | 0x3D => if r.group.isNone && r.stream.isNone then 0 else agency r.frank
  | 0x3E => s.idn.errwin
  | _ => 0

/-! ## Writes of the round table (R313 to R315) -/

/-- An entry changed. -/
def setRt (n : Nat) (e : RtEntry) : Eff := fun s => [.rounds { s.rounds with ents := mput s.rounds.ents n e }]

/-- RTSEL with a result. -/
def setRtErr (e : Nat) : Eff := fun s =>
  [.rounds { s.rounds with sel := BitVec.ofNat 32 (s.rounds.sel.toNat % 65536 + e * 65536) }]

/-- An entry changed while it is free. -/
def writeFree (f : RtEntry → RtEntry) : Eff := fun s =>
  let n := curRt s
  let e := getRt s n
  if rtValid e then [] else setRt n (f e) s

/-- Ranges [a, a + n) and [b, b + m) overlap. -/
def overlap (a n b m : Nat) : Bool := decide (a < b + m) && decide (b < a + n)

/-- The code of a commit of the selected entry, whose RTCTL is the value written; 0 when nothing fails (R314). -/
def commitCode (s : State) (n : Nat) (e : RtEntry) (v : DWord) : Nat :=
  let log := fld e.base 5 0
  let others := s.rounds.ents.filter (fun x => x.1 != n && rtValid x.2 && rtAsid x.2 == fld v 43 32)
  let scope := fld v 7 4
  let cl := fld v 10 8
  if log < 16 || 40 < log || rtBase e % 2 ^ log != 0 then 2
  else if others.any (fun x => overlap (rtBase e) (rtSize e) (rtBase x.2) (rtSize x.2)) then 3
  else if (decide (rtBase e ≤ rtCva e) && decide (rtCva e < rtBase e + rtSize e)) ||
      others.any (fun x => (decide (rtBase x.2 ≤ rtCva e) && decide (rtCva e < rtBase x.2 + rtSize x.2)) ||
        rtCva x.2 == rtCva e) then 4
  else if (scope != 8 && scope != 9) || (scope == 8 && !bit s.idn.cap.toNat (26 + cl)) || (scope == 8 && decide (5 < cl)) ||
      (scope == 9 && cl != 0) then 5
  else if decide (1 < fld v 2 1) || fld v 47 44 != 0 || fld v 31 11 != 0 || fld v 3 3 != 0 then 6
  else 0

/-- RTCTL's fields but V. -/
def rtFields (v : DWord) : DWord := v &&& 0xFFFF0FFF000007F6

/-- Every L1 copy of the package is given up, written bytes and privatised ones first (R271, R314): a copy may
leave a cache at any time, so no more than the region's lines need go (log entry 53). -/
def emptyL1s : Eff :=
  Eff.all
    [fun s => Eff.forEach (s.coh.dirs.filter (fun e => !e.2.priv.isEmpty)) (fun e => mergeLine e.1) s,
     fun s => s.cores.map (fun e => .core e.1 { e.2 with l1 := [] }),
     fun s => [.coh { s.coh with
       fills := [], leases := [], acks := s.coh.acks ++ heldAcks s.coh.fills
       dirs := s.coh.dirs.map (fun e => (e.1, dirInval s.clk.cyc e.2.holders e.2)) }],
     fun s => Eff.forEach s.coh.homeq homePerform s]

/-- Every core's known round of a region. -/
def setKnown (r : Nat) (n : Option Nat) : Eff := fun s =>
  match n with
  | none => (s.cores.filter (fun e => (mfind e.2.known r).isSome)).map (fun e => .core e.1 { e.2 with known := mdel e.2.known r })
  | some n => ((List.range 768).filter (fun k => inRegionScope s r k)).map (fun k =>
      .core k { getCore s k with known := mput (getCore s k).known r n })

/-- A commit of the selected entry (R314). -/
def commitRegion (v : DWord) : Eff := fun s =>
  let n := curRt s
  let e := getRt s n
  if rtValid e then setRtErr 1 s
  else
    let e1 := { e with ctl := rtFields v }
    match commitCode s n e v with
    | 0 =>
      Eff.all [emptyL1s, setRt n { e1 with ctl := setFld e1.ctl 0 0 1 }, setKnown n none,
        setKnown n (some (fld e.cnt 47 0)), setRtErr 0] s
    | code => Eff.seq (setRt n e1) (setRtErr code) s

/-- A group without a region's floors: OVF is set in each lane that had one (R315). -/
def dropFloors (r : Nat) (g : Group) : Group :=
  let had := g.floors.filter (fun e => e.2.any (fun f => f.1 == r))
  { g with
    floors := (g.floors.map (fun e => (e.1, e.2.filter (fun f => f.1 != r)))).filter (fun e => !e.2.isEmpty)
    ovf := g.ovf ||| maskOf (fun l => had.any (fun e => e.1 == l)) }

/-- A line without a region's tag. -/
def untag (r : Nat) (l : Line) : Line := { l with tags := mdel l.tags r }

/-- Bounded loads or a round.adv of a region are in flight (R315); the other instructions of a region take effect at
issue. -/
def regionBusy (s : State) (r : Nat) : Bool :=
  s.coh.watches.any (fun w => w.region == r) ||
  s.groups.any (fun e =>
    match e.2.u.wait with
    | some w =>
      match w.kind with
      | .advance _ n => n == r
      | _ => false
    | none => false)

/-- A release of a registered region (R315). -/
def releaseRegion (r : Nat) : Eff :=
  Eff.all
    [fun s => s.cores.map (fun e => .core e.1 { e.2 with l1 := e.2.l1.map (fun x => (x.1, untag r x.2)) }),
     setKnown r none,
     fun s => s.groups.map (fun e => .group e.1 (dropFloors r e.2)),
     fun s => [.mail { s.mail with saved := s.mail.saved.map (fun x =>
       { x with groups := x.groups.map (fun e => (e.1, dropFloors r e.2)) }) }],
     fun s => [.coh { s.coh with
       fills := s.coh.fills.map (fun f => { f with copy := untag r f.copy })
       notices := s.coh.notices.filter (fun x => x.2.1 != r) }],
     fun s => setRt r { getRt s r with ctl := setFld (getRt s r).ctl 0 0 0 } s]

/-! ## Writes of the queue registers (R345, R346, R364) -/

/-- A queue changed. -/
def setQueue (q : Nat) (x : Queue) : Eff := fun s => [.mail { s.mail with queues := mput s.mail.queues q x }]

/-- No mail queue is enabled before step 5 of bring-up (R432). -/
def mayEnable (s : State) : Bool := s.boot.phase == .ready

/-- QCTL after a write; setting EN clears ERR, and the packets are counted anew (R347). -/
def qctlWrite (up : Bool) (x : Queue) (v : DWord) : Queue :=
  let en := up && fld v 0 0 == 1
  let was := fld x.ctl 0 0 == 1
  let old := if was then x.ctl else setFld (v &&& 0xFF00000000000078) 23 16 (fld x.ctl 23 16)
  let c := setFld (setFld old 6 6 (fld v 6 6)) 0 0 en.toNat
  { x with ctl := (if en then setFld c 23 16 0 else c), count := if en && !was then 0 else x.count }

/-- The blocks of a queue's launches that are resident. -/
def queueBlocks (s : State) (q : Nat) : List (Nat × Block) :=
  s.blocks.filter (fun e =>
    match mfind s.mail.launches e.2.launch with
    | some l => l.queue == q
    | none => false)

/-- A context register of a disabled queue. -/
def writeOff (f : Queue → Queue) : Eff := fun s =>
  let q := curQ s
  let x := getQueue s q
  if fld x.ctl 0 0 = 1 then [] else setQueue q (f x) s

/-! ## Writes -/

/-- What a write of a special register comes to. -/
inductive SWrite
  | ill
  | perm
  | park (k : WaitKind) (eff : Eff)
  | ok (eff : Eff)

/-- A field of the reader's group changed. -/
def putGroup (r : Reader) (f : Group → Group) : Eff := fun s =>
  match r.group with
  | some p =>
    match mfind s.groups p with
    | some g => [.group p (f g)]
    | none => []
  | none => []

/-- A register of the stream of the writer's block; PERM where the block holds no sequencer (R470). -/
def putMatrix (s : State) (r : Reader) (f : Matrix → Matrix) : SWrite :=
  if r.group.isNone then .ok Eff.nop
  else if ((mfind s.blocks r.blk).bind (·.mat)).isNone then .perm
  else .ok (onMatrix r.blk f)

/-- An identity register. -/
def putId (i : IdReg) (v : DWord) : SWrite := .ok (fun _ => [.ident i v])

/-- FQCFG: a LOG2N outside 4 to 20 stores 4 (R286). -/
def fqcfgOf (v : DWord) : DWord :=
  let n := fld v 4 0
  setFld (v &&& 0xFFFFFFFFFFFFF000) 4 0 (if 4 ≤ n && n ≤ 20 then n else 4)

/-- A write of a register that may be written. -/
def putSpecial (s : State) (r : Reader) (n : Nat) (v : DWord) : SWrite :=
  let w := v.setWidth 32
  match n with
  | 0x02 => .ok (fun s =>
      let c := getCore s r.core
      [.core r.core { c with corestat := c.corestat &&& ~~~(w &&& 0x8) }])
  | 0x0C => .ok (putGroup r (fun g => { g with tr := { g.tr with utvec := v } }))
  | 0x0D => putId .stvec v
  | 0x0E =>
    match r.grp s with
    | some g =>
      if g.tr.frames.isEmpty then .perm
      else .ok (putGroup r (fun g =>
        let b := runBank g
        setRunBank g { b with cause := (b.cause &&& ~~~0x4000) ||| (w &&& 0x4000) }))
    | none => .ok Eff.nop
  | 0x10 => .ok (fun s =>
      let k := getCore s r.core
      [.core r.core { k with agelim := w &&& 0xFFFF, agewas := some (k.agewas.getD k.agelim) }])
  | 0x13 => .ok (putGroup r (fun g => setRunBank g { runBank g with scr := v }))
  | 0x14 => putMatrix s r (fun m => { m with rowprog := w &&& 0x800F00FF })
  | 0x15 => putMatrix s r (fun m => { m with sstat := v &&& 0xFFFFFFFFFFEFFF00 })
  | 0x16 => putMatrix s r (fun m => { m with sbound := BitVec.ofNat 32 (min 65536 (bits w.toNat 16 0)) })
  | 0x19 => .ok (putGroup r (fun g => { g with u := { g.u with wstat := w &&& 0x80FF7F3F } }))
  | 0x1A => .ok (putGroup r (fun g => { g with atomcfg := if w &&& 3 == 3 then 0 else w &&& 3 }))
  | 0x1C => .ok (fun s =>
      match mfind s.blocks r.blk with
      | some b => if r.group.isNone then [] else [.block r.blk { b with tctx := v &&& 0xFFFFFFFFFFFF }]
      | none => [])
  | 0x1E => .ok (fun s => [.faults { s.faults with cfg := fqcfgOf v }])
  | 0x1F => .ok (fun s => [.faults { s.faults with ptr := setFld s.faults.ptr 63 32 (fld v 63 32) }])
  | 0x20 => .ok (fun s => [.rounds { s.rounds with
      sel := BitVec.ofNat 32 (s.rounds.sel.toNat / 65536 * 65536 + bits v.toNat 9 0) }])
  | 0x21 => .ok (writeFree (fun e => { e with base := v &&& 0x00FFFFFFFFFF003F }))
  | 0x22 => .ok (writeFree (fun e => { e with cva := v &&& 0x00FFFFFFFFFFFFF8 }))
  | 0x23 =>
    if fld v 0 0 = 1 then .ok (commitRegion v)
    else if !rtValid (getRt s (curRt s)) then .ok (writeFree (fun e => { e with ctl := rtFields v }))
    else if regionBusy s (curRt s) then .park (.retry (.region (curRt s))) Eff.nop
    else .ok (releaseRegion (curRt s))
  | 0x24 => .ok (writeFree (fun e => { e with cnt := v &&& 0xFFFFFFFFFFFF }))
  | 0x29 => putId .mcstat (s.idn.mcstat &&& ~~~(v &&& 0xFFFF000000000000))
  | 0x2C => putId .lnkstat (s.idn.lnkstat &&& ~~~(v &&& 0x8000000000000000))
  | 0x2D => putId .hevt (v &&& 0x0000FFFFFFFFFFC0)
  | 0x30 => .ok (fun s => [.mail { s.mail with sel := BitVec.ofNat 32 (bits v.toNat 5 0) }])
  | 0x31 =>
    let q := curQ s
    let x := getQueue s q
    let eff := setQueue q (qctlWrite (mayEnable s) x v)
    if fld v 6 6 = 1 && !(queueBlocks s q).isEmpty then .park (.saves q) eff else .ok eff
  | 0x32 => .ok (writeOff (fun x => { x with tctx := v &&& 0xFFFFFFFFFFFF }))
  | 0x33 => .ok (writeOff (fun x => { x with head := v }))
  | 0x34 => .ok (fun s => setQueue (curQ s) { getQueue s (curQ s) with tail := v } s)
  | 0x35 => .ok (writeOff (fun x => { x with work := v &&& 0x00FFFFFFFFFFFFFF }))
  | 0x38 => .ok (fun s => [.trace { s.trace with
      sel := BitVec.ofNat 32 (s.trace.sel.toNat / 65536 * 65536 + bits v.toNat 3 0) }])
  | 0x39 => .ok (writeTsctl v)
  | 0x3A => .ok (writeTsring v)
  | 0x3B => .ok (writeTsptr v)
  | _ => .ok Eff.nop

/-- A read of a special register: ILL for a number no chapter assigns, PERM for a privileged one in user mode. -/
def readAs (s : State) (r : Reader) (n : Nat) : Option (Option DWord) :=
  if !sregKnown n then none
  else if sregPriv n && !r.sys then some none
  else some (some (readSpecial s r n))

/-- A write of a special register with its checks (R379, R380). -/
def writeAs (s : State) (r : Reader) (n : Nat) (v : DWord) : SWrite :=
  if !sregKnown n then .ill
  else if sregReadOnly n || ((sregPriv n || sregSysWrite n) && !r.sys) then .perm
  else putSpecial s r n v

end Sys2Proof.Machine
end

