-- ==== Sys2Proof/Machine/System.lean ====
section
/-! DEFINITION. trap, sysc, eret, mfs, mts, halt (16: R378 to R385, R470), cntrd and cntcfg (18: R415, R416), and the
register writes of the host that are steps of their own (20: R438). -/

namespace Sys2Proof.Machine

/-! ## Traps -/

/-- TRAP: cause 16, the code sign-extended. -/
def execTrap (w : UniW) : State → Host.Outcome State Fault Refusal :=
  issue (.trap w) (fun c _ => .trap 16 (BitVec.ofNat 64 (c.ubI w)) c.uniLane Eff.nop)

/-- SYSC: cause 17. -/
def execSysc (w : UniW) : State → Host.Outcome State Fault Refusal :=
  issue (.sysc w) (fun c _ => .trap 17 (BitVec.ofNat 64 (c.ubI w)) c.uniLane Eff.nop)

/-- PERM with TRAPADDR 0. -/
def permTrap (c : Ctx) : Res := .trap 9 0 c.uniLane Eff.nop

/-- ERET: PERM without an active bank (R381); the lanes go where the frame says, not past the word. -/
def execEret (w : UniW) : State → Host.Outcome State Fault Refusal :=
  issue (.eret w) (fun c s =>
    match groupOf c s with
    | none => permTrap c
    | some g =>
      if g.tr.frames.isEmpty then permTrap c
      else
        .over (Eff.all
          [splitCard c (usplit c s), returnFrom c.key,
           onGroup c (fun g => { g with u := { g.u with mark := g.u.mark || w.s } }),
           fun s => [.fresh (s.fresh + 1)],
           issueCount c { act := c.lanes },
           sampleStep c { act := c.lanes }]))

/-- HALT: the launch is killed, FAILED with code 21 (R384, R385). -/
def execHalt (w : UniW) : State → Host.Outcome State Fault Refusal :=
  issue (.halt w) (fun c s =>
    systemOnly c (.over (Eff.all [splitCard c (usplit c s), issueCount c { act := c.lanes }, killLaunch c.launch 2 21 (some c.uid)])))

/-! ## mfs and mts -/

/-- The register that field B numbers; ILL above 0x3F and below 0 (R379). -/
def withSreg (c : Ctx) (w : UniW) (k : Nat → Res) : Res :=
  let n := c.ub w
  if sregKnown n then k n else .trap 1 c.words c.checkLane Eff.nop

/-- The stream's read of ROWPROG waits for its loads, that of SSTAT for its sdecs (R183, R203). -/
def sregWaits (c : Ctx) (s : State) (n : Nat) : Bool :=
  match streamOf c s with
  | some t => (n == 0x14 && t.ops.any isLoadOp) || (n == 0x15 && t.ops.any isSdecOp)
  | none => false

/-- MFS. -/
def execMfs (w : UniW) : State → Host.Outcome State Fault Refusal :=
  issue (.mfs w) (fun c s => withSreg c w (fun n =>
    match readAs s c.reader n with
    | some (some v) =>
      if sregWaits c s n then .park (.retry .inflight) Eff.nop
      else .done { act := c.lanes, regs := putU w.d v.toNat }
    | _ => permTrap c))

/-- MTS. -/
def execMts (w : UniW) : State → Host.Outcome State Fault Refusal :=
  issue (.mts w) (fun c s => withSreg c w (fun n =>
    match writeAs s c.reader n (BitVec.ofNat 64 (c.ua w)) with
    | .ill => .trap 1 c.words c.checkLane Eff.nop
    | .perm => permTrap c
    | .park k eff => .park k eff
    | .ok eff => .done { act := c.lanes, eff := eff }))

/-! ## Counters (R409 to R416) -/

/-- The configuration word of a counter. -/
def ctConfig (ovf : Bool) (ev : Nat) : DWord := BitVec.ofNat 64 (ovf.toNat * 256 + ev)

/-- What a cntrd of a selector returns of a set (R414, R415): in a cycle in which another group's cntcfg meets the counter, what the
cycle began with. -/
def ctRead (s : State) (who set sel : Nat) : DWord :=
  let x := getSet s set
  let n := sel % 16
  match (ctNow x s.clk.cyc n).filter (fun w => w.who != who) with
  | some w => if sel < 16 then w.val else ctConfig w.ovf w.ev
  | none => if sel < 16 then ctVal x n else ctConfig (ctOvf s set n x) (ctEvent x n)

/-- A counter set changed. -/
def putSet (n : Nat) (x : CtSet) : Eff := fun s => [.ctrs { s.ctrs with sets := mput s.ctrs.sets n x }]

/-- CNTRD (R415). -/
def execCntrd (w : UniW) : State → Host.Outcome State Fault Refusal :=
  issue (.cntrd w) (fun c s =>
    let sel := c.ua w
    let set := c.ub w
    let own := c.frank % 64
    if 31 < sel then .trap 7 (BitVec.ofNat 64 sel) c.uniLane Eff.nop
    else if 63 < set && set != 2 ^ 64 - 1 then .trap 7 (BitVec.ofNat 64 set) c.uniLane Eff.nop
    else if !c.sys && set != 2 ^ 64 - 1 && set != own then permTrap c
    else .done { act := c.lanes, regs := putU w.d (ctRead s c.key (if set = 2 ^ 64 - 1 then own else set) sel).toNat })

/-- A counter written in a cycle: the cycle's addition will be discarded, and its carry out of what the cycle began with sets OVF,
whatever the write did to OVF (R414). -/
def ctWritten (cyc who n : Nat) (old new : CtSet) : CtSet :=
  let w := (ctNow old cyc n).getD { cyc := cyc, who := who, val := ctVal old n, ovf := mget false old.ovf n, ev := ctEvent old n }
  { new with
    wrote := mput new.wrote n { w with who := who }
    cleared :=
      if (ctEvent old n != 16 && ctEvent new n != 16) || old.cleared.any (fun c => c.1 == cyc) then old.cleared
      else some (cyc, old.rem) }

/-- cntcfg of counter n of the set that field A names (R416): events of earlier cycles are added before it. -/
def cfgSet (c : Ctx) (w : UniW) (n : Nat) (f : CtSet → CtSet) : Res :=
  systemOnly c
    (let set := c.ua w
     if 63 < set then .trap 7 (BitVec.ofNat 64 set) c.uniLane Eff.nop
     else
       .done { act := c.lanes
               eff := Eff.seq (addBefore c.cyc) (fun s => putSet set (ctWritten c.cyc c.key n (getSet s set) (f (getSet s set))) s) })

/-- The remainder, cleared when the counter selects the energy estimate (R412). -/
def remAfter (x : CtSet) (n : Nat) (ev : Nat) : Nat := if ctEvent x n = 16 || ev = 16 then 0 else x.rem

/-- CNTCFG.EVENT. -/
def execCntcfgEvent (w : UniW) : State → Host.Outcome State Fault Refusal :=
  issue (.cntcfgEvent w) (fun c _ =>
    let n := fs w 3 0
    let ev := fs w 11 6
    cfgSet c w n (fun x => { x with
      ct := mset 0 x.ct n 0, ovf := mset false x.ovf n false, ev := mput x.ev n ev, rem := remAfter x n ev }))

/-- CNTCFG.CLEAR. -/
def execCntcfgClear (w : UniW) : State → Host.Outcome State Fault Refusal :=
  issue (.cntcfgClear w) (fun c _ =>
    let n := fs w 3 0
    cfgSet c w n (fun x => { x with ct := mset 0 x.ct n 0, ovf := mset false x.ovf n false, rem := remAfter x n 0 }))

/-- CNTCFG.WRITE: OVF is kept. -/
def execCntcfgWrite (w : UniW) : State → Host.Outcome State Fault Refusal :=
  issue (.cntcfgWrite w) (fun c _ =>
    let n := fs w 3 0
    cfgSet c w n (fun x => { x with ct := mset 0 x.ct n (BitVec.ofNat 64 (c.ub w)), rem := remAfter x n 0 }))

/-! ## Register writes of the host (R438) -/

/-- The special registers answer the host: not in a package that stopped at step 3 of bring-up (R437). -/
def registersAnswer (s : State) : Bool := s.boot.phase != .stopped

/-- A write of the host: what a group would trap on changes nothing. One that has to wait for bounded loads in
flight takes effect later (R315). -/
def hostPut (core n : Nat) (v : DWord) : Eff := fun s =>
  if !registersAnswer s then []
  else
  match writeAs s { hostReader s with core := core } n v with
  | .ok eff => eff s
  | .park _ eff => eff s
  | _ => []

/-- A read of the host. -/
def hostGet (core n : Nat) : Eff := fun s =>
  if !registersAnswer s then []
  else
  match readAs s { hostReader s with core := core } n with
  | some (some v) => [.hostVal v]
  | _ => [.hostVal 0]

/-- Item i of an event's subject. -/
def subjAt (s : State) (i : Nat) : Nat := s.subj.getD i 0

/-- RTCTL_COMMIT: a write of RTCTL with V = 1. -/
def execRtctlCommit (v : DWord) : State → Host.Outcome State Fault Refusal := commit (hostPut 0 0x23 (setFld v 0 0 1))

/-- RTCTL_RELEASE: a write of RTCTL with V = 0. -/
def execRtctlRelease (v : DWord) : State → Host.Outcome State Fault Refusal := commit (hostPut 0 0x23 (setFld v 0 0 0))

/-- QCTL_ENABLE: a write of QCTL with EN = 1. -/
def execQctlEnable (v : DWord) : State → Host.Outcome State Fault Refusal := commit (hostPut 0 0x31 (setFld v 0 0 1))

/-- QCTL_DISABLE: a write of QCTL with EN = 0. -/
def execQctlDisable (v : DWord) : State → Host.Outcome State Fault Refusal := commit (hostPut 0 0x31 (setFld v 0 0 0))

/-- QCTL_SUSPEND: a write of QCTL with SUSP = 1. -/
def execQctlSuspend (v : DWord) : State → Host.Outcome State Fault Refusal := commit (hostPut 0 0x31 (setFld v 6 6 1))

/-- QCTL_RESUME: a write of QCTL with SUSP = 0. -/
def execQctlResume (v : DWord) : State → Host.Outcome State Fault Refusal := commit (hostPut 0 0x31 (setFld v 6 6 0))

/-- TSCTL_OPEN: a write of TSCTL with EN = 1. -/
def execTsctlOpen (v : DWord) : State → Host.Outcome State Fault Refusal := commit (hostPut 0 0x39 (setFld v 0 0 1))

/-- TSCTL_CLOSE: a write of TSCTL with EN = 0. -/
def execTsctlClose (v : DWord) : State → Host.Outcome State Fault Refusal := commit (hostPut 0 0x39 (setFld v 0 0 0))

/-- TSPTR_HEAD_WRITE. -/
def execTsptrHeadWrite (v : DWord) : State → Host.Outcome State Fault Refusal := commit (hostPut 0 0x3B v)

/-- FQPTR_HEAD_WRITE. -/
def execFqptrHeadWrite (v : DWord) : State → Host.Outcome State Fault Refusal := commit (hostPut 0 0x1F v)

/-- RTFAIL_ACK: a write of 1 to RTFAIL of the core that is the subject (R18). -/
def execRtfailAck (v : DWord) : State → Host.Outcome State Fault Refusal := fun s =>
  commit (hostPut (subjAt s 0) 0x02 (setFld v 3 3 1)) s

end Sys2Proof.Machine
end

