-- ==== Sys2Proof/Machine/Queues.lean ====
section
/-! DEFINITION. The queue front-end: packet checks, the work area, placement, pre-emption and restore,
arbitration, rotation (15: R344 to R364; 04: R120 to R122), post and qreset (R366, R367). -/

namespace Sys2Proof.Machine

/-! ## Sizes (R355, R358) -/

/-- A quotient rounded up to a multiple. -/
def roundUpTo (n m : Nat) : Nat := ceilDiv n m * m

/-- Groups, granules of a group, blocks of a launch. -/
def pktGroups (l : Launch) : Nat := pktF l 1 47 44 + 1
def pktGrans (l : Launch) : Nat := ceilDiv (pktF l 3 63 57) 16
def pktBlocks (l : Launch) : Nat := (pktF l 2 53 48 + 1) * (pktF l 2 47 44 + 1) * (pktF l 2 43 38 + 1)
/-- Private bytes of a group. -/
def pktPriv (l : Launch) : Nat := 128 * pktF l 1 23 8
/-- The entry dwords. -/
def copyEnt (l : Launch) : DWord := l.pkt.getD 4 0
def vecEnt (l : Launch) : DWord := l.pkt.getD 5 0
def matEnt (l : Launch) : DWord := l.pkt.getD 6 0
/-- Group g is a vector group. -/
def pktVec (l : Launch) (g : Nat) : Bool := bit (pktF l 1 39 24) g

/-- IMG of a launch's blocks. -/
def imgSize (l : Launch) : Nat :=
  roundUpTo (8192 + pktGroups l * (8192 + 2048 * pktGrans l) + 4096 * pktF l 3 56 48 + 512 * pktF l 3 39 33 +
    (if matEnt l == 0 then 0 else 20480 + 1024 * pktF l 3 47 40)) 65536

/-- IMG of a spawned block (R359). -/
def spawnImg (l : Launch) : Nat := roundUpTo (16384 + 2048 * pktGrans l) 65536

/-- The core of a block by its number, and its blkid. -/
def blockCore (l : Launch) (n : Nat) : Nat :=
  let i := n / (pktF l 2 43 38 + 1)
  let w := pktF l 2 53 48 + 1
  coreAt (pktF l 2 63 58 + i % w) (pktF l 2 57 54 + i / w)
def blockBlkid (l : Launch) (n : Nat) : Nat := n % (pktF l 2 43 38 + 1)

/-! ## The checks of a packet (R350) -/

/-- Must-be-0 fields, COMPAT bits the device does not honour among them (R423). -/
def mustBeZero (s : State) (l : Launch) : Bool :=
  pktF l 1 40 40 != 0 || pktF l 1 7 0 != 0 || pktF l 1 39 24 / 2 ^ pktGroups l != 0 || pktF l 2 37 0 != 0 ||
  pktF l 3 32 32 != 0 || (l.pkt.drop 12).any (· != 0) || (l.pkt.getD 11 0 &&& ~~~s.idn.errwin) != 0

/-- The cores of the rectangle. -/
def rectCores (l : Launch) : List Nat :=
  (List.range (pktF l 2 47 44 + 1)).flatMap (fun y => (List.range (pktF l 2 53 48 + 1)).map (fun x =>
    coreAt (pktF l 2 63 58 + x) (pktF l 2 57 54 + y)))

/-- A core is out of service (R16, R17). -/
def coreOut (s : State) (c : Nat) : Bool :=
  fld s.idn.cap (26 + clusterOf c) (26 + clusterOf c) == 0 || !bit (getCore s c).corestat.toNat 0

/-- Side and height of a subgroup's instances (R356). -/
def subgSide : Nat → Nat × Nat
  | 1 => (2, 2)
  | 2 => (4, 4)
  | 3 => (8, 8)
  | 4 => (16, 8)
  | _ => (1, 1)

/-- An entry that is 0, not global, or no word address. -/
def entBad (e : DWord) : Bool := e == 0 || fld e 63 56 != 0 || e.toNat % 4 != 0

/-- Some group has a role. -/
def someRole (l : Launch) (vec : Bool) : Bool := (List.range (pktGroups l)).any (fun g => pktVec l g == vec)

/-- The refusal code of a packet of a queue, 0 when it passes. -/
def refusal (s : State) (q : Queue) (l : Launch) : Nat :=
  let side := subgSide (pktF l 1 51 48)
  let x0 := pktF l 2 63 58
  let y0 := pktF l 2 57 54
  let w := pktF l 2 53 48 + 1
  let h := pktF l 2 47 44 + 1
  if pktF l 1 55 52 != 1 || mustBeZero s l then 1
  else if 48 < x0 + w || 16 < y0 + h then 2
  else if (rectCores l).any (coreOut s) then 3
  else if 4 < pktF l 1 51 48 || x0 % side.1 != 0 || w % side.1 != 0 || y0 % side.2 != 0 || h % side.2 != 0 then 4
  else if pktF l 3 63 57 = 0 || 112 < pktF l 3 63 57 || 96 < pktGroups l * pktGrans l || 256 < pktF l 3 56 48 ||
      128 < pktF l 3 47 40 || 64 < pktF l 3 39 33 then 5
  else if pktF l 3 47 40 != 0 && matEnt l == 0 then 6
  else if (someRole l false && entBad (copyEnt l)) || (someRole l true && entBad (vecEnt l)) ||
      (matEnt l != 0 && entBad (matEnt l)) || (l.pkt.getD 7 0).toNat % 8 != 0 || (l.pkt.getD 10 0).toNat % 8 != 0 then 7
  else if fld q.ctl 3 3 = 0 && (frankOf l != fld q.ctl 63 56 || l.pkt.getD 9 0 != 0 || launchMchk l) then 8
  else if 65536 * fld q.work 15 0 < imgSize l * pktBlocks l then 9
  else 0

/-! ## The work area (R346, R357 to R359) -/

/-- Areas with rising bases. -/
def insArea (a : Nat × Nat) : List (Nat × Nat) → List (Nat × Nat)
  | [] => [a]
  | b :: l => if a.1 ≤ b.1 then a :: b :: l else b :: insArea a l
def sortAreas (l : List (Nat × Nat)) : List (Nat × Nat) := l.foldl (fun m a => insArea a m) []

/-- The free runs of [lo, hi) between used areas. -/
def gapsOf (lo hi : Nat) : List (Nat × Nat) → List (Nat × Nat)
  | [] => if lo < hi then [(lo, hi - lo)] else []
  | a :: l => (if lo < a.1 then [(lo, min a.1 hi - lo)] else []) ++ gapsOf (max lo (a.1 + a.2)) hi l

/-- The areas in use of a queue's work area. -/
def usedAreas (s : State) (q : Nat) : List (Nat × Nat) :=
  let mine (n : Nat) : Bool :=
    match mfind s.mail.launches n with
    | some l => l.queue == q
    | none => false
  (s.mail.launches.filter (fun e => e.2.queue == q)).flatMap (fun e => e.2.reserve) ++
  (s.blocks.filter (fun e => mine e.2.launch)).flatMap (fun e => e.2.areas) ++
  (s.mail.saved.filter (fun x => mine x.blk.launch)).flatMap (fun x => x.blk.areas)

/-- The free runs of a queue's work area when some areas are in use. -/
def workGaps (x : Queue) (used : List (Nat × Nat)) : List (Nat × Nat) :=
  let lo := fld x.work 55 16 * 65536
  gapsOf lo (lo + fld x.work 15 0 * 65536) (sortAreas (used.filter (fun a => a.2 != 0)))

/-- n pieces of a size from the lowest runs that hold them; `none` when they do not fit. -/
def takeRuns (size : Nat) : Nat → List (Nat × Nat) → Option (List (Nat × Nat))
  | 0, _ => some []
  | _ + 1, [] => none
  | n + 1, g :: gs =>
    if size = 0 then some []
    else
      let k := min (n + 1) (g.2 / size)
      match takeRuns size (n + 1 - k) gs with
      | some l => some (if k = 0 then l else (g.1, k * size) :: l)
      | none => none

/-- n separate areas of a size. -/
def splitRuns (size : Nat) (l : List (Nat × Nat)) : List (Nat × Nat) :=
  if size = 0 then []
  else l.flatMap (fun a => (List.range (a.2 / size)).map (fun i => (a.1 + i * size, size)))

/-- Areas for n groups' private memory; an empty size takes none. -/
def takePriv (x : Queue) (used : List (Nat × Nat)) (size n : Nat) : Option (List (Nat × Nat)) :=
  if size = 0 then some ((List.range n).map (fun _ => (fld x.work 55 16 * 65536, 0)))
  else (takeRuns size n (workGaps x used)).map (splitRuns size)

/-- Address of image i among runs of images of a size. -/
def imageAt (size : Nat) (l : List (Nat × Nat)) (i : Nat) : Nat := ((splitRuns size l).getD i (0, 0)).1

/-! ## Budgets of a partition (R21, R215, R355) -/

/-- What a block needs of its partition and core. -/
structure Budget where
  groups : Nat
  grans  : Nat
  win    : Nat
  spad   : Nat
  obuf   : Option Nat
  deriving DecidableEq, Repr

/-- The budget of a launch's blocks. -/
def budgetOf (l : Launch) : Budget :=
  { groups := pktGroups l, grans := pktGrans l, win := pktF l 3 39 33, spad := 4096 * pktF l 3 56 48
    obuf := if matEnt l == 0 then none else some (pktF l 3 47 40) }

/-- The budget of a spawned group's block. -/
def spawnBudget (l : Launch) : Budget := { groups := 1, grans := pktGrans l, win := 0, spad := 0, obuf := none }

/-- The budget of a block. -/
def blockBudget (l : Launch) (b : Block) : Budget := if b.spawned then spawnBudget l else budgetOf l

/-- Free slots of a partition, lowest first. -/
def freeSlots (s : State) (p : Nat) : List Nat := (List.range 16).filter (fun i => (mfind s.groups (16 * p + i)).isNone)

/-- Granules that the groups of a partition hold. -/
def gransUsed (s : State) (p : Nat) : Nat :=
  ((s.groups.filter (fun e => partOfG e.1 == p)).map (fun e => e.2.grans)).foldl (· + ·) 0

/-- Blocks on a core. -/
def blocksOn (s : State) (c : Nat) : List (Nat × Block) := s.blocks.filter (fun e => e.2.core == c)

/-- A partition meets the budgets that are its own: slots, granules, sequencer, units. -/
def partFits (s : State) (c i : Nat) (x : Budget) : Bool :=
  let p := 4 * c + i
  let here := (blocksOn s c).filter (fun e => e.2.part == i && e.2.mat.isSome)
  !bit (getCore s c).corestat.toNat (16 + i) && decide (x.groups ≤ (freeSlots s p).length) &&
  decide (gransUsed s p + x.groups * x.grans ≤ 96) && (x.obuf.isNone || here.isEmpty)

/-- The first partition of a core, upward from one, that meets a budget. -/
def findPart (s : State) (c from_ : Nat) (x : Budget) : Option Nat :=
  ((List.range 4).map (fun i => (from_ + i) % 4)).find? (fun i => partFits s c i x)

/-- A core's region table has room. -/
def winFits (s : State) (c : Nat) (x : Budget) : Bool :=
  decide (((blocksOn s c).map (fun e => e.2.winN)).foldl (· + ·) 0 + x.win ≤ 64)

/-- The lowest free scratchpad range of a size. -/
def spadFind (s : State) (c size : Nat) : Option Nat :=
  if size = 0 then some 0
  else
    ((gapsOf 0 0x100000 (sortAreas (((blocksOn s c).map (fun e => (e.2.spBase, e.2.spSize))).filter (fun a => a.2 != 0)))).find?
      (fun g => decide (size ≤ g.2))).map (·.1)

/-- A scratchpad range is free. -/
def spadFree (s : State) (c base size : Nat) : Bool :=
  size == 0 || (blocksOn s c).all (fun e => e.2.spSize == 0 || !overlap base size e.2.spBase e.2.spSize)

/-- A scratchpad range filled with bytes. -/
def spadFill (c base size : Nat) (bs : List Byte) : Eff := fun s =>
  let lo := spadKey c base
  let old := (s.spad.filter (fun e => decide (lo ≤ e.1) && decide (e.1 < lo + size))).map (fun e => ((e.1, 0) : Host.Cell))
  [.spad old, .spad (cellsAt lo bs)]

/-! ## Placement (R21, R95, R126, R130, R195, R355) -/

/-- Uniform registers from an argument area. -/
def argRegs (args : List DWord) : Regs :=
  { u := { k := args.zipIdx.foldl (fun m e => mset 0 m e.2 e.1) [] } }

/-- The 512 argument bytes of a launch as dwords, all zero without ARGS, or a fault. -/
def readArgs (s : State) (l : Launch) : List DWord ⊕ (Nat × Nat) :=
  let a := fld (l.pkt.getD 7 0) 55 0
  if l.pkt.getD 7 0 == 0 then .inl []
  else
    match frontRead s (getQueue s l.queue).tctx a 512 with
    | .inl bs => .inl ((List.range 64).map (fun i => BitVec.ofNat 64 (ofBytes ((bs.drop (8 * i)).take 8))))
    | .inr f => .inr f

/-- A line of the arguments carries an error, or lies behind a port whose device has been removed (R376, R442). -/
def argsDead (s : State) (l : Launch) : Option Nat :=
  if l.pkt.getD 7 0 == 0 then none
  else
    match frontPieces s (getQueue s l.queue).tctx .acq (fld (l.pkt.getD 7 0) 55 0) 512 with
    | .inl ps => poisoned s (physRuns s ps)
    | .inr _ => none

/-- The arguments lie on a page that a migration has blocked. -/
def argsBlocked (s : State) (l : Launch) : Bool :=
  l.pkt.getD 7 0 != 0 && frontBlocked s (getQueue s l.queue).tctx .acq (fld (l.pkt.getD 7 0) 55 0) 512

/-- The reading of the arguments counted. -/
def countArgs (l : Launch) : Eff := fun s =>
  Eff.when (l.pkt.getD 7 0 != 0)
    (countFront (frankOf l) (getQueue s l.queue).tctx (fld (l.pkt.getD 7 0) 55 0) 512) s

/-- A path counter for every lane of a mask. -/
def pcsAt (m : Word) (pc : DWord) : Map DWord := (lanesOf m).foldl (fun x l => mset 0 x l pc) []

/-- Format registers at a start: the kernel's .fmt images, the reset image elsewhere (R77, R122, R421). -/
def withFmts (l : Launch) (r : Regs) : Regs := { r with u := { r.u with kf := l.fmts } }

/-- A group at its start. -/
def newGroup (uid blk : Nat) (vec : Bool) (grans : Nat) (live : Word) (regs : Regs) (pc : DWord) (priv : Bool)
    (pbase : Nat) : Group :=
  { uid := uid, blk := blk, vector := vec, grans := grans, live := live, u := { regs := regs }
    sched := { pc := pcsAt live pc }, tr := { privMode := priv }, pbase := BitVec.ofNat 64 pbase }

/-- The numbered barriers of a block's parties: (party, mask) pairs, as they stand before anything has happened at them. -/
def startBars (ps : List (Nat × Nat)) : Map Bar :=
  (List.range 16).filterMap (fun n =>
    match (ps.filter (fun p => bit p.2 n)).map (·.1) with
    | [] => none
    | ms => some (n, { members := ms, now := { cyc := 0, base := { members := ms } } }))

/-- The launch number that a block's placement would use: its areas, or none when the work area is short. -/
def blockAreas (s : State) (l : Launch) : Option (List (Nat × Nat) × List (Nat × Nat)) :=
  let x := getQueue s l.queue
  let used := usedAreas s l.queue
  let res := if l.next = 0 then takeRuns (imgSize l) (pktBlocks l) (workGaps x used) else some l.reserve
  match res with
  | none => none
  | some r =>
    match takePriv x (if l.next = 0 then used ++ r else used) (pktPriv l) (pktGroups l) with
    | some ps => some (r, ps)
    | none => none

/-- The blocks of a launch that are not yet placed, ascending. -/
def unplaced (l : Launch) : List Nat :=
  (List.range (pktBlocks l)).filter (fun i => decide (l.next ≤ i) && !l.ahead.contains i)

/-- A launch with a block placed. -/
def withPlaced (l : Launch) (i : Nat) : Launch :=
  if i = l.next then { l with next := (unplaced { l with next := i + 1 }).headD (pktBlocks l) }
  else { l with ahead := l.ahead ++ [i] }

/-- Where block i of a launch goes: partition, scratchpad base, reserve, private areas. -/
def placeWhere (s : State) (l : Launch) (i : Nat) : Option (Nat × Nat × List (Nat × Nat) × List (Nat × Nat)) :=
  let c := blockCore l i
  let x := budgetOf l
  match findPart s c (blockBlkid l i % 4) x, spadFind s c x.spad, blockAreas s l with
  | some p, some base, some (r, ps) => if winFits s c x then some (p, base, r, ps) else none
  | _, _, _ => none

/-- The block, groups and stream of a placement of block i. -/
def placeAt_ (n : Nat) (l : Launch) (i : Nat) (args : List DWord) (p base : Nat) (r ps : List (Nat × Nat)) : Eff := fun s =>
  let c := blockCore l i
  let q := getQueue s l.queue
  let blk := s.nextId
  let ng := pktGroups l
  let regs := withFmts l (argRegs args)
  let uid (g : Nat) : Nat := blk + 1 + g
  let mat := matEnt l != 0
  let parties := (List.range ng).map (fun g => (groupParty (uid g), if pktVec l g then pktF l 3 15 0 else pktF l 3 31 16)) ++
    (if mat then [(streamParty blk, 0xFFFF)] else [])
  let b : Block :=
    { launch := n, num := i, blkid := blockBlkid l i, core := c, part := p, spBase := base
      spSize := 4096 * pktF l 3 56 48, winN := pktF l 3 39 33, tctx := q.tctx, since := s.clk.cyc, spawned := false
      low := (freeSlots s (4 * c + p)).getD 0 0
      nbars := startBars parties, mat := (if mat then some { units := pktF l 3 47 40 } else none), areas := ps }
  let slots := freeSlots s (4 * c + p)
  let groups := (List.range ng).map (fun g =>
    Upd.group (16 * (4 * c + p) + slots.getD g 0)
      (newGroup (uid g) blk (pktVec l g) (pktGrans l) (BitVec.allOnes 32) regs (if pktVec l g then vecEnt l else copyEnt l)
        l.priv (ps.getD g (0, 0)).1))
  spadFill c base b.spSize [] s ++ [.block blk b] ++ groups ++
  (if mat then [.stream (4 * c + p) { blk := blk, u := { regs := regs }, pc := matEnt l }] else []) ++
  [.mail { s.mail with launches := mput s.mail.launches n { withPlaced l i with reserve := r } },
   .nextId (blk + 1 + ng)]

/-- Block i of a launch is placed; a fault of ARGS kills the launch (R350), an error in a line of it is a machine check. None when
it cannot be placed now. -/
def placeBlock (s : State) (n : Nat) (l : Launch) (i : Nat) : Option Eff :=
  match placeWhere s l i with
  | none => none
  | some (p, base, r, ps) =>
    if argsBlocked s l then none
    else
      match readArgs s l, argsDead s l with
      | .inr (cause, va), _ =>
        some (Eff.seq (frontFault (getQueue s l.queue).tctx (frankOf l) .load cause va) (killLaunch n 2 cause))
      | .inl _, some line => some (frontDead (homeUnit s (blockCore l i) line) n line)
      | .inl args, none =>
        some (Eff.all [countArgs l, placeAt_ n l i args p base r ps, Eff.when (l.next == 0) (launchCard 9 l 0 l.addr)])

/-- The front-end at a card-emission point of a launch (R397). -/
def frontPoint (n : Nat) (l : Launch) (eff : Eff) (s : State) : Option Eff := cardPoint (pkgSrc 7) n (frankOf l) eff s

/-- The front-end is stalled at such a point: it does nothing else. -/
def frontHeld (s : State) : Bool := engineHeld s (pkgBuf s) (srcNum (pkgSrc 7))

/-! ## Pre-emption and restore (R249, R360 to R362) -/

/-- The address of a block's save image. -/
def imageOf (l : Launch) (b : Block) : Nat :=
  if b.spawned then ((b.areas.find? (fun a => a.2 == spawnImg l && a.2 != 0)).getD (0, 0)).1
  else imageAt (imgSize l) l.reserve b.num

/-- The runs of physical memory, address and length, where a block's save image lies in its queue's address space, page by page,
or the cause and address of the first fault. -/
def imageRuns (s : State) (l : Launch) (b : Block) (a : Acc) : List (Nat × Nat) ⊕ (Nat × Nat) :=
  match frontPieces s b.tctx a (imageOf l b) (if b.spawned then spawnImg l else imgSize l) with
  | .inr f => .inr f
  | .inl ps =>
    .inl (ps.flatMap (fun p =>
      match p.place with
      | .phys f _ => [(f, p.len)]
      | .repl _ reps off => reps.map (fun r => (pkgAddr s r.1 (r.2 + off), p.len))
      | _ => []))

/-- A migration has blocked a page of an image (R289). -/
def imageBlocked (s : State) (l : Launch) (b : Block) : Bool :=
  match imageRuns s l b .store with
  | .inl rs => (blockedBy s (rs.map (fun r => (r.1, r.2, false)))).isSome
  | .inr _ => false

/-- What memory lists in some runs. The bytes of an image are the device's own: the model keeps the context beside
it, leaves memory as it was, and takes the check word to be right while nothing else has written there (log entry 48). -/
def cellsIn (s : State) (rs : List (Nat × Nat)) : List Host.Cell :=
  s.mem.filter (fun x => rs.any (fun r => decide (r.1 ≤ x.1) && decide (x.1 < r.1 + r.2)))

/-- Runs written or read by a package unit counted at their tiers (R411). -/
def countRuns (frank : Nat) (rs : List (Nat × Nat)) : Eff := Eff.forEach rs (fun r => countAt frank r.1 r.2)

/-- A PREEMPT or RESTORE card. -/
def imageCard (ty : Nat) (l : Launch) (b : Block) : Eff :=
  launchCard ty l (b.num * 2 ^ 32) (BitVec.ofNat 64 (imageOf l b))

/-- A group has come to an instruction boundary with its stores performed and its releases recorded. -/
def groupQuiet (g : Group) : Bool :=
  g.sq.all (fun e => !notHold e) && g.u.pend.isEmpty && g.u.outs.all (fun o => o.sq.isNone) &&
  match g.u.wait with
  | some w =>
    match w.kind with
    | .migration _ => false
    | .tlbinv _ _ => false
    | .saves _ => false
    | .resets _ _ _ => false
    | .retry (.watch _) => false
    | _ => true
  | none => true

/-- A block may be saved now: its stores are performed at package scope, its copies have their final postmarks, its engine
operations have finished, but for a load after which nothing has issued, which stops at a row boundary (R184, R306, R361). -/
def saveReady (s : State) (blk : Nat) : Bool :=
  match mfind s.blocks blk with
  | none => false
  | some b =>
    (groupsOfBlk s blk).all (fun e => groupQuiet e.2 && s.coh.homeq.all (fun w => w.uid != e.2.uid)) && s.coh.reps.isEmpty &&
    (match streamOfBlk s blk with
     | some (_, t) => t.ops.all (fun o => some o.id == t.tail.map (·.id)) && t.u.pend.isEmpty
     | none => true) &&
    b.wins.all (fun w => w.2.state != .copyin && w.2.state != .copyout) &&
    (match mfind s.mail.launches b.launch with
     | some l => !imageBlocked s l b
     | none => true)

/-- Silent cancels of run-ahead copies, which leave their windows ABSENT. -/
def cancelRunaheads (blk : Nat) : Eff := fun s =>
  match mfind s.blocks blk with
  | none => []
  | some b => Eff.forEach (b.wins.filter (fun e => e.2.state == .runahead)) (fun e =>
      Eff.seq (cancelRunahead blk e.1) (fun s =>
        match mfind s.blocks blk with
        | some b => setWin blk e.1 { getWin b e.1 with state := .absent } s
        | none => [])) s

/-- A round.adv that waits for its turn has not acted: it issues again after the restore. -/
def unturned (u : UCtx) : UCtx :=
  match u.wait with
  | some w =>
    match w.kind with
    | .advance _ _ => reissue u
    | _ => u
  | none => u

/-- A load in flight that a pre-emption stops: the rows landed so far stay, ROWPROG names the next one, and the stream stands
at the load again (R184). -/
def stopLoad (t : Stream) (m : Matrix) : Stream × Matrix :=
  match t.tail with
  | none => (t, m)
  | some x =>
    match t.ops.find? (fun o => o.id == x.id) with
    | none => (t, m)
    | some o =>
      match o.kind with
      | .load _ _ _ _ first =>
        ({ t with ops := [], pc := x.pc, loop := x.loop, tail := none, u := { t.u with wait := none } },
         { m with rowprog := rowprogOf x.reg first })
      | _ => (t, m)

/-- A block's context is written to its image and its resources are freed; an image behind a port whose device has been removed is a
machine check of the launch (R442). -/
def saveBlock (blk : Nat) : Eff :=
  Eff.seq (cancelRunaheads blk) (fun s =>
    match mfind s.blocks blk with
    | none => []
    | some b =>
      let l := mfind s.mail.launches b.launch
      let rs := l.bind (fun l => (imageRuns s l b .store).getLeft?)
      match (rs.getD []).find? (fun r => portGone s r.1) with
      | some r => frontDead (7, b.core) b.launch (lineOf r.1) s
      | none =>
      let gs := (groupsOfBlk s blk).map (fun e => (slotOfG e.1, { e.2 with u := unturned (settle e.2.u s.fresh), sq := [] }))
      let st := streamOfBlk s blk
      let halted := st.map (fun e => stopLoad { e.2 with u := settle e.2.u s.fresh } (b.mat.getD {}))
      let x : Saved :=
        { id := blk, blk := { b with mat := b.mat.map (fun m => (halted.map (·.2)).getD m) }, groups := gs
          stream := halted.map (·.1)
          spad := readBytes s.spad (blkByte b 0) b.spSize
          image := rs.map (cellsIn s) }
      (groupsOfBlk s blk).map (fun e => Upd.delGroup e.1) ++
      (match st with
       | some (p, _) => [.delStream p]
       | none => []) ++
      [.delBlock blk, .mail { s.mail with saved := s.mail.saved ++ [x] }, .fresh (s.fresh + 1)] ++
      (match l with
       | some l => Eff.seq (countRuns (frankOf l) (rs.getD [])) (imageCard 12 l b) s
       | none => []))

/-- The partition where a saved block may be restored. -/
def restoreWhere (s : State) (l : Launch) (x : Saved) : Option Nat :=
  let c := x.blk.core
  let y := blockBudget l x.blk
  if spadFree s c x.blk.spBase x.blk.spSize && winFits s c y then
    findPart s c (x.blk.blkid % 4) y
  else none

/-- A saved block is restored on a partition of its core. -/
def restoreAt (l : Launch) (x : Saved) (p : Nat) : Eff := fun s =>
  let c := x.blk.core
  let slots := freeSlots s (4 * c + p)
  let b := { x.blk with part := p, since := s.clk.cyc, low := if x.groups.isEmpty then x.blk.low else slots.getD 0 0 }
  spadFill c b.spBase b.spSize x.spad s ++ [.block x.id b] ++
  x.groups.zipIdx.map (fun e => Upd.group (16 * (4 * c + p) + slots.getD e.2 0) e.1.2) ++
  (match x.stream with
   | some t => [.stream (4 * c + p) t]
   | none => []) ++
  [.mail { s.mail with saved := s.mail.saved.filter (fun y => y.id != x.id) }] ++
  Eff.seq (countRuns (frankOf l) (((imageRuns s l x.blk .load).getLeft?).getD [])) (imageCard 13 l b) s

/-- What the front-end finds when it reads a save image. -/
inductive ImageRes
  | ok
  /-- The check word is wrong (R360). -/
  | bad
  | fault (cause va : Nat)
  | poison (line : Nat)
  /-- Behind a CXL port whose device has been removed (R442). -/
  | gone (line : Nat)

/-- A save image is read back. -/
def readImage (s : State) (l : Launch) (x : Saved) : ImageRes :=
  match imageRuns s l x.blk .load with
  | .inr (c, va) => .fault c va
  | .inl rs =>
    match rs.find? (fun r => portGone s r.1),
        s.coh.poison.find? (fun n => rs.any (fun r => decide (r.1 < 128 * n.1 + 128) && decide (128 * n.1 < r.1 + r.2))) with
    | some r, _ => .gone (lineOf r.1)
    | none, some n => .poison n.1
    | none, none => if x.image == some (cellsIn s rs) then .ok else .bad

/-- A saved block is restored from its image. A wrong check word, or a fault of the read, kills the launch instead (R360,
R365); a poisoned line is a machine check of it (R376). -/
def restoreBlock (l : Launch) (x : Saved) (p : Nat) : Eff := fun s =>
  match readImage s l x with
  | .ok => restoreAt l x p s
  | .bad => killLaunch x.blk.launch 2 18 none s
  | .fault c va => Eff.seq (frontFault x.blk.tctx (frankOf l) .load c va) (killLaunch x.blk.launch 2 c) s
  | .poison n => frontDead (10, x.blk.core) x.blk.launch n s
  | .gone n => frontDead (7, x.blk.core) x.blk.launch n s

/-- The oldest saved block of a launch, on a core if one is named. -/
def oldestSaved (s : State) (n : Nat) (core : Option Nat) : Option Saved :=
  s.mail.saved.find? (fun x => x.blk.launch == n && (core.isNone || core == some x.blk.core))

/-- The next block of a launch is restored or placed: saved blocks first (R362). None when it cannot be now. -/
def serveNext (s : State) (n : Nat) (l : Launch) : Option Eff :=
  match oldestSaved s n none with
  | some x => if imageBlocked s l x.blk then none else (restoreWhere s l x).map (restoreBlock l x)
  | none => if l.next < pktBlocks l then placeBlock s n l l.next else none

/-! ## Eligibility and arbitration (R352 to R354) -/

/-- The launches of a queue, oldest first. -/
def launchesOf (s : State) (q : Nat) : List (Nat × Launch) := s.mail.launches.filter (fun e => e.2.queue == q)

/-- The head of a queue: its oldest launch with blocks not yet placed, but for one that is being killed. -/
def headOfQ (s : State) (q : Nat) : Option (Nat × Launch) :=
  (launchesOf s q).find? (fun e => decide (e.2.next < pktBlocks e.2) && e.2.dying.isNone)

/-- A queue's SUSP. -/
def suspended (s : State) (q : Nat) : Bool := fld (getQueue s q).ctl 6 6 == 1

/-- The queue of a block's launch is suspended and its blocks are being saved (R364), or the launch is being killed: its groups
and streams issue nothing. -/
def blkHeld (s : State) (blk : Nat) : Bool :=
  match launchOfBlk s blk with
  | some l => suspended s l.queue || l.dying.isSome
  | none => true

/-- A head is eligible. -/
def eligible (s : State) (n : Nat) (l : Launch) : Bool :=
  let q := getQueue s l.queue
  fld q.ctl 0 0 == 1 && !suspended s l.queue && decide ((l.pkt.getD 9 0).toNat ≤ (timeReg s.clk).toNat) &&
  (pktF l 1 43 43 == 0 || (launchesOf s l.queue).all (fun e => decide (n ≤ e.1)))

/-- A head is late. -/
def isLate (s : State) (l : Launch) : Bool :=
  l.next == 0 && l.pkt.getD 8 0 != 0 && decide ((l.pkt.getD 8 0).toNat < (timeReg s.clk).toNat)

/-- The effective deadline (R353). -/
def effDeadline (s : State) (l : Launch) : Nat :=
  let d := (l.pkt.getD 8 0).toNat
  if isLate s l then (timeReg s.clk).toNat else if d = 0 then 2 ^ 64 - 1 else d

/-- What an arbitration does with a head that is late, eligible or not: DROP ends it with DEADLINE; RUN emits its LATE card
once (R354). None when there is nothing to do. -/
def lateStep (s : State) (q : Nat) : Option Eff :=
  match headOfQ s q with
  | none => none
  | some (n, l) =>
    if !isLate s l || frontHeld s then none
    else if fld (getQueue s q).ctl 4 4 = 1 then
      some (Eff.seq (storeMark l (launchMark l.seq 4 0 0)) (dropLaunch n))
    else if l.late then none
    else
      frontPoint n l (Eff.seq (fun s => [.mail { s.mail with launches := mput s.mail.launches n { l with late := true } }])
        (launchCard 11 l 0 (l.pkt.getD 8 0))) s

/-- A launch with saved blocks that may be restored, or an eligible head that is not held for its LATE card. -/
def candidate (s : State) (n : Nat) (l : Launch) : Bool :=
  l.dying.isNone &&
  ((oldestSaved s n none).isSome && !suspended s l.queue ||
   headOfQ s l.queue == some (n, l) && eligible s n l && (!isLate s l || l.late))

/-- The cores on which a launch has a block waiting. -/
def waitingCores (s : State) (n : Nat) (l : Launch) : List Nat :=
  ((s.mail.saved.filter (fun x => x.blk.launch == n)).map (fun x => x.blk.core)) ++
  (unplaced l).map (blockCore l)

/-- Candidates in the order in which they are served: effective deadline, queue, age. -/
def insCand (s : State) (a : Nat × Launch) : List (Nat × Launch) → List (Nat × Launch)
  | [] => [a]
  | b :: l =>
    let ka := effDeadline s a.2
    let kb := effDeadline s b.2
    if ka < kb || (ka == kb && a.2.queue < b.2.queue) then a :: b :: l else b :: insCand s a l

/-- The launches that may be served, in order. -/
def served (s : State) : List (Nat × Launch) :=
  (s.mail.launches.filter (fun e => candidate s e.1 e.2)).foldl (fun m a => insCand s a m) []

/-- The core of a launch's next block. -/
def nextCore (s : State) (n : Nat) (l : Launch) : Nat :=
  match oldestSaved s n none with
  | some x => x.blk.core
  | none => blockCore l l.next

/-- The first block that can be placed or restored in that order; a core where a launch of a smaller effective deadline waits
takes none (R353). `held` lists the cores where the earlier launches wait, with their deadlines. -/
def placeFirst (s : State) : List (Nat × Launch) → List (Nat × Nat) → Option Eff
  | [], _ => none
  | (n, l) :: rest, held =>
    let d := effDeadline s l
    match (if held.any (fun h => h.1 == nextCore s n l && decide (h.2 < d)) then none else serveNext s n l) with
    | some eff => frontPoint n l eff s
    | none => placeFirst s rest (held ++ (waitingCores s n l).map (fun c => (c, d)))

/-- One arbitration: late heads first, then one block. None when it changes nothing, or the front-end is stalled. -/
def arbitrate (s : State) : Option Eff :=
  if s.mail.launches.isEmpty || frontHeld s then none
  else
    match (List.range 64).findSome? (lateStep s) with
    | some eff => some eff
    | none => placeFirst s (served s) []

/-! ## Suspension and rotation (R363, R364) -/

/-- The resident blocks of suspended queues that may be saved now. -/
def savable (s : State) : List Nat :=
  (s.blocks.filter (fun e =>
    (match mfind s.mail.launches e.2.launch with
     | some l => suspended s l.queue && l.dying.isNone
     | none => false) && saveReady s e.1)).map (·.1)

/-- A group waits at a cluster or package barrier or at mon.wait. -/
def rotGroup (g : Group) : Bool :=
  match g.u.wait with
  | some w =>
    match w.kind with
    | .barWait _ key _ => decide (16 ≤ key)
    | .arrive key (some _) => decide (16 ≤ key)
    | .monWait _ _ => true
    | _ => false
  | none => false

/-- A stream waits at mbar.wait or a ring form. -/
def rotStream (t : Stream) : Bool :=
  match t.u.wait with
  | some w =>
    match w.kind with
    | .barWait _ _ _ => true
    | .ringPut _ _ => true
    | .ringGet _ _ => true
    | .ringWait _ _ _ => true
    | _ => false
  | none => false

/-- The condition of R363 for a launch. -/
def rotCond (s : State) (n : Nat) (l : Launch) : Bool :=
  let bs := s.blocks.filter (fun e => e.2.launch == n)
  (decide (l.next < pktBlocks l) || (oldestSaved s n none).isSome) && !bs.isEmpty &&
  bs.all (fun e => (groupsOfBlk s e.1).all (fun g => rotGroup g.2) &&
    match streamOfBlk s e.1 with
    | some (_, t) => rotStream t
    | none => true)

/-- The block of a launch that has been resident longest on a core. -/
def longest (s : State) (n core : Nat) : Option (Nat × Block) :=
  ((blocksOn s core).filter (fun e => e.2.launch == n)).foldl (fun m e =>
    match m with
    | some x => if e.2.since < x.2.since then some e else m
    | none => some e) none

/-- The block of a launch that waits on a core: saved ones oldest save first, then unplaced ones ascending. -/
def waitsOn (s : State) (n : Nat) (l : Launch) (core : Nat) : Option (Saved ⊕ Nat) :=
  match oldestSaved s n (some core) with
  | some x => some (.inl x)
  | none => ((unplaced l).find? (fun i => blockCore l i == core)).map .inr

/-- It cannot be placed or restored for want of resources. -/
def lacksRoom (s : State) (l : Launch) (w : Saved ⊕ Nat) : Bool :=
  match w with
  | .inl x => (restoreWhere s l x).isNone
  | .inr i => (placeWhere s l i).isNone

/-- A migration has blocked what it is placed or restored from. -/
def waitBlocked (s : State) (l : Launch) (w : Saved ⊕ Nat) : Bool :=
  match w with
  | .inl x => imageBlocked s l x.blk
  | .inr _ => argsBlocked s l

/-- The rotation on one core: its longest resident block is pre-empted, the first waiting one takes its place. -/
def rotateCore (n core : Nat) : Eff := fun s =>
  match mfind s.mail.launches n with
  | none => []
  | some l =>
    match waitsOn s n l core, longest s n core with
    | some w, some (victim, _) =>
      if !saveReady s victim then []
      else
        Eff.seq (saveBlock victim) (fun s =>
          if !(mfind s.mail.launches n).any (fun l => l.dying.isNone) then []
          else
            match w with
            | .inl x =>
              match restoreWhere s l x with
              | some p => restoreBlock l x p s
              | none => []
            | .inr i =>
              match placeBlock s n l i with
              | some eff => eff s
              | none => []) s
    | _, _ => []

/-- The cores on which a rotation of a launch acts. -/
def rotCores (s : State) (n : Nat) (l : Launch) : List Nat :=
  ((waitingCores s n l).eraseDups).filter (fun c =>
    (waitsOn s n l c).any (fun w => lacksRoom s l w && !waitBlocked s l w) &&
    match longest s n c with
    | some (b, _) => saveReady s b
    | none => false)

/-- The condition has held for 1,024 cycles and there is a core to act on. -/
def rotReady (s : State) (n : Nat) (l : Launch) : Bool :=
  match l.stuck with
  | some t => decide (t + 1024 ≤ s.clk.cyc) && l.dying.isNone && !suspended s l.queue && !(rotCores s n l).isEmpty
  | none => false

/-- A rotation: on each of those cores one block is saved and one placed or restored. -/
def rotate (n : Nat) (l : Launch) : Eff := fun s =>
  Eff.seq (Eff.forEach (rotCores s n l) (rotateCore n)) (fun s =>
    match mfind s.mail.launches n with
    | some l => [.mail { s.mail with launches := mput s.mail.launches n { l with stuck := none } }]
    | none => []) s

/-- The rotation of a launch, when it is due and its cards find room. -/
def rotStep (s : State) (n : Nat) : Option Eff :=
  match mfind s.mail.launches n with
  | none => none
  | some l => if rotReady s n l then frontPoint n l (rotate n l) s else none

/-! ## Spawned groups (R122, R359) -/

/-- The pending pigeonhole that became pending first on a core. -/
def firstPending (k : Core) : Option (Nat × Hole) :=
  k.holes.foldl (fun m e =>
    match e.2.pending, m with
    | some o, some x => if o < x.2.pending.getD 0 then some e else m
    | some _, none => some e
    | none, _ => m) none

/-- The areas of a spawned group: save image and private memory. -/
def spawnAreas (s : State) (l : Launch) : Option (List (Nat × Nat)) :=
  let x := getQueue s l.queue
  let used := usedAreas s l.queue
  match takeRuns (spawnImg l) 1 (workGaps x used) with
  | none => none
  | some im =>
    match takePriv x (used ++ im) (pktPriv l) 1 with
    | some ps => some (im ++ ps)
    | none => none

/-- Lane registers of a spawned group's threads: v0 to v3. -/
def threadRegs (ts : List (List Word)) : Regs :=
  { l := { v := ts.zipIdx.foldl (fun m t => t.1.zipIdx.foldl (fun m a => mset 0 m (32 * a.2 + t.2) a.1) m) [] } }

/-- Where the first pending group of a core goes. -/
def spawnWhere (s : State) (c : Nat) : Option (Nat × Hole × Launch × Nat × List (Nat × Nat)) :=
  match firstPending (getCore s c) with
  | none => none
  | some (n, h) =>
    match mfind s.mail.launches h.launch with
    | none => none
    | some l =>
      match findPart s c (h.part % 4) (spawnBudget l), spawnAreas s l with
      | some p, some areas => if l.dying.isSome then none else some (n, h, l, p, areas)
      | _, _ => none

/-- The first pending group of a core is placed as a block of its own. What its blkid and its block number in
cards are is left open (log entry 31). -/
def placeSpawned (c : Nat) : Eff := fun s =>
  match spawnWhere s c with
  | none => []
  | some (n, h, l, p, areas) =>
    let blk := s.nextId
    let k := getCore s c
    let free := (Config.freeValue s.fresh).toNat
    let live := maskOf (fun i => decide (i < h.threads.length))
    let b : Block :=
      { launch := h.launch, num := free % 2 ^ 32, blkid := free / 2 ^ 32 % 64, core := c, part := p, spBase := 0, spSize := 0
        winN := 0, tctx := (getQueue s l.queue).tctx, since := s.clk.cyc, spawned := true
        low := (freeSlots s (4 * c + p)).headD 0
        nbars := startBars [(groupParty (blk + 1), pktF l 3 15 0)], areas := areas }
    let g := newGroup (blk + 1) blk true (pktGrans l) live (withFmts l (threadRegs h.threads)) h.entry l.priv
      (areas.getD 1 (fld (getQueue s l.queue).work 55 16 * 65536, 0)).1
    [.core c { k with holes := mdel k.holes n }, .block blk b,
     .group (16 * (4 * c + p) + (freeSlots s (4 * c + p)).headD 0) g, .nextId (blk + 2), .fresh (s.fresh + 1)]

/-! ## The chain (R347) -/

/-- A queue's error: EN falls, a QERR card, host event 2 (R345, R439). -/
def queueError (q code : Nat) : Eff := fun s =>
  let x := getQueue s q
  Eff.all
    [setQueue q { x with ctl := setFld (setFld x.ctl 23 16 code) 0 0 0 },
     emit (pkgSrc 7) 15 255 0 (fld x.ctl 63 56) (BitVec.ofNat 64 (q + code * 256)) x.head,
     hostEvent 2] s

/-- A fault of the front-end on an anchor or a packet. -/
def queueFault (q cause va : Nat) : Eff := fun s =>
  let x := getQueue s q
  Eff.seq (frontFault x.tctx (fld x.ctl 63 56) .load cause va) (queueError q 2) s

/-- The .fmt images of the kernel of a packet: those of the kernel loaded last for the queue whose entries it names; an
entry that the kernel does not have is not compared, but for the stream's (R421). -/
def kernelFmts (s : State) (l : Launch) : Map DWord :=
  ((s.mail.kernels.find? (fun k => k.queue == l.queue && (k.copy == 0 || k.copy == copyEnt l) &&
    (k.vec == 0 || k.vec == vecEnt l) && k.mat == matEnt l)).map (·.fmts)).getD []

/-- Packet P is taken: it is numbered, its NEXT becomes the anchor, and the checks refuse or admit it. -/
def takePacket (q : Nat) (p : DWord) (bs : List Byte) : Eff := fun s =>
  let x := getQueue s q
  let pkt := (List.range 16).map (fun i => BitVec.ofNat 64 (ofBytes ((bs.drop (8 * i)).take 8)))
  let l0 : Launch := { queue := q, seq := (x.count + 1) % 65536, addr := p, pkt := pkt, priv := fld x.ctl 3 3 == 1 }
  let l : Launch := { l0 with fmts := kernelFmts s l0 }
  let code := refusal s x l
  let frank := fld x.ctl 63 56
  Eff.all [countFront frank x.tctx x.head.toNat 8, countFront frank x.tctx p.toNat 128,
    setQueue q { x with head := p, count := x.count + 1 },
    (if code = 0 then
       fun s => [.mail { s.mail with launches := mput s.mail.launches s.nextId l }, .nextId (s.nextId + 1)]
     else storeMark l (launchMark l.seq 2 0 code))] s

/-- The front-end reads the anchor of an enabled queue. None when nothing comes of it. -/
def anchorStep (s : State) (q : Nat) : Option Eff :=
  let x := getQueue s q
  if fld x.ctl 0 0 = 0 || frontHeld s then none
  else if fld x.head 63 56 != 0 || x.head.toNat % 8 != 0 then some (queueError q 1)
  else if frontBlocked s x.tctx .acq x.head.toNat 8 then none
  else
    match frontRead s x.tctx x.head.toNat 8 with
    | .inr (c, va) => some (queueFault q c va)
    | .inl bs =>
      let p := BitVec.ofNat 64 (ofBytes bs)
      if p == 0 then none
      else if fld p 63 56 != 0 || p.toNat % 128 != 0 then some (queueError q 1)
      else if frontBlocked s x.tctx .acq p.toNat 128 then none
      else
        match frontRead s x.tctx p.toNat 128 with
        | .inr (c, va) => some (queueFault q c va)
        | .inl bs => some (takePacket q p bs)

/-! ## Completion (R351) -/

/-- A launch is complete, its stores performed, its events counted. -/
def launchDone (s : State) (n : Nat) (l : Launch) : Bool :=
  l.next == pktBlocks l && s.blocks.all (fun e => e.2.launch != n) && s.mail.saved.all (fun x => x.blk.launch != n) &&
  s.cores.all (fun e => e.2.holes.all (fun h => h.2.launch != n)) && allAdded s l &&
  s.coh.homeq.all (fun w => w.frank != frankOf l) && s.coh.reps.isEmpty

/-- The completion postmark and the END card. -/
def completeLaunch (n : Nat) (l : Launch) : Eff :=
  let v := launchMark l.seq 1 0 0
  Eff.all [freeBars n, storeMark l v, launchCard 10 l 0 v, dropLaunch n]

/-! ## post (R366) -/

/-- The place of the one piece of an access. -/
def onePlace (at_ : List (Nat × List Piece)) : Option Piece := (at_.headD (0, [])).2.head?

/-- What the walk of post comes to. -/
inductive Walked
  /-- The NEXT word that holds 0. -/
  | last (p : Option Piece) (eff : Eff)
  | trap (cause lane : Nat) (addr : DWord) (eff : Eff)
  | park (why : Why) (eff : Eff)
  /-- A NEXT word in a poisoned line (R376). -/
  | dead (line : Nat)
  /-- The chain does not end. -/
  | endless

/-- The walk of post from a NEXT word to the one that holds 0. -/
def postWalk (c : Ctx) (s : State) : Nat → DWord → Walked
  | 0, _ => .endless
  | fuel + 1, t =>
    match locate s (c.who false) .atomic 8 none (uReq t) with
    | .trap cause lane addr eff => .trap cause lane addr eff
    | .park why eff => .park why eff
    | .ok at_ eff =>
      match onePlace at_ with
      | none => .last none eff
      | some p =>
        let rs := physRuns s [p]
        match blockedBy s rs, poisoned s rs with
        | some uid, _ => .park (.blocked uid) eff
        | none, some line => .dead line
        | none, none =>
          let n := BitVec.ofNat 64 (ofBytes (newestBytes s c.core p))
          let read := Eff.seq (countAccess (c.who false) .atomic 8 (uReq t)) (Eff.forEach rs (fun r => countRead c.frank r.1 r.2.1))
          if n == 0 then .last (some p) (Eff.seq eff read)
          else
            match postWalk c s fuel n with
            | .last p eff2 => .last p (Eff.seq read eff2)
            | x => x

/-- The group's entry for the word it issues. -/
def ownHold (c : Ctx) : Option SqE := c.sq.find? (fun e => e.kind == .hold c.pc)

/-- The number of that entry, or the one it would take. -/
def turnId (c : Ctx) (s : State) : Nat := ((ownHold c).map (·.id)).getD s.nextId

/-- The group's entry for the word it issues leaves its queue. -/
def popHold (c : Ctx) : Eff := onGroup c (fun g => { g with sq := g.sq.filter (fun e => e.kind != .hold c.pc) })

/-- The word waits for its turn in its entry, which it takes if it has none yet; with its turn come it arrives at the homes of its
pieces that are not ready. -/
def waitTurn (c : Ctx) (s : State) (rel : Nat) (ps : List Piece) (come : Bool) (eff : Eff) : Res :=
  .park (.retry (.turn (turnId c s) rel (pieceLines s ps)))
    (Eff.all [eff, Eff.when (ownHold c).isNone (pushSq c (.hold c.pc) 0 false []),
      Eff.when (come && relReady s rel) (claimPieces (.entry (turnId c s)) ps)])

/-- A uniform word that takes a queue entry and acts at its turn (R261, R366): with the accesses before it performed at a
scope and the homes that it writes at ready for it. -/
def inTurn (c : Ctx) (s : State) (rel : Nat) (ps : List Piece) (eff : Eff) (k : Res) : Res :=
  let ready := relReady s rel && piecesReady s (.entry (turnId c s)) ps
  match ownHold c, c.sq with
  | some e, x :: _ => if x.id == e.id && ready then k else waitTurn c s rel ps (x.id == e.id) eff
  | some _, [] => waitTurn c s rel ps true eff
  | none, [] => if ready then k else waitTurn c s rel ps true eff
  | none, sq => if sqFull sq then .park (.retry .sqFull) eff else waitTurn c s rel ps false eff

/-- POST: the front-end performs it as one operation, in arrival order. -/
def execPost (w : UniW) : State → Host.Outcome State Fault Refusal :=
  issue (.post w) (fun c s =>
    let p := BitVec.ofNat 64 (c.ua w)
    let q := c.ub w
    let status (n : Nat) : Res := .done { act := c.lanes, regs := putU w.d n, eff := popHold c }
    if fld p 63 56 != 0 then .trap 6 p c.uniLane Eff.nop
    else if p.toNat % 128 != 0 then .trap 11 p c.uniLane Eff.nop
    else if 63 < q then .trap 7 (BitVec.ofNat 64 q) c.uniLane Eff.nop
    else
      let x := getQueue s q
      if fld x.ctl 0 0 = 0 then status 1
      else if fld x.ctl 5 5 = 0 || fld x.ctl 63 56 != c.frank || fld x.tctx 11 0 != c.asid then status 2
      else
        match locate s (c.who false) .store 8 none (uReq p) with
        | .trap cause lane addr eff => .trap cause addr (if lane = 255 then c.uniLane else lane) eff
        | .park why eff => .park (.retry why) eff
        | .ok at_ eff =>
          let first := (onePlace at_).toList
          let key := Writer.entry (turnId c s)
          inTurn c s 12 first eff (
            let begin_ : Eff :=
              Eff.all [eff, countAccess (c.who false) .store 8 (uReq p), engineWrite key c.frank first (toBytes 8 0)]
            let s1 := applyAll (begin_ s) s
            match postWalk c s1 (s.mem.length + 2) x.tail with
            | .endless => waitTurn c s 12 [] true Eff.nop
            | .trap cause lane addr eff => .trap cause addr (if lane = 255 then c.uniLane else lane) eff
            | .park why eff => .park (.retry why) eff
            | .dead line => .over (poisonRead c.launch c.core line)
            | .last last eff2 =>
              if !piecesReady s1 key last.toList then waitTurn c s 12 (first ++ last.toList) true Eff.nop
              else
                .done
                  { act := c.lanes
                    regs := putU w.d 0
                    eff := Eff.all
                      [begin_, eff2, engineWrite key c.frank last.toList (toBytes 8 p.toNat),
                       fun s => setQueue q { getQueue s q with tail := p } s, popHold c] }))

/-! ## qreset (R367) -/

/-- The launches of a queue that a reset kills. -/
def resetKills (s : State) (q : Nat) : List Nat := ((launchesOf s q).filter (fun e => e.2.dying.isNone)).map (·.1)

/-- The reset of a queue waits for the kills of all its launches, one that was under way before included. -/
def markReset (q : Nat) : Eff := fun s =>
  [.mail { s.mail with launches := s.mail.launches.map (fun e => (e.1, if e.2.queue = q then { e.2 with reset := true } else e.2)) }]

/-- EN falls and the launches of a queue are killed, that of the issuing group last; with none taken and not complete, the
sessions bound to the queue end at once. -/
def resetQueue (q own uid : Nat) : Eff := fun s =>
  let ls := resetKills s q
  Eff.all
    [fun s => setQueue q { getQueue s q with ctl := setFld (getQueue s q).ctl 0 0 0 } s, markReset q,
     Eff.forEach (ls.filter (· != own)) (fun n => killLaunch n 3 0),
     Eff.forEach (ls.filter (· == own)) (fun n => killLaunch n 3 0 (some uid)),
     Eff.when (launchesOf s q).isEmpty (endBound q)] s

/-- What a kill of a launch has still to do now. -/
def killOn (n : Nat) (l : Launch) : Eff := Eff.seq (killBlocks n l) (killEnds n l endBound)

/-- No kill of a queue's reset is under way. -/
def resetOver (s : State) (q : Nat) : Bool := (launchesOf s q).all (fun e => (resetOfLaunch e.2).isNone)

/-- QRESET: the group parks until every kill is done. -/
def execQreset (w : UniW) : State → Host.Outcome State Fault Refusal :=
  issue (.qreset w) (fun c s =>
    systemOnly c
      (let q := c.ub w
       if 63 < q then .trap 7 (BitVec.ofNat 64 q) c.uniLane Eff.nop
       else
         let ls := resetKills s q
         let eff := resetQueue q c.launch c.uid
         if ls.contains c.launch then .over (Eff.seq (issueCount c { act := c.lanes }) eff)
         else if (launchesOf s q).isEmpty then .done { act := c.lanes, eff := eff, regs := putU w.d 0 }
         else .park (.resets (kNum w.d) q ls.length) eff))

end Sys2Proof.Machine
end

