-- ==== Sys2Proof/Machine/GroupEvents.lean ====
section
/-! DEFINITION. What happens to groups and streams between instructions: convergence, markers, landings, the returns of
parked forms, pigeonholes, recorded releases, ends (04: R97 to R124; 05: R133, R136, R156; 07: R196, R198; 09: R241,
R245, R246; 10: R273; 14: R337, R343). An event whose condition does not hold changes nothing. -/

namespace Sys2Proof.Machine

/-! ## Subjects -/

/-- The agent that an event's subject names: 0 and a group's place, or 1 and a stream's partition place. -/
def subjAgent (s : State) : Agent := if subjAt s 0 = 0 then .group (subjAt s 1) else .stream (subjAt s 1)

/-- The shared part of an agent. -/
def agentU (s : State) (a : Agent) : Option UCtx :=
  match a with
  | .group p => (mfind s.groups p).map (·.u)
  | .stream p => (mfind s.streams p).map (·.u)

/-- What an agent waits for. -/
def waitKind (s : State) (a : Agent) : Option WaitKind := ((agentU s a).bind (·.wait)).map (·.kind)

/-- A k register as the destination of a form that returns. -/
def setsK (d : Nat) (v : DWord) (r : Regs) : Regs := { r with u := setK r.u d v }

/-- A parked form returns a value in kD. -/
def wakeK (a : Agent) (d : Nat) (v : DWord) : Eff := wake a [.k d] (setsK d v)

/-- A group of a place changed, if it is there. -/
def atGroup (p : Nat) (f : Group → Group) : Eff := fun s =>
  match mfind s.groups p with
  | some g => [.group p (f g)]
  | none => []

/-- A group takes part in issue: it is not parked, at a marker or ending. -/
def issuing (g : Group) : Bool := g.u.wait.isNone && !g.u.mark && !g.ending && g.live != 0

/-! ## Paths (R97 to R113) -/

/-- The lanes of the paths whose age has reached AGELIM. -/
def agedLanes (limit : Nat) (g : Group) : Word :=
  (pathsOf g).foldl (fun m p => if limit ≤ pathAge g p.2 then m ||| p.2 else m) 0

/-- The forced paths of a group, brought up to date. -/
def forcePaths (limit : Nat) (g : Group) : Group := { g with sched := { g.sched with forced := agedLanes limit g } }

/-- PATH_AGE_LIMIT of a group: its paths at AGELIM are forced (R98). -/
def execPathAgeLimit : State → Host.Outcome State Fault Refusal := fun s =>
  commit (atGroup (subjAt s 0) (forcePaths (ageLimit s (coreOfG (subjAt s 0))))) s

/-- The released convergence instruction of a group, if its path still stands. -/
def releasedNow (g : Group) : Option (DWord × Word) :=
  match g.sched.released with
  | some p => if (pathsOf g).contains p then some p else none
  | none => none

/-- The path that rule 2 of R105 releases: the lowest held uniform word whose hold count has reached AGELIM. -/
def holdRelease (s : State) (place : Nat) (g : Group) : Option (DWord × Word) :=
  if !issuing g || (releasedNow g).isSome then none
  else
    (pathsOf g).find? (fun p =>
      (match pathInstr s place g p.1 with
       | some i => isUniform i
       | none => false) && decide (ageLimit s (coreOfG place) ≤ holdCount g p.2))

/-- The path that rule 1 of R105 releases: with every live lane held, the lowest held uniform word or complete
collective, else the lowest collective. -/
def convRelease (s : State) (place : Nat) (g : Group) : Option (DWord × Word) :=
  let ps := pathsOf g
  if !issuing g || (releasedNow g).isSome || ps.isEmpty || !ps.all (fun p => pathHeld s place g p.1) then none
  else
    match ps.find? (fun p => decide (ps.length = 1) ||
        match pathInstr s place g p.1 with
        | some i => isUniform i
        | none => false) with
    | some p => some p
    | none => ps.head?

/-- A held path released. -/
def releasePath (place : Nat) (p : DWord × Word) : Eff :=
  atGroup place (fun g => { g with sched := { g.sched with released := some p } })

/-- A group's path released by a rule. -/
def releaseBy (rule : State → Nat → Group → Option (DWord × Word)) (place : Nat) : Eff := fun s =>
  match mfind s.groups place with
  | none => []
  | some g =>
    match rule s place g with
    | some p => releasePath place p s
    | none => []

/-- HOLD_COUNT_LIMIT of a group. -/
def execHoldCountLimit : State → Host.Outcome State Fault Refusal := fun s => commit (releaseBy holdRelease (subjAt s 0)) s

/-- CONVERGENCE_RELEASE of a group. -/
def execConvergenceRelease : State → Host.Outcome State Fault Refusal := fun s =>
  commit (releaseBy convRelease (subjAt s 0)) s

/-- The lanes that wait at a rejoin and may go on (R112): every live lane of the group waits at the one address, or
their age has reached AGELIM. -/
def rejoinLanes (s : State) (place : Nat) (g : Group) : Word :=
  let ps := pathsOf g
  if !issuing g then 0
  else
    ps.foldl (fun m p =>
      let h := rejoinHeld s place g p
      if (decide (ps.length = 1) && h == p.2) || decide (ageLimit s (coreOfG place) ≤ pathAge g h) then m ||| h else m) 0

/-- REJOIN_RELEASE of a group. -/
def execRejoinRelease : State → Host.Outcome State Fault Refusal := fun s =>
  commit (fun s =>
    match mfind s.groups (subjAt s 0) with
    | none => []
    | some g =>
      let m := rejoinLanes s (subjAt s 0) g
      if m == 0 then []
      else [.group (subjAt s 0) { g with sched := { g.sched with passed := g.sched.passed ||| m } }]) s

/-! ## Markers and landings (R45 to R47, R133, R136) -/

/-- An agent stands at a marker and every result has landed. -/
def markerDone (u : UCtx) : Bool := u.mark && allLanded u

/-- MARKER_RELEASE of an agent: nothing is outstanding any more. -/
def execMarkerRelease : State → Host.Outcome State Fault Refusal := fun s =>
  commit (setU (subjAgent s) (fun u => if markerDone u then { u with mark := false, outs := [] } else u)) s

/-- A result of an agent may land: it waits for no atomic. -/
def landable (u : UCtx) : Bool := u.outs.any (fun o => !o.landed && o.sq.isNone)

/-- RESULT_LANDING of an agent: its oldest outstanding result lands. -/
def execResultLanding : State → Host.Outcome State Fault Refusal := fun s =>
  commit (Eff.seq (setU (subjAgent s) (fun u => landOne u s.fresh)) (fun s => [.fresh (s.fresh + 1)])) s

/-- A failed item recorded in a status word: NFAIL saturates, CODE keeps the first cause, the last under erratum 0x0019
(R136, R422). -/
def failKst (last : Bool) (cause : Nat) (v : DWord) : DWord :=
  let n := fld v 63 48
  setFld (if last || n = 0 then setFld v 47 40 cause else v) 63 48 (min 65535 (n + 1))

/-- A landing of n bytes on a completion register, with the cause of an item that an engine reports failed (R136). No engine
of the Gatur's instructions reports one: an mst, which alone counts, traps or is a machine check (log entry 45). -/
def landKc (cyc kc n : Nat) (failed : Option Nat) (last : Bool) (u : UFile) : UFile :=
  let x := kcNow cyc u kc
  let st :=
    match failed with
    | some cause => failKst last cause x.st
    | none => x.st
  kcPut kc { x with subs := x.subs + n, st := st } u

/-- A row of an mst lies behind a port whose device is gone: a machine check of the block's launch (R442). -/
def rowGone (s : State) (p blk line : Nat) : Eff :=
  poisonRead (((mfind s.blocks blk).map (·.launch)).getD 0) (p / 4) line

/-- A row of an mst that has been written lands on its completion register. -/
def countRow (cyc : Nat) (kc : Option Nat) (n : Nat) (t : Stream) : Stream :=
  match kc with
  | some k => { t with u := { t.u with regs := { t.u.regs with u := landKc cyc k n none false t.u.regs.u } } }
  | none => t

/-- The oldest mst of a stream that counts on a completion register and has rows to write. -/
def kcStore (t : Stream) : Option (Op × Nat × Nat × Nat) :=
  t.ops.findSome? (fun o =>
    match o.kind with
    | .store tile oty (some kc) => if o.rows.isEmpty then none else some (o, tile, oty, kc)
    | _ => none)

/-- One row of an mst is written and counted down, when the homes of its lines are ready for it; else it arrives there (R136, R192,
R307). -/
def landStoreRow (p : Nat) : Eff := fun s =>
  match mfind s.streams p with
  | none => []
  | some t =>
    match kcStore t, (mfind s.blocks t.blk).bind (·.mat) with
    | some (o, tile, oty, kc), some m =>
      let i := 16 - o.rows.length
      match goneRun s (physRuns s (o.rows.headD [])) with
      | some line => rowGone s p t.blk line s
      | none =>
        Eff.opt (whenReady s (.op o.id) (o.rows.headD [])
          (Eff.seq (storeRows (.op o.id) (frankOfBlk s t.blk) m tile oty i (o.rows.take 1)) (fun s =>
            match mfind s.streams p with
            | none => []
            | some t =>
              let ops := t.ops.map (fun x => if x.id == o.id then { x with rows := x.rows.drop 1 } else x)
              [.stream p (countRow s.clk.cyc (some kc) (16 * otyBytes oty) { t with ops := ops })]))) s
    | _, _ => []

/-- COMPLETION_LANDING of a stream: a counted row lands. -/
def execCompletionLanding : State → Host.Outcome State Fault Refusal := fun s => commit (landStoreRow (subjAt s 0)) s

/-! ## Returns of parked forms (R101) -/

/-- The return of an agent that is parked: what it does when its condition holds, none when it does not. -/
def kcwaitOver (s : State) (a : Agent) : Option Eff :=
  match agentU s a, waitKind s a with
  | some u, some (.kcwait d kc) =>
    if getKc u.regs.u kc == 0 then some (wake a [.k d] (kcwaitRegs d kc)) else none
  | _, _ => none

/-- KCWAIT_RETURN. -/
def execKcwaitReturn : State → Host.Outcome State Fault Refusal := fun s =>
  commit (fun s => match kcwaitOver s (subjAgent s) with
    | some eff => eff s
    | none => []) s

/-- The return of pmwait: the lowest armed window with a final postmark leaves the armed set (R241). -/
def pmwaitOver (s : State) (p : Nat) : Option Eff :=
  match mfind s.groups p, waitKind s (.group p) with
  | some g, some (.pmwait d) =>
    match pmReady s g with
    | some (n, v) =>
      some (Eff.seq (atGroup p (fun g => { g with armed := mdel g.armed n })) (wakeK (.group p) d v))
    | none => none
  | _, _ => none

/-- PMWAIT_RETURN. -/
def execPmwaitReturn : State → Host.Outcome State Fault Refusal := fun s =>
  commit (fun s => match pmwaitOver s (subjAt s 0) with
    | some eff => eff s
    | none => []) s

/-- The return of mon.wait: the slots that differ are disarmed (R273). A poisoned word is a machine check (R376); one that
differs and whose acquire a lost root switch cannot serve makes the form issue again, which then raises PAGE (R441); so does one
whose place a tlbinv has made it forget, which is then translated anew (R291). -/
def monOver (s : State) (p : Nat) : Option Eff :=
  match mfind s.groups p, waitKind s (.group p) with
  | some g, some (.monWait d _) =>
    let mask := monDiffer s (coreOfG p) g
    let again := atGroup p (fun g => { g with u := reissue g.u })
    if g.mons.any monBlind then some again
    else if (monBlocked s g).isSome then none
    else
    match monPoison s g, mfind s.blocks g.blk with
    | some line, some b => some (poisonRead b.launch (coreOfG p) line)
    | _, _ =>
    if mask = 0 then none
    else if !(monDenied s (coreOfG p) g).isEmpty then some again
    else some (Eff.all [mergeRuns (coreOfG p) (monRuns s g mask), atGroup p (disarm mask), wakeK (.group p) d (BitVec.ofNat 64 mask)])
  | _, _ => none

/-- MON_WAIT_RETURN. -/
def execMonWaitReturn : State → Host.Outcome State Fault Refusal := fun s =>
  commit (fun s => match monOver s (subjAt s 0) with
    | some eff => eff s
    | none => []) s

/-- The limit of mon.wait has passed and no slot differs: 0. -/
def monTimeOut (s : State) (p : Nat) : Option Eff :=
  match waitKind s (.group p) with
  | some (.monWait d (some limit)) =>
    if limit ≤ s.clk.cyc && (monOver s p).isNone then some (wakeK (.group p) d 0) else none
  | _ => none

/-- MON_WAIT_TIMEOUT. -/
def execMonWaitTimeout : State → Host.Outcome State Fault Refusal := fun s =>
  commit (fun s => match monTimeOut s (subjAt s 0) with
    | some eff => eff s
    | none => []) s

/-- A nap is over (R343). -/
def napOver (s : State) (a : Agent) : Option Eff :=
  match waitKind s a with
  | some (.nap t) => if t ≤ s.clk.cyc then some (wake a [] id) else none
  | _ => none

/-- NAP_EXPIRY. -/
def execNapExpiry : State → Host.Outcome State Fault Refusal := fun s =>
  commit (fun s => match napOver s (subjAgent s) with
    | some eff => eff s
    | none => []) s

/-- The block of an agent. -/
def agentBlk (s : State) (a : Agent) : Nat := ((partyOf s a).map (·.blk)).getD 0

/-- A parked ring form proceeds (R245). -/
def ringOver (s : State) (a : Agent) : Option Eff :=
  let blk := agentBlk s a
  match waitKind s a with
  | some (.ringPut n tag) =>
    match ringAt s blk n with
    | some r => if ringRoom r then some (Eff.seq (wake a [] id) (putTakes a blk n tag)) else none
    | none => none
  | some (.ringGet d n) =>
    match ringAt s blk n with
    | some r =>
      if ringFull r then
        some (Eff.seq (setRing blk n { r with a := (r.a + 1) % 2 ^ 32 })
          (wakeK a d (BitVec.ofNat 64 (ringTag s blk r))))
      else none
    | none => none
  | some (.ringWait d n side) =>
    match ringAt s blk n with
    | some r =>
      if side = 0 && ringRoom r then some (wakeK a d (BitVec.ofNat 64 (r.pr % r.ns)))
      else if side = 1 && ringFull r then some (wakeK a d (BitVec.ofNat 64 (ringTag s blk r)))
      else none
    | none => none
  | _ => none

/-- RING_WAIT_RETURN. -/
def execRingWaitReturn : State → Host.Outcome State Fault Refusal := fun s =>
  commit (fun s => match ringOver s (subjAgent s) with
    | some eff => eff s
    | none => []) s

/-- RING_PUT_RECORD: a pending put or free of an agent is recorded (R246). -/
def execRingPutRecord : State → Host.Outcome State Fault Refusal := fun s => commit (takeRing (subjAgent s)) s

/-- ARRIVAL_RECORD: a pending arrival of an agent is recorded (R337). -/
def execArrivalRecord : State → Host.Outcome State Fault Refusal := fun s => commit (takeArrival (subjAgent s)) s

/-- The live lanes of an agent; the stream has none. -/
def agentLive (s : State) (a : Agent) : Word :=
  match a with
  | .group p => ((mfind s.groups p).map (·.live)).getD 0
  | .stream _ => 0

/-- The lanes a parked form was released for. -/
def waitLanes (s : State) (a : Agent) : Word :=
  match a with
  | .group _ => (((agentU s a).bind (·.wait)).map (·.lanes)).getD 0
  | .stream _ => 0

/-- A second arrival whose generation is complete goes on: a bar.arr or mbar.arr is over, a bar.sync waits for the
generation in which it now arrives. -/
def laterArrive (a : Agent) (key : Nat) (sync : Option Nat) : Eff :=
  match sync with
  | none => wake a [] id
  | some d => setU a (fun u => { u with wait := u.wait.map (fun w => { w with kind := .barWait d key true }) })

/-- A barrier wait is over, or the generation for which a second arrival waited is complete, and it arrives (R196,
R337). -/
def barOver (s : State) (a : Agent) : Option Eff :=
  match partyOf s a, waitKind s a with
  | some x, some (.barWait d key _) =>
    if waitOver s x key then some (wakeK a d (barWord (barAt s x.blk key))) else none
  | some x, some (.arrive key sync) =>
    if hasArrived s x key then none else some (Eff.seq (laterArrive a key sync) (arriveFor a key (waitLanes s a) (agentLive s a)))
  | _, _ => none

/-- BARRIER_WAIT_RETURN of a group. -/
def execBarrierWaitReturn : State → Host.Outcome State Fault Refusal := fun s =>
  commit (fun s => match barOver s (.group (subjAt s 0)) with
    | some eff => eff s
    | none => []) s

/-- MBAR_WAIT_RETURN of a stream. -/
def execMbarWaitReturn : State → Host.Outcome State Fault Refusal := fun s =>
  commit (fun s => match barOver s (.stream (subjAt s 0)) with
    | some eff => eff s
    | none => []) s

/-! ## Pigeonholes (R120 to R122) -/

/-- A spawn parked for pigeonholes, as it would issue again, when the core has what it needs. -/
def spawnReady (s : State) (p : Nat) : Option (Ctx × LaneW) :=
  match mfind s.groups p with
  | none => none
  | some g =>
    match g.u.wait with
    | none => none
    | some x =>
      if x.kind != .retry .holes || blkHeld s g.blk then none
      else
        match pathInstr s p g x.pc with
        | some (.spawn w) =>
          let words := encode (.spawn w)
          let iss : Issue :=
            { agent := .group p, pc := x.pc, lanes := x.lanes, word := BitVec.ofNat 32 (words.getD 0 0)
              ext := BitVec.ofNat 32 (words.getD 1 0) }
          match ctxOf (.spawn w) iss s with
          | some c => if spawnFits c s w then some (c, w) else none
          | none => none
        | _ => none

/-- SPAWN_RELEASE of a group: the parked spawn issues and deposits its threads. -/
def execSpawnRelease : State → Host.Outcome State Fault Refusal := fun s =>
  commit (fun s =>
    match spawnReady s (subjAt s 0) with
    | none => []
    | some (c, w) =>
      Eff.seq (retry (.group (subjAt s 0)))
        (issueEff { c with u := { c.u with wait := none } } anyProfile (spawnBody w)) s) s

/-- An open pigeonhole of a core has expired. -/
def holeExpired (s : State) (c : Nat) : Bool :=
  (getCore s c).holes.any (fun e => e.2.pending.isNone && decide (e.2.expiry ≤ s.clk.cyc))

/-- PIGEONHOLE_EXPIRY of a core: its expired pigeonholes become pending, lowest number first. -/
def execPigeonholeExpiry : State → Host.Outcome State Fault Refusal := fun s =>
  commit (fun s =>
    if !holeExpired s (subjAt s 0) then []
    else
      let r := flushHoles (fun h => decide (h.expiry ≤ s.clk.cyc)) (getCore s (subjAt s 0), s.nextId)
      [.core (subjAt s 0) r.1, .nextId r.2]) s

/-- PENDING_GROUP_PLACEMENT of a core. -/
def execPendingGroupPlacement : State → Host.Outcome State Fault Refusal := fun s => commit (placeSpawned (subjAt s 0)) s

/-! ## Ends (R124, R198) -/

/-- An ending group may give up its place (R124): results landed, completion registers 0, releases recorded, its store
queue empty. -/
def groupDone (g : Group) : Bool :=
  g.ending && allLanded g.u && g.u.regs.u.kc.all (fun e => e.2 == 0) && g.u.pend.isEmpty && g.sq.isEmpty

/-- The end of a group, when its cards find room: its block is reclaimed with its last part (R247, R334, R397). -/
def groupEnds (s : State) (p : Nat) : Option Eff :=
  match mfind s.groups p with
  | none => none
  | some g =>
    if groupDone g then
      cardPoint (coreSrc (coreOfG p) (partOfG p % 4) 5) g.blk (frankOfBlk s g.blk) (Eff.seq (removeGroup p) (reclaim g.blk)) s
    else none

/-- GROUP_END of a group. -/
def execGroupEnd : State → Host.Outcome State Fault Refusal := fun s => commit (Eff.opt (groupEnds s (subjAt s 0))) s

/-- A stopped stream has finished its loads, tile writes and stores (R198). -/
def streamDone (t : Stream) : Bool := t.stopped && t.ops.isEmpty && t.u.pend.isEmpty && allLanded t.u

/-- The end of a stream, when its cards find room. -/
def streamEnds (s : State) (p : Nat) : Option Eff :=
  match mfind s.streams p with
  | none => none
  | some t =>
    if streamDone t then
      cardPoint (coreSrc (p / 4) (p % 4) 5) t.blk (frankOfBlk s t.blk) (Eff.seq (removeStream p) (reclaim t.blk)) s
    else none

/-- STREAM_END of a stream. -/
def execStreamEnd : State → Host.Outcome State Fault Refusal := fun s => commit (Eff.opt (streamEnds s (subjAt s 0))) s

end Sys2Proof.Machine
end

