-- ==== Sys2Proof/Machine/LaunchEvents.lean ====
section
/-! DEFINITION. What the queue front-end does between instructions (15: R347 to R354, R363), and the trace fabric, the
samplers and the counters (17: R395, R399, R404; 18: R412 to R414). An event whose condition does not hold changes
nothing. -/

namespace Sys2Proof.Machine

/-! ## The front-end -/

/-- ANCHOR_READ of a queue. -/
def execAnchorRead : State → Host.Outcome State Fault Refusal := fun s =>
  commit (Eff.opt (anchorStep s (subjAt s 0))) s

/-- A queue's head whose START has come. -/
def startReached (s : State) (q : Nat) : Bool :=
  match headOfQ s q with
  | some (n, l) => l.pkt.getD 9 0 != 0 && eligible s n l
  | none => false

/-- START_TIME_REACHED of a queue: its head is eligible, and an arbitration follows (R352). -/
def execStartTimeReached : State → Host.Outcome State Fault Refusal := fun s =>
  commit (if startReached s (subjAt s 0) then Eff.opt (arbitrate s) else Eff.nop) s

/-- DEADLINE_PASS of a queue. -/
def execDeadlinePass : State → Host.Outcome State Fault Refusal := fun s => commit (Eff.opt (lateStep s (subjAt s 0))) s

/-- ARBITRATION. -/
def execArbitration : State → Host.Outcome State Fault Refusal := fun s => commit (Eff.opt (arbitrate s)) s

/-- GRID_ROTATION of a launch. -/
def execGridRotation : State → Host.Outcome State Fault Refusal := fun s =>
  commit (Eff.opt (rotStep s (subjAt s 0))) s

/-- The completion of a launch, when it is due, or what a kill of it has still to do. -/
def launchEnds (s : State) (n : Nat) : Option Eff :=
  match mfind s.mail.launches n with
  | some l =>
    if l.dying.isSome then (if (killOn n l s).isEmpty then none else some (killOn n l))
    else if launchDone s n l then cardPoint (pkgSrc 7) n (frankOf l) (completeLaunch n l) s
    else none
  | none => none

/-- LAUNCH_COMPLETE of a launch. -/
def execLaunchComplete : State → Host.Outcome State Fault Refusal := fun s => commit (Eff.opt (launchEnds s (subjAt s 0))) s

/-! ## The trace fabric -/

/-- CARD_DRAIN of a cluster. -/
def execCardDrain : State → Host.Outcome State Fault Refusal := fun s =>
  commit (if drainReady s (subjAt s 0) then drainHead (subjAt s 0) else Eff.nop) s

/-- A high-water period may end. -/
def stallLow (s : State) (cl : Nat) : Bool :=
  (getCluster s cl).stall.isSome && decide ((getCluster s cl).cards.length < lowCards)

/-- STALL_END of a cluster. -/
def execStallEnd : State → Host.Outcome State Fault Refusal := fun s =>
  commit (if stallLow s (subjAt s 0) then stallEnds (subjAt s 0) else Eff.nop) s

/-- The end of what a partition's sampler follows: its card is emitted, the load's before the tagged instruction's, and the
sampler is free; a card that must wait for room holds the sampler (R397, R404). -/
def sampleCard (s : State) (p : Nat) : Option Eff :=
  let x := getPart s p
  let src := coreSrc (p / 4) (p % 4) 4
  let out (k : Card) (free : Part → Part) : Option Eff :=
    cardPoint src 0 (fld k.d0 31 24) (Eff.seq (fun s => [.part p (free (getPart s p))])
      (emit src (fld k.d0 7 0) (fld k.d0 39 32) (fld k.d0 59 56) (fld k.d0 31 24) k.d2 k.d3)) s
  match x.sampling, x.tagging with
  | some k, _ => out k (fun x => { x with sampling := none })
  | none, some k => out k (fun x => { x with tagging := none })
  | none, none => none

/-- SAMPLE_COUNTDOWN of a partition: the sample its sampler has taken ends with its card. -/
def execSampleCountdown : State → Host.Outcome State Fault Refusal := fun s => commit (Eff.opt (sampleCard s (subjAt s 0))) s

/-! ## Counters -/

/-- COUNTER_ADD: the events of earlier cycles; those of this one fall in its addition, which a cntrd does not see (R414). -/
def execCounterAdd : State → Host.Outcome State Fault Refusal := fun s => commit (addBefore s.clk.cyc) s

end Sys2Proof.Machine
end

