-- ==== Sys2Proof/Machine/MemEvents.lean ====
section
/-! DEFINITION. What happens in the memory system between instructions: the store queues, homes, leases, the directory,
fills, rounds, replicas, walks, fault records, stream traps, migrations (10: R259, R261, R277; 11: R285 to R289; 12: R307
to R311; 13: R317, R321; 16: R374, R376). An event whose condition does not hold changes nothing. -/

namespace Sys2Proof.Machine

/-- Item n of a list, with the list without it. -/
def takeNth {α : Type} (l : List α) (n : Nat) : Option (α × List α) :=
  match l[n]? with
  | some x => some (x, l.eraseIdx n)
  | none => none

/-- The coherence state changed. -/
def onCoh (f : Coh → Coh) : Eff := fun s => [.coh (f s.coh)]

/-! ## Store queues (R261, R295, R376) -/

/-- The poisoned line that an entry's read would meet: an atomic or a cas reads. -/
def entryPoison (s : State) (e : SqE) : Option Nat :=
  match e.kind with
  | .store => goneRun s (e.items.flatMap (fun it => physRuns s it.pieces))
  | .writeBack _ => none
  | .hold _ => none
  | _ => poisoned s (e.items.flatMap (fun it => physRuns s it.pieces))

/-- The head of a store queue has come to its turn, and its write arrives at the homes of its replica that are not ready (R307). -/
def headArrives (s : State) (e : SqE) : Bool := relReady s e.rel && !(headClaims s e).isEmpty

/-- The head of a group's store queue may perform, or arrive. -/
def storeReady (s : State) (p : Nat) (g : Group) : Bool :=
  match g.sq with
  | e :: _ => headReady s (coreOfG p) e || headArrives s e
  | [] => false

/-- The head of a store queue performs, or meets a poisoned line: a machine check of its launch; or its write arrives where it must
wait. -/
def storeEvent (p : Nat) : Eff := fun s =>
  match mfind s.groups p with
  | none => []
  | some g =>
    match g.sq with
    | [] => []
    | e :: _ =>
      if !headReady s (coreOfG p) e then Eff.when (headArrives s e) (claimLines (.entry e.id) (headClaims s e)) s
      else
        match entryPoison s e, mfind s.blocks g.blk with
        | some line, some b => poisonRead b.launch (coreOfG p) line s
        | _, _ => performHead p s

/-- STORE_PERFORM of a group. -/
def execStorePerform : State → Host.Outcome State Fault Refusal := fun s => commit (storeEvent (subjAt s 0)) s

/-! ## Homes (R259, R307, R308) -/

/-- The first write that waits at the home of a line. -/
def homeHead (s : State) (line : Nat) : Option HomeW := s.coh.homeq.find? (fun w => w.line == line)

/-- The first write at a line's home performs, if it may. -/
def homeStep (line : Nat) : Eff := fun s =>
  match homeHead s line with
  | some w => if homeReady s w then homePerform w s else []
  | none => []

/-- LEASE_END at a line: leases that have ended are gone, and the write that waited for them performs. -/
def execLeaseEnd : State → Host.Outcome State Fault Refusal := fun s =>
  commit
    (Eff.seq
      (onCoh (fun c => { c with
        leases := c.leases.filter (fun x => !(x.line == subjAt s 0 && decide (x.lexp ≤ s.clk.cyc))) }))
      (homeStep (subjAt s 0))) s

/-- An acknowledgement reaches the home: the write waits for one acknowledgement of that core fewer. -/
def ackEvent (n : Nat) : Eff := fun s =>
  match takeNth s.coh.acks n with
  | none => []
  | some ((wid, core), rest) =>
    Eff.seq
      (onCoh (fun c => { c with
        acks := rest
        homeq := c.homeq.map (fun w => if w.id == wid then { w with acks := w.acks.erase core } else w)
        claims := c.claims.map (fun x => if x.id == wid then { x with acks := x.acks.erase core } else x) }))
      (match s.coh.homeq.find? (fun w => w.id == wid) with
       | some w => homeStep w.line
       | none => Eff.nop) s

/-- INVALIDATION_ACKNOWLEDGED: one acknowledgement in flight arrives. -/
def execInvalidationAcknowledged : State → Host.Outcome State Fault Refusal := fun s => commit (ackEvent (subjAt s 0)) s

/-- The signed 16-bit difference of two sequence numbers. -/
def seqDiff (a b : Nat) : Int := sextN (a + 65536 - b % 65536) 16

/-- A core's copy of a line is gone, unless its fill came after the invalidation (R311). -/
def dropCopyOf (core line seq : Nat) : Eff := fun s =>
  match mfind (getCore s core).l1 line with
  | some l =>
    if l.tracked && decide (seqDiff seq l.seq < 0) then []
    else [.core core { getCore s core with l1 := mdel (getCore s core).l1 line }]
  | none => []

/-- An invalidation reaches its core (R311): held while a miss of the line is pending, else a copy that is not younger goes
and the core acknowledges. A second one stays in flight behind a held one. -/
def invalEvent (n : Nat) : Eff := fun s =>
  match takeNth s.coh.invals n with
  | none => []
  | some (x, rest) =>
    match s.coh.fills.find? (fun f => f.core == x.core && f.line == x.line) with
    | some f =>
      if f.held.isSome then []
      else
        onCoh (fun c => { c with
          invals := rest
          fills := c.fills.map (fun y =>
            if y.core == x.core && y.line == x.line then { y with held := some (x.seq, x.wid) } else y) }) s
    | none =>
      Eff.seq (dropCopyOf x.core x.line x.seq)
        (onCoh (fun c => { c with invals := rest, acks := c.acks ++ [(x.wid, x.core)] })) s

/-- INVALIDATION: one invalidation in flight arrives. -/
def execInvalidation : State → Host.Outcome State Fault Refusal := fun s => commit (invalEvent (subjAt s 0)) s

/-- A fill's copy enters the core's L1, with the bytes the home holds now; a privatised line and a poisoned one stay out (log
entry 64). -/
def installFill (f : Fill) : Eff := fun s =>
  if (privOwn s f.core f.line).isSome || (mfind s.coh.poison f.line).isSome then []
  else
    let k := getCore s f.core
    [.core f.core { k with l1 := mput k.l1 f.line { f.copy with data := fillLine s f.core f.line } }]

/-- A fill arrives (R311): installed, unless a held invalidation is younger; the held one is acknowledged. -/
def fillEvent (n : Nat) : Eff := fun s =>
  match takeNth s.coh.fills n with
  | none => []
  | some (f, rest) =>
    let gone := onCoh (fun c => { c with fills := rest, acks := c.acks ++ heldAcks [f] })
    match f.held with
    | none => Eff.seq gone (installFill f) s
    | some (si, _) => if seqDiff si f.seq < 0 then Eff.seq gone (installFill f) s else gone s

/-- LINE_FILL: one fill in flight arrives. -/
def execLineFill : State → Host.Outcome State Fault Refusal := fun s => commit (fillEvent (subjAt s 0)) s

/-- PRIVATISED_MERGE of a line (R309). -/
def execPrivatisedMerge : State → Host.Outcome State Fault Refusal := fun s => commit (mergeLine (subjAt s 0)) s

/-! ## Rounds (R317, R321) -/

/-- A round notice arrives. -/
def noticeEvent (n : Nat) : Eff := fun s =>
  match takeNth s.coh.notices n with
  | none => []
  | some ((core, r, count), rest) => Eff.seq (onCoh (fun c => { c with notices := rest })) (hear core r count) s

/-- ROUND_NOTICE: one notice in flight arrives at its cache. -/
def execRoundNotice : State → Host.Outcome State Fault Refusal := fun s => commit (noticeEvent (subjAt s 0)) s

/-- A watch of an id. -/
def watchId (s : State) (id : Nat) : Option Watch := s.coh.watches.find? (fun w => w.id == id)

/-- A watch's limit is cleared: the load it holds may issue again. -/
def endWatch (id : Nat) : Eff :=
  onCoh (fun c => { c with watches := c.watches.map (fun w => if w.id == id then { w with limit := 0 } else w) })

/-- The pushed line as the core installs it: an NC copy of an NC page, else tracked, or with a short lease that has already ended
where a store waits at the home (R258 to R260, R321). -/
def pushedLine (s : State) (w : Watch) : Line :=
  let own := leased w.core w.line && !w.nc
  let lexp := if storeWaits s w.line then s.clk.cyc else s.clk.cyc + 512
  { data := fillLine s w.core w.line, lexp := (if own then lexp else 0), tracked := !own && !w.nc, nc := w.nc
    tags := [(w.region, w.tag)], seq := (grantTracked w.core w.line s.coh s.clk.cyc).1 }

/-- A fill of a line is on its way to a core. -/
def fillPending (s : State) (core line : Nat) : Bool := s.coh.fills.any (fun f => f.core == core && f.line == line)

/-- The home pushes the line of a watch that its write has fired. Where a fill of the line is on its way to the core, what the push
brings comes with that fill, which an invalidation may still take away (R311). -/
def pushEvent (id : Nat) : Eff := fun s =>
  match watchId s id with
  | none => []
  | some w =>
    if !w.fired || w.limit == 0 then []
    else
      let x := pushedLine s w
      Eff.all
        [if fillPending s w.core w.line then requestFill w.core w.line 512 w.nc x.tags w.frank
         else if (privOwn s w.core w.line).isSome then Eff.nop
         else
           Eff.seq
             (fun s =>
               let k := getCore s w.core
               [.core w.core { k with l1 := mput k.l1 w.line x }])
             (onCoh (fun c =>
               if x.tracked then (grantTracked w.core w.line c s.clk.cyc).2
               else if x.nc then c
               else { c with leases := c.leases ++ [{ core := w.core, line := w.line, lexp := x.lexp }] })),
         countAt w.frank (w.line * 128) 128,
         endWatch id] s

/-- STALL_PUSH of a watch. -/
def execStallPush : State → Host.Outcome State Fault Refusal := fun s => commit (pushEvent (subjAt s 0)) s

/-- STALL_WATCH_TIMEOUT of a watch: the time has passed without a push. -/
def execStallWatchTimeout : State → Host.Outcome State Fault Refusal := fun s =>
  commit (fun s =>
    match watchId s (subjAt s 0) with
    | some w => if !w.fired && w.limit != 0 && decide (w.limit ≤ s.clk.cyc) then endWatch w.id s else []
    | none => []) s

/-! ## Replicas (R277) -/

/-- The oldest ordered write that a package has not applied, and the list without it. -/
def takeRep (pkg : Nat) : List (Nat × List Host.Cell) → Option (List Host.Cell × List (Nat × List Host.Cell))
  | [] => none
  | r :: rs =>
    if r.1 = pkg then some (r.2, rs)
    else
      match takeRep pkg rs with
      | some (x, l) => some (x, r :: l)
      | none => none

/-- A package's frame takes the next write in the root's order, when its homes are ready for it; else the write arrives there. -/
def repStep (s : State) (pkg : Nat) : Option Eff :=
  match takeRep pkg s.coh.reps with
  | none => none
  | some (cs, rest) =>
    if (cellLines cs).all (lineReady s (.replica pkg)) then
      some (Eff.seq (onCoh (fun c => { c with reps := rest })) (writeThrough (.replica pkg) cs))
    else if (toClaim s (.replica pkg) (cellLines cs)).isEmpty then none
    else some (claimLines (.replica pkg) (cellLines cs))

/-- REPLICA_UPDATE of a package: its frame takes the next write in the root's order. -/
def execReplicaUpdate : State → Host.Outcome State Fault Refusal := fun s => commit (Eff.opt (repStep s (subjAt s 0))) s

/-! ## Walks and fault records (R285, R286) -/

/-- The translation root under which a merge entry's walk runs: that of its opener's block, resident or saved. -/
def entryTctx (s : State) (m : MergeE) : DWord :=
  match mfind s.blocks m.blk with
  | some b => b.tctx
  | none =>
    match s.mail.saved.find? (fun x => x.id == m.blk) with
    | some x => x.blk.tctx
    | none => 0

/-- The entry of a cluster's merge table at a place. -/
def mergeNth (s : State) (cl n : Nat) : Option MergeE := (getCluster s cl).merge[n]?

/-- An entry leaves a merge table. -/
def mergeDel (cl : Nat) (m : MergeE) : Eff := fun s =>
  [.cluster cl { getCluster s cl with
    merge := (getCluster s cl).merge.filter (fun x => !(x.asid == m.asid && x.page == m.page)) }]

/-- A walk ends in a fault: its entry becomes FAULT and its record waits to be written. -/
def walkFault (cl cause : Nat) (m : MergeE) : Eff := fun s =>
  let r := { m.rcd with kind := if cause = 9 then 2 else 1 }
  mergeSet cl { m with cause := some cause, rcd := r } s ++
  [.faults { s.faults with pend := s.faults.pend ++ [(cl, r)] }]

/-- A walk ends (R285): the entry is filled for all who wait, or becomes FAULT. -/
def walkEvent (cl n : Nat) : Eff := fun s =>
  match mergeNth s cl n with
  | none => []
  | some m =>
    if m.cause.isSome then []
    else
      let a := accOf m.rcd.acc
      Eff.seq (countWalk m.rcd.frank (entryTctx s m) m.rcd.va)
        (match walkEnd s (entryTctx s m) m.asid m.rcd.va a m.user with
         | .inl e =>
           if rootDown s e a then walkFault cl 8 m
           else Eff.all [mergeDel cl m, tlbFillL2 cl e, tlbFillL1 m.core e]
         | .inr cause => walkFault cl cause m) s

/-- PAGE_WALK_COMPLETE: a cluster's walk, by its place in the merge table. -/
def execPageWalkComplete : State → Host.Outcome State Fault Refusal := fun s =>
  commit (walkEvent (subjAt s 0) (subjAt s 1)) s

/-- The bytes of a fault record (R286). -/
def recordBytes (r : FaultRec) (seq : Nat) (time : DWord) : List Byte :=
  let d0 := r.kind * 2 ^ 56 + r.va % 2 ^ 56
  let d1 := r.asid % 4096 * 2 ^ 52 + r.frank % 256 * 2 ^ 44 + r.acc % 16 * 2 ^ 40 + r.part % 4 * 2 ^ 38 +
    r.slot % 16 * 2 ^ 34 + r.core % 1024 * 2 ^ 24 + r.lane % 256 * 2 ^ 16 + seq % 65536
  toBytes 8 d0 ++ toBytes 8 d1 ++ toBytes 8 time.toNat ++ toBytes 8 (r.count % 2 ^ 32)

/-- The fault ring is full. -/
def faultRingFull (f : FaultUnit) : Bool :=
  decide (countDiff (fld f.ptr 31 0) (fld f.ptr 63 32) = 2 ^ fld f.cfg 4 0)

/-- The entry of a written record is marked: its opener's trap may be taken. -/
def markRecorded (cl : Nat) (r : FaultRec) : Eff := fun s =>
  if 6 ≤ cl then []
  else
    match mergeFind s cl r.asid (pageOf r.va) with
    | some m => if m.rcd == r then mergeSet cl { m with recorded := true } s else []
    | none => []

/-- Where the next fault record goes. -/
def recordAt (f : FaultUnit) : Nat := fld f.cfg 47 12 * 4096 + 32 * (fld f.ptr 31 0 % 2 ^ fld f.cfg 4 0)

/-- The first waiting record is written, when its homes are ready for it, else it arrives there; a full ring holds PAGE and PERM
records back and discards HOT ones. -/
def recordEvent : Eff := fun s =>
  if faultRingFull s.faults then
    if s.faults.pend.any (fun x => x.2.kind == 3) then
      [.faults { s.faults with pend := s.faults.pend.filter (fun x => x.2.kind != 3) }]
    else []
  else
    match s.faults.pend with
    | [] => []
    | (cl, r) :: rest =>
      let f := s.faults
      let tail := fld f.ptr 31 0
      let a := recordAt f
      if physExists s a && !(linesOf a 32).all (lineReady s .record) then claimLines .record (linesOf a 32) s
      else
      Eff.all
        [Eff.when (physExists s a) (writeThrough .record (cellsAt a (recordBytes r f.seq (timeReg s.clk)))),
         Eff.when (physExists s a) (countAt r.frank a 32),
         fun _ => [.faults { f with ptr := setFld f.ptr 31 0 (tail + 1), seq := (f.seq + 1) % 65536, pend := rest }],
         Eff.when (r.kind != 3) (markRecorded cl r),
         Eff.when (r.kind != 3) (hostEvent 1)] s

/-- FAULT_RECORD_WRITE. -/
def execFaultRecordWrite : State → Host.Outcome State Fault Refusal := fun s => commit recordEvent s

/-! ## Stream traps (R374) -/

/-- A group stalls at a card-emission point: every card of it comes after the stall (R399). -/
def stallsNow (s : State) (g : Group) : Bool :=
  match g.u.wait with
  | some { kind := .retry (.stall cl), .. } => !stallOver s cl
  | _ => false

/-- A stream's trap that waits for its delivery. -/
def undelivered (s : State) (p : Nat) : Option (Stream × StreamTrap) :=
  match mfind s.streams p with
  | some t =>
    match t.trap with
    | some x => if x.delivered then none else some (t, x)
    | none => none
  | none => none

/-- The delivery of a stream's trap: to the host group, which stands at an instruction's boundary, parked or not; a machine check
when there is none. -/
def deliver (s : State) (p : Nat) : Option Eff :=
  match undelivered s p with
  | none => none
  | some (t, x) =>
    match hostGroup s t.blk with
    | none =>
      some (machineCheck ((mfind s.blocks t.blk).map (·.launch)) 20 11 (p / 4) (coreSrc (p / 4) 0 8) 0)
    | some (place, g) =>
      if stallsNow s g || (trapWaits g.u).isSome then none
      else
        cardPoint (coreSrc (p / 4) (p % 4) 0) t.blk (frankOfBlk s t.blk)
          (Eff.seq
            (fun _ => [.stream p { t with trap := some { x with delivered := true } }])
            (takeTrap place true g.live x.pc x.next { cause := x.cause, addr := x.addr, lane := lowest g.live })) s

/-- STREAM_TRAP_DELIVERY of a stream. -/
def execStreamTrapDelivery : State → Host.Outcome State Fault Refusal := fun s =>
  commit (fun s =>
    match deliver s (subjAt s 0) with
    | some eff => eff s
    | none => []) s

/-! ## Migration (R289) -/

/-- The migration of a group. -/
def migOf (s : State) (uid : Nat) : Option Migration := s.coh.migs.find? (fun m => m.uid == uid)

/-- A line lies in the new frame of a migration. -/
def migNew (m : Migration) (l : Nat) : Bool := decide (lineOf m.new ≤ l) && decide (l < lineOf (m.new + 2 ^ m.log2))

/-- The block at the old homes is complete: the writes that had arrived there before it are performed and the leases that ran have
ended. -/
def migBlocked (s : State) (m : Migration) : Bool :=
  s.coh.homeq.all (fun w => !(migLine m w.line && decide (w.id < m.after))) &&
  s.coh.leases.all (fun x => !(migLine m x.line && decide (s.clk.cyc < x.lexp)))

/-- The writer of the leaf entry. -/
def migKey (m : Migration) : Writer := .migration m.uid

/-- A migration may end: the page is blocked, and the home of the leaf entry is ready. -/
def migReady (s : State) (m : Migration) : Bool := migBlocked s m && (linesOf m.pteAt 8).all (lineReady s (migKey m))

/-- An address of the old frame as it is in the new one. -/
def migAddr (m : Migration) (a : Nat) : Nat :=
  if m.old ≤ a && a < m.old + 2 ^ m.log2 then m.new + (a - m.old) else a

/-- A place, a piece, a queue entry, a monitor and an operation after a migration. -/
def migPlace (m : Migration) (p : Place) : Place :=
  match p with
  | .phys a nc => .phys (migAddr m a) nc
  | p => p
def migPiece (m : Migration) (p : Piece) : Piece := { p with place := migPlace m p.place }
def migEntry (m : Migration) (e : SqE) : SqE :=
  { e with
    items := e.items.map (fun it => { it with pieces := it.pieces.map (migPiece m) })
    kind := match e.kind with
      | .writeBack ls => .writeBack (ls.map (fun l => lineOf (migAddr m (l * 128))))
      | k => k }
def migGroup (m : Migration) (g : Group) : Group :=
  { g with
    sq := g.sq.map (migEntry m)
    mons := g.mons.map (fun e => (e.1, { e.2 with place := e.2.place.map (migPiece m) })) }
def migStream (m : Migration) (t : Stream) : Stream :=
  { t with ops := t.ops.map (fun o => { o with rows := o.rows.map (fun r => r.map (migPiece m)) }) }

/-- The contents of the old frame at the new one. -/
def migCopy (m : Migration) : Eff := fun s =>
  let n := 2 ^ m.log2
  let old := s.mem.filter (fun c => decide (m.old ≤ c.1) && decide (c.1 < m.old + n))
  let dst := s.mem.filter (fun c => decide (m.new ≤ c.1) && decide (c.1 < m.new + n))
  [.mem (dst.map (fun c => ((c.1, emptyByte) : Host.Cell))),
   .mem (old.map (fun c => ((c.1 - m.old + m.new, c.2) : Host.Cell)))]

/-- The leaf entry's FRAME rewritten. -/
def migLeaf (m : Migration) : Eff := fun s =>
  writeThrough (migKey m) (cellsAt m.pteAt (toBytes 8 (setFld (cohDword s m.pteAt) 47 16 (m.new / 65536)).toNat)) s

/-- Every TLB of the package drops the page, a global entry of another address space included. -/
def migTlbs (m : Migration) : Eff :=
  let hit (e : TlbE) : Bool := (e.asid == m.asid || fld e.pte 7 7 == 1) && e.base == m.va / 2 ^ e.log2
  Eff.seq
    (fun s => (s.cores.filter (fun e => e.2.tlb.any hit)).map (fun e =>
      .core e.1 { e.2 with tlb := e.2.tlb.filter (fun x => !hit x) }))
    (fun s => (s.clusters.filter (fun e => e.2.tlb.any hit)).map (fun e =>
      .cluster e.1 { e.2 with tlb := e.2.tlb.filter (fun x => !hit x) }))

/-- A group that waits for its migration goes on with status 0. -/
def migWakes (place : Nat) : Eff := fun s =>
  match waitKind s (.group place) with
  | some (.migration d) => wakeK (.group place) d 0 s
  | _ => []

/-- A line of the old frame as it is in the new one. -/
def migMoved (m : Migration) (l : Nat) : Nat := lineOf (migAddr m (l * 128))

/-- The new frame is taken over (log entry 51): what waits at its homes performs before the copy writes it, copies of its lines are
given up. -/
def migTakes (m : Migration) : Eff := fun s =>
  let ls := heldLines s (migNew m)
  Eff.all
    [Eff.forEach ls mergeLine,
     fun s => Eff.forEach (s.coh.homeq.filter (fun w => migNew m w.line)) homePerform s,
     fun s => dropLines (heldLines s (fun l => migLine m l || migNew m l)) s,
     onCoh (fun c => { c with
       leases := c.leases.filter (fun x => !(migLine m x.line || migNew m x.line))
       claims := c.claims.filter (fun x => !(migLine m x.line || migNew m x.line)) })] s

/-- A write queued at the old home as it stands at the new one, ready to perform. -/
def migWrite (m : Migration) (w : HomeW) : HomeW :=
  { w with line := migMoved m w.line, bytes := w.bytes.map (fun c => (migAddr m c.1, c.2)), until_ := 0, acks := [] }

/-- The writes of the package queued at the old home since the block are replayed at the new one in their order. -/
def migReplay (m : Migration) : Eff := fun s =>
  let back (w : HomeW) : Bool := migLine m w.line && w.core != outsideCore
  Eff.seq
    (onCoh (fun c => { c with homeq := c.homeq.map (fun w => if back w then migWrite m w else w) }))
    (Eff.forEach (s.coh.homeq.filter back) (fun w => homePerform (migWrite m w))) s

/-- What is kept by physical address besides memory, as the migration leaves it. A line whose contents carried an error carries it
at the new home too (R376). -/
def migCoh (m : Migration) (c : Coh) : Coh :=
  { c with
    poison := (c.poison.filter (fun e => migLine m e.1)).foldl (fun l e => mput l (migMoved m e.1) (memUnit (migMoved m e.1)))
      (c.poison.filter (fun e => !migNew m e.1))
    stale := (c.stale.filter (fun e => !migNew m (lineOf e.1))).foldl (fun l e => mput l (migAddr m e.1) e.2) []
    watches := c.watches.map (fun w => { w with line := migMoved m w.line })
    migs := c.migs.filter (fun x => x.uid != m.uid) }

/-- A saved block, whose image may lie in the page. -/
def migSaved (m : Migration) (x : Saved) : Saved :=
  { x with
    groups := x.groups.map (fun e => (e.1, migGroup m e.2))
    stream := x.stream.map (migStream m)
    image := x.image.map (fun cs => writeCells [] (cs.map (fun c => (migAddr m c.1, c.2)))) }

/-- The bytes of the copy counted, read at the old frame and written at the new one (R411). -/
def migCount (frank : Nat) (m : Migration) : Eff :=
  Eff.seq (countAt frank m.old (2 ^ m.log2)) (countAt frank m.new (2 ^ m.log2))

/-- A migration ends (R289): contents moved, entry rewritten, TLBs dropped, queued accesses replayed at the new home, the group
released with status 0. -/
def migEnd (place : Nat) (m : Migration) : Eff := fun s =>
  let frank := ((mfind s.groups place).map (fun g => frankOfBlk s g.blk)).getD 0
  Eff.all
    [migTakes m, migCopy m, migCount frank m, migLeaf m, migTlbs m,
     fun s => s.groups.map (fun e => .group e.1 (migGroup m e.2)),
     fun s => s.streams.map (fun e => .stream e.1 (migStream m e.2)),
     fun s => [.mail { s.mail with saved := s.mail.saved.map (migSaved m) }],
     fun s => s.cores.map (fun e => .core e.1 { e.2 with icache := e.2.icache.filter (fun x =>
       !migNew m x.1) }),
     onCoh (migCoh m), migReplay m, migWakes place] s

/-- The end of a group's migration, when its page is blocked; where the home of the leaf entry is not ready, its write arrives
there. A handler of a stream trap may run in the group meanwhile: the pgmig goes on to wait after its eret, and returns at once
(R374). -/
def migOver (s : State) (p : Nat) : Option Eff :=
  match mfind s.groups p with
  | some g =>
    match migOf s g.uid with
    | some m =>
      let leaf := linesOf m.pteAt 8
      if migReady s m then some (migEnd p m)
      else if migBlocked s m && !(toClaim s (migKey m) leaf).isEmpty then some (claimLines (migKey m) leaf)
      else none
    | none =>
      match waitKind s (.group p) with
      | some (.migration _) => some (migWakes p)
      | _ => none
  | none => none

/-- MIGRATION_COMPLETE of a group. -/
def execMigrationComplete : State → Host.Outcome State Fault Refusal := fun s =>
  commit (fun s =>
    match migOver s (subjAt s 0) with
    | some eff => eff s
    | none => []) s

end Sys2Proof.Machine
end

