-- ==== Sys2Proof/Machine/Crypto.lean ====
section
/-! DEFINITION. SHA-384 and ECDSA, which verify the boot stages and make the measurements and the responder's signatures
(20: R433 to R435). The spec names them by their standards: the constants are those of FIPS 180-4, of RFC 5639 for
brainpoolP384r1 and of FIPS 186-4 for NIST P-384 (log entry 19). -/

namespace Sys2Proof.Machine

/-! ## Byte strings -/

/-- A number as n bytes, the most significant first. -/
def beBytes (n v : Nat) : List Byte := (toBytes n v).reverse

/-- The number that bytes spell, the most significant first. -/
def beVal (bs : List Byte) : Nat := ofBytes bs.reverse

/-! ## SHA-384 -/

/-- The round constants. -/
def shaK0 : List DWord :=
  [0x428A2F98D728AE22, 0x7137449123EF65CD, 0xB5C0FBCFEC4D3B2F, 0xE9B5DBA58189DBBC,
   0x3956C25BF348B538, 0x59F111F1B605D019, 0x923F82A4AF194F9B, 0xAB1C5ED5DA6D8118,
   0xD807AA98A3030242, 0x12835B0145706FBE, 0x243185BE4EE4B28C, 0x550C7DC3D5FFB4E2,
   0x72BE5D74F27B896F, 0x80DEB1FE3B1696B1, 0x9BDC06A725C71235, 0xC19BF174CF692694,
   0xE49B69C19EF14AD2, 0xEFBE4786384F25E3, 0x0FC19DC68B8CD5B5, 0x240CA1CC77AC9C65,
   0x2DE92C6F592B0275, 0x4A7484AA6EA6E483, 0x5CB0A9DCBD41FBD4, 0x76F988DA831153B5,
   0x983E5152EE66DFAB, 0xA831C66D2DB43210, 0xB00327C898FB213F, 0xBF597FC7BEEF0EE4,
   0xC6E00BF33DA88FC2, 0xD5A79147930AA725, 0x06CA6351E003826F, 0x142929670A0E6E70,
   0x27B70A8546D22FFC, 0x2E1B21385C26C926, 0x4D2C6DFC5AC42AED, 0x53380D139D95B3DF,
   0x650A73548BAF63DE, 0x766A0ABB3C77B2A8, 0x81C2C92E47EDAEE6, 0x92722C851482353B]
def shaK1 : List DWord :=
  [0xA2BFE8A14CF10364, 0xA81A664BBC423001, 0xC24B8B70D0F89791, 0xC76C51A30654BE30,
   0xD192E819D6EF5218, 0xD69906245565A910, 0xF40E35855771202A, 0x106AA07032BBD1B8,
   0x19A4C116B8D2D0C8, 0x1E376C085141AB53, 0x2748774CDF8EEB99, 0x34B0BCB5E19B48A8,
   0x391C0CB3C5C95A63, 0x4ED8AA4AE3418ACB, 0x5B9CCA4F7763E373, 0x682E6FF3D6B2B8A3,
   0x748F82EE5DEFB2FC, 0x78A5636F43172F60, 0x84C87814A1F0AB72, 0x8CC702081A6439EC,
   0x90BEFFFA23631E28, 0xA4506CEBDE82BDE9, 0xBEF9A3F7B2C67915, 0xC67178F2E372532B,
   0xCA273ECEEA26619C, 0xD186B8C721C0C207, 0xEADA7DD6CDE0EB1E, 0xF57D4F7FEE6ED178,
   0x06F067AA72176FBA, 0x0A637DC5A2C898A6, 0x113F9804BEF90DAE, 0x1B710B35131C471B,
   0x28DB77F523047D84, 0x32CAAB7B40C72493, 0x3C9EBE0A15C9BEBC, 0x431D67C49C100D4C,
   0x4CC5D4BECB3E42B6, 0x597F299CFC657E2A, 0x5FCB6FAB3AD6FAEC, 0x6C44198C4A475817]
def shaK : List DWord := shaK0 ++ shaK1

/-- The eight working words. -/
structure Sha where
  a : DWord
  b : DWord
  c : DWord
  d : DWord
  e : DWord
  f : DWord
  g : DWord
  h : DWord
  deriving DecidableEq, Repr

/-- The initial hash value. -/
def shaInit : Sha :=
  { a := 0xcbbb9d5dc1059ed8, b := 0x629a292a367cd507, c := 0x9159015a3070dd17, d := 0x152fecd8f70e5939
    e := 0x67332667ffc00b31, f := 0x8eb44a8768581511, g := 0xdb0c2e0d64f98fa7, h := 0x47b5481dbefa4fa4 }

/-- One round with its constant and its word of the schedule. -/
def shaRound (x : Sha) (k w : DWord) : Sha :=
  let s1 := x.e.rotateRight 14 ^^^ x.e.rotateRight 18 ^^^ x.e.rotateRight 41
  let ch := (x.e &&& x.f) ^^^ (~~~x.e &&& x.g)
  let t1 := x.h + s1 + ch + k + w
  let s0 := x.a.rotateRight 28 ^^^ x.a.rotateRight 34 ^^^ x.a.rotateRight 39
  let maj := (x.a &&& x.b) ^^^ (x.a &&& x.c) ^^^ (x.b &&& x.c)
  { a := t1 + (s0 + maj), b := x.a, c := x.b, d := x.c, e := x.d + t1, f := x.e, g := x.f, h := x.g }

/-- The schedule, latest word first, extended by n words. -/
def shaExtend : Nat → List DWord → List DWord
  | 0, l => l
  | n + 1, l =>
    let x := l.getD 14 0
    let y := l.getD 1 0
    let s0 := x.rotateRight 1 ^^^ x.rotateRight 8 ^^^ x >>> 7
    let s1 := y.rotateRight 19 ^^^ y.rotateRight 61 ^^^ y >>> 6
    shaExtend n ((l.getD 15 0 + s0 + l.getD 6 0 + s1) :: l)

/-- A message block of 128 bytes taken in. -/
def shaBlock (h : Sha) (blk : List Byte) : Sha :=
  let w := (List.range 16).map (fun i => BitVec.ofNat 64 (beVal ((blk.drop (8 * i)).take 8)))
  let ws := (shaExtend 64 w.reverse).reverse
  let x := (shaK.zip ws).foldl (fun x e => shaRound x e.1 e.2) h
  { a := h.a + x.a, b := h.b + x.b, c := h.c + x.c, d := h.d + x.d
    e := h.e + x.e, f := h.f + x.f, g := h.g + x.g, h := h.h + x.h }

/-- The padded message. -/
def shaPad (m : List Byte) : List Byte :=
  m ++ [0x80] ++ List.replicate ((128 - (m.length + 17) % 128) % 128) 0 ++ beBytes 16 (8 * m.length)

/-- The SHA-384 digest of a byte string. -/
def sha384 (m : List Byte) : BitVec 384 :=
  let p := shaPad m
  let x := (List.range (p.length / 128)).foldl (fun h i => shaBlock h ((p.drop (128 * i)).take 128)) shaInit
  x.a ++ x.b ++ x.c ++ x.d ++ x.e ++ x.f

/-- A digest as bytes. -/
def digestBytes (d : BitVec 384) : List Byte := beBytes 48 d.toNat

/-! ## Elliptic curves -/

/-- A curve y² = x³ + a x + b over the integers mod p with a base point of prime order n. -/
structure Curve where
  p  : Nat
  a  : Nat
  b  : Nat
  gx : Nat
  gy : Nat
  n  : Nat
  deriving DecidableEq, Repr

/-- brainpoolP384r1, which signs the boot stages (R433). -/
def brainpoolP384r1 : Curve :=
  { p := 0x8CB91E82A3386D280F5D6F7E50E641DF152F7109ED5456B412B1DA197FB71123ACD3A729901D1A71874700133107EC53
    a := 0x7BC382C63D8C150C3C72080ACE05AFA0C2BEA28E4FB22787139165EFBA91F90F8AA5814A503AD4EB04A8C7DD22CE2826
    b := 0x04A8C7DD22CE28268B39B55416F0447C2FB77DE107DCD2A62E880EA53EEB62D57CB4390295DBC9943AB78696FA504C11
    gx := 0x1D1C64F068CF45FFA2A63A81B7C13F6B8847A3E77EF14FE3DB7FCAFE0CBD10E8E826E03436D646AAEF87B2E247D4AF1E
    gy := 0x8ABE1D7520F9C2A45CB1EB8E95CFD55262B70B29FEEC5864E19C054FF99129280E4646217791811142820341263C5315
    n := 0x8CB91E82A3386D280F5D6F7E50E641DF152F7109ED5456B31F166E6CAC0425A7CF3AB6AF6B7FC3103B883202E9046565 }

/-- NIST P-384, which signs the responder's answers (R435). -/
def nistP384 : Curve :=
  { p := 2 ^ 384 - 2 ^ 128 - 2 ^ 96 + 2 ^ 32 - 1
    a := 2 ^ 384 - 2 ^ 128 - 2 ^ 96 + 2 ^ 32 - 4
    b := 0xB3312FA7E23EE7E4988E056BE3F82D19181D9C6EFE8141120314088F5013875AC656398D8A2ED19D2A85C8EDD3EC2AEF
    gx := 0xAA87CA22BE8B05378EB1C71EF320AD746E1D3B628BA79B9859F741E082542A385502F25DBF55296C3A545E3872760AB7
    gy := 0x3617DE4A96262C6F5D9E98BF9292DC29F8F41DBD289A147CE9DA3113B5F0B8C00A60B1CE1D7E819D7A431D7C90EA0E5F
    n := 0xFFFFFFFFFFFFFFFFFFFFFFFFFFFFFFFFFFFFFFFFFFFFFFFFC7634D81F4372DDF581A0DB248B0A77AECEC196ACCC52973 }

/-- A point of a curve; none is the point at infinity. -/
abbrev Point : Type := Option (Nat × Nat)

/-- A power mod m of at most n exponent bits. -/
def powMod (m : Nat) : Nat → Nat → Nat → Nat
  | 0, _, _ => 1 % m
  | n + 1, x, e => (if e % 2 = 1 then x else 1) * powMod m n (x * x % m) (e / 2) % m

/-- The inverse mod a prime. -/
def invMod (m x : Nat) : Nat := powMod m 384 (x % m) (m - 2)

/-- A difference mod m. -/
def subMod (m x y : Nat) : Nat := (x % m + m - y % m) % m

/-- The sum of two points. -/
def Curve.add (c : Curve) (x y : Point) : Point :=
  match x, y with
  | none, y => y
  | x, none => x
  | some (x1, y1), some (x2, y2) =>
    let chord (num den : Nat) : Point :=
      let l := num * invMod c.p den % c.p
      let x3 := subMod c.p (l * l) (x1 + x2)
      some (x3, subMod c.p (l * subMod c.p x1 x3) y1)
    if x1 = x2 then
      if (y1 + y2) % c.p = 0 then none else chord (3 * x1 * x1 + c.a) (2 * y1)
    else chord (subMod c.p y2 y1) (subMod c.p x2 x1)

/-- A multiple of a point, of at most n bits. -/
def Curve.mul (c : Curve) : Nat → Nat → Point → Point
  | 0, _, _ => none
  | n + 1, k, x =>
    let rest := c.mul n (k / 2) (c.add x x)
    if k % 2 = 1 then c.add x rest else rest

/-- A multiple of the base point. -/
def Curve.base (c : Curve) (k : Nat) : Point := c.mul 384 k (some (c.gx, c.gy))

/-- A pair of coordinates is a point of the curve. -/
def Curve.on (c : Curve) (x y : Nat) : Bool :=
  decide (x < c.p) && decide (y < c.p) && y * y % c.p == (x * x * x + c.a * x + c.b) % c.p

/-- The upper and lower halves of a pair of numbers. -/
def upper384 (v : BitVec 768) : Nat := v.toNat / 2 ^ 384
def lower384 (v : BitVec 768) : Nat := v.toNat % 2 ^ 384

/-- An ECDSA signature of a digest verifies under a public key. -/
def ecdsaVerify (c : Curve) (key sig : BitVec 768) (digest : BitVec 384) : Bool :=
  let r := upper384 sig
  let s := lower384 sig
  let w := invMod c.n s
  c.on (upper384 key) (lower384 key) && r != 0 && decide (r < c.n) && s != 0 && decide (s < c.n) &&
  match c.add (c.base (digest.toNat * w % c.n)) (c.mul 384 (r * w % c.n) (some (upper384 key, lower384 key))) with
  | some (x, _) => x % c.n == r
  | none => false

/-- The public key of a private one. -/
def Curve.public (c : Curve) (d : Nat) : BitVec 768 :=
  match c.base (d % c.n) with
  | some (x, y) => BitVec.ofNat 768 (x * 2 ^ 384 + y)
  | none => 0

/-- An ECDSA signature of a digest with a private key and a draw. -/
def ecdsaSign (c : Curve) (d : Nat) (digest : BitVec 384) (k : Nat) : BitVec 768 :=
  match c.base (k % c.n) with
  | some (x, _) =>
    let r := x % c.n
    BitVec.ofNat 768 (r * 2 ^ 384 + invMod c.n k * (digest.toNat + r * d) % c.n)
  | none => 0

end Sys2Proof.Machine
end

