-- ==== Sys2Proof/Machine/Spdm.lean ====
section
/-! DEFINITION. What the boot stages verify and measure (20: R433, R434) and the SPDM responder over the host mailbox (20:
R435, R438). The layout of SPDM 1.2 messages is that of DMTF DSP0274, which the spec names (log entry 20). -/

namespace Sys2Proof.Machine

/-! ## Signatures and measurements (R433, R434) -/

/-- The digest of what bring-up measures: the boot ROM's identity and the fused key digest (0), a stage's image. -/
def imageDigest : Nat → BitVec 384
  | 0 => sha384 (Config.bootImage 0 ++ digestBytes Config.keyDigest)
  | n => sha384 (Config.bootImage n)

/-- A stage verifies: its signing key has the fused digest, and its signature over its digest is good. -/
def stageVerifies (n : Nat) : Bool :=
  sha384 (beBytes 96 (Config.bootKey n).toNat) == Config.keyDigest &&
  ecdsaVerify brainpoolP384r1 (Config.bootKey n) (Config.bootSig n) (imageDigest n)

/-- The digest of the fused configuration: PROF, the fused fields of CAP, ERRWIN. -/
def fusedDigest (s : State) : BitVec 384 :=
  sha384 (toBytes 4 s.idn.prof.toNat ++ toBytes 8 (capWith s.idn.cap 0).toNat ++ toBytes 8 s.idn.errwin.toNat)

/-- The digest of a bring-up result: CAP, then CORESTAT of every core. -/
def resultDigest (cap : DWord) (stats : List Word) : BitVec 384 :=
  sha384 (toBytes 8 cap.toNat ++ stats.flatMap (fun v => toBytes 4 v.toNat))

/-- Measurements 1 to 4. -/
def bootMeasures (s : State) : List (BitVec 384) := [imageDigest 0, imageDigest 1, imageDigest 2, fusedDigest s]

/-- The measurements that the responder gives, by index: in recovery those of the boot ROM and of the stage that failed. -/
def measured (b : Boot) : List (Nat × BitVec 384) :=
  match b.phase with
  | .recovery stage => [(1, b.meas.getD 0 0), (stage + 1, b.meas.getD 1 0)]
  | _ => b.meas.zipIdx.map (fun e => (e.2 + 1, e.1))

/-! ## The attestation key and its certificates (R435) -/

/-- The private attestation key of this reset. -/
def attestOf (b : Boot) : Nat := (Config.attestKey (b.meas.take 3)).toNat

/-- The chain of slot 0: its length, the root's digest, the certificates. -/
def certChain (b : Boot) : List Byte :=
  let certs := Config.rootCertificate ++ Config.keyCertificate (nistP384.public (attestOf b))
  toBytes 2 (52 + certs.length) ++ [0, 0] ++ digestBytes (sha384 Config.rootCertificate) ++ certs

/-- The context strings of SPDM 1.2 signatures: "dmtf-spdm-v1.2.*", "responder-challenge_auth signing" and
"responder-measurements signing" in ASCII. -/
def signPrefix : List Byte :=
  [0x64, 0x6D, 0x74, 0x66, 0x2D, 0x73, 0x70, 0x64, 0x6D, 0x2D, 0x76, 0x31, 0x2E, 0x32, 0x2E, 0x2A]
def challengeContext : List Byte :=
  [0x72, 0x65, 0x73, 0x70, 0x6F, 0x6E, 0x64, 0x65, 0x72, 0x2D, 0x63, 0x68, 0x61, 0x6C, 0x6C, 0x65, 0x6E, 0x67, 0x65, 0x5F,
   0x61, 0x75, 0x74, 0x68, 0x20, 0x73, 0x69, 0x67, 0x6E, 0x69, 0x6E, 0x67]
def measureContext : List Byte :=
  [0x72, 0x65, 0x73, 0x70, 0x6F, 0x6E, 0x64, 0x65, 0x72, 0x2D, 0x6D, 0x65, 0x61, 0x73, 0x75, 0x72, 0x65, 0x6D, 0x65, 0x6E,
   0x74, 0x73, 0x20, 0x73, 0x69, 0x67, 0x6E, 0x69, 0x6E, 0x67]

/-- The digest that a signature covers: of the prefix, four times over, the context filled up to 36 bytes in front, and the
digest of the transcript. -/
def signedDigest (context transcript : List Byte) : BitVec 384 :=
  sha384 (signPrefix ++ signPrefix ++ signPrefix ++ signPrefix ++ List.replicate (36 - context.length) 0 ++ context ++
    digestBytes (sha384 transcript))

/-- A response with its signature over a transcript that ends with it. -/
def signedBy (b : Boot) (draw : BitVec 384) (context before rsp : List Byte) : List Byte :=
  rsp ++ beBytes 96 (ecdsaSign nistP384 (attestOf b) (signedDigest context (before ++ rsp)) draw.toNat).toNat

/-! ## Messages -/

/-- Byte i of a request, and a number of n bytes in it. -/
def reqByte (req : List Byte) (i : Nat) : Nat := (req.getD i 0).toNat
def reqVal (req : List Byte) (i n : Nat) : Nat := ofBytes ((List.range n).map (fun k => req.getD (i + k) 0))

/-- An ERROR response. -/
def spdmError (code data : Nat) : List Byte := [0x12, 0x7F, BitVec.ofNat 8 code, BitVec.ofNat 8 data]

/-- VERSION: 1.2 alone. -/
def versionMsg : List Byte := [0x10, 0x04, 0, 0, 0, 1, 0x00, 0x12]

/-- CAPABILITIES: certificates, challenges, signed measurements; messages of up to 4,096 bytes. -/
def capabilitiesMsg : List Byte :=
  [0x12, 0x61, 0, 0, 0, Config.spdmTime, 0, 0] ++ toBytes 4 0x16 ++ toBytes 4 4096 ++ toBytes 4 4096

/-- ALGORITHMS: ECDSA over NIST P-384 and SHA-384, where the request offers them, and nothing else. -/
def algorithmsMsg (req : List Byte) : List Byte :=
  [0x12, 0x63, 0, 0] ++ toBytes 2 36 ++ [BitVec.ofNat 8 (Nat.land (reqByte req 6) 1), 0] ++ toBytes 4 4 ++
  toBytes 4 (Nat.land (reqVal req 8 4) 0x80) ++ toBytes 4 (Nat.land (reqVal req 12 4) 2) ++ List.replicate 16 0

/-- DIGESTS: slot 0 alone. -/
def digestsMsg (b : Boot) : List Byte := [0x12, 0x01, 0, 1] ++ digestBytes (sha384 (certChain b))

/-- CERTIFICATE: a portion of the chain of slot 0; the other slots are empty. -/
def certificateMsg (b : Boot) (req : List Byte) : List Byte :=
  let chain := certChain b
  let off := reqVal req 4 2
  let n := min (min (reqVal req 6 2) (chain.length - off)) 4088
  if reqByte req 2 % 16 != 0 || chain.length ≤ off then spdmError 1 0
  else [0x12, 0x02, 0, 0] ++ toBytes 2 n ++ toBytes 2 (chain.length - off - n) ++ (chain.drop off).take n

/-- The kind of a measurement: immutable ROM, mutable firmware, hardware configuration, firmware configuration. -/
def measureKind : Nat → Byte
  | 1 => 0
  | 4 => 2
  | 5 => 3
  | _ => 1

/-- A measurement block. -/
def measureBlock (m : Nat × BitVec 384) : List Byte :=
  [BitVec.ofNat 8 m.1, 1] ++ toBytes 2 51 ++ [measureKind m.1] ++ toBytes 2 48 ++ digestBytes m.2

/-- CHALLENGE_AUTH for slot 0, with a summary of the measurements when it is asked for. -/
def challengeMsg (b : Boot) (nonce draw : BitVec 384) (req : List Byte) : List Byte :=
  let kind := reqByte req 3
  if reqByte req 2 != 0 || !(kind == 0 || kind == 1 || kind == 255) then spdmError 1 0
  else
    let all := (measured b).flatMap measureBlock
    signedBy b draw challengeContext (b.spdm.vca ++ b.spdm.auth ++ req)
      ([0x12, 0x03, 0, 1] ++ digestBytes (sha384 (certChain b)) ++ toBytes 32 nonce.toNat ++
       (if kind = 0 then [] else digestBytes (sha384 all)) ++ toBytes 2 0)

/-- MEASUREMENTS: how many there are, all of them, or one; signed when asked. -/
def measurementsMsg (b : Boot) (nonce draw : BitVec 384) (req : List Byte) : List Byte :=
  let ms := measured b
  let op := reqByte req 3
  let got := if op = 0 then [] else if op = 255 then ms else ms.filter (fun m => m.1 == op)
  if op != 0 && got.isEmpty then spdmError 1 0
  else
    let rec_ := got.flatMap measureBlock
    let rsp := [0x12, 0x60, BitVec.ofNat 8 (if op = 0 then ms.length else 0), 0, BitVec.ofNat 8 got.length] ++
      toBytes 3 rec_.length ++ rec_ ++ toBytes 32 nonce.toNat ++ toBytes 2 0
    if reqByte req 2 % 2 = 1 then signedBy b draw measureContext (b.spdm.vca ++ b.spdm.meas ++ req) rsp else rsp

/-- How far a connection must be agreed before a request: capabilities come after the version, algorithms after the
capabilities, all else after the algorithms. -/
def spdmComes (step code : Nat) : Bool :=
  match code with
  | 0x84 => true
  | 0xE1 => step == 1
  | 0xE3 => step == 2
  | _ => step == 3

/-- The answer to a supported request. -/
def spdmAnswer (b : Boot) (nonce draw : BitVec 384) (req : List Byte) : List Byte :=
  if reqByte req 1 != 0x84 && reqByte req 0 != 0x12 then spdmError 0x41 0
  else if !spdmComes b.spdm.step (reqByte req 1) then spdmError 0x04 0
  else
    match reqByte req 1 with
    | 0x84 => versionMsg
    | 0xE1 => capabilitiesMsg
    | 0xE3 => algorithmsMsg req
    | 0x81 => digestsMsg b
    | 0x82 => certificateMsg b req
    | 0x83 => challengeMsg b nonce draw req
    | _ => measurementsMsg b nonce draw req

/-- The code of the request in the mailbox. -/
def requestCode (b : Boot) : Nat := reqByte b.req 1

/-- The request codes that the responder answers (DMTF DSP0274). -/
def spdmCodes : List Nat := [0x84, 0xE1, 0xE3, 0x81, 0x82, 0x83, 0xE0]

/-- An answer is an ERROR. -/
def isError (rsp : List Byte) : Bool := reqByte rsp 1 == 0x7F

/-- The messages that later signatures cover, when a request has come: any but GET_MEASUREMENTS ends a run of those, a
GET_MEASUREMENTS or a GET_DIGESTS one of certificate messages. -/
def spdmCut (x : Spdm) (code : Nat) : Spdm :=
  { x with
    meas := if code = 0xE0 then x.meas else []
    auth := if code = 0xE0 || code = 0x81 then [] else x.auth }

/-- The connection after a request and its answer. An ERROR enters no transcript, a signature ends its own. -/
def spdmAfter (x : Spdm) (req rsp : List Byte) : Spdm :=
  let y := spdmCut x (reqByte req 1)
  let both := req ++ rsp
  if isError rsp then { y with meas := [] }
  else
    match reqByte req 1 with
    | 0x84 => { step := 1, vca := both }
    | 0xE1 => { y with step := 2, vca := y.vca ++ both }
    | 0xE3 => { y with step := if reqVal rsp 12 4 = 0 || reqVal rsp 16 4 = 0 then 2 else 3, vca := y.vca ++ both }
    | 0x81 => { y with auth := y.auth ++ both }
    | 0x82 => { y with auth := y.auth ++ both }
    | 0xE0 => { y with meas := if reqByte req 2 % 2 = 1 then [] else y.meas ++ both }
    | _ => { y with auth := [] }

/-- A response is put into the mailbox and BUSY falls. -/
def respond (bs : List Byte) : Eff := fun s =>
  [.boot { s.boot with
     busy := false, rlen := min 4096 bs.length, rsp := bs.take 4096
     spdm := spdmAfter s.boot.spdm (s.boot.req.take s.boot.len) bs }, .fresh (s.fresh + 2)]

/-- The answer to a supported request that stands in the mailbox. -/
def answer (code : Nat) : Eff := fun s =>
  if s.boot.busy && requestCode s.boot = code then
    respond (spdmAnswer s.boot (Config.spdmDraw s.fresh) (Config.spdmDraw (s.fresh + 1)) (s.boot.req.take s.boot.len)) s
  else []

end Sys2Proof.Machine
end

