-- ==== Sys2Proof/Machine/Package.lean ====
section
/-! DEFINITION. The package: bring-up and the requests of the mailbox (20: R432 to R438), links, memories outside,
clocks and ports (01: R15 to R18; 06: R167, R168; 14: R339, R340; 20: R436, R437, R440 to R444), errors (16: R376, R377).
An event whose condition does not hold changes nothing. -/

namespace Sys2Proof.Machine

/-! ## Bring-up (R432, R433) -/

/-- CORESTAT with its derived fields (R17, R18), from the failed-port bits. -/
def corestatOf (vp0 vp1 rtfail : Nat) : Word :=
  let half := Nat.xor vp0 vp1 % 16
  let dead := Nat.land vp0 vp1 % 16
  BitVec.ofNat 32 ((if dead = 15 then 0 else 1) + rtfail * 8 + vp0 % 16 * 2 ^ 4 + vp1 % 16 * 2 ^ 8 + half * 2 ^ 12 + dead * 2 ^ 16)

/-- CORESTAT of a core at bring-up. -/
def bringUpStat (c : Nat) : Word :=
  corestatOf ((Config.bringUpPorts c).toNat % 16) ((Config.bringUpPorts c).toNat / 16) 0

/-- The links that trained. -/
def bringUpUp : DWord := Config.bringUpLinks.setWidth 64

/-- CAP's bring-up fields: a count of channels below 49, of ports below 9, and the links that trained. -/
def bringUpCaps : DWord :=
  let v := Config.bringUpCap
  let links := ((List.range 36).filter (fun i => bit bringUpUp.toNat i)).length
  setFld (setFld (setFld v 47 42 links) 41 38 (fld v 41 38 % 9)) 37 32 (fld v 37 32 % 49)

/-- PODID after training. -/
def bringUpPodid : Word := if bringUpUp == 0 then 0x1FF else BitVec.ofNat 32 (Config.bringUpPod.toNat % 288)

/-- Steps 1 to 4 of bring-up: a stage that fails to verify leaves the package in recovery; two failed UCIe modules stop it
at step 3 (R437). -/
def bringUp : Eff := fun s =>
  let halt (p : BootPhase) (meas : List (BitVec 384)) : List Upd := [.boot { phase := p, meas := meas }]
  if !stageVerifies 1 then halt (.recovery 1) [imageDigest 0, imageDigest 1]
  else if !stageVerifies 2 then halt (.recovery 2) [imageDigest 0, imageDigest 2]
  else if Config.bringUpUcie = 0 then halt .stopped (bootMeasures s)
  else
    let cap := capWith s.idn.cap bringUpCaps
    let last := resultDigest cap ((List.range 768).map bringUpStat)
    (List.range 768).map (fun c => .core c { getCore s c with corestat := bringUpStat c }) ++
    [.ident .cap bringUpCaps, .ident .podid (bringUpPodid.setWidth 64), .ident .lnkstat bringUpUp,
     .boot { phase := .up, meas := bootMeasures s ++ [last] }]

/-- PACKAGE_RESET: everything but memory is reset, then bring-up runs. -/
def execPackageReset : State → Host.Outcome State Fault Refusal := commit (Eff.seq (fun _ => [.reset]) bringUp)

/-! ## The timing unit (R339, R340) -/

/-- TSTAT with its fields. -/
def tstatOf (lock hold : Bool) (err : Nat) : Word :=
  BitVec.ofNat 32 (lock.toNat * 2 ^ 31 + hold.toNat * 2 ^ 30 + min err (2 ^ 24 - 1))

/-- A bound on the error while locked: at most 40 ns, otherwise free (log entry 17). -/
def lockedErr (s : State) : Nat := (Config.freeValue s.fresh).toNat % 41

/-- TIMING_LOCK: the first lock after reset may step TIME to the reference, whose value is free; system software may then
enable queues. -/
def execTimingLock : State → Host.Outcome State Fault Refusal := fun s =>
  commit (fun s =>
    if s.boot.phase != .up then []
    else
      [.clk { s.clk with
         time := (Config.freeValue (s.fresh + 1)).toNat % (2 ^ 34 * 1000000000), sub := 0, locked := true
         tstat := tstatOf true false (lockedErr s) },
       .boot { s.boot with phase := .ready }, .fresh (s.fresh + 2)]) s

/-- REFERENCE_LOSS: HOLD. -/
def execReferenceLoss : State → Host.Outcome State Fault Refusal := fun s =>
  commit (fun s =>
    if bit s.clk.tstat.toNat 31 then
      [.clk { s.clk with tstat := tstatOf false true (bits s.clk.tstat.toNat 23 0) }]
    else []) s

/-- REFERENCE_RELOCK: LOCK again, with a tight bound. -/
def execReferenceRelock : State → Host.Outcome State Fault Refusal := fun s =>
  commit (fun s =>
    if bit s.clk.tstat.toNat 30 then
      [.clk { s.clk with tstat := tstatOf true false (lockedErr s) }, .fresh (s.fresh + 1)]
    else []) s

/-! ## Power (R443, R444) -/

/-- PWRSTAT of a clock in MHz with the reasons of its limit. -/
def pwrstatOf (v : Word) : Word :=
  let mhz := bits v.toNat 11 0
  BitVec.ofNat 32 (bits v.toNat 27 24 * 2 ^ 24 + (if mhz < 1050 then 1 else 0) * 2 ^ 12 + mhz)

/-- A clock the package may run at. -/
def clockOk (v : Word) : Bool :=
  let mhz := bits v.toNat 11 0
  mhz % 25 == 0 && decide (300 ≤ mhz) && decide (mhz ≤ 1050)

/-- CLOCK_CHANGE to a clock and reasons laid out as PWRSTAT: the card, and PWRSTAT from the end of this cycle on (R444). -/
def execClockChange (v : Word) : State → Host.Outcome State Fault Refusal :=
  commit (if clockOk v then
    Eff.seq (fun s => [.clk { s.clk with change := some (pwrstatOf v) }])
      (emit (pkgSrc 10) 20 255 0 0 ((pwrstatOf v).setWidth 64) 0)
  else Eff.nop)

/-! ## CXL devices (R260, R442) -/

/-- A CXL device's own engines write its memory: no cached copy of the package hears of it. -/
def deviceWrite (a : Nat) (bs : List Byte) : Eff := fun s =>
  if (List.range bs.length).all (fun i => isCxl (a + i) && physExists s (a + i) && !portGone s (a + i)) then
    writeMem (cellsAt a bs) s
  else []

/-! ## Ports (R18, R167, R168) -/

/-- The launches that have a block on a partition. -/
def partLaunches (s : State) (c p : Nat) : List Nat :=
  ((s.blocks.filter (fun e => e.2.core == c && e.2.part == p)).map (fun e => e.2.launch)).eraseDups

/-- The frank of the one launch of a list, 0 when there is none or more than one (R471). -/
def soleFrank (s : State) (ls : List Nat) : Nat :=
  match ls with
  | [n] => (match mfind s.mail.launches n with
    | some l => frankOf l
    | none => 0)
  | _ => 0

/-- A failure of a port of a partition takes effect (R167). -/
def portFails (c p port : Nat) : Eff := fun s =>
  let k := getCore s c
  let v := k.corestat.toNat
  let at_ := 4 + 4 * port + p
  if bit v at_ || 3 < p || 1 < port || !bit v 0 then []
  else
    let w := v + 2 ^ at_
    let new := corestatOf (bits w 7 4) (bits w 11 8) 1
    let ls := partLaunches s c p
    Eff.all
      [fun _ => [.core c { k with corestat := new }],
       emit (coreSrc c p 9) 16 255 0 (soleFrank s ls) (BitVec.ofNat 64 (p + 4 * port)) (new.setWidth 64),
       hostEvent 3,
       Eff.when (bit new.toNat (16 + p))
         (if ls.isEmpty then machineCheck none 19 9 c (coreSrc c p 9) 0
          else Eff.forEach ls (fun n => machineCheck (some n) 19 9 c (coreSrc c p 9) 0))] s

/-- A port's failure is detected; it takes effect at the end of the cycle (R167), so a read or an acknowledgement in that cycle
comes before it (R18). -/
def portFailing (c p port : Nat) : Eff := fun s =>
  let k := getCore s c
  if bit k.corestat.toNat (4 + 4 * port + p) || 3 < p || 1 < port || !bit k.corestat.toNat 0 || k.failing.contains (p, port) then []
  else [.core c { k with failing := k.failing ++ [(p, port)] }]

/-- PORT_FAILURE of a core, a partition and a port. -/
def execPortFailure : State → Host.Outcome State Fault Refusal := fun s =>
  commit (portFailing (subjAt s 0) (subjAt s 1) (subjAt s 2)) s

/-- What takes effect in a core at the end of a cycle: the ports that failed in it, and a new AGELIM (R99, R167). -/
def coreCycleEnd (c : Nat) : Eff := fun s =>
  let k := getCore s c
  if k.failing.isEmpty && k.agewas.isNone then []
  else Eff.seq (fun _ => [.core c { k with failing := [], agewas := none }]) (Eff.forEach k.failing (fun f => portFails c f.1 f.2)) s

/-! ## Links (R437, R441, R442) -/

/-- UCIE_MODULE_FAILURE: time alone, a CE card and a host event. -/
def execUcieModuleFailure : State → Host.Outcome State Fault Refusal :=
  commit (Eff.seq (emit (pkgSrc 8) 17 255 0 0 9 0) (hostEvent 4))

/-- LINK_LOSS of a link. -/
def execLinkLoss : State → Host.Outcome State Fault Refusal := fun s =>
  commit (fun s =>
    let v := s.idn.lnkstat
    let i := subjAt s 0
    if i < 36 && bit v.toNat i then
      Eff.seq (fun _ => [.ident .lnkstat (setFld (setFld v i i 0) 63 63 1)]) (hostEvent 4) s
    else []) s

/-- CXL_SURPRISE_REMOVAL of a port's device. -/
def execCxlSurpriseRemoval : State → Host.Outcome State Fault Refusal := fun s =>
  commit (fun s =>
    let p := subjAt s 0
    if p < 8 && !s.coh.removed.contains p then [.coh { s.coh with removed := s.coh.removed ++ [p] }] else []) s

/-! ## Errors (R376, R377) -/

/-- The mark of an error that lies in a unit of a core (R376): at the core's L1 copy, privatised or not, or at its instruction
cache's copy, when it has one; at an L2 slice; else at the line's home (log entry 64). -/
def markError (unit core line : Nat) : Eff := fun s =>
  let k := getCore s core
  let d := getDir s line
  let bad : Dir := { d with priv := d.priv.map (fun p => if p.core == core then { p with poison := true } else p) }
  match unit, mfind k.l1 line, privOwn s core line, mfind k.icache line with
  | 3, some l, _, _ => [.core core { k with l1 := mput k.l1 line { l with poison := true } }]
  | 3, none, some _, _ => [.coh { s.coh with dirs := mput s.coh.dirs line bad }]
  | 8, _, _, some _ => [.core core { k with icache := mput k.icache line true }]
  | 4, _, _, _ => [.coh { s.coh with poison := mput s.coh.poison line 4 }]
  | _, _, _, _ => markHome line true s

/-- A line marked poisoned, with its card. -/
def poisonLine (unit core addr : Nat) : Eff :=
  Eff.seq (markError unit core (lineOf addr))
    (emit (coreSrc core 0 8) 18 255 0 0 (BitVec.ofNat 64 unit) (BitVec.ofNat 64 (lineOf addr * 128)))

/-- The launch of a resident or saved block. -/
def launchAt (s : State) (blk : Nat) : Option Nat :=
  match mfind s.blocks blk with
  | some b => some b.launch
  | none => (s.mail.saved.find? (fun x => x.id == blk)).map (fun x => x.blk.launch)

/-- The launch whose scratchpad range holds an offset of a core. -/
def spadOwner (s : State) (core off : Nat) : Option Nat :=
  (s.blocks.find? (fun e => e.2.core == core && decide (e.2.spBase ≤ off) && decide (off < e.2.spBase + e.2.spSize))).map
    (fun e => e.2.launch)

/-- The launch whose agent met an error: that of the range for the scratchpad, else of the block that is the event's subject, if
there is one. -/
def errorLaunch (s : State) (unit core addr : Nat) : Option Nat :=
  if unit = 2 then spadOwner s core addr else s.subj.head?.bind (launchAt s)

/-- A corrected error: CECNT, saturating, and a CE card with the frank of the launch whose agent met it (R471); it names the
address of a line of memory or of a cache, and 0 for an array that has none (R390). -/
def corrected (unit core addr : Nat) : Eff := fun s =>
  let v := s.idn.mcstat
  Eff.seq (fun _ => [.ident .mcstat (setFld v 63 48 (min 65535 (fld v 63 48 + 1)))])
    (emit (coreSrc core 0 8) 17 255 0 (soleFrank s (errorLaunch s unit core addr).toList) (BitVec.ofNat 64 unit)
      (BitVec.ofNat 64 (if 3 ≤ unit && unit ≤ 8 then addr else 0))) s

/-- A machine check ECC of a launch; an array that no launch holds is not read. -/
def eccCheck (launch : Option Nat) (unit core : Nat) : Eff :=
  match launch with
  | some n => machineCheck (some n) 18 unit core (coreSrc core 0 8) 0
  | none => Eff.nop

/-- An uncorrectable error, by where it lies: block state of the block that is the subject, scratchpad, a memory or cache
line, a save image. -/
def uncorrected (unit core addr : Nat) : Eff := fun s =>
  match unit with
  | 0 => eccCheck (launchAt s (subjAt s 0)) 0 core s
  | 1 => eccCheck (launchAt s (subjAt s 0)) 1 core s
  | 2 => eccCheck (spadOwner s core addr) 2 core s
  | 10 => eccCheck (launchAt s (subjAt s 0)) 10 core s
  | _ => if 3 ≤ unit && unit ≤ 8 then poisonLine unit core addr s else []

/-- ECC_ERROR. -/
def execEccError (unit c addr : Nat) (correctable : Bool) : State → Host.Outcome State Fault Refusal :=
  commit (if correctable then corrected unit c addr else uncorrected unit c addr)

/-! ## Accesses from outside (R288, R436) -/

/-- The package is up as far as its links: with both UCIe modules failed, or a stage that did not verify, only the responder
answers (R433, R437). -/
def linksUp (s : State) : Bool :=
  match s.boot.phase with
  | .recovery _ => false
  | .stopped => false
  | _ => true

/-- An address that an agent outside the package may name: of the package's memory, or for the host of its own. -/
def served_ (s : State) (host : Bool) (a n : Nat) : Bool :=
  decide (a + n ≤ (if host then 2 ^ 48 else 2 ^ 47)) && physExists s a && physExists s (a + n - 1)

/-- What the host does at an address besides plain reads and writes, by its subject: cas, with the value to compare, and an
atomic add (R348, R436). -/
inductive HostAtom
  | plain
  | cas (cmp : Nat)
  | add
  deriving DecidableEq, Repr

/-- The kind of an access from outside. -/
def hostAtom : List Nat → HostAtom
  | [0, cmp] => .cas cmp
  | [1] => .add
  | _ => .plain

/-- Bytes that an agent outside the package writes reach the homes of their lines. -/
def outsideCells (a : Nat) (data : List Byte) : Eff := fun s =>
  Eff.forEach (linesOf a data.length) (fun l =>
    outsideWrite 0 l ((cellsAt a data).filter (fun (c : Host.Cell) => lineOf c.1 == l))) s

/-- An access from outside is performed at the homes of its lines; a read returns up to eight bytes, and an atomic the value
that it found, the newest in its bytes' coherence order. -/
def outside (a : Nat) (write : Bool) (data : List Byte) : Eff := fun s =>
  let n := if data.isEmpty then 8 else min 8 data.length
  let old (s : State) : Nat := ofBytes ((List.range n).map (fun i => lastByte s (a + i)))
  let atomic (new : Nat → Option Nat) : Eff :=
    Eff.seq (Eff.forEach (linesOf a n) mergeLine) (fun s =>
      .hostVal (BitVec.ofNat 64 (old s)) ::
      (match new (old s) with
       | some v => outsideCells a (toBytes n v) s
       | none => []))
  if write then
    match hostAtom s.subj with
    | .plain => outsideCells a data s
    | .cas cmp => atomic (fun v => if v = cmp then some (ofBytes data) else none) s
    | .add => atomic (fun v => some ((v + ofBytes data) % 2 ^ (8 * n))) s
  else
    Eff.all [Eff.forEach (linesOf a n) mergeLine, fun s => [.hostVal (BitVec.ofNat 64 (ofBytes (readBytes s.mem a n)))],
      Eff.when (decide (a < 2 ^ 47)) (countRead 0 a n)] s

/-- The outcome of an access from outside; a package whose links are down does not answer. -/
def outsideAccess (host : Bool) (a : Nat) (write : Bool) (data : List Byte) (s : State) : Host.Outcome State Fault Refusal :=
  if !linksUp s then .next s
  else if served_ s host a (max 1 data.length) then commit (outside a write data) s
  else .fault .noSuchAddress

/-- HOST_ACCESS. -/
def execHostAccess (a : Nat) (write : Bool) (data : List Byte) : State → Host.Outcome State Fault Refusal :=
  outsideAccess true a write data

/-- The replicas that the subject of a peer's access names: package and address of the first byte, by turns. -/
def subjReps : List Nat → List (Nat × Nat)
  | p :: a :: l => (p, a) :: subjReps l
  | _ => []

/-- PEER_ACCESS. A peer's write to a replicated page comes from the root switch: its subject names the bytes' replicas, and
the write takes its place in the root's order for each of them (R277; log entry 66). -/
def execPeerAccess (a : Nat) (write : Bool) (data : List Byte) : State → Host.Outcome State Fault Refusal := fun s =>
  let reps := subjReps s.subj
  if write && !reps.isEmpty && linksUp s then
    if served_ s false a (max 1 data.length) then
      commit (Eff.seq (replOrder reps 0 data)
        (Eff.forEach (reps.filter (fun r => r.1 == ownPkg s)) (fun r => countAt 0 r.2 data.length))) s
    else .fault .noSuchAddress
  else outsideAccess false a write data (applyAll [.subj []] s)

/-! ## SPDM (R435, R438) -/

/-- GET_VERSION. -/
def execGetVersion : State → Host.Outcome State Fault Refusal := commit (answer 0x84)
/-- GET_CAPABILITIES. -/
def execGetCapabilities : State → Host.Outcome State Fault Refusal := commit (answer 0xE1)
/-- NEGOTIATE_ALGORITHMS. -/
def execNegotiateAlgorithms : State → Host.Outcome State Fault Refusal := commit (answer 0xE3)
/-- GET_DIGESTS. -/
def execGetDigests : State → Host.Outcome State Fault Refusal := commit (answer 0x81)
/-- GET_CERTIFICATE. -/
def execGetCertificate : State → Host.Outcome State Fault Refusal := commit (answer 0x82)
/-- CHALLENGE. -/
def execChallenge : State → Host.Outcome State Fault Refusal := commit (answer 0x83)
/-- GET_MEASUREMENTS. -/
def execGetMeasurements : State → Host.Outcome State Fault Refusal := commit (answer 0xE0)

/-- UNSUPPORTED_REQUEST: ERROR UnsupportedRequest, naming the code. -/
def execUnsupportedRequest : State → Host.Outcome State Fault Refusal :=
  commit (fun s =>
    if s.boot.busy && !spdmCodes.contains (requestCode s.boot) then
      respond [0x12, 0x7F, 0x07, BitVec.ofNat 8 (requestCode s.boot)] s
    else [])

/-! ## The mailbox window (R438) -/

/-- A byte buffer with a dword written; what is past its end so far reads 0. -/
def putBuf (b : List Byte) (off : Nat) (v : DWord) : List Byte :=
  let b := b ++ List.replicate (off + 8 - b.length) 0
  b.take off ++ toBytes 8 v.toNat ++ b.drop (off + 8)

/-- A dword of a byte buffer. -/
def getBuf (b : List Byte) (off : Nat) : DWord := BitVec.ofNat 64 (ofBytes ((List.range 8).map (fun i => b.getD (off + i) 0)))

/-- The responder runs: the boot ROM has. -/
def responds (s : State) : Bool := s.boot.phase != .rom

/-- A write of a dword at an offset of the mailbox window below the registers. -/
def mailPut (off : Nat) (v : DWord) : Eff := fun s =>
  let b := s.boot
  if off = 0 then
    let go := fld v 0 0 == 1 && !b.busy && responds s
    [.boot { b with len := fld v 31 16, busy := b.busy || go }]
  else if 0x1000 ≤ off && off < 0x2000 && off % 8 = 0 then [.boot { b with req := putBuf b.req (off - 0x1000) v }]
  else []

/-- A read of a dword of the mailbox window below the registers. -/
def mailGet (s : State) (off : Nat) : DWord :=
  let b := s.boot
  if off = 0 then BitVec.ofNat 64 (b.len * 2 ^ 16 + b.busy.toNat * 2)
  else if off = 8 then BitVec.ofNat 64 b.rlen
  else if 0x1000 ≤ off && off < 0x2000 then getBuf b.req (off - 0x1000)
  else if 0x2000 ≤ off && off < 0x3000 then getBuf b.rsp (off - 0x2000)
  else 0

/-- The core that the host's accesses to per-core registers reach: left open (log entry 30). -/
def hostCore (s : State) : Nat := (Config.freeValue s.fresh).toNat % 768

/-- A write of the host at an offset of its window: the mailbox, or a special register, which a package that stopped at step 3
of bring-up does not answer for (R437). -/
def windowPut (off : Nat) (v : DWord) : Eff := fun s =>
  if off < 0x10000 then mailPut off v s
  else if !registersAnswer s then []
  else Eff.seq (hostPut (hostCore s) ((off - 0x10000) / 8) v) (fun s => [.fresh (s.fresh + 1)]) s

/-- A read of the host at an offset of its window. -/
def windowGet (off : Nat) : Eff := fun s =>
  if off < 0x10000 then [.hostVal (mailGet s off)]
  else if !registersAnswer s then []
  else Eff.seq (hostGet (hostCore s) ((off - 0x10000) / 8)) (fun s => [.fresh (s.fresh + 1)]) s

end Sys2Proof.Machine
end

