-- ==== Sys2Proof/Machine/StreamEvents.lean ====
section
/-! DEFINITION. Couriers' copies and the stream's engine operations as they start and end (07: R182, R183, R192; 08: R206;
09: R225 to R230, R247). An event whose condition does not hold changes nothing. -/

namespace Sys2Proof.Machine

/-! ## Couriers (R227) -/

/-- Some pieces meet a window's payload. -/
def piecesMeet (b : Block) (x : Win) (ps : List Piece) : Bool :=
  ps.any (fun p =>
    match p.place with
    | .spad c o => meetsPayload b x c o p.len
    | _ => false)

/-- A copy may begin: the stores that it comes after have left their queue and performed at package scope (R230, R302, R304), and
so has, in every queue and engine, what had passed the window's payload before its state changed: such an access was normal (R226)
and its bytes move before the copy's. What comes later has waited for the copy where it issued. -/
def forkDone (s : State) (b : Block) (x : Win) (j : CopyJob) : Bool :=
  (match placeOfUid s j.uid with
   | some (_, g) => g.sq.all (fun e => decide (j.after ≤ e.id))
   | none => true) &&
  s.coh.homeq.all (fun w => decide (j.after ≤ w.id) && w.uid != j.uid) &&
  s.groups.all (fun e => e.2.sq.all (fun q => decide (j.after ≤ q.id) || !q.items.any (fun it => piecesMeet b x it.pieces))) &&
  s.streams.all (fun e => e.2.ops.all (fun o => decide (j.after ≤ o.id) || !o.rows.any (piecesMeet b x)))

/-- An idle courier of a core. -/
def idleCourier (k : Core) : Option Nat := mfree k.couriers 2

/-- The start of a copy on a courier, when what it comes after is done. -/
def startCopy (s : State) (core n : Nat) (j : CopyJob) : Option Eff :=
  match mfind s.blocks j.blk with
  | none => none
  | some b =>
    if !forkDone s b (getWin b j.win) j then none
    else
      some (Eff.seq
        (fun s => [.core core { getCore s core with couriers := mput (getCore s core).couriers n j }])
        (copyCard j.blk b n j.win j 0 (winPayload (getWin b j.win)) 0))

/-- A courier of a core at a card-emission point of a copy (R397). -/
def courierPoint (s : State) (core n blk : Nat) (eff : Eff) : Option Eff :=
  cardPoint (coreSrc core 0 (2 + n)) blk (frankOfBlk s blk) eff s

/-- An idle courier takes the head of the queue, when the cycle in which it was queued is over: until then a copy may still
come before it (R227). -/
def courierTakes (s : State) (core : Nat) : Option Eff :=
  match idleCourier (getCore s core), (getCore s core).copyq with
  | some n, j :: rest =>
    if s.clk.cyc = j.cyc then none
    else
      (startCopy s core n j).bind (fun eff =>
        courierPoint s core n j.blk (Eff.seq (fun s => [.core core { getCore s core with copyq := rest }]) eff))
  | _, _ => none

/-- COURIER_START of a core. -/
def execCourierStart : State → Host.Outcome State Fault Refusal := fun s =>
  commit (fun s =>
    match courierTakes s (subjAt s 0) with
    | some eff => eff s
    | none => []) s

/-- A window has been touched and its copy is not over, or its copy-in has ended (R227). -/
def leadsOn (s : State) (b : Block) (x : Win) : Bool :=
  let v := readPostmark s b x
  x.state == .copyin || (x.state == .present && fld v 63 48 == x.seq && fld v 47 40 != 0 && fld v 31 31 == 0)

/-- The windows of a core that may be fetched ahead: block and window. -/
def aheadOf (s : State) (core : Nat) : List (Nat × Nat) :=
  (s.blocks.filter (fun e => e.2.core == core)).flatMap (fun e =>
    e.2.wins.filterMap (fun w =>
      match layNext w.2.layout with
      | some n =>
        if leadsOn s e.2 w.2 && (getWin e.2 n).state == .absent then some (e.1, n) else none
      | none => none))

/-- A run-ahead copy starts: the queue is empty, a courier is idle. -/
def aheadStarts (s : State) (core : Nat) : Option Eff :=
  if !(getCore s core).copyq.isEmpty then none
  else
    match idleCourier (getCore s core), aheadOf s core with
    | some n, (blk, w) :: _ =>
      match mfind s.blocks blk with
      | none => none
      | some b =>
        let x := getWin b w
        let j : CopyJob := { blk := blk, win := w, out := false, ra := true, uid := x.uid, after := x.after }
        (startCopy s core n j).bind (fun eff =>
          courierPoint s core n blk (Eff.seq (setWin blk w { x with state := .runahead }) eff))
    | _, _ => none

/-- RUNAHEAD_START of a core. -/
def execRunaheadStart : State → Host.Outcome State Fault Refusal := fun s =>
  commit (fun s =>
    match aheadStarts s (subjAt s 0) with
    | some eff => eff s
    | none => []) s

/-- The postmark of a copy that has ended (R229). -/
def endMark (x : Win) (j : CopyJob) (e : CopyEnd) : DWord :=
  let dir := j.out.toNat
  match e.cause with
  | none => postmark x.seq 1 0 dir j.ra.toNat j.win (winPayload x)
  | some c => postmark x.seq 2 c dir j.ra.toNat j.win e.good

/-- What the end of a copy does: its bytes, its postmark, PRESENT, the card, the courier idle; its block may be reclaimed
now. An access to a removed device is a machine check instead. -/
def finishCopy (core n : Nat) (j : CopyJob) (b : Block) (e : CopyEnd) : Eff :=
  let x := getWin b j.win
  if e.cause == some portCause then
    Eff.seq (fun _ => e.us) (machineCheck (some b.launch) 18 7 core (coreSrc core 0 8) 0)
  else
    let v := endMark x j e
    Eff.all
      [fun _ => e.us,
       fun s => [.fresh (s.fresh + 1)],
       writePostmark b x v,
       fun s =>
         match mfind s.blocks j.blk with
         | some b => setWin j.blk j.win { getWin b j.win with state := .present } s
         | none => [],
       dropCopy core j.blk j.win,
       copyCard j.blk b n j.win j 1 (winPayload x) v,
       reclaim j.blk]

/-- A courier's copy ends, when its accesses need not wait and its card does not stall it; a copy-out whose homes are not ready
arrives at them (R307). -/
def copyEnds (s : State) (core n : Nat) (out : Bool) : Option Eff :=
  match mfind (getCore s core).couriers n with
  | none => none
  | some j =>
    match mfind s.blocks j.blk with
    | none => none
    | some b =>
      if j.out != out then none
      else
        let x := getWin b j.win
        let who := engineWho s j.blk b
        let base := blkByte b x.off
        let k := Writer.courier core n
        match copyAll k who x base out j.moved s with
        | some e => courierPoint s core n j.blk (finishCopy core n j b e)
        | none =>
          let ps := outPieces s who x base (unitsLeft x j.moved)
          if out && piecesClaim s k ps then some (claimPieces k ps) else none

/-- A courier moves a unit of its copy before the copy ends: it takes the elements in any order (R228, R230). -/
def moveUnit (core n i : Nat) : Eff := fun s =>
  match mfind (getCore s core).couriers n with
  | none => []
  | some j =>
    match mfind s.blocks j.blk with
    | none => []
    | some b =>
      let x := getWin b j.win
      match (unitsOf x)[i]? with
      | none => []
      | some u =>
        if j.moved.contains i then []
        else
          let who := engineWho s j.blk b
          let base := blkByte b x.off
          match unitStep (.courier core n) who x base j.out u s with
          | some (us, none) =>
            Eff.seq (fun _ => us) (fun s =>
              [.core core { getCore s core with
                couriers := mput (getCore s core).couriers n { j with moved := j.moved ++ [i] } }]) s
          | some _ => []
          | none => if j.out then claimPieces (.courier core n) (outPieces s who x base [u]) s else []

/-- COPY_IN_END of a courier of a core. -/
def execCopyInEnd : State → Host.Outcome State Fault Refusal := fun s =>
  commit (fun s =>
    match copyEnds s (subjAt s 0) (subjAt s 1) false with
    | some eff => eff s
    | none => []) s

/-- COPY_OUT_END of a courier of a core. -/
def execCopyOutEnd : State → Host.Outcome State Fault Refusal := fun s =>
  commit (fun s =>
    match copyEnds s (subjAt s 0) (subjAt s 1) true with
    | some eff => eff s
    | none => []) s

/-! ## Engine operations of the stream (R173, R182, R192, R206) -/

/-- An operation leaves the stream, whose next instruction may issue again if it waited for one. -/
def opGone (p id : Nat) (f : Stream → Stream) : Eff := fun s =>
  match mfind s.streams p with
  | none => []
  | some t =>
    let wait := match t.u.wait with
      | some w => if w.kind == .retry .inflight then none else some w
      | none => none
    [.stream p (f { t with ops := t.ops.filter (fun o => o.id != id), u := { t.u with wait := wait } })]

/-- Operation i of a stream. -/
def opAt (s : State) (p i : Nat) : Option (Stream × Op) :=
  match mfind s.streams p with
  | some t => (t.ops[i]?).map (fun o => (t, o))
  | none => none

/-- A load completes: its rows land, ROWPROG is cleared. It waits while a migration blocks a row's page (R289). -/
def loadEnds (s : State) (p i : Nat) : Option Eff :=
  match opAt s p i with
  | some (t, o) =>
    match o.kind with
    | .load dst _ ebits n first =>
      let launch := ((mfind s.blocks t.blk).map (·.launch)).getD 0
      if (blockedBy s (o.rows.flatMap (physRuns s))).isSome then none
      else
      some (Eff.seq
        (landRows launch (p / 4) t.blk (frankOfBlk s t.blk) dst ebits n first o.rows)
        (Eff.seq (onMatrix t.blk (fun m => { m with rowprog := 0 })) (opGone p o.id id)))
    | _ => none
  | none => none

/-- MLOAD_COMPLETE of a stream's operation. -/
def execMloadComplete : State → Host.Outcome State Fault Refusal := fun s =>
  commit (fun s =>
    match loadEnds s (subjAt s 0) (subjAt s 1) with
    | some eff => eff s
    | none => []) s

/-- An mst completes: its rows are written at their homes and counted down; where those are not ready, it arrives at them. -/
def storeEnds (s : State) (p i : Nat) : Option Eff :=
  match opAt s p i with
  | some (t, o) =>
    match o.kind with
    | .store tile oty kc =>
      let m := ((mfind s.blocks t.blk).bind (·.mat)).getD {}
      let left := o.rows.length * (16 * otyBytes oty)
      match goneRun s (o.rows.flatMap (physRuns s)) with
      | some line => some (rowGone s p t.blk line)
      | none =>
        whenReady s (.op o.id) o.rows.flatten
          (Eff.seq (storeRows (.op o.id) (frankOfBlk s t.blk) m tile oty (16 - o.rows.length) o.rows)
            (opGone p o.id (countRow s.clk.cyc kc left)))
    | _ => none
  | none => none

/-- MST_COMPLETE of a stream's operation. -/
def execMstComplete : State → Host.Outcome State Fault Refusal := fun s =>
  commit (fun s =>
    match storeEnds s (subjAt s 0) (subjAt s 1) with
    | some eff => eff s
    | none => []) s

/-- An operation of a stream replaced. -/
def setOp (p id : Nat) (f : Op → Op) (g : Stream → Stream) : Eff := fun s =>
  match mfind s.streams p with
  | none => []
  | some t => [.stream p (g { t with ops := t.ops.map (fun o => if o.id == id then f o else o) })]

/-- The next row of a load or an mst lands before the operation ends (R182, R192). -/
def landNext (p i : Nat) : Eff := fun s =>
  match opAt s p i with
  | none => []
  | some (t, o) =>
    match o.kind, o.rows with
    | .load dst len ebits n first, r :: rest =>
      Eff.when (blockedBy s (physRuns s r)).isNone (Eff.seq
        (landRows (((mfind s.blocks t.blk).map (·.launch)).getD 0) (p / 4) t.blk (frankOfBlk s t.blk) dst ebits n first [r])
        (setOp p o.id (fun o => { o with kind := .load dst len ebits n (first + 1), rows := rest }) id)) s
    | .store tile oty kc, r :: rest =>
      match goneRun s (physRuns s r) with
      | some line => rowGone s p t.blk line s
      | none =>
        Eff.opt (whenReady s (.op o.id) r
          (Eff.seq
            (storeRows (.op o.id) (frankOfBlk s t.blk) (((mfind s.blocks t.blk).bind (·.mat)).getD {}) tile oty (16 - o.rows.length) [r])
            (setOp p o.id (fun o => { o with rows := rest }) (countRow s.clk.cyc kc (16 * otyBytes oty))))) s
    | _, _ => []

/-- An sdec completes, after every earlier one of the stream: SSTAT is that of the last in program order (R213). -/
def sdecEnds (s : State) (p i : Nat) : Option Eff :=
  match opAt s p i with
  | some (t, o) =>
    match o.kind with
    | .sdec src dst kt tm ityp l =>
      if (t.ops.take i).any isSdecOp then none
      else
      some (Eff.seq (sdecEnd p (frankOfBlk s t.blk) src dst kt tm ityp l) (opGone p o.id id))
    | _ => none
  | none => none

/-- SDEC_COMPLETE of a stream's operation. -/
def execSdecComplete : State → Host.Outcome State Fault Refusal := fun s =>
  commit (fun s =>
    match sdecEnds s (subjAt s 0) (subjAt s 1) with
    | some eff => eff s
    | none => []) s

/-! ## Running ahead (R174) -/

/-- The next n instructions from an address on along a path that the sequencer may predict: straight on, at a branch or a call
to either side, at the end of a loop's body back. -/
def pathAhead (s : State) (c : Ctx) (back : List DWord) : Nat → DWord → List DWord
  | 0, _ => []
  | n + 1, a =>
    match peekInstr s (c.who false) a with
    | none => [a]
    | some i =>
      let next := a + BitVec.ofNat 64 (4 * (encode i).length)
      let at_ : Ctx := { c with iss := { c.iss with pc := a } }
      let targets := match i with
        | .kbra w => [kTarget at_ w]
        | .kcall w => [kTarget at_ w]
        | _ => []
      a :: (next :: targets ++ back).flatMap (pathAhead s c back n)

/-- The rows of an instruction that the sequencer translates ahead: what kind of access, how many, their length, the operand. -/
def rowsAhead : Instr → Option (UniW × Acc × Nat × Nat)
  | .mload w => some (w, .mrow, fs w 27 20 + 1, 32 * (fs w 19 13 + 1))
  | .mloadx w => some (w, .mrow, fs w 27 20 + 1, 32 * (fs w 19 13 + 1))
  | .mst w => some (w, .mst, 16, 16 * otyBytes (fs w 23 20))
  | _ => none

/-- The sequencer translates a row's pages ahead of its issue, by the registers as they stand: what a TLB holds and allows
enters the core's L1 TLB, and anything else is discarded (R174). -/
def lookAhead (p : Nat) (pc : DWord) (row : Nat) : Eff := fun s =>
  match mfind s.streams p, ctxOf (.reservedOpcode 0 0) { agent := .stream p, pc := pc, lanes := 0, word := 0, ext := 0 } s with
  | some t, some c =>
    let w := c.who false
    if !(pathAhead s c (t.loop.map (·.start)).toList 8 t.pc).contains pc then []
    else
      match (peekInstr s w pc).bind rowsAhead with
      | none => []
      | some (i, a, rows, len) =>
        match genOf c.core (rowAddr (c.kreg 0 (kNum i.a)) (c.kreg 0 (kNum i.a + 1)) row) with
        | .global va =>
          if rows ≤ row then []
          else
            Eff.forEach [va, va + len - 1] (fun x => fun s =>
              match trState s w a x with
              | .hit e => tlbFillL1 c.core e s
              | _ => []) s
        | _ => []
  | _, _ => []

end Sys2Proof.Machine
end

