-- ==== Sys2Proof/Machine/Dispatch.lean ====
section
/-! DEFINITION. One arm for each constructor of Instr. -/

namespace Sys2Proof.Machine

def exec (i : Instr) (s : State) : Host.Outcome State Fault Refusal :=
  match i with
  | .add w => Sys2Proof.Machine.execAdd w s
  | .sub w => Sys2Proof.Machine.execSub w s
  | .addc w => Sys2Proof.Machine.execAddc w s
  | .subb w => Sys2Proof.Machine.execSubb w s
  | .mul w => Sys2Proof.Machine.execMul w s
  | .mulhi w => Sys2Proof.Machine.execMulhi w s
  | .mad w => Sys2Proof.Machine.execMad w s
  | .madhi w => Sys2Proof.Machine.execMadhi w s
  | .div w => Sys2Proof.Machine.execDiv w s
  | .rem w => Sys2Proof.Machine.execRem w s
  | .min w => Sys2Proof.Machine.execMin w s
  | .max w => Sys2Proof.Machine.execMax w s
  | .and w => Sys2Proof.Machine.execAnd w s
  | .or w => Sys2Proof.Machine.execOr w s
  | .xor w => Sys2Proof.Machine.execXor w s
  | .andn w => Sys2Proof.Machine.execAndn w s
  | .shl w => Sys2Proof.Machine.execShl w s
  | .shr w => Sys2Proof.Machine.execShr w s
  | .sar w => Sys2Proof.Machine.execSar w s
  | .rot w => Sys2Proof.Machine.execRot w s
  | .clz w => Sys2Proof.Machine.execClz w s
  | .popc w => Sys2Proof.Machine.execPopc w s
  | .brev w => Sys2Proof.Machine.execBrev w s
  | .bfx w => Sys2Proof.Machine.execBfx w s
  | .bfi w => Sys2Proof.Machine.execBfi w s
  | .lea w => Sys2Proof.Machine.execLea w s
  | .cmp sub w => Sys2Proof.Machine.execCmp sub w s
  | .sel w => Sys2Proof.Machine.execSel w s
  | .mov w => Sys2Proof.Machine.execMov w s
  | .movk w => Sys2Proof.Machine.execMovk w s
  | .pand w => Sys2Proof.Machine.execPand w s
  | .por w => Sys2Proof.Machine.execPor w s
  | .pxor w => Sys2Proof.Machine.execPxor w s
  | .pnot w => Sys2Proof.Machine.execPnot w s
  | .fadd w => Sys2Proof.Machine.execFadd w s
  | .fsub w => Sys2Proof.Machine.execFsub w s
  | .fmul w => Sys2Proof.Machine.execFmul w s
  | .ffma w => Sys2Proof.Machine.execFfma w s
  | .fmin w => Sys2Proof.Machine.execFmin w s
  | .fmax w => Sys2Proof.Machine.execFmax w s
  | .fcmp sub w => Sys2Proof.Machine.execFcmp sub w s
  | .fdiv w => Sys2Proof.Machine.execFdiv w s
  | .frcp w => Sys2Proof.Machine.execFrcp w s
  | .frsq w => Sys2Proof.Machine.execFrsq w s
  | .fsqrt w => Sys2Proof.Machine.execFsqrt w s
  | .fex2 w => Sys2Proof.Machine.execFex2 w s
  | .flg2 w => Sys2Proof.Machine.execFlg2 w s
  | .fsin w => Sys2Proof.Machine.execFsin w s
  | .fcos w => Sys2Proof.Machine.execFcos w s
  | .dot2 w => Sys2Proof.Machine.execDot2 w s
  | .hfma2 w => Sys2Proof.Machine.execHfma2 w s
  | .cvtFf w => Sys2Proof.Machine.execCvtFf w s
  | .cvtFi w => Sys2Proof.Machine.execCvtFi w s
  | .cvtIf w => Sys2Proof.Machine.execCvtIf w s
  | .cvtIi w => Sys2Proof.Machine.execCvtIi w s
  | .cvtxPack w => Sys2Proof.Machine.execCvtxPack w s
  | .cvtxUnpack w => Sys2Proof.Machine.execCvtxUnpack w s
  | .pack2 w => Sys2Proof.Machine.execPack2 w s
  | .fclass w => Sys2Proof.Machine.execFclass w s
  | .bscl w => Sys2Proof.Machine.execBscl w s
  | .qblk w => Sys2Proof.Machine.execQblk w s
  | .bra w => Sys2Proof.Machine.execBra w s
  | .call w => Sys2Proof.Machine.execCall w s
  | .brx w => Sys2Proof.Machine.execBrx w s
  | .callx w => Sys2Proof.Machine.execCallx w s
  | .ret w => Sys2Proof.Machine.execRet w s
  | .exit w => Sys2Proof.Machine.execExit w s
  | .brk w => Sys2Proof.Machine.execBrk w s
  | .rejoin w => Sys2Proof.Machine.execRejoin w s
  | .yield w => Sys2Proof.Machine.execYield w s
  | .voteAny w => Sys2Proof.Machine.execVoteAny w s
  | .voteAll w => Sys2Proof.Machine.execVoteAll w s
  | .voteBal w => Sys2Proof.Machine.execVoteBal w s
  | .shflIdx w => Sys2Proof.Machine.execShflIdx w s
  | .shflUp w => Sys2Proof.Machine.execShflUp w s
  | .shflDn w => Sys2Proof.Machine.execShflDn w s
  | .shflXor w => Sys2Proof.Machine.execShflXor w s
  | .redux sub w => Sys2Proof.Machine.execRedux sub w s
  | .scan sub w => Sys2Proof.Machine.execScan sub w s
  | .match_ w => Sys2Proof.Machine.execMatch w s
  | .spawn w => Sys2Proof.Machine.execSpawn w s
  | .phflush w => Sys2Proof.Machine.execPhflush w s
  | .ld w => Sys2Proof.Machine.execLd w s
  | .st w => Sys2Proof.Machine.execSt w s
  | .atom sub w => Sys2Proof.Machine.execAtom sub w s
  | .cas w => Sys2Proof.Machine.execCas w s
  | .prf w => Sys2Proof.Machine.execPrf w s
  | .spt w => Sys2Proof.Machine.execSpt w s
  | .spc w => Sys2Proof.Machine.execSpc w s
  | .ldb w => Sys2Proof.Machine.execLdb w s
  | .mtov w => Sys2Proof.Machine.execMtov w s
  | .mvtot w => Sys2Proof.Machine.execMvtot w s
  | .kadd w => Sys2Proof.Machine.execKadd w s
  | .ksub w => Sys2Proof.Machine.execKsub w s
  | .kmul w => Sys2Proof.Machine.execKmul w s
  | .kand w => Sys2Proof.Machine.execKand w s
  | .kor w => Sys2Proof.Machine.execKor w s
  | .kxor w => Sys2Proof.Machine.execKxor w s
  | .kshl w => Sys2Proof.Machine.execKshl w s
  | .kshr w => Sys2Proof.Machine.execKshr w s
  | .kmin w => Sys2Proof.Machine.execKmin w s
  | .kmax w => Sys2Proof.Machine.execKmax w s
  | .kcmp w => Sys2Proof.Machine.execKcmp w s
  | .ksel w => Sys2Proof.Machine.execKsel w s
  | .kmov w => Sys2Proof.Machine.execKmov w s
  | .kmovi w => Sys2Proof.Machine.execKmovi w s
  | .lcset w => Sys2Proof.Machine.execLcset w s
  | .lcstep w => Sys2Proof.Machine.execLcstep w s
  | .kcset w => Sys2Proof.Machine.execKcset w s
  | .kcwait w => Sys2Proof.Machine.execKcwait w s
  | .kfmtSet w => Sys2Proof.Machine.execKfmtSet w s
  | .kfmtSetPreset w => Sys2Proof.Machine.execKfmtSetPreset w s
  | .kfmtSetSeed w => Sys2Proof.Machine.execKfmtSetSeed w s
  | .kfmtGet w => Sys2Proof.Machine.execKfmtGet w s
  | .kbra w => Sys2Proof.Machine.execKbra w s
  | .kcall w => Sys2Proof.Machine.execKcall w s
  | .kret w => Sys2Proof.Machine.execKret w s
  | .obres w => Sys2Proof.Machine.execObres w s
  | .obfree w => Sys2Proof.Machine.execObfree w s
  | .mload w => Sys2Proof.Machine.execMload w s
  | .mloadx w => Sys2Proof.Machine.execMloadx w s
  | .mma w => Sys2Proof.Machine.execMma w s
  | .mzero w => Sys2Proof.Machine.execMzero w s
  | .macc w => Sys2Proof.Machine.execMacc w s
  | .mst w => Sys2Proof.Machine.execMst w s
  | .mbarArr w => Sys2Proof.Machine.execMbarArr w s
  | .mbarWait w => Sys2Proof.Machine.execMbarWait w s
  | .mseqGo w => Sys2Proof.Machine.execMseqGo w s
  | .mseqEnd w => Sys2Proof.Machine.execMseqEnd w s
  | .mrow w => Sys2Proof.Machine.execMrow w s
  | .mrowClr w => Sys2Proof.Machine.execMrowClr w s
  | .sdec w => Sys2Proof.Machine.execSdec w s
  | .mmat w => Sys2Proof.Machine.execMmat w s
  | .mres w => Sys2Proof.Machine.execMres w s
  | .sbound w => Sys2Proof.Machine.execSbound w s
  | .sstat w => Sys2Proof.Machine.execSstat w s
  | .sstatClr w => Sys2Proof.Machine.execSstatClr w s
  | .lrec w => Sys2Proof.Machine.execLrec w s
  | .lrecTap w => Sys2Proof.Machine.execLrecTap w s
  | .wbind w => Sys2Proof.Machine.execWbind w s
  | .wunbind w => Sys2Proof.Machine.execWunbind w s
  | .wabs w => Sys2Proof.Machine.execWabs w s
  | .wtouch w => Sys2Proof.Machine.execWtouch w s
  | .wpost w => Sys2Proof.Machine.execWpost w s
  | .wstat w => Sys2Proof.Machine.execWstat w s
  | .wstatRead w => Sys2Proof.Machine.execWstatRead w s
  | .wstatClr w => Sys2Proof.Machine.execWstatClr w s
  | .pmarm w => Sys2Proof.Machine.execPmarm w s
  | .pmwait w => Sys2Proof.Machine.execPmwait w s
  | .ringInit w => Sys2Proof.Machine.execRingInit w s
  | .ringPut w => Sys2Proof.Machine.execRingPut w s
  | .ringPutFree w => Sys2Proof.Machine.execRingPutFree w s
  | .ringGet w => Sys2Proof.Machine.execRingGet w s
  | .ringWait w => Sys2Proof.Machine.execRingWait w s
  | .kld w => Sys2Proof.Machine.execKld w s
  | .kst w => Sys2Proof.Machine.execKst w s
  | .katom w => Sys2Proof.Machine.execKatom w s
  | .fence w => Sys2Proof.Machine.execFence w s
  | .cwb w => Sys2Proof.Machine.execCwb w s
  | .cinv w => Sys2Proof.Machine.execCinv w s
  | .monArm w => Sys2Proof.Machine.execMonArm w s
  | .monWait w => Sys2Proof.Machine.execMonWait w s
  | .tlbinv w => Sys2Proof.Machine.execTlbinv w s
  | .pgmig w => Sys2Proof.Machine.execPgmig w s
  | .roundAdv w => Sys2Proof.Machine.execRoundAdv w s
  | .roundGet w => Sys2Proof.Machine.execRoundGet w s
  | .roundFloor w => Sys2Proof.Machine.execRoundFloor w s
  | .roundFloorClr w => Sys2Proof.Machine.execRoundFloorClr w s
  | .barArr w => Sys2Proof.Machine.execBarArr w s
  | .barWait w => Sys2Proof.Machine.execBarWait w s
  | .barSync w => Sys2Proof.Machine.execBarSync w s
  | .barJoin w => Sys2Proof.Machine.execBarJoin w s
  | .barLeave w => Sys2Proof.Machine.execBarLeave w s
  | .barGen w => Sys2Proof.Machine.execBarGen w s
  | .rdtime w => Sys2Proof.Machine.execRdtime w s
  | .rdcyc w => Sys2Proof.Machine.execRdcyc w s
  | .nap w => Sys2Proof.Machine.execNap w s
  | .post w => Sys2Proof.Machine.execPost w s
  | .qreset w => Sys2Proof.Machine.execQreset w s
  | .trap w => Sys2Proof.Machine.execTrap w s
  | .sysc w => Sys2Proof.Machine.execSysc w s
  | .eret w => Sys2Proof.Machine.execEret w s
  | .mfs w => Sys2Proof.Machine.execMfs w s
  | .mts w => Sys2Proof.Machine.execMts w s
  | .halt w => Sys2Proof.Machine.execHalt w s
  | .tmark w => Sys2Proof.Machine.execTmark w s
  | .tsamp w => Sys2Proof.Machine.execTsamp w s
  | .cntrd w => Sys2Proof.Machine.execCntrd w s
  | .cntcfgEvent w => Sys2Proof.Machine.execCntcfgEvent w s
  | .cntcfgClear w => Sys2Proof.Machine.execCntcfgClear w s
  | .cntcfgWrite w => Sys2Proof.Machine.execCntcfgWrite w s
  | .icinv w => Sys2Proof.Machine.execIcinv w s
  | .ipref w => Sys2Proof.Machine.execIpref w s
  | .nop w => Sys2Proof.Machine.execNop w s
  | .hint op w => Sys2Proof.Machine.execHint op w s
  | .reservedOpcode w e => Sys2Proof.Machine.execReservedOpcode w e s
  | .rtctlCommit v => Sys2Proof.Machine.execRtctlCommit v s
  | .rtctlRelease v => Sys2Proof.Machine.execRtctlRelease v s
  | .qctlEnable v => Sys2Proof.Machine.execQctlEnable v s
  | .qctlDisable v => Sys2Proof.Machine.execQctlDisable v s
  | .qctlSuspend v => Sys2Proof.Machine.execQctlSuspend v s
  | .qctlResume v => Sys2Proof.Machine.execQctlResume v s
  | .tsctlOpen v => Sys2Proof.Machine.execTsctlOpen v s
  | .tsctlClose v => Sys2Proof.Machine.execTsctlClose v s
  | .tsptrHeadWrite v => Sys2Proof.Machine.execTsptrHeadWrite v s
  | .fqptrHeadWrite v => Sys2Proof.Machine.execFqptrHeadWrite v s
  | .rtfailAck v => Sys2Proof.Machine.execRtfailAck v s
  | .clockChange v => Sys2Proof.Machine.execClockChange v s
  | .eccError unit c addr correctable => Sys2Proof.Machine.execEccError unit c addr correctable s
  | .hostAccess addr write data => Sys2Proof.Machine.execHostAccess addr write data s
  | .peerAccess addr write data => Sys2Proof.Machine.execPeerAccess addr write data s
  | .getVersion => Sys2Proof.Machine.execGetVersion s
  | .getCapabilities => Sys2Proof.Machine.execGetCapabilities s
  | .negotiateAlgorithms => Sys2Proof.Machine.execNegotiateAlgorithms s
  | .getDigests => Sys2Proof.Machine.execGetDigests s
  | .getCertificate => Sys2Proof.Machine.execGetCertificate s
  | .challenge => Sys2Proof.Machine.execChallenge s
  | .getMeasurements => Sys2Proof.Machine.execGetMeasurements s
  | .unsupportedRequest => Sys2Proof.Machine.execUnsupportedRequest s
  | .packageReset => Sys2Proof.Machine.execPackageReset s
  | .timingLock => Sys2Proof.Machine.execTimingLock s
  | .referenceLoss => Sys2Proof.Machine.execReferenceLoss s
  | .portFailure => Sys2Proof.Machine.execPortFailure s
  | .ucieModuleFailure => Sys2Proof.Machine.execUcieModuleFailure s
  | .linkLoss => Sys2Proof.Machine.execLinkLoss s
  | .cxlSurpriseRemoval => Sys2Proof.Machine.execCxlSurpriseRemoval s
  | .pigeonholeExpiry => Sys2Proof.Machine.execPigeonholeExpiry s
  | .pendingGroupPlacement => Sys2Proof.Machine.execPendingGroupPlacement s
  | .leaseEnd => Sys2Proof.Machine.execLeaseEnd s
  | .pathAgeLimit => Sys2Proof.Machine.execPathAgeLimit s
  | .holdCountLimit => Sys2Proof.Machine.execHoldCountLimit s
  | .convergenceRelease => Sys2Proof.Machine.execConvergenceRelease s
  | .rejoinRelease => Sys2Proof.Machine.execRejoinRelease s
  | .markerRelease => Sys2Proof.Machine.execMarkerRelease s
  | .resultLanding => Sys2Proof.Machine.execResultLanding s
  | .completionLanding => Sys2Proof.Machine.execCompletionLanding s
  | .kcwaitReturn => Sys2Proof.Machine.execKcwaitReturn s
  | .pmwaitReturn => Sys2Proof.Machine.execPmwaitReturn s
  | .monWaitReturn => Sys2Proof.Machine.execMonWaitReturn s
  | .monWaitTimeout => Sys2Proof.Machine.execMonWaitTimeout s
  | .napExpiry => Sys2Proof.Machine.execNapExpiry s
  | .ringWaitReturn => Sys2Proof.Machine.execRingWaitReturn s
  | .ringPutRecord => Sys2Proof.Machine.execRingPutRecord s
  | .arrivalRecord => Sys2Proof.Machine.execArrivalRecord s
  | .barrierWaitReturn => Sys2Proof.Machine.execBarrierWaitReturn s
  | .mbarWaitReturn => Sys2Proof.Machine.execMbarWaitReturn s
  | .spawnRelease => Sys2Proof.Machine.execSpawnRelease s
  | .storePerform => Sys2Proof.Machine.execStorePerform s
  | .pageWalkComplete => Sys2Proof.Machine.execPageWalkComplete s
  | .faultRecordWrite => Sys2Proof.Machine.execFaultRecordWrite s
  | .streamTrapDelivery => Sys2Proof.Machine.execStreamTrapDelivery s
  | .migrationComplete => Sys2Proof.Machine.execMigrationComplete s
  | .courierStart => Sys2Proof.Machine.execCourierStart s
  | .runaheadStart => Sys2Proof.Machine.execRunaheadStart s
  | .copyInEnd => Sys2Proof.Machine.execCopyInEnd s
  | .copyOutEnd => Sys2Proof.Machine.execCopyOutEnd s
  | .mloadComplete => Sys2Proof.Machine.execMloadComplete s
  | .mstComplete => Sys2Proof.Machine.execMstComplete s
  | .sdecComplete => Sys2Proof.Machine.execSdecComplete s
  | .streamEnd => Sys2Proof.Machine.execStreamEnd s
  | .groupEnd => Sys2Proof.Machine.execGroupEnd s
  | .launchComplete => Sys2Proof.Machine.execLaunchComplete s
  | .anchorRead => Sys2Proof.Machine.execAnchorRead s
  | .startTimeReached => Sys2Proof.Machine.execStartTimeReached s
  | .deadlinePass => Sys2Proof.Machine.execDeadlinePass s
  | .arbitration => Sys2Proof.Machine.execArbitration s
  | .gridRotation => Sys2Proof.Machine.execGridRotation s
  | .roundNotice => Sys2Proof.Machine.execRoundNotice s
  | .stallPush => Sys2Proof.Machine.execStallPush s
  | .stallWatchTimeout => Sys2Proof.Machine.execStallWatchTimeout s
  | .lineFill => Sys2Proof.Machine.execLineFill s
  | .invalidation => Sys2Proof.Machine.execInvalidation s
  | .privatisedMerge => Sys2Proof.Machine.execPrivatisedMerge s
  | .cardDrain => Sys2Proof.Machine.execCardDrain s
  | .stallEnd => Sys2Proof.Machine.execStallEnd s
  | .sampleCountdown => Sys2Proof.Machine.execSampleCountdown s
  | .counterAdd => Sys2Proof.Machine.execCounterAdd s
  | .referenceRelock => Sys2Proof.Machine.execReferenceRelock s
  | .replicaUpdate => Sys2Proof.Machine.execReplicaUpdate s
  | .invalidationAcknowledged => Sys2Proof.Machine.execInvalidationAcknowledged s

end Sys2Proof.Machine
end

