-- ==== Sys2Proof/Machine/Objects.lean ====
section
/-! DEFINITION. Code objects: their layout, the loader's checks, the packets of a kernel, the Uzora form
(19: R419 to R422, R424 to R428). Assembly and the translator's own decisions are software's (log entries 45, 70). -/

namespace Sys2Proof.Machine

/-! ## The image of an object (R419, R420) -/

/-- n bytes of an image from an offset, as a number. -/
def imgVal (img : List Byte) (off n : Nat) : Nat := ofBytes ((img.drop off).take n)

/-- NERR, NKERN and the section offsets and sizes. -/
def objNerr (img : List Byte) : Nat := imgVal img 10 2
def objNkern (img : List Byte) : Nat := imgVal img 12 2
def objText (img : List Byte) : Nat × Nat := (imgVal img 16 4, imgVal img 20 4)
def objData (img : List Byte) : Nat × Nat := (imgVal img 24 4, imgVal img 28 4)
def objKernOff (img : List Byte) : Nat := imgVal img 32 4
def objErrOff (img : List Byte) : Nat := imgVal img 36 4
def objStr (img : List Byte) : Nat × Nat := (imgVal img 40 4, imgVal img 44 4)
def objShapes (img : List Byte) : Nat := imgVal img 48 4
/-- FLAGS.UZORA. -/
def objUzora (img : List Byte) : Bool := bit (imgVal img 9 1) 0

/-- The erratum numbers that an object lists, as entries of 4 bytes. -/
def objErrs (img : List Byte) : List Nat := (List.range (objNerr img)).map (fun i => imgVal img (objErrOff img + 4 * i) 4)

/-- The offset of kernel descriptor i. -/
def descAt (img : List Byte) (i : Nat) : Nat := objKernOff img + 128 * i

/-- An entry offset that means none. -/
def noEntry : Nat := 2 ^ 64 - 1

/-- Format image N of a descriptor, when its FMTMASK bit is set. -/
def descFmt (img : List Byte) (d n : Nat) : Option DWord :=
  if bit (imgVal img (d + 7) 1) n then some (BitVec.ofNat 64 (imgVal img (d + 64 + 8 * n) 8)) else none

/-! ## The loader's checks (R421) -/

/-- A section lies inside an image. -/
def inImage (img : List Byte) (x : Nat × Nat) : Bool := decide (x.1 + x.2 ≤ img.length)

/-- The reserved fields of the header, the erratum entries and the descriptors hold 0. -/
def reservedZero (img : List Byte) : Bool :=
  imgVal img 9 1 / 2 == 0 && imgVal img 14 2 == 0 && imgVal img 52 12 == 0 &&
  (objErrs img).all (fun e => decide (e < 2 ^ 16)) &&
  (List.range (objNkern img)).all (fun i =>
    imgVal img (descAt img i + 43) 1 == 0 && imgVal img (descAt img i + 48) 16 == 0)

/-- Every section, and the header, lies inside the image. -/
def sectionsInside (img : List Byte) : Bool :=
  decide (64 ≤ img.length) && inImage img (objText img) && inImage img (objData img) && inImage img (objStr img) &&
  inImage img (objKernOff img, 128 * objNkern img) && inImage img (objErrOff img, 4 * objNerr img) &&
  decide (objShapes img ≤ img.length)

/-- The header keeps its own limits. -/
def headerLimits (img : List Byte) : Bool :=
  decide ((objText img).1 % 128 = 0) && decide (objNerr img ≤ 64) && decide (1 ≤ objNkern img) && decide (objNkern img ≤ 1024)

/-- The COMPAT bit of an erratum that the Gatur lists (R422). -/
def erratumBit : Nat → Option Nat
  | 0x0011 => some 0
  | 0x0014 => some 1
  | 0x0019 => some 2
  | _ => none

/-- An erratum whose old behaviour the device does not give. -/
def erratumRefused (s : State) (e : Nat) : Bool :=
  match erratumBit e with
  | some b => !bit s.idn.errwin.toNat b
  | none => true

/-- A descriptor keeps the limits of R62 and of its own fields, and its images are valid (R78). -/
def descValid (img : List Byte) (d : Nat) : Bool :=
  let b (o : Nat) : Nat := imgVal img (d + o) 1
  decide (1 ≤ b 4) && decide (b 4 ≤ 112) && decide (b 5 ≤ 16) && decide (b 6 ≤ 64) &&
  decide (imgVal img (d + 8) 4 ≤ 256 * 4096) && decide (imgVal img (d + 12) 4 % 4 = 0) &&
  decide (b 40 ≤ 16) && decide (b 41 ≤ 16) && decide (1 ≤ b 40 + b 41) && decide (b 40 + b 41 ≤ 16) &&
  decide (b 42 ≤ 128) && (b 42 == 0 || imgVal img (d + 32) 8 != noEntry) &&
  (List.range 8).all (fun n =>
    match descFmt img d n with
    | some v => kfValid v
    | none => true)

/-! ## The Uzora form (R424 to R428) -/

/-- A record. -/
structure UzRec where
  opc   : Nat
  ty    : Ty
  d     : Nat
  a     : Nat
  b     : Nat
  c     : Nat
  shape : Nat
  imm   : Nat
  deriving DecidableEq, Repr

/-- The record at an offset of an image. -/
def uzRec (img : List Byte) (o : Nat) : UzRec :=
  { opc := imgVal img o 1, ty := tyOf (imgVal img (o + 1) 1), d := imgVal img (o + 2) 2, a := imgVal img (o + 4) 2
    b := imgVal img (o + 6) 2, c := imgVal img (o + 8) 2, shape := imgVal img (o + 10) 2, imm := imgVal img (o + 12) 4 }

/-- The records of a kernel: from its VECENT up to the end of the text. -/
def uzRecs (img : List Byte) (d : Nat) : List UzRec :=
  let e := imgVal img (d + 24) 8
  (List.range (((objText img).2 - e) / 16)).map (fun i => uzRec img ((objText img).1 + e + 16 * i))

/-- Rows and columns. -/
abbrev Shape : Type := Nat × Nat

/-- A dimension: a constant or a bound symbol. -/
def uzDim (syms : List Nat) (v : Nat) : Option Nat :=
  let n := if v < 0x8000 then v else syms.getD (v - 0x8000) 0
  if v < 0x8008 && decide (1 ≤ n) && decide (n ≤ 32767) then some n else none

/-- The shape that a record names; 0xFFFF is a scalar. -/
def uzShape (img : List Byte) (syms : List Nat) (i : Nat) : Option Shape :=
  if i = 0xFFFF then some (1, 1)
  else
    let e := imgVal img (objShapes img + 4 * i) 4
    match uzDim syms (bits e 15 0), uzDim syms (bits e 31 16) with
    | some r, some c => some (r, c)
    | _, _ => none

/-- A value: its element type, its shape, its elements row by row as patterns of that type. -/
structure UzVal where
  ty    : Ty
  shape : Shape
  elems : List Nat
  deriving DecidableEq, Repr

/-- The chunk depth of a product's inputs (R83); types that it does not list have none. -/
def uzChunk : Ty → Option Nat
  | .f64 => some 2
  | .f32 => some 4
  | .f16 | .bf16 | .i16 | .n16 => some 8
  | .i8 | .n8 => some 16
  | _ => none

/-- The type and shape of what a record defines, from those of the values before it; `none` is a refusal (R428). A
record that defines nothing gives the value's place no type. -/
def uzDefines (img : List Byte) (syms : List Nat) (env : Map (Ty × Shape)) (r : UzRec) : Option (Option (Ty × Shape)) :=
  let val (i : Nat) : Option (Ty × Shape) := mfind env i
  let scalar (i : Nat) : Bool := (val i).map (·.2) == some (1, 1)
  let joint (l : List Nat) : Option Shape :=
    l.foldl (fun m i =>
      match m, val i with
      | some m, some v => if v.2 = (1, 1) then some m else if m = (1, 1) || m = v.2 then some v.2 else none
      | _, _ => none) (some (1, 1))
  let tile (sh : Option Shape) : Option (Option (Ty × Shape)) := sh.map (fun x => some (r.ty, x))
  match r.opc with
  | 0x01 => if r.imm < 64 then some (some (.n64, (1, 1))) else none
  | 0x02 => tile (some (1, 1))
  | 0x03 => if scalar r.a then tile (uzShape img syms r.shape) else none
  | 0x04 => if scalar r.a && (val r.b).isSome then some none else none
  | 0x05 => if tyPacked r.ty || ((val r.a).map (fun v => tyPacked v.1)).getD true then none else tile ((val r.a).map (·.2))
  | 0x06 => tile (joint [r.a, r.b])
  | 0x07 => tile (joint [r.a, r.b])
  | 0x08 => tile (joint [r.a, r.b])
  | 0x09 => tile (joint [r.a, r.b, r.c])
  | 0x0A => tile (joint [r.a, r.b])
  | 0x0B => if r.ty = .f32 then tile ((val r.a).map (·.2)) else none
  | 0x0C => if tyPacked r.ty || (val r.a).isNone then none else tile (some (1, 1))
  | 0x0D =>
    match val r.a, val r.b with
    | some x, some y => if x.2.2 = y.2.1 && (uzChunk x.1).isSome then some (some (.f32, (x.2.1, y.2.2))) else none
    | _, _ => none
  | 0x0E => if scalar r.a then tile (uzShape img syms r.shape) else none
  | _ => none

/-- A kernel's records pass the translator's checks: up to ret, each defines a value once from values defined before it. -/
def uzAccepts (img : List Byte) (syms : List Nat) : List UzRec → Map (Ty × Shape) → Bool
  | [], _ => false
  | r :: rs, env =>
    if r.ty = .xf || r.ty = .reserved then false
    else if r.opc = 0x0F then true
    else
      match uzDefines img syms env r with
      | none => false
      | some none => uzAccepts img syms rs env
      | some (some v) => r.d < 4095 && (mfind env r.d).isNone && uzAccepts img syms rs (mput env r.d v)

/-- The translator refuses an object (R428). -/
def uzRefused (img : List Byte) (syms : List Nat) : Bool :=
  (List.range (objNkern img)).any (fun i =>
    let d := descAt img i
    imgVal img (d + 16) 8 != noEntry || imgVal img (d + 32) 8 != noEntry || !uzAccepts img syms (uzRecs img d) [])

/-- An element of two at a type: the native lane form's result, rounded once by RNE (R140, R147). -/
def uzElem (opc : Nat) (t : Ty) (a b c : Nat) : Nat :=
  if tyIsFloat t then
    eachElem t (fun i =>
      let x := elemF t a i
      let y := elemF t b i
      roundF (fmtOf t) .rne
        (match opc with
         | 0x06 => x.add y
         | 0x07 => x.add y.neg
         | 0x08 => x.mul y
         | 0x09 => (x.mul y).add (elemF t c i)
         | _ => FVal.pick true x y))
  else
    let x := intVal t a
    let y := intVal t b
    patOf
      (match opc with
       | 0x06 => x + y
       | 0x07 => x - y
       | 0x08 => x * y
       | 0x09 => x * y + intVal t c
       | _ => max x y) (tyWidth t)

/-- Element i of a value, a scalar broadcast. -/
def uzAt (v : UzVal) (i : Nat) : Nat := if v.shape = (1, 1) then v.elems.getD 0 0 else v.elems.getD i 0

/-- An element converted from a type to another (R87), without saturation to a narrower integer type. -/
def uzCvt (src dst : Ty) (x : Nat) : Nat :=
  (if tyIsFloat src then
     if tyIsFloat dst then roundF (fmtOf dst) .rne (fVal src x) else cvtToInt dst .rne (fVal src x)
   else if tyIsFloat dst then roundF (fmtOf dst) .rne (FVal.ofInt (intVal src x))
   else patOf (intVal src x) (tyWidth dst)) % 2 ^ tyWidth dst

/-- exp: fex2 of the product with log2 e, rounded to f32. -/
def uzExp (x : Nat) : Nat :=
  roundF fmt32 .rne (fVal .f32 (roundF fmt32 .rne ((fVal .f32 x).mul (fVal .f32 0x3FB8AA3B)))).ex2

/-- One round of a sum: runs of 32, padded with the identity, each combined as R84. -/
def uzRuns (t : Ty) (xs : List Nat) : List Nat :=
  (List.range (ceilDiv xs.length 32)).map (fun i =>
    (reduxTree (reduxOp 0 t false) ((List.range 32).map (fun l => xs.getD (32 * i + l) (reduxId 0 t)))).getD 31 0)

/-- Rounds until one result remains. -/
def uzSum (t : Ty) : Nat → List Nat → Nat
  | 0, xs => xs.getD 0 0
  | fuel + 1, xs =>
    match uzRuns t xs with
    | [x] => x
    | l => uzSum t fuel l

/-- An input of a product as its value after R81. -/
def uzInput (t : Ty) (x : Nat) : FVal :=
  match t with
  | .f16 => flushSub fmt16 x
  | .bf16 => flushSub fmtB16 x
  | _ => if tyIsFloat t then fVal t x else FVal.ofInt (intVal t x)

/-- An element of a product, an f32: chunks in ascending k, the last filled with zeros (R83). An f64 product accumulates in
f64, and its sum is rounded to f32 once, by RNE: R426 asks for an f32 tile and does not say how (log entry 70). -/
def uzDot (x y : UzVal) (i j : Nat) : Nat :=
  let k := x.shape.2
  let d := (uzChunk x.ty).getD 1
  let ps := (List.range (ceilDiv k d * d)).map (fun n =>
    if n < k then (uzInput x.ty (x.elems.getD (i * k + n) 0)).mul (uzInput y.ty (y.elems.getD (n * y.shape.2 + j) 0))
    else .fin false 0 0)
  if x.ty = .f64 then roundF fmt32 .rne (fVal .f64 (chunkSum fmt64 d 0 ps)) else chunkSum fmt32 d 0 ps

/-- What a Uzora kernel computes on: the launch's k registers, its memory by virtual address, its values. -/
structure UzState where
  regs : List DWord
  mem  : List Host.Cell
  vals : Map UzVal
  deriving DecidableEq, Repr

/-- The effect of a record of an accepted kernel (R426). -/
def uzStep (img : List Byte) (syms : List Nat) (r : UzRec) (s : UzState) : UzState :=
  let val (i : Nat) : UzVal := (mfind s.vals i).getD { ty := r.ty, shape := (1, 1), elems := [] }
  let sh := (uzShape img syms r.shape).getD (1, 1)
  let put (ty : Ty) (sh : Shape) (f : Nat → Nat) : UzState :=
    { s with vals := mput s.vals r.d { ty := ty, shape := sh, elems := (List.range (sh.1 * sh.2)).map f } }
  let nb := tyBytes r.ty
  let a := val r.a
  let b := val r.b
  let c := val r.c
  let big (x y : Shape) : Shape := if x = (1, 1) then y else x
  match r.opc with
  | 0x01 => put .n64 (1, 1) (fun _ => (s.regs.getD r.imm 0).toNat)
  | 0x02 => put r.ty (1, 1) (fun _ => r.imm % 2 ^ tyWidth r.ty)
  | 0x03 => put r.ty sh (fun i => ofBytes (readBytes s.mem (uzAt a 0 + nb * i) nb))
  | 0x04 =>
    let n := tyBytes b.ty
    { s with mem := writeCells s.mem (cellsAt (uzAt a 0) (b.elems.flatMap (fun x => toBytes n x))) }
  | 0x05 => put r.ty a.shape (fun i => uzCvt a.ty r.ty (uzAt a i))
  | 0x09 => put r.ty (big (big a.shape b.shape) c.shape) (fun i => uzElem r.opc r.ty (uzAt a i) (uzAt b i) (uzAt c i))
  | 0x0B => put r.ty a.shape (fun i => uzExp (uzAt a i))
  | 0x0C => put r.ty (1, 1) (fun _ => uzSum r.ty a.elems.length a.elems)
  | 0x0D =>
    put .f32 (a.shape.1, b.shape.2) (fun i => uzDot a b (i / b.shape.2) (i % b.shape.2))
  | 0x0E => put r.ty sh (fun _ => uzAt a 0)
  | _ => put r.ty (big a.shape b.shape) (fun i => uzElem r.opc r.ty (uzAt a i) (uzAt b i) 0)

/-- A kernel run to its ret: the bits that every translation of it gives (R427). -/
def uzRun (img : List Byte) (syms : List Nat) : List UzRec → UzState → UzState
  | [], s => s
  | r :: rs, s => if r.opc = 0x0F then s else uzRun img syms rs (uzStep img syms r s)

/-! ## Loading (R421) -/

/-- The error that stops the loading of an object, 0 when it loads. -/
def loaderError (s : State) (img : List Byte) (syms : List Nat) : Nat :=
  if imgVal img 0 4 != 0x4F4C4B43 || imgVal img 4 2 != 1 || !sectionsInside img || !headerLimits img || !reservedZero img then 1
  else if fld s.idn.cap 3 0 < imgVal img 6 1 then 2
  else if profileOf s < imgVal img 7 1 then 3
  else if (objErrs img).any (erratumRefused s) then 4
  else if objUzora img && uzRefused img syms then 5
  else if (List.range (objNkern img)).all (fun i => descValid img (descAt img i)) then 0
  else 6

/-- The address of an entry, 0 for none. -/
def entAddr (base e : Nat) : DWord := if e = noEntry then 0 else BitVec.ofNat 64 (base + e)

/-- The kernel that a descriptor describes, its text at a base address of a queue's address space. -/
def descKernel (q base : Nat) (img : List Byte) (d : Nat) : Kernel :=
  { queue := q, copy := entAddr base (imgVal img (d + 16) 8), vec := entAddr base (imgVal img (d + 24) 8)
    mat := entAddr base (imgVal img (d + 32) 8)
    fmts := (List.range 8).foldl (fun m n =>
      match descFmt img d n with
      | some v => mset kfReset m n v
      | none => m) [] }

/-- COMPAT of an object: the bits of the errata it lists. -/
def objCompat (img : List Byte) : DWord :=
  (objErrs img).foldl (fun v e =>
    match erratumBit e with
    | some b => v ||| BitVec.ofNat 64 (2 ^ b)
    | none => v) 0

/-- The dwords of a packet that a kernel fixes: 1 (NG, ROLES, PSIZE), 3, the entries, COMPAT. -/
def kernelDwords (base : Nat) (img : List Byte) (d : Nat) : Map DWord :=
  let b (o : Nat) : Nat := imgVal img (d + o) 1
  let nc := b 40
  let ng := nc + b 41
  let k := descKernel 0 base img d
  [(1, setFld (setFld (setFld 0 47 44 (ng - 1)) 39 24 (2 ^ ng - 2 ^ nc)) 23 8 (imgVal img (d + 12) 4 / 4)),
   (3, setFld (setFld (setFld (setFld (setFld (setFld 0 63 57 (b 4)) 56 48 (ceilDiv (imgVal img (d + 8) 4) 4096))
      47 40 (b 42)) 39 33 (b 6)) 31 16 (imgVal img (d + 44) 2)) 15 0 (imgVal img (d + 46) 2)),
   (4, k.copy), (5, k.vec), (6, k.mat), (11, objCompat img)]

/-- Where the loader puts a section: the part of each page and its bytes; none when a page is not mapped with the rights
that its accesses need. -/
def sectionPlaces (s : State) (tctx : DWord) (rights : List Acc) (va : Nat) (bs : List Byte) : Option (List (Place × List Byte)) :=
  (pageRuns va bs.length).foldr (fun r m =>
    match m, frontReach s tctx .load r.1 with
    | some l, .inl p =>
      if rights.all (fun a => (frontReach s tctx a r.1).isLeft) then some ((p, (bs.drop (r.1 - va)).take r.2) :: l) else none
    | _, _ => none) (some [])

/-- A section of an image. -/
def sectionOf (img : List Byte) (x : Nat × Nat) : List Byte := (img.drop x.1).take x.2

/-- A native object is loaded for a queue: its text and data copied to addresses of the queue's address space, its text in
pages with X and R, an icinv over the text, its kernels known to the launches that name their entries. -/
def loadNative (q text data : Nat) (img : List Byte) : Eff := fun s =>
  let tctx := (getQueue s q).tctx
  match sectionPlaces s tctx [.fetch] text (sectionOf img (objText img)), sectionPlaces s tctx [] data (sectionOf img (objData img)) with
  | some ts, some ds =>
    let lo := text / 128 * 128
    let hi := (text + (objText img).2 + 127) / 128 * 128
    Eff.all
      [Eff.forEach (ts ++ ds) (fun e => unitWrite 0 e.1 e.2),
       fun s => dropCode (fun a n => meetsRange s (pagesIn s tctx lo hi) lo hi a n) s,
       fun s => [.mail { s.mail with
         kernels := (List.range (objNkern img)).map (fun i => descKernel q text img (descAt img i)) ++ s.mail.kernels }]] s
  | _, _ => []

/-- The loader's work on an object for a queue, with its symbols bound and, for a Uzora object, the translator's native code
for it, an object of its own whose decisions change no result (R427). An object that fails a check loads nothing. -/
def loadObject (q text data : Nat) (img : List Byte) (syms : List Nat) (native : List Byte) : Eff := fun s =>
  if loaderError s img syms ≠ 0 then []
  else if !objUzora img then loadNative q text data img s
  else if loaderError s native [] = 0 && !objUzora native && objNkern native == objNkern img then loadNative q text data native s
  else []

end Sys2Proof.Machine
end

