-- ==== Sys2Proof/Machine/Sched.lean ====
section
/-! DEFINITION. The moves of the machine: the issue of a word, the turn of an issue stage (04: R98 to R113; 06: R158, R159,
R162), the choice of the next move, and what every step does besides (13: R315; 14: R338 to R340; 15: R363, R364). -/

namespace Sys2Proof.Machine

/-! ## Who may issue -/

/-- The candidate paths of a group, lowest address first. -/
def candidatesOf (s : State) (place : Nat) (g : Group) : List (DWord × Word) := (pathsOf g).filter (isCandidate s place g)

/-- A group is in the ready set (R102). -/
def groupReady (s : State) (place : Nat) (g : Group) : Bool :=
  issuing g && !blkHeld s g.blk && !(candidatesOf s place g).isEmpty

/-- A stream may issue its next word. -/
def streamReady (s : State) (t : Stream) : Bool :=
  t.u.wait.isNone && !t.u.mark && t.trap.isNone && !t.stopped && !blkHeld s t.blk

/-- An agent may issue at an address, for lanes. -/
def mayIssue (s : State) (a : Agent) (pc : DWord) (lanes : Word) : Bool :=
  match a with
  | .group p =>
    match mfind s.groups p with
    | some g => issuing g && !blkHeld s g.blk && (pathsOf g).contains (pc, lanes) && isCandidate s p g (pc, lanes)
    | none => false
  | .stream p =>
    match mfind s.streams p with
    | some t => streamReady s t && t.pc == pc
    | none => false

/-! ## The issue of one word (R51, R98) -/

/-- A word that is fetched and may not execute yet: a held convergence instruction, a rejoin that is not passed. -/
def heldNow (s : State) (a : Agent) (pc : DWord) (lanes : Word) (i : Instr) : Bool :=
  match a with
  | .group p =>
    match mfind s.groups p with
    | some g =>
      match i with
      | .rejoin _ => lanes &&& ~~~rejoinHolds g i lanes == 0
      | _ => isConv i && g.sched.released != some (pc, lanes)
    | none => true
  | .stream _ => false

/-- The lanes that a fetched word issues for: of a path at a rejoin, those that it does not hold (R110, R112). -/
def goingLanes (s : State) (a : Agent) (lanes : Word) (i : Instr) : Word :=
  match a with
  | .group p =>
    match mfind s.groups p with
    | some g => lanes &&& ~~~rejoinHolds g i lanes
    | none => lanes
  | .stream _ => lanes

/-- A stream that passes the body of an mseq.go with count 0 (R197). -/
def skipping (s : State) (a : Agent) : Bool :=
  match a with
  | .stream p =>
    match (mfind s.streams p).bind (·.loop) with
    | some l => l.left == 0
    | none => false
  | .group _ => false

/-- A poisoned code line, or one of a removed device, is a machine check (R376). -/
def fetchDead (c : Ctx) (line : Nat) (eff : Eff) : Eff := Eff.seq eff (poisonIn (8, c.core) c.launch c.core line)

/-- An issue as its fetch sees it. -/
def fetchIssue (a : Agent) (pc : DWord) (lanes : Word) : Issue := { agent := a, pc := pc, lanes := lanes, word := 0, ext := 0 }

/-- The context of a fetch. -/
def fetchCtx (s : State) (a : Agent) (pc : DWord) (lanes : Word) : Option Ctx :=
  ctxOf (.reservedOpcode 0 0) (fetchIssue a pc lanes) s

/-- A stream passes one word of a body without executing it. -/
def skipWord (c : Ctx) : Eff := fun s =>
  match fetchOne c s c.pc with
  | .word w _ eff => Eff.seq eff (onStream c (fun t => streamNext { t with tail := none } (c.pc + (if bit w.toNat 29 then 8 else 4)))) s
  | .trap cause addr eff => trapOr c { cause := cause, addr := addr, lane := c.fetchLane } eff s
  | .park why eff => Eff.seq eff (parkAt c (.retry why)) s
  | .dead line eff => fetchDead c line eff s

/-- The state in which a fetched word executes. -/
def atWord (a : Agent) (pc : DWord) (lanes w e : Word) (eff : Eff) (s : State) : State :=
  applyAll (eff s ++ [.cur (some { agent := a, pc := pc, lanes := lanes, word := w, ext := e })]) s

/-- A word is fetched and, unless it is held, executes. -/
def issuePath (a : Agent) (pc : DWord) (lanes : Word) (s : State) : Host.Outcome State Fault Refusal :=
  if !mayIssue s a pc lanes then .next s
  else
    match fetchCtx s a pc lanes with
    | none => .next s
    | some c =>
      if skipping s a then commit (skipWord c) s
      else
        match fetchInstr c s with
        | .trap cause addr eff => commit (trapOr c { cause := cause, addr := addr, lane := c.fetchLane } eff) s
        | .park why eff => commit (Eff.seq eff (parkAt c (.retry why))) s
        | .dead line eff => commit (fetchDead c line eff) s
        | .word w e eff =>
          let i := parse w.toNat e.toNat
          if heldNow s a pc lanes i then commit eff s
          else exec i (atWord a pc (goingLanes s a lanes i) w e eff s)

/-! ## Port slots of a path's word (R158, R159, R162) -/

/-- A lane memory form: its address and data are not charged up-slots. spt and spc are none (R133). -/
def isLaneMem : Instr → Bool
  | .ld _ | .st _ | .atom _ _ | .cas _ | .prf _ | .ldb _ => true
  | _ => false

/-- The v rows among registers. -/
def vRows (l : List Reg) : Nat :=
  (l.filter (fun r =>
    match r with
    | .v _ => true
    | _ => false)).length

/-- Up-slots of a lane word at issue on a port that serves one of its lanes: one for each v row it reads. The four rows
that the B of spawn names count four, which R158 does not say (log entry 40); the C of mvtot goes up as the matrix
unit's transfer, not at issue. -/
def upCost (i : Instr) : Nat :=
  if isUniform i || isLaneMem i then 0
  else
    match i with
    | .mvtot w => vRows (srcRegs .n32 w.a ++ srcRegs .n32 w.b)
    | i => vRows (acsOf i).reads

/-- Down-slots of one field of a memory form: from a q or y row, one, or two at a 64-bit type. -/
def downFld (t : Ty) (f : Src) : Nat :=
  match f with
  | .q _ => if tyIs64 t then 2 else 1
  | .y _ => if tyIs64 t then 2 else 1
  | _ => 0

/-- Down-slots at issue: address and store data from q or y rows. -/
def downCost (i : Instr) : Nat :=
  match i with
  | .ld w | .prf w | .ldb w => downFld .n64 w.a + downFld .i32 w.b
  | .st w | .atom _ w => downFld .n64 w.a + downFld .i32 w.b + downFld w.ty (srcOf w.c.toNat)
  | .cas w => downFld .n64 w.a + downFld w.ty w.b + downFld w.ty (srcOf w.c.toNat)
  | _ => 0

/-- A port's lanes take part. -/
def portUsed (m : Word) (port : Nat) : Bool := (m &&& (if port = 0 then 0xFFFF else 0xFFFF0000)) != 0

/-- The slots a word takes on a port: up, down. -/
def slotsOn (g : Group) (i : Instr) (lanes : Word) (port : Nat) : Nat × Nat :=
  if portUsed (wordLanes g i lanes) port then (upCost i, downCost i) else (0, 0)

/-- The word of a path, as far as it is known; an unknown one costs nothing. -/
def slotsOf (s : State) (place : Nat) (g : Group) (p : DWord × Word) (port : Nat) : Nat × Nat :=
  match pathInstr s place g p.1 with
  | some i => slotsOn g i p.2 port
  | none => (0, 0)

/-- A wide word: more than four up-slots on a port. -/
def isWide (s : State) (place : Nat) (g : Group) (p : DWord × Word) : Bool :=
  [0, 1].any (fun port => decide (4 < (slotsOf s place g p port).1))

/-- Transfers may wait for up-slots of a partition's ports: load returns into q rows, units of matrix loads, mvtot data
of a block that holds the sequencer (R161). -/
def upsWait (s : State) (p : Nat) : Bool :=
  let isQ (r : Reg) : Bool :=
    match r with
    | .q _ => true
    | _ => false
  s.groups.any (fun e => partOfG e.1 == p && e.2.u.outs.any (fun o => !o.landed && o.regs.any isQ)) ||
  s.streams.any (fun e => e.1 == p && !e.2.ops.isEmpty) ||
  s.blocks.any (fun e => 4 * e.2.core + e.2.part == p && e.2.mat.isSome)

/-- Transfers may wait for down-slots: lane results, memory data, matrix stores (R160). -/
def downsWait (s : State) (p : Nat) : Bool :=
  s.groups.any (fun e => partOfG e.1 == p && (!e.2.sq.isEmpty || e.2.u.outs.any (fun o => !o.landed))) ||
  s.streams.any (fun e => e.1 == p && !e.2.ops.isEmpty) ||
  s.blocks.any (fun e => 4 * e.2.core + e.2.part == p && e.2.mat.isSome)

/-- The up- and down-slots that the first word and the transfers that wait leave on a port: how many of these wait and how
long is time only, a free value (log entry 40). -/
def slotsLeft (s : State) (place : Nat) (g : Group) (p : DWord × Word) (port : Nat) : Nat × Nat :=
  let a := slotsOf s place g p port
  (4 - a.1 - (if upsWait s (partOfG place) then Config.waitingUps s.fresh port % 5 else 0),
   2 - a.2 - (if downsWait s (partOfG place) then Config.waitingDowns s.fresh port % 3 else 0))

/-- The second word fits in the slots left on every port it is charged on (R162); a wide first word issues alone. -/
def slotsFit (s : State) (place : Nat) (g : Group) (p q : DWord × Word) : Bool :=
  !isWide s place g p &&
  [0, 1].all (fun port =>
    let a := slotsLeft s place g p port
    let b := slotsOf s place g q port
    (b.1 == 0 || decide (b.1 ≤ a.1)) && (b.2 == 0 || decide (b.2 ≤ a.2)))

/-! ## A turn of an issue stage (R98) -/

/-- The chosen paths of a turn. -/
structure Turn where
  place  : Nat
  first  : DWord × Word
  second : Option (DWord × Word)
  deriving DecidableEq, Repr

/-- Paths with the greatest measure first; of equals, the earlier stays first. -/
def byMost (f : DWord × Word → Nat) (l : List (DWord × Word)) : List (DWord × Word) :=
  let rec ins (a : DWord × Word) : List (DWord × Word) → List (DWord × Word)
    | [] => [a]
    | b :: l => if f b < f a then a :: b :: l else b :: ins a l
  l.foldl (fun m a => ins a m) []

/-- The candidates of a group in the order in which they are taken: a released instruction, forced paths oldest first,
then the most populous; ties to the lower address. -/
def pathOrder (s : State) (place : Nat) (g : Group) : List (DWord × Word) :=
  let limit := ageLimit s (coreOfG place)
  let cs := candidatesOf s place g
  let rel (p : DWord × Word) : Bool := g.sched.released == some p
  let aged (p : DWord × Word) : Bool := decide (limit ≤ pathAge g p.2)
  cs.filter rel ++ byMost (fun p => pathAge g p.2) (cs.filter (fun p => !rel p && aged p)) ++
  byMost (fun p => popCount p.2) (cs.filter (fun p => !rel p && !aged p))

/-- The format register through which a word rounds by SR (R70). -/
def srReg (g : Group) (i : Instr) : Option Nat :=
  match i with
  | .cvtxPack w | .qblk w => if (xfmtOf (getKf g.u.regs.u (kfNum w))).rnd = 4 then some (kfNum w) else none
  | _ => none

/-- Two paths round by SR through one register: the lower address takes the earlier SEED (R70). -/
def srSwaps (s : State) (place : Nat) (g : Group) (p q : DWord × Word) : Bool :=
  let r (x : DWord × Word) : Option Nat := (pathInstr s place g x.1).bind (srReg g)
  decide (q.1.toNat < p.1.toNat) && (r p).isSome && r p == r q

/-- The paths that a chosen group issues. -/
def turnOf (s : State) (place : Nat) (g : Group) : Option Turn :=
  match pathOrder s place g with
  | [] => none
  | [p] => some { place := place, first := p, second := none }
  | p :: q :: _ =>
    if !slotsFit s place g p q then some { place := place, first := p, second := none }
    else if srSwaps s place g p q then some { place := place, first := q, second := some p }
    else some { place := place, first := p, second := some q }

/-- The ready slots of a partition with their groups. -/
def readySlots (s : State) (p : Nat) : List (Nat × Group) :=
  (s.groups.filter (fun e => partOfG e.1 == p && groupReady s e.1 e.2)).map (fun e => (slotOfG e.1, e.2))

/-- A slot that has yielded and may not be chosen yet (R113). -/
def yieldHeld (x : Part) (ready : List (Nat × Group)) (e : Nat × Group) : Bool :=
  e.2.sched.yielded && ready.any (fun r => r.1 != e.1 && !(mget [] x.offered e.1).contains r.1)

/-- The group choice of R98: one that has waited 32 cycles without an issue, else round-robin. -/
def chooseSlot (cyc : Nat) (x : Part) (ready : List (Nat × Group)) : Option (Nat × Group) :=
  let free := ready.filter (fun e => !yieldHeld x ready e)
  let pool := if free.isEmpty then ready else free
  match pool.find? (fun e => (mfind x.waited e.1).any (fun n => decide (n + 32 ≤ cyc))) with
  | some e => some e
  | none =>
    match pool.find? (fun e => decide (x.last < e.1)) with
    | some e => some e
    | none => pool.head?

/-- The turn of a partition; none when no group is ready. -/
def chooseTurn (s : State) (p : Nat) : Option Turn :=
  match chooseSlot s.clk.cyc (getPart s p) (readySlots s p) with
  | some (slot, g) => turnOf s (16 * p + slot) g
  | none => none

/-- The lanes of a group that wait at a rejoin: they age at every turn of their partition (R112). -/
def rejoinWait (s : State) (place : Nat) (g : Group) : List Nat :=
  if !issuing g then []
  else
    (pathsOf g).flatMap (fun p => lanesOf (rejoinHeld s place g p))

/-- The issue cycles of a turn: a wide word is the first instruction of two (R159). -/
def turnIssues (s : State) (t : Turn) : Nat :=
  match mfind s.groups t.place with
  | some g => if isWide s t.place g t.first then 2 else 1
  | none => 1

/-- The groups of a partition after a turn, in each of its issue cycles: ages of the chosen group's other candidates and of the
paths at a rejoin, forced paths, the yield that has been served. -/
def ageGroups (p : Nat) (t : Option Turn) : Eff := fun s =>
  let n := (t.map (turnIssues s)).getD 1
  (s.groups.filter (fun e => partOfG e.1 == p)).flatMap (fun e =>
    let wait := rejoinWait s e.1 e.2
    let mine : Bool :=
      match t with
      | some x => x.place == e.1
      | none => false
    let others : List Nat :=
      match t with
      | some x =>
        if x.place = e.1 then
          ((candidatesOf s e.1 e.2).filter (fun q => q != x.first && some q != x.second)).flatMap (fun q => lanesOf q.2)
        else []
      | none => []
    let ls := wait ++ others.filter (fun l => !wait.contains l)
    if ls.isEmpty && !mine then []
    else
      let sched := { e.2.sched with age := ageUp n ls e.2.sched.age, yielded := e.2.sched.yielded && !mine }
      [.group e.1 (forcePaths (ageLimit s (coreOfG e.1)) { e.2 with sched := sched })])

/-- A cycle of the stage: two for a wide word or at half width (R159, R165). -/
def turnCycles (s : State) (place : Nat) (pc : DWord) (lanes : Word) : Nat :=
  let half := bit (getCore s (coreOfG place)).corestat.toNat (12 + partOfG place % 4)
  let wide :=
    match mfind s.groups place with
    | some g => isWide s place g (pc, lanes)
    | none => false
  (if half then 2 else 1) * (if wide then 2 else 1)

/-- A partition's issue stage after its choice. -/
def stageAfter (p : Nat) (t : Turn) : Eff := fun s =>
  let x := getPart s p
  let slot := slotOfG t.place
  let ready := readySlots s p
  let offered := (ready.filter (fun e => e.2.sched.yielded && e.1 != slot)).map (fun e => (e.1, mget [] x.offered e.1 ++ [slot]))
  [.part p { x with
    last := slot
    second := t.second.map (fun q => (slot, q.1, q.2))
    free := s.clk.cyc + turnCycles s t.place t.first.1 t.first.2
    waited := ready.map (fun e => (e.1, (mfind x.waited e.1).getD s.clk.cyc))
    offered := offered }]

/-- A stage may take its turn: it has not had it in this cycle, no later one has, and no word of two cycles keeps it. -/
def stageFree (s : State) (p : Nat) : Bool := decide (s.turn ≤ 2 * p) && decide ((getPart s p).free ≤ s.clk.cyc)

/-- A turn: the choice is recorded, paths age, the first path issues. -/
def takeTurn (p : Nat) (s : State) : Host.Outcome State Fault Refusal :=
  if !stageFree s p then .next s
  else
    match chooseTurn s p with
    | none => commit (ageGroups p none) s
    | some t =>
      issuePath (.group t.place) t.first.1 t.first.2 (applyAll (Eff.seq (ageGroups p (some t)) (stageAfter p t) s) s)

/-- The second path of a turn is gone from the stage when it issues; one that does not issue ages. Where the first path
has jumped onto the second's address in the same turn the two have merged (R97), and the merged path issues nothing more
in the turn: the spec does not say (log entry 38). -/
def takeSecond (a : Agent) (pc : DWord) (lanes : Word) : Eff := fun s =>
  match a with
  | .stream _ => []
  | .group place =>
    let p := partOfG place
    if (getPart s p).second == some (slotOfG place, pc, lanes) then
      .part p { getPart s p with second := none } ::
      (if mayIssue s a pc lanes then []
       else
         match mfind s.groups place with
         | some g =>
           if (candidatesOf s place g).contains (pc, lanes) then
             [.group place { g with sched := { g.sched with age := ageUp 1 (lanesOf lanes) g.sched.age } }]
           else []
         | none => [])
    else []

/-! ## Replacement (R283, R311) -/

/-- A line of a core's L1 is clean: no write of the core to it waits at its home, and no bytes of it are privatised to the
core. -/
def lineClean (s : State) (c line : Nat) : Bool :=
  (privOwn s c line).isNone && s.coh.homeq.all (fun w => !(w.core == c && w.line == line))

/-- An entry of a core's L1 TLB, one of a cluster's L2 TLB, or a clean line of a core's L1 gives way; the line's home is not
told (R311), but takes the mark of a poisoned one (R376). -/
def evict (what c key : Nat) : Eff := fun s =>
  match what with
  | 0 => [.core c { getCore s c with tlb := (getCore s c).tlb.eraseIdx key }]
  | 1 => [.cluster c { getCluster s c with tlb := (getCluster s c).tlb.eraseIdx key }]
  | 2 =>
    if lineClean s c key then
      Eff.seq (fun s => [.core c { getCore s c with l1 := mdel (getCore s c).l1 key }]) (markHome key (badCopy s c key)) s
    else []
  | _ => []

/-! ## Moves -/

/-- A move of the host that has to wait: a release of a round region with bounded loads in flight (R315). -/
def moveWaits (s : State) (m : Move) : Bool :=
  match m with
  | .hostWrite r v => decide (r = 0x10000 + 8 * 0x23) && fld v 0 0 == 0 && rtValid (getRt s (curRt s)) && regionBusy s (curRt s)
  | _ => false

/-- What a move does. -/
def act (m : Move) (s : State) : Host.Outcome State Fault Refusal :=
  match m with
  | .event i subj => exec i (applyAll [.subj subj] s)
  | .issue a pc lanes => issuePath a pc lanes (applyAll (takeSecond a pc lanes s) s)
  | .turn p => takeTurn p s
  | .hostWrite r v => commit (windowPut r v) s
  | .hostRead r => commit (windowGet r) s
  | .load q text data img syms native => commit (loadObject q text data img syms native) s
  | .evict what c key => commit (evict what c key) s
  | .unit c n i => commit (moveUnit c n i) s
  | .row p i => commit (landNext p i) s
  | .ahead p pc row => commit (lookAhead p pc row) s
  | .device a bs => commit (deviceWrite a bs) s
  | .idle => .next s

/-! ## The machine's own choice of a move (log entry 11) -/

/-- An event if its condition holds. -/
def evIf (b : Bool) (i : Instr) (subj : List Nat) : Option Move := if b then some (.event i subj) else none

/-- The first of a list of optional moves. -/
def firstMove (l : List (Option Move)) : Option Move := l.findSome? id

/-- What an agent's shared part lets happen. -/
def agentMove (s : State) (a : Agent) (u : UCtx) : Option Move :=
  let subj : List Nat :=
    match a with
    | .group p => [0, p]
    | .stream p => [1, p]
  firstMove
    [evIf (landable u) .resultLanding subj,
     evIf (markerDone u) .markerRelease subj,
     evIf (kcwaitOver s a).isSome .kcwaitReturn subj,
     evIf (napOver s a).isSome .napExpiry subj,
     evIf (ringOver s a).isSome .ringWaitReturn subj,
     evIf (ringPendNow s a).isSome .ringPutRecord subj,
     evIf (arrivalNow s a).isSome .arrivalRecord subj]

/-- What a group lets happen. -/
def groupMove (s : State) (e : Nat × Group) : Option Move :=
  let p := e.1
  let g := e.2
  firstMove
    [evIf (storeReady s p g) .storePerform [p],
     agentMove s (.group p) g.u,
     evIf (pmwaitOver s p).isSome .pmwaitReturn [p],
     evIf (monOver s p).isSome .monWaitReturn [p],
     evIf (monTimeOut s p).isSome .monWaitTimeout [p],
     evIf (barOver s (.group p)).isSome .barrierWaitReturn [p],
     evIf (spawnReady s p).isSome .spawnRelease [p],
     evIf (migOver s p).isSome .migrationComplete [p],
     evIf (holdRelease s p g).isSome .holdCountLimit [p],
     evIf (convRelease s p g).isSome .convergenceRelease [p],
     evIf (rejoinLanes s p g != 0) .rejoinRelease [p],
     evIf (groupEnds s p).isSome .groupEnd [p]]

/-- What a stream lets happen. -/
def streamMove (s : State) (e : Nat × Stream) : Option Move :=
  let p := e.1
  let t := e.2
  firstMove
    ([agentMove s (.stream p) t.u,
      evIf (barOver s (.stream p)).isSome .mbarWaitReturn [p],
      evIf (deliver s p).isSome .streamTrapDelivery [p],
      evIf (streamEnds s p).isSome .streamEnd [p]] ++
     (List.range t.ops.length).flatMap (fun i =>
      [evIf (loadEnds s p i).isSome .mloadComplete [p, i],
       evIf (storeEnds s p i).isSome .mstComplete [p, i],
       evIf (sdecEnds s p i).isSome .sdecComplete [p, i]]))

/-- What a core lets happen. -/
def coreMove (s : State) (c : Nat) : Option Move :=
  firstMove
    [evIf (copyEnds s c 0 false).isSome .copyInEnd [c, 0],
     evIf (copyEnds s c 1 false).isSome .copyInEnd [c, 1],
     evIf (copyEnds s c 0 true).isSome .copyOutEnd [c, 0],
     evIf (copyEnds s c 1 true).isSome .copyOutEnd [c, 1],
     evIf (courierTakes s c).isSome .courierStart [c],
     evIf (aheadStarts s c).isSome .runaheadStart [c],
     evIf (holeExpired s c) .pigeonholeExpiry [c],
     evIf (spawnWhere s c).isSome .pendingGroupPlacement [c]]

/-- An invalidation in flight may arrive: none is held already for its line. -/
def invalFree (s : State) (x : Inval) : Bool :=
  s.coh.fills.all (fun f => !(f.core == x.core && f.line == x.line && f.held.isSome))

/-- What the memory system lets happen. -/
def memMove (s : State) : Option Move :=
  firstMove
    [evIf (!s.coh.fills.isEmpty) .lineFill [0],
     evIf (s.coh.invals.any (invalFree s)) .invalidation [s.coh.invals.findIdx (invalFree s)],
     evIf (!s.coh.acks.isEmpty) .invalidationAcknowledged [0],
     evIf (!s.coh.notices.isEmpty) .roundNotice [0],
     (s.coh.homeq.find? (fun w => homeReady s w && (homeHead s w.line).any (fun x => x.id == w.id))).map
       (fun w => .event .leaseEnd [w.line]),
     (s.coh.watches.find? (fun w => w.fired && w.limit != 0)).map (fun w => .event .stallPush [w.id]),
     (s.coh.watches.find? (fun w => !w.fired && w.limit != 0 && decide (w.limit ≤ s.clk.cyc))).map
       (fun w => .event .stallWatchTimeout [w.id]),
     (s.coh.reps.find? (fun r => (repStep s r.1).isSome)).map (fun r => .event .replicaUpdate [r.1]),
     evIf (!(recordEvent s).isEmpty) .faultRecordWrite [],
     (List.range 6).findSome? (fun cl =>
       let l := (getCluster s cl).merge
       evIf (l.any (fun m => m.cause.isNone)) .pageWalkComplete [cl, l.findIdx (fun m => m.cause.isNone)])]

/-- What the front-end lets happen. -/
def queueMove (s : State) : Option Move :=
  firstMove
    [s.mail.launches.findSome? (fun e => evIf (launchEnds s e.1).isSome .launchComplete [e.1]),
     s.mail.queues.findSome? (fun e => evIf (anchorStep s e.1).isSome .anchorRead [e.1]),
     (List.range 64).findSome? (fun q => evIf (lateStep s q).isSome .deadlinePass [q]),
     evIf (arbitrate s).isSome .arbitration [],
     s.mail.launches.findSome? (fun e => evIf (rotStep s e.1).isSome .gridRotation [e.1])]

/-- What the trace fabric and the counters let happen. -/
def traceMove (s : State) : Option Move :=
  firstMove
    [(List.range 6).findSome? (fun cl => firstMove
       [evIf (drainReady s cl) .cardDrain [cl], evIf (stallLow s cl) .stallEnd [cl]]),
     s.parts.findSome? (fun e => evIf (sampleCard s e.1).isSome .sampleCountdown [e.1]),
     evIf (s.ctrs.pend.any (fun e => decide (e.cyc < s.clk.cyc))) .counterAdd []]

/-- The responder answers the request in the mailbox (R435, R438). -/
def spdmMove (s : State) : Option Move :=
  if !s.boot.busy then none
  else
    let i : Instr :=
      match requestCode s.boot with
      | 0x84 => .getVersion
      | 0xE1 => .getCapabilities
      | 0xE3 => .negotiateAlgorithms
      | 0x81 => .getDigests
      | 0x82 => .getCertificate
      | 0x83 => .challenge
      | 0xE0 => .getMeasurements
      | _ => .unsupportedRequest
    some (.event i [])

/-- The second path of a turn that has begun. -/
def secondMove (s : State) : Option Move :=
  s.parts.findSome? (fun e => e.2.second.map (fun x => .issue (.group (16 * e.1 + x.1)) x.2.1 x.2.2))

/-- Arrivals that may be recorded come before the ends of groups in a cycle, in ascending order of place (R332). -/
def arrivalMove (s : State) : Option Move :=
  firstMove
    [s.groups.findSome? (fun e => evIf (arrivalNow s (.group e.1)).isSome .arrivalRecord [0, e.1]),
     s.streams.findSome? (fun e => evIf (arrivalNow s (.stream e.1)).isSome .arrivalRecord [1, e.1])]

/-- Everything in the machine that may happen without an issue. -/
def unitMove (s : State) : Option Move :=
  firstMove
    [spdmMove s, memMove s, arrivalMove s, s.groups.findSome? (groupMove s), s.streams.findSome? (streamMove s),
     s.cores.findSome? (fun e => coreMove s e.1), queueMove s, traceMove s]

/-- Numbers of the issue stages (2 p) and streams (2 p + 1) that may still issue in this cycle, or whose paths age at a
rejoin. -/
def issuers (s : State) : List Nat :=
  let gs := (s.groups.filter (fun e => stageFree s (partOfG e.1) && (groupReady s e.1 e.2 || !(rejoinWait s e.1 e.2).isEmpty))).map
    (fun e => 2 * partOfG e.1)
  let ts := (s.streams.filter (fun e => decide (s.turn ≤ 2 * e.1 + 1) && streamReady s e.2)).map (fun e => 2 * e.1 + 1)
  gs ++ ts

/-- The issuers of a cycle take their turns in ascending order; none when each has had its turn. -/
def nextIssuer (s : State) : Option Nat := (issuers s).foldl (fun m n => some (min n (m.getD n))) none

/-- The move of an issuer. -/
def issuerMove (s : State) (n : Nat) : Move :=
  if n % 2 = 0 then .turn (n / 2)
  else
    match mfind s.streams (n / 2) with
    | some t => .issue (.stream (n / 2)) t.pc 0
    | none => .idle

/-- The next move when the agenda names none: the events of a cycle, then the turns of its issuers, then the next cycle. -/
def nextMove (s : State) : Move :=
  match s.boot.phase with
  | .rom => .event .packageReset []
  | .up => .event .timingLock []
  | _ =>
    match firstMove [secondMove s, if s.turn = 0 then unitMove s else none] with
    | some m => m
    | none =>
      match nextIssuer s with
      | some n => issuerMove s n
      | none => .idle

/-- The move a step makes, and the agenda it leaves. -/
def takeMove (s : State) : Move × List Move :=
  match s.agenda with
  | m :: l => if moveWaits s m then (nextMove s, s.agenda) else (m, l)
  | [] => (nextMove s, [])

/-! ## What every step does besides -/

/-- The party of an agent. -/
def agentParty (s : State) (a : Agent) : Nat :=
  match a with
  | .group p => groupParty (((mfind s.groups p).map (·.uid)).getD 0)
  | .stream p => streamParty (((mfind s.streams p).map (·.blk)).getD 0)

/-- What kept a word from executing is over: it may issue again. -/
def whyOver (s : State) (a : Agent) (u : UCtx) (why : Why) : Bool :=
  let sq : List SqE :=
    match a with
    | .group p => ((mfind s.groups p).map (·.sq)).getD []
    | .stream _ => []
  match why with
  | .walk cl asid page =>
    match mergeFind s cl asid page with
    | some m => m.cause.isSome
    | none => true
  | .merge cl asid page =>
    match mergeFind s cl asid page with
    | some m => m.who == agentParty s a && m.recorded && !m.taken
    | none => true
  | .tableFull cl => !mergeFull s cl
  | .window blk w => !winBusy s blk w
  | .sqFull => !sqFull sq
  | .sqEntry id => sq.all (fun e => e.id != id)
  | .drain scope => drained s sq scope
  | .inflight =>
    match a with
    | .stream p => ((mfind s.streams p).map (fun t => t.ops.isEmpty)).getD true
    | .group _ => true
  | .stall cl => stallOver s cl
  | .holes =>
    match a, u.wait with
    | .group p, some w =>
      match (mfind s.groups p).bind (fun g => pathInstr s p g w.pc) with
      | some (.spawn _) => false
      | _ => true
    | _, _ => true
  | .watch id =>
    match watchId s id with
    | some w => w.limit == 0
    | none => true
  | .region r => !regionBusy s r
  | .migration =>
    match a with
    | .group p => ((mfind s.groups p).map (fun g => s.coh.migs.all (fun m => m.uid != g.uid))).getD true
    | .stream _ => true
  | .blocked uid => s.coh.migs.all (fun m => m.uid != uid)
  | .homes k lines => lines.all (lineReady s k)
  | .turn id rel lines =>
    relReady s rel && (lines.all (lineReady s (.entry id)) || !(toClaim s (.entry id) lines).isEmpty) &&
      (sq.head?.map (·.id)).getD id == id

/-- The block of a queue's launches, other than one, is still resident. -/
def othersLeft (s : State) (q blk : Nat) : Bool := (queueBlocks s q).any (fun e => e.1 != blk)

/-- The agent's wait ends by itself: a word issues again, a tlbinv, a suspension or a queue reset is complete (R291, R364,
R367). -/
def selfWake (s : State) (a : Agent) (u : UCtx) : Option Eff :=
  match u.wait with
  | none => none
  | some w =>
    match w.kind with
    | .retry why => if whyOver s a u why then some (retry a) else none
    | .tlbinv after reach =>
      match a with
      | .group p => if accessesLeft s (coreOfG p) reach after then none else some (wake a [] id)
      | .stream _ => none
    | .advance _ _ =>
      match a with
      | .group p => advanceOver s p
      | .stream _ => none
    | .saves q => if othersLeft s q (agentBlk s a) then none else some (wake a [] id)
    | .resets d q n => if resetOver s q then some (wakeK a d (BitVec.ofNat 64 n)) else none
    | _ => none

/-- Every wait that ends by itself does. -/
def wakeAll : Eff := fun s =>
  Eff.seq
    (Eff.all (s.groups.filterMap (fun e => selfWake s (.group e.1) e.2.u)))
    (Eff.all (s.streams.filterMap (fun e => selfWake s (.stream e.1) e.2.u))) s

/-- Blocks of suspended queues are saved as they come to rest (R364), as far as their cards find room. -/
def saveAll : Eff := fun s =>
  Eff.forEach (savable s) (fun b s => Eff.opt (cardPoint (pkgSrc 7) b (frankOfBlk s b) (saveBlock b) s) s) s

/-- Since when the condition of R363 has held for a launch. -/
def stuckSince (s : State) (n : Nat) (l : Launch) : Option Nat := if rotCond s n l then some (l.stuck.getD s.clk.cyc) else none

/-- The launches' `stuck` brought up to date. -/
def markStuck : Eff := fun s =>
  let ls := s.mail.launches.map (fun e => (e.1, { e.2 with stuck := stuckSince s e.1 e.2 }))
  if ls == s.mail.launches then [] else [.mail { s.mail with launches := ls }]

/-- How far the clocks advance when `ticks` does not say: a cycle ends with an idle step, when every issuer has had its turn in
it. -/
def ownTick (m : Move) : Tick :=
  { cycles :=
      match m with
      | .idle => 1
      | _ => 0 }

/-- The tick of a step, and the ticks it leaves. -/
def takeTick (s : State) (m : Move) : Tick × List Tick :=
  match s.ticks with
  | t :: l => (t, l)
  | [] => (ownTick m, [])

/-- ERRNS in HOLD rises by 1 for each 10 microseconds (R340). -/
def holdStat (c : Clock) (time : Nat) : Word :=
  if bit c.tstat.toNat 30 then
    tstatOf (bit c.tstat.toNat 31) true (bits c.tstat.toNat 23 0 + (time / 10000 - c.time / 10000))
  else c.tstat

/-- How much faster than its nominal rate TIME runs in a tick: slewed by at most 500 ppm (R339); in HOLD it runs on at its last
rate (R340). -/
def rateIn (c : Clock) (t : Tick) : Int :=
  if bit c.tstat.toNat 30 || t.cycles = 0 then c.rate else max (-500) (min 500 t.slew)

/-- The nominal length of some cycles at a clock in MHz with TIME's rate slewed by r ppm, in units of 10^-12 ns, never beyond that
bound. -/
def slewed (mhz : Nat) (r : Int) (t : Tick) : Nat :=
  let x := t.cycles * 1000 * (1000000 + r).toNat * 1000000
  if r < 0 then (x + mhz - 1) / mhz else x / mhz

/-- The clock after a tick: CYC counts the cycles that the clock runs, TIME their length (R339, R444). -/
def clockAfter (pwr : Word) (c : Clock) (t : Tick) : Clock :=
  let x := c.sub + slewed (max 1 (bits pwr.toNat 11 0)) (rateIn c t) t
  let time := c.time + x / 1000000000000
  { c with cyc := c.cyc + t.cycles, time := time, sub := x % 1000000000000, rate := rateIn c t, tstat := holdStat c time
           change := if t.cycles = 0 then c.change else none }

/-- A change of clock takes effect at the end of its cycle (R444). -/
def applyClock (t : Tick) : Eff := fun s =>
  match s.clk.change with
  | some v => if t.cycles = 0 then [] else [.ident .pwrstat (v.setWidth 64)]
  | none => []

/-- The franks of the engines that registered mail stalls for a cluster's buffer: parked groups and streams, couriers, barriers,
the front-end, samplers (R397, R411). -/
def stalledIn (s : State) (cl : Nat) : List Nat :=
  let stuck (u : UCtx) : Bool := (u.wait.map (·.kind)) == some (.retry (.stall cl))
  (s.groups.filter (fun e => stuck e.2.u)).map (fun e => frankOfBlk s e.2.blk) ++
  (s.streams.filter (fun e => stuck e.2.u)).map (fun e => frankOfBlk s e.2.blk) ++
  ((getCluster s cl).held.filter (fun _ => !stallOver s cl)).map (·.frank)

/-- The cycles of a tick counted: stalled engines and resident blocks (R411). -/
def countCycles (n : Nat) : Eff := fun s =>
  if n = 0 then []
  else
    let stalls := (List.range 6).map (fun cl => (cl, stalledIn s cl))
    let evt (f ev : Nat) : CtEvt := { frank := f, ev := ev, n := n, cyc := s.clk.cyc }
    let evs := stalls.flatMap (fun x => x.2.map (fun f => evt f 15)) ++ s.blocks.map (fun e => evt (frankOfBlk s e.1) 19)
    let cls := stalls.filterMap (fun x =>
      let k := getCluster s x.1
      match k.stall with
      | some y => if x.2.isEmpty then none else some (Upd.cluster x.1 { k with stall := some (y + n * x.2.length) })
      | none => none)
    cls ++ (if evs.isEmpty then [] else [.ctrs { s.ctrs with pend := s.ctrs.pend ++ evs }])

/-- What takes effect in the cores at the end of a cycle. -/
def coresCycleEnd : Eff := fun s => Eff.forEach (s.cores.map (·.1)) coreCycleEnd s

/-- The clocks advance. -/
def advance (t : Tick) : Eff := fun s =>
  Eff.all
    [Eff.when (t.cycles != 0) coresCycleEnd, countCycles t.cycles,
     -- no event waits for more than 64 cycles (R413)
     addBefore (s.clk.cyc + t.cycles - 63),
     fun s => [.clk (clockAfter s.idn.pwrstat s.clk t)] ++ applyClock t s] s

/-- How far a move brings its cycle: past the issuer whose turn it is. -/
def moveIssuer (m : Move) : Nat :=
  match m with
  | .turn p => 2 * p + 1
  | .issue (.stream p) _ _ => 2 * p + 2
  | _ => 0

/-- The writer of a claim still means to write. -/
def writerLives (s : State) (k : Writer) : Bool :=
  match k with
  | .courier core n => (mfind (getCore s core).couriers n).isSome
  | .op id => s.streams.any (fun e => e.2.ops.any (fun o => o.id == id))
  | .entry id => s.groups.any (fun e => e.2.sq.any (fun q => q.id == id))
  | .record => !s.faults.pend.isEmpty
  | .drain cl => !(getCluster s cl).cards.isEmpty
  | .replica pkg => s.coh.reps.any (fun r => r.1 == pkg)
  | .migration uid => s.coh.migs.any (fun m => m.uid == uid)
  | .rows p => (mfind s.streams p).any (fun t => t.trap.isNone && !t.stopped)

/-- The claims of writers that are gone, with a block or a launch, go too. -/
def dropClaims : Eff := fun s =>
  if s.coh.claims.all (fun c => writerLives s c.who) then []
  else [.coh { s.coh with claims := s.coh.claims.filter (fun c => writerLives s c.who) }]

/-- What follows a move in its step: nobody issues any more, waits that are over end, suspended blocks are saved, the clocks
advance. -/
def afterMove (m : Move) (t : Tick) : Eff :=
  Eff.all
    [fun _ => [.cur none, .subj []],
     fun s => [.turn (if t.cycles ≠ 0 then 0 else max s.turn (moveIssuer m))],
     wakeAll, saveAll, dropClaims, markStuck, advance t]

/-- The state after a move of a step. -/
def settleStep (m : Move) (t : Tick) (s : State) : State := applyAll (afterMove m t s) s

/-- The state in which a step makes its move: agenda and ticks taken from. -/
def moveState (s : State) : State := applyAll [.agenda (takeMove s).2, .ticks (takeTick s (takeMove s).1).2, .cur none] s

/-! ## A word placed to be issued next (log entry 42) -/

/-- The address, virtual and physical, of the placed word. -/
def placedAt : Nat := 0x10000

/-- The translation of its page: readable, writable, executable, mapped to the page of the same address. -/
def placedTlb : TlbE :=
  { asid := 0, base := placedAt / 65536, log2 := 16, pte := BitVec.ofNat 64 (placedAt + 0x7B), root := 0, reps := [], count := 0 }

/-- A word that only the matrix stream issues, and one that only a copy group issues. -/
def streamWord (w : Nat) : Bool := bit w 31 && decide (0x18 ≤ bits w 28 22) && decide (bits w 28 22 ≤ 0x2C)
def copyWord (w : Nat) : Bool := bit w 31 && decide (0x34 ≤ bits w 28 22) && decide (bits w 28 22 ≤ 0x36)

/-- The group that issues the placed word, all lanes at its address. -/
def placedGroup (uid blk : Nat) (vec : Bool) : Group :=
  let pc : DWord := BitVec.ofNat 64 placedAt
  { uid := uid, blk := blk, vector := vec, grans := 7, live := BitVec.allOnes 32
    sched := { pc := pcsAt (BitVec.allOnes 32) pc, released := some (pc, BitVec.allOnes 32), passed := BitVec.allOnes 32 }
    tr := { privMode := true } }

/-- A package that is ready, a launch of the privileged queue 0 with one block of one group, and a stream where the
word needs one, placed as the front-end would leave them; the word in memory and its page in the TLB; its issue
next. -/
def placeWord (s : State) (w : Nat) : State :=
  let n := s.nextId
  let pc : DWord := BitVec.ofNat 64 placedAt
  let strm := streamWord w
  let blk : Block :=
    { launch := n, num := 0, blkid := 0, core := 0, part := 0, spBase := 0, spSize := 0, winN := 0, tctx := 0
      since := s.clk.cyc, spawned := false, mat := some {} }
  let bytes := bytesOfWord (w % 2 ^ 32) ++ bytesOfWord (w / 2 ^ 32 % 2 ^ 32)
  let cores := s.cores.map (fun e => (e.1, { e.2 with icache := mdel e.2.icache (lineOf placedAt) }))
  let core := mget {} cores 0
  let q := getQueue s 0
  { s with
    boot := { s.boot with phase := .ready }
    mail := { s.mail with
      queues := mput s.mail.queues 0 { q with ctl := (q.ctl ||| 9) &&& ~~~0x40 }
      launches := mput s.mail.launches n { queue := 0, seq := 0, addr := 0, pkt := [], priv := true, next := 1 } }
    blocks := mput s.blocks (n + 1) blk
    groups := mput s.groups 0 (placedGroup (n + 2) (n + 1) (!copyWord w))
    streams := (if strm then mput s.streams 0 { blk := n + 1, pc := pc } else mdel s.streams 0)
    cores := mput cores 0 { core with tlb := placedTlb :: core.tlb }
    mem := writeCells s.mem (cellsAt placedAt bytes)
    coh := { s.coh with
      poison := mdel s.coh.poison (lineOf placedAt)
      stale := mdel (mdel s.coh.stale placedAt) (placedAt + 4) }
    nextId := n + 3
    cur := none
    agenda := [.issue (if strm then .stream 0 else .group 0) pc (if strm then 0 else BitVec.allOnes 32)] }

end Sys2Proof.Machine
end

