-- ==== Sys2Proof/Machine/Step.lean ====
section
/-! DEFINITION. One step of the machine, and the state whose next step issues a given word. -/

namespace Sys2Proof.Machine

/-- One step: a move of the agenda, or of the machine's own choosing, and what follows it. -/
def step (s : State) : Host.Outcome State Fault Refusal :=
  match act (takeMove s).1 (moveState s) with
  | .next t => .next (settleStep (takeMove s).1 (takeTick s (takeMove s).1).1 t)
  | .fault f => .fault f
  | .refused r => .refused r

/-- The state with an instruction word placed where the next step issues it (log entry 42). -/
def State.withFetchWord (s : State) (_nbits w : Nat) : State := placeWord s w

end Sys2Proof.Machine
end

