-- ==== Sys2Proof/Safety.lean ====
section
/-! DEFINITION. The terms that statements about the machine are made in: what every step keeps, when an instruction word
passes the checks that stand before its own, and what a completed word leaves changed and unchanged. -/

namespace Sys2Proof.Machine

/-! ## What every step keeps -/

/-- What is fused at manufacture (R14 to R16): PROF, ERRWIN and the fused fields of CAP. -/
def sameFuses (i j : Ident) : Prop :=
  i.prof = j.prof ∧ i.errwin = j.errwin ∧ i.cap &&& 0xFFFFFF = j.cap &&& 0xFFFFFF

/-- Memory and scratchpads in their canonical form; every place named once; the fuses as manufactured. -/
structure State.Inv (s : State) : Prop where
  mem      : Memory.wf s.mem = true
  spad     : Memory.wf s.spad = true
  cores    : sortedKeys s.cores = true
  clusters : sortedKeys s.clusters = true
  parts    : sortedKeys s.parts = true
  groups   : sortedKeys s.groups = true
  streams  : sortedKeys s.streams = true
  blocks   : sortedKeys s.blocks = true
  bars     : sortedKeys s.bars = true
  fuses    : sameFuses s.idn State.reset.idn

/-! ## An instruction word that passes the checks before its own (R51) -/

/-- The issuer of a word as its meaning sees it: the agent that `cur` names. -/
def ctxHere (i : Instr) (s : State) : Option Ctx :=
  match s.cur with
  | none => none
  | some iss => ctxOf i iss s

/-- A word is legal, its role and profile have it, no mark rule is broken, and no card of it has to wait (R51,
R106, R397). -/
def passes (i : Instr) (prof : Ctx → State → Bool) (s : State) (c : Ctx) : Bool :=
  !illegal c s && (isHint i || roleOk c) && (isHint i || !prof c s) && (markBroken c).isNone &&
  ((usplit c s).isNone || !mustStall s (coreSrc c.core c.part 0) 3 c.frank)

/-- A word issues: `c` is its issuer, and it passes. -/
def Issues (i : Instr) (prof : Ctx → State → Bool) (s : State) (c : Ctx) : Prop :=
  ctxHere i s = some c ∧ passes i prof s c = true

/-- A trap of the word would be taken now: its TRAP card need not stall (R397), and every earlier result has landed (R371). -/
def trapRoom (s : State) (c : Ctx) : Bool :=
  (c.strm || !mustStall s (coreSrc c.core c.part 0) 2 c.frank) && (trapWaits c.u).isNone

/-! ## What a completed word leaves -/

/-- The parts of the package that a word may change besides its agent. -/
inductive Comp
  | mem | spad | idn | boot | clk | cores | clusters | blocks | mail | faults | rounds | trace | bars | coh | sets | hostVal
  deriving DecidableEq, Repr

/-- A part is the same in two states. -/
def sameComp (s t : State) : Comp → Prop
  | .mem => t.mem = s.mem
  | .spad => t.spad = s.spad
  | .idn => t.idn = s.idn
  | .boot => t.boot = s.boot
  | .clk => t.clk = s.clk
  | .cores => t.cores = s.cores
  | .clusters => t.clusters = s.clusters
  | .blocks => t.blocks = s.blocks
  | .mail => t.mail = s.mail
  | .faults => t.faults = s.faults
  | .rounds => t.rounds = s.rounds
  | .trace => t.trace = s.trace
  | .bars => t.bars = s.bars
  | .coh => t.coh = s.coh
  | .sets => t.ctrs.sets = s.ctrs.sets
  | .hostVal => t.hostVal = s.hostVal

/-- Two states agree in every part but those listed. -/
def Same (touched : List Comp) (s t : State) : Prop := ∀ x, x ∉ touched → sameComp s t x

/-- The parts that the USPLIT card of a word changes, if it has one (R106). -/
def cardParts (c : Ctx) (s : State) : List Comp := if (usplit c s).isSome then [.trace, .clusters] else []

/-- Every other group and stream is as before. -/
def SameAgents (c : Ctx) (s t : State) : Prop :=
  (∀ q, c.strm = true ∨ q ≠ c.key → mfind t.groups q = mfind s.groups q) ∧
  (∀ q, c.strm = false ∨ q ≠ c.key → mfind t.streams q = mfind s.streams q)

/-- What a word may change of its own agent besides registers and place. -/
inductive Own
  | live | tr | sq | armed | mons | floors | ovf | atomcfg | wstat | pend | arrived | rs
  | loop | ops | strap | stopped
  deriving DecidableEq, Repr

/-- A part of a group is the same; parts that only a stream has are. -/
def sameOwnG (g h : Group) : Own → Prop
  | .live => h.live = g.live ∧ h.ending = g.ending
  | .tr => h.tr = g.tr
  | .sq => h.sq = g.sq
  | .armed => h.armed = g.armed
  | .mons => h.mons = g.mons
  | .floors => h.floors = g.floors
  | .ovf => h.ovf = g.ovf
  | .atomcfg => h.atomcfg = g.atomcfg
  | .wstat => h.u.wstat = g.u.wstat
  | .pend => h.u.pend = g.u.pend
  | .arrived => h.u.arrived = g.u.arrived
  | .rs => ∀ l, mget [] h.sched.rs l = mget [] g.sched.rs l
  | _ => True

/-- A part of a stream is the same; parts that only a group has are. -/
def sameOwnS (g h : Stream) : Own → Prop
  | .wstat => h.u.wstat = g.u.wstat
  | .pend => h.u.pend = g.u.pend
  | .arrived => h.u.arrived = g.u.arrived
  | .rs => h.rs = g.rs
  | .ops => h.ops = g.ops
  | .strap => h.trap = g.trap
  | .stopped => h.stopped = g.stopped
  | _ => True

/-- The group of a word after it: its registers as `regs` relates them, its lanes at their targets, the rest kept but
what is listed. -/
structure GroupAfter (c : Ctx) (own : List Own) (regs : Regs → Regs → Prop) (target : Nat → DWord) (g h : Group) : Prop where
  file   : regs g.u.regs h.u.regs
  wait   : h.u.wait = none
  pc     : ∀ l, l < 32 → mget 0 h.sched.pc l = if inMask c.lanes l then target l else mget 0 g.sched.pc l
  keep   : ∀ x, x ∉ own → sameOwnG g h x
  ident  : h.uid = g.uid ∧ h.blk = g.blk ∧ h.vector = g.vector ∧ h.grans = g.grans ∧ h.pbase = g.pbase

/-- The stream after a word of its own. `target` is none where it goes on in sequence, its loop taken into account. -/
structure StreamAfter (c : Ctx) (own : List Own) (regs : Regs → Regs → Prop) (target : Option DWord) (g h : Stream) : Prop where
  file   : regs g.u.regs h.u.regs
  wait   : h.u.wait = none
  pc     : h.pc = (match target with
    | some a => a
    | none => (streamNext g c.next).pc)
  keep   : ∀ x, x ∉ own → sameOwnS g h x
  loop   : Own.loop ∉ own → h.loop = (match target with
    | some _ => g.loop
    | none => (streamNext g c.next).loop)
  ident  : h.blk = g.blk

/-- A completed word: its agent after it, and all else kept but what is listed. `target` gives where each issuing lane
goes (lane 0 for the stream), none: past the word. -/
structure Completes (c : Ctx) (s t : State) (touched : List Comp) (own : List Own) (regs : Regs → Regs → Prop)
    (target : Option (Nat → DWord)) : Prop where
  world  : Same (cardParts c s ++ touched) s t
  agents : SameAgents c s t
  group  : c.strm = false → ∃ g h, mfind s.groups c.key = some g ∧ mfind t.groups c.key = some h ∧
    GroupAfter c own regs (target.getD (fun _ => c.next)) g h
  stream : c.strm = true → ∃ g h, mfind s.streams c.key = some g ∧ mfind t.streams c.key = some h ∧
    StreamAfter c own regs (target.map (fun f => f 0)) g h

/-- A word that writes no register. -/
def RegsKept (r r' : Regs) : Prop := r' = r

/-! ## Register results -/

/-- Half h of a result. -/
def halfOf (v h : Nat) : Word := BitVec.ofNat 32 (v / 2 ^ (32 * h))

/-- The half of a result that row n of the v file holds, if the destination covers it. -/
def vHalf (t : Ty) (d : Dst) (n : Nat) : Option Nat :=
  match d with
  | .v k => if n = k.val then some 0 else if tyIs64 t = true ∧ n = k.val + 1 then some 1 else none
  | .q _ => none

/-- The same for the q file. -/
def qHalf (t : Ty) (d : Dst) (n : Nat) : Option Nat :=
  match d with
  | .q k => if n = k.val then some 0 else if tyIs64 t = true ∧ n = k.val + 1 then some 1 else none
  | .v _ => none

/-- A lane result (R36, R133): in each lane of the mask the destination holds the lane's value and, where the form is
one that enters y0, the y registers have shifted; every other element of every register is as before. -/
structure LaneWritten (t : Ty) (d : Dst) (y : Bool) (m : Word) (f : Nat → Nat) (r r' : Regs) : Prop where
  v : ∀ n l, l < 32 → getV r'.l n l =
    match vHalf t d n with
    | some h => if inMask m l then halfOf (f l) h else getV r.l n l
    | none => getV r.l n l
  q : ∀ n l, l < 32 → getQ r'.l n l =
    match qHalf t d n with
    | some h => if inMask m l then halfOf (f l) h else getQ r.l n l
    | none => getQ r.l n l
  y : ∀ j l, j < 4 → l < 32 → getY r'.l j l =
    if y = true ∧ inMask m l = true then
      (if j = 0 then BitVec.ofNat 64 (if tyIs64 t then f l else f l % 2 ^ 32) else getY r.l (j - 1) l)
    else getY r.l j l
  p : ∀ n, getP r'.l n = getP r.l n
  u : r'.u = r.u

/-- A predicate result: the lanes of the mask hold their tests, the others and every other register are as before; p7
stays 1 (R38). -/
structure PredWritten (n : Nat) (m : Word) (f : Nat → Bool) (r r' : Regs) : Prop where
  p : ∀ l, l < 32 → n ≠ 7 → inMask (getP r'.l n) l = if inMask m l then f l else inMask (getP r.l n) l
  others : ∀ k, k ≠ n ∨ n = 7 → getP r'.l k = getP r.l k
  v : ∀ k l, getV r'.l k l = getV r.l k l
  q : ∀ k l, getQ r'.l k l = getQ r.l k l
  y : ∀ k l, getY r'.l k l = getY r.l k l
  u : r'.u = r.u

/-- The uniform registers other than k. -/
def sameButK (u u' : UFile) : Prop :=
  u'.kp = u.kp ∧ u'.lc = u.lc ∧ u'.lm = u.lm ∧ u'.kc = u.kc ∧ u'.kst = u.kst ∧ u'.kf = u.kf

/-- A uniform result: kD holds the value, all else is as before. -/
structure KWritten (d : UFld) (v : Nat) (r r' : Regs) : Prop where
  k : ∀ n, getK r'.u n =
    match d with
    | .k m => if n = m.val then BitVec.ofNat 64 v else getK r.u n
    | _ => getK r.u n
  rest : sameButK r.u r'.u
  l : r'.l = r.l

/-! ## Traps -/

/-- A trap of a group as R371 and R373 give it: the bank of its level holds cause, address of the word, TRAPADDR and
TRAPLANE, the lanes of the trapping path go to the handler, their addresses are held, every other lane keeps its address;
registers change only by results that land. -/
structure Trapped (c : Ctx) (s t : State) (cause : Nat) (addr : DWord) (lane : Nat) (g h : Group) : Prop where
  bank   : (if (trapTo g s.idn.stvec cause addr).sys then h.tr.bankS else h.tr.bankU) =
    { cause := trapCauseWord false (trapTo g s.idn.stvec cause addr).retry (g.tr.privMode || g.tr.bankS.active)
        (trapTo g s.idn.stvec cause addr).cause
      pc := c.pc, addr := (trapTo g s.idn.stvec cause addr).addr, lane := trapLaneWord c.core c.part c.slot lane
      scr := (if (trapTo g s.idn.stvec cause addr).sys then g.tr.bankS else g.tr.bankU).scr, active := true }
  other  : (if (trapTo g s.idn.stvec cause addr).sys then h.tr.bankU = g.tr.bankU else h.tr.bankS = g.tr.bankS)
  vec    : h.tr.utvec = g.tr.utvec ∧ h.tr.privMode = g.tr.privMode
  pc     : ∀ l, l < 32 → mget 0 h.sched.pc l =
    if inMask c.lanes l then (trapTo g s.idn.stvec cause addr).vec else mget 0 g.sched.pc l
  frame  : ∃ f, h.tr.frames = f :: g.tr.frames ∧ f.lanes = c.lanes ∧ f.trap = c.lanes ∧ f.pc = c.pc ∧ f.next = c.next ∧
    (∀ l, l < 32 → inMask c.lanes l = true → mget 0 f.held l = mget 0 g.sched.pc l) ∧
    f.ages = g.sched.age.filter (fun e => inMask c.lanes e.1)
  regs   : g.u.outs = [] → h.u.regs = g.u.regs
  live   : h.live = g.live ∧ h.sq = g.sq.filter notHold ∧ h.floors = g.floors ∧ h.mons = g.mons
  world  : Same [.trace, .clusters] s t
  others : ∀ q, q ≠ c.key → mfind t.groups q = mfind s.groups q
  strms  : t.streams = s.streams

end Sys2Proof.Machine
end

