-- ==== Sys2Proof/Certificates/Slice0/Obligations.lean ====
section
/-! DEFINITION. The statements made of the machine, for its provers, with the tables of results they are made in. -/

namespace Sys2Proof.Machine

/-! ## Lane words -/

/-- What a lane word leaves: a result at a type in a destination, for the lanes whose guard holds. -/
structure LaneResult where
  ty  : Ty
  d   : Dst
  act : Word
  val : Nat → Nat

/-- A lane form's result at a type. -/
def laneOut (c : Ctx) (w : LaneW) (ty : Ty) (val : Nat → Nat) : Option LaneResult :=
  some { ty := ty, d := w.d, act := c.active w.g w.gn, val := val }

/-- The results of the integer lane forms (R140, R142, R143, R145, R146). -/
def intResult (c : Ctx) (i : Instr) : Option LaneResult :=
  match i with
  | .add w => laneOut c w w.ty (fun l => intRes w (c.intA w l + c.intB w l))
  | .sub w => laneOut c w w.ty (fun l => intRes w (c.intA w l - c.intB w l))
  | .mul w => laneOut c w w.ty (fun l => intRes w (c.intA w l * c.intB w l))
  | .mulhi w => laneOut c w w.ty (fun l => intPat w.ty ((c.intA w l * c.intB w l).fdiv (2 ^ tyWidth w.ty)))
  | .mad w => laneOut c w w.ty (fun l => intRes w (c.intA w l * c.intB w l + c.intC w l))
  | .madhi w => laneOut c w w.ty (fun l => intPat w.ty ((c.intA w l * c.intB w l).fdiv (2 ^ tyWidth w.ty) + c.intC w l))
  | .min w => laneOut c w w.ty (fun l => intRes w (min (c.intA w l) (c.intB w l)))
  | .max w => laneOut c w w.ty (fun l => intRes w (max (c.intA w l) (c.intB w l)))
  | .and w => laneOut c w w.ty (fun l => patRes w.ty (c.patA w l &&& c.patB w l))
  | .or w => laneOut c w w.ty (fun l => patRes w.ty (c.patA w l ||| c.patB w l))
  | .xor w => laneOut c w w.ty (fun l => patRes w.ty (c.patA w l ^^^ c.patB w l))
  | .andn w => laneOut c w w.ty (fun l => patRes w.ty (c.patA w l &&& notPat (tyWidth w.ty) (c.patB w l)))
  | .shl w => laneOut c w w.ty (fun l => patRes w.ty (shlPat (tyWidth w.ty) (c.patA w l) (c.amtB w l)))
  | .shr w => laneOut c w w.ty (fun l => patRes w.ty (shrPat (tyWidth w.ty) (c.patA w l) (c.amtB w l)))
  | .sar w => laneOut c w w.ty (fun l => patRes w.ty (sarPat (tyWidth w.ty) (c.patA w l) (c.amtB w l)))
  | .rot w => laneOut c w w.ty (fun l => patRes w.ty (rotPat (tyWidth w.ty) (c.patA w l) (c.amtB w l)))
  | .clz w => laneOut c w w.ty (fun l => tyWidth w.ty - bitLen (c.patA w l))
  | .popc w => laneOut c w w.ty (fun l => onesOf (tyWidth w.ty) (c.patA w l))
  | .brev w => laneOut c w w.ty (fun l => patRes w.ty (revPat (tyWidth w.ty) (c.patA w l)))
  | .bfx w => laneOut c w w.ty (fun l => intPat w.ty (bfxPat w.ty (c.patA w l) (c.amtB w l) (c.amtC w l)))
  | .bfi w => laneOut c w w.ty (fun l =>
      patRes w.ty (bfiPat (tyWidth w.ty) (c.src 2 w.ty (dstSrc w.d) l) (c.patA w l) (c.amtB w l) (c.amtC w l)))
  | .lea w => laneOut c w w.ty (fun l =>
      let b := c.src 1 .xf w.b l
      patOf ((c.patA w l : Int) + (if bit w.c.toNat 6 then (b : Int) else sextN b 32) * 2 ^ bits w.c.toNat 5 0) (tyWidth w.ty))
  | .sel w => laneOut c w w.ty (fun l => movePat w.ty (if c.pred 2 w.c.toNat l then c.patA w l else c.patB w l))
  | .mov w => laneOut c w w.ty (fun l => movePat w.ty (c.patA w l))
  | .movk w => some { ty := w.ty, d := w.d, act := c.active w.g w.gn, val := fun _ => c.kreg 0 w.a.toNat % 2 ^ tyWidth w.ty }
  | _ => none

/-- ADDC and SUBB complete: result and predicate pC, both in the lanes whose guard holds (R140). -/
def carryResult (c : Ctx) (i : Instr) : Option (LaneW × (Nat → Nat × Bool)) :=
  match i with
  | .addc w => some (w, fun l =>
      let n := c.patA w l % 2 ^ tyWidth w.ty + c.patB w l % 2 ^ tyWidth w.ty + (c.pred 2 w.c.toNat l).toNat
      (n % 2 ^ tyWidth w.ty, decide (2 ^ tyWidth w.ty ≤ n)))
  | .subb w => some (w, fun l =>
      let n : Int := (c.patA w l % 2 ^ tyWidth w.ty : Nat) - (c.patB w l % 2 ^ tyWidth w.ty : Nat) - ((c.pred 2 w.c.toNat l).toNat : Int)
      (patOf n (tyWidth w.ty), decide (n < 0)))
  | _ => none

/-- The division forms: quotient toward zero, remainder with the sign of the dividend (R141). -/
def divResult (i : Instr) : Option (LaneW × (Int → Int → Int)) :=
  match i with
  | .div w => some (w, fun a b => a.tdiv b)
  | .rem w => some (w, fun a b => a - b * a.tdiv b)
  | _ => none

/-- The tests of the forms that set a predicate (R144, R145, R149). -/
def predResult (c : Ctx) (i : Instr) : Option (Nat × Word × (Nat → Bool)) :=
  match i with
  | .cmp sub w => some (w.d.toNat, c.active w.g w.gn, fun l => cmpCond w.ty sub.toNat (c.src 0 w.ty w.a l) (c.src 1 w.ty w.b l))
  | .fcmp sub w => some (w.d.toNat, c.active w.g w.gn, fun l =>
      fcmpCond sub.toNat (absNegF (qAbsA w.q) (qNegA w.q) (fVal w.ty (c.src 0 w.ty w.a l)))
        (absNegF (qAbsB w.q) (qNegB w.q) (fVal w.ty (c.src 1 w.ty w.b l))))
  | .pand w => some (w.d.toNat, c.active w.g w.gn, fun l => c.pred 0 w.a.toNat l && c.pred 1 w.b.toNat l)
  | .por w => some (w.d.toNat, c.active w.g w.gn, fun l => c.pred 0 w.a.toNat l || c.pred 1 w.b.toNat l)
  | .pxor w => some (w.d.toNat, c.active w.g w.gn, fun l => xor (c.pred 0 w.a.toNat l) (c.pred 1 w.b.toNat l))
  | .pnot w => some (w.d.toNat, c.active w.g w.gn, fun l => !c.pred 0 w.a.toNat l)
  | .voteAny w => some (w.d.toNat, c.active w.g w.gn, fun _ =>
      decide (∃ l ∈ lanesOf (c.active w.g w.gn), c.src 0 .n32 w.a l ≠ 0))
  | .voteAll w => some (w.d.toNat, c.active w.g w.gn, fun _ =>
      decide (∀ l ∈ lanesOf (c.active w.g w.gn), c.src 0 .n32 w.a l ≠ 0))
  | _ => none

/-- The results of the floating lane forms: exact, then SCALE, one rounding to nearest even, CLAMP, for each element (R32,
R147, R148, R150, R151). -/
def fltResult (c : Ctx) (i : Instr) : Option LaneResult :=
  let out (w : LaneW) (f : Nat → Nat → FVal) : Option LaneResult :=
    laneOut c w w.ty (fun l => eachElem w.ty (fun j => fltOut (fmtOf w.ty) .rne w.q (f l j)))
  match i with
  | .fadd w => out w (fun l j => (c.fltA w l j).add (c.fltB w l j))
  | .fsub w => out w (fun l j => (c.fltA w l j).add (c.fltB w l j).neg)
  | .fmul w => out w (fun l j => (c.fltA w l j).mul (c.fltB w l j))
  | .ffma w => out w (fun l j => ((c.fltA w l j).mul (c.fltB w l j)).add (c.fltC w l j))
  | .fmin w => out w (fun l j => FVal.pick false (c.fltA w l j) (c.fltB w l j))
  | .fmax w => out w (fun l j => FVal.pick true (c.fltA w l j) (c.fltB w l j))
  | .fdiv w => out w (fun l j => (c.fltA w l j).div (c.fltB w l j))
  | .frcp w => out w (fun l j => (FVal.fin false 1 0).div (c.fltA w l j))
  | .frsq w => out w (fun l j => (c.fltA w l j).rsqrt)
  | .fsqrt w => out w (fun l j => (c.fltA w l j).sqrt)
  | .fex2 w => out w (fun l j => (c.fltA w l j).ex2)
  | .flg2 w => out w (fun l j => (c.fltA w l j).lg2)
  | .fsin w => out w (fun l j => (c.fltA w l j).sinPi)
  | .fcos w => out w (fun l j => (c.fltA w l j).cosPi)
  | .hfma2 w => out w (fun l j => ((c.fltA w l j).mul (c.fltB w l j)).add (c.fltC w l j))
  | .dot2 w => laneOut c w .f32 (fun l =>
      fltOut fmt32 .rne w.q ((((c.fltA w l 0).mul (c.fltB w l 0)).add ((c.fltA w l 1).mul (c.fltB w l 1))).add
        (fVal .f32 (c.src 2 .f32 (srcOf w.c.toNat) l))))
  | _ => none

/-- The results of the conversions that change no format register (R86 to R91, R422). -/
def cvtResult (c : Ctx) (s : State) (i : Instr) : Option LaneResult :=
  match i with
  | .cvtFf w => laneOut c w w.ty (fun l => fltOut (fmtOf w.ty) (c.cvtMode w l) w.q (c.cvtF w l))
  | .cvtFi w => laneOut c w w.ty (fun l =>
      (if compatBit s c.l 0 then cvtToIntOld else cvtToInt) w.ty (c.cvtMode w l) (c.cvtF w l))
  | .cvtIf w => laneOut c w w.ty (fun l => fltOut (fmtOf w.ty) (c.cvtMode w l) w.q (FVal.ofInt (c.cvtI w l)))
  | .cvtIi w => laneOut c w w.ty (fun l => intRes w (c.cvtI w l))
  | .cvtxUnpack w => laneOut c w .n32 (fun l =>
      let f := c.kfFmt w
      let j := c.src 1 .n32 w.b l % (32 / f.cont)
      roundF fmt32 .rne ((xfValue (bits (c.src 0 .xf w.a l) (f.cont * j + f.cont - 1) (f.cont * j)) f).scale (qScale w.q)))
  | .pack2 w => laneOut c w .n32 (fun l =>
      fltOut (fmtOf w.ty) .rne w.q (c.f32A w l) +
        2 ^ 16 * fltOut (fmtOf w.ty) .rne w.q (absNegF (qAbsB w.q) (qNegB w.q) (fVal .f32 (c.src 1 .f32 w.b l))))
  | .fclass w => laneOut c w .n32 (fun l =>
      2 ^ (if w.ty == .xf then xfClass (c.kfFmt w) (c.src 0 w.ty w.a l % 2 ^ (c.kfFmt w).cont)
        else classOf (fmtOf w.ty) (c.src 0 w.ty w.a l)))
  | .bscl w => laneOut c w .n32 (fun l =>
      bsclVal (c.kfFmt w) (Config.freeValue (c.fresh * 32 + l)).toNat (fVal .f32 (c.src 0 .f32 w.a l)))
  | _ => none

/-- The results of the floating forms and the conversions. -/
def floatResult (c : Ctx) (s : State) (i : Instr) : Option LaneResult :=
  match fltResult c i with
  | some r => some r
  | none => cvtResult c s i

/-- The codes that CVTX.PACK and QBLK write (R88, R92). -/
def xfResult (c : Ctx) (i : Instr) : Option (LaneW × (Nat → Nat)) :=
  match i with
  | .cvtxPack w => some (w, fun l =>
      let f := c.kfFmt w
      Nat.lor (c.src 1 .xf w.b l * 2 ^ f.cont % 2 ^ 32) (xfEncode ((c.f32A w l).scale (qScale w.q)) f (srDraw f.seed l 0)))
  | .qblk w => some (w, fun l =>
      let f := c.kfFmt w
      xfEncode (qblkVal (scaleVal f.e8m0 (c.src 1 .xf w.b l)) (c.f32A w l) (qScale w.q)) f (srDraw f.seed l 0))
  | _ => none

/-- A lane word with default modifier fields at TYPE. -/
def plainLane (d : Dst) (a b : Src) (ty : Ty) : LaneW :=
  { s := false, x := false, d := d, a := a, b := b, c := 0, g := 7, gn := false, ty := ty, q := 0 }

/-- Where a branch that needs no stack takes the lanes: those it moves to their targets, the others past the word; none for
a uniform branch whose condition fails (R109, R110, R114). -/
def branchResult (c : Ctx) (i : Instr) : Option (Option (Nat → DWord)) :=
  match i with
  | .bra w => some (some (fun l => if inMask (c.active w.g w.gn) l then c.pc + BitVec.ofInt 64 (4 * sextN w.disp.toNat 19) else c.next))
  | .brx w =>
    if ∀ l ∈ lanesOf (c.active w.g w.gn), c.src 0 .n64 w.a l % 4 = 0 then
      some (some (fun l => if inMask (c.active w.g w.gn) l then BitVec.ofNat 64 (c.src 0 .n64 w.a l) else c.next))
    else none
  | .kbra w =>
    if kbraCond (c.kpred 0) (kNum w.a) then
      some (some (fun l => if c.strm || inMask c.lanes l then c.pc + BitVec.ofInt 64 (4 * sextN (c.ubI w) 64) else c.next))
    else some none
  | _ => none

/-- The lanes a call or return moves, and the target of a call. -/
def callResult (c : Ctx) (i : Instr) : Option (Word × (Nat → DWord)) :=
  match i with
  | .call w => some (c.active w.g w.gn, fun _ => c.pc + BitVec.ofInt 64 (4 * sextN w.disp.toNat 19))
  | .callx w =>
    if ∀ l ∈ lanesOf (c.active w.g w.gn), c.src 0 .n64 w.a l % 4 = 0 then
      some (c.active w.g w.gn, fun l => BitVec.ofNat 64 (c.src 0 .n64 w.a l))
    else none
  | .kcall w =>
    if kbraCond (c.kpred 0) (kNum w.a) then
      some (if c.strm then 1 else c.lanes, fun _ => c.pc + BitVec.ofInt 64 (4 * sextN (c.ubI w) 64))
    else none
  | _ => none

/-- The lanes a return moves. -/
def returnLanes (c : Ctx) (i : Instr) : Option Word :=
  match i with
  | .ret w => some (c.active w.g w.gn)
  | .kret _ => some (if c.strm then 1 else c.lanes)
  | _ => none

/-- A form that does nothing but let its agent go on, in the states where it does. -/
def quiet (c : Ctx) (s : State) (i : Instr) : Bool :=
  match i with
  | .nop _ | .hint _ _ | .rejoin _ => true
  | .brk w => c.active w.g w.gn == 0
  | .yield w => c.active w.g w.gn == 0
  | .kcall w => !kbraCond (c.kpred 0) (kNum w.a)
  | .nap w => decide (c.ua w ≤ c.cyc)
  | .fence w => fenceScope (fs w 3 0) < 3 ||
      (if fs w 5 4 = 1 then (atomHeld c.sq).isNone else drained s c.sq (fenceScope (fs w 3 0)))
  | _ => false

/-- The forms whose own effect is a trap, with cause, TRAPADDR and lane (R110, R382). -/
def trapForm (c : Ctx) (i : Instr) : Option (Nat × DWord × Nat) :=
  match i with
  | .trap w => some (16, BitVec.ofNat 64 (c.ubI w), lowest c.live)
  | .sysc w => some (17, BitVec.ofNat 64 (c.ubI w), lowest c.live)
  | .brk w =>
    if c.active w.g w.gn = 0 then none
    else some (14, BitVec.ofNat 64 (c.src 1 .n32 w.b (lowest (c.active w.g w.gn))), lowest (c.active w.g w.gn))
  | _ => none

/-- What a shuffle's lane receives from lane j (R108, R117): the value of a lane of the path, the last written value of another
live lane, 0 without validity from an exited or absent one; under erratum 0x0014 an absent lane gives the reader's own. -/
def shflValue (c : Ctx) (s : State) (w : LaneW) (l : Nat) (j : Int) : Nat × Bool :=
  if j < 0 ∨ 31 < j then (if compatBit s c.l 1 then (c.src 0 w.ty w.a l, true) else (0, false))
  else if inMask (c.active w.g w.gn) j.toNat then (c.src 0 w.ty w.a j.toNat, true)
  else if inMask c.live j.toNat then (c.settled.src 0 w.ty w.a j.toNat, true)
  else (0, false)

/-- The source lane of each shuffle (R117). -/
def shflFrom (i : Instr) : Option (LaneW × (Nat → Nat → Int)) :=
  match i with
  | .shflIdx w => some (w, fun _ b => b)
  | .shflUp w => some (w, fun l b => (l : Int) - b)
  | .shflDn w => some (w, fun l b => (l : Int) + b)
  | .shflXor w => some (w, fun l b => ((l ^^^ b : Nat) : Int))
  | _ => none

/-- The combining tree of R84 by its definition: position l after the levels of distance 1, 2, 4, 8 and 16. -/
def treeAt (f : Nat → Nat → Nat) (x : Nat → Nat) : Nat → Nat → Nat
  | 0, l => x l
  | n + 1, l => if l < 2 ^ n then treeAt f x n l else f (treeAt f x n (l - 2 ^ n)) (treeAt f x n l)

/-- The operands of REDUX and SCAN: the participating lanes' own, the identity elsewhere (R107, R118). -/
def treeIn (c : Ctx) (w : LaneW) (op l : Nat) : Nat :=
  if inMask (c.active w.g w.gn) l then c.src 0 w.ty w.a l else reduxId op w.ty

/-- The results of the other collectives and of the forms that read addresses or tiles into lanes. -/
def collResult (c : Ctx) (i : Instr) : Option LaneResult :=
  match i with
  | .voteBal w => laneOut c w .n32 (fun _ =>
      (maskOf (fun l => inMask (c.active w.g w.gn) l && c.src 0 .n32 w.a l != 0)).toNat)
  | .redux sub w => laneOut c w w.ty (fun _ =>
      reduxOut w.ty (treeAt (reduxOp (sub.toNat % 8) w.ty (qSat w.q)) (treeIn c w (sub.toNat % 8)) 5 31))
  | .scan sub w => laneOut c w w.ty (fun l =>
      reduxOut w.ty
        (if sub.toNat < 8 then treeAt (reduxOp (sub.toNat % 8) w.ty (qSat w.q)) (treeIn c w (sub.toNat % 8)) 5 l
         else if l = 0 then reduxId (sub.toNat % 8) w.ty
         else treeAt (reduxOp (sub.toNat % 8) w.ty (qSat w.q)) (treeIn c w (sub.toNat % 8)) 5 (l - 1)))
  | .match_ w => laneOut c w w.ty (fun l =>
      (maskOf (fun j => inMask (c.active w.g w.gn) j && c.src 0 w.ty w.a j == c.src 0 w.ty w.a l)).toNat)
  | .spt w => laneOut c w .n64 (fun l => spaceCode c.core (BitVec.ofNat 64 (c.src 0 .n64 w.a l)))
  | .spc w =>
    if ∀ l ∈ lanesOf (c.active w.g w.gn), (spcVal c.core (BitVec.ofNat 64 (c.src 0 .n64 w.a l))).isSome then
      laneOut c w .n64 (fun l => ((spcVal c.core (BitVec.ofNat 64 (c.src 0 .n64 w.a l))).getD 0).toNat)
    else none
  | .mtov w =>
    if ∀ l ∈ lanesOf (c.active w.g w.gn), c.src 0 .n32 w.a l < 16 ∧ (w.ty = .f64 → c.src 0 .n32 w.a l % 2 = 0) then
      laneOut c w w.ty (fun l => tileAt c.mat (c.src 0 .n32 w.a l) (w.ty == .f64) ((c.src 1 .n32 w.b l + l / 16) % 16) (l % 16))
    else none
  | _ => none

/-- What CNTRD reads of a counter (R414, R415): its value, or its OVF and event; in a cycle in which another group's cntcfg meets
the counter, those with which the cycle began (log entry 67). -/
def counterRead (c : Ctx) (s : State) (set n : Nat) (config : Bool) : DWord :=
  let x := getSet s set
  match mfind x.wrote n with
  | some w =>
    if w.cyc = s.clk.cyc ∧ w.who ≠ c.key then (if config then ctConfig w.ovf w.ev else w.val)
    else if config then ctConfig (ctOvf s set n x) (ctEvent x n) else ctVal x n
  | none => if config then ctConfig (mget false x.ovf n) (ctEvent x n) else ctVal x n

/-- The value kD receives from the uniform forms that have no other effect, in the states where they complete. -/
def uniResult (c : Ctx) (s : State) (i : Instr) : Option (UFld × Nat) :=
  match i with
  | .kadd w => some (w.d, c.ua w + c.ubI w)
  | .ksub w => some (w.d, c.ua w + (2 ^ 64 - c.ubI w % 2 ^ 64))
  | .kmul w => some (w.d, c.ua w * c.ubI w)
  | .kand w => some (w.d, c.ua w &&& c.ubI w)
  | .kor w => some (w.d, c.ua w ||| c.ubI w)
  | .kxor w => some (w.d, c.ua w ^^^ c.ubI w)
  | .kshl w => some (w.d, if 64 ≤ c.ubI w then 0 else c.ua w <<< c.ubI w)
  | .kshr w => some (w.d, if 64 ≤ c.ubI w then 0 else c.ua w >>> c.ubI w)
  | .kmin w => some (w.d, if sextN (c.ubI w) 64 < sextN (c.ua w) 64 then c.ubI w else c.ua w)
  | .kmax w => some (w.d, if sextN (c.ubI w) 64 < sextN (c.ua w) 64 then c.ua w else c.ubI w)
  | .ksel w => some (w.d, if c.kpred 2 (fs w 2 0) != (fs w 3 3 == 1) then c.ua w else c.ub w)
  | .kmov w => some (w.d, c.ua w)
  | .kmovi w => some (w.d, c.ubI w)
  | .kfmtGet w => some (w.d, (getKf c.u.regs.u ((immOf w.a).getD 0)).toNat)
  | .rdtime w => some (w.d, s.clk.time / 10 ^ 9 * 2 ^ 30 + s.clk.time % 10 ^ 9)
  | .rdcyc w => some (w.d, s.clk.cyc)
  | .mfs w =>
    if sregKnown (c.ub w) && !(sregPriv (c.ub w) && !c.sys) && !sregWaits c s (c.ub w) then
      some (w.d, (readSpecial s c.reader (c.ub w)).toNat)
    else none
  | .cntrd w =>
    if c.ua w < 32 ∧ (c.ub w = 2 ^ 64 - 1 ∨ c.ub w < 64 ∧ (c.sys = true ∨ c.ub w = c.frank % 64)) then
      some (w.d, (counterRead c s (if c.ub w = 2 ^ 64 - 1 then c.frank % 64 else c.ub w) (c.ua w % 16) (16 ≤ c.ua w)).toNat)
    else none
  | .wstat w => if c.ub w < c.blk.winN then some (w.d, winWord (getWin c.blk (c.ub w))) else none
  | .wstatRead w => some (w.d, c.u.wstat.toNat)
  | .barGen w => (barKeyOf c.core (c.ua w)).map (fun key => (w.d, (barWord (barAt s c.blkId key)).toNat))
  | .barWait w =>
    match barKeyOf c.core (c.ua w), partyOf s c.iss.agent with
    | some key, some x => if waitOver s x key then some (w.d, (barWord (barAt s c.blkId key)).toNat) else none
    | _, _ => none
  | .mbarWait w =>
    match partyOf s c.iss.agent with
    | some x => if c.ua w < 16 && waitOver s x (c.ua w) then some (w.d, (barWord (barAt s c.blkId (c.ua w))).toNat) else none
    | none => none
  | .ringWait w =>
    match ringAt s c.blkId (ringNum w) with
    | some r =>
      if w.b = .imm 65 then (if countDiff r.p r.a ≠ 0 then some (w.d, ringTag s c.blkId r) else none)
      else if countDiff r.pr r.f < r.ns then some (w.d, r.pr % r.ns) else none
    | none => none
  | .mrow w =>
    match mfind s.streams c.key with
    | some x => if c.strm && !x.ops.any isLoadOp then some (w.d, c.mat.rowprog.toNat) else none
    | none => none
  | .sstat w =>
    match mfind s.streams c.key with
    | some x => if c.strm && !x.ops.any isSdecOp then some (w.d, c.mat.sstat.toNat) else none
    | none => none
  | _ => none

/-- The uniform files other than the one named are as before, and every lane file is. -/
structure OnlyFile (kp lc kc kf : Bool) (r r' : Regs) : Prop where
  k   : ∀ n, getK r'.u n = getK r.u n
  kp  : kp = false → ∀ n, getKp r'.u n = getKp r.u n
  lc  : lc = false → ∀ n, getLc r'.u n = getLc r.u n ∧ getLm r'.u n = getLm r.u n
  kst : kc = false → ∀ n, getKst r'.u n = getKst r.u n
  kc  : kc = false → ∀ n, getKc r'.u n = getKc r.u n
  kf  : kf = false → ∀ n, getKf r'.u n = getKf r.u n
  l   : r'.l = r.l

/-- A completion register after what has happened in its cycle (R136, R137): what a kcset left and the additions, less the
subtractions, not below 0. -/
def kcLeft (x : KcNow) : DWord := BitVec.ofNat 64 ((x.base + x.adds) % 2 ^ 64 - x.subs)

/-- Its status word then: UNDER where the subtractions take it below 0. -/
def kcStatus (x : KcNow) : DWord := if (x.base + x.adds) % 2 ^ 64 < x.subs then x.st ||| 0x8000000000 else x.st

/-- Completion register n has come to what its cycle gives it, every other completion register is as before. -/
def KcAfter (n : Nat) (x : KcNow) (u u' : UFile) : Prop :=
  ∀ m, getKc u' m = (if m = n then kcLeft x else getKc u m) ∧ getKst u' m = if m = n then kcStatus x else getKst u m

/-- What has happened at a completion register at this CYC with a landing of n bytes more (R136, R137). -/
def kcDown (s : State) (k n : Nat) (u : UFile) : KcNow :=
  let x := kcNow s.clk.cyc u k
  { x with subs := x.subs + n }

/-- A value reduced by a size, 2^32 for 0 (R134). -/
def modSize (x size : Nat) : Nat := if size = 0 then x % 2 ^ 32 else x % size

/-- What the forms that write kp, lc, lm, kc, kf and status words leave in them. -/
def uniFiles (c : Ctx) (i : Instr) : Option (Regs → Regs → Prop) :=
  match i with
  | .kcmp w => some (fun r r' => OnlyFile true false false false r r' ∧ ∀ n, n < 7 →
      getKp r'.u n = if n = fs w 6 4 then
          (match fs w 9 8 with
           | 0 => kcmpCond (fs w 3 0) (c.ua w) (c.ub w)
           | 1 => c.kpred 2 n && kcmpCond (fs w 3 0) (c.ua w) (c.ub w)
           | 2 => c.kpred 2 n || kcmpCond (fs w 3 0) (c.ua w) (c.ub w)
           | _ => xor (c.kpred 2 n) (kcmpCond (fs w 3 0) (c.ua w) (c.ub w)))
        else getKp r.u n)
  | .lcset w =>
    match w.d with
    | .lc m => some (fun r r' => OnlyFile false true false false r r' ∧ ∀ n,
        (getLm r'.u n).toNat = (if n = m.val ∧ fs w 31 31 = 1 then fs w 30 0 else (getLm r.u n).toNat) ∧
        (getLc r'.u n).toNat = if n = m.val then modSize (c.ua w) (getLm r'.u n).toNat else (getLc r.u n).toNat)
    | .lm m => some (fun r r' => OnlyFile false true false false r r' ∧ ∀ n,
        (getLm r'.u n).toNat = (if n = m.val then c.ua w % 2 ^ 32 else (getLm r.u n).toNat) ∧
        (getLc r'.u n).toNat = if n = m.val then modSize (getLc r.u n).toNat (c.ua w % 2 ^ 32) else (getLc r.u n).toNat)
    | _ => none
  | .lcstep w =>
    match w.d with
    | .lc m => some (fun r r' => OnlyFile false true false false r r' ∧ ∀ n,
        getLm r'.u n = getLm r.u n ∧
        ((getLc r'.u n).toNat : Int) = if n = m.val then
            ((c.uf 0 w.d : Int) + sextN (c.ub w) 64) % (if getLm r.u n = 0 then 2 ^ 32 else ((getLm r.u n).toNat : Int))
          else ((getLc r.u n).toNat : Int))
    | _ => none
  | .kcset w =>
    match w.d with
    | .kc m => some (fun r r' => OnlyFile false false true false r r' ∧
        KcAfter m.val { kcNow c.cyc r.u m.val with base := c.ubI w } r.u r'.u)
    | _ => none
  | .kcwait w =>
    match w.a, w.d with
    | .kc kc, .k d =>
      if getKc c.u.regs.u kc = 0 then
        some (fun r r' => r'.l = r.l ∧ (∀ n, getK r'.u n = if n = d.val then getKst r.u kc else getK r.u n) ∧
          (∀ n, getKst r'.u n = if n = kc.val then 0 else getKst r.u n) ∧
          r'.u.kp = r.u.kp ∧ r'.u.lc = r.u.lc ∧ r'.u.lm = r.u.lm ∧ r'.u.kc = r.u.kc ∧ r'.u.kf = r.u.kf)
      else none
    | _, _ => none
  | .kfmtSet w =>
    if kfValid (BitVec.ofNat 64 (c.ua w)) then
      some (fun r r' => OnlyFile false false false true r r' ∧ ∀ n,
        getKf r'.u n = if n = fs w 11 9 then BitVec.ofNat 64 (c.ua w) else getKf r.u n)
    else none
  | .kfmtSetPreset w =>
    if kfValid (setFld (getKf c.u.regs.u (fs w 11 9)) 31 0 (presetOf (fs w 6 0))) then
      some (fun r r' => OnlyFile false false false true r r' ∧ ∀ n,
        getKf r'.u n = if n = fs w 11 9 then setFld (getKf c.u.regs.u n) 31 0 (presetOf (fs w 6 0)) else getKf r.u n)
    else none
  | .kfmtSetSeed w =>
    if kfValid (setFld (getKf c.u.regs.u (fs w 11 9)) 63 32 (c.ua w)) then
      some (fun r r' => OnlyFile false false false true r r' ∧ ∀ n,
        getKf r'.u n = if n = fs w 11 9 then setFld (getKf c.u.regs.u n) 63 32 (c.ua w) else getKf r.u n)
    else none
  | _ => none

/-- The state that a word's effect meets: after its USPLIT card, if it has one (R106). -/
def carded (c : Ctx) (s : State) : State := applyAll (splitCard c (usplit c s) s) s

/-- A barrier when a party has arrived in a cycle, with the ends of the cycle that its arrival makes reported (R332, R335). -/
def barArrived (cyc key party : Nat) (b : Bar) : Bar :=
  let n := nowAt cyc b
  barAfter key (tellEnds { n with arrs := n.arrs ++ [party] })

/-- A barrier when a party has asked in a cycle to leave with the generation (R334). -/
def barLeaving (cyc key party : Nat) (b : Bar) : Bar :=
  let n := nowAt cyc b
  barAfter key { n with lvs := n.lvs ++ [party] }

/-- The generation for which an arrival of a party in a cycle counts: that of the cycle's begin, or the next for a pending
joiner. -/
def arrivalGen (cyc party : Nat) (b : Bar) : Nat :=
  let n := nowAt cyc b
  if party ∈ n.base.joins ∧ party ∉ n.base.members then (n.base.gen + 1) % 65536 else n.base.gen

/-- An arrival of a barrier form: the barrier, the released and live masks that the checker compares, and the barrier as the
form changes it before the arrival (bar.leave leaves when the generation completes). -/
def arrivalForm (c : Ctx) (s : State) (i : Instr) : Option (Nat × Word × Word × Bar) :=
  match i with
  | .barArr w =>
    match barKeyOf c.core (c.ua w) with
    | some key =>
      let b := barAt s c.blkId key
      if (b.members.contains c.party || b.joins.contains c.party) && !divergeTraps c then some (key, c.lanes, c.live, b) else none
    | none => none
  | .barLeave w =>
    match barKeyOf c.core (c.ua w) with
    | some key =>
      let b := barAt s c.blkId key
      if 16 ≤ key && b.members.contains c.party && !divergeTraps c then
        some (key, c.lanes, c.live, barLeaving c.cyc key c.party b)
      else none
    | none => none
  | .mbarArr w => if c.ua w < 16 then some (c.ua w, 0, 0, barAt s c.blkId (c.ua w)) else none
  | _ => none

/-- BAR.JOIN's status and the barrier after it; BAR.LEAVE of a party that is no member or has arrived. -/
def membership (c : Ctx) (s : State) (i : Instr) : Option ((Regs → Regs → Prop) × Nat × Bar) :=
  match i with
  | .barJoin w =>
    (barKeyOf c.core (c.ua w)).map (fun key =>
      let b := barAt s c.blkId key
      if key < 16 then (KWritten w.d 3, key, b)
      else if b.holder ≠ none ∧ b.holder ≠ some c.launch then (KWritten w.d 1, key, b)
      else if c.party ∈ b.members ∨ c.party ∈ b.joins then (KWritten w.d 2, key, b)
      else
        let n := nowAt c.cyc b
        (KWritten w.d 0, key, barAfter key { n with jns := n.jns ++ [(c.party, c.launch)] }))
  | .barLeave w =>
    match barKeyOf c.core (c.ua w), partyOf s c.iss.agent with
    | some key, some x =>
      let b := barAt s c.blkId key
      if key < 16 then none
      else if c.party ∉ b.members then some (RegsKept, key, b)
      else if arrivedYet s x key then some (RegsKept, key, barLeaving c.cyc key c.party b)
      else none
    | _, _ => none
  | _ => none

/-- The block of a word's agent after it: other blocks as before, its windows as `f` relates them, its rings as `g` does, the
rest of it as before. -/
def BlockAfter (c : Ctx) (s t : State) (f : Nat → Win → Win → Prop) (g : Nat → Option Ring → Option Ring → Prop) : Prop :=
  (∀ q, q ≠ c.blkId → mfind t.blocks q = mfind s.blocks q) ∧
  ∀ b, mfind s.blocks c.blkId = some b → ∃ b', mfind t.blocks c.blkId = some b' ∧
    b' = { b with wins := b'.wins, rings := b'.rings } ∧ (∀ n, f n (getWin b n) (getWin b' n)) ∧
    ∀ n, g n (mfind b.rings n) (mfind b'.rings n)

/-- Window n changes as a relation gives, every other stays. -/
def onlyWin (n : Nat) (f : Win → Win → Prop) (m : Nat) (x x' : Win) : Prop := if m = n then f x x' else x' = x

/-- Ring n changes to r, every other stays. -/
def onlyRing (n : Nat) (r : Ring) (m : Nat) (x x' : Option Ring) : Prop := x' = if m = n then some r else x

/-- Nothing of its kind changes. -/
def noneOf {α : Type} (_ : Nat) (x x' : α) : Prop := x' = x

/-- A copy joins a queue (R227): after every copy but those queued in the same cycle from a later place, which it precedes. -/
def CopyQueued (j : CopyJob) (q q' : List CopyJob) : Prop :=
  let later (x : CopyJob) : Prop := x.cyc = j.cyc ∧ (j.part < x.part ∨ (x.part = j.part ∧ j.slot < x.slot))
  ∃ pre post, q = pre ++ post ∧ q' = pre ++ j :: post ∧ (∀ x ∈ pre, ¬later x) ∧ ∀ x, post.head? = some x → later x

/-- No session of registered mail is open and no engine waits for room in a trace buffer: no card stalls its emitter (R397). -/
def noStall (s : State) : Prop :=
  (∀ e ∈ s.trace.sessions, ¬(sessOpen e.2 = true ∧ sessReg e.2 = true)) ∧ ∀ cl, (getCluster s cl).held = []

/-- Scratchpad bytes [a, a + 8 * n) of a block hold the dwords v gives, every other byte is as before. -/
def SpadAfter (s t : State) (a n : Nat) (v : Nat → DWord) : Prop :=
  ∀ k, readByte t.spad k = if a ≤ k ∧ k < a + 8 * n then BitVec.ofNat 8 ((v ((k - a) / 8)).toNat / 2 ^ (8 * ((k - a) % 8)))
    else readByte s.spad k

/-- What LREC, LREC.TAP and WBIND leave in the window that B names. -/
def windowForm (c : Ctx) (i : Instr) : Option (Nat × (Win → Win → Prop)) :=
  match i with
  | .lrec w =>
    if c.ub w < c.blk.winN then
      some (c.ub w, fun x x' => x' = { x with stage := x'.stage } ∧ ∀ j,
        ldw x'.stage j = if fs w 7 4 ≤ j ∧ j ≤ fs w 7 4 + fs w 3 0 then
          BitVec.ofNat 64 (c.kreg 0 (kNum w.a + (j - fs w 7 4))) else ldw x.stage j)
    else none
  | .lrecTap w =>
    let x := getWin c.blk (c.ub w)
    if c.ub w < c.blk.winN ∧ x.state ≠ .unbound ∧ layImg x.layout = true then
      some (c.ub w, fun x x' => x' = { x with tap := BitVec.ofNat 32 (fs w 31 0) })
    else none
  | .wbind w =>
    let x := getWin c.blk (c.ub w)
    let v := BitVec.ofNat 64 (c.ua w)
    let fmt := getKf c.u.regs.u (layKf x.stage)
    if c.ub w < c.blk.winN ∧ bindCode c.blk (c.ub w) x v = none ∧ stagePriv c.core x.stage = none ∧
        stageCode x.stage fmt c.blk.winN (fld v 51 32) = none then
      some (c.ub w, fun x x' => x' = { x with
        state := .present, off := fld v 19 0, size := fld v 51 32, layout := x.stage, fmt := fmt })
    else none
  | _ => none

/-- A load: who asks, its size, its accesses, how it reads, and what its registers receive from the values read. -/
structure LoadCase where
  who  : Who
  n    : Nat
  rs   : List LReq
  mode : LdMode
  late : Option Nat
  regs : List (Nat × Nat) → Regs → Regs → Prop

/-- The loads of plain values. -/
def loadCase (c : Ctx) (i : Instr) : Option LoadCase :=
  match i with
  | .ld w => some
    { who := c.who true, n := tyBytes w.ty, rs := reqsOf (c.active w.g w.gn) (c.ea w), mode := ldMode w, late := some c.firstCyc
      regs := fun vs => LaneWritten w.ty w.d false (c.active w.g w.gn) (fun l => movePat w.ty (valAt vs l)) }
  | .kld w => some
    { who := c.who false, n := 8, rs := uReq (c.kea w), mode := {}, late := some c.firstCyc, regs := fun vs => KWritten w.d (valAt vs 255) }
  | _ => none

/-- The state after a checked access's translations and the merges that its lines call for (R309). -/
def readState (c : Ctx) (s : State) (at_ : List (Nat × List Piece)) (eff : Eff) : State :=
  applyAll (Eff.seq eff (mergeRuns c.core (at_.flatMap (fun e => physRuns s e.2))) s) s

/-- A load that passes R265 meets no poisoned line, none behind a removed port, none of a page under migration. -/
def loadClear (c : Ctx) (s : State) (useL1 : Bool) (at_ : List (Nat × List Piece)) (eff : Eff) : Prop :=
  poisonedLoad (readState c s at_ eff) c.core useL1 (at_.flatMap (fun e => physRuns s e.2)) = none ∧
  blockedBy (readState c s at_ eff) (at_.flatMap (fun e => physRuns s e.2)) = none

/-- What a load's checks give when it reads: its accesses pass R265, its lines are clear, no acquire of its group waits in
the queue (R299), and no byte waits for a queued atomic. -/
def loadPasses (c : Ctx) (s : State) (x : LoadCase) (at_ : List (Nat × List Piece)) (eff : Eff) (vs : List (Nat × Nat)) : Prop :=
  locate s x.who (if x.mode.root then .acq else if x.mode.useL1 then .load else .home) x.n x.late x.rs = .ok at_ eff ∧
  acqHeld c.sq = none ∧ loadClear c s x.mode.useL1 at_ eff ∧
  valuesOf (loadPieces (readState c s at_ eff) c.core c.sq x.mode.useL1 x.mode.root) at_ = .inl vs

/-- No core holds a privatised copy of a line (R309). -/
def noPrivate (s : State) : Prop := ∀ e ∈ s.coh.dirs, e.2.priv = []

/-- The bounded load's value of an access: under its lane's bound where the region gives one, else as a plain load (R322 to
R324). -/
def boundedValue (c : Ctx) (s : State) (kb : Nat) (e : (Nat × List Piece) × LReq) : Nat :=
  match (match boundOf c s kb e.2.lane e.2.ea with
    | some b => boundPieces s c b.region b.least e.1.2
    | none => loadPieces s c.core c.sq true false e.1.2) with
  | .inl bs => ofBytes bs
  | .inr _ => 0

/-- A bounded load does not wait for a push: none of its misses is in a region that stalls, or their watches have fired (R321). -/
def noWatch (c : Ctx) (s : State) (kb : Nat) (rs : List LReq) (at_ : List (Nat × List Piece)) : Prop :=
  ∀ m ∈ ldbMisses c s kb rs at_, stallsMisses s m.region = true → ∃ w, watchOf s c m.line = some w ∧ watchDone w = true

/-- A store or atomic: who asks, how, its size, its accesses, and of each the data and the value compared. -/
structure StoreCase where
  who  : Who
  acc  : Acc
  n    : Nat
  rs   : List LReq
  data : Nat → Nat
  cmp  : Nat → Nat := fun _ => 0
  kind : SqKind
  ty   : Ty := .n64
  dst  : Option Reg := none
  sem  : Nat
  rel  : Nat

/-- The stores and atomics of lanes and of uniform words. -/
def storeCase (c : Ctx) (i : Instr) : Option StoreCase :=
  match i with
  | .st w => some
    { who := c.who true, acc := .store, n := tyBytes w.ty, rs := reqsOf (c.active w.g w.gn) (c.ea w)
      data := c.src 2 w.ty (srcOf w.c.toNat), kind := .store, sem := 0
      rel := if qSem w.q = 2 ∨ qSem w.q = 3 then qScope w.q else 0 }
  | .kst w => some
    { who := c.who false, acc := .store, n := 8, rs := uReq (c.kea w), data := fun _ => c.uf 2 w.d, kind := .store, sem := 0, rel := 0 }
  | .atom sub w =>
    let dst := if qNr w.q then none else some (dstReg w.d)
    some
      { who := c.who true, acc := .atomic, n := tyBytes w.ty, rs := reqsOf (c.active w.g w.gn) (c.ea w)
        data := c.src 2 w.ty (srcOf w.c.toNat), kind := .atomic sub.toNat w.ty dst, ty := w.ty, dst := dst, sem := qSem w.q
        rel := if qSem w.q = 2 ∨ qSem w.q = 3 then qScope w.q else 0 }
  | .cas w => some
    { who := c.who true, acc := .atomic, n := tyBytes w.ty, rs := reqsOf (c.active w.g w.gn) (c.ea0 w)
      data := c.src 2 w.ty (srcOf w.c.toNat), cmp := c.src 1 w.ty w.b, kind := .cas w.ty (dstReg w.d), ty := w.ty
      dst := some (dstReg w.d), sem := qSem w.q, rel := if qSem w.q = 2 ∨ qSem w.q = 3 then qScope w.q else 0 }
  | .katom w =>
    let ty := tyOf (fs w 20 17)
    let dst := if fs w 21 21 = 1 then none else some (Reg.k (kNum w.d))
    some
      { who := c.who false, acc := .atomic, n := tyBytes ty, rs := uReq (BitVec.ofNat 64 (c.ua w))
        data := fun _ => c.ub w % 2 ^ tyWidth ty, kind := .atomic (fs w 31 28) ty dst, ty := ty, dst := dst, sem := fs w 27 26
        rel := if fs w 27 26 = 2 ∨ fs w 27 26 = 3 then fs w 25 22 else 0 }
  | _ => none

/-- A word has had its effect and its agent waits at it (R101): its registers, lanes and stack are as before, and so is all else
but the parts listed. -/
structure Parks (c : Ctx) (s t : State) (touched : List Comp) (k : WaitKind) : Prop where
  world  : Same (cardParts c s ++ touched) s t
  agents : SameAgents c s t
  group  : c.strm = false → ∃ g h, mfind s.groups c.key = some g ∧ mfind t.groups c.key = some h ∧
    h.u.wait = some { kind := k, pc := c.pc, next := c.next, lanes := c.lanes, mark := (headOf c.i).marker } ∧
    h.u.regs = g.u.regs ∧ h.sched.pc = g.sched.pc ∧ h.sched.rs = g.sched.rs ∧ h.live = g.live ∧ h.tr = g.tr ∧ h.sq = g.sq
  stream : c.strm = true → ∃ g h, mfind s.streams c.key = some g ∧ mfind t.streams c.key = some h ∧
    h.u.wait = some { kind := k, pc := c.pc, next := c.next, lanes := c.lanes, mark := (headOf c.i).marker } ∧
    h.u.regs = g.u.regs ∧ h.pc = g.pc ∧ h.rs = g.rs ∧ h.ops = g.ops

/-- What TLBINV leaves in the TLBs and merge tables of its reach (R285, R291). -/
def TlbsCleared (c : Ctx) (w : UniW) (s t : State) : Prop :=
  let drop (e : TlbE) : Bool := tlbDrop (fs w 17 16) (asidOf c w) (BitVec.ofNat 64 (c.ua w)).toNat e
  let reach := fs w 15 14
  (∀ k, (getCore t k).tlb = if inReach c.core reach k then (getCore s k).tlb.filter (fun e => !drop e) else (getCore s k).tlb) ∧
  (∀ k, if clReach c.core reach k = true ∧ reach ≠ 0 then (getCluster t k).tlb = (getCluster s k).tlb.filter (fun e => !drop e)
    else (getCluster t k).tlb.map (fun e => { e with count := 0 }) = (getCluster s k).tlb.map (fun e => { e with count := 0 })) ∧
  ∀ k, (getCluster t k).merge = if clReach c.core reach k then
      (getCluster s k).merge.filter (fun m => !mergeDrop (fs w 17 16) (asidOf c w) (BitVec.ofNat 64 (c.ua w)).toNat m)
    else (getCluster s k).merge

/-- The items of a store's queue entry. -/
def storeItems (x : StoreCase) (at_ : List (Nat × List Piece)) : List SqItem :=
  at_.map (fun e => { lane := e.1, pieces := e.2, data := BitVec.ofNat 64 (x.data e.1), cmp := BitVec.ofNat 64 (x.cmp e.1) })

/-- A store or atomic whose accesses pass R265, with no line out of reach. -/
def storePasses (s : State) (x : StoreCase) (at_ : List (Nat × List Piece)) (eff : Eff) : Prop :=
  locate s x.who x.acc x.n none x.rs = .ok at_ eff ∧
  (if x.acc = .atomic then poisoned (applyAll (eff s) s) (at_.flatMap (fun e => physRuns (applyAll (eff s) s) e.2))
    else goneRun (applyAll (eff s) s) (at_.flatMap (fun e => physRuns (applyAll (eff s) s) e.2))) = none

/-- The parts that the cache and code forms may change, in the states where they complete. -/
def cacheForm (c : Ctx) (s : State) (i : Instr) : Option (List Comp) :=
  match i with
  | .prf _ => some [.coh, .cores]
  | .ipref _ => some [.cores, .trace, .clusters]
  | .cinv w => if rangeTrap s c (c.ua w) (c.ub w) true = none then some [.mem, .cores, .coh] else none
  | .icinv w => if rangeTrap s c (c.ua w) (c.ub w) false = none ∧ (c.ub w = 0 ∨ drained s c.sq 9 = true) then some [.mem, .cores, .coh] else none
  | .cwb w => if rangeTrap s c (c.ua w) (c.ub w) true = none ∧ c.sq.length < 32 then some [.mem, .cores, .coh] else none
  | _ => none

/-- No operation in flight that a form with these reads and writes must wait for (R173). -/
def unclashed (c : Ctx) (s : State) (obR obW : List (Nat × Nat)) (tR tW : List Nat) : Bool :=
  match streamOf c s with
  | some x => !x.ops.any (opClash obR obW tR tW)
  | none => true

/-- The profile test of a word (R14). -/
def profOf (i : Instr) : Ctx → State → Bool :=
  match i with
  | .mma w => fun _ s => (fs w 15 12 == 5 && profileOf s == 1) || (fs w 15 12 == 6 && profileOf s != 3)
  | .macc w => fun _ s => fs w 21 20 == 2 && profileOf s != 3
  | .mload w => xfOnBase w
  | .mloadx w => xfOnBase w
  | _ => anyProfile

/-- The matrix resources of a block after a word: other blocks and the rest of this one are as before. -/
def MatrixAfter (c : Ctx) (s t : State) (f : Matrix → Matrix → Prop) : Prop :=
  (∀ q, q ≠ c.blkId → mfind t.blocks q = mfind s.blocks q) ∧
  ∀ b m, mfind s.blocks c.blkId = some b → b.mat = some m →
    ∃ m', mfind t.blocks c.blkId = some { b with mat := some m' } ∧ f m m'

/-- A reservation table changed in one register. -/
def recsAfter (reg : Nat) (x : Option ObRec) (m m' : Matrix) : Prop :=
  m' = { m with recs := m'.recs } ∧ ∀ n, mfind m'.recs n = if n = reg then x else mfind m.recs n

/-- The elements of a tile, or of a pair of tiles as binary64, replaced; every other tile and the buffer stay. -/
def tileAfter (t : Nat) (pair : Bool) (f : Nat → Nat → Nat) (m m' : Matrix) : Prop :=
  m' = { m with tiles := m'.tiles } ∧
  (∀ i j, i < 16 → j < 16 → tileAt m' t pair i j = f i j % 2 ^ (if pair then 64 else 32)) ∧
  ∀ u i j, u ≠ t → ¬(pair = true ∧ u = t + 1) → i < 16 → j < 16 → tileAt m' u false i j = tileAt m u false i j

/-- What the forms without an engine leave in the matrix resources and in the registers, where they complete. -/
def matrixForm (c : Ctx) (s : State) (i : Instr) : Option ((Regs → Regs → Prop) × (Matrix → Matrix → Prop)) :=
  match i with
  | .obres w =>
    let reg := fs w 31 28
    let st := obresStatus c.mat reg (c.ua w) (c.ub w) (fs w 27 27 == 1) (fs w 23 15)
    let r : ObRec := { base := c.ua w, len := c.ub w, xf := fs w 27 27 == 1, soff := fs w 23 15, fmt := getKf c.u.regs.u (fs w 26 24) }
    some (KWritten w.d st, fun m m' => if st = 0 then recsAfter reg (some r) m m' else m' = m)
  | .obfree w =>
    if 16 ≤ c.ua w then none
    else
      match mfind c.mat.recs (c.ua w) with
      | none => some (RegsKept, fun m m' => m' = m)
      | some r =>
        if unclashed c s [] [(1024 * r.base, 1024 * r.len)] [] [] then some (RegsKept, recsAfter (c.ua w) none) else none
  | .mzero w =>
    if unclashed c s [] [] [] [zeroTile c w.a] then some (RegsKept, tileAfter (zeroTile c w.a) false (fun _ _ => 0)) else none
  | .macc w =>
    let dst := fs w 31 28
    let src := fs w 27 24
    let op := fs w 23 22
    let pair := fs w 21 20 == 2
    if (pair ∧ (dst % 2 = 1 ∨ src % 2 = 1)) ∨
        ¬unclashed c s [] [] (tilesOf dst pair ++ (if op = 2 then [] else tilesOf src pair)) (tilesOf dst pair) then none
    else
      some (RegsKept, fun m m' => tileAfter dst pair (fun i j => maccVal op (fs w 21 20) (tileAt m dst pair i j)
        (if op = 2 then c.ua w % (if pair then 2 ^ 64 else 2 ^ 32) else tileAt m src pair i j)) m m')
  | .mvtot w =>
    let t (l : Nat) : Nat := c.src 0 .n32 w.a l
    let pair := w.ty == .f64
    if ∀ l ∈ lanesOf (c.active w.g w.gn), t l < 16 ∧ (w.ty = .f64 → t l % 2 = 0) then
      some (RegsKept, fun m m' => m' = { m with tiles := m'.tiles } ∧
        ∀ u i j, u < 16 → i < 16 → j < 16 → (pair = true → u % 2 = 0) → tileAt m' u pair i j =
          match (lanesOf (c.active w.g w.gn)).reverse.find? (fun l =>
            t l == u && (c.src 1 .n32 w.b l + l / 16) % 16 == i && l % 16 == j) with
          | some l => c.src 2 w.ty (srcOf w.c.toNat) l % 2 ^ (if pair then 64 else 32)
          | none => tileAt m u pair i j)
    else none
  | _ => none

/-- A step of a tile by rows a of A and b of B over K values: integer sums wrap at 2^32; floating ones add exact products in
chunks with one rounding each (R83, R185 to R189). -/
structure StepCase where
  tile : Nat
  pair : Bool
  ovw  : Bool
  int  : Bool
  k    : Nat
  chunk : Nat
  ai   : Nat → Nat → Int
  bi   : Nat → Nat → Int
  af   : Nat → Nat → FVal
  bf   : Nat → Nat → FVal
  regs : Regs → Regs → Prop

/-- Element (i,j) after a step that finds `old` there. -/
def StepCase.out (x : StepCase) (old i j : Nat) : Nat :=
  let acc := if x.ovw then 0 else old
  if x.int then patOf ((acc : Int) + ((List.range x.k).map (fun k => x.ai i k * x.bi j k)).sum) 32
  else chunkSum (if x.pair then fmt64 else fmt32) x.chunk acc ((List.range x.k).map (fun k => FVal.mul (x.af i k) (x.bf j k)))

/-- The registers after a step: its loop counter counted on by one step where the word asks (R135). -/
def stepRegs (inc : Bool) (lc : Nat) (r r' : Regs) : Prop :=
  if inc = true then r'.l = r.l ∧ OnlyFile false true false false r r' ∧ ∀ n, getLm r'.u n = getLm r.u n ∧
    (getLc r'.u n).toNat = if n = lc then modSize ((getLc r.u n).toNat + 1) (getLm r.u n).toNat else (getLc r.u n).toNat
  else r' = r

/-- The step that a word makes, where it completes. -/
def stepCase (c : Ctx) (s : State) (m : Matrix) (i : Instr) : Option StepCase :=
  let sparse (w : UniW) (res : Bool) : Option StepCase :=
    match mfind m.recs (fs w 31 28), mfind m.recs (fs w 27 24) with
    | some rd, some rb =>
      let o := 32 * c.ua w
      let ob := 32 * c.ub w
      let a := 1024 * rd.base + o
      let h := hdrAt m a
      let p := stepOf h.ityp 8
      let nb := 16 * p.row * (h.kt / p.k)
      let t := c.tileNum (fs w 19 19 == 1) (fs w 17 16) (fs w 23 20)
      let pa (i k : Nat) : Nat := mget 0 (spOperand m a h res) (i * h.kt + k)
      let pb (j k : Nat) : Nat := operandPat m rb h.ityp (ob + k / p.k * (16 * p.row) + j * p.row) (k % p.k)
      if rd.xf = false ∧ rb.xf = false ∧ o + 4 ≤ recLim rd ∧ hdrOk h res = true ∧
          o + decSize h.kt (spBytes h.ityp) ≤ recLim rd ∧ ob + nb ≤ recLim rb ∧ unclashed c s [(a, 4)] [] [] [] = true ∧
          unclashed c s [(a, decSize h.kt (spBytes h.ityp)), (1024 * rb.base + ob, nb)] [] [t] [t] = true then
        some { tile := t, pair := false, ovw := fs w 15 15 == 1, int := ityInt h.ityp, k := h.kt, chunk := p.chunk
               ai := fun i k => inputInt h.ityp (pa i k), bi := fun j k => inputInt h.ityp (pb j k)
               af := fun i k => inputVal h.ityp (pa i k), bf := fun j k => inputVal h.ityp (pb j k)
               regs := stepRegs (fs w 19 19 == 1 && fs w 18 18 == 1) (fs w 17 16) }
      else none
    | _, _ => none
  match i with
  | .mma w =>
    match mfind m.recs (fs w 31 28), mfind m.recs (fs w 27 24) with
    | some ra, some rb =>
      let ityp := fs w 15 12
      let p := stepOf ityp (xfmtOf ra.fmt).cont
      let t := c.tileNum (fs w 19 19 == 1) (fs w 17 16) (fs w 23 20)
      let oa := 32 * c.ua w
      let ob := 32 * c.ub w
      let val (r : ObRec) (o k : Nat) : FVal :=
        if ityp = 5 then operandXf m r c.fresh o k else inputVal ityp (operandPat m r ityp o k)
      if recsOk ityp ra rb = true ∧ ¬(p.pair = true ∧ t % 2 = 1) ∧ oa + 16 * p.row ≤ recLim ra ∧ ob + 16 * p.row ≤ recLim rb ∧
          unclashed c s (operandRange ra oa (16 * p.row) ++ operandRange rb ob (16 * p.row)) [] (tilesOf t p.pair)
            (tilesOf t p.pair) = true then
        some { tile := t, pair := p.pair, ovw := fs w 11 11 == 1, int := ityInt ityp, k := p.k, chunk := p.chunk
               ai := fun i k => inputInt ityp (operandPat m ra ityp (oa + i * p.row) k)
               bi := fun j k => inputInt ityp (operandPat m rb ityp (ob + j * p.row) k)
               af := fun i k => val ra (oa + i * p.row) k, bf := fun j k => val rb (ob + j * p.row) k
               regs := stepRegs (fs w 19 19 == 1 && fs w 18 18 == 1) (fs w 17 16) }
      else none
    | _, _ => none
  | .mmat w => sparse w false
  | .mres w => sparse w true
  | _ => none

/-- The rows of a matrix load or store, all translated; their updates are those of the translations. -/
def rowsAll (c : Ctx) (s : State) (a : Acc) (len base stride : Nat) (rs : List Nat) : Option (List (List Piece)) :=
  match (rowsGo c a len (rowAddr base stride) rs [] [] s).stop with
  | none => some (rowsGo c a len (rowAddr base stride) rs [] [] s).rows
  | some _ => none

/-- The operation that MLOAD, MLOADX, MST and SDEC put in flight, numbered `id`, and what they do to the registers. -/
def forkCase (c : Ctx) (s : State) (id : Nat) (i : Instr) : Option (Op × (Regs → Regs)) :=
  let load (w : UniW) (ebits : Nat) : Option (Op × (Regs → Regs)) :=
    match mfind c.mat.recs (fs w 31 28), streamOf c s with
    | some r, some x =>
      let n := fs w 27 20 + 1
      let len := 32 * (fs w 19 13 + 1)
      let o := 32 * c.ub w
      let base := c.kreg 0 (kNum w.a)
      let stride := c.kreg 0 (kNum w.a + 1)
      let dst := 1024 * r.base + o
      let rp := c.mat.rowprog.toNat
      let first := if bit rp 31 && bits rp 19 16 == fs w 31 28 then bits rp 7 0 else 0
      if o + n * len ≤ 1024 * r.len ∧ (ebits ≠ 0 → n * ebits % 256 = 0) ∧ base % 16 = 0 ∧ stride % 16 = 0 ∧
          (x.ops.any isLoadOp && bit rp 31) = false ∧ unclashed c s [] [(dst, n * len)] [] [] = true then
        (rowsAll c s .mrow len base stride ((List.range n).filter (fun r => decide (first ≤ r)))).map (fun rows =>
          ({ id := id, kind := .load dst len ebits n first, rows := rows, obR := [], obW := [(dst, n * len)], tR := [], tW := [] }, fun r => r))
      else none
    | _, _ => none
  match i with
  | .mload w => load w 0
  | .mloadx w => load w (eszBits (fs w 12 10))
  | .mst w =>
    let lc := fs w 26 25
    let t := c.tileNum (fs w 27 27 == 1) lc (fs w 31 28)
    let oty := fs w 23 20
    let base := c.kreg 0 (kNum w.a)
    let stride := c.kreg 0 (kNum w.a + 1)
    let rb := 16 * otyBytes oty
    let kc := if fs w 19 19 = 1 then some (fs w 18 16) else none
    if ¬(oty = 6 ∧ t % 2 = 1) ∧ base % 16 = 0 ∧ stride % 16 = 0 ∧ unclashed c s [] [] (tilesOf t (oty == 6)) [] = true then
      (rowsAll c s .mst rb base stride (List.range 16)).map (fun rows =>
        ({ id := id, kind := .store t oty kc, rows := rows, obR := [], obW := [], tR := tilesOf t (oty == 6), tW := [] },
         fun r => kcAdd c.cyc kc (16 * rb) (autoInc (fs w 27 27 == 1 && fs w 24 24 == 1) lc r)))
    else none
  | .sdec w =>
    match mfind c.mat.recs (fs w 31 28), mfind c.mat.recs (fs w 27 24), streamOf c s with
    | some rs, some rd, some _ =>
      let kt := 32 * (fs w 23 22 + 1)
      let ityp := fs w 19 16
      let so := 32 * c.ua w
      let do_ := 32 * c.ub w
      let src := 1024 * rs.base + so
      let dst := 1024 * rd.base + do_
      let obR := [(src, 256 + spBytes ityp * (spPositions c.mat src kt).length)]
      let obW := [(dst, decSize kt (spBytes ityp))]
      if rs.xf = false ∧ rd.xf = false ∧ so + 256 ≤ recLim rs ∧ unclashed c s [(src, 256)] [] [] [] = true ∧
          sdecCode c.mat rs rd so do_ kt ityp = none ∧ unclashed c s obR obW [] [] = true then
        some ({ id := id, kind := .sdec src dst kt (fs w 21 20 + 1) ityp (bits c.mat.sbound.toNat 16 0), rows := [], obR := obR
                obW := obW, tR := [], tW := [] }, fun r => r)
      else none
    | _, _, _ => none
  | _ => none

/-- The region that a round instruction names, by an address in it or by its counter word (R325). -/
def regionHere (c : Ctx) (s : State) (w : UniW) : Option Nat :=
  match genOf c.core (BitVec.ofNat 64 (c.ua w)) with
  | .global va =>
    match regionOf s c.asid va with
    | some r => some r
    | none =>
      match counterOf s c.asid va with
      | some r => if rtCva (getRt s r) = va then some r else none
      | none => none
  | _ => none

/-- What MTS leaves in a register it writes, in the states where that is a plain field: the parts of the package it touches, of
its group, and the value that MFS then reads. -/
def mtsResult (c : Ctx) (s : State) (n : Nat) (v : DWord) : Option (List Comp × List Own × DWord) :=
  let old := readSpecial s c.reader n
  match n with
  | 0x02 => some ([.cores], [], old &&& ~~~(v &&& 0x8))
  | 0x0C => some ([], [.tr], v)
  | 0x0D => some ([.idn], [], v)
  | 0x0E =>
    match mfind s.groups c.key with
    | some g => if g.tr.frames.isEmpty then none else some ([], [.tr], (old &&& ~~~0x4000) ||| (v &&& 0x4000))
    | none => none
  | 0x10 => some ([.cores], [], v &&& 0xFFFF)
  | 0x13 => some ([], [.tr], v)
  | 0x19 => some ([], [.wstat], v &&& 0x80FF7F3F)
  | 0x1A => some ([], [.atomcfg], if v &&& 3 = 3 then 0 else v &&& 3)
  | 0x1C => some ([.blocks], [], v &&& 0xFFFFFFFFFFFF)
  | 0x1E => some ([.faults], [], fqcfgOf v)
  | 0x1F => some ([.faults], [], setFld old 63 32 (fld v 63 32))
  | 0x20 => some ([.rounds], [], BitVec.ofNat 64 (fld old 31 16 * 65536 + fld v 9 0))
  | 0x21 => if rtValid (getRt s (curRt s)) then none else some ([.rounds], [], v &&& 0x00FFFFFFFFFF003F)
  | 0x22 => if rtValid (getRt s (curRt s)) then none else some ([.rounds], [], v &&& 0x00FFFFFFFFFFFFF8)
  | 0x23 => if fld v 0 0 = 1 ∨ rtValid (getRt s (curRt s)) then none else some ([.rounds], [], v &&& 0xFFFF0FFF000007F6)
  | 0x24 => if rtValid (getRt s (curRt s)) then none else some ([.rounds], [], v &&& 0xFFFFFFFFFFFF)
  | 0x29 => some ([.idn], [], old &&& ~~~(v &&& 0xFFFF000000000000))
  | 0x2C => some ([.idn], [], old &&& ~~~(v &&& 0x8000000000000000))
  | 0x2D => some ([.idn], [], v &&& 0x0000FFFFFFFFFFC0)
  | 0x30 => some ([.mail], [], v &&& 0x3F)
  | 0x32 => if fld (getQueue s (curQ s)).ctl 0 0 = 1 then none else some ([.mail], [], v &&& 0xFFFFFFFFFFFF)
  | 0x33 => if fld (getQueue s (curQ s)).ctl 0 0 = 1 then none else some ([.mail], [], v)
  | 0x34 => some ([.mail], [], v)
  | 0x35 => if fld (getQueue s (curQ s)).ctl 0 0 = 1 then none else some ([.mail], [], v &&& 0x00FFFFFFFFFFFFFF)
  | 0x38 => some ([.trace], [], BitVec.ofNat 64 (fld old 31 16 * 65536 + fld v 3 0))
  | 0x39 =>
    if fld v 0 0 = 1 ∨ sessOpen (getSession s (tsIdx s)) = true then none else some ([.trace], [], v &&& 0xFFFFFFFFFF000003)
  | 0x3A => some ([.trace], [], if sessOpen (getSession s (tsIdx s)) then old else
      BitVec.ofNat 64 (fld v 47 12 * 4096 + if 8 ≤ fld v 4 0 ∧ fld v 4 0 ≤ 26 then fld v 4 0 else 8))
  | 0x3B => some ([.trace], [], setFld old 63 32 (fld v 63 32))
  | _ => none

/-- The registers that a select register shows, which another selection changes (R313, R345, R391). -/
def sregShown (n : Nat) : List Nat :=
  match n with
  | 0x20 => [0x21, 0x22, 0x23, 0x24]
  | 0x30 => [0x31, 0x32, 0x33, 0x34, 0x35]
  | 0x38 => [0x39, 0x3A, 0x3B, 0x3C]
  | _ => []

/-- What CNTCFG does to a counter of the set that field A names: the set's number, the counter's, and the change. -/
def cntResult (c : Ctx) (i : Instr) : Option (Nat × Nat × (CtSet → CtSet)) :=
  let pick (w : UniW) (f : CtSet → CtSet) : Option (Nat × Nat × (CtSet → CtSet)) :=
    if c.sys = true ∧ c.ua w < 64 then some (c.ua w, fs w 3 0, f) else none
  match i with
  | .cntcfgEvent w => pick w (fun x => { x with ct := mset 0 x.ct (fs w 3 0) 0, ovf := mset false x.ovf (fs w 3 0) false
                                                ev := mput x.ev (fs w 3 0) (fs w 11 6), rem := remAfter x (fs w 3 0) (fs w 11 6) })
  | .cntcfgClear w => pick w (fun x => { x with ct := mset 0 x.ct (fs w 3 0) 0, ovf := mset false x.ovf (fs w 3 0) false
                                                rem := remAfter x (fs w 3 0) 0 })
  | .cntcfgWrite w => pick w (fun x => { x with ct := mset 0 x.ct (fs w 3 0) (BitVec.ofNat 64 (c.ub w)), rem := remAfter x (fs w 3 0) 0 })
  | _ => none

/-- The entry of a word that took a turn has left its group's store queue (R366). -/
def TurnGivenUp (c : Ctx) (s t : State) : Prop :=
  ∀ g, c.strm = false → mfind s.groups c.key = some g →
    ∃ h, mfind t.groups c.key = some h ∧ h.sq = g.sq.filter (fun e => e.kind != .hold c.pc)

/-- A form that its mode may not use: a system form, a privileged or read-only special register, TRAPCAUSE and eret outside a
handler, a register of a sequencer that the group's block does not hold, the counters of another set (R380, R381, R384, R415,
R416, R470). -/
def forbidden (c : Ctx) (s : State) (i : Instr) : Bool :=
  match i with
  | .halt _ | .tlbinv _ | .pgmig _ | .cntcfgEvent _ | .cntcfgClear _ | .cntcfgWrite _ | .qreset _ => !c.sys
  | .mfs w => sregKnown (c.ub w) && sregPriv (c.ub w) && !c.sys
  | .mts w => sregKnown (c.ub w) && (sregReadOnly (c.ub w) || ((sregPriv (c.ub w) || sregSysWrite (c.ub w)) && !c.sys) ||
      (c.ub w == 0x0E && ((mfind s.groups c.key).map (·.tr.frames.isEmpty)).getD false) ||
      ([0x14, 0x15, 0x16].contains (c.ub w) && ((mfind s.blocks c.blkId).bind (·.mat)).isNone))
  | .cntrd w => !c.sys && decide (c.ua w < 32) && decide (c.ub w < 64) && c.ub w != c.frank % 64
  | .eret _ =>
    match mfind s.groups c.key with
    | some g => g.tr.frames.isEmpty
    | none => false
  | _ => false

/-- What an event leaves: every part but those listed, every group and stream but those at the places listed. -/
def EventKeeps (xs : List Comp) (gs ss : List Nat) (s t : State) : Prop :=
  Same xs s t ∧ (∀ q, q ∉ gs → mfind t.groups q = mfind s.groups q) ∧ ∀ q, q ∉ ss → mfind t.streams q = mfind s.streams q

/-- The image that a KFMT.SET form offers (R93). -/
def kfmtImage (c : Ctx) (i : Instr) : Option DWord :=
  match i with
  | .kfmtSet w => some (BitVec.ofNat 64 (c.ua w))
  | .kfmtSetSeed w => some (setFld (getKf c.u.regs.u (fs w 11 9)) 63 32 (c.ua w))
  | .kfmtSetPreset w => some (setFld (getKf c.u.regs.u (fs w 11 9)) 31 0 (presetOf (fs w 6 0)))
  | _ => none

/-- A reserved opcode, or a word that passes the checks before its own. -/
def reaches (i : Instr) (s : State) (c : Ctx) : Prop :=
  ctxHere i s = some c ∧ ((∃ w e, i = .reservedOpcode w e) ∨ passes i anyProfile s c = true)

/-- Cause and TRAPADDR of precise traps: ILL of a reserved opcode, RECORD of a format image, DIVZ, PERM of a form that its mode may
not use, TRAP, SYSC and BRK (R52, R93, R110, R141, R380, R382). -/
def preciseTrap (c : Ctx) (s : State) (i : Instr) : Option (Nat × DWord) :=
  match i, kfmtImage c i, divResult i with
  | .reservedOpcode _ _, _, _ => some (1, c.words)
  | _, some img, _ => if kfValid img then none else some (7, img)
  | _, _, some (w, _) => if (lanesOf (c.active w.g w.gn)).any (fun l => c.intB w l == 0) then some (12, 0) else none
  | _, _, _ => if forbidden c s i then some (9, 0) else (trapForm c i).map (fun x => (x.1, x.2.1))

/-- A trap has parked the stream, with the trap kept for the host group; nothing else changes, and its registers only by results
that land (R374). -/
def StreamParked (c : Ctx) (s t : State) (n : Nat) (addr : DWord) : Prop :=
  Same [] s t ∧ SameAgents c s t ∧
  ∀ x, mfind s.streams c.key = some x → ∃ y, mfind t.streams c.key = some y ∧
    y.trap = some { cause := n, addr := addr, pc := c.pc, next := c.next, delivered := false } ∧
    y.pc = x.pc ∧ y.loop = x.loop ∧ y.ops = x.ops ∧ (y.u.wait.map (·.kind)) = some .trapped ∧
    (x.u.outs = [] → y.u.regs = x.u.regs)

/-- An event completes: there is a next state that keeps what it must and of which a relation holds. -/
def EventDoes (i : Instr) (s : State) (xs : List Comp) (gs ss : List Nat) (p : State → Prop) : Prop :=
  ∃ t, exec i s = .next t ∧ EventKeeps xs gs ss s t ∧ p t

/-- An event completes and changes nothing. -/
def Idle (i : Instr) (s : State) : Prop := exec i s = .next s

/-- The newest value of n bytes in the coherence order of their places, once the copies of their lines are merged (R296, R309). -/
def newestVal (s : State) (a n : Nat) : Nat :=
  let s1 := applyAll (Eff.forEach (linesOf a n) mergeLine s) s
  ofBytes ((List.range n).map (fun i => lastByte s1 (a + i)))

/-- The event word of a kind has counted once more, if HEVT names event words; where no line has privatised copies no other byte
of memory changes (R439). -/
def HostTold (kind : Nat) (s t : State) : Prop :=
  (s.idn.hevt = 0 → t.mem = s.mem ∧ t.coh = s.coh ∧ t.cores = s.cores) ∧
  (s.idn.hevt ≠ 0 →
    let a := bits s.idn.hevt.toNat 47 6 * 64 + 8 * kind
    newestVal t a 8 = (newestVal s a 8 + 1) % 2 ^ 64 ∧ (∀ k, getCore t k = { getCore s k with l1 := (getCore t k).l1 }) ∧
    (noPrivate s → ∀ b, b < a ∨ a + 8 ≤ b → readByte t.mem b = readByte s.mem b))

/-- No line has privatised copies or a write that waits at its home. -/
def noneHeld (s : State) : Prop := noPrivate s ∧ s.coh.homeq = []

/-- Nothing holds a core's write to the lines of n bytes off at their homes: no lease runs on them, no other core holds them, no
write waits there and no migration blocks them (R259, R289, R307, R308). -/
def linesOpen (s : State) (core a n : Nat) : Prop :=
  ∀ l ∈ linesOf a n, liveLeases s l = [] ∧ foreignHolders s core l = [] ∧ homeWaits s l = false ∧ lineBlocked s l = false

/-- A launch that is killed (R365): it does nothing any more, its end will read a status and a code, and no block of it is left.
What a queue reset and the order of kills keep of it may change. -/
def Killed (s t : State) (n : Nat) (l : Launch) (st code : Nat) : Prop :=
  (∃ l', mfind t.mail.launches n = some l' ∧ l' = { l with dying := some (st, code), last := l'.last, reset := l'.reset }) ∧
  (∀ e ∈ t.blocks, e.2.launch ≠ n) ∧
  ∀ q g, mfind s.groups q = some g → (mfind s.blocks g.blk).map (·.launch) = some n → mfind t.groups q = none

/-- Bytes of a memory from an address on are those given, every other byte is as before. -/
def BytesAfter (m m' : List Host.Cell) (a : Nat) (bs : List Byte) : Prop :=
  ∀ b, readByte m' b = if a ≤ b ∧ b < a + bs.length then bs.getD (b - a) 0 else readByte m b

/-- QCTL of queue q after a write of v (R345): EN only once the timing unit has locked, SUSP as written, the other fields of an
enabled queue kept, ERR cleared by EN; the packets are counted anew when EN is set. -/
def QueueSet (q : Nat) (v : DWord) (s t : State) : Prop :=
  let x := getQueue s q
  let y := getQueue t q
  y = { x with ctl := y.ctl, count := y.count } ∧ (∀ m, m ≠ q → getQueue t m = getQueue s m) ∧
  t.mail = { s.mail with queues := t.mail.queues } ∧
  fld y.ctl 0 0 = (if s.boot.phase = .ready then fld v 0 0 else 0) ∧ fld y.ctl 6 6 = fld v 6 6 ∧
  fld y.ctl 5 3 = (if fld x.ctl 0 0 = 1 then fld x.ctl 5 3 else fld v 5 3) ∧
  fld y.ctl 63 56 = (if fld x.ctl 0 0 = 1 then fld x.ctl 63 56 else fld v 63 56) ∧
  fld y.ctl 23 16 = (if fld y.ctl 0 0 = 1 then 0 else fld x.ctl 23 16) ∧
  y.count = if fld y.ctl 0 0 = 1 ∧ fld x.ctl 0 0 = 0 then 0 else x.count

/-- A write of TSCTL with EN = 1: the selected session opens, or ERR says why not (R393). A buffer at the high-water mark begins a
period with its STALL card. -/
def SessionOpened (v : DWord) (s t : State) : Prop :=
  let x := getSession s (tsIdx s)
  t.trace.sel.toNat % 65536 = s.trace.sel.toNat % 65536 ∧
  t.trace.sel.toNat / 65536 = (if sessOpen x then 1 else if fld v 23 2 ≠ 0 then 2 else 0) ∧
  (sessOpen x = true ∨ fld v 23 2 ≠ 0 → t.clusters = s.clusters ∧ t.trace = { s.trace with sel := t.trace.sel }) ∧
  (sessOpen x = false → fld v 23 2 = 0 →
    ∃ y, getSession t (tsIdx s) = y ∧ y.ctl = setFld v 0 0 1 ∧ y.ptr = 0 ∧ y.ring = x.ring ∧
      ((∀ e ∈ s.clusters, e.2.cards.length < highCards) → t.clusters = s.clusters ∧ t.trace.seqs = s.trace.seqs ∧
        y.drop = 0 ∧ y.drops = 0 ∧ ∀ m, m ≠ tsIdx s → getSession t m = getSession s m))

/-- A write of TSCTL with EN = 0 closes the open session selected; the others are as before where no buffer is nearly full
(R393). -/
def SessionClosed (s t : State) : Prop :=
  let x := getSession s (tsIdx s)
  (getSession t (tsIdx s)).ctl = setFld x.ctl 0 0 0 ∧ (getSession t (tsIdx s)).ring = x.ring ∧
  ((∀ e ∈ s.clusters, e.2.cards.length < highCards) → ∀ m, m ≠ tsIdx s → getSession t m = getSession s m)

/-- RTCTL_COMMIT of entry n of the round table, the one RTSEL names (R314). -/
def CommitDone (v : DWord) (s t : State) : Prop :=
  let n := curRt s
  let e := getRt s n
  let code := if rtValid e then 1 else commitCode s n e (setFld v 0 0 1)
  (∀ m, m ≠ n → getRt t m = getRt s m) ∧ t.rounds.sel.toNat % 65536 = s.rounds.sel.toNat % 65536 ∧
  t.rounds.sel.toNat / 65536 = code ∧
  getRt t n = (if rtValid e then e else { e with ctl := if code = 0 then setFld (rtFields v) 0 0 1 else rtFields (setFld v 0 0 1) }) ∧
  (code ≠ 0 → t.mem = s.mem ∧ t.cores = s.cores ∧ t.coh = s.coh) ∧
  (code = 0 → ∀ k, (getCore t k).l1 = [] ∧
    (k < 768 → inRegionScope t n k = true → mfind (getCore t k).known n = some (fld e.cnt 47 0)))

/-- A region's floors are gone from a group, and OVF is set in each lane that had one (R315). -/
def FloorsDropped (r : Nat) (g h : Group) : Prop :=
  h = { g with floors := h.floors, ovf := h.ovf } ∧ (∀ e ∈ h.floors, ∀ f ∈ e.2, f.1 ≠ r) ∧
  (∀ l f, f.1 ≠ r → ((∃ e ∈ h.floors, e.1 = l ∧ f ∈ e.2) ↔ ∃ e ∈ g.floors, e.1 = l ∧ f ∈ e.2)) ∧
  ∀ l, l < 32 → inMask h.ovf l = (inMask g.ovf l || g.floors.any (fun e => e.1 == l && e.2.any (fun f => f.1 == r)))

/-- RTCTL_RELEASE of a registered region with no bounded load in flight, but for the groups' floors (R315). -/
def RegionFreed (s t : State) : Prop :=
  let n := curRt s
  getRt t n = { getRt s n with ctl := setFld (getRt s n).ctl 0 0 0 } ∧ (∀ m, m ≠ n → getRt t m = getRt s m) ∧
  t.rounds.sel = s.rounds.sel ∧ t.mail = { s.mail with saved := t.mail.saved } ∧
  ∀ k, mfind (getCore t k).known n = none ∧ ∀ x ∈ (getCore t k).l1, mfind x.2.tags n = none

/-- No privatised copy, no lease, no tracked copy and no waiting write meets a line: a write from outside the package performs at
once (R307, R308). -/
def outsideQuiet (s : State) (l : Nat) : Prop :=
  (getDir s l).priv = [] ∧ liveLeases s l = [] ∧ foreignHolders s outsideCore l = [] ∧ homeWaits s l = false

/-- The same for a write of a unit of the package, which a migration's old frame holds up too (R289). -/
def unitQuiet (s : State) (l : Nat) : Prop :=
  (getDir s l).priv = [] ∧ liveLeases s l = [] ∧ foreignHolders s unitCore l = [] ∧ homeWaits s l = false ∧ lineBlocked s l = false

/-- An access from outside the package to an address that it serves: a read returns the bytes at their homes, a plain write of
quiet lines performs at once (R288, R436). -/
def OutsideDone (i : Instr) (a : Nat) (write : Bool) (data : List Byte) (s : State) : Prop :=
  (write = false → EventDoes i s [.mem, .cores, .coh, .hostVal] [] [] (fun t =>
    t.hostVal = BitVec.ofNat 64 (ofBytes (readBytes t.mem a (if data = [] then 8 else min 8 data.length))) ∧
    (noPrivate s → t.mem = s.mem))) ∧
  (write = true → hostAtom s.subj = .plain → subjReps s.subj = [] → EventDoes i s [.mem, .cores, .coh] [] [] (fun t =>
    (∀ l ∈ linesOf a data.length, outsideQuiet s l) → BytesAfter s.mem t.mem a data))

/-- A host's cas or atomic add: the host reads the newest value; where it writes, quiet lines take the new value at once (R348,
R436). -/
def HostAtomDone (a : Nat) (data : List Byte) (s : State) : Prop :=
  let n := min 8 data.length
  let old := newestVal s a n
  EventDoes (.hostAccess a true data) s [.mem, .cores, .coh, .hostVal] [] [] (fun t => t.hostVal = BitVec.ofNat 64 old ∧
    ((∀ l ∈ linesOf a n, outsideQuiet s l) →
      match hostAtom s.subj with
      | .plain => True
      | .cas cmp => if old = cmp then BytesAfter s.mem t.mem a (toBytes n (ofBytes data)) else t.mem = s.mem
      | .add => BytesAfter s.mem t.mem a (toBytes n ((old + ofBytes data) % 2 ^ (8 * n)))))

/-- A peer's write to a replicated page takes its place in the root's order for each of the replicas; no memory changes before
they apply it (R277). -/
def RootWriteDone (a : Nat) (data : List Byte) (s : State) : Prop :=
  EventDoes (.peerAccess a true data) s [.coh] [] [] (fun t =>
    t.coh = { s.coh with reps := s.coh.reps ++ (subjReps s.subj).map (fun x => (x.1, cellsAt (pkgAddr s x.1 (x.2 + 0)) data)) })

/-- A bit of CORESTAT after a port of a partition has failed at run time (R17, R18). -/
def portBit (old : Word) (p port k : Nat) : Bool :=
  let f0 (q : Nat) : Bool := bit old.toNat (4 + q) || (port == 0 && q == p)
  let f1 (q : Nat) : Bool := bit old.toNat (8 + q) || (port == 1 && q == p)
  if k = 3 then true
  else if k < 4 then k == 0 && !((List.range 4).all (fun q => f0 q && f1 q))
  else if k < 8 then f0 (k - 4)
  else if k < 12 then f1 (k - 8)
  else if k < 16 then xor (f0 (k - 12)) (f1 (k - 12))
  else if k < 20 then f0 (k - 16) && f1 (k - 16)
  else false

/-- A port of a partition is out of service in CORESTAT of its core, and in no other. -/
def PortDown (c p port : Nat) (s t : State) : Prop :=
  (∀ k, k ≠ c → (getCore t k).corestat = (getCore s k).corestat) ∧
  ∀ k, k < 32 → (getCore t c).corestat.getLsbD k = portBit (getCore s c).corestat p port k

/-- An error of a line is marked (R376): at a core's L1 copy or privatised copy for unit 3, at its instruction cache's copy for
unit 8, where there is one; else at the line's home, for unit 4 as the L2 slice's (log entry 64). -/
def ErrorMarked (unit c line : Nat) (s t : State) : Prop :=
  let home (n : Nat) : Prop := t.cores = s.cores ∧ t.coh = { s.coh with poison := t.coh.poison } ∧
    ∀ l, mfind t.coh.poison l = if l = line then some n else mfind s.coh.poison l
  match unit, mfind (getCore s c).l1 line, privOwn s c line, mfind (getCore s c).icache line with
  | 3, some x, _, _ => t.coh = s.coh ∧ ∀ k, getCore t k = { getCore s k with l1 := (getCore t k).l1 } ∧
      ∀ l, mfind (getCore t k).l1 l = if k = c ∧ l = line then some { x with poison := true } else mfind (getCore s k).l1 l
  | 3, none, some x, _ => t.cores = s.cores ∧ t.coh = { s.coh with dirs := t.coh.dirs } ∧
      privOwn t c line = some { x with poison := true } ∧ ∀ l, l ≠ line → getDir t l = getDir s l
  | 8, _, _, some _ => t.coh = s.coh ∧ ∀ k, getCore t k = { getCore s k with icache := (getCore t k).icache } ∧
      ∀ l, mfind (getCore t k).icache l = if k = c ∧ l = line then some true else mfind (getCore s k).icache l
  | 4, _, _, _ => home 4
  | _, _, _, _ => home ((mfind s.coh.poison line).getD (memUnit line))

/-- The SPDM events with the request codes that they answer (DMTF DSP0274; log entry 20). -/
def spdmEvents : List (Instr × Nat) :=
  [(.getVersion, 0x84), (.getCapabilities, 0xE1), (.negotiateAlgorithms, 0xE3), (.getDigests, 0x81), (.getCertificate, 0x82),
   (.challenge, 0x83), (.getMeasurements, 0xE0)]

/-- The places of groups and of streams that an agent's event may change. -/
def groupPlaces (a : Agent) : List Nat :=
  match a with
  | .group p => [p]
  | .stream _ => []

def streamPlaces (a : Agent) : List Nat :=
  match a with
  | .group _ => []
  | .stream p => [p]

/-- An agent waits at a parked form. -/
def WaitsAt (s : State) (a : Agent) (w : Wait) : Prop := (agentU s a).bind (·.wait) = some w

/-- A parked form has completed (R101): its agent waits no longer, its lanes are past it, its registers as a relation gives. -/
def Woken (a : Agent) (w : Wait) (regs : Regs → Regs → Prop) (s t : State) : Prop :=
  match a with
  | .group p => ∀ g, mfind s.groups p = some g → ∃ h, mfind t.groups p = some h ∧ h.u.wait = none ∧
      regs g.u.regs h.u.regs ∧ h.live = g.live ∧ h.tr = g.tr ∧ h.sq = g.sq ∧
      ∀ l, l < 32 → mget 0 h.sched.pc l = if inMask w.lanes l then w.next else mget 0 g.sched.pc l
  | .stream p => ∀ g, mfind s.streams p = some g → ∃ h, mfind t.streams p = some h ∧ h.u.wait = none ∧
      regs g.u.regs h.u.regs ∧ h.pc = (streamNext g w.next).pc ∧ h.ops = g.ops ∧ h.trap = g.trap

/-- k register d holds v, every other register is as before. -/
def KSet (d : Nat) (v : DWord) (r r' : Regs) : Prop :=
  (∀ n, getK r'.u n = if n = d then v else getK r.u n) ∧ sameButK r.u r'.u ∧ r'.l = r.l

/-- A return completes: its agent's parked form is over; nothing else changes but the parts listed. -/
def Returns (i : Instr) (s : State) (a : Agent) (w : Wait) (xs : List Comp) (regs : Regs → Regs → Prop) (p : State → Prop) : Prop :=
  EventDoes i s xs (groupPlaces a) (streamPlaces a) (fun t => Woken a w regs s t ∧ p t)

/-- What an arrival of an agent leaves at its barrier: recorded where everything before it is done and the generation is one
that the cycle began with (log entry 71), else pending in the order. -/
def ArrivalMade (s t : State) (a : Agent) (x : Party) (key : Nat) (lanes live : Word) : Prop :=
  if earlierDone s x s.nextId (barScope key) ∧ mayReach s.clk.cyc x.id (barAt s x.blk key) = true then
    barAt t x.blk key = barArrived s.clk.cyc key x.id (barAt s x.blk key)
  else barAt t x.blk key = barAt s x.blk key ∧ ∃ y, partyOf t a = some y ∧
    y.u.pend = [{ kind := .arrive key lanes live, after := s.nextId }]

/-- A pending arrival of a party whose earlier accesses are performed at its barrier's scope (R337), in a cycle in which it may
reach its barrier (log entry 71). -/
def arrivesNow (s : State) (x : Party) (p : Pend) : Bool :=
  match p.kind with
  | .arrive key _ _ => earlierDone s x p.after (barScope key) && mayReach s.clk.cyc x.id (barAt s x.blk key)
  | _ => false

/-- A second arrival at a barrier, parked until its party's generation is complete, may be made: no card of the checker waits. -/
def arrivesLater (s : State) (a : Agent) (x : Party) (w : Wait) (key : Nat) (sync : Option Nat) : Prop :=
  partyOf s a = some x ∧ x.u.wait = some w ∧ w.kind = .arrive key sync ∧ hasArrived s x key = false ∧ x.u.pend = [] ∧
  mfind s.blocks x.blk ≠ none ∧ noStall s

/-- A spawn that waited for pigeonholes, as it issues again. -/
def spawnAgain (s : State) (p : Nat) : Option (Ctx × LaneW × State) :=
  (spawnReady s p).map (fun x => ({ x.1 with u := { x.1.u with wait := none } }, x.2, applyAll (retry (.group p) s) s))

/-- The group of a place changes only in its issue state, as a relation gives. -/
def schedTo (p : Nat) (s : State) (f : Sched → Sched → Prop) (t : State) : Prop :=
  ∀ g, mfind s.groups p = some g → ∃ h, mfind t.groups p = some h ∧ h = { g with sched := h.sched } ∧ f g.sched h.sched

/-- One item of a list taken out of it. -/
def takenAt {α : Type} (l : List α) (n : Nat) (x : α) (rest : List α) : Prop := l[n]? = some x ∧ rest = l.eraseIdx n

/-- A courier's copy that ends without an access to a removed device: the job, its block and what it moved. -/
def copyOf (s : State) (core n : Nat) (out : Bool) : Option (CopyJob × Block × CopyEnd) :=
  match mfind (getCore s core).couriers n with
  | none => none
  | some j =>
    match mfind s.blocks j.blk with
    | none => none
    | some b =>
      let x := getWin b j.win
      let base := blkByte b x.off
      if j.out != out then none
      else
        ((copyAll (.courier core n) (engineWho s j.blk b) x base out j.moved s).filter (fun e => e.cause != some portCause)).map (fun e => (j, b, e))

/-- A copy's end: the window PRESENT, its postmark final, the courier idle (R225 to R229). -/
def CopyDone (core n : Nat) (j : CopyJob) (b : Block) (e : CopyEnd) (t : State) : Prop :=
  (∃ b', mfind t.blocks j.blk = some b' ∧ b' = { b with wins := b'.wins } ∧
    ∀ w, getWin b' w = if w = j.win then { getWin b w with state := .present } else getWin b w) ∧
  mfind (getCore t core).couriers n = none ∧
  ofBytes (readBytes t.spad (blkByte b ((getWin b j.win).off + (getWin b j.win).size - 8)) 8) = (endMark (getWin b j.win) j e).toNat

/-- A TLB entry that the sequencer of partition p may bring into its core's L1 TLB for a row of the instruction at a program
counter (R174): the instruction stands on a path that the stream may take, the row is one of its rows, and a TLB of the core or
its cluster holds the entry and allows the row's access. -/
def AheadEntry (s : State) (p : Nat) (pc : DWord) (row k : Nat) (e : TlbE) : Prop :=
  ∃ y c i a rows len va x e0, mfind s.streams p = some y ∧
    ctxOf (.reservedOpcode 0 0) { agent := .stream p, pc := pc, lanes := 0, word := 0, ext := 0 } s = some c ∧ c.core = k ∧
    pc ∈ pathAhead s c (y.loop.map (·.start)).toList 8 y.pc ∧ (peekInstr s (c.who false) pc).bind rowsAhead = some (i, a, rows, len) ∧
    row < rows ∧ genOf k (rowAddr (c.kreg 0 (kNum i.a)) (c.kreg 0 (kNum i.a + 1)) row) = .global va ∧
    (x = va ∨ x = va + len - 1) ∧ (e0 ∈ (getCore s k).tlb ∨ e0 ∈ (getCluster s (clusterOf k)).tlb) ∧ e = { e0 with count := 0 } ∧
    tlbHit e (c.who false).asid x = true ∧ denyCause s e a (c.who false).user = none

/-- A card of a source has come into its buffer, where the buffer stays below the high-water mark: with its SEQ, TIME and
payload, for each session that receives it (R386, R388, R394, R395). -/
def CardOut (src : Src387) (ty lane slot frank : Nat) (p0 p1 : DWord) (s t : State) : Prop :=
  let b := bufOf s src
  let who := (s.trace.sessions.filter (fun e => receives e.2 ty frank)).map (·.1)
  (getCluster s b).cards.length + 1 < highCards →
    (getCluster t b).cards = (getCluster s b).cards ++ if who = [] then [] else
      [{ card := { d0 := cardHead slot (nextSeq s (srcNum src)) lane frank (srcNum src) ty, d1 := timeReg s.clk, d2 := p0, d3 := p1 }
         who := who, written := false }]

/-- The home of a launch's COMPL is not behind a port whose device has been removed (R442). -/
def markReaches (s : State) (l : Launch) : Prop :=
  ∀ p, frontReach s (getQueue s l.queue).tctx .store ((l.pkt.getD 10 0).toNat % 2 ^ 56) = .inl p →
    goneRun s (physRuns s [⟨p, 8⟩]) = none

/-- A launch's postmark has been stored: at the home of COMPL, where it is now the newest value in the coherence order, or in the
root's order for each replica of its page; with a fault of its page only the fault's record is queued, without COMPL nothing is
(R277, R351). -/
def MarkStored (l : Launch) (v : DWord) (s t : State) : Prop :=
  let a := (l.pkt.getD 10 0).toNat
  let tctx := (getQueue s l.queue).tctx
  if a = 0 then t.mem = s.mem ∧ t.coh = s.coh ∧ t.faults = s.faults
  else
    match frontReach s tctx .store (a % 2 ^ 56) with
    | .inr c => t.mem = s.mem ∧ t.coh = s.coh ∧
        t.faults = { s.faults with pend := s.faults.pend ++ [(6, frontRecord tctx (frankOf l) .store c (a % 2 ^ 56))] }
    | .inl (.phys x _) => t.faults = s.faults ∧ newestVal t x 8 = v.toNat ∧
        (noPrivate s → ∀ b, b < x ∨ x + 8 ≤ b → readByte t.mem b = readByte s.mem b) ∧
        ((∀ n ∈ linesOf x 8, unitQuiet s n) → BytesAfter s.mem t.mem x (toBytes 8 v.toNat))
    | .inl (.repl _ reps off) => t.faults = s.faults ∧ t.mem = s.mem ∧
        t.coh = { s.coh with reps := s.coh.reps ++ reps.map (fun r => (r.1, cellsAt (pkgAddr s r.1 (r.2 + off)) (toBytes 8 v.toNat))) }
    | .inl _ => True

/-- Block i of a launch has been placed: the block with its windows unbound, its scratchpad range zero, its groups and its
stream at their entries with the arguments and the kernel's formats (R21, R95, R122, R126, R130, R355). -/
def Placed (s t : State) (n : Nat) (l : Launch) (i p base : Nat) (r ps : List (Nat × Nat)) (args : List DWord) : Prop :=
  let c := blockCore l i
  (∃ b, mfind t.blocks s.nextId = some b ∧ b.launch = n ∧ b.num = i ∧ b.core = c ∧ b.part = p ∧ b.spBase = base ∧
    b.spSize = 4096 * pktF l 3 56 48 ∧ b.wins = [] ∧ b.areas = ps ∧ b.blkid = blockBlkid l i ∧ b.spawned = false) ∧
  (∀ o, o < 4096 * pktF l 3 56 48 → readByte t.spad (spadKey c (base + o)) = 0) ∧
  (∀ g, g < pktGroups l → ∃ x, mfind t.groups (16 * (4 * c + p) + (freeSlots s (4 * c + p)).getD g 0) = some x ∧
    x.blk = s.nextId ∧ x.vector = pktVec l g ∧ x.live = BitVec.allOnes 32 ∧ x.u.wait = none ∧ x.tr.privMode = l.priv ∧
    (∀ k, k < 32 → mget 0 x.sched.pc k = if pktVec l g then vecEnt l else copyEnt l) ∧
    (∀ k, k < 64 → getK x.u.regs.u k = args.getD k 0) ∧ (∀ k, getKf x.u.regs.u k = mget kfReset l.fmts k) ∧
    ∀ k j, getV x.u.regs.l k j = 0) ∧
  (matEnt l ≠ 0 → ∃ y, mfind t.streams (4 * c + p) = some y ∧ y.blk = s.nextId ∧ y.pc = matEnt l ∧ y.u.wait = none ∧
    ∀ k, k < 64 → getK y.u.regs.u k = args.getD k 0) ∧
  ∃ l', mfind t.mail.launches n = some l' ∧ l' = { withPlaced l i with reserve := r, stuck := l'.stuck }

/-- No line of a launch's arguments carries an error or is blocked by a migration (R289, R376). -/
def argsClear (s : State) (l : Launch) : Prop := argsDead s l = none ∧ argsBlocked s l = false

/-- A saved block has been restored on a partition of its core: its context as it was saved, its groups in the lowest free slots,
no longer saved (R361, R362). -/
def Restored (s t : State) (x : Saved) (p : Nat) : Prop :=
  let c := x.blk.core
  (∃ b, mfind t.blocks x.id = some b ∧ b = { x.blk with part := p, since := s.clk.cyc, low := b.low }) ∧
  (∀ i e, x.groups[i]? = some e → mfind t.groups (16 * (4 * c + p) + (freeSlots s (4 * c + p)).getD i 0) = some e.2) ∧
  (∀ y, x.stream = some y → mfind t.streams (4 * c + p) = some y) ∧ ∀ y ∈ t.mail.saved, y.id ≠ x.id

/-- What a counter set's counter has come to by the events of earlier cycles (R412 to R414): the sum modulo 2^64 with a sticky
OVF; where a cntcfg of the events' cycle has won, the addition is discarded and OVF follows from the value and the event that the
cycle began with. -/
def CounterAdded (due : List CtEvt) (k : Nat) (x y : CtSet) : Prop :=
  let e := ctEvent x k
  let sum := ((due.filter (fun z => z.ev == e)).map (·.n)).foldl (· + ·) 0
  ctEvent y k = e ∧
  (e ≠ 0 → e ≠ 16 →
    ((∀ w, mfind x.wrote k = some w → ∀ z ∈ due, z.cyc ≠ w.cyc) →
      (ctVal y k).toNat = ((ctVal x k).toNat + sum) % 2 ^ 64 ∧
      mget false y.ovf k = (mget false x.ovf k || decide (2 ^ 64 ≤ (ctVal x k).toNat + sum)))) ∧
  ∀ w, mfind x.wrote k = some w → w.ev ≠ 16 → (∀ z ∈ due, z.cyc = w.cyc) →
    ctVal y k = ctVal x k ∧
    mget false y.ovf k = (mget false x.ovf k || decide (2 ^ 64 ≤ w.val.toNat + eventSum due 0 w.ev))

end Sys2Proof.Machine

section

open Sys2Proof Sys2Proof.Machine

/-- ADD, SUB, MUL, MULHI, MAD, MADHI, MIN, MAX, AND, OR, XOR, ANDN, SHL, SHR, SAR, ROT, CLZ, POPC, BREV, BFX, BFI, LEA, SEL,
MOV and MOVK complete: the destination holds the result in each lane whose guard holds, the y registers shift there, the
lanes go past the word, and every other register, every special register, all memory and every other agent are as before
(R30, R36, R133, R140, R142, R143, R145, R146). Addition of B in LEA as a 32-bit pattern is the model's reading (log entry
29). -/
def Obligations.LaneIntegerResults : Prop :=
  ∀ i s c r, Issues i anyProfile s c → intResult c i = some r →
    ∃ t, exec i s = .next t ∧ Completes c s t [] [] (LaneWritten r.ty r.d true r.act r.val) none

/-- ADDC and SUBB complete: the sum or difference with the carry or borrow that pC gives, and the new carry or borrow in pC;
nothing else changes (R140). DIV and REM complete where no lane that executes divides by 0: the quotient toward zero, the
remainder with the sign of the dividend (R141). -/
def Obligations.CarryAndDivisionForms : Prop :=
  (∀ i s c w f, Issues i anyProfile s c → carryResult c i = some (w, f) →
    ∃ t, exec i s = .next t ∧
      Completes c s t [] [] (fun r r' => ∃ m, LaneWritten w.ty w.d true (c.active w.g w.gn) (fun l => patRes w.ty (f l).1) r m ∧
        PredWritten w.c.toNat (c.active w.g w.gn) (fun l => (f l).2) m r') none) ∧
  (∀ i s c w f, Issues i anyProfile s c → divResult i = some (w, f) →
    (∀ l, l < 32 → inMask (c.active w.g w.gn) l = true → c.intB w l ≠ 0) →
    ∃ t, exec i s = .next t ∧
      Completes c s t [] [] (LaneWritten w.ty w.d true (c.active w.g w.gn) (fun l => intRes w (f (c.intA w l) (c.intB w l)))) none)

/-- CMP, FCMP, PAND, POR, PXOR, PNOT, VOTE.ANY and VOTE.ALL complete: pD holds the test in each lane whose guard holds; p7
discards it; nothing else changes (R38, R115, R144, R146, R149). -/
def Obligations.PredicateResults : Prop :=
  ∀ i s c n m f, Issues i anyProfile s c → predResult c i = some (n, m, f) →
    ∃ t, exec i s = .next t ∧ Completes c s t [] [] (PredWritten n m f) none

/-- FADD, FSUB, FMUL, FFMA, FMIN, FMAX, FDIV, FRCP, FRSQ, FSQRT, FEX2, FLG2, FSIN, FCOS, DOT2, HFMA2, CVT.FF, CVT.FI, CVT.IF,
CVT.II, CVTX.UNPACK, PACK2, FCLASS and BSCL complete: each element is the exact value, scaled, rounded once and clamped; CVT.FI
converts a NaN as the launch's COMPAT bit 0 asks; the y registers shift; nothing else changes (R32, R85 to R91, R133, R147, R148,
R150, R151, R422). The transcendental functions are the model's fixed-point ones (log entry 26). -/
def Obligations.LaneFloatResults : Prop :=
  ∀ i s c r, Issues i anyProfile s c → floatResult c s i = some r →
    ∃ t, exec i s = .next t ∧ Completes c s t [] [] (LaneWritten r.ty r.d true r.act r.val) none

/-- CVTX.PACK and QBLK complete: each lane's code, and SEED of the format register they name advances when it rounds by
SR, no other format register changing (R70, R88, R92). -/
def Obligations.PackingForms : Prop :=
  ∀ i s c w f, Issues i anyProfile s c → xfResult c i = some (w, f) →
    ∃ t, exec i s = .next t ∧
      Completes c s t [] [] (fun r r' => ∃ m, LaneWritten .n32 w.d true (c.active w.g w.gn) f r m ∧ r'.l = m.l ∧
        (∀ n, getKf r'.u n = if n = bits w.c.toNat 2 0 ∧ (xfmtOf (getKf r.u n)).rnd = 4 then advanceSeed (getKf r.u n)
          else getKf r.u n) ∧
        (∀ n, getK r'.u n = getK r.u n) ∧ r'.u.kp = r.u.kp ∧ r'.u.lc = r.u.lc ∧ r'.u.lm = r.u.lm ∧ r'.u.kc = r.u.kc) none

/-- A step whose move is the issue of a word (R25, R51, R97): when the path may issue, the words fetched at its program
counter decode to a legal instruction and no rejoin or convergence rule holds it, the step is the meaning of exactly that
instruction on the state in which it stands fetched, and then what every step does besides: waits that are over end, the
clocks advance. A step whose move is an event is that event, on the state whose subject is the event's, and the same besides. -/
def Obligations.StepRunsDecoded : Prop :=
  (∀ s a pc lanes rest c w e eff i more, s.agenda = .issue a pc lanes :: rest →
    ∀ s1, s1 = applyAll (takeSecond a pc lanes (moveState s)) (moveState s) →
    mayIssue s1 a pc lanes = true → fetchCtx s1 a pc lanes = some c → skipping s1 a = false →
    fetchInstr c s1 = .word w e eff →
    decode (bytesOfWord w.toNat ++ (if bit w.toNat 29 then bytesOfWord e.toNat else []) ++ more) = .ok (i, more) →
    heldNow s1 a pc lanes i = false →
    step s =
      match exec i (atWord a pc (goingLanes s1 a lanes i) w e eff s1) with
      | .next t => .next (settleStep (.issue a pc lanes) (takeTick s (.issue a pc lanes)).1 t)
      | .fault f => .fault f
      | .refused r => .refused r) ∧
  (∀ s i subj rest, s.agenda = .event i subj :: rest →
    step s =
      match exec i (applyAll [.subj subj] (moveState s)) with
      | .next t => .next (settleStep (.event i subj) (takeTick s (.event i subj)).1 t)
      | .fault f => .fault f
      | .refused r => .refused r)

/-- A fetched word of code is the one that memory holds at the translated address, or one that it held there before a write
that no icinv has covered since (R429, R431); with no such write it is memory's. -/
def Obligations.FetchReturnsCode : Prop :=
  ∀ c s pc w e eff, fetchOne c s pc = .word w e eff →
    ∀ a, a = codeAddr s (placeAt s (c.who false) pc.toNat) →
      (w = BitVec.ofNat 32 (ofBytes (readBytes s.mem a 4)) ∨ w ∈ mget [] s.coh.stale a) ∧
      (mget [] s.coh.stale a = [] → w = BitVec.ofNat 32 (ofBytes (readBytes s.mem a 4)))

/-- Every legal instruction word is what its own words decode to, with every field at every value the encoding admits
(R24 to R56): no bit of an encoding is dropped. -/
def Obligations.DecodeEncode : Prop :=
  ∀ i rest, i.wf = true → headOf i ≠ .event → (headOf i).tidy = true →
    decode ((encode i).flatMap bytesOfWord ++ rest) = .ok (i, rest)

/-- Words that the spec writes out decode to the instructions they stand for: `lea v8, v2, v5, 3`, `bra` past three words,
`exit`, `shfl.xor v4, v1, 1, p3`, `kret`, `kcwait k3, kc2`, `mfs k15, 0x11`, `sysc 1`. -/
def Obligations.DecodedWords : Prop :=
  decode (bytesOfWord 0x24080205 ++ bytesOfWord 0x03E70000) =
      .ok (.lea { plainLane (.v 8) (.v 2) (.v 5) .n64 with x := true, c := 3 }, []) ∧
    decode (bytesOfWord 0x10700003) = .ok (.bra { s := false, x := false, g := 7, gn := false, disp := 3, e := 0 }, []) ∧
    decode (bytesOfWord 0x31000000 ++ bytesOfWord 0x00E70003) =
      .ok (.exit { plainLane (.v 0) (.v 0) (.v 0) .n64 with x := true }, []) ∧
    decode (bytesOfWord 0x328401C1 ++ bytesOfWord 0x04E10003) =
      .ok (.shflXor { plainLane (.v 4) (.v 1) (.imm 17) .n32 with x := true, c := 4 }, []) ∧
    decode (bytesOfWord 0x85800000) = .ok (.kret { s := false, x := false, d := .k 0, a := .k 0, b := .fld (.k 0), e := 0 }, []) ∧
    decode (bytesOfWord 0x8441C200) = .ok (.kcwait { s := false, x := false, d := .k 3, a := .kc 2, b := .fld (.k 0), e := 0 }, []) ∧
    decode (bytesOfWord 0x98C780D1) = .ok (.mfs { s := false, x := false, d := .k 15, a := .k 0, b := .imm 81, e := 0 }, []) ∧
    decode (bytesOfWord 0x984000C1) = .ok (.sysc { s := false, x := false, d := .k 0, a := .k 0, b := .imm 65, e := 0 }, [])

/-- Memory and scratchpads keep their canonical form, every place stays named once and the fuses stay as manufactured, in
every step from every state that has them so. -/
def Obligations.InvariantKept : Prop := ∀ s t, State.Inv s → step s = .next t → State.Inv t

/-- The state after reset has the invariant. -/
def Obligations.InvariantAtReset : Prop := State.Inv State.reset

/-- After reset the package has TIME 0 and CYC 0, no time reference (ERRNS 0xFFFFFF), no resident group or stream, no block, no
launch, queues, sessions, round regions and fault registers at their reset values, AGELIM 64 and every format register at its
image; PWRSTAT reads 1,050, and PODID 0x1FF before a link has trained. That every byte of memory reads 0 is the model's choice
(log entry 4) (R77, R99, R286, R313, R340, R345, R392, R440, R443). -/
def Obligations.ResetState : Prop :=
  State.reset.clk = { cyc := 0, time := 0, tstat := 0x00FFFFFF, locked := false } ∧
    State.reset.groups = [] ∧ State.reset.streams = [] ∧ State.reset.blocks = [] ∧ State.reset.mail.launches = [] ∧
    (∀ q, getQueue State.reset q = { ctl := 0, tctx := 0, head := 0, tail := 0, work := 0, count := 0 }) ∧
    (∀ n, getSession State.reset n = { ctl := 0, ring := 8, ptr := 0, drop := 0, drops := 0 }) ∧
    (∀ n, getRt State.reset n = { base := 16, cva := 0, ctl := 0x92, cnt := 0 }) ∧
    (∀ c, (getCore State.reset c).agelim = 64) ∧
    State.reset.faults.cfg = 4 ∧ State.reset.faults.ptr = 0 ∧ State.reset.idn.pwrstat = 1050 ∧ State.reset.idn.podid = 0x1FF ∧
    (∀ u n, u = ({} : UFile) → getKf u n = 0x2841C341 ∧ getK u n = 0) ∧ (∀ a, readByte State.reset.mem a = 0)

/-- A register read too early (R47): with no outstanding write to an element its read is its value; otherwise the read is
that value or a value from before one of the outstanding writes, and nothing else. -/
def Obligations.HazardRead : Prop :=
  ∀ u fresh reg lane half,
    ((∀ o ∈ u.outs, outCovers o reg lane = false) → readElem u fresh reg lane half = elem u.regs reg lane half) ∧
    (readElem u fresh reg lane half = elem u.regs reg lane half ∨
      ∃ o ∈ u.outs, outCovers o reg lane = true ∧ readElem u fresh reg lane half = elem o.before reg lane half)

/-- BRA, BRX with word targets, and KBRA complete: each lane whose guard holds, or the released path when the condition
holds, goes to the target and every other issuing lane past the word; no register, no stack, no other agent and nothing
else changes (R109, R110, R114). -/
def Obligations.BranchForms : Prop :=
  ∀ i s c f, Issues i anyProfile s c → branchResult c i = some f →
    ∃ t, exec i s = .next t ∧ Completes c s t [] [] RegsKept f

/-- CALL, CALLX and KCALL complete where no lane that moves has 16 return addresses: those lanes go to the target with
the address past the word on their stack, the others past the word with their stacks as they were. RET and KRET complete where
no lane that moves has an empty stack: each goes to the address it pops. Nothing else changes (R109 to R111, R114). -/
def Obligations.CallAndReturnForms : Prop :=
  (∀ i s c m f, Issues i anyProfile s c → callResult c i = some (m, f) →
    (∀ l ∈ lanesOf m, (stackOf c s l).length < 16) →
    ∃ t, exec i s = .next t ∧
      Completes c s t [] [.rs] RegsKept (some (fun l => if inMask m l then f l else c.next)) ∧
      ∀ l, l < 32 → (c.strm = false ∨ l = 0) →
        stackOf c t l = if inMask m l && (c.strm || inMask c.lanes l) then c.next :: stackOf c s l else stackOf c s l) ∧
  (∀ i s c m, Issues i anyProfile s c → returnLanes c i = some m →
    (∀ l ∈ lanesOf m, stackOf c s l ≠ []) →
    ∃ t, exec i s = .next t ∧
      Completes c s t [] [.rs] RegsKept (some (fun l => if inMask m l then (stackOf c s l).headD 0 else c.next)) ∧
      ∀ l, l < 32 → (c.strm = false ∨ l = 0) →
        stackOf c t l = if inMask m l && (c.strm || inMask c.lanes l) then (stackOf c s l).tail else stackOf c s l)

/-- EXIT completes: the lanes whose guard holds are live no longer, with the last one the group is ending, and nothing else
changes. YIELD completes: its group is held back until the others have been offered a turn, the age of its path is 0, that of
every lane of another candidate path at least AGELIM - 1; nothing else changes. BRK of a group with a lane whose guard holds takes
its trap: BREAK, TRAPADDR the code, RETRY 0, to the system handler at STVEC (R110, R113, R124, R369 to R371). -/
def Obligations.ExitAndYieldForms : Prop :=
  (∀ w s c, Issues (.exit w) anyProfile s c →
    ∃ t, exec (.exit w) s = .next t ∧ Completes c s t [] [.live] RegsKept none ∧
      ∀ g, mfind s.groups c.key = some g → ∃ h, mfind t.groups c.key = some h ∧
        h.live = g.live &&& ~~~(c.active w.g w.gn) ∧ (h.ending = true ↔ g.ending = true ∨ h.live = 0)) ∧
  (∀ w s c, Issues (.yield w) anyProfile s c → c.active w.g w.gn ≠ 0 →
    ∃ t, exec (.yield w) s = .next t ∧ Completes c s t [] [] RegsKept none ∧
      ∀ g, mfind s.groups c.key = some g → ∃ h, mfind t.groups c.key = some h ∧ h.sched.yielded = true ∧
        (∀ l, l < 32 → inMask c.lanes l = true → mget 0 h.sched.age l = 0) ∧
        (∀ p ∈ candidatesOf s c.key g, p.1 ≠ c.pc → ∀ l ∈ lanesOf p.2, inMask c.lanes l = false →
          ageLimit s c.core - 1 ≤ mget 0 h.sched.age l)) ∧
  (∀ w s c n addr lane, Issues (.brk w) anyProfile s c → trapRoom s c = true → c.strm = false →
    trapForm c (.brk w) = some (n, addr, lane) → ∀ g, mfind s.groups c.key = some g → g.tr.bankS.active = false →
      trapTo g s.idn.stvec n addr = { sys := true, vec := s.idn.stvec, cause := n, addr := addr, retry := false } ∧
      ∃ t, exec (.brk w) s = .next t ∧ ∃ h, mfind t.groups c.key = some h ∧ Trapped c s t n addr lane g h)

/-- NOP, the other hints, REJOIN, BRK without a lane whose guard holds, NAP whose time has come, FENCE when the accesses it
orders are performed (lane and group scope order nothing), and KCALL whose condition fails complete: every lane goes past
the word, no register and nothing else changes (R55, R110, R112, R114, R298, R299, R343). -/
def Obligations.QuietForms : Prop :=
  ∀ i s c, Issues i anyProfile s c → quiet c s i = true →
    ∃ t, exec i s = .next t ∧ Completes c s t [] [] RegsKept none

/-- TRAP and SYSC raise cause 16 and 17 with the code, sign-extended, in TRAPADDR: a group goes to the system handler at STVEC with
RETRY 0, a stream, which may issue TRAP alone, parks with the trap kept for its host group, which goes there too (R382). -/
def Obligations.TrapForms : Prop :=
  ∀ i s c n w, Issues i anyProfile s c → trapRoom s c = true → (i = .trap w ∧ n = 16 ∨ i = .sysc w ∧ n = 17) →
    ∀ addr, addr = BitVec.ofNat 64 (c.ubI w) →
      (∀ g, trapTo g s.idn.stvec n addr = { sys := true, vec := s.idn.stvec, cause := n, addr := addr, retry := false }) ∧
      (c.strm = false → ∀ g, mfind s.groups c.key = some g → g.tr.bankS.active = false →
        ∃ t, exec i s = .next t ∧ ∃ h, mfind t.groups c.key = some h ∧ Trapped c s t n addr (lowest c.live) g h) ∧
      (c.strm = true → (hostGroup s c.blkId).isSome = true → ∃ t, exec i s = .next t ∧ StreamParked c s t n addr)

/-- A reserved opcode raises ILL: TRAPADDR holds the words, TRAPPC their address, and eret would issue them again (R51, R52,
R370). -/
def Obligations.ReservedOpcodeTraps : Prop :=
  ∀ w e s c, ctxHere (.reservedOpcode w e) s = some c → c.strm = false → trapRoom s c = true →
    ∀ g, mfind s.groups c.key = some g → g.tr.bankS.active = false →
      ∃ t, exec (.reservedOpcode w e) s = .next t ∧ ∃ h, mfind t.groups c.key = some h ∧
        Trapped c s t 1 c.words (if isUniform c.i then lowest c.live else lowest c.lanes) g h

/-- The stream takes no handler of its own: its precise traps, among them ILL, RECORD and PERM, park it, with the trap kept for
the host group (R374). A precise trap of a stream whose block has no live group, and one of a group while bank S is active, is the
machine check NEST: MCSTAT holds it and the launch is killed with code 20 (R369, R374, R377). -/
def Obligations.StreamTraps : Prop :=
  (∀ i s c n addr, reaches i s c → c.strm = true → trapRoom s c = true → preciseTrap c s i = some (n, addr) →
    (hostGroup s c.blkId).isSome = true → ∃ t, exec i s = .next t ∧ StreamParked c s t n addr) ∧
  (∀ i s c n addr, reaches i s c → trapRoom s c = true → preciseTrap c s i = some (n, addr) →
    (if c.strm then (hostGroup s c.blkId).isNone = true
     else ∃ g, mfind s.groups c.key = some g ∧ g.tr.bankS.active = true) →
    c.l.dying = none → noStall s →
    ∃ t, exec i s = .next t ∧ t.idn = { s.idn with mcstat := mcWith s.idn.mcstat 20 11 c.core } ∧ Killed s t c.launch c.l 2 20 ∧
      ∀ q, q ≠ c.launch → mfind t.mail.launches q = mfind s.mail.launches q)

/-- ERET in a handler completes it: its lanes return to the addresses they were held at, those of the trapping path to
TRAPPC when RETRY is 1 and past the word when it is 0; the bank of the level becomes inactive; no register of the group
changes. The handler of a stream trap resumes the stream too, at the trapping word when RETRY is 1 (R374, R375). -/
def Obligations.EretReturns : Prop :=
  ∀ w s c, Issues (.eret w) anyProfile s c → c.strm = false →
    ∀ g f rest, mfind s.groups c.key = some g → g.tr.frames = f :: rest →
      ∃ t, exec (.eret w) s = .next t ∧ Same (cardParts c s) s t ∧
        (∀ q, q ≠ c.key → mfind t.groups q = mfind s.groups q) ∧ (f.strm = false → t.streams = s.streams) ∧
        (f.strm = true → ∀ p x, streamOfBlk s g.blk = some (p, x) → ∃ y, mfind t.streams p = some y ∧ y.trap = none ∧
          y.u.wait = none ∧ y.u.regs = x.u.regs ∧
          (bit (if f.sys then g.tr.bankS else g.tr.bankU).cause.toNat 14 = true → y.pc = f.pc)) ∧
        ∃ h, mfind t.groups c.key = some h ∧ h.u.regs = g.u.regs ∧ h.tr.frames = rest ∧ h.live = g.live ∧
          (if f.sys then h.tr.bankS.active = false ∧ h.tr.bankU = g.tr.bankU
            else h.tr.bankU.active = false ∧ h.tr.bankS = g.tr.bankS) ∧
          ∀ l, l < 32 → mget 0 h.sched.pc l =
            if inMask (f.lanes &&& g.live) l then
              (if inMask f.trap l then
                (if bit (if f.sys then g.tr.bankS else g.tr.bankU).cause.toNat 14 then f.pc else f.next)
               else mget 0 f.held l)
            else mget 0 g.sched.pc l

/-- DIV and REM with a divisor of 0 in a lane that executes raise DIVZ precisely: no lane's register changes, TRAPPC is the
word's address, TRAPADDR 0, TRAPLANE the lowest such lane (R141). -/
def Obligations.DivisionByZeroTraps : Prop :=
  ∀ i s c w f l, Issues i anyProfile s c → c.strm = false → trapRoom s c = true → divResult i = some (w, f) →
    l < 32 → inMask (c.active w.g w.gn) l = true → c.intB w l = 0 →
    (∀ k, k < l → inMask (c.active w.g w.gn) k = true → c.intB w k ≠ 0) →
    ∀ g, mfind s.groups c.key = some g → g.tr.bankS.active = false →
      (trapTo g s.idn.stvec 12 0).sys = true ∧
      ∃ t, exec i s = .next t ∧ ∃ h, mfind t.groups c.key = some h ∧ Trapped c s t 12 0 l g h

/-- SHFL.IDX, UP, DN and XOR complete: each participating lane receives its source lane's value, and its validity in the
predicate that C names, if any; nothing else changes (R107, R108, R117, R422). -/
def Obligations.ShuffleForms : Prop :=
  ∀ i s c w f, Issues i anyProfile s c → shflFrom i = some (w, f) →
    ∃ t, exec i s = .next t ∧
      Completes c s t [] [] (fun r r' => ∃ m,
        LaneWritten w.ty w.d true (c.active w.g w.gn)
          (fun l => patRes w.ty (shflValue c s w l (f l (c.src 1 .n32 w.b l))).1) r m ∧
        if w.c = 0 then r' = m
        else PredWritten (w.c.toNat - 1) (c.active w.g w.gn)
          (fun l => (shflValue c s w l (f l (c.src 1 .n32 w.b l))).2) m r') none

/-- VOTE.BAL, REDUX, SCAN, MATCH, SPT, SPC of addresses it accepts, and MTOV of legal tiles complete with their results, the
combination in the order of R84; the y registers shift; nothing else changes (R84, R107, R116, R118, R119, R193, R254). -/
def Obligations.CollectiveResults : Prop :=
  ∀ i s c r, Issues i anyProfile s c → collResult c i = some r →
    ∃ t, exec i s = .next t ∧ Completes c s t [] [] (LaneWritten r.ty r.d true r.act r.val) none

/-- KADD, KSUB, KMUL, KAND, KOR, KXOR, KSHL, KSHR, KMIN, KMAX, KSEL, KMOV, KMOVI, KFMT.GET, RDTIME, RDCYC, MFS of a register its
mode may read, CNTRD of a legal selection, WSTAT of a window of the block and of the register, BAR.GEN, BAR.WAIT and
MBAR.WAIT when the generation arrived in has completed, RING.WAIT when its side has a slot, MROW and SSTAT without an operation
to wait for complete: kD holds the value mod 2^64 and nothing else changes (R152, R154, R196, R199, R212, R242, R245, R333,
R337, R342, R379, R415). -/
def Obligations.UniformResults : Prop :=
  ∀ i s c d v, Issues i anyProfile s c → uniResult c s i = some (d, v) →
    ∃ t, exec i s = .next t ∧ Completes c s t [] [] (KWritten d v) none

/-- KCMP, LCSET, LCSTEP, KCSET and the three KFMT.SET forms with an image that R78 allows complete: they write the one file
they name as their rules give it, a loop counter always below its size, and nothing else changes; KCWAIT on a count of 0
completes with the status word in kD, which is cleared (R78, R93, R134, R153, R155, R156). -/
def Obligations.UniformFileForms : Prop :=
  ∀ i s c f, Issues i anyProfile s c → uniFiles c i = some f →
    ∃ t, exec i s = .next t ∧ Completes c s t [] [] f none

/-- KFMT.SET with an image that R78 forbids raises RECORD precisely, TRAPADDR holding the rejected image, and leaves every
format register unchanged (R93). -/
def Obligations.KfmtRejects : Prop :=
  ∀ i s c img, Issues i anyProfile s c → trapRoom s c = true → c.strm = false → kfmtImage c i = some img → kfValid img = false →
    ∀ g, mfind s.groups c.key = some g → g.tr.bankS.active = false →
      ∃ t, exec i s = .next t ∧ ∃ h, mfind t.groups c.key = some h ∧ Trapped c s t 7 img (lowest c.live) g h

/-- A generation completes with the last arrival of its members, whatever their order and in whatever cycles, and not before: it
rises by 1 mod 65536 with the mark as its flag, and no party counts as arrived (R331). -/
def Obligations.GenerationCompletesOnce : Prop :=
  ∀ key (b : Bar) (l : List (Nat × Nat)), b.arrived = [] → b.joins = [] → b.early = [] → b.leaves = [] → b.members ≠ [] →
    (l.map (·.2)).Perm b.members → (l.map (·.2)).Nodup → (∀ e ∈ l, e.1 ≠ b.now.cyc) →
    (l.foldl (fun x e => barArrived e.1 key e.2 x) b).gen = (b.gen + 1) % 65536 ∧
    (l.foldl (fun x e => barArrived e.1 key e.2 x) b).arrived = [] ∧
    (l.foldl (fun x e => barArrived e.1 key e.2 x) b).flag = b.mark ∧
    ∀ n, n < l.length → ((l.take n).foldl (fun x e => barArrived e.1 key e.2 x) b).gen = b.gen ∧
      ((l.take n).foldl (fun x e => barArrived e.1 key e.2 x) b).arrived = (l.take n).map (·.2)

/-- BAR.JOIN completes with its status and makes its party a member at once, or when the generation in progress completes;
BAR.LEAVE of a party that has arrived completes and takes effect with the generation, of one that is no member it has none
(R334, R337). -/
def Obligations.BarrierMembership : Prop :=
  ∀ i s c f key b, Issues i anyProfile s c → membership c s i = some (f, key, b) →
    ∃ t, exec i s = .next t ∧ Completes c s t [.bars] [] f none ∧ barAt t c.blkId key = b ∧
      ∀ k, k ≠ key → barAt t c.blkId k = barAt s c.blkId k

/-- LREC, LREC.TAP of a bound image window, and WBIND of a record without a code complete: LREC writes the dwords of the
staging record that it names, LREC.TAP the next tap, WBIND binds the window PRESENT at its range with the staging record and
the format it selects; every other window and everything else is as before (R224, R234 to R236). -/
def Obligations.WindowRecording : Prop :=
  ∀ i s c n f, Issues i anyProfile s c → windowForm c i = some (n, f) →
    ∃ t, exec i s = .next t ∧ Completes c s t [.blocks] [] RegsKept none ∧ BlockAfter c s t (onlyWin n f) noneOf

/-- WUNBIND completes: an UNBOUND window stays so; a PRESENT or ABSENT one becomes UNBOUND and leaves every group's armed set;
nothing else changes (R225, R237, R241). -/
def Obligations.WindowUnbind : Prop :=
  ∀ w s c b x, Issues (.wunbind w) anyProfile s c → sortedKeys s.groups = true → mfind s.blocks c.blkId = some b → c.ub w < b.winN → getWin b (c.ub w) = x →
    (x.state = .present ∨ x.state = .absent ∨ x.state = .unbound) → c.blk = b → c.strm = false →
    ∃ t, exec (.wunbind w) s = .next t ∧ Same (cardParts c s ++ [.blocks]) s t ∧ t.streams = s.streams ∧
      BlockAfter c s t (onlyWin (c.ub w) (fun x x' => x' = { x with state := .unbound })) noneOf ∧
      (∀ q g, mfind s.groups q = some g → ∃ h, mfind t.groups q = some h ∧
        (∀ m, mfind h.armed m = if g.blk = c.blkId ∧ m = c.ub w ∧ x.state ≠ .unbound then none else mfind g.armed m) ∧
        (q ≠ c.key → h = { g with armed := h.armed })) ∧
      ∃ g h, mfind s.groups c.key = some g ∧ mfind t.groups c.key = some h ∧
        GroupAfter c [.armed] RegsKept (fun _ => c.next) g h

/-- WSTAT.CLR returns the group's WSTAT and clears it; PMARM of a bound window arms it with its SEQ; PMWAIT with no armed
window returns 0, with one whose postmark is final or carries another SEQ the postmark of the lowest such, which it disarms
(R241, R242). -/
def Obligations.PostmarkForms : Prop :=
  (∀ w s c, Issues (.wstatClr w) anyProfile s c →
    ∃ t, exec (.wstatClr w) s = .next t ∧ Completes c s t [] [.wstat] (KWritten w.d c.u.wstat.toNat) none ∧
      ∀ y, partyOf t c.iss.agent = some y → y.u.wstat = 0) ∧
  (∀ w s c g, Issues (.pmarm w) anyProfile s c → c.ub w < c.blk.winN → (getWin c.blk (c.ub w)).state ≠ .unbound →
    c.strm = false → mfind s.groups c.key = some g →
    ∃ t, exec (.pmarm w) s = .next t ∧ Completes c s t [] [.armed] RegsKept none ∧ ∃ h, mfind t.groups c.key = some h ∧
      ∀ m, mfind h.armed m = if m = c.ub w then some (getWin c.blk (c.ub w)).seq else mfind g.armed m) ∧
  (∀ w s c g, Issues (.pmwait w) anyProfile s c → c.strm = false → mfind s.groups c.key = some g → g.armed = [] →
    ∃ t, exec (.pmwait w) s = .next t ∧ Completes c s t [] [] (KWritten w.d 0) none) ∧
  (∀ w s c g n v, Issues (.pmwait w) anyProfile s c → c.strm = false → mfind s.groups c.key = some g → g.armed ≠ [] →
    pmReady s g = some (n, v) →
    ∃ t, exec (.pmwait w) s = .next t ∧ Completes c s t [] [.armed] (KWritten w.d v.toNat) none ∧
      ∃ h, mfind t.groups c.key = some h ∧ ∀ m, mfind h.armed m = if m = n then none else mfind g.armed m)

/-- BAR.ARR, BAR.LEAVE of a member that has not arrived, and MBAR.ARR complete without waiting: the arrival is recorded at
once where everything before it is done, its generation is one that the cycle began with (log entry 71) and no card of the
checker waits for room, and is pending with the masks and its place in the order otherwise; a pending joiner's counts for the generation it joins; no register and no
barrier but the named one's parts change. BAR.SYNC of the member whose arrival completes the generation does not park: kD
receives the word of the barrier after it (R196, R331, R337). -/
def Obligations.BarrierArrivals : Prop :=
  (∀ i s c key rel live b x, Issues i anyProfile s c → arrivalForm c s i = some (key, rel, live, b) →
    partyOf s c.iss.agent = some x → hasArrived s x key = false → (∀ w, i = .barLeave w → arrivedYet s x key = false) →
    x.u.pend = [] → noStall s →
    ∃ t, exec i s = .next t ∧
      Completes c s t [.blocks, .bars, .trace, .clusters] [.pend, .arrived] RegsKept none ∧
      (∀ k, k ≠ key → barAt t c.blkId k = barAt s c.blkId k) ∧
      if earlierDone s x s.nextId (barScope key) ∧ mayReach c.cyc x.id b = true then
        barAt t c.blkId key = barArrived c.cyc key x.id b ∧ ∃ y, partyOf t c.iss.agent = some y ∧ y.u.pend = [] ∧
          mfind y.u.arrived key = some (arrivalGen c.cyc x.id b)
      else
        barAt t c.blkId key = b ∧ ∃ y, partyOf t c.iss.agent = some y ∧
          y.u.pend = [{ kind := .arrive key rel live, after := s.nextId }] ∧ y.u.arrived = x.u.arrived) ∧
  (∀ w s c key x n, Issues (.barSync w) anyProfile s c → barKeyOf c.core (c.ua w) = some key →
    divergeTraps c = false → partyOf s c.iss.agent = some x → hasArrived s x key = false → x.u.pend = [] → noStall s →
    earlierDone s x s.nextId (barScope key) = true → mayReach c.cyc x.id (barAt s c.blkId key) = true →
    n = nowAt c.cyc (barAt s c.blkId key) → x.id ∈ n.base.members → x.id ∉ n.base.early →
    barCompletes key { n with arrs := n.arrs ++ [x.id] } = true →
    ∃ t, exec (.barSync w) s = .next t ∧
      Completes c s t [.blocks, .bars, .trace, .clusters] [.pend, .arrived]
        (KWritten w.d (barWord (barArrived c.cyc key x.id (barAt s c.blkId key))).toNat) none ∧
      barAt t c.blkId key = barArrived c.cyc key x.id (barAt s c.blkId key))

/-- WABS of a bound PRESENT or ABSENT window completes: the window is ABSENT with the origin that kA to kA+2 give, SEQ one
higher and the tap that lrec.tap left; its postmark is written running with that SEQ. WPOST of a PRESENT window of a plain
box completes: COPYOUT with SEQ one higher, its postmark running, its copy in the core's queue, those of one cycle by partition
and slot. WTOUCH of a bound window completes: an ABSENT window becomes COPYIN with its copy queued and a promise, a RUNAHEAD one
COPYIN with a promise, any other stays; kD receives the promise of a COPYIN window and 0 of any other (R225, R229 to R231, R238
to R240). -/
def Obligations.WindowForks : Prop :=
  ((∀ w s c b x, Issues (.wabs w) anyProfile s c → mfind s.blocks c.blkId = some b → c.ub w < b.winN → getWin b (c.ub w) = x →
    (x.state = .present ∨ x.state = .absent) →
    ¬(layXf x.layout = true ∧ (c.kreg 0 (kNum w.a) % 2 ^ 32) % (xfmtOf x.fmt).blen ≠ 0) →
    ∃ t, exec (.wabs w) s = .next t ∧ Completes c s t [.blocks, .spad] [] RegsKept none ∧
      BlockAfter c s t (onlyWin (c.ub w) (fun x x' => x' = { x with
        state := .absent, ctap := x.tap, seq := (x.seq + 1) % 65536, uid := c.uid, after := s.nextId
        org := [c.kreg 0 (kNum w.a) % 2 ^ 32, c.kreg 0 (kNum w.a) / 2 ^ 32, c.kreg 0 (kNum w.a + 1) % 2 ^ 32,
          c.kreg 0 (kNum w.a + 1) / 2 ^ 32, c.kreg 0 (kNum w.a + 2) % 2 ^ 32] })) noneOf ∧
      SpadAfter s t (blkByte b (x.off + x.size - 8)) 1 (fun _ => postmark ((x.seq + 1) % 65536) 0 0 0 0 0 0)) ∧
  (∀ w s c b x, Issues (.wpost w) anyProfile s c → mfind s.blocks c.blkId = some b → c.ub w < b.winN → getWin b (c.ub w) = x →
    x.state = .present → layImg x.layout = false → layDec x.layout = false →
    ∃ t, exec (.wpost w) s = .next t ∧ Completes c s t [.blocks, .spad, .cores] [] RegsKept none ∧
      BlockAfter c s t (onlyWin (c.ub w) (fun x x' => x' = { x with
        state := .copyout, seq := (x.seq + 1) % 65536, uid := c.uid, after := s.nextId })) noneOf ∧
      SpadAfter s t (blkByte b (x.off + x.size - 8)) 1 (fun _ => postmark ((x.seq + 1) % 65536) 0 0 0 0 0 0) ∧
      CopyQueued { blk := c.blkId, win := c.ub w, out := true, ra := false, uid := c.uid, after := s.nextId, cyc := s.clk.cyc
                   part := c.part, slot := c.slot } (getCore s c.core).copyq (getCore t c.core).copyq)) ∧
  (∀ w s c b x, Issues (.wtouch w) anyProfile s c → mfind s.blocks c.blkId = some b → b = c.blk → c.ub w < b.winN →
    getWin b (c.ub w) = x → x.state ≠ .unbound →
    let p := promiseOf s b.core x
    ∃ t, exec (.wtouch w) s = .next t ∧
      Completes c s t [.blocks, .cores] [] (KWritten w.d (match x.state with
        | .absent => p
        | .runahead => p
        | .copyin => x.prom
        | _ => 0)) none ∧
      BlockAfter c s t (onlyWin (c.ub w) (fun x x' =>
        x' = if x.state = .absent ∨ x.state = .runahead then { x with state := .copyin, prom := p } else x)) noneOf ∧
      (if x.state = .absent then
        CopyQueued { blk := c.blkId, win := c.ub w, out := false, ra := false, uid := x.uid, after := x.after, cyc := s.clk.cyc
                     part := c.part, slot := c.slot } (getCore s b.core).copyq (getCore t b.core).copyq
       else (getCore t b.core).copyq = (getCore s b.core).copyq))

/-- RING.INIT of a legal range completes: the headers hold 0 and the counts are 0, and pending releases of that ring are
forgotten. RING.GET of a full slot completes: kD receives its tag and number and the count of acquires rises. RING.PUT with a
free slot takes it, and RING.PUT.FREE of an acquired slot is counted, both without waiting: recorded at once where everything
before them is done (the put's header receives the tag with its full bit turned and the publishes rise, the free's header its
free bit turned and the frees rise), else pending; no register changes (R243 to R246). That RING.INIT forgets the ring's pending
releases, that pending frees count in RING.PUT.FREE's test, the counts modulo 2^32 and the order of recording are the model's
reading (log entry 58). -/
def Obligations.RingForms : Prop :=
  ((∀ w s c b, Issues (.ringInit w) anyProfile s c → sortedKeys s.groups = true → mfind s.blocks c.blkId = some b → b = c.blk → c.ua w % 8 = 0 →
    c.ua w + 8 * (fs w 5 0 + 1) ≤ b.spSize →
    ∃ t, exec (.ringInit w) s = .next t ∧ Same (cardParts c s ++ [.blocks, .spad]) s t ∧
      BlockAfter c s t noneOf (onlyRing (fs w 8 6) { base := c.ua w, ns := fs w 5 0 + 1 }) ∧
      SpadAfter s t (blkByte b (c.ua w)) (fs w 5 0 + 1) (fun _ => 0) ∧
      (∀ q g, q ≠ c.key ∨ c.strm = true → mfind s.groups q = some g → ∃ h, mfind t.groups q = some h ∧
        h = { g with u := { g.u with pend := h.u.pend } } ∧
        h.u.pend = if g.blk = c.blkId then g.u.pend.filter (fun p => pendRing p ≠ some (fs w 8 6)) else g.u.pend) ∧
      (c.strm = false → ∃ g h, mfind s.groups c.key = some g ∧ mfind t.groups c.key = some h ∧
        GroupAfter c [.pend] RegsKept (fun _ => c.next) g h)) ∧
  (∀ w s c b r, Issues (.ringGet w) anyProfile s c → mfind s.blocks c.blkId = some b → mfind b.rings (ringNum w) = some r →
    countDiff r.p r.a ≠ 0 →
    ∃ t, exec (.ringGet w) s = .next t ∧
      Completes c s t [.blocks] []
        (KWritten w.d ((ringHeader s b r (r.a % r.ns)).toNat / 2 ^ 32 * 2 ^ 32 + r.a % r.ns)) none ∧
      BlockAfter c s t noneOf (onlyRing (ringNum w) { r with a := (r.a + 1) % 2 ^ 32 }))) ∧
  ((∀ w s c b r x, Issues (.ringPut w) anyProfile s c → mfind s.blocks c.blkId = some b → mfind b.rings (ringNum w) = some r →
    countDiff r.pr r.f < r.ns → partyOf s c.iss.agent = some x → x.u.pend = [] →
    let p : Pend := { kind := .put (ringNum w) (r.pr % r.ns) (BitVec.ofNat 32 (c.ub w)), after := s.nextId }
    let hdr := ringHeader s b r (r.pr % r.ns)
    ∃ t, exec (.ringPut w) s = .next t ∧ Completes c s t [.blocks, .spad] [.pend] RegsKept none ∧
      if earlierDone s x s.nextId 3 ∧ r.pr % r.ns = r.p % r.ns then
        BlockAfter c s t noneOf (onlyRing (ringNum w) { r with pr := (r.pr + 1) % 2 ^ 32, p := (r.p + 1) % 2 ^ 32 }) ∧
        SpadAfter s t (blkByte b (r.base + 8 * (r.pr % r.ns))) 1
          (fun _ => headerOf (c.ub w) (!bit hdr.toNat 0) (bit hdr.toNat 1))
      else
        BlockAfter c s t noneOf (onlyRing (ringNum w) { r with pr := (r.pr + 1) % 2 ^ 32 }) ∧ t.spad = s.spad ∧
        ∀ y, partyOf t c.iss.agent = some y → y.u.pend = [p]) ∧
  (∀ w s c b r x, Issues (.ringPutFree w) anyProfile s c → mfind s.blocks c.blkId = some b → mfind b.rings (ringNum w) = some r →
    pendingFrees s c.blkId (ringNum w) < countDiff r.a r.f → partyOf s c.iss.agent = some x → x.u.pend = [] →
    let p : Pend := { kind := .putFree (ringNum w), after := s.nextId }
    let hdr := ringHeader s b r (r.f % r.ns)
    ∃ t, exec (.ringPutFree w) s = .next t ∧ Completes c s t [.blocks, .spad] [.pend] RegsKept none ∧
      if earlierDone s x s.nextId 3 then
        BlockAfter c s t noneOf (onlyRing (ringNum w) { r with f := (r.f + 1) % 2 ^ 32 }) ∧
        SpadAfter s t (blkByte b (r.base + 8 * (r.f % r.ns))) 1
          (fun _ => headerOf (hdr.toNat / 2 ^ 32) (bit hdr.toNat 0) (!bit hdr.toNat 1))
      else t.blocks = s.blocks ∧ t.spad = s.spad ∧ ∀ y, partyOf t c.iss.agent = some y → y.u.pend = [p]))

/-- LD and KLD whose accesses pass the checks complete: each participating lane, or kD, receives the value read (its group's
newest queued store, else the copy or the home that R261 and R307 give), a lane that does not participate keeps its register;
no byte of the scratchpad changes, and no byte of memory but by a merge of privatised copies (R261, R265, R268). -/
def Obligations.LoadForms : Prop :=
  ∀ i s c x at_ eff vs, Issues i anyProfile s c → loadCase c i = some x → loadPasses c s x at_ eff vs →
    ∃ t, exec i s = .next t ∧
      Completes c s t [.mem, .cores, .clusters, .faults, .coh] [.floors, .ovf] (x.regs vs) none ∧
      (noPrivate s → t.mem = s.mem)

/-- LDB completes like a load where no miss of it waits for a push: each participating lane receives its bounded value; the
watches of its group end; no register else and no byte of the scratchpad changes (R320 to R324). -/
def Obligations.BoundedLoadForm : Prop :=
  ∀ w s c x at_ eff vs, Issues (.ldb w) anyProfile s c →
    x = { who := c.who true, n := tyBytes w.ty, rs := reqsOf (c.active w.g w.gn) (c.ea w), mode := {}, late := some c.firstCyc, regs := fun _ _ _ => True : LoadCase } →
    loadPasses c s x at_ eff vs → noWatch c (readState c s at_ eff) w.q.toNat x.rs at_ →
    ∃ t, exec (.ldb w) s = .next t ∧
      Completes c s t [.mem, .cores, .clusters, .faults, .coh] []
        (LaneWritten w.ty w.d false (c.active w.g w.gn) (fun l => movePat w.ty (valAt
          ((at_.zip x.rs).map (fun e => (e.1.1, boundedValue c (readState c s at_ eff) w.q.toNat e))) l))) none ∧
      (noPrivate s → t.mem = s.mem) ∧ ∀ e ∈ t.coh.watches, e.uid ≠ c.uid

/-- What a load reads of bytes that its own group's newest queued store covers is that store's data, whatever stands in memory
(R261). -/
def Obligations.StoreForwarded : Prop :=
  ∀ s core sq id rel frank it useL1 root, (keysOf it.pieces).Nodup →
    loadPieces s core (sq ++ [{ id := id, kind := .store, rel := rel, items := [it], frank := frank }]) useL1 root it.pieces =
      .inl (toBytes (keysOf it.pieces).length it.data.toNat)

/-- ST, KST, ATOM, CAS and KATOM complete with room in the store queue: their accesses with their data stand at its end, with the
scope of their release and their acquire order; no byte of memory or scratchpad changes yet, no register changes (an
atomic's result lands when it performs) and nothing else (R261, R264 to R269, R299). -/
def Obligations.StoreForms : Prop :=
  ∀ i s c x at_ eff, Issues i anyProfile s c → c.strm = false → storeCase c i = some x → storePasses s x at_ eff →
    c.sq.length < 32 →
    ∃ t, exec i s = .next t ∧ Completes c s t [.cores, .clusters, .faults] [.sq] RegsKept none ∧
      ∀ g, mfind s.groups c.key = some g → ∃ h, mfind t.groups c.key = some h ∧
        h.sq = g.sq ++ [{ id := s.nextId, kind := x.kind, rel := x.rel, items := storeItems x at_, frank := c.frank
                          acq := decide (x.sem = 1 ∨ x.sem = 3) }]

/-- PRF, IPREF, CINV and CWB of ranges they accept, and ICINV of one when earlier writes are performed, complete: no register
changes, and no byte of memory but by a merge of privatised copies. After CINV the core holds no copy of a line of the range's
pages, after ICINV no instruction cache holds one of its lines, and CWB stands in the store queue with the lines that are on
their way home (R267, R271, R429 to R431). -/
def Obligations.CacheForms : Prop :=
  ∀ i s c xs, Issues i anyProfile s c → c.strm = false → cacheForm c s i = some xs →
    ∃ t, exec i s = .next t ∧ Completes c s t xs [.sq] RegsKept none ∧ (noPrivate s → t.mem = s.mem) ∧
      (∀ w, i = .cinv w → ∀ e ∈ (getCore t c.core).l1,
        meetsRange s (pagesIn s c.blk.tctx (c.ua w) (c.ua w + c.ub w)) (c.ua w) (c.ua w + c.ub w) (e.1 * 128) 128 = false) ∧
      (∀ w, i = .icinv w → 0 < c.ub w → sortedKeys s.cores = true → ∀ e ∈ t.cores, ∀ x ∈ e.2.icache,
        meetsRange s (pagesIn s c.blk.tctx (c.ua w / 128 * 128) ((c.ua w + c.ub w + 127) / 128 * 128)) (c.ua w / 128 * 128)
          ((c.ua w + c.ub w + 127) / 128 * 128) (x.1 * 128) 128 = false) ∧
      ∀ g h, mfind s.groups c.key = some g → mfind t.groups c.key = some h →
        match i with
        | .cwb w => h.sq = g.sq ++ [{ id := s.nextId, kind := .writeBack (dirtyLines s c
            (pagesIn s c.blk.tctx (c.ua w) (c.ua w + c.ub w)) (c.ua w) (c.ua w + c.ub w)), rel := 0, items := [], frank := c.frank }]
        | _ => h.sq = g.sq

/-- MON.ARM keeps the address and the value read in the slot that kB names; MON.WAIT with no armed slot, or with one whose word
differs, returns the mask of those that differ and disarms them (R272, R273). The words whose places a tlbinv has made the group
forget are found again first (R291; log entry 50). -/
def Obligations.MonitorForms : Prop :=
  (∀ w s c x at_ eff vs g, Issues (.monArm w) anyProfile s c → c.strm = false → mfind s.groups c.key = some g →
    x = { who := c.who false, n := 8, rs := uReq (BitVec.ofNat 64 (c.ua w)), mode := {}, late := none, regs := fun _ _ _ => True } →
    loadPasses c s x at_ eff vs →
    ∃ t, exec (.monArm w) s = .next t ∧ Completes c s t [.mem, .cores, .clusters, .faults, .coh] [.mons] RegsKept none ∧
      (noPrivate s → t.mem = s.mem) ∧ ∃ h, mfind t.groups c.key = some h ∧
        ∀ n, mfind h.mons n = if n = c.ub w % 4 then
          some { addr := BitVec.ofNat 64 (c.ua w), value := BitVec.ofNat 64 (valAt vs 255), place := (at_.headD (0, [])).2 }
          else mfind g.mons n) ∧
  (∀ w s c g at_ found g', Issues (.monWait w) anyProfile s c → c.strm = false → mfind s.groups c.key = some g →
    locate s (c.who false) .home 8 none ((g.mons.filter monBlind).map (fun e => { lane := 255, ea := e.2.addr })) = .ok at_ found →
    g' = monPlaced at_ g → (g'.mons = [] ∨ monDiffer s c.core g' ≠ 0) → monPoison s g' = none → monBlocked s g' = none →
    monDenied s c.core g' = [] →
    ∃ t, exec (.monWait w) s = .next t ∧
      Completes c s t [.mem, .cores, .clusters, .faults, .coh] [.mons] (KWritten w.d (monDiffer s c.core g')) none ∧
      (noPrivate s → t.mem = s.mem) ∧
      ∃ h, mfind t.groups c.key = some h ∧ h.mons = g'.mons.filter (fun e => !bit (monDiffer s c.core g') e.1))

/-- TLBINV in system mode: no entry that its operand covers is left in the L1 TLBs of the cores and the L2 TLBs of the clusters
in its reach (of one core, only in that core's L1), and no fault merge that it covers stays open in those clusters; with no
access translated before it still to be performed in its reach it completes at once, else its group waits for those. PGMIG of
a page it refuses completes with its status; of any other page the migration begins, with the page's leaf and the two frames,
no core holds a line of the page any more, and its group waits for MIGRATION_COMPLETE (R289 to R291). No register else and nothing
else changes but the places of monitored words in TLBINV's reach, which their groups forget. What reach 0 covers, which accesses
TLBINV waits for, the root that PGMIG walks from, the order of its statuses and the forgotten places are the model's reading (log
entry 50). -/
def Obligations.TranslationForms : Prop :=
  (∀ w s c, Issues (.tlbinv w) anyProfile s c → c.sys = true → (fs w 17 16 = 0 → fld (BitVec.ofNat 64 (c.ua w)) 63 56 = 0) →
    sortedKeys s.cores = true → sortedKeys s.clusters = true → sortedKeys s.groups = true →
    ∃ t s', exec (.tlbinv w) s = .next t ∧ TlbsCleared c w s t ∧ s' = applyAll (monForget c.core (fs w 15 14) s) s ∧
      (if accessesLeft s c.core (fs w 15 14) s.nextId = false then Completes c s' t [.cores, .clusters] [] RegsKept none
       else Parks c s' t [.cores, .clusters] (.tlbinv s.nextId (fs w 15 14)))) ∧
  (∀ w s c st, Issues (.pgmig w) anyProfile s c → c.sys = true → fld (BitVec.ofNat 64 (c.ua w)) 63 56 = 0 →
    migCheck s c.blk.tctx (asidOf c w) (BitVec.ofNat 64 (c.ua w)).toNat (c.ub w) = .inl st →
    ∃ t, exec (.pgmig w) s = .next t ∧ Completes c s t [] [] (KWritten w.d st) none) ∧
  (∀ w s c e at_ m, Issues (.pgmig w) anyProfile s c → c.sys = true → c.strm = false → fld (BitVec.ofNat 64 (c.ua w)) 63 56 = 0 →
    migCheck s c.blk.tctx (asidOf c w) (BitVec.ofNat 64 (c.ua w)).toNat (c.ub w) = .inr (e, at_) →
    (∀ x ∈ s.coh.migs, x.uid ≠ c.uid) → sortedKeys s.cores = true →
    m = ({ uid := c.uid, asid := asidOf c w, va := e.base * 2 ^ e.log2, log2 := e.log2, old := frameOf e.pte, new := c.ub w
           pteAt := at_, after := s.nextId } : Migration) →
    ∃ t, exec (.pgmig w) s = .next t ∧ Parks c s t [.mem, .cores, .coh] (.migration (kNum w.d)) ∧
      (noPrivate s → t.mem = s.mem) ∧ t.coh.migs = s.coh.migs ++ [m] ∧ t.coh.homeq = s.coh.homeq ∧
      ∀ l, migLine m l = true → (getDir t l).priv = [] ∧ (getDir t l).holders = [] ∧ ∀ k, mfind (getCore t k).l1 l = none)

/-- SPAWN with word targets and room for its pigeonholes deposits one thread for each participating lane, lowest first, with its
four argument words and its timer; PHFLUSH makes the open pigeonholes of the entries its lanes name pending; no register and
nothing outside the core's pigeonholes changes. A deposited thread is the last of its pigeonhole: the open one of its launch and
entry, else the lowest free one, newly opened with the given expiry; the 32nd thread makes it pending (R120, R121, R123). -/
def Obligations.PigeonholeForms : Prop :=
  ((∀ w s c, Issues (.spawn w) anyProfile s c → (∀ l ∈ lanesOf (c.active w.g w.gn), c.src 0 .n64 w.a l % 4 = 0) →
    spawnFits c s w = true →
    ∃ t, exec (.spawn w) s = .next t ∧ Completes c s t [.cores] [] RegsKept none ∧
      getCore t c.core = { ((lanesOf (c.active w.g w.gn)).foldl (fun k l =>
        deposit c.launch c.part (BitVec.ofNat 64 (c.src 0 .n64 w.a l)) (c.cyc + max 1 (min 65535 (c.src 2 .n32 (srcOf w.c.toNat) l)))
          (c.spawnArgs w l) k) (getCore s c.core, s.nextId)).1 with
        spawnAt := if c.active w.g w.gn = 0 then (getCore s c.core).spawnAt else (c.cyc, c.key) }) ∧
  (∀ w s c, Issues (.phflush w) anyProfile s c →
    ∃ t, exec (.phflush w) s = .next t ∧ Completes c s t [.cores] [] RegsKept none ∧
      (sortedKeys (getCore s c.core).holes = true → ∀ n,
        ((mfind (getCore t c.core).holes n).map (fun h => { h with pending := none })) =
          ((mfind (getCore s c.core).holes n).map (fun h => { h with pending := none })) ∧
        (∀ h, mfind (getCore t c.core).holes n = some h →
          (∃ l ∈ lanesOf (c.active w.g w.gn), BitVec.ofNat 64 (c.src 0 .n64 w.a l) = h.entry) → h.pending.isSome = true)))) ∧
  (∀ launch part entry expiry args (k : Core) order, sortedKeys k.holes = true →
    (∀ n h, openHole k launch entry = some (n, h) →
      mfind (deposit launch part entry expiry args (k, order)).1.holes n =
        some { h with threads := h.threads ++ [args], pending := if h.threads.length + 1 < 32 then h.pending else some order }) ∧
    (∀ n, openHole k launch entry = none → mfree k.holes 32 = some n →
      mfind (deposit launch part entry expiry args (k, order)).1.holes n =
        some { entry := entry, launch := launch, threads := [args], expiry := expiry, part := part, pending := none }) ∧
    ∀ n, (∀ h, openHole k launch entry ≠ some (n, h)) → (openHole k launch entry = none → mfree k.holes 32 ≠ some n) →
      mfind (deposit launch part entry expiry args (k, order)).1.holes n = mfind k.holes n)

/-- ATOM, CAS and KATOM act when their entry, the head of its group's queue, may leave it: the lanes one at a time in ascending
order, each on what the one before left, and the destination receives the values found. A load of a group whose queue holds an
acquire waits until that entry has left it. At a scratchpad word, and at a word of an NC page that no write waits for, the old
value is the word's and the new one the operation's (at an NC page where no lease, no copy and no migration holds the write off);
a CAS writes where the old value is the one compared. An integer atomic's
new value is the sum at the width, the smaller, the greater, the bitwise forms, the operand (R264, R266, R299). -/
def Obligations.AcquireAtomics : Prop :=
  (∀ i s c x at_ eff id, Issues i anyProfile s c → loadCase c i = some x →
    locate s x.who (if x.mode.root then .acq else if x.mode.useL1 then .load else .home) x.n x.late x.rs = .ok at_ eff →
    loadClear c s x.mode.useL1 at_ eff → acqHeld c.sq = some id →
    ∃ t, exec i s = .next t ∧ Parks c s t [.mem, .cores, .clusters, .faults, .coh] (.retry (.sqEntry id))) ∧
  (∀ s p g e rest r, p = subjAt s 0 → mfind s.groups p = some g → g.sq = e :: rest → headReady s (coreOfG p) e = true →
    entryPoison s e = none → ((∃ op ty d, e.kind = .atomic op ty d) ∨ ∃ ty d, e.kind = .cas ty d) →
    r = atomItems (.entry e.id) (coreOfG p) g.uid e.frank e.kind e.items s →
    EventDoes .storePerform s [.mem, .spad, .cores, .coh] [p] [] (fun t =>
      mfind t.groups p = some (atomResults e.id s.fresh e.kind r.2 { g with sq := rest }) ∧
      t.mem = (applyAll r.1 s).mem ∧ t.spad = (applyAll r.1 s).spad)) ∧
  (∀ s p g e rest lane c o n data cmp old, p = subjAt s 0 → mfind s.groups p = some g → g.sq = e :: rest →
    headReady s (coreOfG p) e = true → entryPoison s e = none → e.items = [⟨lane, [⟨.spad c o, n⟩], data, cmp⟩] →
    old = ofBytes (readBytes s.spad (spadKey c o) n) →
    ∃ t, exec .storePerform s = .next t ∧ t.mem = s.mem ∧
      (∀ op ty d, e.kind = .atomic op ty d →
        BytesAfter s.spad t.spad (spadKey c o) (toBytes n (atomVal op ty old data.toNat))) ∧
      (∀ ty d, e.kind = .cas ty d → if old = cmp.toNat % 2 ^ tyWidth ty then
        BytesAfter s.spad t.spad (spadKey c o) (toBytes n data.toNat) else t.spad = s.spad) ∧
      ∀ op ty k, e.kind = .atomic op ty (some (.v k)) → tyIs64 ty = false → (∀ q ∈ g.u.outs, q.sq = some e.id) →
        g.u.outs.length ≤ 1 → ∃ h, mfind t.groups p = some h ∧ getV h.u.regs.l k lane = BitVec.ofNat 32 (old % 2 ^ 32)) ∧
  (∀ s p g e rest lane a n data cmp old, p = subjAt s 0 → mfind s.groups p = some g → g.sq = e :: rest →
    headReady s (coreOfG p) e = true → entryPoison s e = none → e.items = [⟨lane, [⟨.phys a true, n⟩], data, cmp⟩] →
    noneHeld s → linesOpen s (coreOfG p) a n → old = ofBytes (readBytes s.mem a n) →
    ∃ t, exec .storePerform s = .next t ∧ t.spad = s.spad ∧
      (∀ op ty d, e.kind = .atomic op ty d → BytesAfter s.mem t.mem a (toBytes n (atomVal op ty old data.toNat))) ∧
      ∀ ty d, e.kind = .cas ty d → if old = cmp.toNat % 2 ^ tyWidth ty then
        BytesAfter s.mem t.mem a (toBytes n data.toNat) else t.mem = s.mem) ∧
  (∀ (ty : Ty) (old x : Nat), ty ∈ [Ty.i32, .n32, .i64, .n64] → old < 2 ^ tyWidth ty → x < 2 ^ tyWidth ty →
    atomVal 0 ty old x = (old + x) % 2 ^ tyWidth ty ∧
    (atomVal 1 ty old x = old ∨ atomVal 1 ty old x = x) ∧ intVal ty (atomVal 1 ty old x) = min (intVal ty old) (intVal ty x) ∧
    (atomVal 2 ty old x = old ∨ atomVal 2 ty old x = x) ∧ intVal ty (atomVal 2 ty old x) = max (intVal ty old) (intVal ty x) ∧
    atomVal 3 ty old x = old &&& x ∧ atomVal 4 ty old x = old ||| x ∧ atomVal 5 ty old x = old ^^^ x ∧ atomVal 6 ty old x = x)

/-- OBRES with its status, OBFREE, MZERO, MACC and MVTOT of legal tiles complete when no operation in flight clashes: a
reservation is made when the status is 0 and freed by OBFREE, each element of the named tile takes its value, of two lanes at
one element the higher stands; everything else is as before (R173, R176 to R178, R190, R191, R193). -/
def Obligations.MatrixForms : Prop :=
  ∀ i s c f g, Issues i (profOf i) s c → matrixForm c s i = some (f, g) →
    ∃ t, exec i s = .next t ∧ Completes c s t [.blocks] [] f none ∧ MatrixAfter c s t g

/-- MMA, MMAT and MRES complete when their reservations fit and no operation in flight clashes: each element of the tile takes
its step over the K values of its rows, the loop counter the word names is counted on where it asks, and everything else is as
before (R83, R135, R173, R185 to R189, R208 to R210). -/
def Obligations.MatrixSteps : Prop :=
  ∀ i s c b m x, Issues i (profOf i) s c → mfind s.blocks c.blkId = some b → b.mat = some m → stepCase c s m i = some x →
    ∃ t, exec i s = .next t ∧ Completes c s t [.blocks] [] x.regs none ∧
      MatrixAfter c s t (fun m m' => tileAfter x.tile x.pair (fun i j => x.out (tileAt m x.tile x.pair i j) i j) m m')

/-- MLOAD, MLOADX, MST and SDEC complete when their operands are legal, their rows translate and no operation in flight
clashes: the operation is in flight after those before it, the stream goes on; MST raises its completion register's count and
counts its loop counter on; nothing else changes (R136, R173, R174, R182, R184, R192, R205, R206). That all rows of an operation
are translated at its issue, and their places kept with it, is the model's reading (log entries 55 and 56). -/
def Obligations.MatrixForks : Prop :=
  ∀ i s c op f, Issues i (profOf i) s c → forkCase c s s.nextId i = some (op, f) → c.strm = true →
    ∃ t, exec i s = .next t ∧ Completes c s t [.cores, .clusters, .faults] [.ops] (fun r r' => r' = f r) none ∧
      ∀ x, mfind s.streams c.key = some x → ∃ y, mfind t.streams c.key = some y ∧ y.ops = x.ops ++ [op]

/-- MSEQ.GO starts its loop at the next word; MSEQ.END stops the stream's issue; MROW.CLR and SSTAT.CLR without an operation to
wait for return ROWPROG and SSTAT and clear them; SBOUND of a bound up to 65,536 sets it; nothing else changes (R183, R197 to
R199, R207, R212). -/
def Obligations.SequencerForms : Prop :=
  (∀ w s c x, Issues (.mseqGo w) anyProfile s c → c.strm = true → mfind s.streams c.key = some x →
    ∃ t, exec (.mseqGo w) s = .next t ∧ Completes c s t [] [.loop] RegsKept none ∧ ∃ y, mfind t.streams c.key = some y ∧
      y.loop = some { start := c.next, len := fs w 5 0 + 1, done := 0, left := c.ua w }) ∧
  (∀ w s c, Issues (.mseqEnd w) anyProfile s c → c.strm = true →
    ∃ t, exec (.mseqEnd w) s = .next t ∧ Completes c s t [] [.stopped] RegsKept none ∧ ∃ y, mfind t.streams c.key = some y ∧
      y.stopped = true) ∧
  (∀ w s c x, Issues (.mrowClr w) anyProfile s c → c.strm = true → mfind s.streams c.key = some x → x.ops.any isLoadOp = false →
    ∃ t, exec (.mrowClr w) s = .next t ∧ Completes c s t [.blocks] [] (KWritten w.d c.mat.rowprog.toNat) none ∧
      MatrixAfter c s t (fun m m' => m' = { m with rowprog := 0 })) ∧
  (∀ w s c x, Issues (.sstatClr w) anyProfile s c → c.strm = true → mfind s.streams c.key = some x → x.ops.any isSdecOp = false →
    ∃ t, exec (.sstatClr w) s = .next t ∧ Completes c s t [.blocks] [] (KWritten w.d c.mat.sstat.toNat) none ∧
      MatrixAfter c s t (fun m m' => m' = { m with sstat := 0 })) ∧
  (∀ w s c, Issues (.sbound w) anyProfile s c → c.strm = true → c.ubI w ≤ 65536 →
    ∃ t, exec (.sbound w) s = .next t ∧ Completes c s t [.blocks] [] RegsKept none ∧
      MatrixAfter c s t (fun m m' => m' = { m with sbound := BitVec.ofNat 32 (c.ubI w) }))

/-- ROUND.ADV with earlier writes performed at the region's scope raises the region's count by 1 and returns it, and the caches
of its scope are told; ROUND.GET, after the group's queued acquires, returns the count and raises the floor of each released lane to it; ROUND.FLOOR raises the
floors to its operand and returns the least; ROUND.FLOOR.CLR clears the released lanes' floors; nothing else changes but the
known round of the core (R299, R317, R318, R325 to R327). -/
def Obligations.RoundForms : Prop :=
  (∀ w s c r, Issues (.roundAdv w) anyProfile s c → regionHere c s w = some r →
    (rtScope (getRt s r) = 8 → clusterOf c.core = rtCl (getRt s r)) → countOf s r < 2 ^ 48 - 1 →
    drained s c.sq (rtScope (getRt s r)) = true → mustStall s (pkgSrc 6) 6 c.frank = false →
    ∃ t, exec (.roundAdv w) s = .next t ∧
      Completes c s t [.rounds, .coh, .cores, .trace, .clusters] [] (KWritten w.d (countOf s r + 1)) none ∧
      countOf t r = countOf s r + 1 ∧ (∀ q, q ≠ r → getRt t q = getRt s q) ∧
      ∀ k, k < 768 → inRegionScope s r k = true → fld s.idn.cap (26 + clusterOf k) (26 + clusterOf k) = 1 →
        (k, r, countOf s r + 1) ∈ t.coh.notices) ∧
  (∀ w s c r id, Issues (.roundGet w) anyProfile s c → regionHere c s w = some r → acqHeld c.sq = some id →
    ∃ t, exec (.roundGet w) s = .next t ∧ Parks c s t [] (.retry (.sqEntry id))) ∧
  (∀ w s c r g, Issues (.roundGet w) anyProfile s c → regionHere c s w = some r → acqHeld c.sq = none → c.strm = false →
    mfind s.groups c.key = some g →
    ∃ t, exec (.roundGet w) s = .next t ∧ Completes c s t [.cores] [.floors, .ovf] (KWritten w.d (countOf s r)) none ∧
      ∃ h, mfind t.groups c.key = some h ∧ (∀ l, l < 32 → inMask c.lanes l = true → floorOf h l r = max (floorOf g l r) (countOf s r)) ∧
        ∀ l, l < 32 → inMask c.lanes l = false → mget [] h.floors l = mget [] g.floors l) ∧
  (∀ w s c r g, Issues (.roundFloor w) anyProfile s c → regionHere c s w = some r → c.ub w < 2 ^ 48 → c.strm = false →
    mfind s.groups c.key = some g →
    ∃ t v, exec (.roundFloor w) s = .next t ∧ Completes c s t [] [.floors, .ovf] (KWritten w.d v) none ∧
      (∀ l ∈ lanesOf c.lanes, v ≤ max (floorOf g l r) (c.ub w)) ∧
      (lanesOf c.lanes ≠ [] → ∃ l ∈ lanesOf c.lanes, v = max (floorOf g l r) (c.ub w)) ∧
      ∃ h, mfind t.groups c.key = some h ∧ ∀ l, l < 32 → inMask c.lanes l = true → floorOf h l r = max (floorOf g l r) (c.ub w)) ∧
  (∀ w s c, Issues (.roundFloorClr w) anyProfile s c → c.strm = false →
    ∃ t, exec (.roundFloorClr w) s = .next t ∧ Completes c s t [] [.floors, .ovf] RegsKept none ∧
      ∃ h, mfind t.groups c.key = some h ∧ h.ovf &&& c.lanes = 0 ∧
        ∀ l, l < 32 → inMask c.lanes l = true → mget [] h.floors l = [])

/-- MTS of a register its mode may write completes: the register reads as its writable fields give, and no register else, but for
those that a select register shows, and nothing else changes; ROWPROG, SSTAT and SBOUND are those of the block that holds the
sequencer. RTCTL commits and releases its region as the host's write does, and waits for bounded loads in flight; QCTL waits for
the blocks of a queue that it suspends; TSCTL opens and closes its session (R183, R203, R207, R216, R286, R313 to R315, R345, R364,
R369, R376, R379, R380, R383, R393, R470). -/
def Obligations.SpecialRegisterWrites : Prop :=
  (∀ w s c n v xs own x, Issues (.mts w) anyProfile s c → c.strm = false → c.ub w = n → v = BitVec.ofNat 64 (c.ua w) →
    (sregPriv n = true ∨ sregSysWrite n = true → c.sys = true) → mtsResult c s n v = some (xs, own, x) →
    ∃ t, exec (.mts w) s = .next t ∧ Completes c s t xs own RegsKept none ∧
      readSpecial t c.reader n = x ∧
      ∀ m, m ≠ n → m ∉ sregShown n → (usplit c s = none ∨ m < 0x38 ∨ 0x3C < m) →
        readSpecial t c.reader m = readSpecial s c.reader m) ∧
  (∀ w s c n b m, Issues (.mts w) anyProfile s c → c.strm = false → c.sys = true → c.ub w = n → n ∈ [0x14, 0x15, 0x16] →
    mfind s.blocks c.blkId = some b → b.mat = some m →
    ∃ t, exec (.mts w) s = .next t ∧ Completes c s t [.blocks] [] RegsKept none ∧
      MatrixAfter c s t (fun m m' => m' =
        if n = 0x14 then { m with rowprog := BitVec.ofNat 32 (c.ua w) &&& 0x800F00FF }
        else if n = 0x15 then { m with sstat := BitVec.ofNat 64 (c.ua w) &&& 0xFFFFFFFFFFEFFF00 }
        else { m with sbound := BitVec.ofNat 32 (min 65536 (c.ua w % 2 ^ 17)) })) ∧
  (∀ w s c v, Issues (.mts w) anyProfile s c → c.strm = false → c.sys = true → v = BitVec.ofNat 64 (c.ua w) →
    (c.ub w = 0x23 → fld v 0 0 = 1 →
      ∃ t, exec (.mts w) s = .next t ∧ Completes c s t [.rounds, .cores, .coh, .mem] [] RegsKept none ∧ CommitDone v s t) ∧
    (c.ub w = 0x23 → fld v 0 0 = 0 → rtValid (getRt s (curRt s)) = true → regionBusy s (curRt s) = false →
      sortedKeys s.groups = true →
      ∃ t, exec (.mts w) s = .next t ∧ Same (cardParts c s ++ [.rounds, .cores, .coh, .mail]) s t ∧ t.streams = s.streams ∧
        RegionFreed s t ∧
        (∀ q g, q ≠ c.key → mfind s.groups q = some g → ∃ h, mfind t.groups q = some h ∧ FloorsDropped (curRt s) g h) ∧
        ∃ g h, mfind s.groups c.key = some g ∧ mfind t.groups c.key = some h ∧
          GroupAfter c [.floors, .ovf] RegsKept (fun _ => c.next) g h ∧
          FloorsDropped (curRt s) g { g with floors := h.floors, ovf := h.ovf }) ∧
    (c.ub w = 0x23 → fld v 0 0 = 0 → rtValid (getRt s (curRt s)) = true → regionBusy s (curRt s) = true →
      ∃ t, exec (.mts w) s = .next t ∧ Parks c s t [] (.retry (.region (curRt s)))) ∧
    (c.ub w = 0x31 → ∃ t, exec (.mts w) s = .next t ∧ QueueSet (curQ s) v s t ∧
      if fld v 6 6 = 1 ∧ queueBlocks s (curQ s) ≠ [] then Parks c s t [.mail] (.saves (curQ s))
      else Completes c s t [.mail] [] RegsKept none) ∧
    (c.ub w = 0x39 → fld v 0 0 = 1 →
      ∃ t, exec (.mts w) s = .next t ∧ Completes c s t [.trace, .clusters] [] RegsKept none ∧ SessionOpened v (carded c s) t) ∧
    (c.ub w = 0x39 → fld v 0 0 = 0 → sessOpen (getSession s (tsIdx s)) = true →
      ∃ t, exec (.mts w) s = .next t ∧ Completes c s t [.trace, .mem, .coh, .cores, .clusters] [] RegsKept none ∧
        SessionClosed (carded c s) t))

/-- CNTCFG.EVENT, CLEAR and WRITE in system mode change one counter of one set, the events of earlier cycles added before, and
note the value, the OVF and the event that the cycle began with, by which the cycle's own addition is discarded and its carry
still sets OVF (R414; two in one cycle keep the first's note: the model's reading, log entry 61). TMARK emits its
card; TSAMP returns the old setting of the group's sampling and sets the new; no register else and nothing else changes (R404,
R407, R408, R414, R416). -/
def Obligations.CounterAndTraceForms : Prop :=
  (∀ i s c n k f s1 x y, Issues i anyProfile s c → cntResult c i = some (n, k, f) →
    s1 = applyAll (addBefore s.clk.cyc (carded c s)) (carded c s) →
    x = getSet s1 n → y = f x →
    ∃ t, exec i s = .next t ∧ Completes c s t [.sets] [] RegsKept none ∧ (∀ m, m ≠ n → getSet t m = getSet s1 m) ∧
      (getSet t n).rem = y.rem ∧
      (∀ j, ctVal (getSet t n) j = ctVal y j ∧ ctEvent (getSet t n) j = ctEvent y j ∧
        mget false (getSet t n).ovf j = mget false y.ovf j) ∧
      ∃ o, mfind (getSet t n).wrote k = some o ∧ o.cyc = s.clk.cyc ∧ o.who = c.key ∧
        ((∀ p, mfind x.wrote k = some p → p.cyc ≠ s.clk.cyc) →
          o.val = ctVal x k ∧ o.ovf = mget false x.ovf k ∧ o.ev = ctEvent x k) ∧
        ∀ p, mfind x.wrote k = some p → p.cyc = s.clk.cyc → o.val = p.val ∧ o.ovf = p.ovf ∧ o.ev = p.ev) ∧
  (∀ w s c src, Issues (.tmark w) anyProfile s c → src = coreSrc c.core c.part (if c.strm then 1 else 0) →
    mustStall s src 1 c.frank = false →
    ∃ t, exec (.tmark w) s = .next t ∧ Completes c s t [.trace, .clusters] [] RegsKept none ∧
      ∀ u, u = applyAll (emit src 1 (if c.strm then 255 else lowest c.lanes) c.slot c.frank (BitVec.ofNat 64 (c.ubI w)) c.pc (carded c s)) (carded c s) →
        t.trace = u.trace ∧ t.clusters = u.clusters) ∧
  (∀ w s c g, Issues (.tsamp w) anyProfile s c → c.strm = false → mfind s.groups c.key = some g →
    ∃ t, exec (.tsamp w) s = .next t ∧ Completes c s t [] [] (KWritten w.d g.samp.cfg.toNat) none ∧
      ∃ h, mfind t.groups c.key = some h ∧ h.samp.cfg = BitVec.ofNat 32 (fs w 15 0))

/-- HALT in system mode kills its launch: no block of it stands any more, and its end is FAILED with code 21. QRESET of a queue
in system mode disables it and kills its launches, CANCELLED; with none, its group goes on with 0 in kD and nothing else changes;
with some, and not its own, its group waits for their ends. POST to a queue that is not enabled returns 1, to one that does not
accept the poster's packets 2, and of a packet it may write, at its turn with earlier accesses performed and the homes of the words
it writes ready, 0: the packet's NEXT reads 0, the chain's last NEXT names the packet, and the queue's TAIL is the packet; in each
case its queue entry is gone (R365 to R367, R384, R385). That post acts as one operation at its turn, with the homes that it writes
at ready for it, is the model's reading (log entries 63 and 27). -/
def Obligations.QueueForms : Prop :=
  (∀ w s c, Issues (.halt w) anyProfile s c → c.sys = true → c.l.dying = none → noStall s →
    ∃ t, exec (.halt w) s = .next t ∧ Killed s t c.launch c.l 2 21 ∧
      ∀ n, n ≠ c.launch → mfind t.mail.launches n = mfind s.mail.launches n) ∧
  (∀ w s c, Issues (.qreset w) anyProfile s c → c.sys = true → c.ub w < 64 → launchesOf s (c.ub w) = [] →
    (∀ e ∈ s.trace.sessions, sessOpen e.2 = true → fld e.2.ctl 54 54 = 1 → fld e.2.ctl 53 48 ≠ c.ub w) →
    ∃ t, exec (.qreset w) s = .next t ∧ Completes c s t [.mail] [] (KWritten w.d 0) none ∧
      fld (getQueue t (c.ub w)).ctl 0 0 = 0 ∧ ∀ q, q ≠ c.ub w → getQueue t q = getQueue s q) ∧
  (∀ w s c, Issues (.qreset w) anyProfile s c → c.sys = true → c.ub w < 64 → noStall s → sortedKeys s.mail.launches = true →
    ∃ t, exec (.qreset w) s = .next t ∧ fld (getQueue t (c.ub w)).ctl 0 0 = 0 ∧
      (∀ q, q ≠ c.ub w → getQueue t q = getQueue s q) ∧
      (∀ n l, mfind s.mail.launches n = some l → l.queue = c.ub w → l.dying = none → Killed s t n l 3 0) ∧
      (∀ n l, mfind s.mail.launches n = some l → l.queue ≠ c.ub w → mfind t.mail.launches n = some l) ∧
      (c.l.queue ≠ c.ub w → c.strm = false → launchesOf s (c.ub w) ≠ [] →
        ∃ h, mfind t.groups c.key = some h ∧ (h.u.wait.map (·.kind)) =
          some (.resets (kNum w.d) (c.ub w) (resetKills s (c.ub w)).length))) ∧
  (∀ w s c, Issues (.post w) anyProfile s c → fld (BitVec.ofNat 64 (c.ua w)) 63 56 = 0 → c.ua w % 128 = 0 → c.ub w < 64 →
    fld (getQueue s (c.ub w)).ctl 0 0 = 0 →
    ∃ t, exec (.post w) s = .next t ∧ Completes c s t [] [.sq] (KWritten w.d 1) none ∧ TurnGivenUp c s t) ∧
  (∀ w s c, Issues (.post w) anyProfile s c → fld (BitVec.ofNat 64 (c.ua w)) 63 56 = 0 → c.ua w % 128 = 0 → c.ub w < 64 →
    fld (getQueue s (c.ub w)).ctl 0 0 = 1 → (fld (getQueue s (c.ub w)).ctl 5 5 = 0 ∨ fld (getQueue s (c.ub w)).ctl 63 56 ≠ c.frank ∨
      fld (getQueue s (c.ub w)).tctx 11 0 ≠ c.asid) →
    ∃ t, exec (.post w) s = .next t ∧ Completes c s t [] [.sq] (KWritten w.d 2) none ∧ TurnGivenUp c s t) ∧
  (∀ w s c x p at_ eff key first n1 eff2 last n2 bs, Issues (.post w) anyProfile s c → p = BitVec.ofNat 64 (c.ua w) → fld p 63 56 = 0 →
    c.ua w % 128 = 0 → c.ub w < 64 → x = getQueue s (c.ub w) → fld x.ctl 0 0 = 1 → fld x.ctl 5 5 = 1 → fld x.ctl 63 56 = c.frank →
    fld x.tctx 11 0 = c.asid → locate s (c.who false) .store 8 none (uReq p) = .ok at_ eff →
    relReady s 12 = true → (c.sq = [] ∨ ∃ e, c.sq.head? = some e ∧ e.kind = .hold c.pc) → key = .entry (turnId c s) →
    at_ = [(255, [⟨.phys first n1, 8⟩])] → piecesReady s key [⟨.phys first n1, 8⟩] = true →
    bs = Eff.all [eff, countAccess (c.who false) .store 8 (uReq p), engineWrite key c.frank [⟨.phys first n1, 8⟩] (toBytes 8 0)] s →
    postWalk c (applyAll bs s) (s.mem.length + 2) x.tail = .last (some ⟨.phys last n2, 8⟩) eff2 →
    piecesReady (applyAll bs s) key [⟨.phys last n2, 8⟩] = true → (last + 8 ≤ first ∨ first + 8 ≤ last) →
    ∃ t, exec (.post w) s = .next t ∧
      Completes c s t [.mem, .cores, .clusters, .faults, .coh, .mail] [.sq] (KWritten w.d 0) none ∧ TurnGivenUp c s t ∧
      readBytes t.mem first 8 = toBytes 8 0 ∧ readBytes t.mem last 8 = toBytes 8 p.toNat ∧
      (∀ b, (b < first ∨ first + 8 ≤ b) → (b < last ∨ last + 8 ≤ b) → readByte t.mem b = readByte s.mem b) ∧
      (getQueue t (c.ub w)).tail = p ∧ (∀ q, q ≠ c.ub w → getQueue t q = getQueue s q) ∧ t.mail.launches = s.mail.launches)

/-- A form that its mode may not use raises PERM with TRAPADDR 0, naming the lowest live lane, and has no effect: the system forms
in user mode, a read or write of a special register that the mode may not make (TRAPCAUSE outside a handler among them), a register
of a sequencer whose block the group does not belong to, CNTRD of another set, ERET outside a handler and HALT in user mode (R290,
R291, R367, R370, R380, R381, R384, R415, R416, R470). -/
def Obligations.PrivilegeTraps : Prop :=
  ∀ i s c, Issues i anyProfile s c → c.strm = false → trapRoom s c = true → forbidden c s i = true →
    ∀ g, mfind s.groups c.key = some g → g.tr.bankS.active = false →
      ∃ t, exec i s = .next t ∧ ∃ h, mfind t.groups c.key = some h ∧ Trapped c s t 9 0 (lowest c.live) g h

/-- The register writes of the host that are events, and accesses from outside the package, complete with the effect the
registers' rules give, the host's cas and atomic add among them; an access that no memory serves stops, and a package whose
links are down answers none (R18, R255, R286, R314, R315, R345, R347, R364, R392, R393, R402,
R436, R438). That a commit which fails keeps RTCTL's other fields and that one which succeeds empties every L1 of the package (log
entry 53), and that the event's subject chooses between the host's cas and add and an access that no memory serves stops (log entry
68), are the model's reading. -/
def Obligations.HostEvents : Prop :=
  (∀ v s i, registersAnswer s = false → i ∈ [Instr.rtctlCommit v, .rtctlRelease v, .qctlEnable v, .qctlDisable v, .qctlSuspend v,
    .qctlResume v, .tsctlOpen v, .tsctlClose v, .tsptrHeadWrite v, .fqptrHeadWrite v, .rtfailAck v] → Idle i s) ∧
  (∀ v s, registersAnswer s = true → EventDoes (.rtctlCommit v) s [.rounds, .cores, .coh, .mem] [] [] (CommitDone v s)) ∧
  (∀ v s, registersAnswer s = true → rtValid (getRt s (curRt s)) = true → regionBusy s (curRt s) = false → sortedKeys s.groups = true →
    ∃ t, exec (.rtctlRelease v) s = .next t ∧ Same [.rounds, .cores, .coh, .mail] s t ∧ t.streams = s.streams ∧ RegionFreed s t ∧
      ∀ q g, mfind s.groups q = some g → ∃ h, mfind t.groups q = some h ∧ FloorsDropped (curRt s) g h) ∧
  ((∀ v s, registersAnswer s = true → EventDoes (.qctlEnable v) s [.mail] [] [] (QueueSet (curQ s) (setFld v 0 0 1) s)) ∧
   (∀ v s, registersAnswer s = true → EventDoes (.qctlDisable v) s [.mail] [] [] (QueueSet (curQ s) (setFld v 0 0 0) s)) ∧
   (∀ v s, registersAnswer s = true → EventDoes (.qctlSuspend v) s [.mail] [] [] (QueueSet (curQ s) (setFld v 6 6 1) s)) ∧
   (∀ v s, registersAnswer s = true → EventDoes (.qctlResume v) s [.mail] [] [] (QueueSet (curQ s) (setFld v 6 6 0) s))) ∧
  (∀ v s, registersAnswer s = true → EventDoes (.tsctlOpen v) s [.trace, .clusters] [] [] (SessionOpened v s)) ∧
  (∀ v s, registersAnswer s = true → sessOpen (getSession s (tsIdx s)) = true →
    EventDoes (.tsctlClose v) s [.trace, .mem, .coh, .cores, .clusters] [] [] (SessionClosed s)) ∧
  (∀ v s x, registersAnswer s = true → getSession s (tsIdx s) = x →
    EventDoes (.tsptrHeadWrite v) s [.trace] [] [] (fun t => (∀ m, m ≠ tsIdx s → getSession t m = getSession s m) ∧
      ∃ y, getSession t (tsIdx s) = y ∧ y = { x with ptr := y.ptr } ∧ fld y.ptr 63 32 = fld v 63 32 ∧ fld y.ptr 31 0 = fld x.ptr 31 0)) ∧
  (∀ v s, registersAnswer s = true → EventDoes (.fqptrHeadWrite v) s [.faults] [] [] (fun t => t.faults = { s.faults with ptr := t.faults.ptr } ∧
    fld t.faults.ptr 63 32 = fld v 63 32 ∧ fld t.faults.ptr 31 0 = fld s.faults.ptr 31 0)) ∧
  (∀ v s, registersAnswer s = true → EventDoes (.rtfailAck v) s [.cores] [] [] (fun t => ∀ k, getCore t k = if k = subjAt s 0 then
    { getCore s k with corestat := (getCore s k).corestat &&& ~~~8 } else getCore s k)) ∧
  (∀ a w data s,
    (linksUp s = false → Idle (.hostAccess a w data) s) ∧
    (linksUp s = true →
      (if served_ s true a (max 1 data.length) then
        OutsideDone (.hostAccess a w data) a w data s ∧ (data ≠ [] → hostAtom s.subj ≠ .plain → HostAtomDone a data s)
       else exec (.hostAccess a w data) s = .fault .noSuchAddress) ∧
      (if served_ s false a (max 1 data.length) then
        OutsideDone (.peerAccess a w data) a w data s ∧
        (w = true → subjReps s.subj ≠ [] → RootWriteDone a data s)
       else exec (.peerAccess a w data) s = .fault .noSuchAddress)))

/-- The events of the package complete: reset and bring-up, the timing unit, the clock, ports, links, errors, and the SPDM
responder (R14 to R18, R339, R340, R376, R377, R432 to R444). The codes of the SPDM requests and the values of what bring-up
finds (log entries 20 and 21), that a reset of the package keeps memory byte for byte and is one event with bring-up (log entry 65),
and the unit and the launch that a machine check names (log entry 64), are the model's. -/
def Obligations.PackageEvents : Prop :=
  (∀ s, ∃ t, exec .packageReset s = .next t ∧ t.mem = s.mem ∧ t.spad = [] ∧ t.groups = [] ∧ t.streams = [] ∧ t.blocks = [] ∧
    t.bars = [] ∧ t.clk = State.reset.clk ∧ t.mail = State.reset.mail ∧ t.faults = State.reset.faults ∧
    t.rounds = State.reset.rounds ∧ t.trace = State.reset.trace ∧ t.ctrs = State.reset.ctrs ∧ t.coh = State.reset.coh ∧
    t.clusters = [] ∧ sameFuses t.idn s.idn ∧ t.idn.stvec = State.reset.idn.stvec ∧ t.idn.hevt = 0 ∧ t.idn.mcstat = 0 ∧
    t.boot.phase = (if stageVerifies 1 = false then .recovery 1 else if stageVerifies 2 = false then .recovery 2
      else if Config.bringUpUcie = 0 then .stopped else .up)) ∧
  ((∀ s, s.boot.phase = .up → EventDoes .timingLock s [.clk, .boot] [] [] (fun t =>
      t.boot = { s.boot with phase := .ready } ∧ t.clk.cyc = s.clk.cyc ∧ t.clk.locked = true ∧
      bit t.clk.tstat.toNat 31 = true ∧ bit t.clk.tstat.toNat 30 = false ∧ bits t.clk.tstat.toNat 23 0 ≤ 40)) ∧
   (∀ s, bit s.clk.tstat.toNat 31 = true → EventDoes .referenceLoss s [.clk] [] [] (fun t =>
      t.clk = { s.clk with tstat := t.clk.tstat } ∧ bit t.clk.tstat.toNat 31 = false ∧ bit t.clk.tstat.toNat 30 = true ∧
      bits t.clk.tstat.toNat 23 0 = bits s.clk.tstat.toNat 23 0)) ∧
   (∀ s, bit s.clk.tstat.toNat 30 = true → EventDoes .referenceRelock s [.clk] [] [] (fun t =>
      t.clk = { s.clk with tstat := t.clk.tstat } ∧ bit t.clk.tstat.toNat 31 = true ∧ bit t.clk.tstat.toNat 30 = false ∧
      bits t.clk.tstat.toNat 23 0 ≤ 40)) ∧
   (∀ v s, clockOk v = true → EventDoes (.clockChange v) s [.clk, .trace, .clusters] [] [] (fun t =>
      ∃ w, t.clk = { s.clk with change := some w } ∧ bits w.toNat 11 0 = bits v.toNat 11 0 ∧
      (bit w.toNat 12 = true ↔ bits v.toNat 11 0 < 1050) ∧ bits w.toNat 27 24 = bits v.toNat 27 24)) ∧
   (∀ m tk w s, tk.cycles ≠ 0 → s.clk.change = some w →
      (settleStep m tk s).idn.pwrstat = w ∧ (settleStep m tk s).clk.change = none)) ∧
  ((∀ s c p port, s.subj = [c, p, port] → p < 4 → port < 2 → bit (getCore s c).corestat.toNat 0 = true →
      bit (getCore s c).corestat.toNat (4 + 4 * port + p) = false → (p, port) ∉ (getCore s c).failing →
      EventDoes .portFailure s [.cores] [] [] (fun t => ∀ k, getCore t k =
        if k = c then { getCore s c with failing := (getCore s c).failing ++ [(p, port)] } else getCore s k)) ∧
   (∀ s t c p port, t = applyAll (coreCycleEnd c s) s → (getCore s c).failing = [(p, port)] → p < 4 → port < 2 →
      bit (getCore s c).corestat.toNat 0 = true → bit (getCore s c).corestat.toNat (4 + 4 * port + p) = false →
      PortDown c p port s t ∧ (getCore t c).failing = [] ∧
      (bit (getCore s c).corestat.toNat (4 + 4 * (1 - port) + p) = false →
        EventKeeps [.cores, .trace, .clusters, .mem, .coh] [] [] s t ∧ HostTold 3 { s with cores := t.cores } t) ∧
      (bit (getCore s c).corestat.toNat (4 + 4 * (1 - port) + p) = true → noStall s →
        t.idn = { s.idn with mcstat := mcWith s.idn.mcstat 19 9 c } ∧
        ∀ n l, n ∈ partLaunches s c p → mfind s.mail.launches n = some l → l.dying = none → Killed s t n l 2 19)) ∧
   (∀ s, EventDoes .ucieModuleFailure s [.trace, .clusters, .mem, .coh, .cores] [] [] (HostTold 4 s)) ∧
   (∀ s i, i = subjAt s 0 → i < 36 → s.idn.lnkstat.getLsbD i = true →
      EventDoes .linkLoss s [.idn, .mem, .coh, .cores] [] [] (fun t => HostTold 4 s t ∧ t.idn = { s.idn with lnkstat := t.idn.lnkstat } ∧
        ∀ k, k < 64 → t.idn.lnkstat.getLsbD k = if k = i then false else if k = 63 then true else s.idn.lnkstat.getLsbD k)) ∧
   (∀ s, subjAt s 0 < 8 → EventDoes .cxlSurpriseRemoval s [.coh] [] [] (fun t =>
      t.coh = { s.coh with removed := t.coh.removed } ∧ ∀ p, p ∈ t.coh.removed ↔ p = subjAt s 0 ∨ p ∈ s.coh.removed))) ∧
  ((∀ unit c addr s, EventDoes (.eccError unit c addr true) s [.idn, .trace, .clusters] [] [] (fun t =>
      t.idn = { s.idn with mcstat := t.idn.mcstat } ∧ fld t.idn.mcstat 63 48 = min 65535 (fld s.idn.mcstat 63 48 + 1) ∧
      fld t.idn.mcstat 47 0 = fld s.idn.mcstat 47 0)) ∧
   (∀ unit c addr s, 3 ≤ unit → unit ≤ 8 →
      EventDoes (.eccError unit c addr false) s [.coh, .cores, .trace, .clusters] [] [] (ErrorMarked unit c (lineOf addr) s)) ∧
   (∀ unit c addr s n l, ((unit = 0 ∨ unit = 1 ∨ unit = 10) ∧ launchAt s (subjAt s 0) = some n) ∨
      (unit = 2 ∧ spadOwner s c addr = some n) → mfind s.mail.launches n = some l → l.dying = none → noStall s →
      ∃ t, exec (.eccError unit c addr false) s = .next t ∧ t.idn = { s.idn with mcstat := mcWith s.idn.mcstat 18 unit c } ∧
        Killed s t n l 2 18 ∧ t.clk = s.clk ∧ t.boot = s.boot ∧ t.rounds = s.rounds)) ∧
  ((∀ e ∈ spdmEvents, ∀ s, if s.boot.busy = true ∧ requestCode s.boot = e.2 then
      EventDoes e.1 s [.boot] [] [] (fun t =>
        let r := spdmAnswer s.boot (Config.spdmDraw s.fresh) (Config.spdmDraw (s.fresh + 1)) (s.boot.req.take s.boot.len)
        t.boot = { s.boot with busy := false, rlen := min 4096 r.length, rsp := r.take 4096
                               spdm := spdmAfter s.boot.spdm (s.boot.req.take s.boot.len) r })
      else Idle e.1 s) ∧
   (∀ s, s.boot.busy = true → requestCode s.boot ∉ spdmCodes → EventDoes .unsupportedRequest s [.boot] [] [] (fun t =>
      t.boot = { s.boot with
        busy := false, rlen := 4, rsp := [0x12, 0x7F, 0x07, BitVec.ofNat 8 (requestCode s.boot)]
        spdm := { s.boot.spdm with meas := [] } })))

/-- The returns of parked forms complete when what they wait for has come: KCWAIT with the status word, PMWAIT with the lowest
final postmark, MON.WAIT with the slots that differ or 0 at its limit, NAP, ring forms, barrier waits with the barrier's word, a
second arrival, SPAWN with its deposits, PGMIG with status 0 (R101, R121, R136, R196, R241, R245, R273, R289, R337, R343). That a
migration's copy, the rewrite of its leaf and the drops from the TLBs are one move is the model's choice (log entry 51). -/
def Obligations.WaitReturns : Prop :=
  ((∀ s w u d kc, agentU s (subjAgent s) = some u → u.wait = some w → w.kind = .kcwait d kc → getKc u.regs.u kc = 0 →
      Returns .kcwaitReturn s (subjAgent s) w [] (fun r r' =>
        (∀ n, getK r'.u n = if n = d then getKst r.u kc else getK r.u n) ∧
        (∀ n, getKst r'.u n = if n = kc then 0 else getKst r.u n) ∧
        r'.u.kp = r.u.kp ∧ r'.u.lc = r.u.lc ∧ r'.u.lm = r.u.lm ∧ r'.u.kc = r.u.kc ∧ r'.u.kf = r.u.kf ∧ r'.l = r.l) (fun _ => True)) ∧
   (∀ s p g w d n v, p = subjAt s 0 → mfind s.groups p = some g → g.u.wait = some w → w.kind = .pmwait d →
      pmReady s g = some (n, v) →
      Returns .pmwaitReturn s (.group p) w [] (KSet d v) (fun t => ∃ h, mfind t.groups p = some h ∧
        ∀ m, mfind h.armed m = if m = n then none else mfind g.armed m)) ∧
   (∀ s p g w d lim, p = subjAt s 0 → mfind s.groups p = some g → g.u.wait = some w → w.kind = .monWait d lim →
      monDiffer s (coreOfG p) g ≠ 0 → monPoison s g = none → monDenied s (coreOfG p) g = [] → g.mons.any monBlind = false →
      monBlocked s g = none →
      Returns .monWaitReturn s (.group p) w [.mem, .cores, .coh] (KSet d (BitVec.ofNat 64 (monDiffer s (coreOfG p) g))) (fun t =>
        (noPrivate s → t.mem = s.mem) ∧ ∃ h, mfind t.groups p = some h ∧ h.mons = g.mons.filter (fun e => !bit (monDiffer s (coreOfG p) g) e.1))) ∧
   (∀ s p g w d limit, p = subjAt s 0 → mfind s.groups p = some g → g.u.wait = some w → w.kind = .monWait d (some limit) →
      limit ≤ s.clk.cyc → monDiffer s (coreOfG p) g = 0 → monPoison s g = none → g.mons.any monBlind = false →
      Returns .monWaitTimeout s (.group p) w [] (KSet d 0) (fun t => ∃ h, mfind t.groups p = some h ∧ h.mons = g.mons)) ∧
   (∀ s w n, WaitsAt s (subjAgent s) w → w.kind = .nap n → n ≤ s.clk.cyc →
      Returns .napExpiry s (subjAgent s) w [] RegsKept (fun _ => True))) ∧
  ((∀ s w n tag r, WaitsAt s (subjAgent s) w → w.kind = .ringPut n tag →
      ringAt s (agentBlk s (subjAgent s)) n = some r → countDiff r.pr r.f < r.ns →
      Returns .ringWaitReturn s (subjAgent s) w [.blocks, .spad] RegsKept (fun t =>
        ∃ r', ringAt t (agentBlk s (subjAgent s)) n = some r' ∧ r'.pr = (r.pr + 1) % 2 ^ 32 ∧ r'.a = r.a ∧ r'.ns = r.ns)) ∧
   (∀ s w d n r, WaitsAt s (subjAgent s) w → w.kind = .ringGet d n →
      ringAt s (agentBlk s (subjAgent s)) n = some r → countDiff r.p r.a ≠ 0 →
      Returns .ringWaitReturn s (subjAgent s) w [.blocks]
        (KSet d (BitVec.ofNat 64 (ringTag s (agentBlk s (subjAgent s)) r))) (fun t =>
        ringAt t (agentBlk s (subjAgent s)) n = some { r with a := (r.a + 1) % 2 ^ 32 })) ∧
   (∀ s w d n side r, WaitsAt s (subjAgent s) w → w.kind = .ringWait d n side →
      ringAt s (agentBlk s (subjAgent s)) n = some r →
      (side = 0 ∧ countDiff r.pr r.f < r.ns) ∨ (side = 1 ∧ countDiff r.p r.a ≠ 0) →
      Returns .ringWaitReturn s (subjAgent s) w []
        (KSet d (BitVec.ofNat 64 (if side = 0 then r.pr % r.ns else ringTag s (agentBlk s (subjAgent s)) r))) (fun _ => True)) ∧
   (∀ s w d key sync x, partyOf s (.group (subjAt s 0)) = some x → x.u.wait = some w → w.kind = .barWait d key sync →
      waitOver s x key = true →
      Returns .barrierWaitReturn s (.group (subjAt s 0)) w [] (KSet d (barWord (barAt s x.blk key))) (fun _ => True)) ∧
   (∀ s w d key sync x, partyOf s (.stream (subjAt s 0)) = some x → x.u.wait = some w → w.kind = .barWait d key sync →
      waitOver s x key = true →
      Returns .mbarWaitReturn s (.stream (subjAt s 0)) w [] (KSet d (barWord (barAt s x.blk key))) (fun _ => True)) ∧
   (∀ s w key x a, a = .group (subjAt s 0) → arrivesLater s a x w key none →
      Returns .barrierWaitReturn s a w [.blocks, .bars, .trace, .clusters] RegsKept (fun t =>
        ArrivalMade s t a x key w.lanes (agentLive s a))) ∧
   (∀ s w key d x a g, a = .group (subjAt s 0) → arrivesLater s a x w key (some d) → mfind s.groups (subjAt s 0) = some g →
      EventDoes .barrierWaitReturn s [.blocks, .bars, .trace, .clusters] [subjAt s 0] [] (fun t =>
        (∃ h, mfind t.groups (subjAt s 0) = some h ∧ h.u.wait = some { w with kind := .barWait d key true } ∧
          h.u.regs = g.u.regs ∧ h.sched = g.sched ∧ h.live = g.live ∧ h.tr = g.tr ∧ h.sq = g.sq) ∧
        ArrivalMade s t a x key w.lanes g.live)) ∧
   (∀ s w key x a, a = .stream (subjAt s 0) → arrivesLater s a x w key none →
      Returns .mbarWaitReturn s a w [.blocks, .bars, .trace, .clusters] RegsKept (fun t =>
        ArrivalMade s t a x key 0 0))) ∧
  ((∀ s c w s', spawnAgain s (subjAt s 0) = some (c, w, s') → passes (.spawn w) anyProfile s' c = true →
      (∀ l ∈ lanesOf (c.active w.g w.gn), c.src 0 .n64 w.a l % 4 = 0) →
      ∃ t, exec .spawnRelease s = .next t ∧ Completes c s' t [.cores] [] RegsKept none ∧
        getCore t c.core = { ((lanesOf (c.active w.g w.gn)).foldl (fun k l =>
          deposit c.launch c.part (BitVec.ofNat 64 (c.src 0 .n64 w.a l)) (c.cyc + max 1 (min 65535 (c.src 2 .n32 (srcOf w.c.toNat) l)))
            (c.spawnArgs w l) k) (getCore s c.core, s.nextId)).1 with
          spawnAt := if c.active w.g w.gn = 0 then (getCore s c.core).spawnAt else (c.cyc, c.key) }) ∧
   (∀ s p g w d m, State.Inv s → p = subjAt s 0 → mfind s.groups p = some g → g.u.wait = some w →
      w.kind = .migration d → migOf s g.uid = some m → migReady s m = true → noneHeld s →
      m.pteAt + 8 ≤ m.new ∨ m.new + 2 ^ m.log2 ≤ m.pteAt →
      ∃ t, exec .migrationComplete s = .next t ∧ Same [.mem, .cores, .clusters, .coh, .mail] s t ∧
        (∃ h, mfind t.groups p = some h ∧ h.u.wait = none ∧ KSet d 0 g.u.regs h.u.regs ∧ h.live = g.live ∧
          ∀ l, l < 32 → mget 0 h.sched.pc l = if inMask w.lanes l then w.next else mget 0 g.sched.pc l) ∧
        (∀ i, i < 2 ^ m.log2 → readByte t.mem (m.new + i) = readByte s.mem (m.old + i)) ∧
        fld (BitVec.ofNat 64 (ofBytes (readBytes t.mem m.pteAt 8))) 47 16 = m.new / 65536 % 2 ^ 32 ∧
        (∀ k, ∀ e ∈ (getCore t k).tlb, ¬((e.asid = m.asid ∨ fld e.pte 7 7 = 1) ∧ e.base = m.va / 2 ^ e.log2)) ∧
        (∀ k, ∀ e ∈ (getCluster t k).tlb, ¬((e.asid = m.asid ∨ fld e.pte 7 7 = 1) ∧ e.base = m.va / 2 ^ e.log2)) ∧
        ∀ x ∈ t.coh.migs, x.uid ≠ m.uid))

/-- What groups and streams do between their words completes: paths that reach AGELIM are forced, held paths and rejoins are
released, markers end with every result landed, results and rows land, releases and arrivals are recorded, pigeonholes expire
and their groups are placed, agents end, a stream's trap is delivered (R46, R47, R97 to R113, R120 to R124, R133, R136, R198, R246,
R337, R371 to R374). -/
def Obligations.AgentEvents : Prop :=
  ((∀ s p g, p = subjAt s 0 → mfind s.groups p = some g → EventDoes .pathAgeLimit s [] [p] [] (schedTo p s (fun x y =>
      y = { x with forced := y.forced } ∧ ∀ l, l < 32 →
        (inMask y.forced l = true ↔ ∃ q ∈ pathsOf g, inMask q.2 l = true ∧ ageLimit s (coreOfG p) ≤ pathAge g q.2)))) ∧
   (∀ s p g q, p = subjAt s 0 → mfind s.groups p = some g → holdRelease s p g = some q →
      EventDoes .holdCountLimit s [] [p] [] (schedTo p s (fun x y => y = { x with released := some q } ∧ q ∈ pathsOf g ∧
        ageLimit s (coreOfG p) ≤ holdCount g q.2))) ∧
   (∀ s p g q, p = subjAt s 0 → mfind s.groups p = some g → convRelease s p g = some q →
      EventDoes .convergenceRelease s [] [p] [] (schedTo p s (fun x y => y = { x with released := some q } ∧ q ∈ pathsOf g ∧
        ∀ r ∈ pathsOf g, pathHeld s p g r.1 = true))) ∧
   (∀ s p g, p = subjAt s 0 → mfind s.groups p = some g → EventDoes .rejoinRelease s [] [p] [] (schedTo p s (fun x y =>
      y = { x with passed := x.passed ||| rejoinLanes s p g })))) ∧
  ((∀ s a u, a = subjAgent s → agentU s a = some u → u.mark = true → (∀ o ∈ u.outs, o.landed = true) →
      EventDoes .markerRelease s [] (groupPlaces a) (streamPlaces a) (fun t => agentU t a = some { u with mark := false, outs := [] })) ∧
   (∀ s a u, a = subjAgent s → agentU s a = some u → landable u = true →
      EventDoes .resultLanding s [] (groupPlaces a) (streamPlaces a) (fun t => ∃ v, agentU t a = some v ∧
        v = { u with regs := v.regs, outs := v.outs } ∧ v.outs.length = u.outs.length ∧
        (v.outs.filter (fun o => !o.landed)).length + 1 = (u.outs.filter (fun o => !o.landed)).length ∧
        (u.outs.length = 1 → v.regs = u.regs))) ∧
   (∀ s p x b o tile oty kc m, p = subjAt s 0 → mfind s.streams p = some x → kcStore x = some (o, tile, oty, kc) →
      mfind s.blocks x.blk = some b → b.mat = some m → goneRun s (physRuns s (o.rows.headD [])) = none →
      piecesReady s (.op o.id) (o.rows.headD []) = true →
      EventDoes .completionLanding s [.mem, .spad, .cores, .coh] [] [p] (fun t => ∃ y, mfind t.streams p = some y ∧
        KcAfter kc (kcDown s kc (16 * otyBytes oty) x.u.regs.u) x.u.regs.u y.u.regs.u ∧
        y.ops.map (·.id) = x.ops.map (·.id) ∧ ∀ z ∈ y.ops, z.id = o.id → ∃ z' ∈ x.ops, z'.id = o.id ∧ z.rows = z'.rows.drop 1)) ∧
   (∀ s a x q r, a = subjAgent s → partyOf s a = some x → ringPendNow s a = some q → pendRing q = some r →
      EventDoes .ringPutRecord s [.blocks, .spad] (groupPlaces a) (streamPlaces a) (fun t =>
        (∃ y, partyOf t a = some y ∧ y.u = { x.u with pend := x.u.pend.erase q }) ∧
        ∀ v, ringAt s x.blk r = some v → ∃ v', ringAt t x.blk r = some v' ∧ v'.pr = v.pr ∧ v'.a = v.a ∧
          v'.p = (match q.kind with
            | .put _ _ _ => (v.p + 1) % 2 ^ 32
            | _ => v.p) ∧
          v'.f = (match q.kind with
            | .putFree _ => (v.f + 1) % 2 ^ 32
            | _ => v.f))) ∧
   (∀ s a x q key rel live, a = subjAgent s → partyOf s a = some x → x.u.pend.find? (arrivesNow s x) = some q →
      q.kind = .arrive key rel live → mfind s.blocks x.blk ≠ none → noStall s →
      EventDoes .arrivalRecord s [.blocks, .bars, .trace, .clusters] (groupPlaces a) (streamPlaces a) (fun t =>
        let b := barAt s x.blk key
        barAt t x.blk key = barArrived s.clk.cyc key x.id b ∧ (∀ k, k ≠ key → barAt t x.blk k = barAt s x.blk k) ∧
        ∃ y, partyOf t a = some y ∧ y.u.pend = x.u.pend.filter (· != q) ∧
          mfind y.u.arrived key = some (arrivalGen s.clk.cyc x.id b)))) ∧
  ((∀ s c, c = subjAt s 0 → sortedKeys (getCore s c).holes = true → EventDoes .pigeonholeExpiry s [.cores] [] [] (fun t =>
      (∀ k, k ≠ c → getCore t k = getCore s k) ∧
      ∀ n, ((mfind (getCore t c).holes n).map (fun h => { h with pending := none })) =
          ((mfind (getCore s c).holes n).map (fun h => { h with pending := none })) ∧
        ∀ h, mfind (getCore t c).holes n = some h → h.expiry ≤ s.clk.cyc → h.pending.isSome = true)) ∧
   (∀ s c n h l p areas, c = subjAt s 0 → spawnWhere s c = some (n, h, l, p, areas) →
      h.threads.length ≤ 32 →
      EventDoes .pendingGroupPlacement s [.cores, .blocks] [16 * (4 * c + p) + (freeSlots s (4 * c + p)).headD 0] [] (fun t =>
        mfind (getCore t c).holes n = none ∧
        (∃ b, mfind t.blocks s.nextId = some b ∧ b.launch = h.launch ∧ b.core = c ∧ b.part = p ∧ b.spawned = true ∧ b.spSize = 0) ∧
        ∃ g, mfind t.groups (16 * (4 * c + p) + (freeSlots s (4 * c + p)).headD 0) = some g ∧ g.blk = s.nextId ∧
          g.vector = true ∧ g.ending = false ∧ g.u.wait = none ∧ (∀ i, i < 32 → (inMask g.live i = true ↔ i < h.threads.length)) ∧
          (∀ i, inMask g.live i = true → mget 0 g.sched.pc i = h.entry) ∧
          (∀ n, getKf g.u.regs.u n = mget kfReset l.fmts n) ∧
          ∀ i j a, i < 32 → j < 4 → ((h.threads[i]?).bind (·[j]?)) = some a → getV g.u.regs.l j i = a)) ∧
   (∀ s p g, p = subjAt s 0 → mfind s.groups p = some g → groupDone g = true → noStall s →
      EventDoes .groupEnd s [.mem, .spad, .blocks, .bars, .trace, .clusters, .coh, .cores, .faults] [p] [] (fun t =>
        mfind t.groups p = none)) ∧
   (∀ s p x, p = subjAt s 0 → mfind s.streams p = some x → streamDone x = true → noStall s →
      EventDoes .streamEnd s [.mem, .spad, .blocks, .bars, .trace, .clusters, .coh, .cores, .faults] [] [p] (fun t =>
        mfind t.streams p = none)) ∧
   (∀ s p x tr q g dest, p = subjAt s 0 → mfind s.streams p = some x → x.trap = some tr → tr.delivered = false →
      hostGroup s x.blk = some (q, g) → mfind s.groups q = some g → stallsNow s g = false → trapWaits g.u = none →
      g.tr.bankS.active = false → noStall s →
      dest = trapTo g s.idn.stvec tr.cause tr.addr →
      EventDoes .streamTrapDelivery s [.trace, .clusters] [q] [p] (fun t =>
        (∃ y, mfind t.streams p = some y ∧ y = { x with trap := some { tr with delivered := true } }) ∧
        ∃ h, mfind t.groups q = some h ∧ h.live = g.live ∧
          (if dest.sys then h.tr.bankU = g.tr.bankU else h.tr.bankS = g.tr.bankS) ∧
          (if dest.sys then h.tr.bankS else h.tr.bankU) =
            { cause := trapCauseWord true dest.retry (g.tr.privMode || g.tr.bankS.active) dest.cause, pc := tr.pc, addr := dest.addr
              lane := trapLaneWord (coreOfG q) (partOfG q % 4) (slotOfG q) (lowest g.live)
              scr := (if dest.sys then g.tr.bankS else g.tr.bankU).scr, active := true } ∧
          ∀ l, l < 32 → inMask g.live l = true → mget 0 h.sched.pc l = dest.vec)))

/-- The memory system's events complete: queued stores perform in order, waiting writes perform when leases end and every
acknowledgement has come, invalidations and fills arrive, clean lines are evicted, privatised copies merge, round notices and
pushes arrive, replicas follow their root, walks end, fault records are written (R258 to R261, R277, R283 to R286, R307 to R311,
R317, R321). That a fill brings the bytes that its home holds as it arrives and that a merge drops every core's copy (log entry
36), and the arrival of an engine's, a replica's and a record's writes at their homes (log entry 27), are the model's choices. -/
def Obligations.MemoryEvents : Prop :=
  ((∀ s p g e rest, p = subjAt s 0 → mfind s.groups p = some g → g.sq = e :: rest → headReady s (coreOfG p) e = true →
      entryPoison s e = none → EventDoes .storePerform s [.mem, .spad, .cores, .coh] [p] [] (fun t =>
        (∃ h, mfind t.groups p = some h ∧ h = { g with sq := rest, u := { g.u with regs := h.u.regs, outs := h.u.outs } } ∧
          (e.kind = .store → h.u.regs = g.u.regs)) ∧
        (∀ lane c o n data cmp, e.kind = .store → e.items = [⟨lane, [⟨.spad c o, n⟩], data, cmp⟩] →
          t.mem = s.mem ∧ BytesAfter s.spad t.spad (spadKey c o) (toBytes n data.toNat)) ∧
        ∀ lane a n data cmp, e.kind = .store → e.items = [⟨lane, [⟨.phys a true, n⟩], data, cmp⟩] → noPrivate s →
          linesOpen s (coreOfG p) a n → t.spad = s.spad ∧ BytesAfter s.mem t.mem a (toBytes n data.toNat))) ∧
   (∀ s l, l = subjAt s 0 → EventDoes .leaseEnd s [.mem, .cores, .coh] [] [] (fun t =>
        (∀ x ∈ t.coh.leases, x.line = l → s.clk.cyc < x.lexp) ∧
        ∀ w, homeHead s l = some w → homeReady s w = true → t.mem = writeCells s.mem w.bytes ∧ ∀ x ∈ t.coh.homeq, x.id ≠ w.id)) ∧
   (∀ s wid core rest, takenAt s.coh.acks (subjAt s 0) (wid, core) rest →
      EventDoes .invalidationAcknowledged s [.mem, .cores, .coh] [] [] (fun t => t.coh.acks = rest ∧
        ∀ w ∈ t.coh.homeq, w.id = wid → ∃ w' ∈ s.coh.homeq, w'.id = wid ∧ w.acks = w'.acks.erase core)) ∧
   (∀ s x rest, takenAt s.coh.invals (subjAt s 0) x rest →
      (∀ f ∈ s.coh.fills, ¬(f.core = x.core ∧ f.line = x.line)) →
      EventDoes .invalidation s [.cores, .coh] [] [] (fun t =>
        (mfind (getCore t x.core).l1 x.line = match mfind (getCore s x.core).l1 x.line with
          | some y => if y.tracked = true ∧ seqDiff x.seq y.seq < 0 then some y else none
          | none => none) ∧
        t.coh = { s.coh with invals := rest, acks := s.coh.acks ++ [(x.wid, x.core)] })) ∧
   (∀ s x rest f, takenAt s.coh.invals (subjAt s 0) x rest →
      s.coh.fills.find? (fun f => f.core == x.core && f.line == x.line) = some f → f.held = none →
      EventDoes .invalidation s [.coh] [] [] (fun t => t.coh = { s.coh with invals := rest, fills := t.coh.fills } ∧
        ∀ y ∈ t.coh.fills, y.core = x.core → y.line = x.line → y.held = some (x.seq, x.wid))) ∧
   (∀ s c l, ∃ t, act (.evict 2 c l) s = .next t ∧ Same [.cores, .coh] s t ∧ (∀ k, k ≠ c → getCore t k = getCore s k) ∧
      t.coh = { s.coh with poison := t.coh.poison } ∧
      (lineClean s c l = true → mfind (getCore t c).l1 l = none ∧
        mfind t.coh.poison l = if badCopy s c l = true ∧ mfind s.coh.poison l = none then some (memUnit l)
          else mfind s.coh.poison l) ∧
      (lineClean s c l = false → t = s)) ∧
   (∀ s f rest, takenAt s.coh.fills (subjAt s 0) f rest → privOwn s f.core f.line = none →
      EventDoes .lineFill s [.cores, .coh] [] [] (fun t => t.coh = { s.coh with fills := rest, acks := s.coh.acks ++ heldAcks [f] } ∧
        (∀ k, k ≠ f.core → getCore t k = getCore s k) ∧
        (if (∃ h, f.held = some h ∧ 0 ≤ seqDiff h.1 f.seq) ∨ mfind s.coh.poison f.line ≠ none then t.cores = s.cores
          else mfind (getCore t f.core).l1 f.line = some { f.copy with data := fillLine s f.core f.line }))) ∧
   (∀ s l, l = subjAt s 0 → (getDir s l).priv ≠ [] → EventDoes .privatisedMerge s [.mem, .cores, .coh] [] [] (fun t =>
        t.mem = writeCells s.mem (privCells l (getDir s l)) ∧ (getDir t l).priv = [] ∧ (getDir t l).until_ = s.clk.cyc + 65536 ∧
        ∀ k, mfind (getCore t k).l1 l = none))) ∧
  ((∀ s core r count rest, takenAt s.coh.notices (subjAt s 0) (core, r, count) rest →
      EventDoes .roundNotice s [.cores, .coh] [] [] (fun t => t.coh = { s.coh with notices := rest } ∧
        knownRound t core r = if inRegionScope s r core then max (knownRound s core r) count else knownRound s core r)) ∧
   (∀ s w, watchId s (subjAt s 0) = some w → w.fired = true → w.limit ≠ 0 → privOwn s w.core w.line = none →
      EventDoes .stallPush s [.cores, .coh] [] [] (fun t => (∀ x ∈ t.coh.watches, x.id = w.id → x.limit = 0) ∧
        if fillPending s w.core w.line = true then t.cores = s.cores ∧
          (∀ x ∈ t.coh.fills, x.core = w.core → x.line = w.line → w.tag ≤ mget 0 x.copy.tags w.region)
        else mfind (getCore t w.core).l1 w.line = some (pushedLine s w))) ∧
   (∀ s w, watchId s (subjAt s 0) = some w → w.fired = false → w.limit ≠ 0 → w.limit ≤ s.clk.cyc →
      EventDoes .stallWatchTimeout s [.coh] [] [] (fun t => t.coh = { s.coh with watches := t.coh.watches } ∧
        ∀ x ∈ t.coh.watches, x.id = w.id → x.limit = 0)) ∧
   (∀ s cs rest, takeRep (subjAt s 0) s.coh.reps = some (cs, rest) →
      EventDoes .replicaUpdate s [.mem, .cores, .coh] [] [] (fun t =>
        if (cellLines cs).all (lineReady s (.replica (subjAt s 0))) = true then t.coh.reps = rest ∧ t.mem = writeCells s.mem cs
        else t.coh.reps = s.coh.reps ∧ (noPrivate s → t.mem = s.mem ∧
          ∀ l ∈ cellLines cs, lineReady s (.replica (subjAt s 0)) l = false → (claimOf t (.replica (subjAt s 0)) l).isSome = true)))) ∧
  ((∀ s cl m, cl = subjAt s 0 → mergeNth s cl (subjAt s 1) = some m → m.cause = none →
      EventDoes .pageWalkComplete s [.clusters, .cores, .faults] [] [] (fun t =>
        match walkEnd s (entryTctx s m) m.asid m.rcd.va (accOf m.rcd.acc) m.user with
        | .inl e =>
          if rootDown s e (accOf m.rcd.acc) then
            t.faults = { s.faults with pend := s.faults.pend ++ [(cl, { m.rcd with kind := 1 })] } ∧ t.cores = s.cores
          else t.faults = s.faults ∧ (∀ x ∈ (getCluster t cl).merge, ¬(x.asid = m.asid ∧ x.page = m.page)) ∧
            e ∈ (getCluster t cl).tlb ∧ { e with count := 0 } ∈ (getCore t m.core).tlb
        | .inr cause =>
          t.faults = { s.faults with pend := s.faults.pend ++ [(cl, { m.rcd with kind := if cause = 9 then 2 else 1 })] } ∧
            t.cores = s.cores)) ∧
   (∀ s cl r rest a, s.faults.pend = (cl, r) :: rest → faultRingFull s.faults = false →
      a = fld s.faults.cfg 47 12 * 4096 + 32 * (fld s.faults.ptr 31 0 % 2 ^ fld s.faults.cfg 4 0) →
      (linesOf a 32).all (lineReady s .record) = true →
      EventDoes .faultRecordWrite s [.mem, .cores, .coh, .clusters, .faults] [] [] (fun t =>
        t.faults = { s.faults with ptr := t.faults.ptr, seq := (s.faults.seq + 1) % 65536, pend := rest } ∧
        fld t.faults.ptr 31 0 = (fld s.faults.ptr 31 0 + 1) % 2 ^ 32 ∧ fld t.faults.ptr 63 32 = fld s.faults.ptr 63 32 ∧
        (physExists s a = true → s.idn.hevt = 0 ∨ r.kind = 3 →
          BytesAfter s.mem t.mem a (recordBytes r s.faults.seq (timeReg s.clk))))))

/-- Couriers start and end copies, and the stream's engine operations end, with their postmarks, completion counts and status
registers (R136, R173, R182, R183, R192, R203, R225 to R229). The moves `unit` (one element of a copy moves), `row` (the next row of
a load lands) and `ahead` (the row that ROWPROG's look-ahead translates enters its L1 TLB) are the model's own (log entries 11, 22
and 56); that rows land together at the end or one by one is log entry 56, that a courier takes a copy only in a later cycle log
entry 57. -/
def Obligations.CourierAndEngineEvents : Prop :=
  ((∀ s c n j rest b, c = subjAt s 0 → idleCourier (getCore s c) = some n → (getCore s c).copyq = j :: rest →
      mfind s.blocks j.blk = some b → forkDone s b (getWin b j.win) j = true → s.clk.cyc ≠ j.cyc → noStall s →
      EventDoes .courierStart s [.cores, .trace, .clusters] [] [] (fun t =>
        getCore t c = { getCore s c with copyq := rest, couriers := mput (getCore s c).couriers n j })) ∧
   (∀ s c n blk w l b j, c = subjAt s 0 → (getCore s c).copyq = [] → idleCourier (getCore s c) = some n →
      aheadOf s c = (blk, w) :: l → mfind s.blocks blk = some b →
      j = ({ blk := blk, win := w, out := false, ra := true, uid := (getWin b w).uid, after := (getWin b w).after } : CopyJob) →
      forkDone s b (getWin b w) j = true → noStall s →
      EventDoes .runaheadStart s [.cores, .blocks, .trace, .clusters] [] [] (fun t =>
        (∃ b', mfind t.blocks blk = some b' ∧ b' = { b with wins := b'.wins } ∧
          ∀ m, getWin b' m = if m = w then { getWin b w with state := .runahead } else getWin b m) ∧
        mfind (getCore t c).couriers n = some j)) ∧
   (∀ s c n j b e, c = subjAt s 0 → n = subjAt s 1 → copyOf s c n false = some (j, b, e) → b.core = c → groupsOfBlk s j.blk ≠ [] →
      sortedKeys (getCore s c).couriers = true → noStall s →
      EventDoes .copyInEnd s [.mem, .spad, .cores, .coh, .blocks, .clusters, .faults, .trace] [] [] (CopyDone c n j b e)) ∧
   (∀ s c n j b e, c = subjAt s 0 → n = subjAt s 1 → copyOf s c n true = some (j, b, e) → b.core = c → groupsOfBlk s j.blk ≠ [] →
      sortedKeys (getCore s c).couriers = true → noStall s →
      EventDoes .copyOutEnd s [.mem, .spad, .cores, .coh, .blocks, .clusters, .faults, .trace] [] [] (CopyDone c n j b e))) ∧
  ((∀ s p x b m o dst len ebits n first, p = subjAt s 0 → opAt s p (subjAt s 1) = some (x, o) →
      o.kind = .load dst len ebits n first → mfind s.blocks x.blk = some b → b.mat = some m →
      s.coh.poison = [] → s.coh.removed = [] → noPrivate s → blockedBy s (o.rows.flatMap (physRuns s)) = none →
      EventDoes .mloadComplete s [.cores, .blocks] [] [p] (fun t =>
        (∃ y, mfind t.streams p = some y ∧ y.ops = x.ops.filter (fun z => z.id != o.id) ∧ y.u.regs = x.u.regs ∧ y.pc = x.pc) ∧
        mfind t.blocks x.blk = some { b with mat := some { o.rows.zipIdx.foldl (fun m r =>
          landRow dst ebits n (first + r.2) (fun _ => true) (readRow s (p / 4) r.1) m) m with rowprog := 0 } })) ∧
   (∀ s p i x b m o dst len ebits n first r rest, opAt s p i = some (x, o) → o.kind = .load dst len ebits n first →
      o.rows = r :: rest → mfind s.blocks x.blk = some b → b.mat = some m →
      s.coh.poison = [] → s.coh.removed = [] → noPrivate s → blockedBy s (physRuns s r) = none →
      ∃ t, act (.row p i) s = .next t ∧ EventKeeps [.cores, .blocks] [] [p] s t ∧
        mfind t.blocks x.blk = some { b with mat := some (landRow dst ebits n first (fun _ => true) (readRow s (p / 4) r) m) } ∧
        ∃ y, mfind t.streams p = some y ∧ y.u = x.u ∧ y.ops = x.ops.map (fun z =>
          if z.id == o.id then { z with kind := .load dst len ebits n (first + 1), rows := rest } else z)) ∧
   (∀ s c n i, (∃ t, act (.unit c n i) s = .next t ∧
      EventKeeps [.mem, .spad, .cores, .coh, .clusters, .faults, .trace] [] [] s t) ∧
      ∀ j b, mfind (getCore s c).couriers n = some j → mfind s.blocks j.blk = some b →
        (i ∈ j.moved → act (.unit c n i) s = .next s) ∧
        ∀ w u us, w = getWin b j.win → (unitsOf w)[i]? = some u → i ∉ j.moved →
          unitStep (.courier c n) (engineWho s j.blk b) w (blkByte b w.off) j.out u s = some (us, none) →
          ∃ t, act (.unit c n i) s = .next t ∧ mfind (getCore t c).couriers n = some { j with moved := j.moved ++ [i] } ∧
            t.mem = (applyAll us s).mem ∧ t.spad = (applyAll us s).spad ∧
            ∀ vs us', j.out = false → readsOf (engineWho s j.blk b) u.reads s = some (us', .inl vs) →
              BytesAfter s.spad t.spad (blkByte b w.off + u.off) (u.make vs)) ∧
   (∀ s p x b m o tile oty kc, p = subjAt s 0 → opAt s p (subjAt s 1) = some (x, o) → o.kind = .store tile oty kc →
      mfind s.blocks x.blk = some b → b.mat = some m → goneRun s (o.rows.flatMap (physRuns s)) = none →
      piecesReady s (.op o.id) o.rows.flatten = true →
      EventDoes .mstComplete s [.mem, .spad, .cores, .coh] [] [p] (fun t =>
        ∃ y, mfind t.streams p = some y ∧ y.ops = x.ops.filter (fun z => z.id != o.id) ∧ y.pc = x.pc ∧
          (kc = none → y.u.regs.u = x.u.regs.u) ∧
          ∀ n, kc = some n →
            KcAfter n (kcDown s n (o.rows.length * (16 * otyBytes oty)) x.u.regs.u) x.u.regs.u y.u.regs.u)) ∧
   (∀ s p x b m o src dst kt tm ityp l d, p = subjAt s 0 → opAt s p (subjAt s 1) = some (x, o) →
      o.kind = .sdec src dst kt tm ityp l → (x.ops.take (subjAt s 1)).any isSdecOp = false → mfind s.blocks x.blk = some b → b.mat = some m →
      d = decompose (spEntries m src kt ityp) ityp tm l →
      EventDoes .sdecComplete s [.blocks] [] [p] (fun t =>
        (∃ y, mfind t.streams p = some y ∧ y.ops = x.ops.filter (fun z => z.id != o.id) ∧ 
          y.u.regs = x.u.regs ∧ y.pc = x.pc) ∧
        mfind t.blocks x.blk = some { b with mat := some { writeDecomp dst kt ityp d m with sstat := sstatOf d ityp kt } })) ∧
   (∀ s p pc row, ∃ t, act (.ahead p pc row) s = .next t ∧ EventKeeps [.cores] [] [] s t ∧
      ∀ k, getCore t k = { getCore s k with tlb := (getCore t k).tlb } ∧
        ∀ e ∈ (getCore t k).tlb, e ∈ (getCore s k).tlb ∨ AheadEntry s p pc row k e))

/-- The front-end, the trace fabric and the counters complete their events: a launch ends with its postmark (SEQ, STATUS 1, CODE
0, REFUSE 0) and its END card, a killed one with its status, its code and its KILL card; anchors are read and packets taken,
refused with their code's postmark, or end in the queue's error; a late head is dropped with DEADLINE's postmark or carded LATE; a
head whose START has come and an arbitration place the next block, or restore the oldest saved one; a rotation saves on each core
the block resident longest and gives its place to the first one waiting there; cards drain into rings, a period ends with its
STALL card, a sampler emits the card of the load it followed, then of the instruction, counters add what earlier cycles counted;
an object is loaded (R347 to R354, R361 to R363, R365, R395, R399, R404). That a launch's formats are those of the kernel loaded
last and its PRIV is fixed when its packet is taken (log entry 45), and what the rotation, the restore and the loader choose (log
entries 45 and 62), are the model's. -/
def Obligations.LaunchAndTraceEvents : Prop :=
  ((∀ s n l, n = subjAt s 0 → mfind s.mail.launches n = some l → l.dying = none → launchDone s n l = true → markReaches s l →
      noStall s →
      EventDoes .launchComplete s [.mem, .cores, .coh, .faults, .bars, .mail, .trace, .clusters] [] [] (fun t =>
        mfind t.mail.launches n = none ∧ (∀ m, m ≠ n → mfind t.mail.launches m = mfind s.mail.launches m) ∧
        t.mail.queues = s.mail.queues ∧ (∀ k, (getBar s k).holder = some n → getBar t k = {}) ∧
        MarkStored l (launchMark l.seq 1 0 0) s t ∧
        CardOut (pkgSrc 7) 10 255 0 (frankOf l) (BitVec.ofNat 64 (queueP0 l)) (launchMark l.seq 1 0 0) s t)) ∧
   (∀ s n l st code, n = subjAt s 0 → mfind s.mail.launches n = some l → l.dying = some (st, code) → hasBlocks s n = false →
      allAdded s l = true → (∀ x ∈ s.mail.saved, x.blk.launch ≠ n) → markReaches s l →
      (∀ e ∈ s.trace.sessions, l.reset = true → sessOpen e.2 = false) → noStall s →
      EventDoes .launchComplete s [.mem, .cores, .coh, .faults, .bars, .mail, .trace, .clusters] [] [] (fun t =>
        mfind t.mail.launches n = none ∧ (∀ m, m ≠ n → mfind t.mail.launches m = mfind s.mail.launches m) ∧
        t.mail.queues = s.mail.queues ∧ MarkStored l (launchMark l.seq st code 0) s t ∧
        CardOut (pkgSrc 7) 14 255 0 (frankOf l) (BitVec.ofNat 64 (queueP0 l + code * 2 ^ 32)) 0 s t)) ∧
   ((∀ s q, q = subjAt s 0 → fld (getQueue s q).ctl 0 0 = 0 → Idle .anchorRead s) ∧
    (∀ s q, q = subjAt s 0 → fld (getQueue s q).ctl 0 0 = 1 → frontHeld s = false →
      fld (getQueue s q).head 63 56 ≠ 0 ∨ (getQueue s q).head.toNat % 8 ≠ 0 →
      EventDoes .anchorRead s [.mail, .trace, .clusters, .mem, .cores, .coh] [] [] (fun t => HostTold 2 s t ∧
        fld (getQueue t q).ctl 0 0 = 0 ∧ fld (getQueue t q).ctl 23 16 = 1 ∧ (getQueue t q).head = (getQueue s q).head ∧
        t.mail.launches = s.mail.launches)) ∧
    ∀ s q x p as bs l0 l, q = subjAt s 0 → x = getQueue s q → fld x.ctl 0 0 = 1 → frontHeld s = false → fld x.head 63 56 = 0 →
      x.head.toNat % 8 = 0 → frontBlocked s x.tctx .acq x.head.toNat 8 = false → frontRead s x.tctx x.head.toNat 8 = .inl as → p = BitVec.ofNat 64 (ofBytes as) → p ≠ 0 →
      fld p 63 56 = 0 → p.toNat % 128 = 0 → frontBlocked s x.tctx .acq p.toNat 128 = false →
      frontRead s x.tctx p.toNat 128 = .inl bs →
      l0 = ({ queue := q, seq := (x.count + 1) % 65536, addr := p
              pkt := (List.range 16).map (fun i => BitVec.ofNat 64 (ofBytes ((bs.drop (8 * i)).take 8)))
              priv := fld x.ctl 3 3 == 1 } : Launch) →
      l = { l0 with fmts := kernelFmts s l0 } →
      (refusal s x l = 0 →
        EventDoes .anchorRead s [.mail] [] [] (fun t => getQueue t q = { x with head := p, count := x.count + 1 } ∧
          mfind t.mail.launches s.nextId = some l ∧ ∀ m, m ≠ s.nextId → mfind t.mail.launches m = mfind s.mail.launches m)) ∧
      (refusal s x l ≠ 0 → markReaches s l →
        EventDoes .anchorRead s [.mem, .cores, .coh, .faults, .mail] [] [] (fun t =>
          getQueue t q = { x with head := p, count := x.count + 1 } ∧ t.mail.launches = s.mail.launches ∧
          MarkStored l (launchMark l.seq 2 0 (refusal s x l)) s t))) ∧
   (∀ s q text data img syms native, ∃ t, act (.load q text data img syms native) s = .next t ∧
      Same [.mem, .cores, .coh, .mail] s t ∧ t.mail.queues = s.mail.queues ∧ t.mail.launches = s.mail.launches ∧
      (loaderError s img syms ≠ 0 → t = s) ∧
      ∀ ts ds, loaderError s img syms = 0 → objUzora img = false →
        sectionPlaces s (getQueue s q).tctx [.fetch] text (sectionOf img (objText img)) = some ts →
        sectionPlaces s (getQueue s q).tctx [] data (sectionOf img (objData img)) = some ds →
        (∀ i, i < objNkern img → ∃ k ∈ t.mail.kernels, k.queue = q ∧
          ∀ n, n < 8 → mget kfReset k.fmts n = (descFmt img (descAt img i) n).getD kfReset) ∧
        ∀ a nc bs, ts = [(.phys a nc, bs)] → ds = [] → (∀ n ∈ linesOf a bs.length, unitQuiet s n) → BytesAfter s.mem t.mem a bs) ∧
   (∀ s, startReached s (subjAt s 0) = false → Idle .startTimeReached s) ∧
   (∀ s q n l, q = subjAt s 0 → headOfQ s q = some (n, l) → isLate s l = true → frontHeld s = false →
      (fld (getQueue s q).ctl 4 4 = 1 → markReaches s l →
        EventDoes .deadlinePass s [.mem, .cores, .coh, .faults, .mail, .clusters] [] [] (fun t =>
          mfind t.mail.launches n = none ∧ (∀ m, m ≠ n → mfind t.mail.launches m = mfind s.mail.launches m) ∧
          MarkStored l (launchMark l.seq 4 0 0) s t)) ∧
      (fld (getQueue s q).ctl 4 4 = 0 → l.late = false → noStall s →
        EventDoes .deadlinePass s [.mail, .trace, .clusters] [] [] (fun t =>
          mfind t.mail.launches n = some { l with late := true } ∧
          (∀ m, m ≠ n → mfind t.mail.launches m = mfind s.mail.launches m) ∧
          CardOut (pkgSrc 7) 11 255 0 (frankOf l) (BitVec.ofNat 64 (queueP0 l)) (l.pkt.getD 8 0) s t)))) ∧
  ((∀ s, s.mail.launches = [] → Idle .arbitration s) ∧
   (∀ i s n l p base r ps args, i = .arbitration ∨ (i = .startTimeReached ∧ startReached s (subjAt s 0) = true) →
      (∀ q, q < 64 → lateStep s q = none) → s.mail.launches ≠ [] → served s = [(n, l)] → oldestSaved s n none = none →
      l.next < pktBlocks l → placeWhere s l l.next = some (p, base, r, ps) → argsClear s l → readArgs s l = .inl args → noStall s →
      ∃ t, exec i s = .next t ∧ Same [.spad, .blocks, .mail, .trace, .clusters] s t ∧ Placed s t n l l.next p base r ps args ∧
        (l.next = 0 → CardOut (pkgSrc 7) 9 255 0 (frankOf l) (BitVec.ofNat 64 (queueP0 l)) l.addr s t)) ∧
   (∀ i s n l x p, i = .arbitration ∨ (i = .startTimeReached ∧ startReached s (subjAt s 0) = true) →
      (∀ q, q < 64 → lateStep s q = none) → s.mail.launches ≠ [] → served s = [(n, l)] → oldestSaved s n none = some x →
      restoreWhere s l x = some p → imageBlocked s l x.blk = false → readImage s l x = .ok → x.groups.length ≤ (blockBudget l x.blk).groups → noStall s →
      ∃ t, exec i s = .next t ∧ Same [.spad, .blocks, .mail, .trace, .clusters] s t ∧ Restored s t x p) ∧
   (∀ s n l, n = subjAt s 0 → mfind s.mail.launches n = some l → rotReady s n l = true → noStall s →
      ∃ t, exec .gridRotation s = .next t ∧ t.clk = s.clk ∧ t.boot = s.boot ∧ t.rounds = s.rounds ∧
        ∀ l', mfind t.mail.launches n = some l' → l'.stuck = none) ∧
   (∀ s n l c v vb w s1 s', State.Inv s → n = subjAt s 0 → mfind s.mail.launches n = some l → rotReady s n l = true → noStall s →
      rotCores s n l = [c] → longest s n c = some (v, vb) → waitsOn s n l c = some w → s1 = applyAll (cancelRunaheads v s) s →
      (∀ rs, imageRuns s1 l vb .store = .inl rs → ∀ r ∈ rs, portGone s1 r.1 = false) →
      s' = applyAll (saveBlock v s) s → v ≠ s.nextId →
      ∃ t, exec .gridRotation s = .next t ∧ (∃ l', mfind t.mail.launches n = some l' ∧ l'.stuck = none) ∧
        mfind s.blocks v = some vb ∧ (∀ b ∈ s.blocks, b.2.core = c → b.2.launch = n → vb.since ≤ b.2.since) ∧
        (∃ y ∈ t.mail.saved, y.id = v ∧ y.blk.launch = n ∧ y.blk.num = vb.num ∧ y.blk.core = c) ∧
        match w with
        | .inl x => ∀ p, restoreWhere s' l x = some p → readImage s' l x = .ok → x.id ≠ v →
            x.groups.length ≤ (blockBudget l x.blk).groups → mfind t.blocks v = none ∧ Restored s' t x p
        | .inr i => (∀ x ∈ s.mail.saved, x.blk.launch = n → x.blk.core ≠ c) ∧
            (∀ j ∈ unplaced l, blockCore l j = c → i ≤ j) ∧
            ∀ p base r ps args, placeWhere s' l i = some (p, base, r, ps) → argsClear s' l → readArgs s' l = .inl args →
              mfind t.blocks v = none ∧ Placed s' t n l i p base r ps args)) ∧
  ((∀ s cl b n rest x a, cl = subjAt s 0 → (getCluster s cl).cards = b :: rest → b.who = [n] → x = getSession s n →
      ringIsFull x = false → x.drops = 0 → a = fld x.ring 47 12 * 4096 + 32 * (sessTail x % 2 ^ fld x.ring 4 0) →
      (linesOf a 32).all (lineReady s (.drain cl)) = true → (dropStands s n = false ∨ fld b.card.d0 7 0 = 22) →
      EventDoes .cardDrain s [.mem, .cores, .coh, .trace, .clusters] [] [] (fun t => (getCluster t cl).cards = rest ∧
        sessTail (getSession t n) = (sessTail x + 1) % 2 ^ 32 ∧ sessHead (getSession t n) = sessHead x ∧
        (physExists s a = true → BytesAfter s.mem t.mem a (cardBytes (cardFor x b.card))))) ∧
   (∀ s cl k who, cl = subjAt s 0 → stallLow s cl = true → (getCluster s cl).stall = some k →
      who = (s.trace.sessions.filter (fun e => sessOpen e.2)).map (·.1) →
      EventDoes .stallEnd s [.trace, .clusters] [] [] (fun t =>
        (getCluster t cl).stall = none ∧ (getCluster t cl).ended = s.clk.time ∧ (getCluster t cl).merge = (getCluster s cl).merge ∧
        (getCluster t cl).tlb = (getCluster s cl).tlb ∧
        (getCluster t cl).cards = (getCluster s cl).cards ++ if who = [] then [] else
          [{ card := { d0 := cardHead 0 (nextSeq s (srcNum ⟨cl, 0, 0, 11⟩)) 255 0 (srcNum ⟨cl, 0, 0, 11⟩) 21, d1 := timeReg s.clk
                       d2 := BitVec.ofNat 64 (1 + (getCluster s cl).cards.length * 32 / 65536 * 2 ^ 16), d3 := BitVec.ofNat 64 k }
             who := who, written := false }])) ∧
   (∀ s p k, p = subjAt s 0 → (getPart s p).sampling = some k → noStall s →
      EventDoes .sampleCountdown s [.trace, .clusters] [] [] (fun t => getPart t p = { getPart s p with sampling := none } ∧
        CardOut (coreSrc (p / 4) (p % 4) 4) (fld k.d0 7 0) (fld k.d0 39 32) (fld k.d0 59 56) (fld k.d0 31 24) k.d2 k.d3 s t)) ∧
   (∀ s p k, p = subjAt s 0 → (getPart s p).sampling = none → (getPart s p).tagging = some k → noStall s →
      EventDoes .sampleCountdown s [.trace, .clusters] [] [] (fun t => getPart t p = { getPart s p with tagging := none } ∧
        CardOut (coreSrc (p / 4) (p % 4) 4) (fld k.d0 7 0) (fld k.d0 39 32) (fld k.d0 59 56) (fld k.d0 31 24) k.d2 k.d3 s t)) ∧
   (∀ s, EventDoes .counterAdd s [.sets] [] [] (fun t =>
      t.ctrs.pend = s.ctrs.pend.filter (fun e => !decide (e.cyc < s.clk.cyc)) ∧
      ∀ n k, n < 64 → k < 16 →
        CounterAdded (s.ctrs.pend.filter (fun e => decide (e.cyc < s.clk.cyc) && e.frank % 64 == n)) k (getSet s n) (getSet t n))))

end
end

