-- ==== Sys2Proof/Laws/Maps.lean ====
section
/-! SUPPORT. The laws of sparse stores: what a read gives after a write, and that every memory operation keeps the
canonical form. -/

namespace Sys2Proof.Machine

variable {β : Type}

/-! ## Reading after writing -/

@[simp] theorem mfind_nil (n : Nat) : mfind ([] : Map β) n = none := rfl

theorem mfind_cons (k : Nat) (v : β) (m : Map β) (n : Nat) :
    mfind ((k, v) :: m) n = if k = n then some v else mfind m n := rfl

theorem mfind_minsert_same (m : Map β) (n : Nat) (v : β) (h : mfind m n = none) : mfind (minsert m n v) n = some v := by
  induction m with
  | nil => simp [minsert, mfind]
  | cons e m ih =>
    obtain ⟨k, w⟩ := e
    rw [mfind_cons] at h
    by_cases hk : k = n
    · simp [hk] at h
    · simp only [hk, if_false] at h
      unfold minsert
      split
      · simp [mfind]
      · simp [mfind_cons, hk, ih h]

theorem mfind_minsert_other (m : Map β) (n k : Nat) (v : β) (h : k ≠ n) : mfind (minsert m n v) k = mfind m k := by
  induction m with
  | nil => simp [minsert, mfind, Ne.symm h]
  | cons e m ih =>
    obtain ⟨j, w⟩ := e
    unfold minsert
    split
    · simp [mfind_cons, Ne.symm h]
    · simp [mfind_cons, ih]

theorem mfind_mdel_same (m : Map β) (n : Nat) : mfind (mdel m n) n = none := by
  induction m with
  | nil => rfl
  | cons e m ih =>
    obtain ⟨k, w⟩ := e
    by_cases hk : k = n
    · simp only [mdel, List.filter_cons, hk, bne_self_eq_false, Bool.false_eq_true, if_false]; exact ih
    · have : (k != n) = true := by simpa using hk
      simp only [mdel, List.filter_cons, this, if_true, mfind_cons, hk, if_false]; exact ih

theorem mfind_mdel_other (m : Map β) (n k : Nat) (h : k ≠ n) : mfind (mdel m n) k = mfind m k := by
  induction m with
  | nil => rfl
  | cons e m ih =>
    obtain ⟨j, w⟩ := e
    by_cases hj : j = n
    · subst hj
      simp only [mdel, List.filter_cons, bne_self_eq_false, Bool.false_eq_true, if_false, mfind_cons, Ne.symm h]; exact ih
    · have : (j != n) = true := by simpa using hj
      simp only [mdel, List.filter_cons, this, if_true, mfind_cons]
      split
      · rfl
      · exact ih

@[simp] theorem mfind_mput_same (m : Map β) (n : Nat) (v : β) : mfind (mput m n v) n = some v :=
  mfind_minsert_same _ _ _ (mfind_mdel_same m n)

theorem mfind_mput_other (m : Map β) (n k : Nat) (v : β) (h : k ≠ n) : mfind (mput m n v) k = mfind m k := by
  rw [mput, mfind_minsert_other _ _ _ _ h, mfind_mdel_other _ _ _ h]

theorem mfind_mput (m : Map β) (n k : Nat) (v : β) : mfind (mput m n v) k = if k = n then some v else mfind m k := by
  by_cases h : k = n
  · subst h; simp
  · simp [h, mfind_mput_other]

theorem mget_mput (d : β) (m : Map β) (n k : Nat) (v : β) : mget d (mput m n v) k = if k = n then v else mget d m k := by
  by_cases h : k = n <;> simp [mget, mfind_mput, h]

theorem mget_mdel (d : β) (m : Map β) (n k : Nat) : mget d (mdel m n) k = if k = n then d else mget d m k := by
  by_cases h : k = n
  · subst h; simp [mget, mfind_mdel_same]
  · simp [mget, mfind_mdel_other _ _ _ h, h]

/-- A read of a sparse store after a write. -/
theorem mget_mset [DecidableEq β] (d : β) (m : Map β) (n k : Nat) (v : β) :
    mget d (mset d m n v) k = if k = n then v else mget d m k := by
  unfold mset
  by_cases hv : v = d
  · simp only [hv, if_true, mget_mdel]
  · simp only [hv, if_false, mget_mput]

@[simp] theorem readByte_writeByte_same (m : List Host.Cell) (a : Nat) (b : Byte) : readByte (writeByte m a b) a = b := by
  simp [readByte, writeByte, mget_mset]

theorem readByte_writeByte_other (m : List Host.Cell) (a x : Nat) (b : Byte) (h : x ≠ a) :
    readByte (writeByte m a b) x = readByte m x := by
  simp [readByte, writeByte, mget_mset, h]

/-- A list of cells writes nothing outside the addresses it names. -/
theorem readByte_writeCells_other (cs m : List Host.Cell) (x : Nat) (h : ∀ c ∈ cs, x ≠ c.1) :
    readByte (writeCells m cs) x = readByte m x := by
  induction cs generalizing m with
  | nil => rfl
  | cons c cs ih =>
    have h1 : x ≠ c.1 := h c (by simp)
    have h2 : ∀ d ∈ cs, x ≠ d.1 := fun d hd => h d (by simp [hd])
    show readByte (writeCells (writeByte m c.1 c.2) cs) x = _
    rw [ih _ h2, readByte_writeByte_other _ _ _ _ h1]

/-! ## Rising keys -/

theorem sortedKeys_cons (k : Nat) (v : β) (m : Map β) :
    sortedKeys ((k, v) :: m) = true ↔ (∀ e ∈ m, k < e.1) ∧ sortedKeys m = true := by
  induction m generalizing k v with
  | nil => simp [sortedKeys]
  | cons e m ih =>
    obtain ⟨j, w⟩ := e
    simp only [sortedKeys, Bool.and_eq_true, decide_eq_true_eq]
    constructor
    · rintro ⟨h1, h2⟩
      refine ⟨?_, h2⟩
      intro e he
      rcases List.mem_cons.mp he with rfl | he
      · exact h1
      · exact Nat.lt_trans h1 (((ih j w).mp h2).1 e he)
    · rintro ⟨h1, h2⟩
      exact ⟨h1 (j, w) (by simp), h2⟩

theorem mem_minsert (m : Map β) (n : Nat) (v : β) (e : Nat × β) (h : e ∈ minsert m n v) : e = (n, v) ∨ e ∈ m := by
  induction m with
  | nil => simpa [minsert] using h
  | cons a m ih =>
    obtain ⟨k, w⟩ := a
    unfold minsert at h
    split at h
    · simpa using h
    · rcases List.mem_cons.mp h with rfl | h
      · simp
      · rcases ih h with h | h <;> simp [h]

theorem sortedKeys_mdel (m : Map β) (n : Nat) (h : sortedKeys m = true) : sortedKeys (mdel m n) = true := by
  induction m with
  | nil => rfl
  | cons e m ih =>
    obtain ⟨k, w⟩ := e
    rw [sortedKeys_cons] at h
    have ih := ih h.2
    simp only [mdel, List.filter_cons]
    split
    · rw [sortedKeys_cons]
      exact ⟨fun e he => h.1 e (List.mem_of_mem_filter he), ih⟩
    · exact ih

theorem sortedKeys_minsert (m : Map β) (n : Nat) (v : β) (h : sortedKeys m = true) (hn : ∀ e ∈ m, e.1 ≠ n) :
    sortedKeys (minsert m n v) = true := by
  induction m with
  | nil => rfl
  | cons e m ih =>
    obtain ⟨k, w⟩ := e
    unfold minsert
    have hs := (sortedKeys_cons k w m).mp h
    split
    · rename_i hlt
      rw [sortedKeys_cons]
      refine ⟨?_, h⟩
      intro e he
      rcases List.mem_cons.mp he with rfl | he
      · exact hlt
      · exact Nat.lt_trans hlt (hs.1 e he)
    · rename_i hge
      rw [sortedKeys_cons]
      refine ⟨?_, ih hs.2 (fun e he => hn e (by simp [he]))⟩
      intro e he
      rcases mem_minsert _ _ _ _ he with rfl | he
      · have := hn (k, w) (by simp)
        simp only at this ⊢
        omega
      · exact hs.1 e he

/-- Setting a key keeps the keys rising. -/
theorem sortedKeys_mput (m : Map β) (n : Nat) (v : β) (h : sortedKeys m = true) : sortedKeys (mput m n v) = true := by
  refine sortedKeys_minsert _ _ _ (sortedKeys_mdel _ _ h) ?_
  intro e he
  have := (List.mem_filter.mp he).2
  simpa using this

/-! ## The canonical form of a memory -/

theorem wf_iff (m : List Host.Cell) :
    Memory.wf m = true ↔ sortedKeys m = true ∧ ∀ c ∈ m, c.2 ≠ emptyByte := by
  simp [Memory.wf, List.all_eq_true]

@[simp] theorem wf_nil : Memory.wf [] = true := rfl

/-- A byte written keeps the canonical form. -/
theorem wf_writeByte (m : List Host.Cell) (a : Nat) (b : Byte) (h : Memory.wf m = true) : Memory.wf (writeByte m a b) = true := by
  rw [wf_iff] at *
  unfold writeByte mset
  split
  · refine ⟨sortedKeys_mdel _ _ h.1, ?_⟩
    intro c hc
    exact h.2 c (List.mem_of_mem_filter hc)
  · rename_i hb
    refine ⟨sortedKeys_mput _ _ _ h.1, ?_⟩
    intro c hc
    rcases mem_minsert _ _ _ _ hc with rfl | hc
    · exact hb
    · exact h.2 c (List.mem_of_mem_filter hc)

/-- A list of bytes written keeps the canonical form. -/
theorem wf_writeCells (cs m : List Host.Cell) (h : Memory.wf m = true) : Memory.wf (writeCells m cs) = true := by
  induction cs generalizing m with
  | nil => exact h
  | cons c cs ih => exact ih _ (wf_writeByte _ _ _ h)

end Sys2Proof.Machine
end

