-- ==== Sys2Proof/Laws/State.lean ====
section
/-! SUPPORT. What each update of the state leaves in each of its fields, and how lists of updates compose. -/

namespace Sys2Proof.Machine

variable (s : State)

/-! ## `mem` -/

@[simp] theorem Upd.apply_mem_cur (x : List Host.Cell) : ((Upd.mem x).apply s).cur = s.cur := rfl
@[simp] theorem Upd.apply_mem_subj (x : List Host.Cell) : ((Upd.mem x).apply s).subj = s.subj := rfl
@[simp] theorem Upd.apply_mem_agenda (x : List Host.Cell) : ((Upd.mem x).apply s).agenda = s.agenda := rfl
@[simp] theorem Upd.apply_mem_ticks (x : List Host.Cell) : ((Upd.mem x).apply s).ticks = s.ticks := rfl
@[simp] theorem Upd.apply_mem_fresh (x : List Host.Cell) : ((Upd.mem x).apply s).fresh = s.fresh := rfl
@[simp] theorem Upd.apply_mem_nextId (x : List Host.Cell) : ((Upd.mem x).apply s).nextId = s.nextId := rfl
@[simp] theorem Upd.apply_mem_idn (x : List Host.Cell) : ((Upd.mem x).apply s).idn = s.idn := rfl
@[simp] theorem Upd.apply_mem_clk (x : List Host.Cell) : ((Upd.mem x).apply s).clk = s.clk := rfl
@[simp] theorem Upd.apply_mem_boot (x : List Host.Cell) : ((Upd.mem x).apply s).boot = s.boot := rfl
@[simp] theorem Upd.apply_mem_mem (x : List Host.Cell) : ((Upd.mem x).apply s).mem = writeCells s.mem x := rfl
@[simp] theorem Upd.apply_mem_spad (x : List Host.Cell) : ((Upd.mem x).apply s).spad = s.spad := rfl
@[simp] theorem Upd.apply_mem_cores (x : List Host.Cell) : ((Upd.mem x).apply s).cores = s.cores := rfl
@[simp] theorem Upd.apply_mem_clusters (x : List Host.Cell) : ((Upd.mem x).apply s).clusters = s.clusters := rfl
@[simp] theorem Upd.apply_mem_parts (x : List Host.Cell) : ((Upd.mem x).apply s).parts = s.parts := rfl
@[simp] theorem Upd.apply_mem_groups (x : List Host.Cell) : ((Upd.mem x).apply s).groups = s.groups := rfl
@[simp] theorem Upd.apply_mem_streams (x : List Host.Cell) : ((Upd.mem x).apply s).streams = s.streams := rfl
@[simp] theorem Upd.apply_mem_blocks (x : List Host.Cell) : ((Upd.mem x).apply s).blocks = s.blocks := rfl
@[simp] theorem Upd.apply_mem_mail (x : List Host.Cell) : ((Upd.mem x).apply s).mail = s.mail := rfl
@[simp] theorem Upd.apply_mem_faults (x : List Host.Cell) : ((Upd.mem x).apply s).faults = s.faults := rfl
@[simp] theorem Upd.apply_mem_rounds (x : List Host.Cell) : ((Upd.mem x).apply s).rounds = s.rounds := rfl
@[simp] theorem Upd.apply_mem_trace (x : List Host.Cell) : ((Upd.mem x).apply s).trace = s.trace := rfl
@[simp] theorem Upd.apply_mem_ctrs (x : List Host.Cell) : ((Upd.mem x).apply s).ctrs = s.ctrs := rfl
@[simp] theorem Upd.apply_mem_bars (x : List Host.Cell) : ((Upd.mem x).apply s).bars = s.bars := rfl
@[simp] theorem Upd.apply_mem_coh (x : List Host.Cell) : ((Upd.mem x).apply s).coh = s.coh := rfl
@[simp] theorem Upd.apply_mem_hostVal (x : List Host.Cell) : ((Upd.mem x).apply s).hostVal = s.hostVal := rfl
@[simp] theorem Upd.apply_mem_turn (x : List Host.Cell) : ((Upd.mem x).apply s).turn = s.turn := rfl

/-! ## `spad` -/

@[simp] theorem Upd.apply_spad_cur (x : List Host.Cell) : ((Upd.spad x).apply s).cur = s.cur := rfl
@[simp] theorem Upd.apply_spad_subj (x : List Host.Cell) : ((Upd.spad x).apply s).subj = s.subj := rfl
@[simp] theorem Upd.apply_spad_agenda (x : List Host.Cell) : ((Upd.spad x).apply s).agenda = s.agenda := rfl
@[simp] theorem Upd.apply_spad_ticks (x : List Host.Cell) : ((Upd.spad x).apply s).ticks = s.ticks := rfl
@[simp] theorem Upd.apply_spad_fresh (x : List Host.Cell) : ((Upd.spad x).apply s).fresh = s.fresh := rfl
@[simp] theorem Upd.apply_spad_nextId (x : List Host.Cell) : ((Upd.spad x).apply s).nextId = s.nextId := rfl
@[simp] theorem Upd.apply_spad_idn (x : List Host.Cell) : ((Upd.spad x).apply s).idn = s.idn := rfl
@[simp] theorem Upd.apply_spad_clk (x : List Host.Cell) : ((Upd.spad x).apply s).clk = s.clk := rfl
@[simp] theorem Upd.apply_spad_boot (x : List Host.Cell) : ((Upd.spad x).apply s).boot = s.boot := rfl
@[simp] theorem Upd.apply_spad_mem (x : List Host.Cell) : ((Upd.spad x).apply s).mem = s.mem := rfl
@[simp] theorem Upd.apply_spad_spad (x : List Host.Cell) : ((Upd.spad x).apply s).spad = writeCells s.spad x := rfl
@[simp] theorem Upd.apply_spad_cores (x : List Host.Cell) : ((Upd.spad x).apply s).cores = s.cores := rfl
@[simp] theorem Upd.apply_spad_clusters (x : List Host.Cell) : ((Upd.spad x).apply s).clusters = s.clusters := rfl
@[simp] theorem Upd.apply_spad_parts (x : List Host.Cell) : ((Upd.spad x).apply s).parts = s.parts := rfl
@[simp] theorem Upd.apply_spad_groups (x : List Host.Cell) : ((Upd.spad x).apply s).groups = s.groups := rfl
@[simp] theorem Upd.apply_spad_streams (x : List Host.Cell) : ((Upd.spad x).apply s).streams = s.streams := rfl
@[simp] theorem Upd.apply_spad_blocks (x : List Host.Cell) : ((Upd.spad x).apply s).blocks = s.blocks := rfl
@[simp] theorem Upd.apply_spad_mail (x : List Host.Cell) : ((Upd.spad x).apply s).mail = s.mail := rfl
@[simp] theorem Upd.apply_spad_faults (x : List Host.Cell) : ((Upd.spad x).apply s).faults = s.faults := rfl
@[simp] theorem Upd.apply_spad_rounds (x : List Host.Cell) : ((Upd.spad x).apply s).rounds = s.rounds := rfl
@[simp] theorem Upd.apply_spad_trace (x : List Host.Cell) : ((Upd.spad x).apply s).trace = s.trace := rfl
@[simp] theorem Upd.apply_spad_ctrs (x : List Host.Cell) : ((Upd.spad x).apply s).ctrs = s.ctrs := rfl
@[simp] theorem Upd.apply_spad_bars (x : List Host.Cell) : ((Upd.spad x).apply s).bars = s.bars := rfl
@[simp] theorem Upd.apply_spad_coh (x : List Host.Cell) : ((Upd.spad x).apply s).coh = s.coh := rfl
@[simp] theorem Upd.apply_spad_hostVal (x : List Host.Cell) : ((Upd.spad x).apply s).hostVal = s.hostVal := rfl
@[simp] theorem Upd.apply_spad_turn (x : List Host.Cell) : ((Upd.spad x).apply s).turn = s.turn := rfl

/-! ## `ident` -/

@[simp] theorem Upd.apply_ident_cur (r : IdReg) (v : DWord) : ((Upd.ident r v).apply s).cur = s.cur := rfl
@[simp] theorem Upd.apply_ident_subj (r : IdReg) (v : DWord) : ((Upd.ident r v).apply s).subj = s.subj := rfl
@[simp] theorem Upd.apply_ident_agenda (r : IdReg) (v : DWord) : ((Upd.ident r v).apply s).agenda = s.agenda := rfl
@[simp] theorem Upd.apply_ident_ticks (r : IdReg) (v : DWord) : ((Upd.ident r v).apply s).ticks = s.ticks := rfl
@[simp] theorem Upd.apply_ident_fresh (r : IdReg) (v : DWord) : ((Upd.ident r v).apply s).fresh = s.fresh := rfl
@[simp] theorem Upd.apply_ident_nextId (r : IdReg) (v : DWord) : ((Upd.ident r v).apply s).nextId = s.nextId := rfl
@[simp] theorem Upd.apply_ident_idn (r : IdReg) (v : DWord) : ((Upd.ident r v).apply s).idn = s.idn.with r v := rfl
@[simp] theorem Upd.apply_ident_clk (r : IdReg) (v : DWord) : ((Upd.ident r v).apply s).clk = s.clk := rfl
@[simp] theorem Upd.apply_ident_boot (r : IdReg) (v : DWord) : ((Upd.ident r v).apply s).boot = s.boot := rfl
@[simp] theorem Upd.apply_ident_mem (r : IdReg) (v : DWord) : ((Upd.ident r v).apply s).mem = s.mem := rfl
@[simp] theorem Upd.apply_ident_spad (r : IdReg) (v : DWord) : ((Upd.ident r v).apply s).spad = s.spad := rfl
@[simp] theorem Upd.apply_ident_cores (r : IdReg) (v : DWord) : ((Upd.ident r v).apply s).cores = s.cores := rfl
@[simp] theorem Upd.apply_ident_clusters (r : IdReg) (v : DWord) : ((Upd.ident r v).apply s).clusters = s.clusters := rfl
@[simp] theorem Upd.apply_ident_parts (r : IdReg) (v : DWord) : ((Upd.ident r v).apply s).parts = s.parts := rfl
@[simp] theorem Upd.apply_ident_groups (r : IdReg) (v : DWord) : ((Upd.ident r v).apply s).groups = s.groups := rfl
@[simp] theorem Upd.apply_ident_streams (r : IdReg) (v : DWord) : ((Upd.ident r v).apply s).streams = s.streams := rfl
@[simp] theorem Upd.apply_ident_blocks (r : IdReg) (v : DWord) : ((Upd.ident r v).apply s).blocks = s.blocks := rfl
@[simp] theorem Upd.apply_ident_mail (r : IdReg) (v : DWord) : ((Upd.ident r v).apply s).mail = s.mail := rfl
@[simp] theorem Upd.apply_ident_faults (r : IdReg) (v : DWord) : ((Upd.ident r v).apply s).faults = s.faults := rfl
@[simp] theorem Upd.apply_ident_rounds (r : IdReg) (v : DWord) : ((Upd.ident r v).apply s).rounds = s.rounds := rfl
@[simp] theorem Upd.apply_ident_trace (r : IdReg) (v : DWord) : ((Upd.ident r v).apply s).trace = s.trace := rfl
@[simp] theorem Upd.apply_ident_ctrs (r : IdReg) (v : DWord) : ((Upd.ident r v).apply s).ctrs = s.ctrs := rfl
@[simp] theorem Upd.apply_ident_bars (r : IdReg) (v : DWord) : ((Upd.ident r v).apply s).bars = s.bars := rfl
@[simp] theorem Upd.apply_ident_coh (r : IdReg) (v : DWord) : ((Upd.ident r v).apply s).coh = s.coh := rfl
@[simp] theorem Upd.apply_ident_hostVal (r : IdReg) (v : DWord) : ((Upd.ident r v).apply s).hostVal = s.hostVal := rfl
@[simp] theorem Upd.apply_ident_turn (r : IdReg) (v : DWord) : ((Upd.ident r v).apply s).turn = s.turn := rfl

/-! ## `clk` -/

@[simp] theorem Upd.apply_clk_cur (x : Clock) : ((Upd.clk x).apply s).cur = s.cur := rfl
@[simp] theorem Upd.apply_clk_subj (x : Clock) : ((Upd.clk x).apply s).subj = s.subj := rfl
@[simp] theorem Upd.apply_clk_agenda (x : Clock) : ((Upd.clk x).apply s).agenda = s.agenda := rfl
@[simp] theorem Upd.apply_clk_ticks (x : Clock) : ((Upd.clk x).apply s).ticks = s.ticks := rfl
@[simp] theorem Upd.apply_clk_fresh (x : Clock) : ((Upd.clk x).apply s).fresh = s.fresh := rfl
@[simp] theorem Upd.apply_clk_nextId (x : Clock) : ((Upd.clk x).apply s).nextId = s.nextId := rfl
@[simp] theorem Upd.apply_clk_idn (x : Clock) : ((Upd.clk x).apply s).idn = s.idn := rfl
@[simp] theorem Upd.apply_clk_clk (x : Clock) : ((Upd.clk x).apply s).clk = x := rfl
@[simp] theorem Upd.apply_clk_boot (x : Clock) : ((Upd.clk x).apply s).boot = s.boot := rfl
@[simp] theorem Upd.apply_clk_mem (x : Clock) : ((Upd.clk x).apply s).mem = s.mem := rfl
@[simp] theorem Upd.apply_clk_spad (x : Clock) : ((Upd.clk x).apply s).spad = s.spad := rfl
@[simp] theorem Upd.apply_clk_cores (x : Clock) : ((Upd.clk x).apply s).cores = s.cores := rfl
@[simp] theorem Upd.apply_clk_clusters (x : Clock) : ((Upd.clk x).apply s).clusters = s.clusters := rfl
@[simp] theorem Upd.apply_clk_parts (x : Clock) : ((Upd.clk x).apply s).parts = s.parts := rfl
@[simp] theorem Upd.apply_clk_groups (x : Clock) : ((Upd.clk x).apply s).groups = s.groups := rfl
@[simp] theorem Upd.apply_clk_streams (x : Clock) : ((Upd.clk x).apply s).streams = s.streams := rfl
@[simp] theorem Upd.apply_clk_blocks (x : Clock) : ((Upd.clk x).apply s).blocks = s.blocks := rfl
@[simp] theorem Upd.apply_clk_mail (x : Clock) : ((Upd.clk x).apply s).mail = s.mail := rfl
@[simp] theorem Upd.apply_clk_faults (x : Clock) : ((Upd.clk x).apply s).faults = s.faults := rfl
@[simp] theorem Upd.apply_clk_rounds (x : Clock) : ((Upd.clk x).apply s).rounds = s.rounds := rfl
@[simp] theorem Upd.apply_clk_trace (x : Clock) : ((Upd.clk x).apply s).trace = s.trace := rfl
@[simp] theorem Upd.apply_clk_ctrs (x : Clock) : ((Upd.clk x).apply s).ctrs = s.ctrs := rfl
@[simp] theorem Upd.apply_clk_bars (x : Clock) : ((Upd.clk x).apply s).bars = s.bars := rfl
@[simp] theorem Upd.apply_clk_coh (x : Clock) : ((Upd.clk x).apply s).coh = s.coh := rfl
@[simp] theorem Upd.apply_clk_hostVal (x : Clock) : ((Upd.clk x).apply s).hostVal = s.hostVal := rfl
@[simp] theorem Upd.apply_clk_turn (x : Clock) : ((Upd.clk x).apply s).turn = s.turn := rfl

/-! ## `boot` -/

@[simp] theorem Upd.apply_boot_cur (x : Boot) : ((Upd.boot x).apply s).cur = s.cur := rfl
@[simp] theorem Upd.apply_boot_subj (x : Boot) : ((Upd.boot x).apply s).subj = s.subj := rfl
@[simp] theorem Upd.apply_boot_agenda (x : Boot) : ((Upd.boot x).apply s).agenda = s.agenda := rfl
@[simp] theorem Upd.apply_boot_ticks (x : Boot) : ((Upd.boot x).apply s).ticks = s.ticks := rfl
@[simp] theorem Upd.apply_boot_fresh (x : Boot) : ((Upd.boot x).apply s).fresh = s.fresh := rfl
@[simp] theorem Upd.apply_boot_nextId (x : Boot) : ((Upd.boot x).apply s).nextId = s.nextId := rfl
@[simp] theorem Upd.apply_boot_idn (x : Boot) : ((Upd.boot x).apply s).idn = s.idn := rfl
@[simp] theorem Upd.apply_boot_clk (x : Boot) : ((Upd.boot x).apply s).clk = s.clk := rfl
@[simp] theorem Upd.apply_boot_boot (x : Boot) : ((Upd.boot x).apply s).boot = x := rfl
@[simp] theorem Upd.apply_boot_mem (x : Boot) : ((Upd.boot x).apply s).mem = s.mem := rfl
@[simp] theorem Upd.apply_boot_spad (x : Boot) : ((Upd.boot x).apply s).spad = s.spad := rfl
@[simp] theorem Upd.apply_boot_cores (x : Boot) : ((Upd.boot x).apply s).cores = s.cores := rfl
@[simp] theorem Upd.apply_boot_clusters (x : Boot) : ((Upd.boot x).apply s).clusters = s.clusters := rfl
@[simp] theorem Upd.apply_boot_parts (x : Boot) : ((Upd.boot x).apply s).parts = s.parts := rfl
@[simp] theorem Upd.apply_boot_groups (x : Boot) : ((Upd.boot x).apply s).groups = s.groups := rfl
@[simp] theorem Upd.apply_boot_streams (x : Boot) : ((Upd.boot x).apply s).streams = s.streams := rfl
@[simp] theorem Upd.apply_boot_blocks (x : Boot) : ((Upd.boot x).apply s).blocks = s.blocks := rfl
@[simp] theorem Upd.apply_boot_mail (x : Boot) : ((Upd.boot x).apply s).mail = s.mail := rfl
@[simp] theorem Upd.apply_boot_faults (x : Boot) : ((Upd.boot x).apply s).faults = s.faults := rfl
@[simp] theorem Upd.apply_boot_rounds (x : Boot) : ((Upd.boot x).apply s).rounds = s.rounds := rfl
@[simp] theorem Upd.apply_boot_trace (x : Boot) : ((Upd.boot x).apply s).trace = s.trace := rfl
@[simp] theorem Upd.apply_boot_ctrs (x : Boot) : ((Upd.boot x).apply s).ctrs = s.ctrs := rfl
@[simp] theorem Upd.apply_boot_bars (x : Boot) : ((Upd.boot x).apply s).bars = s.bars := rfl
@[simp] theorem Upd.apply_boot_coh (x : Boot) : ((Upd.boot x).apply s).coh = s.coh := rfl
@[simp] theorem Upd.apply_boot_hostVal (x : Boot) : ((Upd.boot x).apply s).hostVal = s.hostVal := rfl
@[simp] theorem Upd.apply_boot_turn (x : Boot) : ((Upd.boot x).apply s).turn = s.turn := rfl

/-! ## `core` -/

@[simp] theorem Upd.apply_core_cur (n : Nat) (x : Core) : ((Upd.core n x).apply s).cur = s.cur := rfl
@[simp] theorem Upd.apply_core_subj (n : Nat) (x : Core) : ((Upd.core n x).apply s).subj = s.subj := rfl
@[simp] theorem Upd.apply_core_agenda (n : Nat) (x : Core) : ((Upd.core n x).apply s).agenda = s.agenda := rfl
@[simp] theorem Upd.apply_core_ticks (n : Nat) (x : Core) : ((Upd.core n x).apply s).ticks = s.ticks := rfl
@[simp] theorem Upd.apply_core_fresh (n : Nat) (x : Core) : ((Upd.core n x).apply s).fresh = s.fresh := rfl
@[simp] theorem Upd.apply_core_nextId (n : Nat) (x : Core) : ((Upd.core n x).apply s).nextId = s.nextId := rfl
@[simp] theorem Upd.apply_core_idn (n : Nat) (x : Core) : ((Upd.core n x).apply s).idn = s.idn := rfl
@[simp] theorem Upd.apply_core_clk (n : Nat) (x : Core) : ((Upd.core n x).apply s).clk = s.clk := rfl
@[simp] theorem Upd.apply_core_boot (n : Nat) (x : Core) : ((Upd.core n x).apply s).boot = s.boot := rfl
@[simp] theorem Upd.apply_core_mem (n : Nat) (x : Core) : ((Upd.core n x).apply s).mem = s.mem := rfl
@[simp] theorem Upd.apply_core_spad (n : Nat) (x : Core) : ((Upd.core n x).apply s).spad = s.spad := rfl
@[simp] theorem Upd.apply_core_cores (n : Nat) (x : Core) : ((Upd.core n x).apply s).cores = mput s.cores n x := rfl
@[simp] theorem Upd.apply_core_clusters (n : Nat) (x : Core) : ((Upd.core n x).apply s).clusters = s.clusters := rfl
@[simp] theorem Upd.apply_core_parts (n : Nat) (x : Core) : ((Upd.core n x).apply s).parts = s.parts := rfl
@[simp] theorem Upd.apply_core_groups (n : Nat) (x : Core) : ((Upd.core n x).apply s).groups = s.groups := rfl
@[simp] theorem Upd.apply_core_streams (n : Nat) (x : Core) : ((Upd.core n x).apply s).streams = s.streams := rfl
@[simp] theorem Upd.apply_core_blocks (n : Nat) (x : Core) : ((Upd.core n x).apply s).blocks = s.blocks := rfl
@[simp] theorem Upd.apply_core_mail (n : Nat) (x : Core) : ((Upd.core n x).apply s).mail = s.mail := rfl
@[simp] theorem Upd.apply_core_faults (n : Nat) (x : Core) : ((Upd.core n x).apply s).faults = s.faults := rfl
@[simp] theorem Upd.apply_core_rounds (n : Nat) (x : Core) : ((Upd.core n x).apply s).rounds = s.rounds := rfl
@[simp] theorem Upd.apply_core_trace (n : Nat) (x : Core) : ((Upd.core n x).apply s).trace = s.trace := rfl
@[simp] theorem Upd.apply_core_ctrs (n : Nat) (x : Core) : ((Upd.core n x).apply s).ctrs = s.ctrs := rfl
@[simp] theorem Upd.apply_core_bars (n : Nat) (x : Core) : ((Upd.core n x).apply s).bars = s.bars := rfl
@[simp] theorem Upd.apply_core_coh (n : Nat) (x : Core) : ((Upd.core n x).apply s).coh = s.coh := rfl
@[simp] theorem Upd.apply_core_hostVal (n : Nat) (x : Core) : ((Upd.core n x).apply s).hostVal = s.hostVal := rfl
@[simp] theorem Upd.apply_core_turn (n : Nat) (x : Core) : ((Upd.core n x).apply s).turn = s.turn := rfl

/-! ## `cluster` -/

@[simp] theorem Upd.apply_cluster_cur (n : Nat) (x : Cluster) : ((Upd.cluster n x).apply s).cur = s.cur := rfl
@[simp] theorem Upd.apply_cluster_subj (n : Nat) (x : Cluster) : ((Upd.cluster n x).apply s).subj = s.subj := rfl
@[simp] theorem Upd.apply_cluster_agenda (n : Nat) (x : Cluster) : ((Upd.cluster n x).apply s).agenda = s.agenda := rfl
@[simp] theorem Upd.apply_cluster_ticks (n : Nat) (x : Cluster) : ((Upd.cluster n x).apply s).ticks = s.ticks := rfl
@[simp] theorem Upd.apply_cluster_fresh (n : Nat) (x : Cluster) : ((Upd.cluster n x).apply s).fresh = s.fresh := rfl
@[simp] theorem Upd.apply_cluster_nextId (n : Nat) (x : Cluster) : ((Upd.cluster n x).apply s).nextId = s.nextId := rfl
@[simp] theorem Upd.apply_cluster_idn (n : Nat) (x : Cluster) : ((Upd.cluster n x).apply s).idn = s.idn := rfl
@[simp] theorem Upd.apply_cluster_clk (n : Nat) (x : Cluster) : ((Upd.cluster n x).apply s).clk = s.clk := rfl
@[simp] theorem Upd.apply_cluster_boot (n : Nat) (x : Cluster) : ((Upd.cluster n x).apply s).boot = s.boot := rfl
@[simp] theorem Upd.apply_cluster_mem (n : Nat) (x : Cluster) : ((Upd.cluster n x).apply s).mem = s.mem := rfl
@[simp] theorem Upd.apply_cluster_spad (n : Nat) (x : Cluster) : ((Upd.cluster n x).apply s).spad = s.spad := rfl
@[simp] theorem Upd.apply_cluster_cores (n : Nat) (x : Cluster) : ((Upd.cluster n x).apply s).cores = s.cores := rfl
@[simp] theorem Upd.apply_cluster_clusters (n : Nat) (x : Cluster) : ((Upd.cluster n x).apply s).clusters = mput s.clusters n x := rfl
@[simp] theorem Upd.apply_cluster_parts (n : Nat) (x : Cluster) : ((Upd.cluster n x).apply s).parts = s.parts := rfl
@[simp] theorem Upd.apply_cluster_groups (n : Nat) (x : Cluster) : ((Upd.cluster n x).apply s).groups = s.groups := rfl
@[simp] theorem Upd.apply_cluster_streams (n : Nat) (x : Cluster) : ((Upd.cluster n x).apply s).streams = s.streams := rfl
@[simp] theorem Upd.apply_cluster_blocks (n : Nat) (x : Cluster) : ((Upd.cluster n x).apply s).blocks = s.blocks := rfl
@[simp] theorem Upd.apply_cluster_mail (n : Nat) (x : Cluster) : ((Upd.cluster n x).apply s).mail = s.mail := rfl
@[simp] theorem Upd.apply_cluster_faults (n : Nat) (x : Cluster) : ((Upd.cluster n x).apply s).faults = s.faults := rfl
@[simp] theorem Upd.apply_cluster_rounds (n : Nat) (x : Cluster) : ((Upd.cluster n x).apply s).rounds = s.rounds := rfl
@[simp] theorem Upd.apply_cluster_trace (n : Nat) (x : Cluster) : ((Upd.cluster n x).apply s).trace = s.trace := rfl
@[simp] theorem Upd.apply_cluster_ctrs (n : Nat) (x : Cluster) : ((Upd.cluster n x).apply s).ctrs = s.ctrs := rfl
@[simp] theorem Upd.apply_cluster_bars (n : Nat) (x : Cluster) : ((Upd.cluster n x).apply s).bars = s.bars := rfl
@[simp] theorem Upd.apply_cluster_coh (n : Nat) (x : Cluster) : ((Upd.cluster n x).apply s).coh = s.coh := rfl
@[simp] theorem Upd.apply_cluster_hostVal (n : Nat) (x : Cluster) : ((Upd.cluster n x).apply s).hostVal = s.hostVal := rfl
@[simp] theorem Upd.apply_cluster_turn (n : Nat) (x : Cluster) : ((Upd.cluster n x).apply s).turn = s.turn := rfl

/-! ## `part` -/

@[simp] theorem Upd.apply_part_cur (n : Nat) (x : Part) : ((Upd.part n x).apply s).cur = s.cur := rfl
@[simp] theorem Upd.apply_part_subj (n : Nat) (x : Part) : ((Upd.part n x).apply s).subj = s.subj := rfl
@[simp] theorem Upd.apply_part_agenda (n : Nat) (x : Part) : ((Upd.part n x).apply s).agenda = s.agenda := rfl
@[simp] theorem Upd.apply_part_ticks (n : Nat) (x : Part) : ((Upd.part n x).apply s).ticks = s.ticks := rfl
@[simp] theorem Upd.apply_part_fresh (n : Nat) (x : Part) : ((Upd.part n x).apply s).fresh = s.fresh := rfl
@[simp] theorem Upd.apply_part_nextId (n : Nat) (x : Part) : ((Upd.part n x).apply s).nextId = s.nextId := rfl
@[simp] theorem Upd.apply_part_idn (n : Nat) (x : Part) : ((Upd.part n x).apply s).idn = s.idn := rfl
@[simp] theorem Upd.apply_part_clk (n : Nat) (x : Part) : ((Upd.part n x).apply s).clk = s.clk := rfl
@[simp] theorem Upd.apply_part_boot (n : Nat) (x : Part) : ((Upd.part n x).apply s).boot = s.boot := rfl
@[simp] theorem Upd.apply_part_mem (n : Nat) (x : Part) : ((Upd.part n x).apply s).mem = s.mem := rfl
@[simp] theorem Upd.apply_part_spad (n : Nat) (x : Part) : ((Upd.part n x).apply s).spad = s.spad := rfl
@[simp] theorem Upd.apply_part_cores (n : Nat) (x : Part) : ((Upd.part n x).apply s).cores = s.cores := rfl
@[simp] theorem Upd.apply_part_clusters (n : Nat) (x : Part) : ((Upd.part n x).apply s).clusters = s.clusters := rfl
@[simp] theorem Upd.apply_part_parts (n : Nat) (x : Part) : ((Upd.part n x).apply s).parts = mput s.parts n x := rfl
@[simp] theorem Upd.apply_part_groups (n : Nat) (x : Part) : ((Upd.part n x).apply s).groups = s.groups := rfl
@[simp] theorem Upd.apply_part_streams (n : Nat) (x : Part) : ((Upd.part n x).apply s).streams = s.streams := rfl
@[simp] theorem Upd.apply_part_blocks (n : Nat) (x : Part) : ((Upd.part n x).apply s).blocks = s.blocks := rfl
@[simp] theorem Upd.apply_part_mail (n : Nat) (x : Part) : ((Upd.part n x).apply s).mail = s.mail := rfl
@[simp] theorem Upd.apply_part_faults (n : Nat) (x : Part) : ((Upd.part n x).apply s).faults = s.faults := rfl
@[simp] theorem Upd.apply_part_rounds (n : Nat) (x : Part) : ((Upd.part n x).apply s).rounds = s.rounds := rfl
@[simp] theorem Upd.apply_part_trace (n : Nat) (x : Part) : ((Upd.part n x).apply s).trace = s.trace := rfl
@[simp] theorem Upd.apply_part_ctrs (n : Nat) (x : Part) : ((Upd.part n x).apply s).ctrs = s.ctrs := rfl
@[simp] theorem Upd.apply_part_bars (n : Nat) (x : Part) : ((Upd.part n x).apply s).bars = s.bars := rfl
@[simp] theorem Upd.apply_part_coh (n : Nat) (x : Part) : ((Upd.part n x).apply s).coh = s.coh := rfl
@[simp] theorem Upd.apply_part_hostVal (n : Nat) (x : Part) : ((Upd.part n x).apply s).hostVal = s.hostVal := rfl
@[simp] theorem Upd.apply_part_turn (n : Nat) (x : Part) : ((Upd.part n x).apply s).turn = s.turn := rfl

/-! ## `group` -/

@[simp] theorem Upd.apply_group_cur (n : Nat) (x : Group) : ((Upd.group n x).apply s).cur = s.cur := rfl
@[simp] theorem Upd.apply_group_subj (n : Nat) (x : Group) : ((Upd.group n x).apply s).subj = s.subj := rfl
@[simp] theorem Upd.apply_group_agenda (n : Nat) (x : Group) : ((Upd.group n x).apply s).agenda = s.agenda := rfl
@[simp] theorem Upd.apply_group_ticks (n : Nat) (x : Group) : ((Upd.group n x).apply s).ticks = s.ticks := rfl
@[simp] theorem Upd.apply_group_fresh (n : Nat) (x : Group) : ((Upd.group n x).apply s).fresh = s.fresh := rfl
@[simp] theorem Upd.apply_group_nextId (n : Nat) (x : Group) : ((Upd.group n x).apply s).nextId = s.nextId := rfl
@[simp] theorem Upd.apply_group_idn (n : Nat) (x : Group) : ((Upd.group n x).apply s).idn = s.idn := rfl
@[simp] theorem Upd.apply_group_clk (n : Nat) (x : Group) : ((Upd.group n x).apply s).clk = s.clk := rfl
@[simp] theorem Upd.apply_group_boot (n : Nat) (x : Group) : ((Upd.group n x).apply s).boot = s.boot := rfl
@[simp] theorem Upd.apply_group_mem (n : Nat) (x : Group) : ((Upd.group n x).apply s).mem = s.mem := rfl
@[simp] theorem Upd.apply_group_spad (n : Nat) (x : Group) : ((Upd.group n x).apply s).spad = s.spad := rfl
@[simp] theorem Upd.apply_group_cores (n : Nat) (x : Group) : ((Upd.group n x).apply s).cores = s.cores := rfl
@[simp] theorem Upd.apply_group_clusters (n : Nat) (x : Group) : ((Upd.group n x).apply s).clusters = s.clusters := rfl
@[simp] theorem Upd.apply_group_parts (n : Nat) (x : Group) : ((Upd.group n x).apply s).parts = s.parts := rfl
@[simp] theorem Upd.apply_group_groups (n : Nat) (x : Group) : ((Upd.group n x).apply s).groups = mput s.groups n x := rfl
@[simp] theorem Upd.apply_group_streams (n : Nat) (x : Group) : ((Upd.group n x).apply s).streams = s.streams := rfl
@[simp] theorem Upd.apply_group_blocks (n : Nat) (x : Group) : ((Upd.group n x).apply s).blocks = s.blocks := rfl
@[simp] theorem Upd.apply_group_mail (n : Nat) (x : Group) : ((Upd.group n x).apply s).mail = s.mail := rfl
@[simp] theorem Upd.apply_group_faults (n : Nat) (x : Group) : ((Upd.group n x).apply s).faults = s.faults := rfl
@[simp] theorem Upd.apply_group_rounds (n : Nat) (x : Group) : ((Upd.group n x).apply s).rounds = s.rounds := rfl
@[simp] theorem Upd.apply_group_trace (n : Nat) (x : Group) : ((Upd.group n x).apply s).trace = s.trace := rfl
@[simp] theorem Upd.apply_group_ctrs (n : Nat) (x : Group) : ((Upd.group n x).apply s).ctrs = s.ctrs := rfl
@[simp] theorem Upd.apply_group_bars (n : Nat) (x : Group) : ((Upd.group n x).apply s).bars = s.bars := rfl
@[simp] theorem Upd.apply_group_coh (n : Nat) (x : Group) : ((Upd.group n x).apply s).coh = s.coh := rfl
@[simp] theorem Upd.apply_group_hostVal (n : Nat) (x : Group) : ((Upd.group n x).apply s).hostVal = s.hostVal := rfl
@[simp] theorem Upd.apply_group_turn (n : Nat) (x : Group) : ((Upd.group n x).apply s).turn = s.turn := rfl

/-! ## `delGroup` -/

@[simp] theorem Upd.apply_delGroup_cur (n : Nat) : ((Upd.delGroup n).apply s).cur = s.cur := rfl
@[simp] theorem Upd.apply_delGroup_subj (n : Nat) : ((Upd.delGroup n).apply s).subj = s.subj := rfl
@[simp] theorem Upd.apply_delGroup_agenda (n : Nat) : ((Upd.delGroup n).apply s).agenda = s.agenda := rfl
@[simp] theorem Upd.apply_delGroup_ticks (n : Nat) : ((Upd.delGroup n).apply s).ticks = s.ticks := rfl
@[simp] theorem Upd.apply_delGroup_fresh (n : Nat) : ((Upd.delGroup n).apply s).fresh = s.fresh := rfl
@[simp] theorem Upd.apply_delGroup_nextId (n : Nat) : ((Upd.delGroup n).apply s).nextId = s.nextId := rfl
@[simp] theorem Upd.apply_delGroup_idn (n : Nat) : ((Upd.delGroup n).apply s).idn = s.idn := rfl
@[simp] theorem Upd.apply_delGroup_clk (n : Nat) : ((Upd.delGroup n).apply s).clk = s.clk := rfl
@[simp] theorem Upd.apply_delGroup_boot (n : Nat) : ((Upd.delGroup n).apply s).boot = s.boot := rfl
@[simp] theorem Upd.apply_delGroup_mem (n : Nat) : ((Upd.delGroup n).apply s).mem = s.mem := rfl
@[simp] theorem Upd.apply_delGroup_spad (n : Nat) : ((Upd.delGroup n).apply s).spad = s.spad := rfl
@[simp] theorem Upd.apply_delGroup_cores (n : Nat) : ((Upd.delGroup n).apply s).cores = s.cores := rfl
@[simp] theorem Upd.apply_delGroup_clusters (n : Nat) : ((Upd.delGroup n).apply s).clusters = s.clusters := rfl
@[simp] theorem Upd.apply_delGroup_parts (n : Nat) : ((Upd.delGroup n).apply s).parts = s.parts := rfl
@[simp] theorem Upd.apply_delGroup_groups (n : Nat) : ((Upd.delGroup n).apply s).groups = mdel s.groups n := rfl
@[simp] theorem Upd.apply_delGroup_streams (n : Nat) : ((Upd.delGroup n).apply s).streams = s.streams := rfl
@[simp] theorem Upd.apply_delGroup_blocks (n : Nat) : ((Upd.delGroup n).apply s).blocks = s.blocks := rfl
@[simp] theorem Upd.apply_delGroup_mail (n : Nat) : ((Upd.delGroup n).apply s).mail = s.mail := rfl
@[simp] theorem Upd.apply_delGroup_faults (n : Nat) : ((Upd.delGroup n).apply s).faults = s.faults := rfl
@[simp] theorem Upd.apply_delGroup_rounds (n : Nat) : ((Upd.delGroup n).apply s).rounds = s.rounds := rfl
@[simp] theorem Upd.apply_delGroup_trace (n : Nat) : ((Upd.delGroup n).apply s).trace = s.trace := rfl
@[simp] theorem Upd.apply_delGroup_ctrs (n : Nat) : ((Upd.delGroup n).apply s).ctrs = s.ctrs := rfl
@[simp] theorem Upd.apply_delGroup_bars (n : Nat) : ((Upd.delGroup n).apply s).bars = s.bars := rfl
@[simp] theorem Upd.apply_delGroup_coh (n : Nat) : ((Upd.delGroup n).apply s).coh = s.coh := rfl
@[simp] theorem Upd.apply_delGroup_hostVal (n : Nat) : ((Upd.delGroup n).apply s).hostVal = s.hostVal := rfl
@[simp] theorem Upd.apply_delGroup_turn (n : Nat) : ((Upd.delGroup n).apply s).turn = s.turn := rfl

/-! ## `stream` -/

@[simp] theorem Upd.apply_stream_cur (n : Nat) (x : Stream) : ((Upd.stream n x).apply s).cur = s.cur := rfl
@[simp] theorem Upd.apply_stream_subj (n : Nat) (x : Stream) : ((Upd.stream n x).apply s).subj = s.subj := rfl
@[simp] theorem Upd.apply_stream_agenda (n : Nat) (x : Stream) : ((Upd.stream n x).apply s).agenda = s.agenda := rfl
@[simp] theorem Upd.apply_stream_ticks (n : Nat) (x : Stream) : ((Upd.stream n x).apply s).ticks = s.ticks := rfl
@[simp] theorem Upd.apply_stream_fresh (n : Nat) (x : Stream) : ((Upd.stream n x).apply s).fresh = s.fresh := rfl
@[simp] theorem Upd.apply_stream_nextId (n : Nat) (x : Stream) : ((Upd.stream n x).apply s).nextId = s.nextId := rfl
@[simp] theorem Upd.apply_stream_idn (n : Nat) (x : Stream) : ((Upd.stream n x).apply s).idn = s.idn := rfl
@[simp] theorem Upd.apply_stream_clk (n : Nat) (x : Stream) : ((Upd.stream n x).apply s).clk = s.clk := rfl
@[simp] theorem Upd.apply_stream_boot (n : Nat) (x : Stream) : ((Upd.stream n x).apply s).boot = s.boot := rfl
@[simp] theorem Upd.apply_stream_mem (n : Nat) (x : Stream) : ((Upd.stream n x).apply s).mem = s.mem := rfl
@[simp] theorem Upd.apply_stream_spad (n : Nat) (x : Stream) : ((Upd.stream n x).apply s).spad = s.spad := rfl
@[simp] theorem Upd.apply_stream_cores (n : Nat) (x : Stream) : ((Upd.stream n x).apply s).cores = s.cores := rfl
@[simp] theorem Upd.apply_stream_clusters (n : Nat) (x : Stream) : ((Upd.stream n x).apply s).clusters = s.clusters := rfl
@[simp] theorem Upd.apply_stream_parts (n : Nat) (x : Stream) : ((Upd.stream n x).apply s).parts = s.parts := rfl
@[simp] theorem Upd.apply_stream_groups (n : Nat) (x : Stream) : ((Upd.stream n x).apply s).groups = s.groups := rfl
@[simp] theorem Upd.apply_stream_streams (n : Nat) (x : Stream) : ((Upd.stream n x).apply s).streams = mput s.streams n x := rfl
@[simp] theorem Upd.apply_stream_blocks (n : Nat) (x : Stream) : ((Upd.stream n x).apply s).blocks = s.blocks := rfl
@[simp] theorem Upd.apply_stream_mail (n : Nat) (x : Stream) : ((Upd.stream n x).apply s).mail = s.mail := rfl
@[simp] theorem Upd.apply_stream_faults (n : Nat) (x : Stream) : ((Upd.stream n x).apply s).faults = s.faults := rfl
@[simp] theorem Upd.apply_stream_rounds (n : Nat) (x : Stream) : ((Upd.stream n x).apply s).rounds = s.rounds := rfl
@[simp] theorem Upd.apply_stream_trace (n : Nat) (x : Stream) : ((Upd.stream n x).apply s).trace = s.trace := rfl
@[simp] theorem Upd.apply_stream_ctrs (n : Nat) (x : Stream) : ((Upd.stream n x).apply s).ctrs = s.ctrs := rfl
@[simp] theorem Upd.apply_stream_bars (n : Nat) (x : Stream) : ((Upd.stream n x).apply s).bars = s.bars := rfl
@[simp] theorem Upd.apply_stream_coh (n : Nat) (x : Stream) : ((Upd.stream n x).apply s).coh = s.coh := rfl
@[simp] theorem Upd.apply_stream_hostVal (n : Nat) (x : Stream) : ((Upd.stream n x).apply s).hostVal = s.hostVal := rfl
@[simp] theorem Upd.apply_stream_turn (n : Nat) (x : Stream) : ((Upd.stream n x).apply s).turn = s.turn := rfl

/-! ## `delStream` -/

@[simp] theorem Upd.apply_delStream_cur (n : Nat) : ((Upd.delStream n).apply s).cur = s.cur := rfl
@[simp] theorem Upd.apply_delStream_subj (n : Nat) : ((Upd.delStream n).apply s).subj = s.subj := rfl
@[simp] theorem Upd.apply_delStream_agenda (n : Nat) : ((Upd.delStream n).apply s).agenda = s.agenda := rfl
@[simp] theorem Upd.apply_delStream_ticks (n : Nat) : ((Upd.delStream n).apply s).ticks = s.ticks := rfl
@[simp] theorem Upd.apply_delStream_fresh (n : Nat) : ((Upd.delStream n).apply s).fresh = s.fresh := rfl
@[simp] theorem Upd.apply_delStream_nextId (n : Nat) : ((Upd.delStream n).apply s).nextId = s.nextId := rfl
@[simp] theorem Upd.apply_delStream_idn (n : Nat) : ((Upd.delStream n).apply s).idn = s.idn := rfl
@[simp] theorem Upd.apply_delStream_clk (n : Nat) : ((Upd.delStream n).apply s).clk = s.clk := rfl
@[simp] theorem Upd.apply_delStream_boot (n : Nat) : ((Upd.delStream n).apply s).boot = s.boot := rfl
@[simp] theorem Upd.apply_delStream_mem (n : Nat) : ((Upd.delStream n).apply s).mem = s.mem := rfl
@[simp] theorem Upd.apply_delStream_spad (n : Nat) : ((Upd.delStream n).apply s).spad = s.spad := rfl
@[simp] theorem Upd.apply_delStream_cores (n : Nat) : ((Upd.delStream n).apply s).cores = s.cores := rfl
@[simp] theorem Upd.apply_delStream_clusters (n : Nat) : ((Upd.delStream n).apply s).clusters = s.clusters := rfl
@[simp] theorem Upd.apply_delStream_parts (n : Nat) : ((Upd.delStream n).apply s).parts = s.parts := rfl
@[simp] theorem Upd.apply_delStream_groups (n : Nat) : ((Upd.delStream n).apply s).groups = s.groups := rfl
@[simp] theorem Upd.apply_delStream_streams (n : Nat) : ((Upd.delStream n).apply s).streams = mdel s.streams n := rfl
@[simp] theorem Upd.apply_delStream_blocks (n : Nat) : ((Upd.delStream n).apply s).blocks = s.blocks := rfl
@[simp] theorem Upd.apply_delStream_mail (n : Nat) : ((Upd.delStream n).apply s).mail = s.mail := rfl
@[simp] theorem Upd.apply_delStream_faults (n : Nat) : ((Upd.delStream n).apply s).faults = s.faults := rfl
@[simp] theorem Upd.apply_delStream_rounds (n : Nat) : ((Upd.delStream n).apply s).rounds = s.rounds := rfl
@[simp] theorem Upd.apply_delStream_trace (n : Nat) : ((Upd.delStream n).apply s).trace = s.trace := rfl
@[simp] theorem Upd.apply_delStream_ctrs (n : Nat) : ((Upd.delStream n).apply s).ctrs = s.ctrs := rfl
@[simp] theorem Upd.apply_delStream_bars (n : Nat) : ((Upd.delStream n).apply s).bars = s.bars := rfl
@[simp] theorem Upd.apply_delStream_coh (n : Nat) : ((Upd.delStream n).apply s).coh = s.coh := rfl
@[simp] theorem Upd.apply_delStream_hostVal (n : Nat) : ((Upd.delStream n).apply s).hostVal = s.hostVal := rfl
@[simp] theorem Upd.apply_delStream_turn (n : Nat) : ((Upd.delStream n).apply s).turn = s.turn := rfl

/-! ## `block` -/

@[simp] theorem Upd.apply_block_cur (n : Nat) (x : Block) : ((Upd.block n x).apply s).cur = s.cur := rfl
@[simp] theorem Upd.apply_block_subj (n : Nat) (x : Block) : ((Upd.block n x).apply s).subj = s.subj := rfl
@[simp] theorem Upd.apply_block_agenda (n : Nat) (x : Block) : ((Upd.block n x).apply s).agenda = s.agenda := rfl
@[simp] theorem Upd.apply_block_ticks (n : Nat) (x : Block) : ((Upd.block n x).apply s).ticks = s.ticks := rfl
@[simp] theorem Upd.apply_block_fresh (n : Nat) (x : Block) : ((Upd.block n x).apply s).fresh = s.fresh := rfl
@[simp] theorem Upd.apply_block_nextId (n : Nat) (x : Block) : ((Upd.block n x).apply s).nextId = s.nextId := rfl
@[simp] theorem Upd.apply_block_idn (n : Nat) (x : Block) : ((Upd.block n x).apply s).idn = s.idn := rfl
@[simp] theorem Upd.apply_block_clk (n : Nat) (x : Block) : ((Upd.block n x).apply s).clk = s.clk := rfl
@[simp] theorem Upd.apply_block_boot (n : Nat) (x : Block) : ((Upd.block n x).apply s).boot = s.boot := rfl
@[simp] theorem Upd.apply_block_mem (n : Nat) (x : Block) : ((Upd.block n x).apply s).mem = s.mem := rfl
@[simp] theorem Upd.apply_block_spad (n : Nat) (x : Block) : ((Upd.block n x).apply s).spad = s.spad := rfl
@[simp] theorem Upd.apply_block_cores (n : Nat) (x : Block) : ((Upd.block n x).apply s).cores = s.cores := rfl
@[simp] theorem Upd.apply_block_clusters (n : Nat) (x : Block) : ((Upd.block n x).apply s).clusters = s.clusters := rfl
@[simp] theorem Upd.apply_block_parts (n : Nat) (x : Block) : ((Upd.block n x).apply s).parts = s.parts := rfl
@[simp] theorem Upd.apply_block_groups (n : Nat) (x : Block) : ((Upd.block n x).apply s).groups = s.groups := rfl
@[simp] theorem Upd.apply_block_streams (n : Nat) (x : Block) : ((Upd.block n x).apply s).streams = s.streams := rfl
@[simp] theorem Upd.apply_block_blocks (n : Nat) (x : Block) : ((Upd.block n x).apply s).blocks = mput s.blocks n x := rfl
@[simp] theorem Upd.apply_block_mail (n : Nat) (x : Block) : ((Upd.block n x).apply s).mail = s.mail := rfl
@[simp] theorem Upd.apply_block_faults (n : Nat) (x : Block) : ((Upd.block n x).apply s).faults = s.faults := rfl
@[simp] theorem Upd.apply_block_rounds (n : Nat) (x : Block) : ((Upd.block n x).apply s).rounds = s.rounds := rfl
@[simp] theorem Upd.apply_block_trace (n : Nat) (x : Block) : ((Upd.block n x).apply s).trace = s.trace := rfl
@[simp] theorem Upd.apply_block_ctrs (n : Nat) (x : Block) : ((Upd.block n x).apply s).ctrs = s.ctrs := rfl
@[simp] theorem Upd.apply_block_bars (n : Nat) (x : Block) : ((Upd.block n x).apply s).bars = s.bars := rfl
@[simp] theorem Upd.apply_block_coh (n : Nat) (x : Block) : ((Upd.block n x).apply s).coh = s.coh := rfl
@[simp] theorem Upd.apply_block_hostVal (n : Nat) (x : Block) : ((Upd.block n x).apply s).hostVal = s.hostVal := rfl
@[simp] theorem Upd.apply_block_turn (n : Nat) (x : Block) : ((Upd.block n x).apply s).turn = s.turn := rfl

/-! ## `delBlock` -/

@[simp] theorem Upd.apply_delBlock_cur (n : Nat) : ((Upd.delBlock n).apply s).cur = s.cur := rfl
@[simp] theorem Upd.apply_delBlock_subj (n : Nat) : ((Upd.delBlock n).apply s).subj = s.subj := rfl
@[simp] theorem Upd.apply_delBlock_agenda (n : Nat) : ((Upd.delBlock n).apply s).agenda = s.agenda := rfl
@[simp] theorem Upd.apply_delBlock_ticks (n : Nat) : ((Upd.delBlock n).apply s).ticks = s.ticks := rfl
@[simp] theorem Upd.apply_delBlock_fresh (n : Nat) : ((Upd.delBlock n).apply s).fresh = s.fresh := rfl
@[simp] theorem Upd.apply_delBlock_nextId (n : Nat) : ((Upd.delBlock n).apply s).nextId = s.nextId := rfl
@[simp] theorem Upd.apply_delBlock_idn (n : Nat) : ((Upd.delBlock n).apply s).idn = s.idn := rfl
@[simp] theorem Upd.apply_delBlock_clk (n : Nat) : ((Upd.delBlock n).apply s).clk = s.clk := rfl
@[simp] theorem Upd.apply_delBlock_boot (n : Nat) : ((Upd.delBlock n).apply s).boot = s.boot := rfl
@[simp] theorem Upd.apply_delBlock_mem (n : Nat) : ((Upd.delBlock n).apply s).mem = s.mem := rfl
@[simp] theorem Upd.apply_delBlock_spad (n : Nat) : ((Upd.delBlock n).apply s).spad = s.spad := rfl
@[simp] theorem Upd.apply_delBlock_cores (n : Nat) : ((Upd.delBlock n).apply s).cores = s.cores := rfl
@[simp] theorem Upd.apply_delBlock_clusters (n : Nat) : ((Upd.delBlock n).apply s).clusters = s.clusters := rfl
@[simp] theorem Upd.apply_delBlock_parts (n : Nat) : ((Upd.delBlock n).apply s).parts = s.parts := rfl
@[simp] theorem Upd.apply_delBlock_groups (n : Nat) : ((Upd.delBlock n).apply s).groups = s.groups := rfl
@[simp] theorem Upd.apply_delBlock_streams (n : Nat) : ((Upd.delBlock n).apply s).streams = s.streams := rfl
@[simp] theorem Upd.apply_delBlock_blocks (n : Nat) : ((Upd.delBlock n).apply s).blocks = mdel s.blocks n := rfl
@[simp] theorem Upd.apply_delBlock_mail (n : Nat) : ((Upd.delBlock n).apply s).mail = s.mail := rfl
@[simp] theorem Upd.apply_delBlock_faults (n : Nat) : ((Upd.delBlock n).apply s).faults = s.faults := rfl
@[simp] theorem Upd.apply_delBlock_rounds (n : Nat) : ((Upd.delBlock n).apply s).rounds = s.rounds := rfl
@[simp] theorem Upd.apply_delBlock_trace (n : Nat) : ((Upd.delBlock n).apply s).trace = s.trace := rfl
@[simp] theorem Upd.apply_delBlock_ctrs (n : Nat) : ((Upd.delBlock n).apply s).ctrs = s.ctrs := rfl
@[simp] theorem Upd.apply_delBlock_bars (n : Nat) : ((Upd.delBlock n).apply s).bars = s.bars := rfl
@[simp] theorem Upd.apply_delBlock_coh (n : Nat) : ((Upd.delBlock n).apply s).coh = s.coh := rfl
@[simp] theorem Upd.apply_delBlock_hostVal (n : Nat) : ((Upd.delBlock n).apply s).hostVal = s.hostVal := rfl
@[simp] theorem Upd.apply_delBlock_turn (n : Nat) : ((Upd.delBlock n).apply s).turn = s.turn := rfl

/-! ## `mail` -/

@[simp] theorem Upd.apply_mail_cur (x : Mail) : ((Upd.mail x).apply s).cur = s.cur := rfl
@[simp] theorem Upd.apply_mail_subj (x : Mail) : ((Upd.mail x).apply s).subj = s.subj := rfl
@[simp] theorem Upd.apply_mail_agenda (x : Mail) : ((Upd.mail x).apply s).agenda = s.agenda := rfl
@[simp] theorem Upd.apply_mail_ticks (x : Mail) : ((Upd.mail x).apply s).ticks = s.ticks := rfl
@[simp] theorem Upd.apply_mail_fresh (x : Mail) : ((Upd.mail x).apply s).fresh = s.fresh := rfl
@[simp] theorem Upd.apply_mail_nextId (x : Mail) : ((Upd.mail x).apply s).nextId = s.nextId := rfl
@[simp] theorem Upd.apply_mail_idn (x : Mail) : ((Upd.mail x).apply s).idn = s.idn := rfl
@[simp] theorem Upd.apply_mail_clk (x : Mail) : ((Upd.mail x).apply s).clk = s.clk := rfl
@[simp] theorem Upd.apply_mail_boot (x : Mail) : ((Upd.mail x).apply s).boot = s.boot := rfl
@[simp] theorem Upd.apply_mail_mem (x : Mail) : ((Upd.mail x).apply s).mem = s.mem := rfl
@[simp] theorem Upd.apply_mail_spad (x : Mail) : ((Upd.mail x).apply s).spad = s.spad := rfl
@[simp] theorem Upd.apply_mail_cores (x : Mail) : ((Upd.mail x).apply s).cores = s.cores := rfl
@[simp] theorem Upd.apply_mail_clusters (x : Mail) : ((Upd.mail x).apply s).clusters = s.clusters := rfl
@[simp] theorem Upd.apply_mail_parts (x : Mail) : ((Upd.mail x).apply s).parts = s.parts := rfl
@[simp] theorem Upd.apply_mail_groups (x : Mail) : ((Upd.mail x).apply s).groups = s.groups := rfl
@[simp] theorem Upd.apply_mail_streams (x : Mail) : ((Upd.mail x).apply s).streams = s.streams := rfl
@[simp] theorem Upd.apply_mail_blocks (x : Mail) : ((Upd.mail x).apply s).blocks = s.blocks := rfl
@[simp] theorem Upd.apply_mail_mail (x : Mail) : ((Upd.mail x).apply s).mail = x := rfl
@[simp] theorem Upd.apply_mail_faults (x : Mail) : ((Upd.mail x).apply s).faults = s.faults := rfl
@[simp] theorem Upd.apply_mail_rounds (x : Mail) : ((Upd.mail x).apply s).rounds = s.rounds := rfl
@[simp] theorem Upd.apply_mail_trace (x : Mail) : ((Upd.mail x).apply s).trace = s.trace := rfl
@[simp] theorem Upd.apply_mail_ctrs (x : Mail) : ((Upd.mail x).apply s).ctrs = s.ctrs := rfl
@[simp] theorem Upd.apply_mail_bars (x : Mail) : ((Upd.mail x).apply s).bars = s.bars := rfl
@[simp] theorem Upd.apply_mail_coh (x : Mail) : ((Upd.mail x).apply s).coh = s.coh := rfl
@[simp] theorem Upd.apply_mail_hostVal (x : Mail) : ((Upd.mail x).apply s).hostVal = s.hostVal := rfl
@[simp] theorem Upd.apply_mail_turn (x : Mail) : ((Upd.mail x).apply s).turn = s.turn := rfl

/-! ## `faults` -/

@[simp] theorem Upd.apply_faults_cur (x : FaultUnit) : ((Upd.faults x).apply s).cur = s.cur := rfl
@[simp] theorem Upd.apply_faults_subj (x : FaultUnit) : ((Upd.faults x).apply s).subj = s.subj := rfl
@[simp] theorem Upd.apply_faults_agenda (x : FaultUnit) : ((Upd.faults x).apply s).agenda = s.agenda := rfl
@[simp] theorem Upd.apply_faults_ticks (x : FaultUnit) : ((Upd.faults x).apply s).ticks = s.ticks := rfl
@[simp] theorem Upd.apply_faults_fresh (x : FaultUnit) : ((Upd.faults x).apply s).fresh = s.fresh := rfl
@[simp] theorem Upd.apply_faults_nextId (x : FaultUnit) : ((Upd.faults x).apply s).nextId = s.nextId := rfl
@[simp] theorem Upd.apply_faults_idn (x : FaultUnit) : ((Upd.faults x).apply s).idn = s.idn := rfl
@[simp] theorem Upd.apply_faults_clk (x : FaultUnit) : ((Upd.faults x).apply s).clk = s.clk := rfl
@[simp] theorem Upd.apply_faults_boot (x : FaultUnit) : ((Upd.faults x).apply s).boot = s.boot := rfl
@[simp] theorem Upd.apply_faults_mem (x : FaultUnit) : ((Upd.faults x).apply s).mem = s.mem := rfl
@[simp] theorem Upd.apply_faults_spad (x : FaultUnit) : ((Upd.faults x).apply s).spad = s.spad := rfl
@[simp] theorem Upd.apply_faults_cores (x : FaultUnit) : ((Upd.faults x).apply s).cores = s.cores := rfl
@[simp] theorem Upd.apply_faults_clusters (x : FaultUnit) : ((Upd.faults x).apply s).clusters = s.clusters := rfl
@[simp] theorem Upd.apply_faults_parts (x : FaultUnit) : ((Upd.faults x).apply s).parts = s.parts := rfl
@[simp] theorem Upd.apply_faults_groups (x : FaultUnit) : ((Upd.faults x).apply s).groups = s.groups := rfl
@[simp] theorem Upd.apply_faults_streams (x : FaultUnit) : ((Upd.faults x).apply s).streams = s.streams := rfl
@[simp] theorem Upd.apply_faults_blocks (x : FaultUnit) : ((Upd.faults x).apply s).blocks = s.blocks := rfl
@[simp] theorem Upd.apply_faults_mail (x : FaultUnit) : ((Upd.faults x).apply s).mail = s.mail := rfl
@[simp] theorem Upd.apply_faults_faults (x : FaultUnit) : ((Upd.faults x).apply s).faults = x := rfl
@[simp] theorem Upd.apply_faults_rounds (x : FaultUnit) : ((Upd.faults x).apply s).rounds = s.rounds := rfl
@[simp] theorem Upd.apply_faults_trace (x : FaultUnit) : ((Upd.faults x).apply s).trace = s.trace := rfl
@[simp] theorem Upd.apply_faults_ctrs (x : FaultUnit) : ((Upd.faults x).apply s).ctrs = s.ctrs := rfl
@[simp] theorem Upd.apply_faults_bars (x : FaultUnit) : ((Upd.faults x).apply s).bars = s.bars := rfl
@[simp] theorem Upd.apply_faults_coh (x : FaultUnit) : ((Upd.faults x).apply s).coh = s.coh := rfl
@[simp] theorem Upd.apply_faults_hostVal (x : FaultUnit) : ((Upd.faults x).apply s).hostVal = s.hostVal := rfl
@[simp] theorem Upd.apply_faults_turn (x : FaultUnit) : ((Upd.faults x).apply s).turn = s.turn := rfl

/-! ## `rounds` -/

@[simp] theorem Upd.apply_rounds_cur (x : Rounds) : ((Upd.rounds x).apply s).cur = s.cur := rfl
@[simp] theorem Upd.apply_rounds_subj (x : Rounds) : ((Upd.rounds x).apply s).subj = s.subj := rfl
@[simp] theorem Upd.apply_rounds_agenda (x : Rounds) : ((Upd.rounds x).apply s).agenda = s.agenda := rfl
@[simp] theorem Upd.apply_rounds_ticks (x : Rounds) : ((Upd.rounds x).apply s).ticks = s.ticks := rfl
@[simp] theorem Upd.apply_rounds_fresh (x : Rounds) : ((Upd.rounds x).apply s).fresh = s.fresh := rfl
@[simp] theorem Upd.apply_rounds_nextId (x : Rounds) : ((Upd.rounds x).apply s).nextId = s.nextId := rfl
@[simp] theorem Upd.apply_rounds_idn (x : Rounds) : ((Upd.rounds x).apply s).idn = s.idn := rfl
@[simp] theorem Upd.apply_rounds_clk (x : Rounds) : ((Upd.rounds x).apply s).clk = s.clk := rfl
@[simp] theorem Upd.apply_rounds_boot (x : Rounds) : ((Upd.rounds x).apply s).boot = s.boot := rfl
@[simp] theorem Upd.apply_rounds_mem (x : Rounds) : ((Upd.rounds x).apply s).mem = s.mem := rfl
@[simp] theorem Upd.apply_rounds_spad (x : Rounds) : ((Upd.rounds x).apply s).spad = s.spad := rfl
@[simp] theorem Upd.apply_rounds_cores (x : Rounds) : ((Upd.rounds x).apply s).cores = s.cores := rfl
@[simp] theorem Upd.apply_rounds_clusters (x : Rounds) : ((Upd.rounds x).apply s).clusters = s.clusters := rfl
@[simp] theorem Upd.apply_rounds_parts (x : Rounds) : ((Upd.rounds x).apply s).parts = s.parts := rfl
@[simp] theorem Upd.apply_rounds_groups (x : Rounds) : ((Upd.rounds x).apply s).groups = s.groups := rfl
@[simp] theorem Upd.apply_rounds_streams (x : Rounds) : ((Upd.rounds x).apply s).streams = s.streams := rfl
@[simp] theorem Upd.apply_rounds_blocks (x : Rounds) : ((Upd.rounds x).apply s).blocks = s.blocks := rfl
@[simp] theorem Upd.apply_rounds_mail (x : Rounds) : ((Upd.rounds x).apply s).mail = s.mail := rfl
@[simp] theorem Upd.apply_rounds_faults (x : Rounds) : ((Upd.rounds x).apply s).faults = s.faults := rfl
@[simp] theorem Upd.apply_rounds_rounds (x : Rounds) : ((Upd.rounds x).apply s).rounds = x := rfl
@[simp] theorem Upd.apply_rounds_trace (x : Rounds) : ((Upd.rounds x).apply s).trace = s.trace := rfl
@[simp] theorem Upd.apply_rounds_ctrs (x : Rounds) : ((Upd.rounds x).apply s).ctrs = s.ctrs := rfl
@[simp] theorem Upd.apply_rounds_bars (x : Rounds) : ((Upd.rounds x).apply s).bars = s.bars := rfl
@[simp] theorem Upd.apply_rounds_coh (x : Rounds) : ((Upd.rounds x).apply s).coh = s.coh := rfl
@[simp] theorem Upd.apply_rounds_hostVal (x : Rounds) : ((Upd.rounds x).apply s).hostVal = s.hostVal := rfl
@[simp] theorem Upd.apply_rounds_turn (x : Rounds) : ((Upd.rounds x).apply s).turn = s.turn := rfl

/-! ## `trace` -/

@[simp] theorem Upd.apply_trace_cur (x : Trace) : ((Upd.trace x).apply s).cur = s.cur := rfl
@[simp] theorem Upd.apply_trace_subj (x : Trace) : ((Upd.trace x).apply s).subj = s.subj := rfl
@[simp] theorem Upd.apply_trace_agenda (x : Trace) : ((Upd.trace x).apply s).agenda = s.agenda := rfl
@[simp] theorem Upd.apply_trace_ticks (x : Trace) : ((Upd.trace x).apply s).ticks = s.ticks := rfl
@[simp] theorem Upd.apply_trace_fresh (x : Trace) : ((Upd.trace x).apply s).fresh = s.fresh := rfl
@[simp] theorem Upd.apply_trace_nextId (x : Trace) : ((Upd.trace x).apply s).nextId = s.nextId := rfl
@[simp] theorem Upd.apply_trace_idn (x : Trace) : ((Upd.trace x).apply s).idn = s.idn := rfl
@[simp] theorem Upd.apply_trace_clk (x : Trace) : ((Upd.trace x).apply s).clk = s.clk := rfl
@[simp] theorem Upd.apply_trace_boot (x : Trace) : ((Upd.trace x).apply s).boot = s.boot := rfl
@[simp] theorem Upd.apply_trace_mem (x : Trace) : ((Upd.trace x).apply s).mem = s.mem := rfl
@[simp] theorem Upd.apply_trace_spad (x : Trace) : ((Upd.trace x).apply s).spad = s.spad := rfl
@[simp] theorem Upd.apply_trace_cores (x : Trace) : ((Upd.trace x).apply s).cores = s.cores := rfl
@[simp] theorem Upd.apply_trace_clusters (x : Trace) : ((Upd.trace x).apply s).clusters = s.clusters := rfl
@[simp] theorem Upd.apply_trace_parts (x : Trace) : ((Upd.trace x).apply s).parts = s.parts := rfl
@[simp] theorem Upd.apply_trace_groups (x : Trace) : ((Upd.trace x).apply s).groups = s.groups := rfl
@[simp] theorem Upd.apply_trace_streams (x : Trace) : ((Upd.trace x).apply s).streams = s.streams := rfl
@[simp] theorem Upd.apply_trace_blocks (x : Trace) : ((Upd.trace x).apply s).blocks = s.blocks := rfl
@[simp] theorem Upd.apply_trace_mail (x : Trace) : ((Upd.trace x).apply s).mail = s.mail := rfl
@[simp] theorem Upd.apply_trace_faults (x : Trace) : ((Upd.trace x).apply s).faults = s.faults := rfl
@[simp] theorem Upd.apply_trace_rounds (x : Trace) : ((Upd.trace x).apply s).rounds = s.rounds := rfl
@[simp] theorem Upd.apply_trace_trace (x : Trace) : ((Upd.trace x).apply s).trace = x := rfl
@[simp] theorem Upd.apply_trace_ctrs (x : Trace) : ((Upd.trace x).apply s).ctrs = s.ctrs := rfl
@[simp] theorem Upd.apply_trace_bars (x : Trace) : ((Upd.trace x).apply s).bars = s.bars := rfl
@[simp] theorem Upd.apply_trace_coh (x : Trace) : ((Upd.trace x).apply s).coh = s.coh := rfl
@[simp] theorem Upd.apply_trace_hostVal (x : Trace) : ((Upd.trace x).apply s).hostVal = s.hostVal := rfl
@[simp] theorem Upd.apply_trace_turn (x : Trace) : ((Upd.trace x).apply s).turn = s.turn := rfl

/-! ## `ctrs` -/

@[simp] theorem Upd.apply_ctrs_cur (x : Counters) : ((Upd.ctrs x).apply s).cur = s.cur := rfl
@[simp] theorem Upd.apply_ctrs_subj (x : Counters) : ((Upd.ctrs x).apply s).subj = s.subj := rfl
@[simp] theorem Upd.apply_ctrs_agenda (x : Counters) : ((Upd.ctrs x).apply s).agenda = s.agenda := rfl
@[simp] theorem Upd.apply_ctrs_ticks (x : Counters) : ((Upd.ctrs x).apply s).ticks = s.ticks := rfl
@[simp] theorem Upd.apply_ctrs_fresh (x : Counters) : ((Upd.ctrs x).apply s).fresh = s.fresh := rfl
@[simp] theorem Upd.apply_ctrs_nextId (x : Counters) : ((Upd.ctrs x).apply s).nextId = s.nextId := rfl
@[simp] theorem Upd.apply_ctrs_idn (x : Counters) : ((Upd.ctrs x).apply s).idn = s.idn := rfl
@[simp] theorem Upd.apply_ctrs_clk (x : Counters) : ((Upd.ctrs x).apply s).clk = s.clk := rfl
@[simp] theorem Upd.apply_ctrs_boot (x : Counters) : ((Upd.ctrs x).apply s).boot = s.boot := rfl
@[simp] theorem Upd.apply_ctrs_mem (x : Counters) : ((Upd.ctrs x).apply s).mem = s.mem := rfl
@[simp] theorem Upd.apply_ctrs_spad (x : Counters) : ((Upd.ctrs x).apply s).spad = s.spad := rfl
@[simp] theorem Upd.apply_ctrs_cores (x : Counters) : ((Upd.ctrs x).apply s).cores = s.cores := rfl
@[simp] theorem Upd.apply_ctrs_clusters (x : Counters) : ((Upd.ctrs x).apply s).clusters = s.clusters := rfl
@[simp] theorem Upd.apply_ctrs_parts (x : Counters) : ((Upd.ctrs x).apply s).parts = s.parts := rfl
@[simp] theorem Upd.apply_ctrs_groups (x : Counters) : ((Upd.ctrs x).apply s).groups = s.groups := rfl
@[simp] theorem Upd.apply_ctrs_streams (x : Counters) : ((Upd.ctrs x).apply s).streams = s.streams := rfl
@[simp] theorem Upd.apply_ctrs_blocks (x : Counters) : ((Upd.ctrs x).apply s).blocks = s.blocks := rfl
@[simp] theorem Upd.apply_ctrs_mail (x : Counters) : ((Upd.ctrs x).apply s).mail = s.mail := rfl
@[simp] theorem Upd.apply_ctrs_faults (x : Counters) : ((Upd.ctrs x).apply s).faults = s.faults := rfl
@[simp] theorem Upd.apply_ctrs_rounds (x : Counters) : ((Upd.ctrs x).apply s).rounds = s.rounds := rfl
@[simp] theorem Upd.apply_ctrs_trace (x : Counters) : ((Upd.ctrs x).apply s).trace = s.trace := rfl
@[simp] theorem Upd.apply_ctrs_ctrs (x : Counters) : ((Upd.ctrs x).apply s).ctrs = x := rfl
@[simp] theorem Upd.apply_ctrs_bars (x : Counters) : ((Upd.ctrs x).apply s).bars = s.bars := rfl
@[simp] theorem Upd.apply_ctrs_coh (x : Counters) : ((Upd.ctrs x).apply s).coh = s.coh := rfl
@[simp] theorem Upd.apply_ctrs_hostVal (x : Counters) : ((Upd.ctrs x).apply s).hostVal = s.hostVal := rfl
@[simp] theorem Upd.apply_ctrs_turn (x : Counters) : ((Upd.ctrs x).apply s).turn = s.turn := rfl

/-! ## `bar` -/

@[simp] theorem Upd.apply_bar_cur (n : Nat) (x : Bar) : ((Upd.bar n x).apply s).cur = s.cur := rfl
@[simp] theorem Upd.apply_bar_subj (n : Nat) (x : Bar) : ((Upd.bar n x).apply s).subj = s.subj := rfl
@[simp] theorem Upd.apply_bar_agenda (n : Nat) (x : Bar) : ((Upd.bar n x).apply s).agenda = s.agenda := rfl
@[simp] theorem Upd.apply_bar_ticks (n : Nat) (x : Bar) : ((Upd.bar n x).apply s).ticks = s.ticks := rfl
@[simp] theorem Upd.apply_bar_fresh (n : Nat) (x : Bar) : ((Upd.bar n x).apply s).fresh = s.fresh := rfl
@[simp] theorem Upd.apply_bar_nextId (n : Nat) (x : Bar) : ((Upd.bar n x).apply s).nextId = s.nextId := rfl
@[simp] theorem Upd.apply_bar_idn (n : Nat) (x : Bar) : ((Upd.bar n x).apply s).idn = s.idn := rfl
@[simp] theorem Upd.apply_bar_clk (n : Nat) (x : Bar) : ((Upd.bar n x).apply s).clk = s.clk := rfl
@[simp] theorem Upd.apply_bar_boot (n : Nat) (x : Bar) : ((Upd.bar n x).apply s).boot = s.boot := rfl
@[simp] theorem Upd.apply_bar_mem (n : Nat) (x : Bar) : ((Upd.bar n x).apply s).mem = s.mem := rfl
@[simp] theorem Upd.apply_bar_spad (n : Nat) (x : Bar) : ((Upd.bar n x).apply s).spad = s.spad := rfl
@[simp] theorem Upd.apply_bar_cores (n : Nat) (x : Bar) : ((Upd.bar n x).apply s).cores = s.cores := rfl
@[simp] theorem Upd.apply_bar_clusters (n : Nat) (x : Bar) : ((Upd.bar n x).apply s).clusters = s.clusters := rfl
@[simp] theorem Upd.apply_bar_parts (n : Nat) (x : Bar) : ((Upd.bar n x).apply s).parts = s.parts := rfl
@[simp] theorem Upd.apply_bar_groups (n : Nat) (x : Bar) : ((Upd.bar n x).apply s).groups = s.groups := rfl
@[simp] theorem Upd.apply_bar_streams (n : Nat) (x : Bar) : ((Upd.bar n x).apply s).streams = s.streams := rfl
@[simp] theorem Upd.apply_bar_blocks (n : Nat) (x : Bar) : ((Upd.bar n x).apply s).blocks = s.blocks := rfl
@[simp] theorem Upd.apply_bar_mail (n : Nat) (x : Bar) : ((Upd.bar n x).apply s).mail = s.mail := rfl
@[simp] theorem Upd.apply_bar_faults (n : Nat) (x : Bar) : ((Upd.bar n x).apply s).faults = s.faults := rfl
@[simp] theorem Upd.apply_bar_rounds (n : Nat) (x : Bar) : ((Upd.bar n x).apply s).rounds = s.rounds := rfl
@[simp] theorem Upd.apply_bar_trace (n : Nat) (x : Bar) : ((Upd.bar n x).apply s).trace = s.trace := rfl
@[simp] theorem Upd.apply_bar_ctrs (n : Nat) (x : Bar) : ((Upd.bar n x).apply s).ctrs = s.ctrs := rfl
@[simp] theorem Upd.apply_bar_bars (n : Nat) (x : Bar) : ((Upd.bar n x).apply s).bars = mput s.bars n x := rfl
@[simp] theorem Upd.apply_bar_coh (n : Nat) (x : Bar) : ((Upd.bar n x).apply s).coh = s.coh := rfl
@[simp] theorem Upd.apply_bar_hostVal (n : Nat) (x : Bar) : ((Upd.bar n x).apply s).hostVal = s.hostVal := rfl
@[simp] theorem Upd.apply_bar_turn (n : Nat) (x : Bar) : ((Upd.bar n x).apply s).turn = s.turn := rfl

/-! ## `coh` -/

@[simp] theorem Upd.apply_coh_cur (x : Coh) : ((Upd.coh x).apply s).cur = s.cur := rfl
@[simp] theorem Upd.apply_coh_subj (x : Coh) : ((Upd.coh x).apply s).subj = s.subj := rfl
@[simp] theorem Upd.apply_coh_agenda (x : Coh) : ((Upd.coh x).apply s).agenda = s.agenda := rfl
@[simp] theorem Upd.apply_coh_ticks (x : Coh) : ((Upd.coh x).apply s).ticks = s.ticks := rfl
@[simp] theorem Upd.apply_coh_fresh (x : Coh) : ((Upd.coh x).apply s).fresh = s.fresh := rfl
@[simp] theorem Upd.apply_coh_nextId (x : Coh) : ((Upd.coh x).apply s).nextId = s.nextId := rfl
@[simp] theorem Upd.apply_coh_idn (x : Coh) : ((Upd.coh x).apply s).idn = s.idn := rfl
@[simp] theorem Upd.apply_coh_clk (x : Coh) : ((Upd.coh x).apply s).clk = s.clk := rfl
@[simp] theorem Upd.apply_coh_boot (x : Coh) : ((Upd.coh x).apply s).boot = s.boot := rfl
@[simp] theorem Upd.apply_coh_mem (x : Coh) : ((Upd.coh x).apply s).mem = s.mem := rfl
@[simp] theorem Upd.apply_coh_spad (x : Coh) : ((Upd.coh x).apply s).spad = s.spad := rfl
@[simp] theorem Upd.apply_coh_cores (x : Coh) : ((Upd.coh x).apply s).cores = s.cores := rfl
@[simp] theorem Upd.apply_coh_clusters (x : Coh) : ((Upd.coh x).apply s).clusters = s.clusters := rfl
@[simp] theorem Upd.apply_coh_parts (x : Coh) : ((Upd.coh x).apply s).parts = s.parts := rfl
@[simp] theorem Upd.apply_coh_groups (x : Coh) : ((Upd.coh x).apply s).groups = s.groups := rfl
@[simp] theorem Upd.apply_coh_streams (x : Coh) : ((Upd.coh x).apply s).streams = s.streams := rfl
@[simp] theorem Upd.apply_coh_blocks (x : Coh) : ((Upd.coh x).apply s).blocks = s.blocks := rfl
@[simp] theorem Upd.apply_coh_mail (x : Coh) : ((Upd.coh x).apply s).mail = s.mail := rfl
@[simp] theorem Upd.apply_coh_faults (x : Coh) : ((Upd.coh x).apply s).faults = s.faults := rfl
@[simp] theorem Upd.apply_coh_rounds (x : Coh) : ((Upd.coh x).apply s).rounds = s.rounds := rfl
@[simp] theorem Upd.apply_coh_trace (x : Coh) : ((Upd.coh x).apply s).trace = s.trace := rfl
@[simp] theorem Upd.apply_coh_ctrs (x : Coh) : ((Upd.coh x).apply s).ctrs = s.ctrs := rfl
@[simp] theorem Upd.apply_coh_bars (x : Coh) : ((Upd.coh x).apply s).bars = s.bars := rfl
@[simp] theorem Upd.apply_coh_coh (x : Coh) : ((Upd.coh x).apply s).coh = x := rfl
@[simp] theorem Upd.apply_coh_hostVal (x : Coh) : ((Upd.coh x).apply s).hostVal = s.hostVal := rfl
@[simp] theorem Upd.apply_coh_turn (x : Coh) : ((Upd.coh x).apply s).turn = s.turn := rfl

/-! ## `fresh` -/

@[simp] theorem Upd.apply_fresh_cur (x : Nat) : ((Upd.fresh x).apply s).cur = s.cur := rfl
@[simp] theorem Upd.apply_fresh_subj (x : Nat) : ((Upd.fresh x).apply s).subj = s.subj := rfl
@[simp] theorem Upd.apply_fresh_agenda (x : Nat) : ((Upd.fresh x).apply s).agenda = s.agenda := rfl
@[simp] theorem Upd.apply_fresh_ticks (x : Nat) : ((Upd.fresh x).apply s).ticks = s.ticks := rfl
@[simp] theorem Upd.apply_fresh_fresh (x : Nat) : ((Upd.fresh x).apply s).fresh = x := rfl
@[simp] theorem Upd.apply_fresh_nextId (x : Nat) : ((Upd.fresh x).apply s).nextId = s.nextId := rfl
@[simp] theorem Upd.apply_fresh_idn (x : Nat) : ((Upd.fresh x).apply s).idn = s.idn := rfl
@[simp] theorem Upd.apply_fresh_clk (x : Nat) : ((Upd.fresh x).apply s).clk = s.clk := rfl
@[simp] theorem Upd.apply_fresh_boot (x : Nat) : ((Upd.fresh x).apply s).boot = s.boot := rfl
@[simp] theorem Upd.apply_fresh_mem (x : Nat) : ((Upd.fresh x).apply s).mem = s.mem := rfl
@[simp] theorem Upd.apply_fresh_spad (x : Nat) : ((Upd.fresh x).apply s).spad = s.spad := rfl
@[simp] theorem Upd.apply_fresh_cores (x : Nat) : ((Upd.fresh x).apply s).cores = s.cores := rfl
@[simp] theorem Upd.apply_fresh_clusters (x : Nat) : ((Upd.fresh x).apply s).clusters = s.clusters := rfl
@[simp] theorem Upd.apply_fresh_parts (x : Nat) : ((Upd.fresh x).apply s).parts = s.parts := rfl
@[simp] theorem Upd.apply_fresh_groups (x : Nat) : ((Upd.fresh x).apply s).groups = s.groups := rfl
@[simp] theorem Upd.apply_fresh_streams (x : Nat) : ((Upd.fresh x).apply s).streams = s.streams := rfl
@[simp] theorem Upd.apply_fresh_blocks (x : Nat) : ((Upd.fresh x).apply s).blocks = s.blocks := rfl
@[simp] theorem Upd.apply_fresh_mail (x : Nat) : ((Upd.fresh x).apply s).mail = s.mail := rfl
@[simp] theorem Upd.apply_fresh_faults (x : Nat) : ((Upd.fresh x).apply s).faults = s.faults := rfl
@[simp] theorem Upd.apply_fresh_rounds (x : Nat) : ((Upd.fresh x).apply s).rounds = s.rounds := rfl
@[simp] theorem Upd.apply_fresh_trace (x : Nat) : ((Upd.fresh x).apply s).trace = s.trace := rfl
@[simp] theorem Upd.apply_fresh_ctrs (x : Nat) : ((Upd.fresh x).apply s).ctrs = s.ctrs := rfl
@[simp] theorem Upd.apply_fresh_bars (x : Nat) : ((Upd.fresh x).apply s).bars = s.bars := rfl
@[simp] theorem Upd.apply_fresh_coh (x : Nat) : ((Upd.fresh x).apply s).coh = s.coh := rfl
@[simp] theorem Upd.apply_fresh_hostVal (x : Nat) : ((Upd.fresh x).apply s).hostVal = s.hostVal := rfl
@[simp] theorem Upd.apply_fresh_turn (x : Nat) : ((Upd.fresh x).apply s).turn = s.turn := rfl

/-! ## `nextId` -/

@[simp] theorem Upd.apply_nextId_cur (x : Nat) : ((Upd.nextId x).apply s).cur = s.cur := rfl
@[simp] theorem Upd.apply_nextId_subj (x : Nat) : ((Upd.nextId x).apply s).subj = s.subj := rfl
@[simp] theorem Upd.apply_nextId_agenda (x : Nat) : ((Upd.nextId x).apply s).agenda = s.agenda := rfl
@[simp] theorem Upd.apply_nextId_ticks (x : Nat) : ((Upd.nextId x).apply s).ticks = s.ticks := rfl
@[simp] theorem Upd.apply_nextId_fresh (x : Nat) : ((Upd.nextId x).apply s).fresh = s.fresh := rfl
@[simp] theorem Upd.apply_nextId_nextId (x : Nat) : ((Upd.nextId x).apply s).nextId = x := rfl
@[simp] theorem Upd.apply_nextId_idn (x : Nat) : ((Upd.nextId x).apply s).idn = s.idn := rfl
@[simp] theorem Upd.apply_nextId_clk (x : Nat) : ((Upd.nextId x).apply s).clk = s.clk := rfl
@[simp] theorem Upd.apply_nextId_boot (x : Nat) : ((Upd.nextId x).apply s).boot = s.boot := rfl
@[simp] theorem Upd.apply_nextId_mem (x : Nat) : ((Upd.nextId x).apply s).mem = s.mem := rfl
@[simp] theorem Upd.apply_nextId_spad (x : Nat) : ((Upd.nextId x).apply s).spad = s.spad := rfl
@[simp] theorem Upd.apply_nextId_cores (x : Nat) : ((Upd.nextId x).apply s).cores = s.cores := rfl
@[simp] theorem Upd.apply_nextId_clusters (x : Nat) : ((Upd.nextId x).apply s).clusters = s.clusters := rfl
@[simp] theorem Upd.apply_nextId_parts (x : Nat) : ((Upd.nextId x).apply s).parts = s.parts := rfl
@[simp] theorem Upd.apply_nextId_groups (x : Nat) : ((Upd.nextId x).apply s).groups = s.groups := rfl
@[simp] theorem Upd.apply_nextId_streams (x : Nat) : ((Upd.nextId x).apply s).streams = s.streams := rfl
@[simp] theorem Upd.apply_nextId_blocks (x : Nat) : ((Upd.nextId x).apply s).blocks = s.blocks := rfl
@[simp] theorem Upd.apply_nextId_mail (x : Nat) : ((Upd.nextId x).apply s).mail = s.mail := rfl
@[simp] theorem Upd.apply_nextId_faults (x : Nat) : ((Upd.nextId x).apply s).faults = s.faults := rfl
@[simp] theorem Upd.apply_nextId_rounds (x : Nat) : ((Upd.nextId x).apply s).rounds = s.rounds := rfl
@[simp] theorem Upd.apply_nextId_trace (x : Nat) : ((Upd.nextId x).apply s).trace = s.trace := rfl
@[simp] theorem Upd.apply_nextId_ctrs (x : Nat) : ((Upd.nextId x).apply s).ctrs = s.ctrs := rfl
@[simp] theorem Upd.apply_nextId_bars (x : Nat) : ((Upd.nextId x).apply s).bars = s.bars := rfl
@[simp] theorem Upd.apply_nextId_coh (x : Nat) : ((Upd.nextId x).apply s).coh = s.coh := rfl
@[simp] theorem Upd.apply_nextId_hostVal (x : Nat) : ((Upd.nextId x).apply s).hostVal = s.hostVal := rfl
@[simp] theorem Upd.apply_nextId_turn (x : Nat) : ((Upd.nextId x).apply s).turn = s.turn := rfl

/-! ## `hostVal` -/

@[simp] theorem Upd.apply_hostVal_cur (x : DWord) : ((Upd.hostVal x).apply s).cur = s.cur := rfl
@[simp] theorem Upd.apply_hostVal_subj (x : DWord) : ((Upd.hostVal x).apply s).subj = s.subj := rfl
@[simp] theorem Upd.apply_hostVal_agenda (x : DWord) : ((Upd.hostVal x).apply s).agenda = s.agenda := rfl
@[simp] theorem Upd.apply_hostVal_ticks (x : DWord) : ((Upd.hostVal x).apply s).ticks = s.ticks := rfl
@[simp] theorem Upd.apply_hostVal_fresh (x : DWord) : ((Upd.hostVal x).apply s).fresh = s.fresh := rfl
@[simp] theorem Upd.apply_hostVal_nextId (x : DWord) : ((Upd.hostVal x).apply s).nextId = s.nextId := rfl
@[simp] theorem Upd.apply_hostVal_idn (x : DWord) : ((Upd.hostVal x).apply s).idn = s.idn := rfl
@[simp] theorem Upd.apply_hostVal_clk (x : DWord) : ((Upd.hostVal x).apply s).clk = s.clk := rfl
@[simp] theorem Upd.apply_hostVal_boot (x : DWord) : ((Upd.hostVal x).apply s).boot = s.boot := rfl
@[simp] theorem Upd.apply_hostVal_mem (x : DWord) : ((Upd.hostVal x).apply s).mem = s.mem := rfl
@[simp] theorem Upd.apply_hostVal_spad (x : DWord) : ((Upd.hostVal x).apply s).spad = s.spad := rfl
@[simp] theorem Upd.apply_hostVal_cores (x : DWord) : ((Upd.hostVal x).apply s).cores = s.cores := rfl
@[simp] theorem Upd.apply_hostVal_clusters (x : DWord) : ((Upd.hostVal x).apply s).clusters = s.clusters := rfl
@[simp] theorem Upd.apply_hostVal_parts (x : DWord) : ((Upd.hostVal x).apply s).parts = s.parts := rfl
@[simp] theorem Upd.apply_hostVal_groups (x : DWord) : ((Upd.hostVal x).apply s).groups = s.groups := rfl
@[simp] theorem Upd.apply_hostVal_streams (x : DWord) : ((Upd.hostVal x).apply s).streams = s.streams := rfl
@[simp] theorem Upd.apply_hostVal_blocks (x : DWord) : ((Upd.hostVal x).apply s).blocks = s.blocks := rfl
@[simp] theorem Upd.apply_hostVal_mail (x : DWord) : ((Upd.hostVal x).apply s).mail = s.mail := rfl
@[simp] theorem Upd.apply_hostVal_faults (x : DWord) : ((Upd.hostVal x).apply s).faults = s.faults := rfl
@[simp] theorem Upd.apply_hostVal_rounds (x : DWord) : ((Upd.hostVal x).apply s).rounds = s.rounds := rfl
@[simp] theorem Upd.apply_hostVal_trace (x : DWord) : ((Upd.hostVal x).apply s).trace = s.trace := rfl
@[simp] theorem Upd.apply_hostVal_ctrs (x : DWord) : ((Upd.hostVal x).apply s).ctrs = s.ctrs := rfl
@[simp] theorem Upd.apply_hostVal_bars (x : DWord) : ((Upd.hostVal x).apply s).bars = s.bars := rfl
@[simp] theorem Upd.apply_hostVal_coh (x : DWord) : ((Upd.hostVal x).apply s).coh = s.coh := rfl
@[simp] theorem Upd.apply_hostVal_hostVal (x : DWord) : ((Upd.hostVal x).apply s).hostVal = x := rfl
@[simp] theorem Upd.apply_hostVal_turn (x : DWord) : ((Upd.hostVal x).apply s).turn = s.turn := rfl

/-! ## `cur` -/

@[simp] theorem Upd.apply_cur_cur (x : Option Issue) : ((Upd.cur x).apply s).cur = x := rfl
@[simp] theorem Upd.apply_cur_subj (x : Option Issue) : ((Upd.cur x).apply s).subj = s.subj := rfl
@[simp] theorem Upd.apply_cur_agenda (x : Option Issue) : ((Upd.cur x).apply s).agenda = s.agenda := rfl
@[simp] theorem Upd.apply_cur_ticks (x : Option Issue) : ((Upd.cur x).apply s).ticks = s.ticks := rfl
@[simp] theorem Upd.apply_cur_fresh (x : Option Issue) : ((Upd.cur x).apply s).fresh = s.fresh := rfl
@[simp] theorem Upd.apply_cur_nextId (x : Option Issue) : ((Upd.cur x).apply s).nextId = s.nextId := rfl
@[simp] theorem Upd.apply_cur_idn (x : Option Issue) : ((Upd.cur x).apply s).idn = s.idn := rfl
@[simp] theorem Upd.apply_cur_clk (x : Option Issue) : ((Upd.cur x).apply s).clk = s.clk := rfl
@[simp] theorem Upd.apply_cur_boot (x : Option Issue) : ((Upd.cur x).apply s).boot = s.boot := rfl
@[simp] theorem Upd.apply_cur_mem (x : Option Issue) : ((Upd.cur x).apply s).mem = s.mem := rfl
@[simp] theorem Upd.apply_cur_spad (x : Option Issue) : ((Upd.cur x).apply s).spad = s.spad := rfl
@[simp] theorem Upd.apply_cur_cores (x : Option Issue) : ((Upd.cur x).apply s).cores = s.cores := rfl
@[simp] theorem Upd.apply_cur_clusters (x : Option Issue) : ((Upd.cur x).apply s).clusters = s.clusters := rfl
@[simp] theorem Upd.apply_cur_parts (x : Option Issue) : ((Upd.cur x).apply s).parts = s.parts := rfl
@[simp] theorem Upd.apply_cur_groups (x : Option Issue) : ((Upd.cur x).apply s).groups = s.groups := rfl
@[simp] theorem Upd.apply_cur_streams (x : Option Issue) : ((Upd.cur x).apply s).streams = s.streams := rfl
@[simp] theorem Upd.apply_cur_blocks (x : Option Issue) : ((Upd.cur x).apply s).blocks = s.blocks := rfl
@[simp] theorem Upd.apply_cur_mail (x : Option Issue) : ((Upd.cur x).apply s).mail = s.mail := rfl
@[simp] theorem Upd.apply_cur_faults (x : Option Issue) : ((Upd.cur x).apply s).faults = s.faults := rfl
@[simp] theorem Upd.apply_cur_rounds (x : Option Issue) : ((Upd.cur x).apply s).rounds = s.rounds := rfl
@[simp] theorem Upd.apply_cur_trace (x : Option Issue) : ((Upd.cur x).apply s).trace = s.trace := rfl
@[simp] theorem Upd.apply_cur_ctrs (x : Option Issue) : ((Upd.cur x).apply s).ctrs = s.ctrs := rfl
@[simp] theorem Upd.apply_cur_bars (x : Option Issue) : ((Upd.cur x).apply s).bars = s.bars := rfl
@[simp] theorem Upd.apply_cur_coh (x : Option Issue) : ((Upd.cur x).apply s).coh = s.coh := rfl
@[simp] theorem Upd.apply_cur_hostVal (x : Option Issue) : ((Upd.cur x).apply s).hostVal = s.hostVal := rfl
@[simp] theorem Upd.apply_cur_turn (x : Option Issue) : ((Upd.cur x).apply s).turn = s.turn := rfl

/-! ## `subj` -/

@[simp] theorem Upd.apply_subj_cur (x : List Nat) : ((Upd.subj x).apply s).cur = s.cur := rfl
@[simp] theorem Upd.apply_subj_subj (x : List Nat) : ((Upd.subj x).apply s).subj = x := rfl
@[simp] theorem Upd.apply_subj_agenda (x : List Nat) : ((Upd.subj x).apply s).agenda = s.agenda := rfl
@[simp] theorem Upd.apply_subj_ticks (x : List Nat) : ((Upd.subj x).apply s).ticks = s.ticks := rfl
@[simp] theorem Upd.apply_subj_fresh (x : List Nat) : ((Upd.subj x).apply s).fresh = s.fresh := rfl
@[simp] theorem Upd.apply_subj_nextId (x : List Nat) : ((Upd.subj x).apply s).nextId = s.nextId := rfl
@[simp] theorem Upd.apply_subj_idn (x : List Nat) : ((Upd.subj x).apply s).idn = s.idn := rfl
@[simp] theorem Upd.apply_subj_clk (x : List Nat) : ((Upd.subj x).apply s).clk = s.clk := rfl
@[simp] theorem Upd.apply_subj_boot (x : List Nat) : ((Upd.subj x).apply s).boot = s.boot := rfl
@[simp] theorem Upd.apply_subj_mem (x : List Nat) : ((Upd.subj x).apply s).mem = s.mem := rfl
@[simp] theorem Upd.apply_subj_spad (x : List Nat) : ((Upd.subj x).apply s).spad = s.spad := rfl
@[simp] theorem Upd.apply_subj_cores (x : List Nat) : ((Upd.subj x).apply s).cores = s.cores := rfl
@[simp] theorem Upd.apply_subj_clusters (x : List Nat) : ((Upd.subj x).apply s).clusters = s.clusters := rfl
@[simp] theorem Upd.apply_subj_parts (x : List Nat) : ((Upd.subj x).apply s).parts = s.parts := rfl
@[simp] theorem Upd.apply_subj_groups (x : List Nat) : ((Upd.subj x).apply s).groups = s.groups := rfl
@[simp] theorem Upd.apply_subj_streams (x : List Nat) : ((Upd.subj x).apply s).streams = s.streams := rfl
@[simp] theorem Upd.apply_subj_blocks (x : List Nat) : ((Upd.subj x).apply s).blocks = s.blocks := rfl
@[simp] theorem Upd.apply_subj_mail (x : List Nat) : ((Upd.subj x).apply s).mail = s.mail := rfl
@[simp] theorem Upd.apply_subj_faults (x : List Nat) : ((Upd.subj x).apply s).faults = s.faults := rfl
@[simp] theorem Upd.apply_subj_rounds (x : List Nat) : ((Upd.subj x).apply s).rounds = s.rounds := rfl
@[simp] theorem Upd.apply_subj_trace (x : List Nat) : ((Upd.subj x).apply s).trace = s.trace := rfl
@[simp] theorem Upd.apply_subj_ctrs (x : List Nat) : ((Upd.subj x).apply s).ctrs = s.ctrs := rfl
@[simp] theorem Upd.apply_subj_bars (x : List Nat) : ((Upd.subj x).apply s).bars = s.bars := rfl
@[simp] theorem Upd.apply_subj_coh (x : List Nat) : ((Upd.subj x).apply s).coh = s.coh := rfl
@[simp] theorem Upd.apply_subj_hostVal (x : List Nat) : ((Upd.subj x).apply s).hostVal = s.hostVal := rfl
@[simp] theorem Upd.apply_subj_turn (x : List Nat) : ((Upd.subj x).apply s).turn = s.turn := rfl

/-! ## `agenda` -/

@[simp] theorem Upd.apply_agenda_cur (x : List Move) : ((Upd.agenda x).apply s).cur = s.cur := rfl
@[simp] theorem Upd.apply_agenda_subj (x : List Move) : ((Upd.agenda x).apply s).subj = s.subj := rfl
@[simp] theorem Upd.apply_agenda_agenda (x : List Move) : ((Upd.agenda x).apply s).agenda = x := rfl
@[simp] theorem Upd.apply_agenda_ticks (x : List Move) : ((Upd.agenda x).apply s).ticks = s.ticks := rfl
@[simp] theorem Upd.apply_agenda_fresh (x : List Move) : ((Upd.agenda x).apply s).fresh = s.fresh := rfl
@[simp] theorem Upd.apply_agenda_nextId (x : List Move) : ((Upd.agenda x).apply s).nextId = s.nextId := rfl
@[simp] theorem Upd.apply_agenda_idn (x : List Move) : ((Upd.agenda x).apply s).idn = s.idn := rfl
@[simp] theorem Upd.apply_agenda_clk (x : List Move) : ((Upd.agenda x).apply s).clk = s.clk := rfl
@[simp] theorem Upd.apply_agenda_boot (x : List Move) : ((Upd.agenda x).apply s).boot = s.boot := rfl
@[simp] theorem Upd.apply_agenda_mem (x : List Move) : ((Upd.agenda x).apply s).mem = s.mem := rfl
@[simp] theorem Upd.apply_agenda_spad (x : List Move) : ((Upd.agenda x).apply s).spad = s.spad := rfl
@[simp] theorem Upd.apply_agenda_cores (x : List Move) : ((Upd.agenda x).apply s).cores = s.cores := rfl
@[simp] theorem Upd.apply_agenda_clusters (x : List Move) : ((Upd.agenda x).apply s).clusters = s.clusters := rfl
@[simp] theorem Upd.apply_agenda_parts (x : List Move) : ((Upd.agenda x).apply s).parts = s.parts := rfl
@[simp] theorem Upd.apply_agenda_groups (x : List Move) : ((Upd.agenda x).apply s).groups = s.groups := rfl
@[simp] theorem Upd.apply_agenda_streams (x : List Move) : ((Upd.agenda x).apply s).streams = s.streams := rfl
@[simp] theorem Upd.apply_agenda_blocks (x : List Move) : ((Upd.agenda x).apply s).blocks = s.blocks := rfl
@[simp] theorem Upd.apply_agenda_mail (x : List Move) : ((Upd.agenda x).apply s).mail = s.mail := rfl
@[simp] theorem Upd.apply_agenda_faults (x : List Move) : ((Upd.agenda x).apply s).faults = s.faults := rfl
@[simp] theorem Upd.apply_agenda_rounds (x : List Move) : ((Upd.agenda x).apply s).rounds = s.rounds := rfl
@[simp] theorem Upd.apply_agenda_trace (x : List Move) : ((Upd.agenda x).apply s).trace = s.trace := rfl
@[simp] theorem Upd.apply_agenda_ctrs (x : List Move) : ((Upd.agenda x).apply s).ctrs = s.ctrs := rfl
@[simp] theorem Upd.apply_agenda_bars (x : List Move) : ((Upd.agenda x).apply s).bars = s.bars := rfl
@[simp] theorem Upd.apply_agenda_coh (x : List Move) : ((Upd.agenda x).apply s).coh = s.coh := rfl
@[simp] theorem Upd.apply_agenda_hostVal (x : List Move) : ((Upd.agenda x).apply s).hostVal = s.hostVal := rfl
@[simp] theorem Upd.apply_agenda_turn (x : List Move) : ((Upd.agenda x).apply s).turn = s.turn := rfl

/-! ## `ticks` -/

@[simp] theorem Upd.apply_ticks_cur (x : List Tick) : ((Upd.ticks x).apply s).cur = s.cur := rfl
@[simp] theorem Upd.apply_ticks_subj (x : List Tick) : ((Upd.ticks x).apply s).subj = s.subj := rfl
@[simp] theorem Upd.apply_ticks_agenda (x : List Tick) : ((Upd.ticks x).apply s).agenda = s.agenda := rfl
@[simp] theorem Upd.apply_ticks_ticks (x : List Tick) : ((Upd.ticks x).apply s).ticks = x := rfl
@[simp] theorem Upd.apply_ticks_fresh (x : List Tick) : ((Upd.ticks x).apply s).fresh = s.fresh := rfl
@[simp] theorem Upd.apply_ticks_nextId (x : List Tick) : ((Upd.ticks x).apply s).nextId = s.nextId := rfl
@[simp] theorem Upd.apply_ticks_idn (x : List Tick) : ((Upd.ticks x).apply s).idn = s.idn := rfl
@[simp] theorem Upd.apply_ticks_clk (x : List Tick) : ((Upd.ticks x).apply s).clk = s.clk := rfl
@[simp] theorem Upd.apply_ticks_boot (x : List Tick) : ((Upd.ticks x).apply s).boot = s.boot := rfl
@[simp] theorem Upd.apply_ticks_mem (x : List Tick) : ((Upd.ticks x).apply s).mem = s.mem := rfl
@[simp] theorem Upd.apply_ticks_spad (x : List Tick) : ((Upd.ticks x).apply s).spad = s.spad := rfl
@[simp] theorem Upd.apply_ticks_cores (x : List Tick) : ((Upd.ticks x).apply s).cores = s.cores := rfl
@[simp] theorem Upd.apply_ticks_clusters (x : List Tick) : ((Upd.ticks x).apply s).clusters = s.clusters := rfl
@[simp] theorem Upd.apply_ticks_parts (x : List Tick) : ((Upd.ticks x).apply s).parts = s.parts := rfl
@[simp] theorem Upd.apply_ticks_groups (x : List Tick) : ((Upd.ticks x).apply s).groups = s.groups := rfl
@[simp] theorem Upd.apply_ticks_streams (x : List Tick) : ((Upd.ticks x).apply s).streams = s.streams := rfl
@[simp] theorem Upd.apply_ticks_blocks (x : List Tick) : ((Upd.ticks x).apply s).blocks = s.blocks := rfl
@[simp] theorem Upd.apply_ticks_mail (x : List Tick) : ((Upd.ticks x).apply s).mail = s.mail := rfl
@[simp] theorem Upd.apply_ticks_faults (x : List Tick) : ((Upd.ticks x).apply s).faults = s.faults := rfl
@[simp] theorem Upd.apply_ticks_rounds (x : List Tick) : ((Upd.ticks x).apply s).rounds = s.rounds := rfl
@[simp] theorem Upd.apply_ticks_trace (x : List Tick) : ((Upd.ticks x).apply s).trace = s.trace := rfl
@[simp] theorem Upd.apply_ticks_ctrs (x : List Tick) : ((Upd.ticks x).apply s).ctrs = s.ctrs := rfl
@[simp] theorem Upd.apply_ticks_bars (x : List Tick) : ((Upd.ticks x).apply s).bars = s.bars := rfl
@[simp] theorem Upd.apply_ticks_coh (x : List Tick) : ((Upd.ticks x).apply s).coh = s.coh := rfl
@[simp] theorem Upd.apply_ticks_hostVal (x : List Tick) : ((Upd.ticks x).apply s).hostVal = s.hostVal := rfl
@[simp] theorem Upd.apply_ticks_turn (x : List Tick) : ((Upd.ticks x).apply s).turn = s.turn := rfl

/-! ## `turn` -/

@[simp] theorem Upd.apply_turn_cur (x : Nat) : ((Upd.turn x).apply s).cur = s.cur := rfl
@[simp] theorem Upd.apply_turn_subj (x : Nat) : ((Upd.turn x).apply s).subj = s.subj := rfl
@[simp] theorem Upd.apply_turn_agenda (x : Nat) : ((Upd.turn x).apply s).agenda = s.agenda := rfl
@[simp] theorem Upd.apply_turn_ticks (x : Nat) : ((Upd.turn x).apply s).ticks = s.ticks := rfl
@[simp] theorem Upd.apply_turn_fresh (x : Nat) : ((Upd.turn x).apply s).fresh = s.fresh := rfl
@[simp] theorem Upd.apply_turn_nextId (x : Nat) : ((Upd.turn x).apply s).nextId = s.nextId := rfl
@[simp] theorem Upd.apply_turn_idn (x : Nat) : ((Upd.turn x).apply s).idn = s.idn := rfl
@[simp] theorem Upd.apply_turn_clk (x : Nat) : ((Upd.turn x).apply s).clk = s.clk := rfl
@[simp] theorem Upd.apply_turn_boot (x : Nat) : ((Upd.turn x).apply s).boot = s.boot := rfl
@[simp] theorem Upd.apply_turn_mem (x : Nat) : ((Upd.turn x).apply s).mem = s.mem := rfl
@[simp] theorem Upd.apply_turn_spad (x : Nat) : ((Upd.turn x).apply s).spad = s.spad := rfl
@[simp] theorem Upd.apply_turn_cores (x : Nat) : ((Upd.turn x).apply s).cores = s.cores := rfl
@[simp] theorem Upd.apply_turn_clusters (x : Nat) : ((Upd.turn x).apply s).clusters = s.clusters := rfl
@[simp] theorem Upd.apply_turn_parts (x : Nat) : ((Upd.turn x).apply s).parts = s.parts := rfl
@[simp] theorem Upd.apply_turn_groups (x : Nat) : ((Upd.turn x).apply s).groups = s.groups := rfl
@[simp] theorem Upd.apply_turn_streams (x : Nat) : ((Upd.turn x).apply s).streams = s.streams := rfl
@[simp] theorem Upd.apply_turn_blocks (x : Nat) : ((Upd.turn x).apply s).blocks = s.blocks := rfl
@[simp] theorem Upd.apply_turn_mail (x : Nat) : ((Upd.turn x).apply s).mail = s.mail := rfl
@[simp] theorem Upd.apply_turn_faults (x : Nat) : ((Upd.turn x).apply s).faults = s.faults := rfl
@[simp] theorem Upd.apply_turn_rounds (x : Nat) : ((Upd.turn x).apply s).rounds = s.rounds := rfl
@[simp] theorem Upd.apply_turn_trace (x : Nat) : ((Upd.turn x).apply s).trace = s.trace := rfl
@[simp] theorem Upd.apply_turn_ctrs (x : Nat) : ((Upd.turn x).apply s).ctrs = s.ctrs := rfl
@[simp] theorem Upd.apply_turn_bars (x : Nat) : ((Upd.turn x).apply s).bars = s.bars := rfl
@[simp] theorem Upd.apply_turn_coh (x : Nat) : ((Upd.turn x).apply s).coh = s.coh := rfl
@[simp] theorem Upd.apply_turn_hostVal (x : Nat) : ((Upd.turn x).apply s).hostVal = s.hostVal := rfl
@[simp] theorem Upd.apply_turn_turn (x : Nat) : ((Upd.turn x).apply s).turn = x := rfl

/-! ## `reset` -/

@[simp] theorem Upd.apply_reset_cur : (Upd.reset.apply s).cur = s.cur := rfl
@[simp] theorem Upd.apply_reset_subj : (Upd.reset.apply s).subj = s.subj := rfl
@[simp] theorem Upd.apply_reset_agenda : (Upd.reset.apply s).agenda = s.agenda := rfl
@[simp] theorem Upd.apply_reset_ticks : (Upd.reset.apply s).ticks = s.ticks := rfl
@[simp] theorem Upd.apply_reset_fresh : (Upd.reset.apply s).fresh = s.fresh := rfl
@[simp] theorem Upd.apply_reset_nextId : (Upd.reset.apply s).nextId = s.nextId := rfl
@[simp] theorem Upd.apply_reset_clk : (Upd.reset.apply s).clk = State.reset.clk := rfl
@[simp] theorem Upd.apply_reset_boot : (Upd.reset.apply s).boot = State.reset.boot := rfl
@[simp] theorem Upd.apply_reset_mem : (Upd.reset.apply s).mem = s.mem := rfl
@[simp] theorem Upd.apply_reset_spad : (Upd.reset.apply s).spad = State.reset.spad := rfl
@[simp] theorem Upd.apply_reset_cores : (Upd.reset.apply s).cores = State.reset.cores := rfl
@[simp] theorem Upd.apply_reset_clusters : (Upd.reset.apply s).clusters = State.reset.clusters := rfl
@[simp] theorem Upd.apply_reset_parts : (Upd.reset.apply s).parts = State.reset.parts := rfl
@[simp] theorem Upd.apply_reset_groups : (Upd.reset.apply s).groups = State.reset.groups := rfl
@[simp] theorem Upd.apply_reset_streams : (Upd.reset.apply s).streams = State.reset.streams := rfl
@[simp] theorem Upd.apply_reset_blocks : (Upd.reset.apply s).blocks = State.reset.blocks := rfl
@[simp] theorem Upd.apply_reset_mail : (Upd.reset.apply s).mail = State.reset.mail := rfl
@[simp] theorem Upd.apply_reset_faults : (Upd.reset.apply s).faults = State.reset.faults := rfl
@[simp] theorem Upd.apply_reset_rounds : (Upd.reset.apply s).rounds = State.reset.rounds := rfl
@[simp] theorem Upd.apply_reset_trace : (Upd.reset.apply s).trace = State.reset.trace := rfl
@[simp] theorem Upd.apply_reset_ctrs : (Upd.reset.apply s).ctrs = State.reset.ctrs := rfl
@[simp] theorem Upd.apply_reset_bars : (Upd.reset.apply s).bars = State.reset.bars := rfl
@[simp] theorem Upd.apply_reset_coh : (Upd.reset.apply s).coh = State.reset.coh := rfl
@[simp] theorem Upd.apply_reset_hostVal : (Upd.reset.apply s).hostVal = State.reset.hostVal := rfl
@[simp] theorem Upd.apply_reset_turn : (Upd.reset.apply s).turn = s.turn := rfl

/-! ## Lists of updates -/

@[simp] theorem applyAll_nil : applyAll [] s = s := rfl
@[simp] theorem applyAll_cons (u : Upd) (us : List Upd) : applyAll (u :: us) s = applyAll us (u.apply s) := rfl
@[simp] theorem applyAll_append (us vs : List Upd) : applyAll (us ++ vs) s = applyAll vs (applyAll us s) := by
  simp [applyAll, List.foldl_append]

/-- An operation, then another on the state it leaves. -/
@[simp] theorem applyAll_seq (f g : Eff) : applyAll (Eff.seq f g s) s = applyAll (g (applyAll (f s) s)) (applyAll (f s) s) := by
  simp [Eff.seq]

@[simp] theorem applyAll_nop : applyAll (Eff.nop s) s = s := rfl

@[simp] theorem applyAll_all_nil : applyAll (Eff.all [] s) s = s := rfl

@[simp] theorem applyAll_all_cons (f : Eff) (fs : List Eff) :
    applyAll (Eff.all (f :: fs) s) s = applyAll (Eff.all fs (applyAll (f s) s)) (applyAll (f s) s) := applyAll_seq s f (Eff.all fs)

@[simp] theorem applyAll_when_true (f : Eff) : applyAll (Eff.when true f s) s = applyAll (f s) s := rfl
@[simp] theorem applyAll_when_false (f : Eff) : applyAll (Eff.when false f s) s = s := rfl

/-- The outcome of an operation. -/
theorem commit_eq (f : Eff) : commit f s = .next (applyAll (f s) s) := rfl

/-- What every update of a list keeps, the list keeps. -/
theorem applyAll_induct {P : State → Prop} (us : List Upd) (h : ∀ u ∈ us, ∀ s, P s → P (u.apply s)) (hs : P s) : P (applyAll us s) := by
  induction us generalizing s with
  | nil => exact hs
  | cons u us ih =>
    exact ih (u.apply s) (fun v hv => h v (by simp [hv])) (h u (by simp) s hs)

/-! ## What updates keep -/

/-- The memories stay in their canonical form under every update. -/
theorem wf_apply (u : Upd) (h : Memory.wf s.mem = true ∧ Memory.wf s.spad = true) :
    Memory.wf (u.apply s).mem = true ∧ Memory.wf (u.apply s).spad = true := by
  cases u
  case reset => exact ⟨h.1, rfl⟩
  all_goals simp [h, wf_writeCells]

/-- PROF and ERRWIN stay under every update (R14, R16). -/
theorem fuses_apply (u : Upd) : (u.apply s).idn.prof = s.idn.prof ∧ (u.apply s).idn.errwin = s.idn.errwin := by
  cases u
  case ident r v => cases r <;> exact ⟨rfl, rfl⟩
  all_goals exact ⟨rfl, rfl⟩

end Sys2Proof.Machine
end

