-- ==== Sys2Proof/Laws/Frames.lean ====
section
/-! SUPPORT. What the shared operations leave unchanged, and how frames compose. -/

namespace Sys2Proof.Machine

/-! ## Agreement of states -/

theorem Same.refl (xs : List Comp) (s : State) : Same xs s s := by
  intro x _; cases x <;> rfl

theorem sameComp_trans {s t u : State} {x : Comp} (h : sameComp s t x) (k : sameComp t u x) : sameComp s u x := by
  cases x <;> exact Eq.trans k h

theorem Same.trans {xs : List Comp} {s t u : State} (h : Same xs s t) (k : Same xs t u) : Same xs s u :=
  fun x hx => sameComp_trans (h x hx) (k x hx)

theorem Same.mono {xs ys : List Comp} {s t : State} (h : Same xs s t) (hxy : ∀ x ∈ xs, x ∈ ys) : Same ys s t :=
  fun x hx => h x (fun hm => hx (hxy x hm))

/-! ## Operations that touch no agent -/

/-- An operation that changes only the parts listed, and no group or stream. -/
structure Framed (xs : List Comp) (f : Eff) : Prop where
  same    : ∀ s, Same xs s (applyAll (f s) s)
  groups  : ∀ s, (applyAll (f s) s).groups = s.groups
  streams : ∀ s, (applyAll (f s) s).streams = s.streams

theorem Framed.mono {xs ys : List Comp} {f : Eff} (h : Framed xs f) (hxy : ∀ x ∈ xs, x ∈ ys) : Framed ys f :=
  ⟨fun s => (h.same s).mono hxy, h.groups, h.streams⟩

theorem framed_nop (xs : List Comp) : Framed xs Eff.nop := ⟨fun s => Same.refl xs s, fun _ => rfl, fun _ => rfl⟩

theorem Framed.seq {xs : List Comp} {f g : Eff} (hf : Framed xs f) (hg : Framed xs g) : Framed xs (Eff.seq f g) := by
  refine ⟨fun s => ?_, fun s => ?_, fun s => ?_⟩
  · rw [applyAll_seq]; exact (hf.same s).trans (hg.same _)
  · rw [applyAll_seq, hg.groups, hf.groups]
  · rw [applyAll_seq, hg.streams, hf.streams]

theorem framed_all {xs : List Comp} (fs : List Eff) (h : ∀ f ∈ fs, Framed xs f) : Framed xs (Eff.all fs) := by
  induction fs with
  | nil => exact framed_nop xs
  | cons f fs ih => exact Framed.seq (h f (by simp)) (ih (fun g hg => h g (by simp [hg])))

theorem Framed.when {xs : List Comp} {f : Eff} (c : Bool) (h : Framed xs f) : Framed xs (Eff.when c f) := by
  cases c
  · exact framed_nop xs
  · exact h

theorem framed_forEach {α : Type} {xs : List Comp} (l : List α) (f : α → Eff) (h : ∀ a ∈ l, Framed xs (f a)) :
    Framed xs (Eff.forEach l f) := by
  apply framed_all
  intro g hg
  obtain ⟨a, ha, rfl⟩ := List.mem_map.mp hg
  exact h a ha

/-- An operation whose updates depend on the state, each choice with its frame. -/
theorem framed_of {xs : List Comp} {f : Eff} (h : ∀ s, ∃ g : Eff, f s = g s ∧ Framed xs g) : Framed xs f := by
  refine ⟨fun s => ?_, fun s => ?_, fun s => ?_⟩ <;> obtain ⟨g, hg, hf⟩ := h s <;> rw [hg]
  · exact hf.same s
  · exact hf.groups s
  · exact hf.streams s

/-! ## Single updates -/

theorem framed_cluster (f : State → Nat) (g : State → Cluster) : Framed [.clusters] (fun s => [.cluster (f s) (g s)]) := by
  refine ⟨fun s x hx => ?_, fun _ => rfl, fun _ => rfl⟩
  cases x <;> first | rfl | exact absurd (by simp) hx

theorem framed_trace (g : State → Trace) : Framed [.trace] (fun s => [.trace (g s)]) := by
  refine ⟨fun s x hx => ?_, fun _ => rfl, fun _ => rfl⟩
  cases x <;> first | rfl | exact absurd (by simp) hx

theorem framed_core (f : State → Nat) (g : State → Core) : Framed [.cores] (fun s => [.core (f s) (g s)]) := by
  refine ⟨fun s x hx => ?_, fun _ => rfl, fun _ => rfl⟩
  cases x <;> first | rfl | exact absurd (by simp) hx

theorem framed_block (f : State → Nat) (g : State → Block) : Framed [.blocks] (fun s => [.block (f s) (g s)]) := by
  refine ⟨fun s x hx => ?_, fun _ => rfl, fun _ => rfl⟩
  cases x <;> first | rfl | exact absurd (by simp) hx

theorem framed_mail (g : State → Mail) : Framed [.mail] (fun s => [.mail (g s)]) := by
  refine ⟨fun s x hx => ?_, fun _ => rfl, fun _ => rfl⟩
  cases x <;> first | rfl | exact absurd (by simp) hx

theorem framed_faults (g : State → FaultUnit) : Framed [.faults] (fun s => [.faults (g s)]) := by
  refine ⟨fun s x hx => ?_, fun _ => rfl, fun _ => rfl⟩
  cases x <;> first | rfl | exact absurd (by simp) hx

theorem framed_rounds (g : State → Rounds) : Framed [.rounds] (fun s => [.rounds (g s)]) := by
  refine ⟨fun s x hx => ?_, fun _ => rfl, fun _ => rfl⟩
  cases x <;> first | rfl | exact absurd (by simp) hx

theorem framed_coh (g : State → Coh) : Framed [.coh] (fun s => [.coh (g s)]) := by
  refine ⟨fun s x hx => ?_, fun _ => rfl, fun _ => rfl⟩
  cases x <;> first | rfl | exact absurd (by simp) hx

theorem framed_bar (f : State → Nat) (g : State → Bar) : Framed [.bars] (fun s => [.bar (f s) (g s)]) := by
  refine ⟨fun s x hx => ?_, fun _ => rfl, fun _ => rfl⟩
  cases x <;> first | rfl | exact absurd (by simp) hx

theorem framed_mem (g : State → List Host.Cell) : Framed [.mem] (fun s => [.mem (g s)]) := by
  refine ⟨fun s x hx => ?_, fun _ => rfl, fun _ => rfl⟩
  cases x <;> first | rfl | exact absurd (by simp) hx

theorem framed_ident (r : IdReg) (g : State → DWord) : Framed [.idn] (fun s => [.ident r (g s)]) := by
  refine ⟨fun s x hx => ?_, fun _ => rfl, fun _ => rfl⟩
  cases x <;> first | rfl | exact absurd (by simp) hx

theorem framed_clk (g : State → Clock) : Framed [.clk] (fun s => [.clk (g s)]) := by
  refine ⟨fun s x hx => ?_, fun _ => rfl, fun _ => rfl⟩
  cases x <;> first | rfl | exact absurd (by simp) hx

theorem framed_sets (g : State → Counters) : Framed [.sets] (fun s => [.ctrs (g s)]) := by
  refine ⟨fun s x hx => ?_, fun _ => rfl, fun _ => rfl⟩
  cases x <;> first | rfl | exact absurd (by simp) hx

theorem framed_fresh (g : State → Nat) : Framed [] (fun s => [.fresh (g s)]) := by
  refine ⟨fun s x hx => ?_, fun _ => rfl, fun _ => rfl⟩
  cases x <;> rfl

theorem framed_nextId (g : State → Nat) : Framed [] (fun s => [.nextId (g s)]) := by
  refine ⟨fun s x hx => ?_, fun _ => rfl, fun _ => rfl⟩
  cases x <;> rfl

theorem framed_part (f : State → Nat) (g : State → Part) : Framed [] (fun s => [.part (f s) (g s)]) := by
  refine ⟨fun s x hx => ?_, fun _ => rfl, fun _ => rfl⟩
  cases x <;> rfl

/-! ## Shared operations -/

/-- An event counted changes no counter yet (R413). -/
theorem framed_count (frank ev n : Nat) : Framed [] (count frank ev n) := by
  unfold count
  by_cases hn : n = 0
  · simp only [hn, if_true]; exact framed_nop []
  · simp only [hn, if_false]
    refine ⟨fun s x hx => ?_, fun _ => rfl, fun _ => rfl⟩
    cases x <;> rfl

theorem framed_pushCard (cl : Nat) (k : BufCard) : Framed [.clusters] (pushCard cl k) := by
  unfold pushCard
  cases k.who.isEmpty
  · exact framed_cluster _ _
  · exact framed_nop _

theorem framed_bumpSeq (src : Nat) : Framed [.trace] (bumpSeq src) := framed_trace _

theorem framed_dropAll (ns : List Nat) (frank : Session → Nat) : Framed [.trace] (dropAll ns frank) := by
  apply framed_of
  intro s
  unfold dropAll
  refine ⟨_, rfl, Framed.seq ?_ (framed_forEach _ (fun f => count f 18 1) (fun _ _ => (framed_count _ _ _).mono (by simp)))⟩
  cases ns.isEmpty
  · exact framed_trace _
  · exact framed_nop _

/-- A card put into a buffer changes only the trace unit and that buffer. -/
theorem framed_putCard (cl src : Nat) (card : Card) (keep lost : List Nat) (frank : Session → Nat) :
    Framed [.trace, .clusters] (putCard cl src card keep lost frank) :=
  framed_all _ (by
    intro f hf
    simp only [List.mem_cons, List.not_mem_nil, or_false] at hf
    rcases hf with rfl | rfl | rfl
    · exact (framed_bumpSeq _).mono (by simp)
    · exact (framed_dropAll _ _).mono (by simp)
    · exact (framed_pushCard _ _).mono (by simp))

theorem framed_stallCard (cl event cycles : Nat) : Framed [.trace, .clusters] (stallCard cl event cycles) := by
  apply framed_of
  intro s
  unfold stallCard
  dsimp only
  split
  · exact ⟨Eff.nop, rfl, framed_nop _⟩
  · exact ⟨_, rfl, framed_putCard _ _ _ _ _ _⟩

theorem framed_checkHigh (cl : Nat) : Framed [.trace, .clusters] (checkHigh cl) := by
  apply framed_of
  intro s
  unfold checkHigh
  dsimp only
  split
  · exact ⟨_, rfl, Framed.seq ((framed_cluster _ _).mono (by simp)) (framed_stallCard _ _ _)⟩
  · exact ⟨Eff.nop, rfl, framed_nop _⟩

/-- A card emitted changes only the trace unit and a trace buffer. -/
theorem framed_emit (src : Src387) (ty lane slot frank : Nat) (p0 p1 : DWord) :
    Framed [.trace, .clusters] (emit src ty lane slot frank p0 p1) := by
  apply framed_of
  intro s
  unfold emit
  dsimp only
  split
  · exact ⟨Eff.nop, rfl, framed_nop _⟩
  · exact ⟨_, rfl, Framed.seq (framed_putCard _ _ _ _ _ _) (framed_checkHigh _)⟩

/-! ## Homes -/

/-- What a write at a home may change: memory, what the homes keep, the cores' copies. -/
abbrev homeParts : List Comp := [.mem, .coh, .cores]

theorem framed_cores (g : State → List Upd) (h : ∀ s, ∀ u ∈ g s, ∃ n c, u = .core n c) : Framed [.cores] g := by
  have key : ∀ (l : List Upd), (∀ u ∈ l, ∃ n c, u = .core n c) → ∀ s, Same [.cores] s (applyAll l s) ∧
      (applyAll l s).groups = s.groups ∧ (applyAll l s).streams = s.streams := by
    intro l
    induction l with
    | nil => exact fun _ s => ⟨Same.refl _ s, rfl, rfl⟩
    | cons u l ih =>
      intro hl s
      obtain ⟨n, c, rfl⟩ := hl u (by simp)
      obtain ⟨h1, h2, h3⟩ := ih (fun v hv => hl v (by simp [hv])) ((Upd.core n c).apply s)
      refine ⟨Same.trans ?_ h1, h2, h3⟩
      intro x hx
      cases x <;> first | rfl | exact absurd (by simp) hx
  exact ⟨fun s => (key _ (h s) s).1, fun s => (key _ (h s) s).2.1, fun s => (key _ (h s) s).2.2⟩

theorem framed_writeMem (cs : List Host.Cell) : Framed homeParts (writeMem cs) := by
  apply framed_of
  intro s
  unfold writeMem
  dsimp only
  split
  · exact ⟨fun _ => [.mem cs], rfl, (framed_mem _).mono (by simp)⟩
  · exact ⟨Eff.seq (fun _ => [.mem cs]) (fun _ => [.coh _]), rfl,
      Framed.seq ((framed_mem _).mono (by simp)) ((framed_coh _).mono (by simp))⟩

/-- Every cached copy of some lines gone: only the cores and what the homes keep change. -/
theorem framed_invalLines (ls : List Nat) : Framed homeParts (invalLines ls) := by
  apply framed_of
  intro s
  unfold invalLines
  refine ⟨_, rfl, Framed.seq ((framed_cores _ ?_).mono (ys := homeParts) (by simp)) ((framed_coh _).mono (by simp))⟩
  intro s u hu
  obtain ⟨e, -, hu⟩ := List.mem_flatMap.mp hu
  split at hu
  · exact ⟨_, _, List.mem_singleton.mp hu⟩
  · cases hu

theorem framed_dropLines (ls : List Nat) : Framed homeParts (dropLines ls) :=
  Framed.seq (framed_invalLines ls) ((framed_coh _).mono (by simp))

/-- A home that may take a poisoned copy's mark changes only what the homes keep. -/
theorem framed_markHome (line : Nat) (bad : Bool) : Framed homeParts (markHome line bad) := by
  apply framed_of
  intro s
  unfold markHome
  split
  · exact ⟨fun _ => [.coh _], rfl, (framed_coh _).mono (by simp)⟩
  · exact ⟨Eff.nop, rfl, framed_nop _⟩

theorem framed_mergeLine (line : Nat) : Framed homeParts (mergeLine line) := by
  apply framed_of
  intro s
  unfold mergeLine
  dsimp only
  split
  · exact ⟨Eff.nop, rfl, framed_nop _⟩
  · exact ⟨_, rfl, Framed.seq (Framed.seq (framed_writeMem _) ((framed_coh _).mono (by simp)))
      (framed_all _ (by
        intro f hf
        simp only [List.mem_cons, List.not_mem_nil, or_false] at hf
        rcases hf with rfl | rfl | rfl
        · exact framed_markHome _ _
        · exact framed_dropLines _
        · exact framed_forEach _ _ (fun _ _ => (framed_count _ _ _).mono (by simp))))⟩

theorem framed_performCells (cs : List Host.Cell) : Framed homeParts (performCells cs) := by
  refine framed_all _ ?_
  intro f hf
  simp only [List.mem_cons, List.not_mem_nil, or_false] at hf
  rcases hf with rfl | rfl | rfl
  · exact framed_writeMem _
  · apply framed_of
    intro s
    unfold clearPoison
    split
    · exact ⟨fun _ => [.coh _], rfl, (framed_coh _).mono (by simp)⟩
    · exact ⟨Eff.nop, rfl, framed_nop _⟩
  · apply framed_of
    intro s
    unfold fireWatches
    split
    · exact ⟨fun _ => [.coh _], rfl, (framed_coh _).mono (by simp)⟩
    · exact ⟨Eff.nop, rfl, framed_nop _⟩

/-- The other cores' NC copies dropped. -/
theorem framed_dropNc (core : Nat) (ls : List Nat) : Framed homeParts (dropNc core ls) := by
  refine (framed_cores _ ?_).mono (by simp)
  intro s u hu
  obtain ⟨e, -, hu⟩ := List.mem_flatMap.mp hu
  split at hu
  · exact ⟨_, _, List.mem_singleton.mp hu⟩
  · cases hu

/-- A write that arrives at its home performs or waits there: no other part of the state changes. -/
theorem framed_queueWrite (core uid frank cost line : Nat) (cs : List Host.Cell) :
    Framed homeParts (queueWrite core uid frank cost line cs) := by
  apply framed_of
  intro s
  unfold queueWrite
  dsimp only
  split
  · refine ⟨_, rfl, framed_all _ ?_⟩
    intro f hf
    simp only [List.mem_cons, List.not_mem_nil, or_false] at hf
    rcases hf with rfl | rfl | rfl
    · exact framed_performCells _
    · exact (framed_dropNc _ _).when _
    · exact (framed_count _ _ _).mono (by simp)
  · exact ⟨Eff.seq (fun _ => [.coh _]) (fun _ => [.nextId (s.nextId + 1)]), rfl,
      Framed.seq ((framed_coh _).mono (by simp)) ((framed_nextId _).mono (by simp))⟩

theorem framed_unitCells (frank : Nat) (cs : List Host.Cell) : Framed homeParts (unitCells frank cs) :=
  framed_forEach _ _ (fun _ _ => Framed.seq (framed_mergeLine _) (framed_queueWrite _ _ _ _ _ _))

/-- A host event writes at most its event word, at the word's home (R439). -/
theorem framed_hostEvent (kind : Nat) : Framed homeParts (hostEvent kind) := by
  apply framed_of
  intro s
  unfold hostEvent
  split
  · exact ⟨Eff.nop, rfl, framed_nop _⟩
  · exact ⟨_, rfl, Framed.seq (framed_mergeLine _) (framed_of (fun s => ⟨_, rfl, framed_unitCells _ _⟩))⟩

/-- The USPLIT card of a word, if it has one (R106). -/
theorem same_splitCard (c : Ctx) (s : State) : Same (cardParts c s) s (applyAll (splitCard c (usplit c s) s) s) := by
  unfold splitCard cardParts
  cases usplit c s with
  | none => exact Same.refl _ s
  | some a => exact (framed_emit _ _ _ _ _ _ _).same s

theorem groups_splitCard (c : Ctx) (o : Option DWord) (s : State) : (applyAll (splitCard c o s) s).groups = s.groups := by
  cases o with
  | none => rfl
  | some a => exact (framed_emit _ _ _ _ _ _ _).groups s

theorem streams_splitCard (c : Ctx) (o : Option DWord) (s : State) : (applyAll (splitCard c o s) s).streams = s.streams := by
  cases o with
  | none => rfl
  | some a => exact (framed_emit _ _ _ _ _ _ _).streams s

theorem framed_issueCount (c : Ctx) (d : Done) : Framed [] (issueCount c d) := by
  unfold issueCount
  cases isUniform c.i
  · exact framed_count _ _ _
  · exact Framed.when _ (framed_count _ _ _)

end Sys2Proof.Machine
end

