-- ==== Sys2Proof/Laws/Regs.lean ====
section
/-! SUPPORT. What register files read as after a write, and what each kind of result leaves. -/

namespace Sys2Proof.Machine

/-! ## Lane masks -/

theorem mem_lanesOf (m : Word) (l : Nat) : l ∈ lanesOf m ↔ l < 32 ∧ inMask m l = true := by
  simp [lanesOf]

theorem nodup_lanesOf (m : Word) : (lanesOf m).Nodup := List.Nodup.filter _ List.nodup_range

/-- A mask made from a test holds the lanes that pass it. -/
theorem inMask_maskOf (f : Nat → Bool) (l : Nat) (h : l < 32) : inMask (maskOf f) l = f l := by
  have key : ∀ (ls : List Nat) (a : Word), (∀ x ∈ ls, x < 32) →
      inMask (ls.foldl (fun (a : Word) l => if f l then a ||| ((1 : Word) <<< l) else a) a) l = (inMask a l || (decide (l ∈ ls) && f l)) := by
    intro ls
    induction ls with
    | nil => simp
    | cons x xs ih =>
      intro a hx
      rw [List.foldl_cons, ih _ (fun y hy => hx y (by simp [hy]))]
      have hx32 : x < 32 := hx x (by simp)
      have hone : ((1 : Word) <<< x).getLsbD l = decide (l = x) := by
        rw [BitVec.getLsbD_shiftLeft]
        by_cases hlx : l = x
        · subst hlx; simp [h]
        · by_cases hlt : l < x
          · simp [hlx, hlt]
          · have : l - x ≠ 0 := by omega
            simp [hlx, this]
      by_cases hf : f x = true
      · simp only [hf, if_true, inMask, BitVec.getLsbD_or, hone, List.mem_cons, Bool.decide_or]
        by_cases hlx : l = x
        · subst hlx; simp [hf]
        · simp [hlx]
      · simp only [hf, List.mem_cons, Bool.decide_or]
        by_cases hlx : l = x
        · subst hlx; simp [hf]
        · simp [hlx]
  have := key (List.range 32) 0 (by simp)
  simpa [maskOf, inMask, h] using this

/-! ## Element reads after element writes -/

theorem getV_setV (f : LFile) (r l r' l' : Nat) (v : Word) (h : l < 32) (h' : l' < 32) :
    getV (setV f r l v) r' l' = if r' = r ∧ l' = l then v else getV f r' l' := by
  simp only [getV, setV, mget_mset]
  have : (32 * r' + l' = 32 * r + l) ↔ (r' = r ∧ l' = l) := by omega
  simp only [this]

theorem getQ_setQ (f : LFile) (r l r' l' : Nat) (v : Word) (h : l < 32) (h' : l' < 32) :
    getQ (setQ f r l v) r' l' = if r' = r ∧ l' = l then v else getQ f r' l' := by
  simp only [getQ, setQ, mget_mset]
  have : (32 * r' + l' = 32 * r + l) ↔ (r' = r ∧ l' = l) := by omega
  simp only [this]

theorem getY_setY (f : LFile) (r l r' l' : Nat) (v : DWord) (h : l < 32) (h' : l' < 32) :
    getY (setY f r l v) r' l' = if r' = r ∧ l' = l then v else getY f r' l' := by
  simp only [getY, setY, mget_mset]
  have : (32 * r' + l' = 32 * r + l) ↔ (r' = r ∧ l' = l) := by omega
  simp only [this]

@[simp] theorem getQ_setV (f : LFile) (r l r' l' : Nat) (v : Word) : getQ (setV f r l v) r' l' = getQ f r' l' := rfl
@[simp] theorem getY_setV (f : LFile) (r l r' l' : Nat) (v : Word) : getY (setV f r l v) r' l' = getY f r' l' := rfl
@[simp] theorem getP_setV (f : LFile) (r l n : Nat) (v : Word) : getP (setV f r l v) n = getP f n := rfl
@[simp] theorem getV_setQ (f : LFile) (r l r' l' : Nat) (v : Word) : getV (setQ f r l v) r' l' = getV f r' l' := rfl
@[simp] theorem getY_setQ (f : LFile) (r l r' l' : Nat) (v : Word) : getY (setQ f r l v) r' l' = getY f r' l' := rfl
@[simp] theorem getP_setQ (f : LFile) (r l n : Nat) (v : Word) : getP (setQ f r l v) n = getP f n := rfl
@[simp] theorem getV_setY (f : LFile) (r l r' l' : Nat) (v : DWord) : getV (setY f r l v) r' l' = getV f r' l' := rfl
@[simp] theorem getQ_setY (f : LFile) (r l r' l' : Nat) (v : DWord) : getQ (setY f r l v) r' l' = getQ f r' l' := rfl
@[simp] theorem getP_setY (f : LFile) (r l n : Nat) (v : DWord) : getP (setY f r l v) n = getP f n := rfl
@[simp] theorem getV_setP (f : LFile) (n r l : Nat) (v : Word) : getV (setP f n v) r l = getV f r l := rfl
@[simp] theorem getQ_setP (f : LFile) (n r l : Nat) (v : Word) : getQ (setP f n v) r l = getQ f r l := rfl
@[simp] theorem getY_setP (f : LFile) (n r l : Nat) (v : Word) : getY (setP f n v) r l = getY f r l := rfl

theorem getP_setP (f : LFile) (n k : Nat) (v : Word) (h : n ≠ 7) :
    getP (setP f n v) k = if k = n then v else getP f k := by
  by_cases hk : k = 7
  · subst hk; simp [getP, Ne.symm h]
  · simp [getP, setP, mget_mset, hk]

theorem getK_setK (u : UFile) (n k : Nat) (v : DWord) : getK (setK u n v) k = if k = n then v else getK u k := by
  simp [getK, setK, mget_mset]

theorem getKp_setKp (u : UFile) (n k : Nat) (v : Bool) (h : n ≠ 7) :
    getKp (setKp u n v) k = if k = n then v else getKp u k := by
  by_cases hk : k = 7
  · subst hk; simp [getKp, Ne.symm h]
  · simp [getKp, setKp, mget_mset, hk]

theorem getLc_setLcRaw (u : UFile) (n k : Nat) (v : Word) : getLc (setLcRaw u n v) k = if k = n then v else getLc u k := by
  simp [getLc, setLcRaw, mget_mset]

theorem getKc_setKc (u : UFile) (n k : Nat) (v : DWord) : getKc (setKc u n v) k = if k = n then v else getKc u k := by
  simp [getKc, setKc, mget_mset]

theorem getKst_setKst (u : UFile) (n k : Nat) (v : DWord) : getKst (setKst u n v) k = if k = n then v else getKst u k := by
  simp [getKst, setKst, mget_mset]

theorem getKf_setKf (u : UFile) (n k : Nat) (v : DWord) : getKf (setKf u n v) k = if k = n then v else getKf u k := by
  simp [getKf, setKf, mget_mset]

/-! ## Results -/

/-- One lane's result: what each row of the v file reads in that lane and in the others. -/
theorem getV_putLane (t : Ty) (d : Dst) (y : Bool) (a x : Nat) (r : Regs) (n l : Nat) (ha : a < 32) (hl : l < 32) :
    getV (putLane t d y a x r).l n l =
      match vHalf t d n with
      | some h => if l = a then halfOf x h else getV r.l n l
      | none => getV r.l n l := by
  cases d with
  | v k =>
    cases hy : y <;> cases h64 : tyIs64 t <;>
      simp only [putLane, vHalf, h64, if_true, Bool.false_eq_true, if_false, getV_setY, getV_setV _ _ _ _ _ _ ha hl,
        true_and, false_and] <;>
      by_cases h1 : n = k.val <;> by_cases h2 : n = k.val + 1 <;> by_cases h3 : l = a <;>
      simp [h1, h2, h3, halfOf]
  | q k =>
    cases hy : y <;> cases h64 : tyIs64 t <;> simp [putLane, vHalf, h64]

theorem getQ_putLane (t : Ty) (d : Dst) (y : Bool) (a x : Nat) (r : Regs) (n l : Nat) (ha : a < 32) (hl : l < 32) :
    getQ (putLane t d y a x r).l n l =
      match qHalf t d n with
      | some h => if l = a then halfOf x h else getQ r.l n l
      | none => getQ r.l n l := by
  cases d with
  | q k =>
    cases hy : y <;> cases h64 : tyIs64 t <;>
      simp only [putLane, qHalf, h64, if_true, Bool.false_eq_true, if_false, getQ_setY, getQ_setQ _ _ _ _ _ _ ha hl,
        true_and, false_and] <;>
      by_cases h1 : n = k.val <;> by_cases h2 : n = k.val + 1 <;> by_cases h3 : l = a <;>
      simp [h1, h2, h3, halfOf]
  | v k =>
    cases hy : y <;> cases h64 : tyIs64 t <;> simp [putLane, qHalf, h64]

theorem getY_putLane (t : Ty) (d : Dst) (y : Bool) (a x : Nat) (r : Regs) (j l : Nat) (hj : j < 4) (ha : a < 32) (hl : l < 32) :
    getY (putLane t d y a x r).l j l =
      if y = true ∧ l = a then
        (if j = 0 then BitVec.ofNat 64 (if tyIs64 t then x else x % 2 ^ 32) else getY r.l (j - 1) l)
      else getY r.l j l := by
  have hcases : j = 0 ∨ j = 1 ∨ j = 2 ∨ j = 3 := by omega
  cases hy : y
  · cases d <;> cases h64 : tyIs64 t <;> simp [putLane, h64]
  · by_cases hla : l = a
    · subst hla
      cases d <;> cases h64 : tyIs64 t <;> rcases hcases with rfl | rfl | rfl | rfl <;>
        simp [putLane, h64, getY_setY _ _ _ _ _ _ hl hl]
    · cases d <;> cases h64 : tyIs64 t <;> simp [putLane, h64, getY_setY _ _ _ _ _ _ ha hl, hla]

theorem getP_putLane (t : Ty) (d : Dst) (y : Bool) (a x : Nat) (r : Regs) (n : Nat) :
    getP (putLane t d y a x r).l n = getP r.l n := by
  cases d <;> cases hy : y <;> cases h64 : tyIs64 t <;> simp [putLane, h64]

theorem u_putLane (t : Ty) (d : Dst) (y : Bool) (a x : Nat) (r : Regs) : (putLane t d y a x r).u = r.u := rfl

/-- Results for the lanes of a mask. -/
theorem laneWritten_putLanes (t : Ty) (d : Dst) (y : Bool) (m : Word) (f : Nat → Nat) (r : Regs) :
    LaneWritten t d y m f r (putLanes t d y m f r) := by
  have key : ∀ (ls : List Nat) (r : Regs), ls.Nodup → (∀ x ∈ ls, x < 32) →
      let r' := ls.foldl (fun r l => putLane t d y l (f l) r) r
      (∀ n l, l < 32 → getV r'.l n l = match vHalf t d n with
        | some h => if l ∈ ls then halfOf (f l) h else getV r.l n l
        | none => getV r.l n l) ∧
      (∀ n l, l < 32 → getQ r'.l n l = match qHalf t d n with
        | some h => if l ∈ ls then halfOf (f l) h else getQ r.l n l
        | none => getQ r.l n l) ∧
      (∀ j l, j < 4 → l < 32 → getY r'.l j l = if y = true ∧ l ∈ ls then
          (if j = 0 then BitVec.ofNat 64 (if tyIs64 t then f l else f l % 2 ^ 32) else getY r.l (j - 1) l)
        else getY r.l j l) ∧
      (∀ n, getP r'.l n = getP r.l n) ∧ r'.u = r.u := by
    intro ls
    induction ls with
    | nil =>
      intro r _ _
      refine ⟨?_, ?_, ?_, ?_, rfl⟩
      · intro n l _; cases vHalf t d n <;> simp
      · intro n l _; cases qHalf t d n <;> simp
      · intro j l _ _; simp
      · intro n; rfl
    | cons a as ih =>
      intro r hnd hlt
      have hnd' := List.nodup_cons.mp hnd
      have ha : a < 32 := hlt a (by simp)
      obtain ⟨h1, h2, h3, h4, h5⟩ := ih (putLane t d y a (f a) r) hnd'.2 (fun x hx => hlt x (by simp [hx]))
      refine ⟨?_, ?_, ?_, ?_, ?_⟩
      · intro n l hl
        rw [List.foldl_cons, h1 n l hl, getV_putLane _ _ _ _ _ _ _ _ ha hl]
        cases vHalf t d n with
        | none => rfl
        | some h =>
          by_cases hla : l = a
          · subst hla; simp [hnd'.1]
          · simp [hla]
      · intro n l hl
        rw [List.foldl_cons, h2 n l hl, getQ_putLane _ _ _ _ _ _ _ _ ha hl]
        cases qHalf t d n with
        | none => rfl
        | some h =>
          by_cases hla : l = a
          · subst hla; simp [hnd'.1]
          · simp [hla]
      · intro j l hj hl
        rw [List.foldl_cons, h3 j l hj hl, getY_putLane _ _ _ _ _ _ _ _ hj ha hl]
        by_cases hla : l = a
        · subst hla; simp [hnd'.1]
        · by_cases hj0 : j = 0
          · subst hj0; simp [hla]
          · rw [getY_putLane _ _ _ _ _ _ (j - 1) _ (by omega) ha hl]
            simp [hla]
      · intro n; rw [List.foldl_cons, h4 n, getP_putLane]
      · rw [List.foldl_cons, h5, u_putLane]
  obtain ⟨h1, h2, h3, h4, h5⟩ := key (lanesOf m) r (nodup_lanesOf m) (fun x hx => ((mem_lanesOf m x).mp hx).1)
  refine ⟨?_, ?_, ?_, h4, h5⟩
  · intro n l hl
    have := h1 n l hl
    cases hv : vHalf t d n <;> simpa [putLanes, mem_lanesOf, hl, hv] using this
  · intro n l hl
    have := h2 n l hl
    cases hv : qHalf t d n <;> simpa [putLanes, mem_lanesOf, hl, hv] using this
  · intro j l hj hl
    have := h3 j l hj hl
    simpa [putLanes, mem_lanesOf, hl] using this

/-- A predicate result. -/
theorem predWritten_putPred (n : Nat) (m : Word) (f : Nat → Bool) (r : Regs) : PredWritten n m f r (putPred n m f r) := by
  by_cases h7 : n = 7
  · subst h7
    exact ⟨fun _ _ h => absurd rfl h, fun _ _ => rfl, fun _ _ => rfl, fun _ _ => rfl, fun _ _ => rfl, rfl⟩
  · have hb : (n == 7) = false := by simpa using h7
    refine ⟨?_, ?_, ?_, ?_, ?_, ?_⟩
    · intro l hl _
      simp only [putPred, hb, Bool.false_eq_true, if_false, getP_setP _ _ _ _ h7, if_true, inMask_maskOf _ _ hl]
    · intro k hk
      have : k ≠ n := by rcases hk with h | h <;> [exact h; exact absurd h h7]
      simp [putPred, hb, getP_setP _ _ _ _ h7, this]
    all_goals intros; simp [putPred, hb]

/-- A uniform result. -/
theorem kWritten_putU (d : UFld) (v : Nat) (r : Regs) : KWritten d v r (putU d v r) := by
  cases d with
  | k m =>
    refine ⟨?_, ⟨rfl, rfl, rfl, rfl, rfl, rfl⟩, rfl⟩
    intro n
    simp [putU, putK, getK_setK]
  | _ => exact ⟨fun _ => rfl, ⟨rfl, rfl, rfl, rfl, rfl, rfl⟩, rfl⟩

end Sys2Proof.Machine
end

