-- ==== Sys2Proof/Laws/Ops.lean ====
section
/-! SUPPORT. What issuing a word comes to: one lemma for each way its body answers, and what completion leaves. -/

namespace Sys2Proof.Machine

/-! ## The issuer -/

theorem ctxOf_i {i : Instr} {iss : Issue} {s : State} {c : Ctx} (h : ctxOf i iss s = some c) : c.i = i := by
  unfold ctxOf at h
  dsimp only at h
  repeat' split at h
  all_goals cases h
  all_goals rfl

/-- A group's context shows the group as the state holds it. -/
theorem ctxOf_group {i : Instr} {iss : Issue} {s : State} {c : Ctx} (h : ctxOf i iss s = some c) (hc : c.strm = false) :
    ∃ g, mfind s.groups c.key = some g ∧ g.uid = c.uid ∧ g.u = c.u ∧ g.live = c.live ∧ g.sq = c.sq ∧ g.blk = c.blkId := by
  unfold ctxOf at h
  dsimp only at h
  repeat' split at h
  all_goals cases h
  all_goals first
    | exact ⟨_, ‹_›, rfl, rfl, rfl, rfl, rfl⟩
    | cases hc

/-- A stream's context shows the stream as the state holds it. -/
theorem ctxOf_stream {i : Instr} {iss : Issue} {s : State} {c : Ctx} (h : ctxOf i iss s = some c) (hc : c.strm = true) :
    ∃ t, mfind s.streams c.key = some t ∧ t.blk = c.blkId ∧ t.u = c.u := by
  unfold ctxOf at h
  dsimp only at h
  repeat' split at h
  all_goals cases h
  all_goals first
    | exact ⟨_, ‹_›, rfl, rfl⟩
    | cases hc

theorem ctxHere_iss {i : Instr} {s : State} {c : Ctx} (h : ctxHere i s = some c) : ∃ iss, s.cur = some iss ∧ ctxOf i iss s = some c := by
  unfold ctxHere at h
  cases hc : s.cur with
  | none => simp [hc] at h
  | some iss => exact ⟨iss, rfl, by simpa [hc] using h⟩

/-- With an issuer the meaning of a word is its issue. -/
theorem issueP_eq {i : Instr} {prof : Ctx → State → Bool} {body : Ctx → State → Res} {s : State} {c : Ctx}
    (h : ctxHere i s = some c) : issueP i prof body s = commit (issueEff c prof body) s := by
  obtain ⟨iss, h1, h2⟩ := ctxHere_iss h
  simp [issueP, h1, h2]

/-! ## The checks of R51 -/

theorem preCheck_none {i : Instr} {prof : Ctx → State → Bool} {s : State} {c : Ctx} (h : Issues i prof s c) : preCheck c prof s = none := by
  obtain ⟨iss, _, h2⟩ := ctxHere_iss h.1
  have hi := ctxOf_i h2
  have hp := h.2
  simp only [passes, Bool.and_eq_true, Bool.not_eq_true', Bool.or_eq_true, Option.isNone_iff_eq_none] at hp
  obtain ⟨⟨⟨⟨h1, h3⟩, h4⟩, h5⟩, _⟩ := hp
  unfold preCheck
  rw [hi, h1, h5]
  rcases h3 with h3 | h3 <;> rcases h4 with h4 | h4 <;> simp [h3, h4]

theorem split_room {i : Instr} {prof : Ctx → State → Bool} {s : State} {c : Ctx} (h : Issues i prof s c) :
    ((usplit c s).isSome && mustStall s (coreSrc c.core c.part 0) 3 c.frank) = false := by
  have hp := h.2
  simp only [passes, Bool.and_eq_true, Bool.or_eq_true] at hp
  rcases hp.2 with h1 | h1
  · cases hu : usplit c s <;> simp_all
  · simp_all

/-- A body that completes. -/
theorem issue_done {i : Instr} {prof : Ctx → State → Bool} {body : Ctx → State → Res} {s : State} {c : Ctx} {d : Done}
    (h : Issues i prof s c) (hb : body c s = .done d) :
    issueP i prof body s = .next (applyAll (finish c d (applyAll (splitCard c (usplit c s) s) s)) (applyAll (splitCard c (usplit c s) s) s)) := by
  rw [issueP_eq h.1, commit_eq]
  simp only [issueEff, preCheck_none h, split_room h, hb, Bool.false_eq_true, if_false, applyAll_seq]

/-- A body that parks to wait: the word has issued, with its USPLIT card (R101, R106, R411). -/
theorem issue_park {i : Instr} {prof : Ctx → State → Bool} {body : Ctx → State → Res} {s : State} {c : Ctx} {k : WaitKind} {eff : Eff}
    (h : Issues i prof s c) (hk : ∀ y, k ≠ .retry y) (hb : body c s = .park k eff) :
    issueP i prof body s = .next (applyAll (Eff.all [splitCard c (usplit c s), eff, parkAt c k] s) s) := by
  rw [issueP_eq h.1, commit_eq]
  cases k <;> first
    | exact absurd rfl (hk _)
    | simp only [issueEff, preCheck_none h, split_room h, hb, Bool.false_eq_true, if_false]

/-- A body that cannot issue yet parks and issues again. -/
theorem issue_retry {i : Instr} {prof : Ctx → State → Bool} {body : Ctx → State → Res} {s : State} {c : Ctx} {y : Why} {eff : Eff}
    (h : Issues i prof s c) (hb : body c s = .park (.retry y) eff) :
    issueP i prof body s = .next (applyAll (Eff.seq eff (parkAt c (.retry y)) s) s) := by
  rw [issueP_eq h.1, commit_eq]
  simp only [issueEff, preCheck_none h, split_room h, hb, Bool.false_eq_true, if_false]

/-- A body whose agent is gone, or that issues nothing. -/
theorem issue_over {i : Instr} {prof : Ctx → State → Bool} {body : Ctx → State → Res} {s : State} {c : Ctx} {eff : Eff}
    (h : Issues i prof s c) (hb : body c s = .over eff) : issueP i prof body s = .next (applyAll (eff s) s) := by
  rw [issueP_eq h.1, commit_eq]
  simp only [issueEff, preCheck_none h, split_room h, hb, Bool.false_eq_true, if_false]

/-- A body that traps takes its trap. -/
theorem issue_trap {i : Instr} {prof : Ctx → State → Bool} {body : Ctx → State → Res} {s : State} {c : Ctx} {cause lane : Nat} {addr : DWord} {eff : Eff}
    (h : Issues i prof s c) (hr : trapRoom s c = true) (hb : body c s = .trap cause addr lane eff) :
    issueP i prof body s = .next (applyAll (raise c { cause := cause, addr := addr, lane := lane } eff s) s) := by
  rw [issueP_eq h.1, commit_eq]
  have hr' : (!c.strm && mustStall s (coreSrc c.core c.part 0) 2 c.frank) = false := by
    unfold trapRoom at hr
    cases hs : c.strm <;> simp_all
  have hw : trapWaits c.u = none := by simp_all [trapRoom]
  simp only [issueEff, trapOr, preCheck_none h, split_room h, hb, hr', hw, Bool.false_eq_true, if_false]

/-! ## Completion -/

theorem Completes.regs_mono {c : Ctx} {s t : State} {touched : List Comp} {own : List Own} {R R' : Regs → Regs → Prop}
    {target : Option (Nat → DWord)} (h : Completes c s t touched own R target) (hR : ∀ r r', R r r' → R' r r') :
    Completes c s t touched own R' target := by
  refine ⟨h.world, h.agents, fun hs => ?_, fun hs => ?_⟩
  · obtain ⟨g, k, h1, h2, h3⟩ := h.group hs
    exact ⟨g, k, h1, h2, hR _ _ h3.file, h3.wait, h3.pc, h3.keep, h3.ident⟩
  · obtain ⟨g, k, h1, h2, h3⟩ := h.stream hs
    exact ⟨g, k, h1, h2, hR _ _ h3.file, h3.wait, h3.pc, h3.keep, h3.loop, h3.ident⟩

/-- Setting a value in a store for each key of a list. -/
theorem mget_foldl_mset (ls : List Nat) (f : Nat → DWord) (m : Map DWord) (k : Nat) :
    mget 0 (ls.foldl (fun m l => mset 0 m l (f l)) m) k = if k ∈ ls then f k else mget 0 m k := by
  induction ls generalizing m with
  | nil => simp
  | cons a as ih =>
    rw [List.foldl_cons, ih, mget_mset]
    by_cases h1 : k ∈ as
    · simp [h1]
    · by_cases h2 : k = a
      · subst h2; simp [h1]
      · simp [h1, h2]

theorem mget_foldl_stack (ls : List Nat) (f : Nat → Option (List DWord)) (m : Map (List DWord)) (k : Nat) :
    mget [] (ls.foldl (fun m l => match f l with
      | some st => mset [] m l st
      | none => m) m) k = if k ∈ ls then (f k).getD (mget [] m k) else mget [] m k := by
  induction ls generalizing m with
  | nil => simp
  | cons a as ih =>
    rw [List.foldl_cons, ih]
    cases hf : f a with
    | none =>
      by_cases h1 : k ∈ as
      · simp [h1]
      · by_cases h2 : k = a
        · subst h2; simp [h1, hf]
        · simp [h1, h2]
    | some st =>
      rw [mget_mset]
      by_cases h2 : k = a
      · subst h2; simp [hf]
      · simp [h2]

/-- The updates that sampling makes (R404). -/
theorem sampleStep_form (c : Ctx) (d : Done) (s : State) (g : Group) (hs : c.strm = false) (hg : mfind s.groups c.key = some g) :
    sampleStep c d s = [] ∨ (∃ y n, sampleStep c d s = [.group c.key { g with samp := y }, .fresh n]) ∨
    ∃ y n p q, sampleStep c d s = [.group c.key { g with samp := y }, .fresh n, .part p q] := by
  have hgo : groupOf c s = some g := by simp [groupOf, hs, hg]
  unfold sampleStep
  rw [hgo]
  dsimp only
  repeat' split
  all_goals first
    | exact .inl rfl
    | exact .inr (.inl ⟨_, _, rfl⟩)
    | exact .inr (.inr ⟨_, _, _, _, rfl⟩)

/-- Sampling changes at most the group's own sampling and its partition's sampler (R404). -/
theorem sampleStep_group (c : Ctx) (d : Done) (s : State) (g : Group) (hs : c.strm = false) (hg : mfind s.groups c.key = some g) :
    ∃ x, Same [] s (applyAll (sampleStep c d s) s) ∧
      mfind (applyAll (sampleStep c d s) s).groups c.key = some { g with samp := x } ∧
      (∀ q, q ≠ c.key → mfind (applyAll (sampleStep c d s) s).groups q = mfind s.groups q) ∧
      (applyAll (sampleStep c d s) s).streams = s.streams := by
  rcases sampleStep_form c d s g hs hg with h | ⟨y, n, h⟩ | ⟨y, n, p, q, h⟩ <;> rw [h]
  · exact ⟨g.samp, Same.refl _ _, by simpa using hg, fun _ _ => rfl, rfl⟩
  · refine ⟨y, ?_, by simp, fun q hq => by simp [mfind_mput_other _ _ _ _ hq], rfl⟩
    intro x _; cases x <;> rfl
  · refine ⟨y, ?_, by simp, fun q hq => by simp [mfind_mput_other _ _ _ _ hq], rfl⟩
    intro x _; cases x <;> rfl

theorem sampleStep_stream (c : Ctx) (d : Done) (s : State) (hs : c.strm = true) : sampleStep c d s = [] := by
  simp [sampleStep, groupOf, hs]

/-- What the lanes and stacks are after a completed word. -/
theorem finishSched_pc (c : Ctx) (d : Done) (o : Word) (x : Sched) (l : Nat) (hl : l < 32) :
    mget 0 (finishSched c d o x).pc l =
      if inMask c.lanes l then (match d.go with
        | .jump f _ => f l
        | _ => c.next) else mget 0 x.pc l := by
  simp only [finishSched, mget_foldl_mset, mem_lanesOf, hl, true_and] <;> split <;> rfl

theorem finishSched_rs (c : Ctx) (d : Done) (o : Word) (x : Sched) (l : Nat) :
    mget [] (finishSched c d o x).rs l =
      if l < 32 ∧ inMask c.lanes l = true then (match d.go with
        | .jump _ r => (r l).getD (mget [] x.rs l)
        | _ => mget [] x.rs l) else mget [] x.rs l := by
  refine Eq.trans (mget_foldl_stack (lanesOf c.lanes) (fun l => match d.go with
    | .jump _ r => r l
    | _ => none) x.rs l) ?_
  simp only [mem_lanesOf]
  cases d.go <;> rfl

/-- The agent's part of completion, for a group: `s2` is the state after the word's own effect, in which the group is
`g1`. -/
theorem finish_group (c : Ctx) (d : Done) (s : State) (g1 : Group) (hs : c.strm = false)
    (hg : mfind (applyAll (d.eff s) s).groups c.key = some g1) (hu : g1.uid = c.uid) :
    ∃ x, Same [] (applyAll (d.eff s) s) (applyAll (finish c d s) s) ∧
      mfind (applyAll (finish c d s) s).groups c.key = some { g1 with
        u := finishU c d g1.u, sched := finishSched c d (activeLanes g1 &&& ~~~c.lanes) g1.sched, samp := x } ∧
      (∀ q, q ≠ c.key → mfind (applyAll (finish c d s) s).groups q = mfind (applyAll (d.eff s) s).groups q) ∧
      (applyAll (finish c d s) s).streams = (applyAll (d.eff s) s).streams := by
  generalize hs2 : applyAll (d.eff s) s = s2 at *
  let g2 : Group := { g1 with u := finishU c d g1.u, sched := finishSched c d (activeLanes g1 &&& ~~~c.lanes) g1.sched }
  have hon : onGroup c (fun g => { g with
      u := finishU c d g.u, sched := finishSched c d (activeLanes g &&& ~~~c.lanes) g.sched }) s2 = [.group c.key g2] := by
    simp [onGroup, groupOf, hs, hg, hu, g2]
  let p := partOfG c.key
  let s3a := (Upd.fresh (s2.fresh + 1)).apply ((Upd.group c.key g2).apply s2)
  let s3 := (Upd.part p { getPart s3a p with waited := mdel (getPart s3a p).waited c.slot }).apply s3a
  let s4 := applyAll (issueCount c d s3) s3
  have hfin : applyAll (finish c d s) s = applyAll (Eff.when (!c.counted) (Eff.seq (issueCount c d) (sampleStep c d)) s3) s3 := by
    simp only [finish, applyAll_all_cons, applyAll_all_nil, slotServed, hs, Bool.false_eq_true, if_false, hs2, hon]
    rfl
  have hg3 : mfind s3.groups c.key = some g2 := by simp [s3, s3a]
  cases hc : c.counted
  case true =>
    refine ⟨g1.samp, ?_, ?_, ?_, ?_⟩ <;> rw [hfin, hc]
    · intro x _; cases x <;> rfl
    · exact hg3
    · intro q hq; exact mfind_mput_other _ _ _ _ hq
    · rfl
  have hfin : applyAll (finish c d s) s = applyAll (sampleStep c d s4) s4 := by
    rw [hfin, hc]; exact applyAll_seq _ _ _
  have hic := framed_issueCount c d
  have hg4 : mfind s4.groups c.key = some g2 := by
    show mfind (applyAll (issueCount c d s3) s3).groups c.key = _
    rw [hic.groups]; exact hg3
  obtain ⟨x, h1, h2, h3, h4⟩ := sampleStep_group c d s4 g2 hs hg4
  refine ⟨x, ?_, ?_, ?_, ?_⟩
  · rw [hfin]
    refine Same.trans ?_ h1
    refine Same.trans ?_ (hic.same s3)
    intro x _; cases x <;> rfl
  · rw [hfin, h2]
  · intro q hq
    rw [hfin, h3 q hq]
    show mfind (applyAll (issueCount c d s3) s3).groups q = _
    rw [hic.groups]
    simp [s3, s3a, mfind_mput_other _ _ _ _ hq]
  · rw [hfin, h4]
    show (applyAll (issueCount c d s3) s3).streams = _
    rw [hic.streams]; rfl

/-- The same for a stream. -/
theorem finish_stream (c : Ctx) (d : Done) (s : State) (t1 : Stream) (hs : c.strm = true)
    (hg : mfind (applyAll (d.eff s) s).streams c.key = some t1) (hu : t1.blk = c.blkId) :
    Same [] (applyAll (d.eff s) s) (applyAll (finish c d s) s) ∧
      mfind (applyAll (finish c d s) s).streams c.key = some (finishStream c d t1) ∧
      (∀ q, q ≠ c.key → mfind (applyAll (finish c d s) s).streams q = mfind (applyAll (d.eff s) s).streams q) ∧
      (applyAll (finish c d s) s).groups = (applyAll (d.eff s) s).groups := by
  generalize hs2 : applyAll (d.eff s) s = s2 at *
  have hon : onStream c (finishStream c d) s2 = [.stream c.key (finishStream c d t1)] := by
    simp [onStream, streamOf, hs, hg, hu]
  let s3 := (Upd.fresh (s2.fresh + 1)).apply ((Upd.stream c.key (finishStream c d t1)).apply s2)
  let e := Eff.when (!c.counted) (issueCount c d)
  let s4 := applyAll (e s3) s3
  have hfin : applyAll (finish c d s) s = s4 := by
    simp only [finish, applyAll_all_cons, applyAll_all_nil, hs, if_true, hs2, hon, slotServed]
    cases hc : c.counted
    · exact (applyAll_seq _ _ _).trans (by rw [sampleStep_stream c d _ hs]; simp [s4, e, hc, Eff.when]; rfl)
    · simp [s4, e, hc, Eff.when]; rfl
  have hic : Framed [] e := (framed_issueCount c d).when _
  refine ⟨?_, ?_, ?_, ?_⟩
  · rw [hfin]
    refine Same.trans ?_ (hic.same s3)
    intro x _; cases x <;> rfl
  · rw [hfin]
    show mfind (applyAll (e s3) s3).streams c.key = _
    rw [hic.streams]; simp [s3]
  · intro q hq
    rw [hfin]
    show mfind (applyAll (e s3) s3).streams q = _
    rw [hic.streams]
    simp [s3, mfind_mput_other _ _ _ _ hq]
  · rw [hfin]
    show (applyAll (e s3) s3).groups = _
    rw [hic.groups]; rfl

/-- Where a completed word's lanes go, as `Completes` says it. -/
def Go.target : Go → Option (Nat → DWord)
  | .jump f _ => some f
  | _ => none

/-! ## A word with an effect on its own agent -/

/-- What an effect on a word's own group keeps of it. -/
structure KeepsG (own : List Own) (g h : Group) : Prop where
  ident : h.uid = g.uid ∧ h.blk = g.blk ∧ h.vector = g.vector ∧ h.grans = g.grans ∧ h.pbase = g.pbase
  regs  : h.u.regs = g.u.regs
  pc    : ∀ l, mget 0 h.sched.pc l = mget 0 g.sched.pc l
  keep  : ∀ x, x ∉ own → sameOwnG g h x

/-- The same of a stream. -/
structure KeepsS (own : List Own) (g h : Stream) : Prop where
  blk  : h.blk = g.blk
  regs : h.u.regs = g.u.regs
  pc   : h.pc = g.pc
  loop : h.loop = g.loop
  keep : ∀ x, x ∉ own → sameOwnS g h x

theorem KeepsG.refl (own : List Own) (g : Group) : KeepsG own g g :=
  ⟨⟨rfl, rfl, rfl, rfl, rfl⟩, rfl, fun _ => rfl, fun x _ => by cases x <;> first | rfl | exact ⟨rfl, rfl⟩ | trivial | (intro _; rfl)⟩

theorem KeepsS.refl (own : List Own) (g : Stream) : KeepsS own g g :=
  ⟨rfl, rfl, rfl, rfl, fun x _ => by cases x <;> first | rfl | trivial⟩

theorem sameOwnG_trans {f g h : Group} {x : Own} (a : sameOwnG f g x) (b : sameOwnG g h x) : sameOwnG f h x := by
  cases x <;> first
    | exact Eq.trans b a
    | exact ⟨b.1.trans a.1, b.2.trans a.2⟩
    | trivial
    | exact fun l => (b l).trans (a l)

theorem sameOwnS_trans {f g h : Stream} {x : Own} (a : sameOwnS f g x) (b : sameOwnS g h x) : sameOwnS f h x := by
  cases x <;> first
    | exact Eq.trans b a
    | trivial

theorem KeepsG.trans {own : List Own} {f g h : Group} (a : KeepsG own f g) (b : KeepsG own g h) : KeepsG own f h :=
  ⟨⟨b.ident.1.trans a.ident.1, b.ident.2.1.trans a.ident.2.1, b.ident.2.2.1.trans a.ident.2.2.1,
      b.ident.2.2.2.1.trans a.ident.2.2.2.1, b.ident.2.2.2.2.trans a.ident.2.2.2.2⟩,
    b.regs.trans a.regs, fun l => (b.pc l).trans (a.pc l), fun x hx => sameOwnG_trans (a.keep x hx) (b.keep x hx)⟩

theorem KeepsS.trans {own : List Own} {f g h : Stream} (a : KeepsS own f g) (b : KeepsS own g h) : KeepsS own f h :=
  ⟨b.blk.trans a.blk, b.regs.trans a.regs, b.pc.trans a.pc, b.loop.trans a.loop,
    fun x hx => sameOwnS_trans (a.keep x hx) (b.keep x hx)⟩

theorem SameAgents.trans {c : Ctx} {s t u : State} (a : SameAgents c s t) (b : SameAgents c t u) : SameAgents c s u :=
  ⟨fun q hq => (b.1 q hq).trans (a.1 q hq), fun q hq => (b.2 q hq).trans (a.2 q hq)⟩

/-- An effect that changes, of the agents, at most the listed parts of the word's own. -/
structure OwnFramed (c : Ctx) (touched : List Comp) (own : List Own) (f : Eff) : Prop where
  same   : ∀ s, Same touched s (applyAll (f s) s)
  agents : ∀ s, SameAgents c s (applyAll (f s) s)
  group  : ∀ s g, c.strm = false → mfind s.groups c.key = some g → g.uid = c.uid →
    ∃ h, mfind (applyAll (f s) s).groups c.key = some h ∧ KeepsG own g h
  stream : ∀ s g, c.strm = true → mfind s.streams c.key = some g → g.blk = c.blkId →
    ∃ h, mfind (applyAll (f s) s).streams c.key = some h ∧ KeepsS own g h

theorem Framed.own {c : Ctx} {touched : List Comp} {f : Eff} (h : Framed touched f) (own : List Own) : OwnFramed c touched own f :=
  ⟨h.same, fun s => ⟨fun q _ => by rw [h.groups], fun q _ => by rw [h.streams]⟩,
    fun s g _ hg _ => ⟨g, by rw [h.groups]; exact hg, KeepsG.refl own g⟩,
    fun s g _ hg _ => ⟨g, by rw [h.streams]; exact hg, KeepsS.refl own g⟩⟩

theorem OwnFramed.seq {c : Ctx} {touched : List Comp} {own : List Own} {f g : Eff} (hf : OwnFramed c touched own f)
    (hg : OwnFramed c touched own g) : OwnFramed c touched own (Eff.seq f g) := by
  refine ⟨fun s => ?_, fun s => ?_, fun s x hs hx hu => ?_, fun s x hs hx hu => ?_⟩
  · rw [applyAll_seq]; exact (hf.same s).trans (hg.same _)
  · rw [applyAll_seq]; exact (hf.agents s).trans (hg.agents _)
  · rw [applyAll_seq]
    obtain ⟨y, hy, k⟩ := hf.group s x hs hx hu
    obtain ⟨z, hz, k'⟩ := hg.group _ y hs hy (k.ident.1.trans hu)
    exact ⟨z, hz, k.trans k'⟩
  · rw [applyAll_seq]
    obtain ⟨y, hy, k⟩ := hf.stream s x hs hx hu
    obtain ⟨z, hz, k'⟩ := hg.stream _ y hs hy (k.blk.trans hu)
    exact ⟨z, hz, k.trans k'⟩

theorem ownFramed_all {c : Ctx} {touched : List Comp} {own : List Own} (fs : List Eff)
    (h : ∀ f ∈ fs, OwnFramed c touched own f) : OwnFramed c touched own (Eff.all fs) := by
  induction fs with
  | nil => exact (framed_nop _).own own
  | cons f fs ih => exact OwnFramed.seq (h f (by simp)) (ih (fun g hg => h g (by simp [hg])))

theorem OwnFramed.mono {c : Ctx} {xs ys : List Comp} {own own' : List Own} {f : Eff} (h : OwnFramed c xs own f)
    (hx : ∀ x ∈ xs, x ∈ ys) (ho : ∀ x ∈ own, x ∈ own') : OwnFramed c ys own' f :=
  ⟨fun s => (h.same s).mono hx, h.agents,
    fun s g a b d => let ⟨k, h1, h2⟩ := h.group s g a b d
      ⟨k, h1, h2.ident, h2.regs, h2.pc, fun x hx => h2.keep x (fun hm => hx (ho x hm))⟩,
    fun s g a b d => let ⟨k, h1, h2⟩ := h.stream s g a b d
      ⟨k, h1, h2.blk, h2.regs, h2.pc, h2.loop, fun x hx => h2.keep x (fun hm => hx (ho x hm))⟩⟩

theorem ownFramed_of {c : Ctx} {xs : List Comp} {own : List Own} {f : Eff}
    (h : ∀ s, ∃ g : Eff, f s = g s ∧ OwnFramed c xs own g) : OwnFramed c xs own f := by
  refine ⟨fun s => ?_, fun s => ?_, fun s x => ?_, fun s x => ?_⟩ <;> obtain ⟨g, hg, hf⟩ := h s <;> rw [hg]
  · exact hf.same s
  · exact hf.agents s
  · exact hf.group s x
  · exact hf.stream s x

theorem onGroup_eq {c : Ctx} {f : Group → Group} {s : State} {g : Group} (hs : c.strm = false)
    (hg : mfind s.groups c.key = some g) (hu : g.uid = c.uid) : onGroup c f s = [.group c.key (f g)] := by
  simp [onGroup, groupOf, hs, hg, hu]

/-- A change of the word's own group that keeps what `KeepsG` says. -/
theorem ownFramed_onGroup {c : Ctx} {own : List Own} {f : Group → Group} (h : ∀ g, KeepsG own g (f g)) :
    OwnFramed c [] own (onGroup c f) := by
  have key : ∀ s, onGroup c f s = [] ∨ (c.strm = false ∧ ∃ g, mfind s.groups c.key = some g ∧ onGroup c f s = [.group c.key (f g)]) := by
    intro s
    unfold onGroup groupOf
    cases hs : c.strm with
    | true => exact .inl rfl
    | false =>
      cases hg : mfind s.groups c.key with
      | none => left; simp
      | some g =>
        by_cases hu : g.uid = c.uid
        · right; exact ⟨rfl, g, rfl, by simp [hu]⟩
        · left; simp [hu]
  refine ⟨fun s => ?_, fun s => ?_, fun s g hs hg hu => ?_, fun s g hs hg _ => ?_⟩
  · rcases key s with e | ⟨_, g, _, e⟩ <;> rw [e]
    · exact Same.refl _ _
    · intro x _; cases x <;> rfl
  · rcases key s with e | ⟨hs, g, _, e⟩ <;> rw [e]
    · exact ⟨fun _ _ => rfl, fun _ _ => rfl⟩
    · refine ⟨fun q hq => ?_, fun _ _ => rfl⟩
      rcases hq with hq | hq
      · simp [hs] at hq
      · simp [mfind_mput_other _ _ _ _ hq]
  · rw [onGroup_eq hs hg hu]
    exact ⟨f g, by simp, h g⟩
  · rcases key s with e | ⟨hs', g', _, e⟩
    · rw [e]; exact ⟨g, hg, KeepsS.refl own g⟩
    · simp [hs] at hs'

theorem onStream_eq {c : Ctx} {f : Stream → Stream} {s : State} {g : Stream} (hs : c.strm = true)
    (hg : mfind s.streams c.key = some g) (hu : g.blk = c.blkId) : onStream c f s = [.stream c.key (f g)] := by
  simp [onStream, streamOf, hs, hg, hu]

/-- The same for its own stream. -/
theorem ownFramed_onStream {c : Ctx} {own : List Own} {f : Stream → Stream} (h : ∀ g, KeepsS own g (f g)) :
    OwnFramed c [] own (onStream c f) := by
  have key : ∀ s, onStream c f s = [] ∨ (c.strm = true ∧ ∃ g, mfind s.streams c.key = some g ∧ onStream c f s = [.stream c.key (f g)]) := by
    intro s
    unfold onStream streamOf
    cases hs : c.strm with
    | false => exact .inl rfl
    | true =>
      cases hg : mfind s.streams c.key with
      | none => left; simp
      | some g =>
        by_cases hu : g.blk = c.blkId
        · right; exact ⟨rfl, g, rfl, by simp [hu]⟩
        · left; simp [hu]
  refine ⟨fun s => ?_, fun s => ?_, fun s g hs hg _ => ?_, fun s g hs hg hu => ?_⟩
  · rcases key s with e | ⟨_, g, _, e⟩ <;> rw [e]
    · exact Same.refl _ _
    · intro x _; cases x <;> rfl
  · rcases key s with e | ⟨hs, g, _, e⟩ <;> rw [e]
    · exact ⟨fun _ _ => rfl, fun _ _ => rfl⟩
    · refine ⟨fun _ _ => rfl, fun q hq => ?_⟩
      rcases hq with hq | hq
      · simp [hs] at hq
      · simp [mfind_mput_other _ _ _ _ hq]
  · rcases key s with e | ⟨hs', g', _, e⟩
    · rw [e]; exact ⟨g, hg, KeepsG.refl own g⟩
    · simp [hs] at hs'
  · rw [onStream_eq hs hg hu]
    exact ⟨f g, by simp, h g⟩

/-- A word that completes with an effect on the package and on its own agent: how it ends, and its agent after it.
`s1` is the state after its USPLIT card, if any. -/
theorem completes_own {i : Instr} {prof : Ctx → State → Bool} {body : Ctx → State → Res} {s : State} {c : Ctx} {d : Done}
    {touched : List Comp} {own : List Own} (h : Issues i prof s c) (hb : body c s = .done d) (he : OwnFramed c touched own d.eff)
    (hgo : d.go = .seq ∨ ∃ f r, d.go = .jump f r ∧ (Own.rs ∈ own ∨ r = fun _ => none)) :
    ∃ t, issueP i prof body s = .next t ∧ Completes c s t touched own (fun r r' => r' = d.regs r) d.go.target ∧
      ∀ s1, s1 = applyAll (splitCard c (usplit c s) s) s →
        Same [] (applyAll (d.eff s1) s1) t ∧
        (∀ g1, c.strm = false → mfind (applyAll (d.eff s1) s1).groups c.key = some g1 →
          ∃ x, mfind t.groups c.key = some { g1 with
            u := finishU c d g1.u, sched := finishSched c d (activeLanes g1 &&& ~~~c.lanes) g1.sched, samp := x }) ∧
        (∀ g1, c.strm = true → mfind (applyAll (d.eff s1) s1).streams c.key = some g1 →
          mfind t.streams c.key = some (finishStream c d g1)) := by
  obtain ⟨iss, _, hctx⟩ := ctxHere_iss h.1
  refine ⟨_, issue_done h hb, ?_⟩
  generalize hs1 : applyAll (splitCard c (usplit c s) s) s = s1
  have w1 : Same (cardParts c s) s s1 := hs1 ▸ same_splitCard c s
  have gr1 : s1.groups = s.groups := hs1 ▸ groups_splitCard c _ s
  have st1 : s1.streams = s.streams := hs1 ▸ streams_splitCard c _ s
  have w2 := he.same s1
  have ag := he.agents s1
  have w12 : Same (cardParts c s ++ touched) s (applyAll (d.eff s1) s1) :=
    (w1.mono (by simp +contextual)).trans (w2.mono (by simp +contextual))
  cases hs : c.strm with
  | false =>
    obtain ⟨g, hg, hu, _⟩ := ctxOf_group hctx hs
    obtain ⟨g1, hg1, k⟩ := he.group s1 g hs (by rw [gr1]; exact hg) hu
    obtain ⟨x, h1, h2, h3, h4⟩ := finish_group c d s1 g1 hs hg1 (k.ident.1.trans hu)
    refine ⟨⟨w12.trans (h1.mono (by simp)), ⟨?_, ?_⟩, ?_, ?_⟩, ?_⟩
    · intro q hq
      rcases hq with hq | hq
      · simp [hs] at hq
      · rw [h3 q hq, ag.1 q (.inr hq), gr1]
    · intro q hq; rw [h4, ag.2 q (.inl hs), st1]
    · intro _
      refine ⟨g, _, hg, h2, ?_, rfl, ?_, ?_, k.ident⟩
      · show d.regs g1.u.regs = _; rw [k.regs]
      · intro l hl
        show mget 0 (finishSched c d _ g1.sched).pc l = _
        rw [finishSched_pc _ _ _ _ _ hl, k.pc]
        rcases hgo with hgo | ⟨f, r, hgo, _⟩ <;> simp [hgo, Go.target]
      · intro y hy
        have ky := k.keep y hy
        cases y
        case rs =>
          intro l
          show mget [] (finishSched c d _ g1.sched).rs l = _
          rw [finishSched_rs]
          have ky' : ∀ l, mget [] g1.sched.rs l = mget [] g.sched.rs l := ky
          rcases hgo with hgo | ⟨f, r, hgo, hr⟩
          · simp [hgo, ky']
          · rcases hr with hr | hr
            · exact absurd hr hy
            · simp [hgo, hr, ky']
        all_goals exact ky
    · intro hc; simp [hs] at hc
    · intro s1' e; subst e
      refine ⟨h1, fun g2 _ hg2 => ?_, fun g2 hc _ => by simp at hc⟩
      rw [hg1] at hg2; cases hg2
      exact ⟨x, h2⟩
  | true =>
    obtain ⟨g, hg, hu, _⟩ := ctxOf_stream hctx hs
    obtain ⟨g1, hg1, k⟩ := he.stream s1 g hs (by rw [st1]; exact hg) hu
    obtain ⟨h1, h2, h3, h4⟩ := finish_stream c d s1 g1 hs hg1 (k.blk.trans hu)
    refine ⟨⟨w12.trans (h1.mono (by simp)), ⟨?_, ?_⟩, ?_, ?_⟩, ?_⟩
    · intro q hq; rw [h4, ag.1 q (.inl hs), gr1]
    · intro q hq
      rcases hq with hq | hq
      · simp [hs] at hq
      · rw [h3 q hq, ag.2 q (.inr hq), st1]
    · intro hc; simp [hs] at hc
    · intro _
      refine ⟨g, _, hg, h2, ?_⟩
      have hnext : ∀ (x y : Stream), x.loop = y.loop → (streamNext x c.next).pc = (streamNext y c.next).pc ∧
          (streamNext x c.next).loop = (streamNext y c.next).loop ∧ (streamNext x c.next).u = x.u ∧
          (streamNext x c.next).blk = x.blk ∧ (streamNext x c.next).rs = x.rs ∧
          (streamNext x c.next).ops = x.ops ∧ (streamNext x c.next).trap = x.trap ∧ (streamNext x c.next).stopped = x.stopped := by
        intro x y hxy
        unfold streamNext
        rw [hxy]
        cases y.loop with
        | none => simp
        | some l => dsimp only; split <;> (try split) <;> simp
      rcases hgo with hgo | ⟨f, r, hgo, hr⟩
      · have hn := hnext { g1 with u := finishU c d g1.u, tail := loadTail c g1 } g k.loop
        simp only [finishStream, hgo, Go.target, Option.map_none]
        refine ⟨?_, ?_, hn.1, ?_, fun _ => hn.2.1, hn.2.2.2.1.trans k.blk⟩
        · rw [hn.2.2.1]; show d.regs g1.u.regs = _; rw [k.regs]
        · rw [hn.2.2.1]; rfl
        · obtain ⟨-, -, k1, -, k2, k3, k4, k5⟩ := hn
          intro y hy
          have ky := k.keep y hy
          cases y <;> first
            | trivial
            | exact Eq.trans (by assumption) ky
            | (show (streamNext _ _).u.wstat = _; rw [k1]; exact ky)
            | (show (streamNext _ _).u.pend = _; rw [k1]; exact ky)
            | (show (streamNext _ _).u.arrived = _; rw [k1]; exact ky)
      · simp only [finishStream, hgo, Go.target, Option.map_some]
        refine ⟨?_, rfl, rfl, ?_, fun _ => k.loop, k.blk⟩
        · show d.regs g1.u.regs = _; rw [k.regs]
        · intro y hy
          have ky := k.keep y hy
          cases y
          case rs =>
            rcases hr with hr | hr
            · exact absurd hr hy
            · subst hr; exact ky
          all_goals exact ky
    · intro s1' e; subst e
      refine ⟨h1, fun g2 hc _ => by simp at hc, fun g2 _ hg2 => ?_⟩
      rw [hg1] at hg2; cases hg2
      exact h2

/-- A word that completes with an effect on the rest of the package alone. -/
theorem completes_done {i : Instr} {prof : Ctx → State → Bool} {body : Ctx → State → Res} {s : State} {c : Ctx} {d : Done}
    {touched : List Comp} (h : Issues i prof s c) (hb : body c s = .done d) (he : Framed touched d.eff)
    (hgo : d.go = .seq ∨ ∃ f, d.go = .jump f (fun _ => none)) :
    ∃ t, issueP i prof body s = .next t ∧ Completes c s t touched [] (fun r r' => r' = d.regs r) d.go.target := by
  obtain ⟨t, h1, h2, _⟩ := completes_own h hb (he.own [])
    (hgo.imp id (fun ⟨f, hf⟩ => ⟨f, _, hf, .inr rfl⟩))
  exact ⟨t, h1, h2⟩

end Sys2Proof.Machine
end

