-- ==== Sys2Proof/Laws/PerInstr.lean ====
section
/-! SUPPORT. The words of each instruction (R24, R26, R37, R39): one word, two when X = 1, each of 32 bits; an event has
none. -/

namespace Sys2Proof.Laws.Encoded

open Sys2Proof Sys2Proof.Machine

/-- How many words an instruction takes. -/
def wordsOf : Head → Nat
  | .event => 0
  | h => if h.ext then 2 else 1

/-- A legal instruction is as many 32-bit words as its X bit says. -/
def Statement (i : Instr) : Prop :=
  i.wf = true → (encode i).length = wordsOf (headOf i) ∧ ∀ n ∈ encode i, n < 2 ^ 32

/-! ## The three layouts -/

theorem dstCode_lt (d : Dst) : dstCode d < 128 := by
  cases d <;> simp only [dstCode] <;> omega

theorem srcCode_lt (a : Src) : srcCode a < 256 := by
  cases a <;> simp only [srcCode] <;> omega

theorem ufldCode_lt (f : UFld) : ufldCode f < 128 := by
  cases f <;> simp only [ufldCode] <;> omega

theorem ubCode_lt (b : UB) : ubCode b < 256 := by
  cases b with
  | fld f => have := ufldCode_lt f; simp only [ubCode]; omega
  | imm n => simp only [ubCode]; omega

theorem tyCode_lt (t : Ty) : tyCode t < 16 := by cases t <;> decide

theorem boolToNat_lt (b : Bool) : b.toNat < 2 := by cases b <;> decide

theorem lane_words {δ α β : Type} {fd : δ → Nat} {fa : α → Nat} {fb : β → Nat} (op sub : Nat) (hop : op < 64)
    (hsub : sub < 16) (w : LaneForm δ α β) (hd : ∀ d, fd d < 128) (ha : ∀ a, fa a < 256) (hb : ∀ b, fb b < 256) :
    (Encode.lane fd fa fb op sub w).length = wordsOf (.lane w.s w.x w.g w.gn) ∧
      ∀ n ∈ Encode.lane fd fa fb op sub w, n < 2 ^ 32 := by
  have h1 := hd w.d
  have h2 := ha w.a
  have h3 := hb w.b
  have h4 := tyCode_lt w.ty
  have h5 := boolToNat_lt w.s
  have h6 := boolToNat_lt w.x
  have h7 := boolToNat_lt w.gn
  have h8 := w.c.isLt
  have h9 := w.g.isLt
  have h10 := w.q.isLt
  cases hx : w.x
  · refine ⟨by rw [Encode.lane, hx]; rfl, fun n hn => ?_⟩
    rw [Encode.lane, hx] at hn
    rw [List.mem_singleton.mp hn, Encode.laneBase]
    simp only [Bool.toNat_false]
    omega
  · refine ⟨by rw [Encode.lane, hx]; rfl, fun n hn => ?_⟩
    rw [Encode.lane, hx] at hn
    rcases List.mem_cons.mp hn with e | e
    · rw [e, Encode.laneBase]
      simp only [Bool.toNat_true]
      omega
    · rw [List.mem_singleton.mp e, Encode.laneExt]
      omega

theorem bra_words (op : Nat) (hop : op < 64) (w : BraW) (hx : w.x = false) :
    (Encode.bra op w).length = wordsOf (.bra w) ∧ ∀ n ∈ Encode.bra op w, n < 2 ^ 32 := by
  have h1 := boolToNat_lt w.s
  have h2 := boolToNat_lt w.gn
  have h3 := w.g.isLt
  have h4 := w.disp.isLt
  refine ⟨by simp only [Encode.bra, wordsOf, Head.ext, hx]; rfl, fun n hn => ?_⟩
  rw [Encode.bra] at hn
  rw [List.mem_singleton.mp hn]
  omega

theorem uni_words (op : Nat) (hop : op < 128) (w : UniW) :
    (Encode.uni op w).length = wordsOf (.uni w) ∧ ∀ n ∈ Encode.uni op w, n < 2 ^ 32 := by
  have h1 := boolToNat_lt w.s
  have h2 := boolToNat_lt w.x
  have h3 := ufldCode_lt w.d
  have h4 := ufldCode_lt w.a
  have h5 := ubCode_lt w.b
  have h6 := w.e.isLt
  cases hx : w.x
  · refine ⟨by simp only [Encode.uni, wordsOf, Head.ext, hx]; rfl, fun n hn => ?_⟩
    rw [Encode.uni, hx] at hn
    rw [List.mem_singleton.mp hn]
    simp only [Bool.toNat_false]
    omega
  · refine ⟨by simp only [Encode.uni, wordsOf, Head.ext, hx]; rfl, fun n hn => ?_⟩
    rw [Encode.uni, hx] at hn
    rcases List.mem_cons.mp hn with e | e
    · rw [e]
      simp only [Bool.toNat_true]
      omega
    · rw [List.mem_singleton.mp e]
      exact h6

theorem bits_lt_of {n : Nat} (hn : n ≤ 4) (v : BitVec n) : v.toNat < 16 := by
  have h1 := v.isLt
  have h2 : 2 ^ n ≤ 2 ^ 4 := Nat.pow_le_pow_right (by decide) hn
  omega

theorem bitVec7_lt (v : BitVec 7) : v.toNat < 128 := v.isLt

theorem bitVec8_lt (v : BitVec 8) : v.toNat < 256 := v.isLt

/-! ## Each instruction -/

theorem add (w  : LaneW) : Statement (.add w) := fun _ =>
  lane_words _ _ (by decide) (by decide) w dstCode_lt srcCode_lt srcCode_lt
theorem sub (w  : LaneW) : Statement (.sub w) := fun _ =>
  lane_words _ _ (by decide) (by decide) w dstCode_lt srcCode_lt srcCode_lt
theorem addc (w  : LaneW) : Statement (.addc w) := fun _ =>
  lane_words _ _ (by decide) (by decide) w dstCode_lt srcCode_lt srcCode_lt
theorem subb (w  : LaneW) : Statement (.subb w) := fun _ =>
  lane_words _ _ (by decide) (by decide) w dstCode_lt srcCode_lt srcCode_lt
theorem mul (w  : LaneW) : Statement (.mul w) := fun _ =>
  lane_words _ _ (by decide) (by decide) w dstCode_lt srcCode_lt srcCode_lt
theorem mulhi (w  : LaneW) : Statement (.mulhi w) := fun _ =>
  lane_words _ _ (by decide) (by decide) w dstCode_lt srcCode_lt srcCode_lt
theorem mad (w  : LaneW) : Statement (.mad w) := fun _ =>
  lane_words _ _ (by decide) (by decide) w dstCode_lt srcCode_lt srcCode_lt
theorem madhi (w  : LaneW) : Statement (.madhi w) := fun _ =>
  lane_words _ _ (by decide) (by decide) w dstCode_lt srcCode_lt srcCode_lt
theorem div (w  : LaneW) : Statement (.div w) := fun _ =>
  lane_words _ _ (by decide) (by decide) w dstCode_lt srcCode_lt srcCode_lt
theorem rem (w  : LaneW) : Statement (.rem w) := fun _ =>
  lane_words _ _ (by decide) (by decide) w dstCode_lt srcCode_lt srcCode_lt
theorem min (w  : LaneW) : Statement (.min w) := fun _ =>
  lane_words _ _ (by decide) (by decide) w dstCode_lt srcCode_lt srcCode_lt
theorem max (w  : LaneW) : Statement (.max w) := fun _ =>
  lane_words _ _ (by decide) (by decide) w dstCode_lt srcCode_lt srcCode_lt
theorem and (w  : LaneW) : Statement (.and w) := fun _ =>
  lane_words _ _ (by decide) (by decide) w dstCode_lt srcCode_lt srcCode_lt
theorem or (w  : LaneW) : Statement (.or w) := fun _ =>
  lane_words _ _ (by decide) (by decide) w dstCode_lt srcCode_lt srcCode_lt
theorem xor (w  : LaneW) : Statement (.xor w) := fun _ =>
  lane_words _ _ (by decide) (by decide) w dstCode_lt srcCode_lt srcCode_lt
theorem andn (w  : LaneW) : Statement (.andn w) := fun _ =>
  lane_words _ _ (by decide) (by decide) w dstCode_lt srcCode_lt srcCode_lt
theorem shl (w  : LaneW) : Statement (.shl w) := fun _ =>
  lane_words _ _ (by decide) (by decide) w dstCode_lt srcCode_lt srcCode_lt
theorem shr (w  : LaneW) : Statement (.shr w) := fun _ =>
  lane_words _ _ (by decide) (by decide) w dstCode_lt srcCode_lt srcCode_lt
theorem sar (w  : LaneW) : Statement (.sar w) := fun _ =>
  lane_words _ _ (by decide) (by decide) w dstCode_lt srcCode_lt srcCode_lt
theorem rot (w  : LaneW) : Statement (.rot w) := fun _ =>
  lane_words _ _ (by decide) (by decide) w dstCode_lt srcCode_lt srcCode_lt
theorem clz (w  : LaneW) : Statement (.clz w) := fun _ =>
  lane_words _ _ (by decide) (by decide) w dstCode_lt srcCode_lt srcCode_lt
theorem popc (w  : LaneW) : Statement (.popc w) := fun _ =>
  lane_words _ _ (by decide) (by decide) w dstCode_lt srcCode_lt srcCode_lt
theorem brev (w  : LaneW) : Statement (.brev w) := fun _ =>
  lane_words _ _ (by decide) (by decide) w dstCode_lt srcCode_lt srcCode_lt
theorem bfx (w  : LaneW) : Statement (.bfx w) := fun _ =>
  lane_words _ _ (by decide) (by decide) w dstCode_lt srcCode_lt srcCode_lt
theorem bfi (w  : LaneW) : Statement (.bfi w) := fun _ =>
  lane_words _ _ (by decide) (by decide) w dstCode_lt srcCode_lt srcCode_lt
theorem lea (w  : LaneW) : Statement (.lea w) := fun _ =>
  lane_words _ _ (by decide) (by decide) w dstCode_lt srcCode_lt srcCode_lt
theorem cmp (sub  : BitVec 4) (w  : PredW) : Statement (.cmp sub w) := fun _ =>
  lane_words _ _ (by decide) (bits_lt_of (by decide) sub) w bitVec7_lt srcCode_lt srcCode_lt
theorem sel (w  : LaneW) : Statement (.sel w) := fun _ =>
  lane_words _ _ (by decide) (by decide) w dstCode_lt srcCode_lt srcCode_lt
theorem mov (w  : LaneW) : Statement (.mov w) := fun _ =>
  lane_words _ _ (by decide) (by decide) w dstCode_lt srcCode_lt srcCode_lt
theorem movk (w  : KMovW) : Statement (.movk w) := fun _ =>
  lane_words _ _ (by decide) (by decide) w dstCode_lt bitVec8_lt bitVec8_lt
theorem pand (w  : PLogW) : Statement (.pand w) := fun _ =>
  lane_words _ _ (by decide) (by decide) w bitVec7_lt bitVec8_lt bitVec8_lt
theorem por (w  : PLogW) : Statement (.por w) := fun _ =>
  lane_words _ _ (by decide) (by decide) w bitVec7_lt bitVec8_lt bitVec8_lt
theorem pxor (w  : PLogW) : Statement (.pxor w) := fun _ =>
  lane_words _ _ (by decide) (by decide) w bitVec7_lt bitVec8_lt bitVec8_lt
theorem pnot (w  : PLogW) : Statement (.pnot w) := fun _ =>
  lane_words _ _ (by decide) (by decide) w bitVec7_lt bitVec8_lt bitVec8_lt
theorem fadd (w  : LaneW) : Statement (.fadd w) := fun _ =>
  lane_words _ _ (by decide) (by decide) w dstCode_lt srcCode_lt srcCode_lt
theorem fsub (w  : LaneW) : Statement (.fsub w) := fun _ =>
  lane_words _ _ (by decide) (by decide) w dstCode_lt srcCode_lt srcCode_lt
theorem fmul (w  : LaneW) : Statement (.fmul w) := fun _ =>
  lane_words _ _ (by decide) (by decide) w dstCode_lt srcCode_lt srcCode_lt
theorem ffma (w  : LaneW) : Statement (.ffma w) := fun _ =>
  lane_words _ _ (by decide) (by decide) w dstCode_lt srcCode_lt srcCode_lt
theorem fmin (w  : LaneW) : Statement (.fmin w) := fun _ =>
  lane_words _ _ (by decide) (by decide) w dstCode_lt srcCode_lt srcCode_lt
theorem fmax (w  : LaneW) : Statement (.fmax w) := fun _ =>
  lane_words _ _ (by decide) (by decide) w dstCode_lt srcCode_lt srcCode_lt
theorem fcmp (sub  : BitVec 4) (w  : PredW) : Statement (.fcmp sub w) := fun _ =>
  lane_words _ _ (by decide) (bits_lt_of (by decide) sub) w bitVec7_lt srcCode_lt srcCode_lt
theorem fdiv (w  : LaneW) : Statement (.fdiv w) := fun _ =>
  lane_words _ _ (by decide) (by decide) w dstCode_lt srcCode_lt srcCode_lt
theorem frcp (w  : LaneW) : Statement (.frcp w) := fun _ =>
  lane_words _ _ (by decide) (by decide) w dstCode_lt srcCode_lt srcCode_lt
theorem frsq (w  : LaneW) : Statement (.frsq w) := fun _ =>
  lane_words _ _ (by decide) (by decide) w dstCode_lt srcCode_lt srcCode_lt
theorem fsqrt (w  : LaneW) : Statement (.fsqrt w) := fun _ =>
  lane_words _ _ (by decide) (by decide) w dstCode_lt srcCode_lt srcCode_lt
theorem fex2 (w  : LaneW) : Statement (.fex2 w) := fun _ =>
  lane_words _ _ (by decide) (by decide) w dstCode_lt srcCode_lt srcCode_lt
theorem flg2 (w  : LaneW) : Statement (.flg2 w) := fun _ =>
  lane_words _ _ (by decide) (by decide) w dstCode_lt srcCode_lt srcCode_lt
theorem fsin (w  : LaneW) : Statement (.fsin w) := fun _ =>
  lane_words _ _ (by decide) (by decide) w dstCode_lt srcCode_lt srcCode_lt
theorem fcos (w  : LaneW) : Statement (.fcos w) := fun _ =>
  lane_words _ _ (by decide) (by decide) w dstCode_lt srcCode_lt srcCode_lt
theorem dot2 (w  : LaneW) : Statement (.dot2 w) := fun _ =>
  lane_words _ _ (by decide) (by decide) w dstCode_lt srcCode_lt srcCode_lt
theorem hfma2 (w  : LaneW) : Statement (.hfma2 w) := fun _ =>
  lane_words _ _ (by decide) (by decide) w dstCode_lt srcCode_lt srcCode_lt
theorem cvtFf (w  : LaneW) : Statement (.cvtFf w) := fun _ =>
  lane_words _ _ (by decide) (by decide) w dstCode_lt srcCode_lt srcCode_lt
theorem cvtFi (w  : LaneW) : Statement (.cvtFi w) := fun _ =>
  lane_words _ _ (by decide) (by decide) w dstCode_lt srcCode_lt srcCode_lt
theorem cvtIf (w  : LaneW) : Statement (.cvtIf w) := fun _ =>
  lane_words _ _ (by decide) (by decide) w dstCode_lt srcCode_lt srcCode_lt
theorem cvtIi (w  : LaneW) : Statement (.cvtIi w) := fun _ =>
  lane_words _ _ (by decide) (by decide) w dstCode_lt srcCode_lt srcCode_lt
theorem cvtxPack (w  : LaneW) : Statement (.cvtxPack w) := fun _ =>
  lane_words _ _ (by decide) (by decide) w dstCode_lt srcCode_lt srcCode_lt
theorem cvtxUnpack (w  : LaneW) : Statement (.cvtxUnpack w) := fun _ =>
  lane_words _ _ (by decide) (by decide) w dstCode_lt srcCode_lt srcCode_lt
theorem pack2 (w  : LaneW) : Statement (.pack2 w) := fun _ =>
  lane_words _ _ (by decide) (by decide) w dstCode_lt srcCode_lt srcCode_lt
theorem fclass (w  : LaneW) : Statement (.fclass w) := fun _ =>
  lane_words _ _ (by decide) (by decide) w dstCode_lt srcCode_lt srcCode_lt
theorem bscl (w  : LaneW) : Statement (.bscl w) := fun _ =>
  lane_words _ _ (by decide) (by decide) w dstCode_lt srcCode_lt srcCode_lt
theorem qblk (w  : LaneW) : Statement (.qblk w) := fun _ =>
  lane_words _ _ (by decide) (by decide) w dstCode_lt srcCode_lt srcCode_lt
theorem bra (w  : BraW) : Statement (.bra w) := fun h =>
  bra_words _ (by decide) w (by simp only [Instr.wf, Bool.and_eq_true, Bool.not_eq_true'] at h; exact h.1)
theorem call (w  : BraW) : Statement (.call w) := fun h =>
  bra_words _ (by decide) w (by simp only [Instr.wf, Bool.and_eq_true, Bool.not_eq_true'] at h; exact h.1)
theorem brx (w  : LaneW) : Statement (.brx w) := fun _ =>
  lane_words _ _ (by decide) (by decide) w dstCode_lt srcCode_lt srcCode_lt
theorem callx (w  : LaneW) : Statement (.callx w) := fun _ =>
  lane_words _ _ (by decide) (by decide) w dstCode_lt srcCode_lt srcCode_lt
theorem ret (w  : LaneW) : Statement (.ret w) := fun _ =>
  lane_words _ _ (by decide) (by decide) w dstCode_lt srcCode_lt srcCode_lt
theorem exit (w  : LaneW) : Statement (.exit w) := fun _ =>
  lane_words _ _ (by decide) (by decide) w dstCode_lt srcCode_lt srcCode_lt
theorem brk (w  : LaneW) : Statement (.brk w) := fun _ =>
  lane_words _ _ (by decide) (by decide) w dstCode_lt srcCode_lt srcCode_lt
theorem rejoin (w  : LaneW) : Statement (.rejoin w) := fun _ =>
  lane_words _ _ (by decide) (by decide) w dstCode_lt srcCode_lt srcCode_lt
theorem yield (w  : LaneW) : Statement (.yield w) := fun _ =>
  lane_words _ _ (by decide) (by decide) w dstCode_lt srcCode_lt srcCode_lt
theorem voteAny (w  : PredW) : Statement (.voteAny w) := fun _ =>
  lane_words _ _ (by decide) (by decide) w bitVec7_lt srcCode_lt srcCode_lt
theorem voteAll (w  : PredW) : Statement (.voteAll w) := fun _ =>
  lane_words _ _ (by decide) (by decide) w bitVec7_lt srcCode_lt srcCode_lt
theorem voteBal (w  : LaneW) : Statement (.voteBal w) := fun _ =>
  lane_words _ _ (by decide) (by decide) w dstCode_lt srcCode_lt srcCode_lt
theorem shflIdx (w  : LaneW) : Statement (.shflIdx w) := fun _ =>
  lane_words _ _ (by decide) (by decide) w dstCode_lt srcCode_lt srcCode_lt
theorem shflUp (w  : LaneW) : Statement (.shflUp w) := fun _ =>
  lane_words _ _ (by decide) (by decide) w dstCode_lt srcCode_lt srcCode_lt
theorem shflDn (w  : LaneW) : Statement (.shflDn w) := fun _ =>
  lane_words _ _ (by decide) (by decide) w dstCode_lt srcCode_lt srcCode_lt
theorem shflXor (w  : LaneW) : Statement (.shflXor w) := fun _ =>
  lane_words _ _ (by decide) (by decide) w dstCode_lt srcCode_lt srcCode_lt
theorem redux (sub  : BitVec 4) (w  : LaneW) : Statement (.redux sub w) := fun _ =>
  lane_words _ _ (by decide) (bits_lt_of (by decide) sub) w dstCode_lt srcCode_lt srcCode_lt
theorem scan (sub  : BitVec 4) (w  : LaneW) : Statement (.scan sub w) := fun _ =>
  lane_words _ _ (by decide) (bits_lt_of (by decide) sub) w dstCode_lt srcCode_lt srcCode_lt
theorem match_ (w  : LaneW) : Statement (.match_ w) := fun _ =>
  lane_words _ _ (by decide) (by decide) w dstCode_lt srcCode_lt srcCode_lt
theorem spawn (w  : LaneW) : Statement (.spawn w) := fun _ =>
  lane_words _ _ (by decide) (by decide) w dstCode_lt srcCode_lt srcCode_lt
theorem phflush (w  : LaneW) : Statement (.phflush w) := fun _ =>
  lane_words _ _ (by decide) (by decide) w dstCode_lt srcCode_lt srcCode_lt
theorem ld (w  : LaneW) : Statement (.ld w) := fun _ =>
  lane_words _ _ (by decide) (by decide) w dstCode_lt srcCode_lt srcCode_lt
theorem st (w  : LaneW) : Statement (.st w) := fun _ =>
  lane_words _ _ (by decide) (by decide) w dstCode_lt srcCode_lt srcCode_lt
theorem atom (sub  : BitVec 4) (w  : LaneW) : Statement (.atom sub w) := fun _ =>
  lane_words _ _ (by decide) (bits_lt_of (by decide) sub) w dstCode_lt srcCode_lt srcCode_lt
theorem cas (w  : LaneW) : Statement (.cas w) := fun _ =>
  lane_words _ _ (by decide) (by decide) w dstCode_lt srcCode_lt srcCode_lt
theorem prf (w  : LaneW) : Statement (.prf w) := fun _ =>
  lane_words _ _ (by decide) (by decide) w dstCode_lt srcCode_lt srcCode_lt
theorem spt (w  : LaneW) : Statement (.spt w) := fun _ =>
  lane_words _ _ (by decide) (by decide) w dstCode_lt srcCode_lt srcCode_lt
theorem spc (w  : LaneW) : Statement (.spc w) := fun _ =>
  lane_words _ _ (by decide) (by decide) w dstCode_lt srcCode_lt srcCode_lt
theorem ldb (w  : LaneW) : Statement (.ldb w) := fun _ =>
  lane_words _ _ (by decide) (by decide) w dstCode_lt srcCode_lt srcCode_lt
theorem mtov (w  : LaneW) : Statement (.mtov w) := fun _ =>
  lane_words _ _ (by decide) (by decide) w dstCode_lt srcCode_lt srcCode_lt
theorem mvtot (w  : LaneW) : Statement (.mvtot w) := fun _ =>
  lane_words _ _ (by decide) (by decide) w dstCode_lt srcCode_lt srcCode_lt
theorem kadd (w  : UniW) : Statement (.kadd w) := fun _ => uni_words _ (by decide) w
theorem ksub (w  : UniW) : Statement (.ksub w) := fun _ => uni_words _ (by decide) w
theorem kmul (w  : UniW) : Statement (.kmul w) := fun _ => uni_words _ (by decide) w
theorem kand (w  : UniW) : Statement (.kand w) := fun _ => uni_words _ (by decide) w
theorem kor (w  : UniW) : Statement (.kor w) := fun _ => uni_words _ (by decide) w
theorem kxor (w  : UniW) : Statement (.kxor w) := fun _ => uni_words _ (by decide) w
theorem kshl (w  : UniW) : Statement (.kshl w) := fun _ => uni_words _ (by decide) w
theorem kshr (w  : UniW) : Statement (.kshr w) := fun _ => uni_words _ (by decide) w
theorem kmin (w  : UniW) : Statement (.kmin w) := fun _ => uni_words _ (by decide) w
theorem kmax (w  : UniW) : Statement (.kmax w) := fun _ => uni_words _ (by decide) w
theorem kcmp (w  : UniW) : Statement (.kcmp w) := fun _ => uni_words _ (by decide) w
theorem ksel (w  : UniW) : Statement (.ksel w) := fun _ => uni_words _ (by decide) w
theorem kmov (w  : UniW) : Statement (.kmov w) := fun _ => uni_words _ (by decide) w
theorem kmovi (w  : UniW) : Statement (.kmovi w) := fun _ => uni_words _ (by decide) w
theorem lcset (w  : UniW) : Statement (.lcset w) := fun _ => uni_words _ (by decide) w
theorem lcstep (w  : UniW) : Statement (.lcstep w) := fun _ => uni_words _ (by decide) w
theorem kcset (w  : UniW) : Statement (.kcset w) := fun _ => uni_words _ (by decide) w
theorem kcwait (w  : UniW) : Statement (.kcwait w) := fun _ => uni_words _ (by decide) w
theorem kfmtSet (w  : UniW) : Statement (.kfmtSet w) := fun _ => uni_words _ (by decide) w
theorem kfmtSetPreset (w  : UniW) : Statement (.kfmtSetPreset w) := fun _ => uni_words _ (by decide) w
theorem kfmtSetSeed (w  : UniW) : Statement (.kfmtSetSeed w) := fun _ => uni_words _ (by decide) w
theorem kfmtGet (w  : UniW) : Statement (.kfmtGet w) := fun _ => uni_words _ (by decide) w
theorem kbra (w  : UniW) : Statement (.kbra w) := fun _ => uni_words _ (by decide) w
theorem kcall (w  : UniW) : Statement (.kcall w) := fun _ => uni_words _ (by decide) w
theorem kret (w  : UniW) : Statement (.kret w) := fun _ => uni_words _ (by decide) w
theorem obres (w  : UniW) : Statement (.obres w) := fun _ => uni_words _ (by decide) w
theorem obfree (w  : UniW) : Statement (.obfree w) := fun _ => uni_words _ (by decide) w
theorem mload (w  : UniW) : Statement (.mload w) := fun _ => uni_words _ (by decide) w
theorem mloadx (w  : UniW) : Statement (.mloadx w) := fun _ => uni_words _ (by decide) w
theorem mma (w  : UniW) : Statement (.mma w) := fun _ => uni_words _ (by decide) w
theorem mzero (w  : UniW) : Statement (.mzero w) := fun _ => uni_words _ (by decide) w
theorem macc (w  : UniW) : Statement (.macc w) := fun _ => uni_words _ (by decide) w
theorem mst (w  : UniW) : Statement (.mst w) := fun _ => uni_words _ (by decide) w
theorem mbarArr (w  : UniW) : Statement (.mbarArr w) := fun _ => uni_words _ (by decide) w
theorem mbarWait (w  : UniW) : Statement (.mbarWait w) := fun _ => uni_words _ (by decide) w
theorem mseqGo (w  : UniW) : Statement (.mseqGo w) := fun _ => uni_words _ (by decide) w
theorem mseqEnd (w  : UniW) : Statement (.mseqEnd w) := fun _ => uni_words _ (by decide) w
theorem mrow (w  : UniW) : Statement (.mrow w) := fun _ => uni_words _ (by decide) w
theorem mrowClr (w  : UniW) : Statement (.mrowClr w) := fun _ => uni_words _ (by decide) w
theorem sdec (w  : UniW) : Statement (.sdec w) := fun _ => uni_words _ (by decide) w
theorem mmat (w  : UniW) : Statement (.mmat w) := fun _ => uni_words _ (by decide) w
theorem mres (w  : UniW) : Statement (.mres w) := fun _ => uni_words _ (by decide) w
theorem sbound (w  : UniW) : Statement (.sbound w) := fun _ => uni_words _ (by decide) w
theorem sstat (w  : UniW) : Statement (.sstat w) := fun _ => uni_words _ (by decide) w
theorem sstatClr (w  : UniW) : Statement (.sstatClr w) := fun _ => uni_words _ (by decide) w
theorem lrec (w  : UniW) : Statement (.lrec w) := fun _ => uni_words _ (by decide) w
theorem lrecTap (w  : UniW) : Statement (.lrecTap w) := fun _ => uni_words _ (by decide) w
theorem wbind (w  : UniW) : Statement (.wbind w) := fun _ => uni_words _ (by decide) w
theorem wunbind (w  : UniW) : Statement (.wunbind w) := fun _ => uni_words _ (by decide) w
theorem wabs (w  : UniW) : Statement (.wabs w) := fun _ => uni_words _ (by decide) w
theorem wtouch (w  : UniW) : Statement (.wtouch w) := fun _ => uni_words _ (by decide) w
theorem wpost (w  : UniW) : Statement (.wpost w) := fun _ => uni_words _ (by decide) w
theorem wstat (w  : UniW) : Statement (.wstat w) := fun _ => uni_words _ (by decide) w
theorem wstatRead (w  : UniW) : Statement (.wstatRead w) := fun _ => uni_words _ (by decide) w
theorem wstatClr (w  : UniW) : Statement (.wstatClr w) := fun _ => uni_words _ (by decide) w
theorem pmarm (w  : UniW) : Statement (.pmarm w) := fun _ => uni_words _ (by decide) w
theorem pmwait (w  : UniW) : Statement (.pmwait w) := fun _ => uni_words _ (by decide) w
theorem ringInit (w  : UniW) : Statement (.ringInit w) := fun _ => uni_words _ (by decide) w
theorem ringPut (w  : UniW) : Statement (.ringPut w) := fun _ => uni_words _ (by decide) w
theorem ringPutFree (w  : UniW) : Statement (.ringPutFree w) := fun _ => uni_words _ (by decide) w
theorem ringGet (w  : UniW) : Statement (.ringGet w) := fun _ => uni_words _ (by decide) w
theorem ringWait (w  : UniW) : Statement (.ringWait w) := fun _ => uni_words _ (by decide) w
theorem kld (w  : UniW) : Statement (.kld w) := fun _ => uni_words _ (by decide) w
theorem kst (w  : UniW) : Statement (.kst w) := fun _ => uni_words _ (by decide) w
theorem katom (w  : UniW) : Statement (.katom w) := fun _ => uni_words _ (by decide) w
theorem fence (w  : UniW) : Statement (.fence w) := fun _ => uni_words _ (by decide) w
theorem cwb (w  : UniW) : Statement (.cwb w) := fun _ => uni_words _ (by decide) w
theorem cinv (w  : UniW) : Statement (.cinv w) := fun _ => uni_words _ (by decide) w
theorem monArm (w  : UniW) : Statement (.monArm w) := fun _ => uni_words _ (by decide) w
theorem monWait (w  : UniW) : Statement (.monWait w) := fun _ => uni_words _ (by decide) w
theorem tlbinv (w  : UniW) : Statement (.tlbinv w) := fun _ => uni_words _ (by decide) w
theorem pgmig (w  : UniW) : Statement (.pgmig w) := fun _ => uni_words _ (by decide) w
theorem roundAdv (w  : UniW) : Statement (.roundAdv w) := fun _ => uni_words _ (by decide) w
theorem roundGet (w  : UniW) : Statement (.roundGet w) := fun _ => uni_words _ (by decide) w
theorem roundFloor (w  : UniW) : Statement (.roundFloor w) := fun _ => uni_words _ (by decide) w
theorem roundFloorClr (w  : UniW) : Statement (.roundFloorClr w) := fun _ => uni_words _ (by decide) w
theorem barArr (w  : UniW) : Statement (.barArr w) := fun _ => uni_words _ (by decide) w
theorem barWait (w  : UniW) : Statement (.barWait w) := fun _ => uni_words _ (by decide) w
theorem barSync (w  : UniW) : Statement (.barSync w) := fun _ => uni_words _ (by decide) w
theorem barJoin (w  : UniW) : Statement (.barJoin w) := fun _ => uni_words _ (by decide) w
theorem barLeave (w  : UniW) : Statement (.barLeave w) := fun _ => uni_words _ (by decide) w
theorem barGen (w  : UniW) : Statement (.barGen w) := fun _ => uni_words _ (by decide) w
theorem rdtime (w  : UniW) : Statement (.rdtime w) := fun _ => uni_words _ (by decide) w
theorem rdcyc (w  : UniW) : Statement (.rdcyc w) := fun _ => uni_words _ (by decide) w
theorem nap (w  : UniW) : Statement (.nap w) := fun _ => uni_words _ (by decide) w
theorem post (w  : UniW) : Statement (.post w) := fun _ => uni_words _ (by decide) w
theorem qreset (w  : UniW) : Statement (.qreset w) := fun _ => uni_words _ (by decide) w
theorem trap (w  : UniW) : Statement (.trap w) := fun _ => uni_words _ (by decide) w
theorem sysc (w  : UniW) : Statement (.sysc w) := fun _ => uni_words _ (by decide) w
theorem eret (w  : UniW) : Statement (.eret w) := fun _ => uni_words _ (by decide) w
theorem mfs (w  : UniW) : Statement (.mfs w) := fun _ => uni_words _ (by decide) w
theorem mts (w  : UniW) : Statement (.mts w) := fun _ => uni_words _ (by decide) w
theorem halt (w  : UniW) : Statement (.halt w) := fun _ => uni_words _ (by decide) w
theorem tmark (w  : UniW) : Statement (.tmark w) := fun _ => uni_words _ (by decide) w
theorem tsamp (w  : UniW) : Statement (.tsamp w) := fun _ => uni_words _ (by decide) w
theorem cntrd (w  : UniW) : Statement (.cntrd w) := fun _ => uni_words _ (by decide) w
theorem cntcfgEvent (w  : UniW) : Statement (.cntcfgEvent w) := fun _ => uni_words _ (by decide) w
theorem cntcfgClear (w  : UniW) : Statement (.cntcfgClear w) := fun _ => uni_words _ (by decide) w
theorem cntcfgWrite (w  : UniW) : Statement (.cntcfgWrite w) := fun _ => uni_words _ (by decide) w
theorem icinv (w  : UniW) : Statement (.icinv w) := fun _ => uni_words _ (by decide) w
theorem ipref (w  : UniW) : Statement (.ipref w) := fun _ => uni_words _ (by decide) w
theorem nop (w  : UniW) : Statement (.nop w) := fun _ => uni_words _ (by decide) w
theorem hint (op  : BitVec 4) (w  : UniW) : Statement (.hint op w) := fun _ => uni_words _ (by have := bits_lt_of (by decide) op; omega) w
theorem rtctlCommit (v  : DWord) : Statement (.rtctlCommit v) := fun _ => ⟨rfl, fun _ h => absurd h List.not_mem_nil⟩
theorem rtctlRelease (v  : DWord) : Statement (.rtctlRelease v) := fun _ => ⟨rfl, fun _ h => absurd h List.not_mem_nil⟩
theorem qctlEnable (v  : DWord) : Statement (.qctlEnable v) := fun _ => ⟨rfl, fun _ h => absurd h List.not_mem_nil⟩
theorem qctlDisable (v  : DWord) : Statement (.qctlDisable v) := fun _ => ⟨rfl, fun _ h => absurd h List.not_mem_nil⟩
theorem qctlSuspend (v  : DWord) : Statement (.qctlSuspend v) := fun _ => ⟨rfl, fun _ h => absurd h List.not_mem_nil⟩
theorem qctlResume (v  : DWord) : Statement (.qctlResume v) := fun _ => ⟨rfl, fun _ h => absurd h List.not_mem_nil⟩
theorem tsctlOpen (v  : DWord) : Statement (.tsctlOpen v) := fun _ => ⟨rfl, fun _ h => absurd h List.not_mem_nil⟩
theorem tsctlClose (v  : DWord) : Statement (.tsctlClose v) := fun _ => ⟨rfl, fun _ h => absurd h List.not_mem_nil⟩
theorem tsptrHeadWrite (v  : DWord) : Statement (.tsptrHeadWrite v) := fun _ => ⟨rfl, fun _ h => absurd h List.not_mem_nil⟩
theorem fqptrHeadWrite (v  : DWord) : Statement (.fqptrHeadWrite v) := fun _ => ⟨rfl, fun _ h => absurd h List.not_mem_nil⟩
theorem rtfailAck (v  : DWord) : Statement (.rtfailAck v) := fun _ => ⟨rfl, fun _ h => absurd h List.not_mem_nil⟩
theorem getVersion : Statement (.getVersion) := fun _ => ⟨rfl, fun _ h => absurd h List.not_mem_nil⟩
theorem getCapabilities : Statement (.getCapabilities) := fun _ => ⟨rfl, fun _ h => absurd h List.not_mem_nil⟩
theorem negotiateAlgorithms : Statement (.negotiateAlgorithms) := fun _ => ⟨rfl, fun _ h => absurd h List.not_mem_nil⟩
theorem getDigests : Statement (.getDigests) := fun _ => ⟨rfl, fun _ h => absurd h List.not_mem_nil⟩
theorem getCertificate : Statement (.getCertificate) := fun _ => ⟨rfl, fun _ h => absurd h List.not_mem_nil⟩
theorem challenge : Statement (.challenge) := fun _ => ⟨rfl, fun _ h => absurd h List.not_mem_nil⟩
theorem getMeasurements : Statement (.getMeasurements) := fun _ => ⟨rfl, fun _ h => absurd h List.not_mem_nil⟩
theorem unsupportedRequest : Statement (.unsupportedRequest) := fun _ => ⟨rfl, fun _ h => absurd h List.not_mem_nil⟩
theorem packageReset : Statement (.packageReset) := fun _ => ⟨rfl, fun _ h => absurd h List.not_mem_nil⟩
theorem timingLock : Statement (.timingLock) := fun _ => ⟨rfl, fun _ h => absurd h List.not_mem_nil⟩
theorem referenceLoss : Statement (.referenceLoss) := fun _ => ⟨rfl, fun _ h => absurd h List.not_mem_nil⟩
theorem portFailure : Statement (.portFailure) := fun _ => ⟨rfl, fun _ h => absurd h List.not_mem_nil⟩
theorem ucieModuleFailure : Statement (.ucieModuleFailure) := fun _ => ⟨rfl, fun _ h => absurd h List.not_mem_nil⟩
theorem linkLoss : Statement (.linkLoss) := fun _ => ⟨rfl, fun _ h => absurd h List.not_mem_nil⟩
theorem clockChange (v  : Word) : Statement (.clockChange v) := fun _ => ⟨rfl, fun _ h => absurd h List.not_mem_nil⟩
theorem cxlSurpriseRemoval : Statement (.cxlSurpriseRemoval) := fun _ => ⟨rfl, fun _ h => absurd h List.not_mem_nil⟩
theorem eccError (unit c addr  : Nat) (correctable  : Bool) : Statement (.eccError unit c addr correctable) := fun _ => ⟨rfl, fun _ h => absurd h List.not_mem_nil⟩
theorem hostAccess (addr  : Nat) (write  : Bool) (data  : List Byte) : Statement (.hostAccess addr write data) := fun _ => ⟨rfl, fun _ h => absurd h List.not_mem_nil⟩
theorem peerAccess (addr  : Nat) (write  : Bool) (data  : List Byte) : Statement (.peerAccess addr write data) := fun _ => ⟨rfl, fun _ h => absurd h List.not_mem_nil⟩
theorem pigeonholeExpiry : Statement (.pigeonholeExpiry) := fun _ => ⟨rfl, fun _ h => absurd h List.not_mem_nil⟩
theorem pendingGroupPlacement : Statement (.pendingGroupPlacement) := fun _ => ⟨rfl, fun _ h => absurd h List.not_mem_nil⟩
theorem leaseEnd : Statement (.leaseEnd) := fun _ => ⟨rfl, fun _ h => absurd h List.not_mem_nil⟩
theorem pathAgeLimit : Statement (.pathAgeLimit) := fun _ => ⟨rfl, fun _ h => absurd h List.not_mem_nil⟩
theorem holdCountLimit : Statement (.holdCountLimit) := fun _ => ⟨rfl, fun _ h => absurd h List.not_mem_nil⟩
theorem convergenceRelease : Statement (.convergenceRelease) := fun _ => ⟨rfl, fun _ h => absurd h List.not_mem_nil⟩
theorem rejoinRelease : Statement (.rejoinRelease) := fun _ => ⟨rfl, fun _ h => absurd h List.not_mem_nil⟩
theorem markerRelease : Statement (.markerRelease) := fun _ => ⟨rfl, fun _ h => absurd h List.not_mem_nil⟩
theorem resultLanding : Statement (.resultLanding) := fun _ => ⟨rfl, fun _ h => absurd h List.not_mem_nil⟩
theorem completionLanding : Statement (.completionLanding) := fun _ => ⟨rfl, fun _ h => absurd h List.not_mem_nil⟩
theorem kcwaitReturn : Statement (.kcwaitReturn) := fun _ => ⟨rfl, fun _ h => absurd h List.not_mem_nil⟩
theorem pmwaitReturn : Statement (.pmwaitReturn) := fun _ => ⟨rfl, fun _ h => absurd h List.not_mem_nil⟩
theorem monWaitReturn : Statement (.monWaitReturn) := fun _ => ⟨rfl, fun _ h => absurd h List.not_mem_nil⟩
theorem monWaitTimeout : Statement (.monWaitTimeout) := fun _ => ⟨rfl, fun _ h => absurd h List.not_mem_nil⟩
theorem napExpiry : Statement (.napExpiry) := fun _ => ⟨rfl, fun _ h => absurd h List.not_mem_nil⟩
theorem ringWaitReturn : Statement (.ringWaitReturn) := fun _ => ⟨rfl, fun _ h => absurd h List.not_mem_nil⟩
theorem ringPutRecord : Statement (.ringPutRecord) := fun _ => ⟨rfl, fun _ h => absurd h List.not_mem_nil⟩
theorem arrivalRecord : Statement (.arrivalRecord) := fun _ => ⟨rfl, fun _ h => absurd h List.not_mem_nil⟩
theorem barrierWaitReturn : Statement (.barrierWaitReturn) := fun _ => ⟨rfl, fun _ h => absurd h List.not_mem_nil⟩
theorem mbarWaitReturn : Statement (.mbarWaitReturn) := fun _ => ⟨rfl, fun _ h => absurd h List.not_mem_nil⟩
theorem spawnRelease : Statement (.spawnRelease) := fun _ => ⟨rfl, fun _ h => absurd h List.not_mem_nil⟩
theorem storePerform : Statement (.storePerform) := fun _ => ⟨rfl, fun _ h => absurd h List.not_mem_nil⟩
theorem pageWalkComplete : Statement (.pageWalkComplete) := fun _ => ⟨rfl, fun _ h => absurd h List.not_mem_nil⟩
theorem faultRecordWrite : Statement (.faultRecordWrite) := fun _ => ⟨rfl, fun _ h => absurd h List.not_mem_nil⟩
theorem streamTrapDelivery : Statement (.streamTrapDelivery) := fun _ => ⟨rfl, fun _ h => absurd h List.not_mem_nil⟩
theorem migrationComplete : Statement (.migrationComplete) := fun _ => ⟨rfl, fun _ h => absurd h List.not_mem_nil⟩
theorem courierStart : Statement (.courierStart) := fun _ => ⟨rfl, fun _ h => absurd h List.not_mem_nil⟩
theorem runaheadStart : Statement (.runaheadStart) := fun _ => ⟨rfl, fun _ h => absurd h List.not_mem_nil⟩
theorem copyInEnd : Statement (.copyInEnd) := fun _ => ⟨rfl, fun _ h => absurd h List.not_mem_nil⟩
theorem copyOutEnd : Statement (.copyOutEnd) := fun _ => ⟨rfl, fun _ h => absurd h List.not_mem_nil⟩
theorem mloadComplete : Statement (.mloadComplete) := fun _ => ⟨rfl, fun _ h => absurd h List.not_mem_nil⟩
theorem mstComplete : Statement (.mstComplete) := fun _ => ⟨rfl, fun _ h => absurd h List.not_mem_nil⟩
theorem sdecComplete : Statement (.sdecComplete) := fun _ => ⟨rfl, fun _ h => absurd h List.not_mem_nil⟩
theorem streamEnd : Statement (.streamEnd) := fun _ => ⟨rfl, fun _ h => absurd h List.not_mem_nil⟩
theorem groupEnd : Statement (.groupEnd) := fun _ => ⟨rfl, fun _ h => absurd h List.not_mem_nil⟩
theorem launchComplete : Statement (.launchComplete) := fun _ => ⟨rfl, fun _ h => absurd h List.not_mem_nil⟩
theorem anchorRead : Statement (.anchorRead) := fun _ => ⟨rfl, fun _ h => absurd h List.not_mem_nil⟩
theorem startTimeReached : Statement (.startTimeReached) := fun _ => ⟨rfl, fun _ h => absurd h List.not_mem_nil⟩
theorem deadlinePass : Statement (.deadlinePass) := fun _ => ⟨rfl, fun _ h => absurd h List.not_mem_nil⟩
theorem arbitration : Statement (.arbitration) := fun _ => ⟨rfl, fun _ h => absurd h List.not_mem_nil⟩
theorem gridRotation : Statement (.gridRotation) := fun _ => ⟨rfl, fun _ h => absurd h List.not_mem_nil⟩
theorem roundNotice : Statement (.roundNotice) := fun _ => ⟨rfl, fun _ h => absurd h List.not_mem_nil⟩
theorem stallPush : Statement (.stallPush) := fun _ => ⟨rfl, fun _ h => absurd h List.not_mem_nil⟩
theorem stallWatchTimeout : Statement (.stallWatchTimeout) := fun _ => ⟨rfl, fun _ h => absurd h List.not_mem_nil⟩
theorem lineFill : Statement (.lineFill) := fun _ => ⟨rfl, fun _ h => absurd h List.not_mem_nil⟩
theorem invalidation : Statement (.invalidation) := fun _ => ⟨rfl, fun _ h => absurd h List.not_mem_nil⟩
theorem privatisedMerge : Statement (.privatisedMerge) := fun _ => ⟨rfl, fun _ h => absurd h List.not_mem_nil⟩
theorem cardDrain : Statement (.cardDrain) := fun _ => ⟨rfl, fun _ h => absurd h List.not_mem_nil⟩
theorem stallEnd : Statement (.stallEnd) := fun _ => ⟨rfl, fun _ h => absurd h List.not_mem_nil⟩
theorem sampleCountdown : Statement (.sampleCountdown) := fun _ => ⟨rfl, fun _ h => absurd h List.not_mem_nil⟩
theorem counterAdd : Statement (.counterAdd) := fun _ => ⟨rfl, fun _ h => absurd h List.not_mem_nil⟩
theorem reservedOpcode (w e  : Word) : Statement (.reservedOpcode w e) := fun h => absurd h (by simp [Instr.wf])
theorem referenceRelock : Statement (.referenceRelock) := fun _ => ⟨rfl, fun _ h => absurd h List.not_mem_nil⟩
theorem replicaUpdate : Statement (.replicaUpdate) := fun _ => ⟨rfl, fun _ h => absurd h List.not_mem_nil⟩
theorem invalidationAcknowledged : Statement (.invalidationAcknowledged) := fun _ => ⟨rfl, fun _ h => absurd h List.not_mem_nil⟩

end Sys2Proof.Laws.Encoded
end

