-- ==== Sys2Proof/Laws/Step.lean ====
section
/-! SUPPORT. What one step can do: every instruction and every step leaves a state by a list of updates, or stops with a
fault. -/

namespace Sys2Proof.Machine

/-- An outcome that a list of updates makes. -/
def Updates (s : State) (o : Host.Outcome State Fault Refusal) : Prop :=
  (∃ us, o = .next (applyAll us s)) ∨ o = .fault .noIssuer ∨ o = .fault .noSuchAddress

theorem updates_commit (f : Eff) (s : State) : Updates s (commit f s) := .inl ⟨_, rfl⟩

theorem updates_next (s : State) : Updates s (.next s) := .inl ⟨[], rfl⟩

theorem updates_issueP (i : Instr) (p : Ctx → State → Bool) (b : Ctx → State → Res) (s : State) :
    Updates s (issueP i p b s) := by
  unfold issueP
  split
  · exact .inr (.inl rfl)
  · split
    · exact .inr (.inl rfl)
    · exact updates_commit _ s

theorem updates_issue (i : Instr) (b : Ctx → State → Res) (s : State) : Updates s (issue i b s) := updates_issueP _ _ _ s

/-- Updates from a state that updates have already made. -/
theorem Updates.after {s : State} {o : Host.Outcome State Fault Refusal} (us : List Upd) (h : Updates (applyAll us s) o) :
    Updates s o := by
  rcases h with ⟨vs, rfl⟩ | h
  · exact .inl ⟨us ++ vs, by simp⟩
  · exact .inr h

theorem updates_outside (host : Bool) (a : Nat) (w : Bool) (d : List Byte) (s : State) :
    Updates s (outsideAccess host a w d s) := by
  unfold outsideAccess
  split
  · exact updates_next s
  split
  · exact updates_commit _ s
  · exact .inr (.inr rfl)

theorem updates_peer (a : Nat) (w : Bool) (d : List Byte) (s : State) : Updates s (execPeerAccess a w d s) := by
  unfold execPeerAccess
  dsimp only
  split
  · split
    · exact updates_commit _ s
    · exact .inr (.inr rfl)
  · exact Updates.after _ (updates_outside false a w d _)

/-- Every instruction and event leaves its state by updates, or stops with one of the two faults. -/
theorem exec_updates (i : Instr) (s : State) : Updates s (exec i s) := by
  cases i
  case hostAccess a w d => exact updates_outside true a w d s
  case peerAccess a w d => exact updates_peer a w d s
  all_goals first
    | exact updates_issueP _ _ _ s
    | exact .inl ⟨_, rfl⟩

theorem updates_issuePath (a : Agent) (pc : DWord) (lanes : Word) (s : State) : Updates s (issuePath a pc lanes s) := by
  unfold issuePath
  split
  · exact updates_next s
  split
  · exact updates_next s
  split
  · exact updates_commit _ s
  split
  · exact updates_commit _ s
  · exact updates_commit _ s
  · exact updates_commit _ s
  · rename_i w e eff _
    dsimp only
    split
    · exact updates_commit _ s
    · have h := exec_updates (parse w.toNat e.toNat) (atWord a pc (goingLanes s a lanes (parse w.toNat e.toNat)) w e eff s)
      unfold atWord at h ⊢
      exact Updates.after _ h

/-- Every move leaves its state by updates, or stops. -/
theorem act_updates (m : Move) (s : State) : Updates s (act m s) := by
  cases m with
  | event i subj => exact Updates.after _ (exec_updates i _)
  | issue a pc lanes => exact Updates.after _ (updates_issuePath a pc lanes _)
  | turn p =>
    show Updates s (takeTurn p s)
    unfold takeTurn
    split
    · exact updates_next s
    · split
      · exact updates_commit _ s
      · exact Updates.after _ (updates_issuePath _ _ _ _)
  | hostWrite r v => exact updates_commit _ s
  | hostRead r => exact updates_commit _ s
  | load q text data img syms native => exact updates_commit _ s
  | evict what c key => exact updates_commit _ s
  | unit c n i => exact updates_commit _ s
  | row p i => exact updates_commit _ s
  | ahead p pc row => exact updates_commit _ s
  | device a bs => exact updates_commit _ s
  | idle => exact updates_next s

/-- Every step leaves its state by updates, or stops with one of the two faults. -/
theorem step_updates (s : State) : Updates s (step s) := by
  unfold step moveState
  have h := act_updates (takeMove s).1 (applyAll [.agenda (takeMove s).2, .ticks (takeTick s (takeMove s).1).2, .cur none] s)
  refine Updates.after [.agenda (takeMove s).2, .ticks (takeTick s (takeMove s).1).2, .cur none] ?_
  rcases h with ⟨us, h⟩ | h | h
  · rw [h]; exact .inl ⟨us ++ _, by rw [applyAll_append]; rfl⟩
  · rw [h]; exact .inr (.inl rfl)
  · rw [h]; exact .inr (.inr rfl)

/-- What every update keeps, every step keeps. -/
theorem step_induct {P : State → Prop} (h : ∀ u s, P s → P (Upd.apply u s)) {s t : State} (hs : P s) (hst : step s = .next t) : P t := by
  rcases step_updates s with ⟨us, hu⟩ | hu | hu
  · rw [hu] at hst
    cases hst
    exact applyAll_induct s us (fun u _ s => h u s) hs
  · rw [hu] at hst; cases hst
  · rw [hu] at hst; cases hst

end Sys2Proof.Machine
end

