-- ==== Sys2Proof/Laws/Traps.lean ====
section
/-! SUPPORT. What taking a trap comes to (R369 to R373). -/

namespace Sys2Proof.Machine

theorem interruptWait_regs (u : UCtx) : (interruptWait u).1.regs = u.regs ∧ (interruptWait u).1.outs = u.outs := by
  unfold interruptWait
  split
  · split
    · dsimp only; split <;> exact ⟨rfl, rfl⟩
    · exact ⟨rfl, rfl⟩
    · exact ⟨rfl, rfl⟩
  · exact ⟨rfl, rfl⟩

theorem settle_regs (u : UCtx) (n : Nat) (h : u.outs = []) : (settle u n).regs = u.regs := by
  simp [settle, landAll, h]

theorem mfind_map_pair (f : Nat → DWord) (ls : List Nat) (l : Nat) (h : l ∈ ls) : mfind (ls.map (fun l => (l, f l))) l = some (f l) := by
  induction ls with
  | nil => cases h
  | cons a as ih =>
    by_cases ha : a = l
    · subst ha; simp [mfind]
    · have : l ∈ as := by simpa [Ne.symm ha] using h
      simpa [mfind, ha] using ih this

theorem mget_held (f : Nat → DWord) (m : Word) (l : Nat) (hl : l < 32) (hm : inMask m l = true) :
    mget 0 ((lanesOf m).map (fun l => (l, f l))) l = f l := by
  simp [mget, mfind_map_pair f _ l ((mem_lanesOf m l).2 ⟨hl, hm⟩)]

/-- A group written, then an operation that touches no agent. -/
theorem group_then_framed {xs : List Comp} {e : Eff} (h : Framed xs e) (k n : Nat) (G : Group) (s : State) :
    ∀ s1, s1 = applyAll [Upd.group k G, Upd.fresh n] s →
      mfind (applyAll (e s1) s1).groups k = some G ∧ (∀ q, q ≠ k → mfind (applyAll (e s1) s1).groups q = mfind s.groups q) ∧
      (applyAll (e s1) s1).streams = s.streams ∧ Same xs s (applyAll (e s1) s1) := by
  intro s1 hs1
  have g1 : s1.groups = mput s.groups k G := by rw [hs1]; rfl
  have w1 : Same [] s s1 := by rw [hs1]; intro x _; cases x <;> rfl
  refine ⟨by rw [h.groups, g1]; simp, fun q hq => ?_, by rw [h.streams, hs1]; rfl, (w1.mono (by simp)).trans (h.same s1)⟩
  rw [h.groups, g1, mfind_mput_other _ _ _ _ hq]

/-- A trap of a group whose bank S is free is taken. -/
theorem raise_trapped (c : Ctx) (t : TrapReq) (s : State) (g : Group) (hs : c.strm = false) (hg : mfind s.groups c.key = some g)
    (hb : g.tr.bankS.active = false) (hc : c.core = coreOfG c.key ∧ c.part = partOfG c.key % 4 ∧ c.slot = slotOfG c.key) :
    ∃ h, mfind (applyAll (raise c t Eff.nop s) s).groups c.key = some h ∧
      Trapped c s (applyAll (raise c t Eff.nop s) s) t.cause t.addr t.lane g h := by
  have he : applyAll (raise c t Eff.nop s) s = applyAll (takeTrap c.key false c.lanes c.pc c.next t s) s := by
    simp only [raise, hs, Bool.false_eq_true, if_false, applyAll_seq]; rfl
  rw [he]
  unfold takeTrap
  simp only [hg, hb, Bool.false_eq_true, if_false, applyAll_seq]
  have hfr := framed_emit (coreSrc (coreOfG c.key) (partOfG c.key % 4) 0) 2 t.lane (slotOfG c.key) (frankOfBlk s g.blk)
    (BitVec.ofNat 64 ((trapTo g s.idn.stvec t.cause t.addr).cause + (trapTo g s.idn.stvec t.cause t.addr).retry.toNat * 2 ^ 8 +
      false.toNat * 2 ^ 9)) c.pc
  have hk := fun G => group_then_framed hfr c.key (s.fresh + 1) G s _ rfl
  refine ⟨_, (hk _).1, ?_⟩
  obtain ⟨c1, c2, c3⟩ := hc
  refine ⟨?_, ?_, ?_, ?_, ?_, ?_, ?_, ?_, ?_, ?_⟩
  · dsimp only
    cases hsys : (trapTo g s.idn.stvec t.cause t.addr).sys <;>
      simp [c1, c2, c3, sysMode, hb]
  · dsimp only
    cases hsys : (trapTo g s.idn.stvec t.cause t.addr).sys <;> simp
  · dsimp only
    cases hsys : (trapTo g s.idn.stvec t.cause t.addr).sys <;> simp
  · intro l hl
    simp only [mget_foldl_mset, mem_lanesOf, hl, true_and]
  · have hfs : ∀ (b : Bool) (x y : TrapCtx), x.frames = y.frames → (if b = true then x else y).frames = x.frames := by
      intro b x y hxy; cases b <;> simp [hxy]
    refine ⟨_, hfs _ _ _ rfl, rfl, rfl, rfl, rfl, fun l hl hm => mget_held _ _ l hl hm, rfl⟩
  · intro h
    have := interruptWait_regs g.u
    show (settle (interruptWait g.u).1 s.fresh).regs = _
    rw [settle_regs _ _ (this.2.trans h), this.1]
  · exact ⟨rfl, rfl, rfl, rfl⟩
  · exact (hk _).2.2.2
  · exact (hk _).2.1
  · exact (hk _).2.2.1

theorem ctxHere_places {i : Instr} {s : State} {c : Ctx} (h : ctxHere i s = some c) (hs : c.strm = false) :
    c.core = coreOfG c.key ∧ c.part = partOfG c.key % 4 ∧ c.slot = slotOfG c.key := by
  obtain ⟨iss, _, h⟩ := ctxHere_iss h
  unfold ctxOf at h
  dsimp only at h
  repeat' split at h
  all_goals cases h
  all_goals first
    | exact ⟨rfl, rfl, rfl⟩
    | cases hs

/-- A word of a group whose body traps with no effect of its own, bank S free: the trap is taken. -/
theorem issue_trapped {i : Instr} {prof : Ctx → State → Bool} {body : Ctx → State → Res} {s : State} {c : Ctx} {cause lane : Nat}
    {addr : DWord} {g : Group} (h : Issues i prof s c) (hr : trapRoom s c = true) (hs : c.strm = false)
    (hb : body c s = .trap cause addr lane Eff.nop) (hg : mfind s.groups c.key = some g) (hn : g.tr.bankS.active = false) :
    ∃ t, issueP i prof body s = .next t ∧ ∃ k, mfind t.groups c.key = some k ∧ Trapped c s t cause addr lane g k :=
  ⟨_, issue_trap h hr hb, raise_trapped c { cause := cause, addr := addr, lane := lane } s g hs hg hn (ctxHere_places h.1 hs)⟩

end Sys2Proof.Machine
end

