-- ==== Sys2Proof/Tests/Slice0.lean ====
section
/-! SUPPORT. The model's own tests: ill-formed words refused, words written out from the spec's encodings, and for each
statement states that meet its hypotheses. -/

namespace Sys2Proof.Tests

open Sys2Proof Sys2Proof.Machine

set_option Elab.async false

/-! ## Words -/

/-- A lane word with its modifier word. -/
def ln (d : Dst) (a b : Src) (ty : Ty) (c : BitVec 8 := 0) (q : BitVec 12 := 0) : LaneW :=
  { s := false, x := true, d := d, a := a, b := b, c := c, g := 7, gn := false, ty := ty, q := q }

/-- A lane word without one. -/
def l0 (d : Dst) (a b : Src) (ty : Ty) : LaneW := { ln d a b ty with x := false }

/-- A word that writes a predicate. -/
def pw (d : BitVec 7) (a b : Src) (ty : Ty) : PredW :=
  { s := false, x := true, d := d, a := a, b := b, c := 0, g := 7, gn := false, ty := ty, q := 0 }

/-- A word of predicate logic. -/
def pl (d : BitVec 7) (a b : BitVec 8) : PLogW :=
  { s := false, x := true, d := d, a := a, b := b, c := 0, g := 7, gn := false, ty := .i32, q := 0 }

/-- A uniform word, and one with its extension word. -/
def un (d a : UFld) (b : UB) : UniW := { s := false, x := false, d := d, a := a, b := b, e := 0 }
def ux (d a : UFld) (b : UB) (e : Word) : UniW := { un d a b with x := true, e := e }

/-- A branch word. -/
def br (disp : BitVec 19) : BraW := { s := false, x := false, g := 7, gn := false, disp := disp, e := 0 }

/-- Field B that holds 0. -/
def z : UB := .fld (.k 0)

/-! ## Illegal words: one term for each check -/

/-- The checks common to lane forms, and of their fields (R27 to R38). -/
def illegalLane : List Instr :=
  [.add { ln (.v 2) (.v 0) (.v 1) .i32 with gn := true },
   .add (ln (.v 2) (.v 0) (.v 1) .f32), .add (ln (.v 2) (.v 0) (.v 1) .i32 0 0x400),
   .add { ln (.v 2) (.v 0) (.v 1) .i64 with x := false }, .sub (l0 (.v 2) (.v 0) (.v 1) .i32),
   .add (ln (.v 2) (.reserved 0) (.v 1) .i32), .add (ln (.v 2) (.v 1) (.v 0) .i64), .add (ln (.v 2) (.q 1) (.v 0) .i64),
   .fadd (ln (.v 2) (.special 2) (.v 1) .f32), .add (ln (.v 2) (.imm 15) (.v 1) .n32), .add (ln (.v 3) (.v 0) (.v 2) .i64),
   .add (ln (.v 2) (.v 0) (.v 1) .i32 1), .mad (ln (.v 2) (.v 0) (.v 1) .i32 172), .clz (ln (.v 2) (.v 0) (.v 1) .n32),
   .shl (ln (.v 2) (.v 0) (.imm 15) .n32), .bfx (ln (.v 2) (.v 0) (.v 1) .n32 172), .addc (ln (.v 2) (.v 0) (.v 1) .i32 7),
   .lea (ln (.v 2) (.v 0) (.v 4) .n64 128), .cmp 10 (pw 0 (.v 0) (.v 1) .i32), .cmp 0 (pw 7 (.v 0) (.v 1) .i32),
   .sel (ln (.v 2) (.v 0) (.v 1) .n32 8), .movk { s := false, x := true, d := .v 0, a := 64, b := 0, c := 0, g := 7, gn := false, ty := .n32, q := 0 },
   .pand (pl 0 8 0), .pnot (pl 0 0 1), .fcmp 14 (pw 0 (.v 0) (.v 1) .f32), .fadd (ln (.v 2) (.v 0) (.v 1) .f32 0 0x600),
   .fex2 (ln (.v 2) (.v 0) (.v 0) .f64), .dot2 (ln (.v 2) (.v 0) (.v 1) .f32), .cvtFf (ln (.v 2) (.v 0) (.v 1) .f32 0),
   .cvtFf (ln (.v 2) (.v 0) (.v 1) .f32 16), .cvtIi (ln (.v 2) (.v 0) (.v 1) .i32), .cvtxPack (ln (.v 2) (.v 0) (.v 1) .xf 8),
   .pack2 (ln (.v 2) (.v 0) (.v 1) .f16x2 1), .fclass (ln (.v 2) (.v 0) (.v 0) .f32 1), .bscl (ln (.v 2) (.v 0) (.v 1) .f32),
   .bra { br 1 with x := true }, .bra { br 1 with gn := true }, .brx (ln (.v 2) (.v 0) (.v 0) .n64), .brx (ln (.v 0) (.v 1) (.v 0) .n64),
   .ret (ln (.v 0) (.v 2) (.v 0) .n64), .brk (ln (.v 0) (.v 0) (.imm 15) .n64), .voteAny (pw 0 (.v 0) (.v 1) .i32),
   .voteBal (ln (.v 2) (.v 0) (.v 0) .i32), .shflIdx (ln (.v 2) (.v 0) (.v 1) .n32 8), .shflIdx (ln (.v 2) (.v 0) (.v 1) .f32),
   .redux 6 (ln (.v 2) (.v 0) (.v 0) .i32), .redux 8 (ln (.v 2) (.v 0) (.v 0) .i32), .redux 1 (ln (.v 2) (.v 0) (.v 0) .i32 0 0x800),
   .spawn (ln (.v 0) (.v 10) (.v 21) .n64 135), .phflush (ln (.v 0) (.v 10) (.v 0) .n64 1), .ld (ln (.v 4) (.imm 16) (.imm 16) .n32),
   .ld (ln (.v 4) (.v 2) (.imm 16) .n32 0 0x400), .ld (ln (.v 4) (.v 2) (.imm 16) .n32 0 0x840), .ld (ln (.v 4) (.v 2) (.imm 16) .n32 0 0x001),
   .st (ln (.v 1) (.v 2) (.imm 16) .n32 6), .atom 7 (ln (.v 4) (.v 2) (.imm 16) .n32 6), .atom 0 (ln (.v 4) (.v 2) (.imm 16) .n32 6 1),
   .cas (ln (.v 4) (.v 2) (.imm 16) .f32 6), .prf (ln (.v 0) (.v 2) (.imm 16) .i32 0 0x030), .mtov (ln (.v 4) (.imm 16) (.imm 16) .n64),
   .mvtot (ln (.v 4) (.imm 16) (.imm 16) .f32 6)]

/-- The checks of uniform forms (R39 to R44 and the chapter of each form). -/
def illegalUniform : List Instr :=
  [.kadd (un (.kc 0) (.k 0) z), .kmov (un (.k 0) (.k 1) (.fld (.k 1))), .kmov (ux (.k 0) (.k 1) z 1), .kadd (ux (.k 0) (.k 1) (.fld (.k 1)) 1),
   .kcmp (ux (.k 0) (.k 1) z 0x070), .kcmp (ux (.k 0) (.k 1) z 0x00B), .kcmp (ux (.k 1) (.k 1) z 0), .ksel (ux (.k 0) (.k 1) z 0x10),
   .kmovi (un (.k 0) (.k 1) z), .lcset (un (.k 0) (.k 1) z), .lcset (ux (.lm 0) (.k 1) z 1), .lcstep (un (.lm 0) (.k 0) z),
   .kcset (un (.k 0) (.k 0) z), .kcwait (un (.k 0) (.k 1) z), .kfmtSet (ux (.k 0) (.k 1) z 1), .kfmtSetPreset (ux (.k 0) (.k 0) z 0x80),
   .kfmtSetSeed (ux (.k 0) (.k 0) z 0x101), .kfmtGet (un (.k 0) (.k 1) z), .kbra (un (.k 0) (.k 15) z), .kret (un (.k 1) (.k 0) z),
   .obres (ux (.k 0) (.k 0) z 1), .obfree (un (.k 1) (.k 0) z), .mload (ux (.k 0) (.k 1) z 0), .mloadx (ux (.k 0) (.k 2) z 0x1400),
   .mma (ux (.k 0) (.k 0) z 0x40000), .mma (ux (.k 0) (.k 0) z 0x7000), .mzero (un (.k 0) (.imm 16) z), .macc (ux (.k 0) (.k 0) z 0x300000),
   .macc (ux (.k 0) (.k 1) z 0), .mst (ux (.k 0) (.k 2) z 0x1000000), .mst (ux (.k 0) (.k 2) z 0x700000), .mbarArr (un (.k 1) (.k 0) z),
   .mbarWait (un (.kc 0) (.k 0) z), .mseqGo (ux (.k 0) (.k 0) z 0x40), .mseqEnd (un (.k 0) (.k 1) z), .mrow (un (.k 0) (.imm 1) z),
   .mrowClr (un (.k 0) (.imm 0) z), .sdec (ux (.k 0) (.k 0) z 0x20000), .sdec (ux (.k 0) (.k 0) z 0x30000), .mmat (ux (.k 0) (.k 0) z 1),
   .sbound (un (.k 0) (.k 1) z), .sstat (un (.k 0) (.imm 1) z), .sstatClr (un (.k 0) (.imm 0) z), .lrec (ux (.k 0) (.k 60) z 0x0F),
   .lrec (ux (.k 0) (.k 0) z 0xF1), .lrecTap (ux (.k 0) (.k 1) z 0), .wbind (un (.k 1) (.k 0) z), .wunbind (un (.k 0) (.k 1) z),
   .wabs (un (.k 0) (.k 62) z), .wtouch (un (.k 0) (.k 1) z), .wstat (un (.k 0) (.imm 1) z), .wstatRead (un (.k 0) (.imm 0) z),
   .wstatClr (un (.k 0) (.imm 2) (.imm 64)), .pmwait (un (.k 0) (.k 1) z), .ringInit (ux (.k 0) (.k 0) z 0x200), .ringPut (un (.k 0) (.imm 8) z),
   .ringPutFree (un (.k 0) (.imm 7) z), .ringGet (un (.k 0) (.imm 8) z), .ringWait (un (.k 0) (.imm 0) (.imm 66)), .kld (un (.k 0) (.kc 0) z),
   .kst (un (.kc 0) (.k 0) z), .katom (ux (.k 0) (.k 0) z 0x70000000), .katom (ux (.k 0) (.k 0) z 0x034E0000), .katom (ux (.k 1) (.k 0) z 0x2E0000),
   .fence (ux (.k 0) (.k 0) z 0x30), .fence (ux (.k 0) (.k 0) z 13), .cwb (un (.k 0) (.kc 0) z), .monArm (un (.k 0) (.k 0) (.imm 68)),
   .monWait (un (.k 0) (.k 1) z), .tlbinv (ux (.k 0) (.k 0) z 0xC000), .tlbinv (ux (.k 0) (.k 1) z 0x10000), .pgmig (ux (.k 0) (.k 1) z 0x2000),
   .roundAdv (un (.k 0) (.imm 0) z), .roundGet (un (.kc 0) (.k 0) z), .roundFloor (un (.k 0) (.imm 0) z), .roundFloorClr (un (.k 0) (.imm 1) z),
   .barArr (un (.k 1) (.k 0) z), .barWait (un (.kc 0) (.k 0) z), .rdtime (un (.k 0) (.k 1) z), .nap (un (.k 1) (.k 0) z),
   .post (un (.k 0) (.kc 0) z), .qreset (un (.k 0) (.k 1) z), .trap (un (.k 1) (.k 0) z), .mfs (un (.k 0) (.k 0) (.imm 63)),
   .mts (un (.k 0) (.k 0) (.imm 63)), .tsamp (ux (.k 0) (.k 0) z 0x8C00), .tsamp (ux (.k 0) (.k 0) z 0x0400), .cntrd (un (.kc 0) (.k 0) z),
   .cntcfgEvent (ux (.k 0) (.k 0) z 0x500), .cntcfgClear (ux (.k 0) (.k 0) z 0x1040), .cntcfgWrite (ux (.k 0) (.k 0) z 0x3000),
   .hint 0 (un (.k 0) (.k 0) z), .hint 15 (un (.k 0) (.k 0) z), .reservedOpcode 0x40000000 0]

/-- Every check refuses its ill-formed term. -/
theorem test_ill_formed : (illegalLane ++ illegalUniform).all (fun i => !i.wf) = true := by decide +kernel

/-! ## Words as the spec writes them out (02 to 19, 21, 22) -/

/-- A word and its extension or modifier word as decodeTableWord takes them. -/
def reads (w e : Nat) (i : Instr) : Bool := decodeTableWord (if bit w 29 then 64 else 32) (w + 2 ^ 32 * e) == some i

/-- Lane words: 02 R37, 04 R110, R117, R118, R123, 05 R143, R144, R147, R152, 10 R254, R264, R267, 13 R323. -/
theorem test_decode_lane :
    (reads 0x1017FFF0 0 (.bra { br 0x7FFF0 with g := 1 }) && reads 0x10F0001B 0 (.call (br 27)) &&
     reads 0x11000800 0 (.brx (l0 (.v 0) (.v 8) (.v 0) .n64)) && reads 0x31000000 0x00E70003 (.exit (ln (.v 0) (.v 0) (.v 0) .n64)) &&
     reads 0x31000000 0x00E70002 (.ret (ln (.v 0) (.v 0) (.v 0) .n64)) &&
     reads 0x328401C1 0x04E10003 (.shflXor (ln (.v 4) (.v 1) (.imm 17) .n32 4)) &&
     reads 0x13050200 0 (.redux 0 (l0 (.v 5) (.v 2) (.v 0) .i32)) && reads 0x1206A400 0 (.voteAny { pw 6 (.special 0) (.v 0) .i32 with x := false }) &&
     reads 0x34800A14 0x87E70000 (.spawn (ln (.v 0) (.v 10) (.v 20) .n64 135)) &&
     reads 0x248205C0 0x00E00002 (.cmp 2 (pw 2 (.v 5) (.imm 16) .i32)) && reads 0x44810CC3 0 (.cmp 0 { pw 1 (.v 12) (.imm 19) .i32 with s := true, x := false }) &&
     reads 0x288A0102 0x03E80000 (.ffma (ln (.v 10) (.v 1) (.v 2) .f32 3)) &&
     reads 0x2A120A07 0x00281000 (.fdiv { ln (.v 18) (.v 10) (.v 7) .f32 0 0x100 with g := 1 }) &&
     reads 0x66010101 0x00E00002 (.pxor { pl 1 1 1 with s := true }) && reads 0x60040002 0x01E00002 (.addc { ln (.v 4) (.v 0) (.v 2) .i32 1 with s := true }) &&
     reads 0x24029400 0x02E70000 (.lea (ln (.v 2) (.k 16) (.v 0) .n64 2)) && reads 0x5A8C0800 0 (.spt { l0 (.v 12) (.v 8) (.v 0) .n64 with s := true }) &&
     reads 0x3A8A0800 0x00E70001 (.spc (ln (.v 10) (.v 8) (.v 0) .n64)) && reads 0x1C14C3C0 0 (.mtov (l0 (.v 20) (.imm 19) (.imm 16) .f32)) &&
     reads 0x3C80C3C0 0x14E80000 (.mvtot (ln (.v 0) (.imm 19) (.imm 16) .f32 20)) && reads 0x180402C8 0 (.ld (l0 (.v 4) (.v 2) (.imm 24) .n32)) &&
     reads 0x380402C0 0x00E16000 (.ld (ln (.v 4) (.v 2) (.imm 16) .n32 0 0x600)) && reads 0x388002C0 0x06E1A400 (.st (ln (.v 0) (.v 2) (.imm 16) .n32 6 0xA40)) &&
     reads 0x390502C0 0xA5E10000 (.atom 0 (ln (.v 5) (.v 2) (.imm 16) .n32 165)) && reads 0x3B0402C0 0x00E10080 (.ldb (ln (.v 4) (.v 2) (.imm 16) .n32 0 8)))
      = true := by decide +kernel

/-- Uniform words: 02 R39, 03 R93, 04 R114, 05 R153, R155, R156, 07 R190 to R199, 08 R205 to R212, 09 R234 to R245. -/
theorem test_decode_uniform :
    (reads 0xA0028200 0x000186A0 (.kadd (ux (.k 5) (.k 2) z 0x186A0)) && reads 0xE1478E00 0x600 (.kxor { ux (.k 15) (.k 14) z 0x600 with s := true }) &&
     reads 0xA4800000 0x281 (.kfmtSetPreset (ux (.k 0) (.k 0) z 0x281)) && reads 0x84800400 0 (.kfmtSet (un (.k 0) (.k 4) z)) &&
     reads 0x84C3E100 0 (.kfmtGet (un (.k 7) (.imm 1) z)) && reads 0x850002B8 0 (.kbra (un (.k 0) (.k 2) (.imm 56))) &&
     reads 0x854007E1 0 (.kcall (un (.k 0) (.k 7) (.imm 97))) && reads 0xA28004CA 0x12 (.kcmp (ux (.k 0) (.k 4) (.imm 74) 0x12)) &&
     reads 0xA3A4E000 0x80000003 (.lcset (ux (.lc 1) (.imm 0) z 0x80000003)) && reads 0x87406300 0 (.mzero (un (.k 0) (.imm 3) z)) &&
     reads 0x87404900 0 (.mzero (un (.k 0) (.lc 1) z)) && reads 0xA7800700 0x20800000 (.macc (ux (.k 0) (.k 7) z 0x20800000)) &&
     reads 0x88006200 0 (.mbarArr (un (.k 0) (.imm 2) z)) && reads 0x8841E500 0 (.mbarWait (un (.k 3) (.imm 5) z)) &&
     reads 0xA8800A00 3 (.mseqGo (ux (.k 0) (.k 10) z 3)) && reads 0x89036000 0 (.mrow (un (.k 6) (.imm 0) z)) &&
     reads 0xAA0060C0 0x12D00000 (.sdec (ux (.k 0) (.imm 0) (.imm 64) 0x12D00000)) && reads 0x8AC00003 0 (.sbound (un (.k 0) (.k 0) (.fld (.k 3)))) &&
     reads 0xAA4060C0 0x23508000 (.mmat (ux (.k 0) (.imm 0) (.imm 64) 0x23508000)) && reads 0x8B016000 0 (.sstat (un (.k 2) (.imm 0) z)) &&
     reads 0xAC0000C2 0xF (.lrec (ux (.k 0) (.k 0) (.imm 66) 0xF)) && reads 0xAC4000C1 0xFFFFFFFF (.lrecTap (ux (.k 0) (.k 0) (.imm 65) 0xFFFFFFFF)) &&
     reads 0x8C8006C2 0 (.wbind (un (.k 0) (.k 6) (.imm 66))) && reads 0x8CC000C2 0 (.wunbind (un (.k 0) (.k 0) (.imm 66))) &&
     reads 0x8D000C0B 0 (.wabs (un (.k 0) (.k 12) (.fld (.k 11)))) && reads 0x8D4780C2 0 (.wtouch (un (.k 15) (.k 0) (.imm 66))) &&
     reads 0x8DC1E100 0 (.wstatRead (un (.k 3) (.imm 1) z)) && reads 0x8E4800 0 (.add (l0 (.v 0) (.v 0) (.v 0) .i32)) == false &&
     reads 0xAE801400 1 (.ringInit (ux (.k 0) (.k 20) z 1)) && reads 0x8EC0600A 0 (.ringPut (un (.k 0) (.imm 0) (.fld (.k 10)))) &&
     reads 0x8F05E000 0 (.ringGet (un (.k 11) (.imm 0) z))) = true := by decide +kernel

/-- Uniform words: 10 R268 to R273, 11 R290, R291, 13 R325, 14 R337, R342, R343, 15 R366, R367, 16 R378, 17 R407, R408, 18 R415, R416,
19 R429, R430. -/
theorem test_decode_system :
    (reads 0x900282D0 0 (.kld (un (.k 5) (.k 2) (.imm 80))) && reads 0x904A16C0 0 (.kst (un (.k 20) (.k 22) (.imm 64))) &&
     reads 0xB0818207 0x000E0000 (.katom (ux (.k 3) (.k 2) (.fld (.k 7)) 0x000E0000)) && reads 0xB0C00000 0x28 (.fence (ux (.k 0) (.k 0) z 0x28)) &&
     reads 0x91000203 0 (.cwb (un (.k 0) (.k 2) (.fld (.k 3)))) && reads 0x91400203 0 (.cinv (un (.k 0) (.k 2) (.fld (.k 3)))) &&
     reads 0x918002C1 0 (.monArm (un (.k 0) (.k 2) (.imm 65))) && reads 0x91C4800A 0 (.monWait (un (.k 9) (.k 0) (.fld (.k 10)))) &&
     reads 0xB2000200 0x8000 (.tlbinv (ux (.k 0) (.k 2) z 0x8000)) && reads 0x92418405 0 (.pgmig (un (.k 3) (.k 4) (.fld (.k 5)))) &&
     reads 0x93018200 0 (.roundAdv (un (.k 3) (.k 2) z)) && reads 0x93428200 0 (.roundGet (un (.k 5) (.k 2) z)) &&
     reads 0x93830207 0 (.roundFloor (un (.k 6) (.k 2) (.fld (.k 7)))) && reads 0x93806000 0 (.roundFloorClr (un (.k 0) (.imm 0) z)) &&
     reads 0x94006300 0 (.barArr (un (.k 0) (.imm 3) z)) && reads 0x9441E300 0 (.barWait (un (.k 3) (.imm 3) z)) &&
     reads 0x9481E300 0 (.barSync (un (.k 3) (.imm 3) z)) && reads 0x94C1E300 0 (.barJoin (un (.k 3) (.imm 3) z)) &&
     reads 0x95006300 0 (.barLeave (un (.k 0) (.imm 3) z)) && reads 0x9541E300 0 (.barGen (un (.k 3) (.imm 3) z)) &&
     reads 0x95820000 0 (.rdtime (un (.k 4) (.k 0) z)) && reads 0x96000F00 0 (.nap (un (.k 0) (.k 15) z)) &&
     reads 0x970082C5 0 (.post (un (.k 1) (.k 2) (.imm 69))) && reads 0x974200C7 0 (.qreset (un (.k 4) (.k 0) (.imm 71))) &&
     reads 0xB8000000 0x3E8 (.trap (ux (.k 0) (.k 0) z 0x3E8)) && reads 0x98800000 0 (.eret (un (.k 0) (.k 0) z)) &&
     reads 0x990003CC 0 (.mts (un (.k 0) (.k 3) (.imm 76))) && reads 0x99400000 0 (.halt (un (.k 0) (.k 0) z)) &&
     reads 0xBA000000 0x1234 (.tmark (ux (.k 0) (.k 0) z 0x1234)) && reads 0xBA410000 0xAAC0 (.tsamp (ux (.k 2) (.k 0) z 0xAAC0)) &&
     reads 0x9A8263BF 0 (.cntrd (un (.k 4) (.imm 3) (.imm 63))) && reads 0xBAC06700 0x1003 (.cntcfgClear (ux (.k 0) (.imm 7) z 0x1003)) &&
     reads 0x9B000203 0 (.icinv (un (.k 0) (.k 2) (.fld (.k 3)))) && reads 0x9C0004E0 0 (.ipref (un (.k 0) (.k 4) (.imm 96))) &&
     reads 0xDFC00000 0 (.hint 15 (un (.k 0) (.k 0) z)) == false && reads 0x9FC00000 0 (.nop (un (.k 0) (.k 0) z))) = true := by decide +kernel


/-! ## States -/

/-- A word being issued at the placed address. -/
def issuing (a : Agent) : Issue := { agent := a, pc := 0x10000, lanes := (match a with | .group _ => BitVec.allOnes 32 | .stream _ => 0), word := 0, ext := 0 }

/-- A block of a privileged launch with a vector group, or with a stream besides, that issues a word: launch 0, block 1,
group 2 at place 0. -/
def grp : State := { placeWord State.reset 0 with cur := some (issuing (.group 0)), agenda := [] }
def strm : State := { placeWord State.reset 0x86000000 with cur := some (issuing (.stream 0)), agenda := [] }

/-- The same with another group, stream or block. -/
def onG (f : Group → Group) (s : State) : State := { s with groups := s.groups.map (fun e => (e.1, f e.2)) }
def onS (f : Stream → Stream) (s : State) : State := { s with streams := s.streams.map (fun e => (e.1, f e.2)) }
def onB (f : Block → Block) (s : State) : State := { s with blocks := s.blocks.map (fun e => (e.1, f e.2)) }
def onM (f : Matrix → Matrix) (s : State) : State := onB (fun b => { b with mat := b.mat.map f }) s
def userG (s : State) : State := onG (fun g => { g with tr := { g.tr with privMode := false } }) s
def copyG (s : State) : State := onG (fun g => { g with vector := false }) s
def withK (k : Map DWord) (s : State) : State :=
  onS (fun g => { g with u := { g.u with regs := { g.u.regs with u := { g.u.regs.u with k := k } } } })
    (onG (fun g => { g with u := { g.u with regs := { g.u.regs with u := { g.u.regs.u with k := k } } } }) s)

/-- The same state with a subject, at a cycle and a time. -/
def about (l : List Nat) (s : State) : State := { s with subj := l }
def later (s : State) : State := { s with clk := { s.clk with cyc := 2048, time := 2 ^ 30 } }

/-! ## From tests to witnesses -/

/-- A test of noStall, noPrivate and noneHeld. -/
def calm (s : State) : Bool := s.trace.sessions.all (fun e => !(sessOpen e.2 && sessReg e.2)) && s.clusters.all (fun e => e.2.held.isEmpty)
def unheld (s : State) : Bool := s.coh.dirs.all (fun e => e.2.priv.isEmpty) && s.coh.homeq.isEmpty

theorem mfind_mem {β : Type} (m : Map β) (n : Nat) (v : β) (h : mfind m n = some v) : (n, v) ∈ m := by
  induction m with
  | nil => cases h
  | cons e m ih =>
    obtain ⟨k, w⟩ := e
    simp only [mfind] at h
    split at h
    · simp_all
    · exact List.mem_cons_of_mem _ (ih h)

theorem calm_noStall (s : State) (h : calm s = true) : noStall s := by
  simp only [calm, Bool.and_eq_true, List.all_eq_true, Bool.not_eq_true', Bool.and_eq_false_iff, List.isEmpty_iff] at h
  refine ⟨fun e he ⟨ho, hr⟩ => by rcases h.1 e he with h | h <;> simp_all, fun cl => ?_⟩
  unfold getCluster mget
  split
  · rename_i v hv
    exact h.2 _ (mfind_mem _ _ _ hv)
  · rfl

theorem unheld_noneHeld (s : State) (h : unheld s = true) : noneHeld s := by
  simpa [unheld, noneHeld, noPrivate, List.all_eq_true] using h

/-- A word issues and its issuer passes a test. -/
def holds (prof : Ctx → State → Bool) (i : Instr) (s : State) (f : Ctx → Bool) : Bool :=
  match ctxHere i s with
  | some c => passes i prof s c && f c
  | none => false

theorem ctx_of {prof : Ctx → State → Bool} {i : Instr} {s : State} {P : Ctx → Prop} [DecidablePred P]
    (h : holds prof i s (fun c => decide (P c)) = true) : ∃ c, Issues i prof s c ∧ P c := by
  unfold holds at h
  split at h
  · rename_i c hc
    simp only [Bool.and_eq_true, decide_eq_true_eq] at h
    exact ⟨c, ⟨hc, h.1⟩, h.2⟩
  · cases h

/-- Every word of a list issues in its state with a result. -/
theorem each_of {α : Type} {prof : Instr → Ctx → State → Bool} {s : Instr → State} {f : Instr → Ctx → Option α} {l : List Instr}
    (h : (l.all fun i => holds (prof i) i (s i) (fun c => (f i c).isSome)) = true) :
    ∀ i ∈ l, ∃ c r, Issues i (prof i) (s i) c ∧ f i c = some r := by
  intro i hi
  obtain ⟨c, hc, hp⟩ := ctx_of (P := fun c => (f i c).isSome = true)
    (by simpa using (List.all_eq_true.mp h) i hi)
  obtain ⟨r, hr⟩ := Option.isSome_iff_exists.mp hp
  exact ⟨c, r, hc, hr⟩

/-- The same with a property of the issuer and the result. -/
theorem each_with {α : Type} {prof : Instr → Ctx → State → Bool} {s : Instr → State} {f : Instr → Ctx → Option α} {l : List Instr}
    {P : Instr → Ctx → α → Prop} [∀ i c r, Decidable (P i c r)]
    (h : (l.all fun i => holds (prof i) i (s i) (fun c => (f i c).any (fun r => decide (P i c r)))) = true) :
    ∀ i ∈ l, ∃ c r, Issues i (prof i) (s i) c ∧ f i c = some r ∧ P i c r := by
  intro i hi
  obtain ⟨c, hc, hp⟩ := ctx_of (P := fun c => (f i c).any (fun r => decide (P i c r)) = true)
    (by simpa using (List.all_eq_true.mp h) i hi)
  cases hr : f i c with
  | none => simp [hr] at hp
  | some r => exact ⟨c, r, hc, hr, by simpa [hr] using hp⟩

/-- Any property of the issuer for each word of a list. -/
theorem each_ctx {prof : Instr → Ctx → State → Bool} {s : Instr → State} {l : List Instr} {P : Instr → Ctx → Prop}
    [∀ i c, Decidable (P i c)] (h : (l.all fun i => holds (prof i) i (s i) (fun c => decide (P i c))) = true) :
    ∀ i ∈ l, ∃ c, Issues i (prof i) (s i) c ∧ P i c := by
  intro i hi
  exact ctx_of (P := P i) ((List.all_eq_true.mp h) i hi)

/-- Any property of the issuer of a word for each item of a list. -/
theorem each_mem {α : Type} {prof : Ctx → State → Bool} {i : α → Instr} {s : α → State} {l : List α} {P : α → Ctx → Prop}
    [∀ x c, Decidable (P x c)] (h : (l.all fun x => holds prof (i x) (s x) (fun c => decide (P x c))) = true) :
    ∀ x ∈ l, ∃ c, Issues (i x) prof (s x) c ∧ P x c := by
  intro x hx
  exact ctx_of (P := P x) ((List.all_eq_true.mp h) x hx)

/-- The profile and the state that do for every word of a list. -/
def any1 (_ : Instr) : Ctx → State → Bool := anyProfile
def inG (_ : Instr) : State := grp
def inS (_ : Instr) : State := strm

/-! ## Lane words -/

/-- The integer lane forms. -/
def intForms : List Instr :=
  ([Instr.add, .sub, .mul, .mulhi, .mad, .madhi, .min, .max, .and, .or, .xor, .andn, .shl, .shr, .sar, .rot, .bfx, .bfi] :
    List (LaneW → Instr)).map (fun f => f (ln (.v 2) (.v 0) (.imm 17) .i64)) ++
  [.clz (ln (.v 2) (.v 0) (.v 0) .n32), .popc (ln (.q 2) (.v 0) (.v 0) .n8), .brev (ln (.v 2) (.k 0) (.v 0) .n16),
   .lea (ln (.v 2) (.v 0) (.v 4) .n64 67), .sel (ln (.v 2) (.v 0) (.v 1) .f32 3), .mov (ln (.v 110) (.special 2) (.v 0) .n64),
   .movk { s := false, x := true, d := .v 4, a := 63, b := 0, c := 0, g := 7, gn := false, ty := .n64, q := 0 }]

theorem test_lane_integer : ∀ i ∈ intForms, ∃ c r, Issues i (any1 i) (inG i) c ∧ intResult c i = some r :=
  each_of (f := fun i c => intResult c i) (by decide +kernel)

/-- A word of one lane guard fails too: with p0 = 0 no lane is written. -/
theorem test_lane_guarded : ∃ c, Issues (.add { ln (.v 2) (.v 0) (.v 1) .i32 with g := 0 }) anyProfile grp c ∧ c.active 0 false = 0 :=
  ctx_of (by decide +kernel)

theorem test_carry : ∀ i ∈ [Instr.addc (ln (.v 2) (.v 0) (.v 1) .i32 6), .subb (ln (.v 2) (.v 0) (.v 4) .n64 0)],
    ∃ c r, Issues i (any1 i) (inG i) c ∧ carryResult c i = some r :=
  each_of (f := fun i c => carryResult c i) (by decide +kernel)

theorem test_division : ∀ i ∈ [Instr.div (ln (.v 2) (.v 0) (.imm 15) .i32), .rem (ln (.v 2) (.v 0) (.k 5) .i64)],
    ∃ c r, Issues i (any1 i) (withK [(5, 0xFFFFFFFFFFFFFFFF)] grp) c ∧ divResult i = some r ∧
      ∀ l, l < 32 → inMask (c.active r.1.g r.1.gn) l = true → c.intB r.1 l ≠ 0 :=
  each_with (f := fun i _ => divResult i) (by decide +kernel)

/-- A divisor of 0 in the last lane alone. -/
def lastZero : State :=
  onG (fun g => { g with u := { g.u with regs := { g.u.regs with l := { g.u.regs.l with v := (List.range 31).map (fun l => (32 + l, 1)) } } } }) grp

theorem test_division_by_zero : ∀ i ∈ [Instr.div (ln (.v 2) (.v 0) (.v 1) .i32), .rem (ln (.v 2) (.v 0) (.v 1) .n32)],
    ∃ c r, Issues i (any1 i) lastZero c ∧ divResult i = some r ∧ (c.strm = false ∧ trapRoom lastZero c = true ∧
      inMask (c.active r.1.g r.1.gn) 31 = true ∧ c.intB r.1 31 = 0 ∧
      (∀ k, k < 31 → inMask (c.active r.1.g r.1.gn) k = true → c.intB r.1 k ≠ 0) ∧
      (mfind lastZero.groups c.key).any (fun g => !g.tr.bankS.active) = true) :=
  each_with (f := fun i _ => divResult i) (by decide +kernel)

/-- The forms that set a predicate. -/
def predForms : List Instr :=
  [.cmp 0 (pw 0 (.v 0) (.v 1) .i32), .cmp 9 (pw 6 (.v 0) (.imm 0) .i8), .fcmp 13 (pw 2 (.v 0) (.v 1) .f16), .pand (pl 0 1 7), .por (pl 6 0 0),
   .pxor (pl 1 1 1), .pnot (pl 1 1 0), .voteAny (pw 0 (.v 0) (.v 0) .i32), .voteAll (pw 6 (.special 2) (.v 0) .i32)]

theorem test_predicates : ∀ i ∈ predForms, ∃ c r, Issues i (any1 i) (inG i) c ∧ predResult c i = some r :=
  each_of (f := fun i c => predResult c i) (by decide +kernel)

/-- The floating forms and the conversions. -/
def floatForms : List Instr :=
  ([Instr.fadd, .fsub, .fmul, .ffma, .fmin, .fmax] : List (LaneW → Instr)).map (fun f => f (ln (.v 2) (.v 0) (.imm 17) .f16x2)) ++
  [.fdiv (ln (.v 2) (.v 0) (.v 4) .f64 0 0x21F), .frcp (ln (.v 2) (.v 0) (.v 0) .f32), .frsq (ln (.v 2) (.v 0) (.v 0) .f16),
   .fsqrt (ln (.v 2) (.v 0) (.v 0) .bf16), .fex2 (ln (.v 2) (.v 0) (.v 0) .f32), .flg2 (ln (.v 2) (.v 0) (.v 0) .f32),
   .fsin (ln (.v 2) (.v 0) (.v 0) .f16), .fcos (ln (.v 2) (.v 0) (.v 0) .bf16), .dot2 (ln (.v 2) (.v 0) (.v 1) .bf16x2 3),
   .hfma2 (ln (.v 2) (.v 0) (.v 1) .f16x2 3), .cvtFf (ln (.v 2) (.v 0) (.imm 16) .f64 9), .cvtFi (ln (.v 2) (.v 0) (.imm 16) .i8 11),
   .cvtIf (ln (.v 2) (.v 0) (.imm 16) .bf16 7), .cvtIi (ln (.v 2) (.v 0) (.v 0) .n8 6), .cvtxUnpack (ln (.v 2) (.v 0) (.v 1) .xf 7),
   .pack2 (ln (.v 2) (.v 0) (.v 1) .bf16x2), .fclass (ln (.v 2) (.v 0) (.v 0) .xf 1), .bscl (ln (.v 2) (.v 0) (.v 0) .f32 1)]

theorem test_floats : ∀ i ∈ floatForms, ∃ c r, Issues i (any1 i) (inG i) c ∧ floatResult c grp i = some r :=
  each_of (f := fun i c => floatResult c grp i) (by decide +kernel)

theorem test_packing : ∀ i ∈ [Instr.cvtxPack (ln (.v 2) (.v 0) (.v 1) .xf 0), .qblk (ln (.v 2) (.v 0) (.v 1) .xf 7)],
    ∃ c r, Issues i (any1 i) (inG i) c ∧ xfResult c i = some r :=
  each_of (f := fun i c => xfResult c i) (by decide +kernel)

/-! ## Control -/

theorem test_branches : ∀ i ∈ [Instr.bra (br 0x40000), .brx (ln (.v 0) (.k 31) (.v 0) .n64), .kbra (un (.k 0) (.k 7) (.imm 0)), .kbra (un (.k 0) (.k 0) z)],
    ∃ c r, Issues i (any1 i) (inG i) c ∧ branchResult c i = some r :=
  each_of (f := fun i c => branchResult c i) (by decide +kernel)

/-- Lanes that hold fifteen return addresses, all a stack can hold but one. -/
def called : State := onG (fun g => { g with sched := { g.sched with rs := (List.range 32).map (fun l => (l, List.replicate 15 0x20000)) } }) grp

theorem test_calls : ∀ i ∈ [Instr.call (br 3), .callx (ln (.v 0) (.k 31) (.v 0) .n64), .kcall (un (.k 0) (.k 7) z)],
    ∃ c r, Issues i (any1 i) called c ∧ callResult c i = some r ∧ ∀ l ∈ lanesOf r.1, (stackOf c called l).length < 16 :=
  each_with (f := fun i c => callResult c i) (by decide +kernel)

theorem test_returns : ∀ i ∈ [Instr.ret (ln (.v 0) (.v 0) (.v 0) .n64), .kret (un (.k 0) (.k 0) z)],
    ∃ c r, Issues i (any1 i) called c ∧ returnLanes c i = some r ∧ ∀ l ∈ lanesOf r, stackOf c called l ≠ [] :=
  each_with (f := fun i c => returnLanes c i) (by decide +kernel)

theorem test_exit_yield : ∀ w ∈ [ln (.v 0) (.v 0) (.v 0) .n64], (∃ c, Issues (.exit w) anyProfile grp c) ∧
    ∃ c, Issues (.yield w) anyProfile grp c ∧ c.active w.g w.gn ≠ 0 := by
  intro w hw
  rw [List.mem_singleton.mp hw]
  exact ⟨(ctx_of (P := fun _ => True) (by decide +kernel)).imp fun _ h => h.1, ctx_of (by decide +kernel)⟩

/-- The forms that do nothing, in states where they do. -/
def quietForms : List Instr :=
  [.nop (un (.k 0) (.k 0) z), .hint 1 (un (.k 0) (.k 0) z), .hint 14 (un (.k 0) (.k 0) z), .rejoin (ln (.v 0) (.v 0) (.v 0) .n64),
   .brk { ln (.v 0) (.v 0) (.imm 16) .n64 with g := 0 }, .yield { ln (.v 0) (.v 0) (.v 0) .n64 with g := 6 },
   .kcall (un (.k 0) (.k 0) z), .nap (un (.k 0) (.imm 0) z), .fence (ux (.k 0) (.k 0) z 0x0), .fence (ux (.k 0) (.k 0) z 0x2C)]

theorem test_quiet : ∀ i ∈ quietForms, ∃ c, Issues i (any1 i) grp c ∧ quiet c grp i = true :=
  each_ctx (by decide +kernel)

/-! ## Traps -/

theorem test_traps : ∀ i ∈ [Instr.trap (ux (.k 0) (.k 0) z 0xFFFFFFFF), .sysc (un (.k 0) (.k 0) (.imm 0)), .brk (ln (.v 0) (.v 0) (.imm 79) .n64)],
    ∃ c r, Issues i (any1 i) (inG i) c ∧ trapForm c i = some r ∧ (c.strm = false ∧ trapRoom grp c = true ∧
      (mfind grp.groups c.key).any (fun g => !g.tr.bankS.active) = true) :=
  each_with (f := fun i c => trapForm c i) (by decide +kernel)

theorem test_reserved : (ctxHere (.reservedOpcode 0x4000000 0) grp).any (fun c => !c.strm && trapRoom grp c &&
    (mfind grp.groups c.key).any (fun g => !g.tr.bankS.active)) = true := by decide +kernel

/-- The stream of a launch in user mode. -/
def userS (_ : Instr) : State :=
  { strm with mail := { strm.mail with launches := strm.mail.launches.map (fun e => (e.1, { e.2 with priv := false })) } }

/-- A handler in progress at either level, or for a trap of the stream. -/
def handling (sys ofStream : Bool) : State :=
  onG (fun g => { g with tr := { g.tr with
    bankS := { active := sys, cause := 0x4000 }, bankU := { active := !sys }
    frames := [{ sys := sys, lanes := BitVec.allOnes 32, held := [], trap := if ofStream then 0 else 1, pc := 0x10000, next := 0x10004, strm := ofStream, wait := none }] } })
    (if ofStream then { strm with cur := some (issuing (.group 0)) } else grp)

theorem test_stream_traps : ∀ i ∈ [Instr.trap (un (.k 0) (.k 0) z), .mfs (un (.k 1) (.k 0) (.imm 94)), .kfmtSet (un (.k 0) (.special 1) z)],
    ∃ c r, Issues i (any1 i) (userS i) c ∧ preciseTrap c (userS i) i = some r ∧
      (c.strm = true ∧ trapRoom (userS i) c = true ∧ (hostGroup (userS i) c.blkId).isSome = true) :=
  each_with (f := fun i c => preciseTrap c (userS i) i) (by decide +kernel)

/-- A precise trap where none can be taken: of a stream whose block has no group, and in a handler of the system level. -/
theorem test_nest : ∀ s ∈ [{ strm with groups := [] }, handling true false],
    ∃ c, Issues (.trap (un (.k 0) (.k 0) z)) anyProfile s c ∧ ((preciseTrap c s (.trap (un (.k 0) (.k 0) z))).isSome = true ∧
      trapRoom s c = true ∧ (if c.strm then (hostGroup s c.blkId).isNone else (mfind s.groups c.key).any (fun g => g.tr.bankS.active)) = true ∧
      c.l.dying.isNone = true ∧ calm s = true) :=
  each_mem (i := fun _ => .trap (un (.k 0) (.k 0) z)) (s := fun s => s) (by decide +kernel)

theorem test_eret : ∀ x ∈ [(true, false), (false, false), (true, true), (false, true)],
    ∃ c, Issues (.eret (un (.k 0) (.k 0) z)) anyProfile (handling x.1 x.2) c ∧ (c.strm = false ∧
      (mfind (handling x.1 x.2).groups c.key).any (fun g => !g.tr.frames.isEmpty) = true ∧
      (x.2 = true → (streamOfBlk (handling x.1 x.2) c.blkId).isSome = true)) := by
  intro x hx
  refine ctx_of ?_
  revert x
  decide +kernel

/-! ## Collectives and uniform words -/

theorem test_shuffles : ∀ i ∈ ([Instr.shflIdx, .shflUp, .shflDn, .shflXor] : List (LaneW → Instr)).map (fun f => f (ln (.v 4) (.v 2) (.imm 47) .n64 7)),
    ∃ c r, Issues i (any1 i) (inG i) c ∧ shflFrom i = some r :=
  each_of (f := fun i _ => shflFrom i) (by decide +kernel)

theorem test_collectives : ∀ i ∈ [Instr.voteBal (ln (.v 2) (.v 0) (.v 0) .n32), .redux 0 (ln (.v 2) (.v 0) (.v 0) .i32 0 0x800),
      .scan 13 (ln (.v 2) (.v 0) (.v 0) .n64), .match_ (ln (.v 2) (.v 0) (.v 0) .i64), .spt (ln (.v 2) (.v 0) (.v 0) .n64),
      .spc (ln (.v 2) (.v 0) (.v 0) .n64), .mtov (ln (.v 2) (.imm 30) (.imm 47) .f64)],
    ∃ c r, Issues i (any1 i) (inG i) c ∧ collResult c i = some r :=
  each_of (f := fun i c => collResult c i) (by decide +kernel)

/-- A block with a window, a ring with a full slot and a barrier in which its group has arrived and whose generation is over. -/
def rich : State :=
  onG (fun g => { g with u := { g.u with arrived := [(3, 0)] } })
    (onB (fun b => { b with winN := 2, spSize := 8192, rings := [(0, { base := 0, ns := 2, pr := 1, p := 1 })]
                            nbars := [(3, { gen := 1, members := [4] })] }) grp)
def richS : State :=
  onS (fun g => { g with u := { g.u with arrived := [(3, 0)] } })
    (onB (fun b => { b with nbars := [(3, { gen := 1, members := [3] })] }) strm)

/-- The uniform forms with a value in kD and no other effect. -/
def uniForms : List Instr :=
  ([Instr.kadd, .ksub, .kmul, .kand, .kor, .kxor, .kshl, .kshr, .kmin, .kmax] : List (UniW → Instr)).map (fun f => f (un (.k 63) (.k 1) (.imm 0))) ++
  [.ksel (ux (.k 1) (.k 2) (.fld (.k 3)) 0xF), .kmov (un (.k 1) (.lm 3) z), .kmovi (ux (.k 1) (.k 0) z 0x80000000), .kfmtGet (un (.k 1) (.imm 7) z),
   .rdtime (un (.k 1) (.k 0) z), .rdcyc (un (.k 1) (.k 0) z), .mfs (un (.k 1) (.k 0) (.imm 65)), .cntrd (un (.k 1) (.imm 31) (.imm 63)),
   .wstat (un (.k 1) (.imm 0) (.imm 65)), .wstatRead (un (.k 1) (.imm 1) z), .barGen (un (.k 1) (.imm 3) z), .barWait (un (.k 1) (.imm 3) z),
   .ringWait (un (.k 1) (.imm 0) (.imm 64)), .ringWait (un (.k 1) (.imm 0) (.imm 65))]
def uniStreamForms : List Instr :=
  [.mbarWait (un (.k 1) (.imm 3) z), .mrow (un (.k 1) (.imm 0) z), .sstat (un (.k 1) (.imm 0) z)]

theorem test_uniform : ∀ i ∈ uniForms, ∃ c r, Issues i (any1 i) rich c ∧ uniResult c rich i = some r :=
  each_of (f := fun i c => uniResult c rich i) (by decide +kernel)

theorem test_uniform_stream : ∀ i ∈ uniStreamForms, ∃ c r, Issues i (any1 i) richS c ∧ uniResult c richS i = some r :=
  each_of (f := fun i c => uniResult c richS i) (by decide +kernel)

/-- The forms that write the other uniform files. -/
def fileForms : List Instr :=
  [.kcmp (ux (.k 0) (.k 1) z 0x36A), .lcset (ux (.lc 3) (.imm 5) z 0x80000003), .lcset (un (.lm 0) (.imm 0) z), .lcstep (un (.lc 0) (.k 0) (.imm 63)),
   .kcset (un (.kc 7) (.k 0) (.imm 127)), .kcwait (un (.k 1) (.kc 0) z), .kfmtSet (ux (.k 0) (.k 5) z 0xE00), .kfmtSetPreset (ux (.k 0) (.k 0) z 0x287),
   .kfmtSetSeed (ux (.k 0) (.imm 31) z 0x100)]

theorem test_uniform_files : ∀ i ∈ fileForms, ∃ c r, Issues i (any1 i) (withK [(5, 0x2841C341)] grp) c ∧ uniFiles c i = some r :=
  each_of (f := fun i c => uniFiles c i) (by decide +kernel)

/-- A format register whose image R78 forbids takes no seed and no preset makes it legal. -/
def badKf : State :=
  onG (fun g => { g with u := { g.u with regs := { g.u.regs with u := { g.u.regs.u with kf := [(0, 0xFFFFFFFF)] } } } }) grp

theorem test_kfmt_rejects :
    (∃ c, Issues (.kfmtSet (un (.k 0) (.special 1) z)) anyProfile grp c ∧ (trapRoom grp c = true ∧ c.strm = false ∧
      kfValid (BitVec.ofNat 64 (c.ua (un (.k 0) (.special 1) z))) = false ∧ (mfind grp.groups c.key).any (fun g => !g.tr.bankS.active) = true)) ∧
    ∃ c, Issues (.kfmtSetSeed (ux (.k 0) (.k 0) z 0x100)) anyProfile badKf c ∧ (trapRoom badKf c = true ∧ c.strm = false ∧
      kfValid (setFld (getKf c.u.regs.u 0) 63 32 (c.ua (ux (.k 0) (.k 0) z 0x100))) = false ∧
      (mfind badKf.groups c.key).any (fun g => !g.tr.bankS.active) = true) :=
  ⟨ctx_of (by decide +kernel), ctx_of (by decide +kernel)⟩

/-! ## Barriers -/

/-- Two parties complete a generation, in either order. -/
theorem test_generation : ∀ l ∈ [[(1, 4), (2, 9)], [(1, 9), (1, 4)]], (l.map (·.2)).Perm ({ members := [4, 9], mark := true } : Bar).members ∧
    (l.map (·.2)).Nodup ∧ ∀ e ∈ l, e.1 ≠ ({ members := [4, 9], mark := true } : Bar).now.cyc := by decide +kernel

/-- Barriers of the package and the block as the statements of arrivals need them: the group, party 4, is a member of number 1 alone,
of number 2 with another that has arrived, of cluster barrier 0; cluster barrier 1 is another launch's, 2 has an arrival. -/
def barred : State :=
  { onB (fun b => { b with nbars := [(1, { members := [4] }), (2, { members := [4, 9], arrived := [9] }), (3, { gen := 7, members := [4, 9] })] }) (later grp) with
    bars := [(0, { members := [4], holder := some 0 }), (1, { holder := some 9 }), (2, { members := [9], arrived := [9], holder := some 0 })] }
def barredQ : State := onG (fun g => { g with sq := [{ id := 1, kind := .store, rel := 0, items := [], frank := 0 }] }) barred
def arrived1 : State := onG (fun g => { g with u := { g.u with arrived := [(16, 0)] } }) { barred with
  bars := [(0, { members := [4, 9], arrived := [4], holder := some 0 })] }
def barredS : State := onB (fun b => { b with nbars := [(1, { members := [3, 4] })] }) strm

theorem test_membership : ∀ i ∈ [Instr.barJoin (un (.k 1) (.imm 1) z), .barJoin (un (.k 1) (.k 0) z), .barJoin (un (.k 1) (.k 1) z),
      .barJoin (un (.k 1) (.k 2) z), .barJoin (un (.k 1) (.k 3) z), .barLeave (un (.k 0) (.k 2) z)],
    ∃ c r, Issues i (any1 i) (withK [(0, 0x100), (1, 0x101), (2, 0x102), (3, 0x103)] barred) c ∧
      membership c (withK [(0, 0x100), (1, 0x101), (2, 0x102), (3, 0x103)] barred) i = some r :=
  each_of (f := fun i c => membership c (withK [(0, 0x100), (1, 0x101), (2, 0x102), (3, 0x103)] barred) i) (by decide +kernel)

theorem test_leave_arrived : ∃ c r, Issues (.barLeave (un (.k 0) (.k 0) z)) anyProfile (withK [(0, 0x100)] arrived1) c ∧
    membership c (withK [(0, 0x100)] arrived1) (.barLeave (un (.k 0) (.k 0) z)) = some r :=
  each_of (prof := any1) (s := fun _ => withK [(0, 0x100)] arrived1) (f := fun i c => membership c (withK [(0, 0x100)] arrived1) i)
    (l := [.barLeave (un (.k 0) (.k 0) z)]) (by decide +kernel) _ (List.mem_singleton_self _)

/-- What the arrival statement asks of the party besides the form. -/
def mayArrive (s : State) (c : Ctx) (key : Nat) : Bool :=
  (partyOf s c.iss.agent).any (fun x => !hasArrived s x key && x.u.pend.isEmpty) && calm s

theorem test_arrivals : ∀ s ∈ [withK [(0, 0x100)] barred, withK [(0, 0x100)] barredQ],
    ∀ i ∈ [Instr.barArr (un (.k 0) (.imm 1) z), .barArr (un (.k 0) (.imm 3) z), .barLeave (un (.k 0) (.k 0) z)],
    ∃ c r, Issues i (any1 i) s c ∧ arrivalForm c s i = some r ∧ mayArrive s c r.1 = true := by
  intro s hs i hi
  refine each_with (prof := any1) (s := fun _ => s) (f := fun i c => arrivalForm c s i) (P := fun _ c r => mayArrive s c r.1 = true)
    (l := [Instr.barArr (un (.k 0) (.imm 1) z), .barArr (un (.k 0) (.imm 3) z), .barLeave (un (.k 0) (.k 0) z)]) ?_ i hi
  revert s
  decide +kernel

theorem test_arrival_stream : ∃ c r, Issues (.mbarArr (un (.k 0) (.imm 1) z)) anyProfile barredS c ∧
    arrivalForm c barredS (.mbarArr (un (.k 0) (.imm 1) z)) = some r ∧ mayArrive barredS c r.1 = true :=
  each_with (prof := any1) (s := fun _ => barredS) (f := fun i c => arrivalForm c barredS i) (P := fun _ c r => mayArrive barredS c r.1 = true)
    (l := [.mbarArr (un (.k 0) (.imm 1) z)]) (by decide +kernel) _ (List.mem_singleton_self _)

theorem test_sync : ∃ c, Issues (.barSync (un (.k 1) (.imm 2) z)) anyProfile barred c ∧
    (barKeyOf c.core (c.ua (un (.k 1) (.imm 2) z)) = some 2 ∧ divergeTraps c = false ∧ mayArrive barred c 2 = true ∧
     (partyOf barred c.iss.agent).any (fun x => earlierDone barred x barred.nextId (barScope 2) &&
       mayReach c.cyc x.id (barAt barred c.blkId 2) &&
       (let n := nowAt c.cyc (barAt barred c.blkId 2)
        n.base.members.contains x.id && !n.base.early.contains x.id && barCompletes 2 { n with arrs := n.arrs ++ [x.id] })) = true) :=
  ctx_of (by decide +kernel)

/-! ## Windows and rings -/

/-- A layout record of a box of 64 bytes, and one of an image. -/
def layBytes : Map DWord := [(0, 0x10000), (1, 0x100), (2, 64), (9, 64)]
def layImage : Map DWord := [(1, 0x10400)]

/-- A copy group of a block with 8 KiB, two windows (0 in a given state) and a ring. -/
def windowed (w : Win) : State :=
  copyG (onB (fun b => { b with winN := 2, spSize := 8192, wins := [(0, w)]
                                rings := [(0, { base := 0, ns := 2, pr := 1, p := 1 }), (1, { base := 0, ns := 2, pr := 1, p := 1, a := 1 })] }) grp)
def winIn (st : WinState) : Win := { state := st, off := 0, size := 4096, stage := layBytes, layout := layBytes, seq := 65535 }

theorem test_window_recording :
    (∀ i ∈ [Instr.lrec (ux (.k 0) (.k 48) (.imm 65) 0xF), .lrec (un (.k 0) (.k 63) (.imm 64))], ∃ c r, Issues i (any1 i) (windowed {}) c ∧ windowForm c i = some r) ∧
    (∀ i ∈ [Instr.lrecTap (un (.k 0) (.k 0) (.imm 64))], ∃ c r, Issues i (any1 i) (windowed { winIn .present with layout := layImage }) c ∧ windowForm c i = some r) ∧
    ∀ i ∈ [Instr.wbind (un (.k 0) (.k 6) (.imm 64))],
      ∃ c r, Issues i (any1 i) (withK [(6, 0x100000000000)] (windowed { winIn .unbound with off := 0, size := 0 })) c ∧ windowForm c i = some r :=
  ⟨each_of (f := fun i c => windowForm c i) (by decide +kernel), each_of (f := fun i c => windowForm c i) (by decide +kernel),
   each_of (f := fun i c => windowForm c i) (by decide +kernel)⟩

/-- The block of a word, and a property of its window n. -/
def winHas (s : State) (c : Ctx) (n : Nat) (p : Win → Bool) : Bool :=
  (mfind s.blocks c.blkId).any (fun b => decide (b = c.blk) && decide (n < b.winN) && p (getWin b n))

theorem test_window_unbind : ∀ st ∈ [WinState.present, .absent, .unbound],
    ∃ c, Issues (.wunbind (un (.k 0) (.k 0) (.imm 64))) anyProfile (windowed (winIn st)) c ∧ (sortedKeys (windowed (winIn st)).groups = true ∧
      c.strm = false ∧ c.ub (un (.k 0) (.k 0) (.imm 64)) = 0 ∧ winHas (windowed (winIn st)) c 0 (fun x => x.state == st) = true) := by
  intro st hst
  refine ctx_of ?_
  revert st
  decide +kernel

/-- Window 0 armed, its postmark final. -/
def armed0 : State := onG (fun g => { g with armed := [(0, 0)] }) { windowed { winIn .present with seq := 0 } with spad := [(4093, 1)] }

theorem test_postmarks :
    (∃ c, Issues (.wstatClr (un (.k 1) (.imm 2) z)) anyProfile grp c ∧ True) ∧
    (∃ c, Issues (.pmarm (un (.k 0) (.k 0) (.imm 64))) anyProfile (windowed (winIn .copyin)) c ∧ (c.strm = false ∧
      c.ub (un (.k 0) (.k 0) (.imm 64)) = 0 ∧ winHas (windowed (winIn .copyin)) c 0 (fun x => x.state != .unbound) = true)) ∧
    (∃ c, Issues (.pmwait (un (.k 1) (.k 0) z)) anyProfile grp c ∧ (c.strm = false ∧ (mfind grp.groups c.key).any (fun g => g.armed.isEmpty) = true)) ∧
    ∃ c, Issues (.pmwait (un (.k 1) (.k 0) z)) anyProfile armed0 c ∧ (c.strm = false ∧
      (mfind armed0.groups c.key).any (fun g => !g.armed.isEmpty && (pmReady armed0 g).isSome) = true) :=
  ⟨ctx_of (by decide +kernel), ctx_of (by decide +kernel), ctx_of (by decide +kernel), ctx_of (by decide +kernel)⟩

theorem test_window_forks :
    (∀ st ∈ [WinState.present, .absent], ∃ c, Issues (.wabs (un (.k 0) (.k 61) (.imm 64))) anyProfile (windowed (winIn st)) c ∧
      (c.ub (un (.k 0) (.k 61) (.imm 64)) = 0 ∧ winHas (windowed (winIn st)) c 0 (fun x => x.state == st && !layXf x.layout) = true)) ∧
    (∃ c, Issues (.wpost (un (.k 0) (.k 0) (.imm 64))) anyProfile (windowed (winIn .present)) c ∧ (c.ub (un (.k 0) (.k 0) (.imm 64)) = 0 ∧
      winHas (windowed (winIn .present)) c 0 (fun x => x.state == .present && !layImg x.layout && !layDec x.layout) = true)) ∧
    ∀ st ∈ [WinState.present, .absent, .runahead, .copyin, .copyout],
      ∃ c, Issues (.wtouch (un (.k 1) (.k 0) (.imm 64))) anyProfile (windowed (winIn st)) c ∧ (c.ub (un (.k 1) (.k 0) (.imm 64)) = 0 ∧
        winHas (windowed (winIn st)) c 0 (fun x => x.state == st) = true) := by
  refine ⟨fun st hst => ctx_of ?_, ctx_of (by decide +kernel), fun st hst => ctx_of ?_⟩ <;> (revert st; decide +kernel)

/-- A property of the ring that a word names, and of its party. -/
def ringHas (s : State) (c : Ctx) (n : Nat) (p : Ring → Bool) : Bool :=
  (mfind s.blocks c.blkId).any (fun b => (mfind b.rings n).any p) && (partyOf s c.iss.agent).any (fun x => x.u.pend.isEmpty)

theorem test_rings :
    (∃ c, Issues (.ringInit (ux (.k 0) (.k 5) z 0x1FF)) anyProfile (withK [(5, 7680)] (windowed {})) c ∧ (sortedKeys (windowed {}).groups = true ∧
      c.ua (ux (.k 0) (.k 5) z 0x1FF) % 8 = 0 ∧ c.ua (ux (.k 0) (.k 5) z 0x1FF) + 8 * (fs (ux (.k 0) (.k 5) z 0x1FF) 5 0 + 1) ≤ c.blk.spSize ∧
      (mfind (windowed {}).blocks c.blkId).any (fun b => decide (b = c.blk)) = true)) ∧
    (∃ c, Issues (.ringGet (un (.k 1) (.imm 0) z)) anyProfile (windowed {}) c ∧ ringHas (windowed {}) c (ringNum (un (.k 1) (.imm 0) z)) (fun r => countDiff r.p r.a != 0) = true) ∧
    (∃ c, Issues (.ringPut (un (.k 0) (.imm 0) z)) anyProfile (windowed {}) c ∧ ringHas (windowed {}) c (ringNum (un (.k 0) (.imm 0) z)) (fun r => decide (countDiff r.pr r.f < r.ns)) = true) ∧
    ∃ c, Issues (.ringPutFree (un (.k 0) (.imm 9) z)) anyProfile (windowed {}) c ∧ ringHas (windowed {}) c (ringNum (un (.k 0) (.imm 9) z))
      (fun r => decide (pendingFrees (windowed {}) c.blkId (ringNum (un (.k 0) (.imm 9) z)) < countDiff r.a r.f)) = true :=
  ⟨ctx_of (by decide +kernel), ctx_of (by decide +kernel), ctx_of (by decide +kernel), ctx_of (by decide +kernel)⟩

/-! ## Memory -/

/-- A state whose k2 holds an address of the placed page, and one in the block's scratchpad. -/
def addressed : State := withK [(2, 0x10100), (3, 0x80)] grp
def inSpad : State := withK [(2, 0xFA00000000000008)] (onB (fun b => { b with spSize := 8192 }) grp)

/-- A test of loadClear. -/
def isClear (s : State) (c : Ctx) (useL1 : Bool) (at_ : List (Nat × List Piece)) (eff : Eff) : Bool :=
  (poisonedLoad (readState c s at_ eff) c.core useL1 (at_.flatMap (fun e => physRuns s e.2))).isNone &&
  (blockedBy (readState c s at_ eff) (at_.flatMap (fun e => physRuns s e.2))).isNone

/-- What a load's hypotheses ask besides its form. -/
def loadOk (s : State) (c : Ctx) (x : LoadCase) : Bool :=
  match locate s x.who (if x.mode.root then .acq else if x.mode.useL1 then .load else .home) x.n x.late x.rs with
  | .ok at_ eff => (acqHeld c.sq).isNone && isClear s c x.mode.useL1 at_ eff &&
      (match valuesOf (loadPieces (readState c s at_ eff) c.core c.sq x.mode.useL1 x.mode.root) at_ with
       | .inl _ => true
       | .inr _ => false)
  | _ => false

theorem loadOk_passes {s : State} {c : Ctx} {x : LoadCase} (h : loadOk s c x = true) : ∃ at_ eff vs, loadPasses c s x at_ eff vs := by
  unfold loadOk at h
  split at h
  · rename_i at_ eff hl
    simp only [isClear, Bool.and_eq_true, Option.isNone_iff_eq_none] at h
    obtain ⟨⟨ha, hp⟩, hv⟩ := h
    split at hv
    · rename_i vs hvs
      exact ⟨at_, eff, vs, hl, ha, hp, hvs⟩
    · cases hv
  · cases h

theorem test_loads : ∀ i ∈ [Instr.ld (ln (.v 4) (.k 2) (.imm 16) .n64), .ld (ln (.v 4) (.k 2) (.imm 95) .n8 0 0x600), .kld (un (.k 5) (.k 2) (.imm 120))],
    ∃ c x at_ eff vs, Issues i (any1 i) addressed c ∧ loadCase c i = some x ∧ loadPasses c addressed x at_ eff vs := by
  intro i hi
  obtain ⟨c, x, hc, hx, hp⟩ := each_with (prof := any1) (s := fun _ => addressed) (f := fun i c => loadCase c i)
    (P := fun _ c x => loadOk addressed c x = true)
    (l := [Instr.ld (ln (.v 4) (.k 2) (.imm 16) .n64), .ld (ln (.v 4) (.k 2) (.imm 95) .n8 0 0x600), .kld (un (.k 5) (.k 2) (.imm 120))])
    (by decide +kernel) i hi
  obtain ⟨at_, eff, vs, h⟩ := loadOk_passes hp
  exact ⟨c, x, at_, eff, vs, hc, hx, h⟩

theorem test_load_scratchpad : ∃ c, Issues (.ld (ln (.v 4) (.k 2) (.imm 16) .n64)) anyProfile inSpad c ∧
    (loadCase c (.ld (ln (.v 4) (.k 2) (.imm 16) .n64))).any (loadOk inSpad c) = true :=
  ctx_of (by decide +kernel)

/-- The load that LDB makes, with no miss that waits. -/
def ldbCase (w : LaneW) (c : Ctx) : LoadCase :=
  { who := c.who true, n := tyBytes w.ty, rs := reqsOf (c.active w.g w.gn) (c.ea w), mode := {}, late := some c.firstCyc, regs := fun _ _ _ => True }

def ldbStill (s : State) (w : LaneW) (c : Ctx) : Bool :=
  match locate s (ldbCase w c).who .load (ldbCase w c).n (some c.firstCyc) (ldbCase w c).rs with
  | .ok at_ eff => (ldbMisses c (readState c s at_ eff) w.q.toNat (ldbCase w c).rs at_).all (fun m => !stallsMisses (readState c s at_ eff) m.region)
  | _ => false

theorem test_bounded_load : ∃ c, Issues (.ldb (ln (.v 4) (.k 2) (.imm 16) .n64 0 31)) anyProfile addressed c ∧
    (loadOk addressed c (ldbCase (ln (.v 4) (.k 2) (.imm 16) .n64 0 31) c) = true ∧ ldbStill addressed (ln (.v 4) (.k 2) (.imm 16) .n64 0 31) c = true) :=
  ctx_of (by decide +kernel)

theorem test_forwarded : (keysOf [⟨.spad 0 8, 4⟩, ⟨.phys 0x10000 false, 4⟩]).Nodup := by decide +kernel

/-- What a store's hypotheses ask besides its form. -/
def storeOk (s : State) (x : StoreCase) : Bool :=
  match locate s x.who x.acc x.n none x.rs with
  | .ok at_ eff =>
    (if x.acc = .atomic then poisoned (applyAll (eff s) s) (at_.flatMap (fun e => physRuns (applyAll (eff s) s) e.2))
      else goneRun (applyAll (eff s) s) (at_.flatMap (fun e => physRuns (applyAll (eff s) s) e.2))).isNone
  | _ => false

theorem storeOk_passes {s : State} {x : StoreCase} (h : storeOk s x = true) : ∃ at_ eff, storePasses s x at_ eff := by
  unfold storeOk at h
  split at h
  · rename_i at_ eff hl
    exact ⟨at_, eff, hl, Option.isNone_iff_eq_none.mp h⟩
  · cases h

/-- Stores, and atomics without and with acquire order. -/
def storeForms : List Instr :=
  [.st (ln (.v 0) (.k 2) (.imm 16) .n64 6), .st (ln (.v 0) (.k 2) (.imm 95) .n8 6 0x980), .kst (un (.k 5) (.k 2) (.imm 64)),
   .atom 0 (ln (.v 4) (.k 2) (.imm 16) .n32 6), .cas (ln (.v 4) (.k 2) (.v 0) .n64 6 0x840), .katom (ux (.k 3) (.k 2) (.fld (.k 7)) 0x600E0000),
   .atom 1 (ln (.v 4) (.k 2) (.imm 16) .i64 6 0x600), .atom 5 (ln (.v 0) (.k 2) (.imm 16) .n32 6 0xF01), .cas (ln (.v 4) (.k 2) (.v 0) .n32 6 0x440),
   .katom (ux (.k 3) (.k 2) (.fld (.k 7)) 0x0D8E0000)]

theorem test_stores : ∀ i ∈ storeForms, ∃ c x at_ eff, Issues i (any1 i) addressed c ∧ c.strm = false ∧ storeCase c i = some x ∧
    storePasses addressed x at_ eff ∧ c.sq.length < 32 := by
  intro i hi
  obtain ⟨c, x, hc, hx, hs, hp, hq⟩ := each_with (prof := any1) (s := fun _ => addressed) (f := fun i c => storeCase c i) (l := storeForms)
    (P := fun _ c x => c.strm = false ∧ storeOk addressed x = true ∧ c.sq.length < 32) (by decide +kernel) i hi
  obtain ⟨at_, eff, h⟩ := storeOk_passes hp
  exact ⟨c, x, at_, eff, hc, hs, hx, h, hq⟩

/-- A queue whose head is an atomic or a cas of one word, with acquire order. -/
def atomHead (k : SqKind) (p : Place) : State :=
  about [0] (onG (fun g => { g with sq := [{ id := 1, kind := k, rel := 0, items := [⟨4, [⟨p, 4⟩], 5, 0⟩], frank := 0, acq := true }] }) addressed)

/-- A test of linesOpen. -/
def isOpen (s : State) (core a n : Nat) : Bool :=
  (linesOf a n).all (fun l => (liveLeases s l).isEmpty && (foreignHolders s core l).isEmpty && !homeWaits s l && !lineBlocked s l)

/-- What the statement asks of a load that waits for an acquire of its group. -/
def loadHeld (s : State) (c : Ctx) (x : LoadCase) : Bool :=
  match locate s x.who (if x.mode.root then .acq else if x.mode.useL1 then .load else .home) x.n x.late x.rs with
  | .ok at_ eff => acqHeld c.sq == some 1 && isClear s c x.mode.useL1 at_ eff
  | _ => false

theorem test_acquire :
    (∃ c, Issues (.ld (ln (.v 4) (.k 2) (.imm 16) .n64)) anyProfile (atomHead (.cas .n32 (.v 4)) (.spad 0 8)) c ∧
      (loadCase c (.ld (ln (.v 4) (.k 2) (.imm 16) .n64))).any (loadHeld (atomHead (.cas .n32 (.v 4)) (.spad 0 8)) c) = true) ∧
    ([SqKind.atomic 0 .n32 (some (.v 4)), .cas .n32 (.v 4)].all fun k => [Place.spad 0 8, .phys 0x10100 true].all fun p =>
      (mfind (atomHead k p).groups 0).any (fun g => g.u.outs.isEmpty && g.sq.all (fun e => headReady (atomHead k p) (coreOfG 0) e &&
        (entryPoison (atomHead k p) e).isNone)) && unheld (atomHead k p) && isOpen (atomHead k p) 0 0x10100 4) = true :=
  ⟨ctx_of (by decide +kernel), by decide +kernel⟩

theorem test_caches : ∀ i ∈ [Instr.prf (ln (.v 0) (.k 2) (.imm 16) .i32), .ipref (un (.k 0) (.k 2) z), .cinv (un (.k 0) (.k 2) (.fld (.k 3))),
      .icinv (un (.k 0) (.k 2) (.fld (.k 3))), .cwb (un (.k 0) (.k 2) (.fld (.k 3)))],
    ∃ c r, Issues i (any1 i) addressed c ∧ cacheForm c addressed i = some r ∧ (c.strm = false ∧ c.sq.length < 32 ∧ sortedKeys addressed.cores = true) :=
  each_with (f := fun i c => cacheForm c addressed i) (by decide +kernel)

/-- A monitor that differs from the word in memory. -/
def monitored : State := onG (fun g => { g with mons := [(3, { addr := 0x10100, value := 5, place := [⟨.phys 0x10100 false, 8⟩] })] }) addressed

/-- The same, its place forgotten after a tlbinv. -/
def forgotten : State := onG (fun g => { g with mons := [(3, { addr := 0x10100, value := 5, place := [] })] }) addressed

/-- What the statement of a check of the armed slots asks. -/
def monReturns (s : State) (c : Ctx) (g : Group) : Bool :=
  match locate s (c.who false) .home 8 none ((g.mons.filter monBlind).map (fun e => { lane := 255, ea := e.2.addr })) with
  | .ok at_ _ =>
    let g' := monPlaced at_ g
    (g'.mons.isEmpty || monDiffer s c.core g' != 0) && (monPoison s g').isNone && (monBlocked s g').isNone && (monDenied s c.core g').isEmpty
  | _ => false

theorem test_monitors :
    (∃ c, Issues (.monArm (un (.k 0) (.k 2) (.imm 67))) anyProfile addressed c ∧ (c.strm = false ∧ loadOk addressed c
      { who := c.who false, n := 8, rs := uReq (BitVec.ofNat 64 (c.ua (un (.k 0) (.k 2) (.imm 67)))), mode := {}, late := none, regs := fun _ _ _ => True } = true)) ∧
    (∃ c, Issues (.monWait (un (.k 9) (.k 0) z)) anyProfile grp c ∧ (c.strm = false ∧ (mfind grp.groups c.key).any (monReturns grp c) = true)) ∧
    ∀ s ∈ [monitored, forgotten], ∃ c, Issues (.monWait (un (.k 9) (.k 0) z)) anyProfile s c ∧ (c.strm = false ∧
      (mfind s.groups c.key).any (monReturns s c) = true) := by
  refine ⟨ctx_of (by decide +kernel), ctx_of (by decide +kernel), fun s hs => ctx_of ?_⟩
  revert s
  decide +kernel

theorem test_translation :
    (∃ c, Issues (.tlbinv (ux (.k 0) (.k 2) z 0x8000)) anyProfile addressed c ∧ (c.sys = true ∧
      fld (BitVec.ofNat 64 (c.ua (ux (.k 0) (.k 2) z 0x8000))) 63 56 = 0 ∧ accessesLeft addressed c.core 2 addressed.nextId = false ∧
      sortedKeys addressed.cores = true ∧ sortedKeys addressed.clusters = true ∧ sortedKeys addressed.groups = true)) ∧
    ∃ c, Issues (.pgmig (un (.k 3) (.k 2) (.fld (.k 5)))) anyProfile addressed c ∧ (c.sys = true ∧
      fld (BitVec.ofNat 64 (c.ua (un (.k 3) (.k 2) (.fld (.k 5))))) 63 56 = 0 ∧
      (match migCheck addressed c.blk.tctx (asidOf c (un (.k 3) (.k 2) (.fld (.k 5)))) (c.ua (un (.k 3) (.k 2) (.fld (.k 5)))) (c.ub (un (.k 3) (.k 2) (.fld (.k 5)))) with
       | .inl _ => true
       | .inr _ => false) = true) :=
  ⟨ctx_of (by decide +kernel), ctx_of (by decide +kernel)⟩

/-! ## Pigeonholes -/

theorem test_pigeonholes :
    (∃ c, Issues (.spawn (ln (.v 0) (.k 2) (.v 20) .n64 135)) anyProfile addressed c ∧
      ((∀ l ∈ lanesOf (c.active 7 false), c.src 0 .n64 (.k 2) l % 4 = 0) ∧ spawnFits c addressed (ln (.v 0) (.k 2) (.v 20) .n64 135) = true)) ∧
    (∃ c, Issues (.phflush (ln (.v 0) (.k 2) (.v 0) .n64)) anyProfile addressed c ∧ sortedKeys (getCore addressed c.core).holes = true) ∧
    (openHole { holes := [(7, { entry := 4, launch := 0, threads := [[0, 0, 0, 0]], expiry := 9, part := 0, pending := none })] } 0 4).map (·.1) = some 7 ∧
    openHole {} 0 4 = none ∧ mfree ({} : Core).holes 32 = some 0 :=
  ⟨ctx_of (by decide +kernel), ctx_of (by decide +kernel), by decide +kernel, by decide +kernel, by decide +kernel⟩

/-! ## The matrix unit and the stream -/

/-- Two reservations of a block's operand buffer, the first starting with a header of a sparse tile. -/
def buffered (m : Matrix) : Matrix :=
  { m with units := 12, ob := [(1, 0x10)], recs := [(0, { base := 0, len := 4, xf := false, soff := 0, fmt := 0 }), (1, { base := 4, len := 8, xf := false, soff := 0, fmt := 0 })] }
def matS : State := withK [(2, 0x10100), (3, 0x80)] (onM buffered strm)
def matG : State := onM buffered grp

theorem test_matrix_stream : ∀ i ∈ [Instr.obres (ux (.k 1) (.imm 0) (.imm 65) 0x20000000), .obfree (un (.k 0) (.imm 1) z), .obfree (un (.k 0) (.imm 15) z),
      .mzero (un (.k 0) (.imm 15) z), .macc (ux (.k 0) (.k 0) z 0x0E200000), .macc (ux (.k 0) (.k 7) z 0xF0800000)],
    ∃ c r, Issues i (profOf i) matS c ∧ matrixForm c matS i = some r :=
  each_of (f := fun i c => matrixForm c matS i) (by decide +kernel)

theorem test_matrix_lanes : ∀ i ∈ [Instr.mvtot (ln (.v 0) (.imm 31) (.imm 16) .f32 20), .mvtot (ln (.v 0) (.imm 30) (.special 2) .f64 20)],
    ∃ c r, Issues i (profOf i) matG c ∧ matrixForm c matG i = some r :=
  each_of (f := fun i c => matrixForm c matG i) (by decide +kernel)

theorem test_matrix_steps : ∀ i ∈ [Instr.mma (ux (.k 0) (.imm 0) (.imm 64) 0x01F00800), .mma (ux (.k 0) (.imm 0) (.imm 64) 0x01E06000), .mma (ux (.k 0) (.imm 0) (.imm 64) 0x010C0800),
      .mmat (ux (.k 0) (.imm 0) (.imm 64) 0x01500000), .mres (ux (.k 0) (.imm 0) (.imm 64) 0x010C0000)],
    ∃ c r, Issues i (profOf i) matS c ∧ ((mfind matS.blocks c.blkId).bind (·.mat)).bind (fun m => stepCase c matS m i) = some r :=
  each_of (f := fun i c => ((mfind matS.blocks c.blkId).bind (·.mat)).bind (fun m => stepCase c matS m i)) (by decide +kernel)

theorem test_matrix_forks : ∀ i ∈ [Instr.mload (un (.k 0) (.k 2) (.imm 64)), .mloadx (ux (.k 0) (.k 2) (.imm 64) 0x01F00000), .mst (ux (.k 0) (.k 2) z 0xF04F0000),
      .sdec (ux (.k 0) (.imm 0) (.imm 64) 0x01000000)],
    ∃ c r, Issues i (profOf i) matS c ∧ forkCase c matS matS.nextId i = some r ∧ c.strm = true :=
  each_with (f := fun i c => forkCase c matS matS.nextId i) (P := fun _ c _ => c.strm = true) (by decide +kernel)

theorem test_sequencer : ∀ i ∈ [Instr.mseqGo (ux (.k 0) (.k 2) z 0x3F), .mseqEnd (un (.k 0) (.k 0) z), .mrowClr (un (.k 1) (.imm 1) z),
      .sstatClr (un (.k 1) (.imm 1) z), .sbound (ux (.k 0) (.k 0) z 0x10000)],
    ∃ c, Issues i (any1 i) matS c ∧ (c.strm = true ∧ (mfind matS.streams c.key).any (fun x => x.ops.isEmpty) = true ∧
      c.ubI (ux (.k 0) (.k 0) z 0x10000) ≤ 65536) :=
  each_ctx (by decide +kernel)

/-! ## Rounds, special registers, counters, queues -/

/-- A registered round region over the placed page, one round short of its last. -/
def regioned : State :=
  { withK [(2, 0x10100), (3, 0xFFFFFFFFFFFF)] grp with rounds := { ents := [(0, { base := 0x10010, cva := 0x20000, ctl := 0x93, cnt := 0xFFFFFFFFFFFE })] } }

def acquiring : State :=
  onG (fun g => { g with sq := [{ id := 1, kind := .atomic 0 .n32 none, rel := 0, items := [], frank := 0, acq := true }] }) regioned

theorem test_rounds :
    (∃ c, Issues (.roundAdv (un (.k 3) (.k 2) z)) anyProfile regioned c ∧ (regionHere c regioned (un (.k 3) (.k 2) z) = some 0 ∧
      (rtScope (getRt regioned 0) = 8 → clusterOf c.core = rtCl (getRt regioned 0)) ∧ countOf regioned 0 < 2 ^ 48 - 1 ∧
      drained regioned c.sq (rtScope (getRt regioned 0)) = true ∧ mustStall regioned (pkgSrc 6) 6 c.frank = false)) ∧
    (∃ c, Issues (.roundGet (un (.k 5) (.k 2) z)) anyProfile regioned c ∧ (regionHere c regioned (un (.k 5) (.k 2) z) = some 0 ∧ acqHeld c.sq = none ∧ c.strm = false ∧
      (mfind regioned.groups c.key).isSome = true)) ∧
    (∃ c, Issues (.roundGet (un (.k 5) (.k 2) z)) anyProfile acquiring c ∧ (regionHere c acquiring (un (.k 5) (.k 2) z) = some 0 ∧ acqHeld c.sq = some 1)) ∧
    (∃ c, Issues (.roundFloor (un (.k 6) (.k 2) (.fld (.k 3)))) anyProfile regioned c ∧ (regionHere c regioned (un (.k 6) (.k 2) (.fld (.k 3))) = some 0 ∧
      c.ub (un (.k 6) (.k 2) (.fld (.k 3))) < 2 ^ 48 ∧ c.strm = false ∧ (mfind regioned.groups c.key).isSome = true)) ∧
    ∃ c, Issues (.roundFloorClr (un (.k 0) (.imm 0) z)) anyProfile regioned c ∧ c.strm = false :=
  ⟨ctx_of (by decide +kernel), ctx_of (by decide +kernel), ctx_of (by decide +kernel), ctx_of (by decide +kernel), ctx_of (by decide +kernel)⟩

/-- The number in field B of a word. -/
def mtsTo (n : Nat) : UniW := un (.k 0) (.k 2) (.imm ⟨64 + n % 64, by omega⟩)

/-- QSEL at a queue that is not enabled. -/
def selected : State := { grp with mail := { grp.mail with sel := 5 } }

theorem test_mts : ∀ n ∈ ([0x02, 0x0C, 0x0D, 0x10, 0x13, 0x19, 0x1A, 0x1C, 0x1E, 0x1F, 0x20, 0x21, 0x22, 0x23, 0x24, 0x29, 0x2C, 0x2D, 0x30, 0x32, 0x33, 0x34,
      0x35, 0x38, 0x39, 0x3A, 0x3B] : List Nat),
    ∃ c, Issues (.mts (mtsTo n)) anyProfile selected c ∧ (c.strm = false ∧ c.sys = true ∧ c.ub (mtsTo n) = n ∧
      (mtsResult c selected n (BitVec.ofNat 64 (c.ua (mtsTo n)))).isSome = true) :=
  each_mem (i := fun n => .mts (mtsTo n)) (s := fun _ => selected) (by decide +kernel)

/-- TRAPCAUSE in a handler; a commit and a release of a region, free and with a bounded load in flight; QCTL with and without blocks
to save; a session opened and closed. -/
def sessioned : State := { grp with trace := { grp.trace with sessions := [(0, { ctl := 1 })] } }
def loadsInFlight : State :=
  { regioned with coh := { regioned.coh with watches := [{ id := 1, core := 0, line := 514, uid := 2, limit := 9, fired := false, tag := 3, region := 0 }] } }

theorem test_mts_controls :
    (∃ c, Issues (.mts (mtsTo 0x0E)) anyProfile (handling true false) c ∧ (c.sys = true ∧
      (mtsResult c (handling true false) 0x0E (BitVec.ofNat 64 (c.ua (mtsTo 0x0E)))).isSome = true)) ∧
    (∃ c, Issues (.mts (mtsTo 0x23)) anyProfile (withK [(2, 1)] grp) c ∧ (c.sys = true ∧ c.ua (mtsTo 0x23) = 1)) ∧
    (∃ c, Issues (.mts (mtsTo 0x23)) anyProfile (withK [(2, 0)] regioned) c ∧ (c.sys = true ∧ c.ua (mtsTo 0x23) = 0 ∧
      rtValid (getRt regioned (curRt regioned)) = true ∧ regionBusy regioned (curRt regioned) = false ∧ sortedKeys regioned.groups = true)) ∧
    (∃ c, Issues (.mts (mtsTo 0x23)) anyProfile (withK [(2, 0)] loadsInFlight) c ∧ (c.sys = true ∧
      rtValid (getRt loadsInFlight (curRt loadsInFlight)) = true ∧ regionBusy loadsInFlight (curRt loadsInFlight) = true)) ∧
    (∀ v ∈ [(0x41, 0), (1, 5)], ∃ c, Issues (.mts (mtsTo 0x31)) anyProfile (withK [(2, v.1)] { grp with mail := { grp.mail with sel := v.2 } }) c ∧
      (c.sys = true ∧ (queueBlocks grp (curQ { grp with mail := { grp.mail with sel := v.2 } })).isEmpty = decide (v.2 ≠ 0))) ∧
    (∃ c, Issues (.mts (mtsTo 0x39)) anyProfile (withK [(2, 1)] grp) c ∧ (c.sys = true ∧ c.ua (mtsTo 0x39) = 1)) ∧
    ∃ c, Issues (.mts (mtsTo 0x39)) anyProfile (withK [(2, 0)] sessioned) c ∧ (c.sys = true ∧ sessOpen (getSession sessioned (tsIdx sessioned)) = true) := by
  exact ⟨ctx_of (by decide +kernel), ctx_of (by decide +kernel), ctx_of (by decide +kernel), ctx_of (by decide +kernel),
    each_mem (i := fun _ => .mts (mtsTo 0x31)) (s := fun (v : DWord × Word) => withK [(2, v.1)] { grp with mail := { grp.mail with sel := v.2 } })
      (by decide +kernel), ctx_of (by decide +kernel), ctx_of (by decide +kernel)⟩

theorem test_mts_stream : ∀ n ∈ ([0x14, 0x15, 0x16] : List Nat),
    ∃ c, Issues (.mts (mtsTo n)) anyProfile { strm with cur := some (issuing (.group 0)) } c ∧ (c.strm = false ∧ c.sys = true ∧ c.ub (mtsTo n) = n ∧
      (streamOfBlk { strm with cur := some (issuing (.group 0)) } c.blkId).isSome = true) :=
  each_mem (i := fun n => .mts (mtsTo n)) (s := fun _ => { strm with cur := some (issuing (.group 0)) }) (by decide +kernel)

theorem test_counters :
    (∀ i ∈ [Instr.cntcfgEvent (ux (.k 0) (.imm 31) z 0x4CF), .cntcfgClear (ux (.k 0) (.imm 0) z 0x1003), .cntcfgWrite (ux (.k 0) (.k 2) (.imm 127) 0x200F)],
      ∃ c r, Issues i (any1 i) (withK [(2, 63)] grp) c ∧ cntResult c i = some r) ∧
    (mfind (getSet grp 63).wrote 12 = none ∧ (mfind ({ wrote := [(2, { cyc := 0, who := 3, val := 7, ovf := false, ev := 1 })] } : CtSet).wrote 2).map (·.cyc) = some grp.clk.cyc) ∧
    (∀ s ∈ [grp, strm], ∃ c, Issues (.tmark (ux (.k 0) (.k 0) z 0x1234)) anyProfile s c ∧ mustStall s (coreSrc c.core c.part (if c.strm then 1 else 0)) 1 c.frank = false) ∧
    ∃ c, Issues (.tsamp (ux (.k 2) (.k 0) z 0xAAC0)) anyProfile grp c ∧ (c.strm = false ∧ (mfind grp.groups c.key).isSome = true) :=
  ⟨each_of (f := fun i c => cntResult c i) (by decide +kernel), by decide +kernel, 
    each_mem (i := fun _ => .tmark (ux (.k 0) (.k 0) z 0x1234)) (s := fun s => s) (by decide +kernel), ctx_of (by decide +kernel)⟩

/-- A queue 5 that accepts posts, its TAIL at a packet of the placed page. -/
def posting (ctl : DWord) : State :=
  { withK [(2, 0x10100)] grp with mail := { grp.mail with queues := mput grp.mail.queues 5 { ctl := ctl, tail := 0x10200 } } }

/-- What the statement of a post asks of its accesses: its turn come, earlier accesses performed, both words' homes ready and apart. -/
def postOk (s : State) (c : Ctx) (p : DWord) (x : Queue) : Bool :=
  match locate s (c.who false) .store 8 none (uReq p) with
  | .ok [(255, [⟨.phys first n1, 8⟩])] eff =>
    let key := Writer.entry (turnId c s)
    let bs := Eff.all [eff, countAccess (c.who false) .store 8 (uReq p), engineWrite key c.frank [⟨.phys first n1, 8⟩] (toBytes 8 0)] s
    match postWalk c (applyAll bs s) (s.mem.length + 2) x.tail with
    | .last (some ⟨.phys last n2, 8⟩) _ => relReady s 12 && (c.sq.isEmpty || c.sq.head?.any (fun e => e.kind == .hold c.pc)) &&
        piecesReady s key [⟨.phys first n1, 8⟩] && piecesReady (applyAll bs s) key [⟨.phys last n2, 8⟩] && (decide (last + 8 ≤ first) || decide (first + 8 ≤ last))
    | _ => false
  | _ => false

/-- A group of launch 1 beside a live launch 0 of queue 0, and one of queue 7 with a launch that is ending. -/
def other (dying : Option (Nat × Nat)) (s : State) : State :=
  match mfind s.mail.launches 0 with
  | some l => { onB (fun b => { b with launch := 1 }) s with
      mail := { s.mail with launches := [(0, { l with queue := 7, dying := dying }), (1, l)] } }
  | none => s

/-- A reset of a queue that field B numbers. -/
def resetWord (q : Nat) : UniW := un (.k 4) (.k 0) (.imm ⟨64 + q % 64, by omega⟩)

/-- States and queues to be reset. -/
def resets : List (State × Nat) := [grp, other none grp, other (some (2, 21)) grp].flatMap (fun s => [(s, 0), (s, 7)])

theorem test_queues :
    (∃ c, Issues (.halt (un (.k 0) (.k 0) z)) anyProfile grp c ∧ (c.sys = true ∧ c.l.dying = none ∧ calm grp = true)) ∧
    (∃ c, Issues (.qreset (un (.k 4) (.k 0) (.imm 127))) anyProfile grp c ∧ (c.sys = true ∧ c.ub (un (.k 4) (.k 0) (.imm 127)) < 64 ∧
      launchesOf grp (c.ub (un (.k 4) (.k 0) (.imm 127))) = [] ∧ grp.trace.sessions = [])) ∧
    (∀ x ∈ resets,
      ∃ c, Issues (.qreset (resetWord x.2)) anyProfile x.1 c ∧
        (c.sys = true ∧ c.ub (resetWord x.2) < 64 ∧ calm x.1 = true ∧ sortedKeys x.1.mail.launches = true)) ∧
    (∃ c, Issues (.qreset (un (.k 4) (.k 0) (.imm 71))) anyProfile (other none grp) c ∧ (c.l.queue ≠ c.ub (un (.k 4) (.k 0) (.imm 71)) ∧ c.strm = false ∧
      (launchesOf (other none grp) (c.ub (un (.k 4) (.k 0) (.imm 71)))).isEmpty = false)) ∧
    ∀ x ∈ [((0x20 : DWord), 1), (0x01, 2), (0x21, 0)], ∃ c, Issues (.post (un (.k 1) (.k 2) (.imm 69))) anyProfile (posting x.1) c ∧
      (fld (BitVec.ofNat 64 (c.ua (un (.k 1) (.k 2) (.imm 69)))) 63 56 = 0 ∧ c.ua (un (.k 1) (.k 2) (.imm 69)) % 128 = 0 ∧
       c.ub (un (.k 1) (.k 2) (.imm 69)) = 5 ∧
       (x.2 = 0 → fld x.1 63 56 = c.frank ∧ fld (getQueue (posting x.1) 5).tctx 11 0 = c.asid ∧
         postOk (posting x.1) c (BitVec.ofNat 64 (c.ua (un (.k 1) (.k 2) (.imm 69)))) (getQueue (posting x.1) 5) = true)) := by
  exact ⟨ctx_of (by decide +kernel), ctx_of (by decide +kernel),
    each_mem (i := fun (x : State × Nat) => .qreset (resetWord x.2)) (s := fun x => x.1) (by decide +kernel), ctx_of (by decide +kernel),
    fun x hx => ctx_of (by revert x; decide +kernel)⟩

/-- Forms that user mode may not use. -/
def userForbidden : List Instr :=
  [.halt (un (.k 0) (.k 0) z), .tlbinv (ux (.k 0) (.k 0) z 0x30000), .pgmig (un (.k 3) (.k 4) z), .cntcfgEvent (un (.k 0) (.k 0) z),
   .cntcfgClear (ux (.k 0) (.k 0) z 0x1000), .cntcfgWrite (ux (.k 0) (.k 0) z 0x2000), .qreset (un (.k 4) (.k 0) z), .mfs (un (.k 1) (.k 0) (.imm 112)),
   .mts (mtsTo 0x30), .mts (mtsTo 0x00), .mts (mtsTo 0x02), .mts (mtsTo 0x0E), .cntrd (un (.k 1) (.k 0) (.imm 69)), .eret (un (.k 0) (.k 0) z)]

/-- In system mode: TRAPCAUSE outside a handler, a register of the stream in a block without one, a register without a writable field. -/
def noStream : State := onB (fun b => { b with mat := none }) grp

theorem test_forbidden : ∀ n ∈ ([0x0E, 0x14, 0x00] : List Nat), ∃ c, Issues (.mts (mtsTo n)) anyProfile noStream c ∧
    (c.sys = true ∧ c.strm = false ∧ trapRoom noStream c = true ∧ forbidden c noStream (.mts (mtsTo n)) = true) :=
  each_mem (i := fun n => .mts (mtsTo n)) (s := fun _ => noStream) (by decide +kernel)

theorem test_privilege : ∀ i ∈ userForbidden, ∃ c, Issues i (any1 i) (userG grp) c ∧ (c.strm = false ∧ trapRoom (userG grp) c = true ∧
    forbidden c (userG grp) i = true ∧ (mfind (userG grp).groups c.key).any (fun g => !g.tr.bankS.active) = true) :=
  each_ctx (by decide +kernel)

/-! ## Steps -/

/-- What the statement about steps asks of the issue of a placed word. -/
def stepsInto (s : State) : Bool :=
  match s.agenda with
  | .issue a pc lanes :: _ =>
    let s1 := applyAll (takeSecond a pc lanes (moveState s)) (moveState s)
    match fetchCtx s1 a pc lanes with
    | some c =>
      match fetchInstr c s1 with
      | .word w e _ =>
        match decode (bytesOfWord w.toNat ++ (if bit w.toNat 29 then bytesOfWord e.toNat else [])) with
        | .ok (i, []) => mayIssue s1 a pc lanes && !skipping s1 a && !heldNow s1 a pc lanes i
        | _ => false
      | _ => false
    | none => false
  | _ => false

/-- A word without and one with a second word, of a group and of a stream, each issue as the next step. -/
theorem test_steps : ([(32, 0x180402C8), (64, 0x03E70000 * 2 ^ 32 + 0x24080205), (32, 0x87406300)].map (fun x =>
    stepsInto (State.reset.withFetchWord x.1 x.2))) = [true, true, true] := by decide +kernel

/-- A step whose move is an event; a fetch of the placed word. -/
theorem test_step_event : (match step { State.reset with agenda := [.event .counterAdd []] } with | .next _ => true | _ => false) = true ∧
    (ctxHere (.reservedOpcode 0 0) grp).any (fun c => (match fetchOne c grp 0x10000 with | .word _ _ _ => true | _ => false)) = true := by
  constructor <;> decide +kernel

/-- The premises of the round trip: legal words of every family. -/
theorem test_encodable : ∀ i ∈ intForms ++ predForms ++ floatForms ++ quietForms ++ uniForms ++ uniStreamForms ++ fileForms ++ storeForms ++ userForbidden,
    i.wf = true ∧ headOf i ≠ .event ∧ ((headOf i).tidy = true ∨ i = .fence (ux (.k 0) (.k 0) z 0)) := by decide +kernel

/-- A state with the invariant that steps to a next state. -/
theorem test_invariant : (Memory.wf grp.mem && Memory.wf grp.spad && sortedKeys grp.cores && sortedKeys grp.clusters && sortedKeys grp.parts &&
    sortedKeys grp.groups && sortedKeys grp.streams && sortedKeys grp.blocks && sortedKeys grp.bars && decide (grp.idn = State.reset.idn)) = true ∧
    (match step grp with | .next _ => true | _ => false) = true := by
  constructor <;> decide +kernel

/-- A read of a register with an outstanding write, which may give what it held before. -/
theorem test_hazard : outCovers { pc := 0, regs := [.v 3], lanes := 1, before := {}, sq := none, landed := false } (.v 3) 0 = true := by decide +kernel

/-! ## Events -/

/-- The events of the host: a region to release, a session to close, addresses that memory serves and that none serves. -/
theorem test_host_events :
    (rtValid (getRt regioned (curRt regioned)) && !regionBusy regioned (curRt regioned) && sortedKeys regioned.groups &&
     (let s : State := { grp with trace := { grp.trace with sessions := [(0, { ctl := 1 })] } }
      sessOpen (getSession s (tsIdx s))) &&
     [true, false].all (fun host => served_ grp host 0x10000 1 && served_ grp host 0 8 && !served_ grp host (2 ^ 60) 8 && !served_ grp host 0x1800000 1) &&
     served_ grp true 0x800000000000 8 && !served_ grp false 0x800000000000 8) = true := by decide +kernel

/-- A test of lineQuiet. -/
def stillLine (s : State) (l : Nat) : Bool :=
  (getDir s l).priv.isEmpty && (liveLeases s l).isEmpty && (foreignHolders s outsideCore l).isEmpty && !storeWaits s l

/-- Links up and down; quiet lines for a plain write, a cas and an add; a peer's write from the root switch. -/
theorem test_outside_access :
    linksUp grp = true ∧ linksUp { grp with boot := { grp.boot with phase := .stopped } } = false ∧
    linksUp { grp with boot := { grp.boot with phase := .recovery 1 } } = false ∧
    (hostAtom (about [] grp).subj = .plain ∧ subjReps (about [] grp).subj = []) ∧
    hostAtom (about [0, 7] grp).subj = .cas 7 ∧ hostAtom (about [1] grp).subj = .add ∧
    ((linesOf 0x10100 8).all (stillLine grp) && unheld grp) = true ∧
    (subjReps (about [511, 0x10100, 1, 0x30100] grp).subj = [(511, 0x10100), (1, 0x30100)] ∧ grp.coh.reps = [] ∧
      served_ grp false 0x10100 8 = true) := by
  refine ⟨?_, ?_, ?_, ?_, ?_, ?_, ?_, ?_⟩ <;> decide +kernel

/-- The events of the package. -/
def faultless : State := { grp with cores := mput grp.cores 0 { getCore grp 0 with corestat := 1 } }
def asked (code : Byte) : State := { grp with boot := { grp.boot with busy := true, len := 2, req := [0x12, code] } }

theorem test_package_events :
    (let up : State := { grp with boot := { grp.boot with phase := .up } }
     up.boot.phase == .up && bit ({ grp.clk with tstat := 0x80000000 } : Clock).tstat.toNat 31 &&
     bit ({ grp.clk with tstat := 0x40000000 } : Clock).tstat.toNat 30 && clockOk 300 && clockOk 1050 && clockOk 0xA0001A9) = true ∧
    ((ownTick .idle).cycles ≠ 0 ∧ ({ grp with clk := { grp.clk with change := some 300 } } : State).clk.change = some 300) ∧
    ([0, 1].all fun port =>
      let s : State := { grp with cores := mput grp.cores 0 { getCore grp 0 with corestat := if port = 0 then 0x10101 else 0x1011 } }
      bit (getCore s 0).corestat.toNat 0 && !bit (getCore s 0).corestat.toNat (4 + 4 * port) &&
      bit (getCore s 0).corestat.toNat (4 + 4 * (1 - port)) && calm s && (partLaunches s 0 0 == [0]) &&
      (mfind s.mail.launches 0).any (fun l => l.dying.isNone)) = true ∧
    (([0, 1, 2, 3].all fun p => [0, 1].all fun port => (about [0, p, port] faultless).subj == [0, p, port] &&
      bit (getCore faultless 0).corestat.toNat 0 && !bit (getCore faultless 0).corestat.toNat (4 + 4 * port + p) &&
      !bit (getCore faultless 0).corestat.toNat (4 + 4 * (1 - port) + p)) &&
     (let s : State := { grp with idn := { grp.idn with lnkstat := 0x800000000 } }
      s.idn.lnkstat.getLsbD 35)) = true ∧
    (subjAt (about [7] grp) 0 < 8 ∧ launchAt (about [1] grp) (subjAt (about [1] grp) 0) = some 0 ∧
     spadOwner (onB (fun b => { b with spSize := 4096 }) grp) 0 4095 = some 0) ∧
    ((spdmEvents.all fun e => (asked (BitVec.ofNat 8 e.2)).boot.busy && requestCode (asked (BitVec.ofNat 8 e.2)).boot == e.2) &&
     !spdmCodes.contains (requestCode (asked 0xFF).boot)) = true := by
  refine ⟨?_, ?_, ?_, ?_, ?_, ?_⟩ <;> decide +kernel

/-- An agent parked on a kind of wait. -/
def parkedU (k : WaitKind) (u : UCtx) : UCtx := { u with wait := some { kind := k, pc := 0x10000, next := 0x10004, lanes := BitVec.allOnes 32, mark := false } }
def parked (k : WaitKind) (s : State) : State :=
  onS (fun x => { x with u := parkedU k x.u }) (onG (fun g => { g with u := parkedU k g.u }) s)

theorem test_wait_returns :
    ([[0, 0], [1, 0]].all fun subj =>
      let s := about subj (parked (.kcwait 5 0) strm)
      (agentU s (subjAgent s)).any (fun u => u.wait.any (fun w => w.kind == .kcwait 5 0) && getKc u.regs.u 0 == 0)) = true ∧
    (let s := about [0] (parked (.pmwait 5) armed0)
     (mfind s.groups 0).any (fun g => (pmReady s g).isSome && g.u.wait.isSome)) = true ∧
    (let mon (v : DWord) : State := onG (fun g => { g with mons := [(3, { addr := 0x10000, value := v, place := [⟨.phys 0x10000 false, 8⟩] })] }) grp
     (mfind (mon 1).groups 0).any (fun g => monDiffer (parked (.monWait 5 none) (mon 1)) (coreOfG 0) g != 0 &&
       (monPoison (mon 1) g).isNone && (monDenied (mon 1) (coreOfG 0) g).isEmpty && !g.mons.any monBlind && (monBlocked (mon 1) g).isNone) &&
     (mfind (mon 0).groups 0).any (fun g => monDiffer (parked (.monWait 5 (some 0)) (mon 0)) (coreOfG 0) g == 0 &&
       (monPoison (mon 0) g).isNone && !g.mons.any monBlind)) = true ∧
    ([[0, 0], [1, 0]].all fun subj =>
      let s := about subj (parked (.nap 2048) (later strm))
      ((agentU s (subjAgent s)).bind (·.wait)).any (fun w => w.kind == .nap 2048) && decide (2048 ≤ s.clk.cyc)) = true := by
  refine ⟨?_, ?_, ?_, ?_⟩ <;> decide +kernel

theorem test_ring_and_barrier_returns :
    (let s := windowed {}
     (ringAt s (agentBlk s (.group 0)) 0).any (fun r => decide (countDiff r.pr r.f < r.ns) && decide (countDiff r.p r.a ≠ 0))) = true ∧
    ([[0, 0], [1, 0]].all fun subj =>
      let s := about subj (parked (.barWait 5 15 true) strm)
      (partyOf s (subjAgent s)).any (fun x => waitOver s x 15 && x.u.wait.isSome) &&
      [none, some 5].all (fun sync => (partyOf (parked (.arrive 15 sync) strm) (subjAgent s)).any (fun x =>
        !hasArrived (parked (.arrive 15 sync) strm) x 15 && x.u.pend.isEmpty && x.u.wait.any (fun w => w.kind == .arrive 15 sync) &&
        (mfind strm.blocks x.blk).isSome)) && calm strm) = true := by
  constructor <;> decide +kernel

/-- A spawn that waits for pigeonholes, at its word; a migration of the group's page. -/
def spawning : State := about [0] (parked (.retry .holes) { placeWord State.reset (0x34800A14 + 0x87E70000 * 2 ^ 32) with agenda := [] })
def migrating : State :=
  about [0] { parked (.migration 5) grp with
    coh := { grp.coh with migs := [{ uid := 2, asid := 0, va := 0x10000, log2 := 16, old := 0x10000, new := 0x50000, pteAt := 0x20008 }] } }

theorem test_spawn_and_migration_returns :
    (spawnAgain spawning (subjAt spawning 0)).any (fun x => passes (.spawn x.2.1) anyProfile x.2.2 x.1 &&
      (lanesOf (x.1.active x.2.1.g x.2.1.gn)).all (fun l => x.1.src 0 .n64 x.2.1.a l % 4 == 0)) = true ∧
    (mfind migrating.groups 0).any (fun g => sortedKeys migrating.groups && (migOf migrating g.uid).any (fun m => migReady migrating m &&
      decide (m.pteAt + 8 ≤ m.new) && migrating.coh.dirs.isEmpty && migrating.coh.homeq.isEmpty)) = true := by
  constructor <;> decide +kernel

/-- A group whose paths stand at uniform words with no released one. -/
def standing : State :=
  onG (fun g => { g with sched := { g.sched with released := none, passed := 0, hold := (List.range 32).map (fun l => (l, 64)), age := (List.range 32).map (fun l => (l, 64)) } })
    { placeWord State.reset 0x9FC00000 with agenda := [] }

theorem test_paths :
    (mfind standing.groups 0).any (fun g => (holdRelease standing 0 g).isSome && (convRelease standing 0 g).isSome &&
      (pathsOf g).any (fun q => decide (ageLimit standing (coreOfG 0) ≤ pathAge g q.2))) = true := by decide +kernel

/-- An outstanding result, and a marker at which every result has landed. -/
def outstanding (landed : Bool) (s : State) : State :=
  let f (u : UCtx) : UCtx := { u with mark := true, outs := [{ pc := 0, regs := [.k 3], lanes := 1, before := {}, sq := none, landed := landed }] }
  onS (fun x => { x with u := f x.u }) (onG (fun g => { g with u := f g.u }) s)

/-- An mst of one row of a tile that counts on kc2. -/
def mstOp : Op :=
  { id := 9, kind := .store 3 0 (some 2), rows := [[⟨.phys 0x10100 false, 64⟩]], obR := [], obW := [], tR := [3], tW := [] }
def opened (o : Op) : State := about [0, 0] (onS (fun x => { x with ops := [o] }) strm)

theorem test_landings :
    ([[0, 0], [1, 0]].all fun subj =>
      (agentU (about subj (outstanding true strm)) (subjAgent (about subj strm))).any (fun u => u.mark && u.outs.all (·.landed)) &&
      (agentU (about subj (outstanding false strm)) (subjAgent (about subj strm))).any landable) = true ∧
    (mfind (opened mstOp).streams 0).any (fun x => (kcStore x).isSome &&
      ((mfind (opened mstOp).blocks x.blk).bind (·.mat)).isSome && (goneRun (opened mstOp) (physRuns (opened mstOp) (mstOp.rows.headD []))).isNone &&
      piecesReady (opened mstOp) (.op 9) (mstOp.rows.headD [])) = true := by
  constructor <;> decide +kernel

/-- Pending releases: a put and a free of ring 0, an arrival of every lane and of one lane. -/
def pendingG (k : PendKind) (s : State) : State :=
  onB (fun b => { b with nbars := [(3, { members := [4, 3] })] }) (onG (fun g => { g with u := { g.u with pend := [{ kind := k, after := 0 }] } }) (later s))

theorem test_recordings :
    ([PendKind.put 0 1 7, .putFree 0].all fun k => (ringPendNow (pendingG k (windowed {})) (.group 0)).any (fun q => (pendRing q).isSome)) = true ∧
    ([PendKind.arrive 3 (BitVec.allOnes 32) (BitVec.allOnes 32), .arrive 3 1 (BitVec.allOnes 32)].all fun k =>
      (partyOf (pendingG k grp) (.group 0)).any (fun x => (x.u.pend.find? (arrivesNow (pendingG k grp) x)).any (fun q => q.kind == k) &&
        (mfind (pendingG k grp).blocks x.blk).isSome) && calm (pendingG k grp)) = true := by
  constructor <;> decide +kernel

/-- A packet of one block of one vector group, and of two; a queue with a work area. -/
def packet (late start : DWord) (more : DWord) : List DWord :=
  [0, 0x0010000001000000, more, 0x2001000000000000, 0, 0x10000, 0, 0, late, start, 0, 0, 0, 0, 0, 0]
def launching (late start more : DWord) (ctl : DWord) (next : Nat) : State :=
  { later grp with
    groups := [], blocks := []
    mail := { grp.mail with queues := [(0, { ctl := ctl, work := 0x10000200 })]
                            launches := [(0, { queue := 0, seq := 1, addr := 0x10100, pkt := packet late start more, next := next })] } }

/-- A pending pigeonhole of one thread. -/
def pendingHole : State :=
  let s := launching 0 0 0 9 1
  { s with cores := mput s.cores 0 { getCore s 0 with holes := [(0, { entry := 0x10000, launch := 0, threads := [[1, 2, 3, 4]], expiry := 5, part := 3, pending := some 0 })] } }

theorem test_ends :
    sortedKeys (getCore pendingHole 0).holes = true ∧
    (spawnWhere pendingHole 0).any (fun x => decide (x.2.1.threads.length ≤ 32)) = true ∧
    (let s := onG (fun g => { g with ending := true }) grp
     (mfind s.groups 0).any groupDone && calm s) = true ∧
    ((mfind (onS (fun x => { x with stopped := true }) strm).streams 0).any streamDone && calm strm) = true ∧
    (let s := onS (fun x => { x with trap := some { cause := 9, addr := 0, pc := 0x10000, next := 0x10004, delivered := false } }) strm
     (hostGroup s 1).any (fun e => decide (mfind s.groups e.1 = some e.2) && !stallsNow s e.2 && !e.2.tr.bankS.active &&
       (trapWaits e.2.u).isNone) && calm s) = true := by
  refine ⟨?_, ?_, ?_, ?_, ?_⟩ <;> decide +kernel

/-- A store at the head of a queue. -/
def queued (p : Place) : State :=
  onG (fun g => { g with sq := [{ id := 1, kind := .store, rel := 0, items := [⟨0, [⟨p, 4⟩], 5, 0⟩], frank := 0 }] }) grp

/-- What is on its way between the homes and the cores. -/
def aLine : Line := { data := List.replicate 128 7, lexp := 0, tracked := true, nc := false, tags := [] }
def inFlight : State :=
  { later grp with coh := { grp.coh with
      homeq := [{ id := 4, core := 0, uid := 2, line := 514, bytes := [(0x10100, 1)], until_ := 5, acks := [], frank := 0 },
                { id := 5, core := 0, uid := 2, line := 515, bytes := [(0x10180, 1)], until_ := 5, acks := [7], frank := 0 }]
      leases := [{ core := 1, line := 514, lexp := 5 }]
      acks := [(5, 7)]
      invals := [{ core := 7, line := 515, seq := 1, wid := 5 }]
      fills := [{ core := 8, line := 516, copy := aLine, seq := 2, held := some (1, 5) }, { core := 8, line := 517, copy := aLine, seq := 0, held := some (1, 5) }]
      notices := [(0, 0, 3)]
      watches := [{ id := 1, core := 8, line := 516, uid := 2, limit := 9, fired := true, tag := 3, region := 0 },
                  { id := 2, core := 8, line := 516, uid := 2, limit := 9, fired := false, tag := 3, region := 0 }]
      reps := [(4, [(0x20000, 1)]), (3, [(0x20000, 2)])] } }

/-- A fill whose line an invalidation of its core meets. -/
def crossing : State :=
  { grp with coh := { grp.coh with invals := [{ core := 8, line := 516, seq := 1, wid := 5 }]
                                   fills := [{ core := 8, line := 516, copy := aLine, seq := 2, held := none }] } }

theorem test_memory_events :
    ([Place.spad 0 8, .phys 0x10100 true].all fun p => (mfind (queued p).groups 0).any (fun g => g.sq.all (fun e =>
      headReady (queued p) (coreOfG 0) e && (entryPoison (queued p) e).isNone))) = true ∧
    (homeHead inFlight 514).any (homeReady inFlight) = true ∧
    (inFlight.coh.acks[0]? = some (5, 7) ∧ (inFlight.coh.invals[0]?).isSome = true ∧ (inFlight.coh.fills[1]?).isSome = true ∧
      inFlight.coh.notices[0]? = some (0, 0, 3) ∧ inFlight.coh.dirs = []) ∧
    (inFlight.coh.invals.all fun x => inFlight.coh.fills.all fun f => !(f.core == x.core && f.line == x.line)) = true ∧
    (watchId inFlight 1).any (fun w => w.fired && w.limit != 0) = true ∧
    (watchId inFlight 2).any (fun w => !w.fired && w.limit != 0 && decide (w.limit ≤ inFlight.clk.cyc)) = true ∧
    (takeRep 3 ({ inFlight with coh := { inFlight.coh with homeq := [] } } : State).coh.reps = some ([(0x20000, 2)], [(4, [(0x20000, 1)])]) ∧
      (cellLines [(0x20000, 2)]).all (lineReady inFlight (.replica 3)) = true ∧ lineReady inFlight (.replica 3) 515 = false) ∧
    ((crossing.coh.invals[0]?).bind (fun x => crossing.coh.fills.find? (fun f => f.core == x.core && f.line == x.line))).map (·.held) = some none ∧
    (inFlight.coh.fills.all fun f => (privOwn inFlight f.core f.line).isNone) = true ∧
    (inFlight.coh.watches.all fun w => (privOwn inFlight w.core w.line).isNone) = true ∧
    (getDir { grp with coh := { grp.coh with dirs := [(514, { priv := [{ core := 3, mask := [1], data := [(1, 9)] }] })] } } 514).priv ≠ [] := by
  refine ⟨?_, ?_, ?_, ?_, ?_, ?_, ?_, ?_, ?_, ?_, ?_⟩ <;> decide +kernel

/-- A table whose entry 0 names itself and whose entry 1 is the leaf of page 1, and a walk of that page or of page 2. -/
def tables (s : State) : State :=
  { s with mem := writeCells s.mem (cellsAt 0x20000 (toBytes 8 0x20001) ++ cellsAt 0x20008 (toBytes 8 0x1007B)) }
def walking (page : Nat) : State :=
  let s := onB (fun b => { b with tctx := 0x20000 }) (tables grp)
  { s with clusters := mput s.clusters 0 { getCluster s 0 with merge := [
      { asid := 0, page := page, who := 4, blk := 1, core := 0, user := false, cause := none, recorded := false, taken := false
        rcd := { kind := 1, va := page * 65536, asid := 0, frank := 0, acc := 0, part := 0, slot := 0, core := 0, lane := 0, count := 0 } }] } }

theorem test_walks :
    ([1, 2].map fun p => (mergeNth (walking p) 0 0).map (fun m =>
      (m.cause.isNone, match walkEnd (walking p) (entryTctx (walking p) m) m.asid m.rcd.va (accOf m.rcd.acc) m.user with
        | .inl _ => 0
        | .inr c => c))) = [some (true, 0), some (true, 8)] ∧
    (let s : State := { grp with faults := { grp.faults with pend := [(0, { kind := 3, va := 0, asid := 0, frank := 0, acc := 0, part := 0, slot := 0, core := 0, lane := 0, count := 1 })] } }
     !faultRingFull s.faults && physExists s (fld s.faults.cfg 47 12 * 4096) && s.idn.hevt == 0 &&
     (linesOf (fld s.faults.cfg 47 12 * 4096 + 32 * (fld s.faults.ptr 31 0 % 2 ^ fld s.faults.cfg 4 0)) 32).all (lineReady s .record)) = true := by
  constructor <;> decide +kernel

/-- A group that names a mapped page and a frame for it, and one whose earlier store has not been performed. -/
def migrator : State := withK [(2, 0x10100), (5, 0x50000)] (onB (fun b => { b with tctx := 0x20000 }) (tables grp))
def storing : State :=
  onG (fun g => { g with sq := [{ id := 1, kind := .store, rel := 0, items := [⟨0, [⟨.spad 0 8, 4⟩], 5, 0⟩], frank := 0 }] }) addressed

theorem test_translation_waits :
    (∃ c, Issues (.pgmig (un (.k 3) (.k 2) (.fld (.k 5)))) anyProfile migrator c ∧ (c.sys = true ∧ c.strm = false ∧
      fld (BitVec.ofNat 64 (c.ua (un (.k 3) (.k 2) (.fld (.k 5))))) 63 56 = 0 ∧
      (match migCheck migrator c.blk.tctx (asidOf c (un (.k 3) (.k 2) (.fld (.k 5)))) (c.ua (un (.k 3) (.k 2) (.fld (.k 5)))) (c.ub (un (.k 3) (.k 2) (.fld (.k 5)))) with
       | .inl _ => false
       | .inr _ => true) = true ∧ migrator.coh.migs = [] ∧ sortedKeys migrator.cores = true)) ∧
    ∃ c, Issues (.tlbinv (ux (.k 0) (.k 2) z 0)) anyProfile storing c ∧ (c.sys = true ∧ accessesLeft storing c.core 0 storing.nextId = true ∧
      sortedKeys storing.cores = true ∧ sortedKeys storing.clusters = true ∧ sortedKeys storing.groups = true) :=
  ⟨ctx_of (by decide +kernel), ctx_of (by decide +kernel)⟩

/-- A window of 8 bytes whose copy runs on courier 1 of core 0, or waits in the queue, or may be fetched ahead. -/
def lay8 : Map DWord := [(0, 0x10000), (1, 0x06000100), (2, 8), (9, 8)]
def job (out : Bool) : CopyJob := { blk := 1, win := 0, out := out, ra := false, uid := 2, after := 0 }
def copying (out : Bool) : State :=
  let s := later <| windowed { winIn (if out then .copyout else .copyin) with layout := lay8 }
  { s with cores := mput s.cores 0 { getCore s 0 with couriers := [(1, job out)] } }
def waitingCopy : State :=
  let s := later (windowed (winIn .copyin))
  { s with cores := mput s.cores 0 { getCore s 0 with copyq := [job false] } }
def leading : State := onB (fun b => { b with wins := [(0, { winIn .copyin with layout := lay8 }), (1, { winIn .absent with off := 4096 })] }) (windowed {})

theorem test_couriers :
    ([false, true].all fun out => (copyOf (copying out) 0 1 out).any (fun x => x.2.1.core == 0 && !(groupsOfBlk (copying out) x.1.blk).isEmpty) &&
      sortedKeys (getCore (copying out) 0).couriers && calm (copying out)) = true ∧
    (idleCourier (getCore waitingCopy 0) == some 0 && (mfind waitingCopy.blocks 1).any (fun b => forkDone waitingCopy b (getWin b 0) (job false)) &&
      waitingCopy.clk.cyc != (job false).cyc && calm waitingCopy) = true ∧
    ((getCore leading 0).copyq.isEmpty && idleCourier (getCore leading 0) == some 0 && aheadOf leading 0 == [(1, 1)] &&
      (mfind leading.blocks 1).any (fun b =>
        forkDone leading b (getWin b 1) { blk := 1, win := 1, out := false, ra := true, uid := (getWin b 1).uid, after := (getWin b 1).after }) &&
      calm leading) = true := by
  refine ⟨?_, ?_, ?_⟩ <;> decide +kernel

theorem test_engine_ends :
    ([OpKind.load 0 64 8 16 0, .store 3 0 none, .sdec 0 64 0 1 0 2].all fun k =>
      let s := opened { mstOp with kind := k }
      (opAt s 0 0).any (fun x => x.2.kind == k && ((mfind s.blocks x.1.blk).bind (·.mat)).isSome) && s.coh.poison.isEmpty &&
      s.coh.removed.isEmpty && unheld s && (goneRun s (mstOp.rows.flatMap (physRuns s))).isNone && piecesReady s (.op 9) mstOp.rows.flatten &&
      (blockedBy s (mstOp.rows.flatMap (physRuns s))).isNone) = true := by decide +kernel

/-- A queue that is not enabled, one whose HEAD is no dword address, one whose anchor names a packet. -/
def anchored (ctl head : DWord) : State :=
  let s := tables (launching 0 0 0 9 1)
  let s := { s with mem := writeCells s.mem (cellsAt 0x10040 (toBytes 8 0x10100) ++ cellsAt 0x10100 ((packet 0 0 0).flatMap (fun (d : DWord) => toBytes 8 d.toNat))) }
  { s with idn := { s.idn with cap := s.idn.cap ||| 0x4000000 }, cores := mput s.cores 0 { getCore s 0 with corestat := 1 }
           mail := { s.mail with queues := [(0, { ctl := ctl, tctx := 0x20000, work := 0x10000200, head := head })] } }

/-- What the statement of an anchor's read asks, when it admits or refuses a packet. -/
def admits (ok : Bool) (s : State) : Bool :=
  let x := getQueue s 0
  match frontRead s x.tctx x.head.toNat 8 with
  | .inl as =>
    let p := BitVec.ofNat 64 (ofBytes as)
    match frontRead s x.tctx p.toNat 128 with
    | .inl bs => p != 0 && fld p 63 56 == 0 && p.toNat % 128 == 0 &&
        let l0 : Launch :=
          { queue := 0, seq := (x.count + 1) % 65536, addr := p
            pkt := (List.range 16).map (fun i => BitVec.ofNat 64 (ofBytes ((bs.drop (8 * i)).take 8)))
            priv := fld x.ctl 3 3 == 1 }
        (refusal s x { l0 with fmts := kernelFmts s l0 } == 0) == ok && !frontHeld s && fld x.ctl 0 0 == 1
    | .inr _ => false
  | .inr _ => false

theorem test_anchors :
    fld (getQueue (anchored 8 0x10040) 0).ctl 0 0 = 0 ∧ (getQueue (anchored 9 0x10041) 0).head.toNat % 8 ≠ 0 ∧
    frontHeld (anchored 9 0x10041) = false ∧ admits true (anchored 9 0x10040) = true ∧
    admits false { anchored 9 0x10040 with cores := [] } = true := by
  refine ⟨?_, ?_, ?_, ?_, ?_⟩ <;> decide +kernel

/-- A launch whose kill by a reset is over. -/
def dyingL : State :=
  let s := launching 0 0 0 9 1
  { s with mail := { s.mail with launches := s.mail.launches.map (fun e => (e.1, { e.2 with dying := some (3, 0) })) } }

theorem test_launch_events :
    (let s := launching 0 0 0 9 1
     (mfind s.mail.launches 0).any (fun l => l.dying.isNone && launchDone s 0 l) && calm s) = true ∧
    (let s := dyingL
     (mfind s.mail.launches 0).any (fun l => l.dying == some (3, 0) && !hasBlocks s 0 && allAdded s l) && s.mail.saved.isEmpty &&
     s.trace.sessions.isEmpty && calm s) = true ∧
    (startReached (launching 0 1 0 9 0) 0 && !startReached grp 0) = true ∧
    ([0x19, 0x09].all fun ctl =>
      let s := launching 1 0 0 ctl 0
      (headOfQ s 0).any (fun e => isLate s e.2 && !e.2.late) && !frontHeld s && calm s)
      = true := by
  refine ⟨?_, ?_, ?_, ?_⟩ <;> decide +kernel

/-- A launch to be placed, and one of two blocks whose first, with a core's whole scratchpad, has waited at a cluster barrier for
1,024 cycles. -/
def placing : State := launching 0 0 0 9 0
def rotating : State :=
  parked (.barWait 5 16 false) { later (onB (fun b => { b with spSize := 0x100000 }) grp) with
    mail := { grp.mail with queues := [(0, { ctl := 9, work := 0x10000200 })]
                            launches := [(0, { queue := 0, seq := 1, addr := 0x10100, pkt := packet 0 0 0x4000000000, next := 1, stuck := some 1024 })] } }

/-- The same launch with its one block saved. -/
def savedOne : State :=
  let s := tables (launching 0 0 0 9 1)
  let blk : Block := { launch := 0, num := 0, blkid := 0, core := 0, part := 0, spBase := 0, spSize := 0, winN := 0, tctx := 0x20000, since := 0, spawned := false }
  { s with mail := { s.mail with
      launches := s.mail.launches.map (fun e => (e.1, { e.2 with reserve := [(0x10000, 0x10000)] }))
      saved := [{ id := 1, blk := blk, groups := [], stream := none, spad := [], image := some (cellsIn s [(0x10000, 65536)]) }] } }

theorem test_arbitration :
    ((List.range 64).all (fun q => (lateStep placing q).isNone) && (served placing).map (·.1) == [0] && placing.mail.saved.isEmpty &&
     startReached (launching 0 1 0 9 0) 0 && calm placing &&
     (mfind placing.mail.launches 0).any (fun l => decide (l.next < pktBlocks l) && (placeWhere placing l l.next).isSome &&
       (match readArgs placing l with
        | .inl _ => true
        | .inr _ => false))) = true ∧
    ((List.range 64).all (fun q => (lateStep savedOne q).isNone) && (served savedOne).map (·.1) == [0] && calm savedOne &&
     (mfind savedOne.mail.launches 0).any (fun l => (oldestSaved savedOne 0 none).any (fun x => (restoreWhere savedOne l x).isSome &&
       (match readImage savedOne l x with
        | .ok => true
        | _ => false) && decide (x.groups.length ≤ (blockBudget l x.blk).groups)))) = true ∧
    ((mfind rotating.mail.launches 0).any (fun l => rotReady rotating 0 l && rotCores rotating 0 l == [0] &&
       (longest rotating 0 0).any (fun e => e.1 != rotating.nextId) && (waitsOn rotating 0 l 0).any (fun w =>
         match w with
         | .inl _ => false
         | .inr i => i == 1)) && calm rotating && rotating.mail.saved.isEmpty) = true := by
  refine ⟨?_, ?_, ?_⟩ <;> decide +kernel

/-- A buffered card of one session, a period that may end, a sample. -/
def buffering : State :=
  { grp with trace := { grp.trace with sessions := [(2, { ctl := 1, ring := 0x30008 })] }
             clusters := mput grp.clusters 0 { getCluster grp 0 with stall := some 5, cards := [{ card := ⟨1, 2, 3, 4⟩, who := [2], written := false }] }
             parts := mput grp.parts 0 { getPart grp 0 with sampling := some ⟨1, 2, 3, 4⟩, tagging := some ⟨2, 2, 3, 4⟩ } }

theorem test_trace_events :
    ((getCluster buffering 0).cards.map (·.who) == [[2]] && !ringIsFull (getSession buffering 2) && (getSession buffering 2).drops == 0 &&
     physExists buffering 0x30000 && (linesOf 0x30000 32).all (lineReady buffering (.drain 0)) && !dropStands buffering 2 && stallLow buffering 0 &&
     (getPart buffering 0).sampling.isSome && (getPart buffering 0).tagging.isSome && calm buffering) = true := by decide +kernel

/-- A counter with an event of an earlier cycle, and one whose cntcfg of that cycle won. -/
theorem test_counter_events :
    (let due : List CtEvt := [{ frank := 0, ev := 1, n := 5, cyc := 3 }]
     ctEvent ({ ev := [(2, 1)] } : CtSet) 2 = 1 ∧ mfind ({ ev := [(2, 1)] } : CtSet).wrote 2 = none ∧
     mfind ({ ev := [(2, 1)], wrote := [(2, { cyc := 3, who := 0, val := 7, ovf := false, ev := 1 })] } : CtSet).wrote 2 =
       some { cyc := 3, who := 0, val := 7, ovf := false, ev := 1 } ∧ due.all (fun z => z.cyc == 3) = true) := by
  decide +kernel

/-! ## Code objects (19: R419 to R428) -/

/-- An object of one kernel and no text: header, descriptor at 64 with one vector group and kf1 set, erratum entries at
192. -/
def object (magic : Nat) (errs : List Nat) (flags fmt1 : Nat) (text : List Byte) : List Byte :=
  toBytes 4 magic ++ toBytes 2 1 ++ toBytes 1 1 ++ toBytes 1 1 ++ toBytes 1 1 ++ toBytes 1 flags ++ toBytes 2 errs.length ++
  toBytes 2 1 ++ toBytes 2 0 ++ toBytes 4 256 ++ toBytes 4 text.length ++ toBytes 8 0 ++ toBytes 4 64 ++ toBytes 4 192 ++
  toBytes 8 0 ++ toBytes 4 0 ++ toBytes 12 0 ++
  toBytes 4 0 ++ toBytes 1 16 ++ toBytes 1 16 ++ toBytes 1 0 ++ toBytes 1 2 ++ toBytes 8 0 ++ toBytes 8 (2 ^ 64 - 1) ++
  toBytes 8 0 ++ toBytes 8 (2 ^ 64 - 1) ++ toBytes 1 0 ++ toBytes 1 1 ++ toBytes 22 0 ++ toBytes 8 0 ++ toBytes 8 fmt1 ++
  toBytes 48 0 ++ errs.flatMap (toBytes 4) ++ toBytes (64 - 4 * errs.length) 0 ++ text

/-- The worked example of R422 and R423, and the errors of R421. -/
theorem test_objects :
    [object 0x4F4C4B43 [0x14, 0x11] 0 0x2841C341 [], object 0x4F4C4B42 [] 0 0x2841C341 [], object 0x4F4C4B43 [0x20] 0 0x2841C341 [],
     object 0x4F4C4B43 [] 1 0x2841C341 [], object 0x4F4C4B43 [] 0 0x2841C342 []].map (fun i => loaderError grp i []) =
      [0, 1, 4, 5, 6] ∧
    objCompat (object 0x4F4C4B43 [0x14, 0x11] 0 0x2841C341 []) = 3 ∧
    objUzora (object 0x4F4C4B43 [0x14, 0x11] 0 0x2841C341 []) = false := by
  refine ⟨?_, ?_, ?_⟩ <;> decide +kernel

/-- The sum of R84's worked example and the product of R83's. -/
theorem test_uzora_sums :
    uzSum .f32 4 [0x4B800000, 0x3F800000, 0x3F800000, 0x3F800000] = 0x4B800001 ∧
    uzDot { ty := .bf16, shape := (1, 8), elems := 0x4580 :: List.replicate 7 0x3F80 }
      { ty := .bf16, shape := (8, 1), elems := 0x4580 :: List.replicate 7 0x3F80 } 0 0 = 0x4B800004 := by
  constructor <;> decide +kernel

/-- A clean line and one that a write of its core waits for. -/
theorem test_clean_lines :
    lineClean grp 0 5 = true ∧
    lineClean { grp with coh := { grp.coh with homeq :=
      [{ id := 1, core := 0, uid := 2, line := 5, bytes := [(640, 1)], acks := [1], frank := 0, until_ := 0 }] } } 0 5 = false := by
  constructor <;> decide +kernel

end Sys2Proof.Tests
end

section
/-! PROOFS. The invariant of every step (O10, O11), and the events of the package (O55). -/

namespace Sys2Proof.Machine

/-! ## The fuses (R14 to R16) -/

/-- A write of CAP's bring-up fields keeps the fused ones (R15). -/
theorem capWith_fused (old v : DWord) : capWith old v &&& 0xFFFFFF = old &&& 0xFFFFFF := by
  have fused : (0x0000000000FFFFFF : DWord) &&& 0xFFFFFF = 0xFFFFFF := by decide
  have brought : (0x0000FFFFFC000000 : DWord) &&& 0xFFFFFF = 0#64 := by decide
  rw [capWith, BitVec.and_or_distrib_right, BitVec.and_assoc, BitVec.and_assoc, fused, brought, BitVec.and_zero,
    BitVec.or_zero]

theorem sameFuses_trans {i j k : Ident} (h : sameFuses i j) (h' : sameFuses j k) : sameFuses i k := by
  obtain ⟨prof, errwin, cap⟩ := h
  obtain ⟨prof', errwin', cap'⟩ := h'
  exact ⟨prof.trans prof', errwin.trans errwin', cap.trans cap'⟩

/-- No update changes what is fused: only CAP's own write and a package reset reach a register with fused fields. -/
theorem sameFuses_apply (u : Upd) (s : State) : sameFuses (u.apply s).idn s.idn := by
  refine ⟨(fuses_apply s u).1, (fuses_apply s u).2, ?_⟩
  cases u with
  | ident r v =>
    cases r with
    | cap => exact capWith_fused s.idn.cap v
    | _ => rfl
  | reset => exact capWith_fused s.idn.cap 0
  | _ => rfl

/-! ## The invariant -/

/-- Every update keeps the invariant: a store keyed by places stays rising, a memory is written only as bytes. -/
theorem inv_apply (u : Upd) (s : State) (h : State.Inv s) : State.Inv (u.apply s) := by
  have fuses : sameFuses (u.apply s).idn State.reset.idn := sameFuses_trans (sameFuses_apply u s) h.fuses
  cases u with
  | mem cs => exact { h with mem := wf_writeCells cs _ h.mem }
  | spad cs => exact { h with spad := wf_writeCells cs _ h.spad }
  | core n c => exact { h with cores := sortedKeys_mput _ n c h.cores }
  | cluster n c => exact { h with clusters := sortedKeys_mput _ n c h.clusters }
  | part n p => exact { h with parts := sortedKeys_mput _ n p h.parts }
  | group n g => exact { h with groups := sortedKeys_mput _ n g h.groups }
  | delGroup n => exact { h with groups := sortedKeys_mdel _ n h.groups }
  | stream n t => exact { h with streams := sortedKeys_mput _ n t h.streams }
  | delStream n => exact { h with streams := sortedKeys_mdel _ n h.streams }
  | block n b => exact { h with blocks := sortedKeys_mput _ n b h.blocks }
  | delBlock n => exact { h with blocks := sortedKeys_mdel _ n h.blocks }
  | bar n b => exact { h with bars := sortedKeys_mput _ n b h.bars }
  | reset => exact ⟨h.mem, rfl, rfl, rfl, rfl, rfl, rfl, rfl, rfl, fuses⟩
  | _ => exact { h with fuses := fuses }

/-- Settles O10: a step is a list of updates, and every update keeps the invariant. -/
theorem invariantKept : Obligations.InvariantKept := by
  unfold Obligations.InvariantKept
  intro s t hs ht
  exact step_induct inv_apply hs ht

/-- Settles O11: after reset every store is empty and the fuses are the manufactured ones. -/
theorem invariantAtReset : Obligations.InvariantAtReset := by
  unfold Obligations.InvariantAtReset
  exact ⟨rfl, rfl, rfl, rfl, rfl, rfl, rfl, rfl, rfl, ⟨rfl, rfl, rfl⟩⟩

/-! ## The event word of a host event (R439) -/

/-- A package whose HEVT names the event words at 0x40, with a write that waits at the home of line 1 and yet holds a byte of
line 0, at 96: the low byte of the event word of kind 4. -/
def strayWriteState : State :=
  { State.reset with
    idn := { State.reset.idn with hevt := 0x40 }
    coh := { homeq :=
      [{ id := 0, core := 0, uid := 0, line := 1, bytes := [(96, 5)], until_ := 0, acks := [0], frank := 0 }] } }

/-- The same package after UCIE_MODULE_FAILURE. -/
def strayWriteTold : State :=
  applyAll (Eff.seq (emit (pkgSrc 8) 17 255 0 0 9 0) (hostEvent 4) strayWriteState) strayWriteState

theorem exec_ucieModuleFailure_strayWriteState : exec .ucieModuleFailure strayWriteState = .next strayWriteTold := rfl

/-- The event word counts up in memory, where no write waits at its own line; the stray write stays the newest of its byte. -/
theorem strayWrite_newestVal :
    readByte strayWriteTold.mem 96 = 6 ∧ newestVal strayWriteState 96 8 = 5 ∧ newestVal strayWriteTold 96 8 = 5 := by decide

/-- Refutes O55: UCIE_MODULE_FAILURE is said to count its event word up by one in the coherence order of the word's bytes, in every
state. In a state where a write that waits at the home of another line holds a byte of the event word, the word's home is free, the
count performs there at once (6), and the waiting write is the byte's newest before and after (5). -/
theorem not_packageEvents : ¬ Obligations.PackageEvents := by
  unfold Obligations.PackageEvents
  rintro ⟨-, -, ⟨-, -, module, -⟩, -⟩
  obtain ⟨t, ht, -, -, told⟩ := module strayWriteState
  rw [exec_ucieModuleFailure_strayWriteState] at ht
  cases ht
  obtain ⟨counted, -⟩ := told (by decide)
  obtain ⟨-, before, after⟩ := strayWrite_newestVal
  have counted : newestVal strayWriteTold 96 8 = (newestVal strayWriteState 96 8 + 1) % 2 ^ 64 := counted
  rw [before, after] at counted
  exact absurd counted (by decide)

end Sys2Proof.Machine
end

section
/-! PROOFS. Fields of register images: what a field reads as after a field of it is replaced, or under a mask. -/

namespace Sys2Proof.Machine

/-! ## Fields of a register image -/

/-- A replaced field, as a sum of what lies above it, the field, and what lies below it. -/
theorem setFld_toNat (v : DWord) (hi lo x : Nat) (hhi : hi < 64) (hlo : lo ≤ hi) :
    (setFld v hi lo x).toNat =
      2 ^ (hi + 1) * (v.toNat / 2 ^ (hi + 1)) + 2 ^ lo * (x % 2 ^ (hi + 1 - lo)) + v.toNat % 2 ^ lo := by
  have hsplit : (2 : Nat) ^ (hi + 1) = 2 ^ lo * 2 ^ (hi + 1 - lo) := by rw [← Nat.pow_add]; congr 1; omega
  have hv : v.toNat = 2 ^ (hi + 1) * (v.toNat / 2 ^ (hi + 1)) + 2 ^ lo * bits v.toNat hi lo + v.toNat % 2 ^ lo := by
    have h1 := Nat.div_add_mod v.toNat (2 ^ lo)
    have h2 := Nat.div_add_mod (v.toNat / 2 ^ lo) (2 ^ (hi + 1 - lo))
    rw [Nat.div_div_eq_div_mul, ← hsplit] at h2
    have h3 : 2 ^ lo * (v.toNat / 2 ^ lo) = 2 ^ (hi + 1) * (v.toNat / 2 ^ (hi + 1)) + 2 ^ lo * bits v.toNat hi lo := by
      conv_lhs => rw [← h2]
      rw [Nat.mul_add, ← Nat.mul_assoc, ← hsplit, bits]
    omega
  have hfit : 2 ^ (hi + 1) * (v.toNat / 2 ^ (hi + 1)) + 2 ^ (hi + 1) ≤ 2 ^ 64 := by
    have hq : v.toNat / 2 ^ (hi + 1) < 2 ^ (64 - (hi + 1)) := by
      rw [Nat.div_lt_iff_lt_mul (by positivity), ← Nat.pow_add]
      have : 64 - (hi + 1) + (hi + 1) = 64 := by omega
      rw [this]; exact v.isLt
    calc 2 ^ (hi + 1) * (v.toNat / 2 ^ (hi + 1)) + 2 ^ (hi + 1)
        = 2 ^ (hi + 1) * (v.toNat / 2 ^ (hi + 1) + 1) := by ring
      _ ≤ 2 ^ (hi + 1) * 2 ^ (64 - (hi + 1)) := Nat.mul_le_mul_left _ hq
      _ = 2 ^ 64 := by rw [← Nat.pow_add]; congr 1; omega
  have hfield : 2 ^ lo * (x % 2 ^ (hi + 1 - lo)) + 2 ^ lo ≤ 2 ^ (hi + 1) := by
    calc 2 ^ lo * (x % 2 ^ (hi + 1 - lo)) + 2 ^ lo = 2 ^ lo * (x % 2 ^ (hi + 1 - lo) + 1) := by ring
      _ ≤ 2 ^ lo * 2 ^ (hi + 1 - lo) := Nat.mul_le_mul_left _ (Nat.mod_lt _ (by positivity))
      _ = 2 ^ (hi + 1) := hsplit.symm
  have hlow := Nat.mod_lt v.toNat (show 0 < 2 ^ lo by positivity)
  rw [setFld, BitVec.toNat_ofNat, Nat.mul_comm (bits _ _ _), Nat.mul_comm (x % _), Nat.mod_eq_of_lt] <;> omega

theorem getLsbD_setFld (v : DWord) (hi lo x i : Nat) (hhi : hi < 64) (hlo : lo ≤ hi) :
    (setFld v hi lo x).getLsbD i = if lo ≤ i ∧ i ≤ hi then x.testBit (i - lo) else v.getLsbD i := by
  have hsplit : (2 : Nat) ^ (hi + 1) = 2 ^ lo * 2 ^ (hi + 1 - lo) := by rw [← Nat.pow_add]; congr 1; omega
  have hlow := Nat.mod_lt v.toNat (show 0 < 2 ^ lo by positivity)
  have hbelow : 2 ^ lo * (x % 2 ^ (hi + 1 - lo)) + v.toNat % 2 ^ lo < 2 ^ (hi + 1) := by
    have := Nat.mul_le_mul_left (2 ^ lo) (Nat.mod_lt x (show 0 < 2 ^ (hi + 1 - lo) by positivity))
    rw [Nat.mul_succ, ← hsplit] at this
    omega
  rw [← BitVec.testBit_toNat, setFld_toNat v hi lo x hhi hlo, Nat.add_assoc,
    Nat.testBit_two_pow_mul_add _ hbelow, Nat.testBit_two_pow_mul_add _ hlow, ← BitVec.testBit_toNat]
  simp only [Nat.testBit_mod_two_pow, Nat.testBit_div_two_pow]
  by_cases h1 : i < lo
  · simp [h1, show i < hi + 1 by omega, show ¬lo ≤ i by omega]
  by_cases h2 : i < hi + 1
  · simp [h1, h2, show lo ≤ i by omega, show i ≤ hi by omega, show i - lo < hi + 1 - lo by omega]
  · simp [h2, show ¬i ≤ hi by omega, show i - (hi + 1) + (hi + 1) = i by omega]

theorem testBit_fld (v : DWord) (hi lo j : Nat) : (fld v hi lo).testBit j = (decide (j < hi + 1 - lo) && v.getLsbD (lo + j)) := by
  rw [fld, bits, Nat.testBit_mod_two_pow, Nat.testBit_div_two_pow, BitVec.testBit_toNat, Nat.add_comm j lo]

/-- A field depends on its own bits alone. -/
theorem fld_congr {v w : DWord} {hi lo : Nat} (h : ∀ i, lo ≤ i → i ≤ hi → v.getLsbD i = w.getLsbD i) : fld v hi lo = fld w hi lo := by
  refine Nat.eq_of_testBit_eq fun j => ?_
  rw [testBit_fld, testBit_fld]
  by_cases hj : j < hi + 1 - lo
  · rw [h (lo + j) (by omega) (by omega)]
  · simp [hj]

theorem fld_setFld_same (v : DWord) (hi lo x : Nat) (hhi : hi < 64) (hlo : lo ≤ hi) :
    fld (setFld v hi lo x) hi lo = x % 2 ^ (hi + 1 - lo) := by
  refine Nat.eq_of_testBit_eq fun j => ?_
  rw [testBit_fld, getLsbD_setFld v hi lo x _ hhi hlo, Nat.testBit_mod_two_pow]
  by_cases hj : j < hi + 1 - lo
  · simp [hj, show lo + j ≤ hi by omega]
  · simp [hj]

theorem fld_setFld_other (v : DWord) (hi lo h l x : Nat) (hhi : hi < 64) (hlo : lo ≤ hi) (hd : h < lo ∨ hi < l) :
    fld (setFld v hi lo x) h l = fld v h l :=
  fld_congr fun i _ _ => by rw [getLsbD_setFld v hi lo x i hhi hlo, if_neg (by omega)]

/-- A field that a mask leaves whole. -/
theorem fld_and_keep (v m : DWord) (hi lo : Nat) (hm : ∀ i, lo ≤ i → i ≤ hi → m.getLsbD i = true) : fld (v &&& m) hi lo = fld v hi lo :=
  fld_congr fun i h1 h2 => by rw [BitVec.getLsbD_and, hm i h1 h2, Bool.and_true]


theorem fld_lt (v : DWord) (hi lo : Nat) : fld v hi lo < 2 ^ (hi + 1 - lo) := Nat.mod_lt _ (by positivity)

end Sys2Proof.Machine
end

section
/-! PROOFS. The host's register writes as operations (20: R437, R438), and those of the queue, fault, trace and core
registers (O54). -/

namespace Sys2Proof.Machine

/-! ## Events that are operations with a frame -/

/-- An event that does what a framed operation does keeps the rest. -/
theorem eventDoes_of_framed {i : Instr} {s : State} {xs : List Comp} {f : Eff} {p : State → Prop} (hf : Framed xs f)
    (hx : exec i s = .next (applyAll (f s) s)) (hp : p (applyAll (f s) s)) : EventDoes i s xs [] [] p :=
  ⟨_, hx, ⟨hf.same s, fun q _ => by rw [hf.groups s], fun q _ => by rw [hf.streams s]⟩, hp⟩

/-! ## What the host writes -/

/-- What a write of a special register does for the host, which never waits. -/
def SWrite.effect : SWrite → Eff
  | .ok eff => eff
  | .park _ eff => eff
  | .ill => Eff.nop
  | .perm => Eff.nop

/-- A package whose registers do not answer takes no write (R437). -/
theorem hostPut_unanswered {s : State} (h : registersAnswer s = false) (core n : Nat) (v : DWord) : hostPut core n v s = [] := by
  simp [hostPut, h]

/-- The host writes with the rights of system mode. -/
theorem writeAs_host (s : State) (core n : Nat) (v : DWord) (hn : sregKnown n = true) (hw : sregReadOnly n = false) :
    writeAs s { hostReader s with core := core } n v = putSpecial s { hostReader s with core := core } n v := by
  simp [writeAs, hn, hw, hostReader]

/-- A write of the host to a register that may be written does what the register's rules give. -/
theorem hostPut_eq {s : State} (h : registersAnswer s = true) (core n : Nat) (v : DWord) (hn : sregKnown n = true)
    (hw : sregReadOnly n = false) :
    hostPut core n v s = (putSpecial s { hostReader s with core := core } n v).effect s := by
  simp only [hostPut, h, Bool.not_true, Bool.false_eq_true, if_false]
  rw [writeAs_host s core n v hn hw]
  cases putSpecial s { hostReader s with core := core } n v <;> rfl

section
variable {s : State} (h : registersAnswer s = true) (v : DWord)
include h

theorem hostPut_fqptr : hostPut 0 0x1F v s = [.faults { s.faults with ptr := setFld s.faults.ptr 63 32 (fld v 63 32) }] :=
  hostPut_eq h 0 0x1F v rfl rfl

theorem hostPut_tsptr : hostPut 0 0x3B v s = writeTsptr v s := hostPut_eq h 0 0x3B v rfl rfl

theorem hostPut_tsctl : hostPut 0 0x39 v s = writeTsctl v s := hostPut_eq h 0 0x39 v rfl rfl

theorem hostPut_corestat (core : Nat) : hostPut core 0x02 v s =
    [.core core { getCore s core with corestat := (getCore s core).corestat &&& ~~~(v.setWidth 32 &&& 0x8) }] :=
  hostPut_eq h core 0x02 v rfl rfl

theorem hostPut_qctl : hostPut 0 0x31 v s = setQueue (curQ s) (qctlWrite (mayEnable s) (getQueue s (curQ s)) v) s := by
  rw [hostPut_eq h 0 0x31 v rfl rfl]
  simp only [putSpecial]
  split <;> rfl

theorem hostPut_commit (hv : fld v 0 0 = 1) : hostPut 0 0x23 v s = commitRegion v s := by
  rw [hostPut_eq h 0 0x23 v rfl rfl]
  simp only [putSpecial, hv, if_true]; rfl

theorem hostPut_release (hv : fld v 0 0 = 0) (hr : rtValid (getRt s (curRt s)) = true) (hb : regionBusy s (curRt s) = false) :
    hostPut 0 0x23 v s = releaseRegion (curRt s) s := by
  rw [hostPut_eq h 0 0x23 v rfl rfl]
  simp [putSpecial, hv, hr, hb, SWrite.effect]

end

/-- A register write of the host is an event that does what the register's operation does, with its frame. -/
theorem eventDoes_hostPut {i : Instr} {core n : Nat} {v : DWord} {s : State} {xs : List Comp} {p : State → Prop} (f : Eff)
    (hx : exec i s = commit (hostPut core n v) s) (hput : hostPut core n v s = f s) (hf : Framed xs f)
    (hp : p (applyAll (f s) s)) : EventDoes i s xs [] [] p :=
  eventDoes_of_framed hf (by rw [hx, commit_eq, hput]) hp

/-- A package that stopped in bring-up takes no register write of the host (R437). -/
theorem idle_of_unanswered {i : Instr} {core n : Nat} {v : DWord} {s : State} (hx : exec i s = commit (hostPut core n v) s)
    (h : registersAnswer s = false) : Idle i s := by
  rw [Idle, hx, commit_eq, hostPut_unanswered h]; rfl

/-- The host's register writes that are events, each as the write it is. -/
theorem registerEvents_idle (v : DWord) (s : State) (i : Instr) (h : registersAnswer s = false)
    (hi : i ∈ [Instr.rtctlCommit v, .rtctlRelease v, .qctlEnable v, .qctlDisable v, .qctlSuspend v,
      .qctlResume v, .tsctlOpen v, .tsctlClose v, .tsptrHeadWrite v, .fqptrHeadWrite v, .rtfailAck v]) : Idle i s := by
  simp only [List.mem_cons, List.not_mem_nil, or_false] at hi
  rcases hi with rfl | rfl | rfl | rfl | rfl | rfl | rfl | rfl | rfl | rfl | rfl <;> exact idle_of_unanswered rfl h

/-! ## FQPTR, TSPTR, CORESTAT -/

theorem fqptrHeadWrite_done (v : DWord) (s : State) (h : registersAnswer s = true) :
    EventDoes (.fqptrHeadWrite v) s [.faults] [] [] (fun t => t.faults = { s.faults with ptr := t.faults.ptr } ∧
      fld t.faults.ptr 63 32 = fld v 63 32 ∧ fld t.faults.ptr 31 0 = fld s.faults.ptr 31 0) := by
  refine eventDoes_hostPut (fun s => [.faults { s.faults with ptr := setFld s.faults.ptr 63 32 (fld v 63 32) }]) rfl
    (hostPut_fqptr h v) (framed_faults _) ⟨rfl, ?_, ?_⟩
  · exact (fld_setFld_same _ 63 32 _ (by decide) (by decide)).trans (Nat.mod_eq_of_lt (fld_lt v 63 32))
  · exact fld_setFld_other _ 63 32 31 0 _ (by decide) (by decide) (by decide)

theorem getSession_setSession (n m : Nat) (x : Session) (s : State) :
    getSession (applyAll (setSession n x s) s) m = if m = n then x else getSession s m := by
  simp [setSession, getSession, mget_mput]

theorem framed_setSession (n : Nat) (x : Session) : Framed [.trace] (setSession n x) := framed_trace _

theorem framed_writeTsptr (v : DWord) : Framed [.trace] (writeTsptr v) :=
  framed_trace fun _ => _

theorem tsptrHeadWrite_done (v : DWord) (s : State) (x : Session) (h : registersAnswer s = true) (hx : getSession s (tsIdx s) = x) :
    EventDoes (.tsptrHeadWrite v) s [.trace] [] [] (fun t => (∀ m, m ≠ tsIdx s → getSession t m = getSession s m) ∧
      ∃ y, getSession t (tsIdx s) = y ∧ y = { x with ptr := y.ptr } ∧ fld y.ptr 63 32 = fld v 63 32 ∧
        fld y.ptr 31 0 = fld x.ptr 31 0) := by
  have hread := fun m => getSession_setSession (tsIdx s) m { x with ptr := setFld x.ptr 63 32 (fld v 63 32) } s
  have hop : writeTsptr v s = setSession (tsIdx s) { x with ptr := setFld x.ptr 63 32 (fld v 63 32) } s := by rw [← hx]; rfl
  refine eventDoes_hostPut (writeTsptr v) rfl (hostPut_tsptr h v) (framed_writeTsptr v) ?_
  rw [hop]
  refine ⟨fun m hm => (hread m).trans (if_neg hm), _, (hread _).trans (if_pos rfl), rfl, ?_, ?_⟩
  · exact (fld_setFld_same _ 63 32 _ (by decide) (by decide)).trans (Nat.mod_eq_of_lt (fld_lt v 63 32))
  · exact fld_setFld_other _ 63 32 31 0 _ (by decide) (by decide) (by decide)

theorem getCore_core (c k : Nat) (x : Core) (s : State) :
    getCore (applyAll [.core c x] s) k = if k = c then x else getCore s k := by
  simp [getCore, mget_mput]

/-- Bit 3 of a value whose bit 3 has been set, as RTFAIL's mask. -/
theorem setFld_bit3_mask (v : DWord) : (setFld v 3 3 1).setWidth 32 &&& 0x8 = (8 : Word) := by
  refine BitVec.eq_of_getLsbD_eq fun i hi => ?_
  have hmask : (8 : Word).getLsbD i = decide (i = 3) := by
    simp only [show (8 : Word) = BitVec.twoPow 32 3 by decide, BitVec.getLsbD_twoPow]
    grind
  rw [BitVec.getLsbD_and, BitVec.getLsbD_setWidth, getLsbD_setFld v 3 3 1 i (by decide) (by decide), hmask]
  by_cases h3 : i = 3
  · subst h3; rfl
  · simp [h3]

theorem rtfailAck_done (v : DWord) (s : State) (h : registersAnswer s = true) :
    EventDoes (.rtfailAck v) s [.cores] [] [] (fun t => ∀ k, getCore t k = if k = subjAt s 0 then
      { getCore s k with corestat := (getCore s k).corestat &&& ~~~8 } else getCore s k) := by
  have hput := hostPut_corestat h (setFld v 3 3 1) (subjAt s 0)
  rw [setFld_bit3_mask] at hput
  refine eventDoes_hostPut
    (fun t => [.core (subjAt s 0) { getCore t (subjAt s 0) with corestat := (getCore t (subjAt s 0)).corestat &&& ~~~8 }])
    rfl hput (framed_core _ _) fun k => ?_
  rw [getCore_core]
  split
  · next hk => rw [hk]
  · rfl

end Sys2Proof.Machine
end

section
/-! PROOFS. The host's writes of QCTL (15: R345, R364). -/

namespace Sys2Proof.Machine

/-! ## QCTL -/

/-- A field that a conditional write of another field leaves. -/
theorem fld_ite_setFld_other (b : Bool) (c : DWord) (hi lo h l e : Nat) (hhi : hi < 64) (hlo : lo ≤ hi) (hd : h < lo ∨ hi < l) :
    fld (if b = true then setFld c hi lo e else c) h l = fld c h l := by
  cases b
  · rfl
  · exact fld_setFld_other c hi lo h l e hhi hlo hd

/-- A field that neither EN, SUSP nor ERR is part of: an enabled queue keeps it, another takes it as written, if it may be. -/
theorem fld_qctlWrite_other (up : Bool) (x : Queue) (v : DWord) (h l : Nat) (hl : 0 < l) (h6 : h < 6 ∨ 6 < l)
    (h16 : h < 16 ∨ 23 < l) :
    fld (qctlWrite up x v).ctl h l = if fld x.ctl 0 0 = 1 then fld x.ctl h l else fld (v &&& 0xFF00000000000078) h l := by
  have hput : ∀ c : DWord, fld (setFld (setFld c 6 6 (fld v 6 6)) 0 0 (up && fld v 0 0 == 1).toNat) h l = fld c h l := fun c => by
    rw [fld_setFld_other _ 0 0 h l _ (by decide) (by decide) (.inr hl), fld_setFld_other _ 6 6 h l _ (by decide) (by decide) h6]
  simp only [qctlWrite, fld_ite_setFld_other _ _ 23 16 h l 0 (by decide) (by decide) h16, hput, beq_iff_eq]
  split
  · rfl
  · exact fld_setFld_other _ 23 16 h l _ (by decide) (by decide) h16

/-- EN is set only where the timing unit has locked (R432). -/
theorem fld_qctlWrite_en (up : Bool) (x : Queue) (v : DWord) :
    fld (qctlWrite up x v).ctl 0 0 = if up = true then fld v 0 0 else 0 := by
  have hv := fld_lt v 0 0
  simp only [qctlWrite, fld_ite_setFld_other _ _ 23 16 0 0 0 (by decide) (by decide) (by decide),
    fld_setFld_same _ 0 0 _ (show 0 < 64 by decide) (by decide)]
  cases up
  · rfl
  · by_cases h1 : fld v 0 0 = 1
    · simp [h1]
    · have h0 : fld v 0 0 = 0 := by omega
      simp [h0]

theorem fld_qctlWrite_susp (up : Bool) (x : Queue) (v : DWord) : fld (qctlWrite up x v).ctl 6 6 = fld v 6 6 := by
  simp only [qctlWrite, fld_ite_setFld_other _ _ 23 16 6 6 0 (by decide) (by decide) (by decide)]
  rw [fld_setFld_other _ 0 0 6 6 _ (by decide) (by decide) (by decide), fld_setFld_same _ 6 6 _ (by decide) (by decide)]
  exact Nat.mod_eq_of_lt (fld_lt v 6 6)

/-- ERR is cleared by EN and kept otherwise. -/
theorem fld_qctlWrite_err (up : Bool) (x : Queue) (v : DWord) :
    fld (qctlWrite up x v).ctl 23 16 = if fld (qctlWrite up x v).ctl 0 0 = 1 then 0 else fld x.ctl 23 16 := by
  have hold : ∀ (c : DWord) (e : Nat), fld (setFld (setFld c 6 6 (fld v 6 6)) 0 0 e) 23 16 = fld c 23 16 := fun c e => by
    rw [fld_setFld_other _ 0 0 23 16 _ (by decide) (by decide) (by decide),
      fld_setFld_other _ 6 6 23 16 _ (by decide) (by decide) (by decide)]
  rw [fld_qctlWrite_en]
  by_cases hen : (up && fld v 0 0 == 1) = true
  · obtain ⟨hup, h1⟩ : up = true ∧ fld v 0 0 = 1 := by simpa using hen
    simp only [qctlWrite, if_true, hup, h1]
    exact fld_setFld_same _ 23 16 0 (by decide) (by decide)
  · have hnot : (if up = true then fld v 0 0 else 0) ≠ 1 := by
      cases up
      · simp
      · simpa using hen
    simp only [qctlWrite, hen, if_neg hnot, Bool.false_eq_true, if_false, hold]
    split
    · rfl
    · rw [fld_setFld_same _ 23 16 _ (by decide) (by decide)]
      exact Nat.mod_eq_of_lt (fld_lt x.ctl 23 16)

/-- The packets are counted anew when EN is set (R347). -/
theorem count_qctlWrite (up : Bool) (x : Queue) (v : DWord) :
    (qctlWrite up x v).count = if fld (qctlWrite up x v).ctl 0 0 = 1 ∧ fld x.ctl 0 0 = 0 then 0 else x.count := by
  have hx := fld_lt x.ctl 0 0
  have hwas : (fld x.ctl 0 0 = 0) ↔ ¬fld x.ctl 0 0 = 1 := by omega
  simp only [fld_qctlWrite_en, hwas]
  cases up <;> simp [qctlWrite]

theorem getQueue_setQueue (q m : Nat) (x : Queue) (s : State) :
    getQueue (applyAll (setQueue q x s) s) m = if m = q then x else getQueue s m := by
  simp [setQueue, getQueue, mget_mput]

theorem queueSet_qctlWrite (q : Nat) (v : DWord) (s : State) :
    QueueSet q v s (applyAll (setQueue q (qctlWrite (mayEnable s) (getQueue s q) v) s) s) := by
  have hread := fun m => getQueue_setQueue q m (qctlWrite (mayEnable s) (getQueue s q) v) s
  have hkeep : ∀ i, (3 ≤ i ∧ i ≤ 5 ∨ 56 ≤ i ∧ i ≤ 63) → (0xFF00000000000078 : DWord).getLsbD i = true := by
    have hmask : ∀ i : Fin 64, (3 ≤ i.val ∧ i.val ≤ 5 ∨ 56 ≤ i.val) → (0xFF00000000000078 : DWord).getLsbD i = true := by decide
    exact fun i hi => hmask ⟨i, by omega⟩ (by simp only; omega)
  have hup : mayEnable s = true ↔ s.boot.phase = .ready := by simp [mayEnable]
  refine ⟨?_, fun m hm => (hread m).trans (if_neg hm), rfl, ?_⟩ <;> rw [hread q, if_pos rfl]
  · rfl
  refine ⟨?_, fld_qctlWrite_susp _ _ v, ?_, ?_, fld_qctlWrite_err _ _ v, count_qctlWrite _ _ v⟩
  · rw [fld_qctlWrite_en]
    simp only [hup]
  · rw [fld_qctlWrite_other _ _ v 5 3 (by decide) (by decide) (by decide),
      fld_and_keep v _ 5 3 fun i h3 h5 => hkeep i (.inl ⟨h3, h5⟩)]
  · rw [fld_qctlWrite_other _ _ v 63 56 (by decide) (by decide) (by decide),
      fld_and_keep v _ 63 56 fun i h56 h63 => hkeep i (.inr ⟨h56, h63⟩)]

/-- A write of QCTL by the host. -/
theorem qctlEvent_done {i : Instr} {v : DWord} {s : State} (hx : exec i s = commit (hostPut 0 0x31 v) s)
    (h : registersAnswer s = true) : EventDoes i s [.mail] [] [] (QueueSet (curQ s) v s) :=
  eventDoes_hostPut (fun t => setQueue (curQ s) (qctlWrite (mayEnable s) (getQueue s (curQ s)) v) t) hx (hostPut_qctl h v)
    (framed_mail _) (queueSet_qctlWrite (curQ s) v s)

end Sys2Proof.Machine
end

section
/-! PROOFS. The host's commit of a round region (13: R314). -/

namespace Sys2Proof.Machine

/-! ## Cores updated one after another -/

theorem mem_mput {β : Type} {m : Map β} {n : Nat} {v : β} {e : Nat × β} (h : e ∈ mput m n v) : e = (n, v) ∨ e ∈ m ∧ e.1 ≠ n := by
  rcases mem_minsert _ _ _ _ h with h | h
  · exact .inl h
  · exact .inr ⟨List.mem_of_mem_filter h, by simpa using (List.mem_filter.mp h).2⟩

theorem mem_of_mfind {β : Type} {m : Map β} {n : Nat} {v : β} (h : mfind m n = some v) : (n, v) ∈ m := by
  induction m with
  | nil => cases h
  | cons e m ih =>
    obtain ⟨k, w⟩ := e
    rw [mfind_cons] at h
    split at h
    · next hk => cases h; exact hk ▸ List.mem_cons_self
    · exact List.mem_cons_of_mem _ (ih h)

section
variable {α : Type} (key : α → Nat) (g : α → Core)

/-- After a list of core updates each listed core is one of theirs, or stood before and none of them names its place. -/
theorem mem_cores_applyAll (l : List α) (s : State) {e : Nat × Core}
    (h : e ∈ (applyAll (l.map (fun a => Upd.core (key a) (g a))) s).cores) :
    (∃ a ∈ l, e = (key a, g a)) ∨ e ∈ s.cores ∧ ∀ a ∈ l, key a ≠ e.1 := by
  induction l generalizing s with
  | nil => exact .inr ⟨h, fun _ ha => absurd ha List.not_mem_nil⟩
  | cons a l ih =>
    rcases ih _ h with ⟨b, hb, rfl⟩ | ⟨he, hl⟩
    · exact .inl ⟨b, List.mem_cons_of_mem _ hb, rfl⟩
    · rcases mem_mput he with rfl | ⟨he, hne⟩
      · exact .inl ⟨a, List.mem_cons_self, rfl⟩
      · exact .inr ⟨he, fun b hb => by
          rcases List.mem_cons.mp hb with rfl | hb
          · exact Ne.symm hne
          · exact hl b hb⟩

end

/-- Core updates at the places of a list, each with what a function of the place gives. -/
theorem getCore_applyAll_places (g : Nat → Core) (l : List Nat) (s : State) (k : Nat) :
    getCore (applyAll (l.map (fun n => Upd.core n (g n))) s) k = if k ∈ l then g k else getCore s k := by
  induction l generalizing s with
  | nil => rfl
  | cons n l ih =>
    have hone := getCore_core n k (g n) s
    by_cases hk : k ∈ l
    · exact (ih _).trans (by simp [hk])
    · refine (ih _).trans ?_
      rw [if_neg hk]
      refine hone.trans ?_
      by_cases hn : k = n
      · subst hn; simp
      · simp [hk, hn]

/-! ## Every L1 given up (R271, R314) -/

/-- Bytes performed at their homes change memory, and of what the homes keep the marks and the watches alone. -/
theorem performCells_done (cs : List Host.Cell) (s : State) :
    (applyAll (performCells cs s) s).mem = writeCells s.mem cs ∧ (applyAll (performCells cs s) s).cores = s.cores ∧
    (applyAll (performCells cs s) s).coh = { s.coh with
      stale := (applyAll (performCells cs s) s).coh.stale, poison := (applyAll (performCells cs s) s).coh.poison
      watches := (applyAll (performCells cs s) s).coh.watches } := by
  have hwrite : ∀ s, (applyAll (writeMem cs s) s).mem = writeCells s.mem cs ∧ (applyAll (writeMem cs s) s).cores = s.cores ∧
      (applyAll (writeMem cs s) s).coh = { s.coh with stale := (applyAll (writeMem cs s) s).coh.stale } := fun s => by
    unfold writeMem; dsimp only; split <;> exact ⟨rfl, rfl, rfl⟩
  have hclear : ∀ s, (applyAll (clearPoison cs s) s).mem = s.mem ∧ (applyAll (clearPoison cs s) s).cores = s.cores ∧
      (applyAll (clearPoison cs s) s).coh = { s.coh with poison := (applyAll (clearPoison cs s) s).coh.poison } := fun s => by
    unfold clearPoison; split <;> exact ⟨rfl, rfl, rfl⟩
  have hfire : ∀ ls s, (applyAll (fireWatches ls s) s).mem = s.mem ∧ (applyAll (fireWatches ls s) s).cores = s.cores ∧
      (applyAll (fireWatches ls s) s).coh = { s.coh with watches := (applyAll (fireWatches ls s) s).coh.watches } := fun ls s => by
    unfold fireWatches; split <;> exact ⟨rfl, rfl, rfl⟩
  simp only [performCells, applyAll_all_cons, applyAll_all_nil]
  obtain ⟨m1, c1, h1⟩ := hwrite s
  generalize applyAll (writeMem cs s) s = s1 at *
  obtain ⟨m2, c2, h2⟩ := hclear s1
  generalize applyAll (clearPoison cs s1) s1 = s2 at *
  obtain ⟨m3, c3, h3⟩ := hfire ((cs.map (fun c => lineOf c.1)).eraseDups) s2
  refine ⟨by rw [m3, m2, m1], by rw [c3, c2, c1], ?_⟩
  rw [h3, h2, h1]

/-- A property of every listed core. -/
def everyCore (P : Core → Prop) (s : State) : Prop := ∀ e ∈ s.cores, P e.2

theorem everyCore_of_cores {P : Core → Prop} {s t : State} (h : everyCore P s) (hc : t.cores = s.cores) : everyCore P t := by
  unfold everyCore
  rw [hc]; exact h

/-- Core updates with cores of the property, which the places that they do not name have before. -/
theorem everyCore_applyAll {α : Type} {P : Core → Prop} (key : α → Nat) (g : α → Core) (l : List α) (s : State)
    (hupd : ∀ a ∈ l, P (g a)) (hold : ∀ e ∈ s.cores, (∀ a ∈ l, key a ≠ e.1) → P e.2) :
    everyCore P (applyAll (l.map (fun a => Upd.core (key a) (g a))) s) := fun e he => by
  rcases mem_cores_applyAll key g l s he with ⟨a, ha, rfl⟩ | ⟨he, hl⟩
  · exact hupd a ha
  · exact hold e he hl

/-- What holds of an unlisted core and of every listed one holds of the core at a place. -/
theorem everyCore.getCore {P : Core → Prop} {s : State} (h : everyCore P s) (hnew : P {}) (k : Nat) : P (getCore s k) := by
  unfold Machine.getCore mget
  split
  · next c hc => exact h _ (mem_of_mfind hc)
  · exact hnew

/-- Every listed core's L1 is empty. -/
abbrev l1sEmpty : State → Prop := everyCore fun c => c.l1 = []

/-- With every L1 empty there is no NC copy to drop. -/
theorem dropNc_of_l1sEmpty {s : State} (h : l1sEmpty s) (core : Nat) (ls : List Nat) : dropNc core ls s = [] := by
  unfold dropNc
  rw [List.flatMap_eq_nil_iff]
  intro e he
  rw [h e he]
  simp

theorem framed_homePerform (w : HomeW) : Framed homeParts (homePerform w) := by
  refine framed_all _ fun f hf => ?_
  simp only [List.mem_cons, List.not_mem_nil, or_false] at hf
  rcases hf with rfl | rfl | rfl | rfl
  · exact (framed_coh _).mono (by simp)
  · exact framed_performCells _
  · exact (framed_dropNc _ _).when _
  · exact (framed_count _ _ _).mono (by simp)

theorem l1sEmpty_homePerform (w : HomeW) {s : State} (h : l1sEmpty s) : l1sEmpty (applyAll (homePerform w s) s) := by
  have hcount : ∀ frank ev n s, (applyAll (count frank ev n s) s).cores = s.cores := fun frank ev n s => by
    unfold count; split <;> rfl
  simp only [homePerform, applyAll_all_cons, applyAll_all_nil]
  refine everyCore_of_cores ?_ (hcount _ _ _ _)
  have hp : ∀ s, l1sEmpty s → l1sEmpty (applyAll (performCells w.bytes s) s) :=
    fun s h => everyCore_of_cores h (performCells_done w.bytes s).2.1
  have hd : ∀ s, l1sEmpty s → l1sEmpty (applyAll (Eff.when (w.core != outsideCore) (dropNc w.core [w.line]) s) s) := fun s h => by
    cases w.core != outsideCore
    · exact h
    · rw [Eff.when, if_pos rfl, dropNc_of_l1sEmpty h]; exact h
  exact hd _ (hp _ (everyCore_of_cores h rfl))

theorem l1sEmpty_forEach {α : Type} (l : List α) (f : α → Eff) (hf : ∀ a s, l1sEmpty s → l1sEmpty (applyAll (f a s) s)) {s : State}
    (h : l1sEmpty s) : l1sEmpty (applyAll (Eff.forEach l f s) s) := by
  induction l generalizing s with
  | nil => exact h
  | cons a l ih =>
    rw [show Eff.forEach (a :: l) f = Eff.seq (f a) (Eff.forEach l f) from rfl, applyAll_seq]
    exact ih (hf a s h)

theorem framed_emptyL1s : Framed homeParts emptyL1s := by
  refine framed_all _ fun f hf => ?_
  simp only [List.mem_cons, List.not_mem_nil, or_false] at hf
  rcases hf with rfl | rfl | rfl | rfl
  · exact framed_of fun _ => ⟨_, rfl, framed_forEach _ _ fun _ _ => framed_mergeLine _⟩
  · refine (framed_cores _ fun s u hu => ?_).mono (by simp)
    obtain ⟨e, -, rfl⟩ := List.mem_map.mp hu
    exact ⟨_, _, rfl⟩
  · exact (framed_coh _).mono (by simp)
  · exact framed_of fun _ => ⟨_, rfl, framed_forEach _ _ fun _ _ => framed_homePerform _⟩

theorem l1sEmpty_emptyL1s (s : State) : l1sEmpty (applyAll (emptyL1s s) s) := by
  simp only [emptyL1s, applyAll_all_cons, applyAll_all_nil]
  refine l1sEmpty_forEach _ _ (fun w s h => l1sEmpty_homePerform w h) ?_
  refine everyCore_of_cores (everyCore_applyAll (fun e : Nat × Core => e.1) (fun e => { e.2 with l1 := [] }) _ _ (fun _ _ => rfl) ?_) rfl
  exact fun e he hl => absurd rfl (hl e he)

/-! ## The known rounds of the cores (R317) -/

theorem framed_setKnown (r : Nat) (n : Option Nat) : Framed [.cores] (setKnown r n) := by
  refine framed_cores _ fun s u hu => ?_
  cases n <;> obtain ⟨e, -, rfl⟩ := List.mem_map.mp hu <;> exact ⟨_, _, rfl⟩

/-- No core knows a round of a region any more. -/
theorem known_setKnown_none (r : Nat) (s : State) (k : Nat) : mfind (getCore (applyAll (setKnown r none s) s) k).known r = none := by
  have hall : everyCore (fun c => mfind c.known r = none) (applyAll (setKnown r none s) s) := by
    refine everyCore_applyAll (fun e : Nat × Core => e.1) (fun e => { e.2 with known := mdel e.2.known r })
      (s.cores.filter (fun e => (mfind e.2.known r).isSome)) s (fun e _ => mfind_mdel_same _ r) fun e he hl => ?_
    by_contra hsome
    exact hl e (List.mem_filter.mpr ⟨he, Option.isSome_iff_ne_none.mpr hsome⟩) rfl
  exact hall.getCore rfl k

/-- Every core of a region's scope knows its round. -/
theorem known_setKnown_some (r n : Nat) (s : State) (k : Nat) (hk : k < 768) (hs : inRegionScope s r k = true) :
    mfind (getCore (applyAll (setKnown r (some n) s) s) k).known r = some n := by
  have hread := getCore_applyAll_places (fun k => { getCore s k with known := mput (getCore s k).known r n })
    ((List.range 768).filter (fun k => inRegionScope s r k)) s k
  have hmem : k ∈ (List.range 768).filter (fun k => inRegionScope s r k) := List.mem_filter.mpr ⟨List.mem_range.mpr hk, hs⟩
  rw [if_pos hmem] at hread
  simp only [setKnown, hread, mfind_mput_same]

/-- Known rounds are all that a core changes with them. -/
theorem everyCore_setKnown {P : Core → Prop} (hnew : P {}) (hP : ∀ c m, P c → P { c with known := m }) (r : Nat) (n : Option Nat)
    {s : State} (h : everyCore P s) : everyCore P (applyAll (setKnown r n s) s) := by
  cases n with
  | none =>
    exact everyCore_applyAll (fun e : Nat × Core => e.1) (fun e => { e.2 with known := mdel e.2.known r })
      (s.cores.filter (fun e => (mfind e.2.known r).isSome)) s (fun e he => hP _ _ (h e (List.mem_of_mem_filter he)))
      fun e he _ => h e he
  | some n =>
    exact everyCore_applyAll id (fun k => { getCore s k with known := mput (getCore s k).known r n })
      ((List.range 768).filter (fun k => inRegionScope s r k)) s (fun k _ => hP _ _ (h.getCore hnew k)) fun e he _ => h e he

theorem l1sEmpty_setKnown (r : Nat) (n : Option Nat) {s : State} (h : l1sEmpty s) : l1sEmpty (applyAll (setKnown r n s) s) :=
  everyCore_setKnown (P := fun c => c.l1 = []) rfl (fun _ _ h => h) r n h

/-! ## Entries of the round table (R313) -/

theorem getRt_setRt (n m : Nat) (e : RtEntry) (s : State) :
    getRt (applyAll (setRt n e s) s) m = if m = n then e else getRt s m := by
  simp [setRt, getRt, mget_mput]

theorem framed_setRt (n : Nat) (e : RtEntry) : Framed [.rounds] (setRt n e) := framed_rounds _

theorem framed_setRtErr (e : Nat) : Framed [.rounds] (setRtErr e) := framed_rounds _

theorem getRt_of_rounds {s t : State} (h : t.rounds = s.rounds) (n : Nat) : getRt t n = getRt s n := by rw [getRt, h, getRt]

/-- The result of a commit stands above the selection, and leaves the entries. -/
theorem setRtErr_done (e : Nat) (he : e < 65536) (s : State) :
    (∀ n, getRt (applyAll (setRtErr e s) s) n = getRt s n) ∧
    (applyAll (setRtErr e s) s).rounds.sel.toNat % 65536 = s.rounds.sel.toNat % 65536 ∧
    (applyAll (setRtErr e s) s).rounds.sel.toNat / 65536 = e := by
  have hsel : (applyAll (setRtErr e s) s).rounds.sel.toNat = s.rounds.sel.toNat % 65536 + e * 65536 := by
    simp only [setRtErr, applyAll_cons, applyAll_nil, Upd.apply_rounds_rounds, BitVec.toNat_ofNat]
    exact Nat.mod_eq_of_lt (by omega)
  refine ⟨fun _ => rfl, ?_, ?_⟩ <;> rw [hsel] <;> omega

/-! ## RTCTL with V = 1 -/

/-- V is none of the fields that RTCTL keeps of a value written. -/
theorem rtFields_setFld_v (v : DWord) : rtFields (setFld v 0 0 1) = rtFields v := by
  refine BitVec.eq_of_getLsbD_eq fun i _ => ?_
  rw [rtFields, rtFields, BitVec.getLsbD_and, BitVec.getLsbD_and, getLsbD_setFld v 0 0 1 i (by decide) (by decide)]
  by_cases h0 : i = 0
  · subst h0; simp
  · simp [h0]

theorem commitCode_le (s : State) (n : Nat) (e : RtEntry) (v : DWord) : commitCode s n e v ≤ 6 := by
  unfold commitCode
  dsimp only
  repeat' split
  all_goals decide

theorem commitRegion_registered {s : State} (v : DWord) (h : rtValid (getRt s (curRt s)) = true) :
    commitRegion v s = setRtErr 1 s := by
  simp [commitRegion, h]

theorem commitRegion_failed {s : State} (v : DWord) (h : rtValid (getRt s (curRt s)) = false)
    (hc : commitCode s (curRt s) (getRt s (curRt s)) v ≠ 0) :
    commitRegion v s = Eff.seq (setRt (curRt s) { getRt s (curRt s) with ctl := rtFields v })
      (setRtErr (commitCode s (curRt s) (getRt s (curRt s)) v)) s := by
  simp only [commitRegion, h, Bool.false_eq_true, if_false]

theorem commitRegion_succeeded {s : State} (v : DWord) (h : rtValid (getRt s (curRt s)) = false)
    (hc : commitCode s (curRt s) (getRt s (curRt s)) v = 0) :
    commitRegion v s = Eff.all
      [emptyL1s, setRt (curRt s) { getRt s (curRt s) with ctl := setFld (rtFields v) 0 0 1 }, setKnown (curRt s) none,
        setKnown (curRt s) (some (fld (getRt s (curRt s)).cnt 47 0)), setRtErr 0] s := by
  simp only [commitRegion, h, hc, Bool.false_eq_true, if_false]

theorem framed_commitRegion (v : DWord) : Framed [.rounds, .cores, .coh, .mem] (commitRegion v) := by
  refine framed_of fun s => ?_
  by_cases h : rtValid (getRt s (curRt s)) = true
  · exact ⟨_, commitRegion_registered v h, (framed_setRtErr 1).mono (by simp)⟩
  have h : rtValid (getRt s (curRt s)) = false := by simpa using h
  by_cases hc : commitCode s (curRt s) (getRt s (curRt s)) v = 0
  · refine ⟨_, commitRegion_succeeded v h hc, framed_all _ fun f hf => ?_⟩
    simp only [List.mem_cons, List.not_mem_nil, or_false] at hf
    rcases hf with rfl | rfl | rfl | rfl | rfl
    · exact framed_emptyL1s.mono (by simp)
    · exact (framed_setRt _ _).mono (by simp)
    · exact (framed_setKnown _ _).mono (by simp)
    · exact (framed_setKnown _ _).mono (by simp)
    · exact (framed_setRtErr _).mono (by simp)
  · exact ⟨_, commitRegion_failed v h hc, Framed.seq ((framed_setRt _ _).mono (by simp)) ((framed_setRtErr _).mono (by simp))⟩

/-- A region that is registered keeps its entry; the commit answers error 1. -/
theorem commitDone_of_registered (v : DWord) {s : State} (h : rtValid (getRt s (curRt s)) = true) :
    CommitDone v s (applyAll (commitRegion (setFld v 0 0 1) s) s) := by
  unfold CommitDone
  dsimp only
  rw [h]
  obtain ⟨hents, hsel, herr⟩ := setRtErr_done 1 (by decide) s
  have hkeep := (framed_setRtErr 1).same s
  rw [commitRegion_registered _ h]
  simp only [if_true]
  exact ⟨fun m _ => hents m, hsel, herr, hents _, fun _ => ⟨hkeep .mem (by decide), hkeep .cores (by decide),
    hkeep .coh (by decide)⟩, fun h => absurd h (by decide)⟩

section
variable (v : DWord) {s : State} (h : rtValid (getRt s (curRt s)) = false)
include h

/-- A commit without an error registers the region, empties the L1s and tells the cores in its scope the round. -/
theorem commitDone_of_succeeded (hc : commitCode s (curRt s) (getRt s (curRt s)) (setFld v 0 0 1) = 0) :
    CommitDone v s (applyAll (commitRegion (setFld v 0 0 1) s) s) := by
  unfold CommitDone
  dsimp only
  rw [h]
  simp only [Bool.false_eq_true, if_false]
  rw [commitRegion_succeeded _ h hc]
  simp only [applyAll_all_cons, applyAll_all_nil, hc, if_true, rtFields_setFld_v]
  have hr1 : (applyAll (emptyL1s s) s).rounds = s.rounds := framed_emptyL1s.same s .rounds (by decide)
  have hl1 := l1sEmpty_emptyL1s s
  generalize applyAll (emptyL1s s) s = s1 at hr1 hl1 ⊢
  have hput := fun m => getRt_setRt (curRt s) m { getRt s (curRt s) with ctl := setFld (rtFields v) 0 0 1 } s1
  have hsel2 : (applyAll (setRt (curRt s) { getRt s (curRt s) with ctl := setFld (rtFields v) 0 0 1 } s1) s1).rounds.sel =
      s.rounds.sel := by simp [setRt, hr1]
  have hl2 := everyCore_of_cores (t := applyAll (setRt (curRt s) { getRt s (curRt s) with ctl := setFld (rtFields v) 0 0 1 } s1) s1)
    hl1 rfl
  generalize applyAll (setRt (curRt s) _ s1) s1 = s2 at hput hsel2 hl2 ⊢
  have hr3 := (framed_setKnown (curRt s) none).same s2 .rounds (by decide)
  have hl3 := l1sEmpty_setKnown (curRt s) none hl2
  generalize applyAll (setKnown (curRt s) none s2) s2 = s3 at hr3 hl3 ⊢
  have hr4 := (framed_setKnown (curRt s) (some (fld (getRt s (curRt s)).cnt 47 0))).same s3 .rounds (by decide)
  have hl4 := l1sEmpty_setKnown (curRt s) (some (fld (getRt s (curRt s)).cnt 47 0)) hl3
  have hknown := known_setKnown_some (curRt s) (fld (getRt s (curRt s)).cnt 47 0) s3
  generalize applyAll (setKnown (curRt s) (some _) s3) s3 = s4 at hr4 hl4 hknown ⊢
  obtain ⟨hents, hsel, herr⟩ := setRtErr_done 0 (by decide) s4
  have hget : ∀ m, getRt (applyAll (setRtErr 0 s4) s4) m = if m = curRt s then
      { getRt s (curRt s) with ctl := setFld (rtFields v) 0 0 1 } else getRt s m := fun m => by
    rw [hents, getRt_of_rounds hr4, getRt_of_rounds hr3, hput, getRt_of_rounds hr1]
  refine ⟨fun m hm => by rw [hget, if_neg hm], ?_, herr, by rw [hget, if_pos rfl], fun h => absurd rfl h, fun _ k => ⟨?_, fun hk hs => ?_⟩⟩
  · rw [hsel, show s4.rounds = s2.rounds from hr4.trans hr3, hsel2]
  · exact hl4.getCore rfl k
  · refine hknown k hk ?_
    have hscope : getRt (applyAll (setRtErr 0 s4) s4) (curRt s) = getRt s3 (curRt s) := (hents _).trans (getRt_of_rounds hr4 _)
    rwa [inRegionScope, hscope] at hs

/-- A commit with an error keeps the fields written without V, and no more changes. -/
theorem commitDone_of_failed (hc : commitCode s (curRt s) (getRt s (curRt s)) (setFld v 0 0 1) ≠ 0) :
    CommitDone v s (applyAll (commitRegion (setFld v 0 0 1) s) s) := by
  unfold CommitDone
  dsimp only
  rw [h]
  simp only [Bool.false_eq_true, if_false]
  have hle := commitCode_le s (curRt s) (getRt s (curRt s)) (setFld v 0 0 1)
  rw [commitRegion_failed _ h hc, applyAll_seq, if_neg hc]
  generalize hs1 : applyAll (setRt (curRt s) _ s) s = s1
  have hput := fun m => getRt_setRt (curRt s) m { getRt s (curRt s) with ctl := rtFields (setFld v 0 0 1) } s
  rw [hs1] at hput
  obtain ⟨hents, hsel, herr⟩ := setRtErr_done (commitCode s (curRt s) (getRt s (curRt s)) (setFld v 0 0 1)) (by omega) s1
  refine ⟨fun m hm => ?_, ?_, herr, ?_, fun _ => ?_, fun h => absurd h hc⟩
  · rw [hents, hput, if_neg hm]
  · rw [hsel, ← hs1]; rfl
  · rw [hents, hput, if_pos rfl]
  · rw [← hs1]; exact ⟨rfl, rfl, rfl⟩

end

/-- The result of a write of RTCTL with V = 1, by the case that R314 gives. -/
theorem commitDone_commitRegion (v : DWord) (s : State) : CommitDone v s (applyAll (commitRegion (setFld v 0 0 1) s) s) := by
  cases h : rtValid (getRt s (curRt s)) with
  | true => exact commitDone_of_registered v h
  | false =>
    by_cases hc : commitCode s (curRt s) (getRt s (curRt s)) (setFld v 0 0 1) = 0
    · exact commitDone_of_succeeded v h hc
    · exact commitDone_of_failed v h hc

theorem rtctlCommit_done (v : DWord) (s : State) (h : registersAnswer s = true) :
    EventDoes (.rtctlCommit v) s [.rounds, .cores, .coh, .mem] [] [] (CommitDone v s) :=
  eventDoes_hostPut (commitRegion (setFld v 0 0 1)) rfl
    (hostPut_commit h _ (fld_setFld_same v 0 0 1 (by decide) (by decide))) (framed_commitRegion _) (commitDone_commitRegion v s)

end Sys2Proof.Machine
end

section
/-! PROOFS. The host's release of a round region (13: R315). -/

namespace Sys2Proof.Machine

/-! ## Groups updated one after another -/

/-- Each listed group changed by a function: the places of the list hold the changed groups, the others what they held. -/
theorem mfind_groups_applyAll (f : Group → Group) (l : Map Group) (hl : sortedKeys l = true) (s : State) (q : Nat) :
    mfind (applyAll (l.map (fun e => Upd.group e.1 (f e.2))) s).groups q = ((mfind l q).map f).or (mfind s.groups q) := by
  induction l generalizing s with
  | nil => rfl
  | cons e l ih =>
    obtain ⟨k, g⟩ := e
    obtain ⟨hlt, hl⟩ := (sortedKeys_cons k g l).mp hl
    refine (ih hl _).trans ?_
    rw [Upd.apply_group_groups, mfind_cons, mfind_mput]
    by_cases hq : k = q
    · subst hq
      have hnone : mfind l k = none := by
        by_contra hsome
        obtain ⟨v, hv⟩ := Option.ne_none_iff_exists'.mp hsome
        exact absurd (hlt _ (mem_of_mfind hv)) (lt_irrefl k)
      simp [hnone]
    · simp [hq, Ne.symm hq]

/-- Group updates change no part of the package, no stream and no core. -/
theorem applyAll_groups_keep {α : Type} (key : α → Nat) (g : α → Group) (l : List α) (s : State) :
    Same [] s (applyAll (l.map (fun a => Upd.group (key a) (g a))) s) ∧
    (applyAll (l.map (fun a => Upd.group (key a) (g a))) s).streams = s.streams := by
  induction l generalizing s with
  | nil => exact ⟨Same.refl _ s, rfl⟩
  | cons a l ih =>
    obtain ⟨hsame, hstreams⟩ := ih ((Upd.group (key a) (g a)).apply s)
    refine ⟨Same.trans (fun x _ => ?_) hsame, hstreams⟩
    cases x <;> rfl

/-! ## Floors and tags of a region -/

theorem floorsDropped_dropFloors (r : Nat) (g : Group) : FloorsDropped r g (dropFloors r g) := by
  refine ⟨rfl, fun e he f hf => ?_, fun l f hf => ⟨?_, ?_⟩, fun l hl => ?_⟩
  · obtain ⟨x, -, rfl⟩ := List.mem_map.mp (List.mem_of_mem_filter he)
    simpa using (List.mem_filter.mp hf).2
  · rintro ⟨e, he, rfl, hfe⟩
    obtain ⟨x, hx, rfl⟩ := List.mem_map.mp (List.mem_of_mem_filter he)
    exact ⟨x, hx, rfl, List.mem_of_mem_filter hfe⟩
  · rintro ⟨x, hx, rfl, hfx⟩
    have hkept : f ∈ x.2.filter (fun f => f.1 != r) := List.mem_filter.mpr ⟨hfx, by simpa using hf⟩
    exact ⟨_, List.mem_filter.mpr ⟨List.mem_map_of_mem hx, by simpa using ⟨f.1, ⟨f.2, hfx⟩, hf⟩⟩, rfl, hkept⟩
  · have hor : inMask (dropFloors r g).ovf l = (inMask g.ovf l || inMask (maskOf fun l =>
        (g.floors.filter (fun e => e.2.any (fun f => f.1 == r))).any (fun e => e.1 == l)) l) := BitVec.getLsbD_or
    rw [hor, inMask_maskOf _ l hl, List.any_filter]
    simp only [Bool.and_comm]

/-- No copy of a core carries a region's tag. -/
def untagged (r : Nat) (c : Core) : Prop := ∀ x ∈ c.l1, mfind x.2.tags r = none

/-! ## RTCTL with V = 0 -/

/-- The copies of every core lose a region's tags. -/
def untagCores (r : Nat) : Eff := fun s => s.cores.map (fun e => .core e.1 { e.2 with l1 := e.2.l1.map (fun x => (x.1, untag r x.2)) })

/-- The groups lose a region's floors. -/
def dropGroupFloors (r : Nat) : Eff := fun s => s.groups.map (fun e => .group e.1 (dropFloors r e.2))

/-- The saved groups lose a region's floors, what is in flight its tags and notices, and its entry is free. -/
def freeRegion (r : Nat) : Eff :=
  Eff.all
    [fun s => [.mail { s.mail with saved := s.mail.saved.map (fun x =>
       { x with groups := x.groups.map (fun e => (e.1, dropFloors r e.2)) }) }],
     fun s => [.coh { s.coh with
       fills := s.coh.fills.map (fun f => { f with copy := untag r f.copy })
       notices := s.coh.notices.filter (fun x => x.2.1 != r) }],
     fun s => setRt r { getRt s r with ctl := setFld (getRt s r).ctl 0 0 0 } s]

theorem releaseRegion_eq (r : Nat) :
    releaseRegion r = Eff.all [untagCores r, setKnown r none, dropGroupFloors r, freeRegion r] := by
  funext s
  simp [releaseRegion, freeRegion, untagCores, dropGroupFloors, Eff.all, Eff.seq, Eff.nop]

theorem framed_untagCores (r : Nat) : Framed [.cores] (untagCores r) :=
  framed_cores _ fun s u hu => by obtain ⟨e, -, rfl⟩ := List.mem_map.mp hu; exact ⟨_, _, rfl⟩

theorem everyCore_untagCores (r : Nat) (s : State) : everyCore (untagged r) (applyAll (untagCores r s) s) :=
  everyCore_applyAll (fun e : Nat × Core => e.1) (fun e => { e.2 with l1 := e.2.l1.map (fun x => (x.1, untag r x.2)) }) s.cores s
    (fun e _ x hx => by obtain ⟨y, -, rfl⟩ := List.mem_map.mp hx; exact mfind_mdel_same _ r) fun e he hl => absurd rfl (hl e he)

theorem framed_freeRegion (r : Nat) : Framed [.rounds, .coh, .mail] (freeRegion r) := by
  refine framed_all _ fun f hf => ?_
  simp only [List.mem_cons, List.not_mem_nil, or_false] at hf
  rcases hf with rfl | rfl | rfl
  · exact (framed_mail _).mono (by simp)
  · exact (framed_coh _).mono (by simp)
  · exact framed_of fun s => ⟨_, rfl, (framed_setRt _ _).mono (by simp)⟩

theorem freeRegion_done (r : Nat) (s : State) :
    (∀ m, getRt (applyAll (freeRegion r s) s) m =
      if m = r then { getRt s r with ctl := setFld (getRt s r).ctl 0 0 0 } else getRt s m) ∧
    (applyAll (freeRegion r s) s).rounds.sel = s.rounds.sel ∧
    (applyAll (freeRegion r s) s).mail = { s.mail with saved := (applyAll (freeRegion r s) s).mail.saved } :=
  ⟨fun m => getRt_setRt r m _ _, rfl, rfl⟩

/-- The release of a registered region: what it frees, and what the groups lose. -/
theorem releaseRegion_done (s : State) (hs : sortedKeys s.groups = true) :
    Same [.rounds, .cores, .coh, .mail] s (applyAll (releaseRegion (curRt s) s) s) ∧
    (applyAll (releaseRegion (curRt s) s) s).streams = s.streams ∧ RegionFreed s (applyAll (releaseRegion (curRt s) s) s) ∧
    ∀ q g, mfind s.groups q = some g →
      ∃ h, mfind (applyAll (releaseRegion (curRt s) s) s).groups q = some h ∧ FloorsDropped (curRt s) g h := by
  rw [releaseRegion_eq]
  simp only [applyAll_all_cons, applyAll_all_nil]
  have k1 := (framed_untagCores (curRt s)).same s
  have g1 := (framed_untagCores (curRt s)).groups s
  have m1 := (framed_untagCores (curRt s)).streams s
  have t1 := everyCore_untagCores (curRt s) s
  generalize applyAll (untagCores (curRt s) s) s = s1 at *
  have k2 := k1.trans ((framed_setKnown (curRt s) none).same s1)
  have g2 := ((framed_setKnown (curRt s) none).groups s1).trans g1
  have m2 := ((framed_setKnown (curRt s) none).streams s1).trans m1
  have t2 : everyCore (untagged (curRt s)) (applyAll (setKnown (curRt s) none s1) s1) :=
    everyCore_setKnown (fun x hx => absurd hx List.not_mem_nil) (fun _ _ h => h) (curRt s) none t1
  have u2 := known_setKnown_none (curRt s) s1
  generalize applyAll (setKnown (curRt s) none s1) s1 = s2 at *
  obtain ⟨k3, m3⟩ := applyAll_groups_keep (fun e : Nat × Group => e.1) (fun e => dropFloors (curRt s) e.2) s2.groups s2
  have g3 : ∀ q g, mfind s.groups q = some g →
      mfind (applyAll (dropGroupFloors (curRt s) s2) s2).groups q = some (dropFloors (curRt s) g) := fun q g hq => by
    refine (mfind_groups_applyAll (dropFloors (curRt s)) s2.groups (g2 ▸ hs) s2 q).trans ?_
    rw [g2, hq]; rfl
  change Same [] s2 (applyAll (dropGroupFloors (curRt s) s2) s2) at k3
  change (applyAll (dropGroupFloors (curRt s) s2) s2).streams = s2.streams at m3
  generalize applyAll (dropGroupFloors (curRt s) s2) s2 = s3 at *
  have c3 : s3.cores = s2.cores := k3 .cores (by decide)
  have k3 := k2.trans (k3.mono (by simp))
  have k4 := (framed_freeRegion (curRt s)).same s3
  have hcores : (applyAll (freeRegion (curRt s) s3) s3).cores = s2.cores := (k4 .cores (by decide)).trans c3
  have hget : ∀ m, getRt s3 m = getRt s m := getRt_of_rounds (k3 .rounds (by decide))
  obtain ⟨hents, hsel, hmail⟩ := freeRegion_done (curRt s) s3
  refine ⟨(k3.mono (by simp)).trans (k4.mono (by simp)), ?_, ⟨?_, fun m hm => ?_, ?_, ?_, fun k => ⟨?_, ?_⟩⟩, fun q g hq => ?_⟩
  · rw [(framed_freeRegion (curRt s)).streams, m3, m2]
  · rw [hents, if_pos rfl, hget]
  · rw [hents, if_neg hm, hget]
  · rw [hsel, show s3.rounds = s.rounds from k3 .rounds (by decide)]
  · rw [hmail, show s3.mail = s.mail from k3 .mail (by decide)]
  · rw [getCore, hcores]; exact u2 k
  · exact (everyCore_of_cores t2 hcores).getCore (fun x hx => absurd hx List.not_mem_nil) k
  · exact ⟨_, by rw [(framed_freeRegion (curRt s)).groups]; exact g3 q g hq, floorsDropped_dropFloors (curRt s) g⟩

theorem rtctlRelease_done (v : DWord) (s : State) (h : registersAnswer s = true) (hv : rtValid (getRt s (curRt s)) = true)
    (hb : regionBusy s (curRt s) = false) (hs : sortedKeys s.groups = true) :
    ∃ t, exec (.rtctlRelease v) s = .next t ∧ Same [.rounds, .cores, .coh, .mail] s t ∧ t.streams = s.streams ∧ RegionFreed s t ∧
      ∀ q g, mfind s.groups q = some g → ∃ h, mfind t.groups q = some h ∧ FloorsDropped (curRt s) g h := by
  refine ⟨applyAll (releaseRegion (curRt s) s) s, ?_, releaseRegion_done s hs⟩
  have hput := hostPut_release h (setFld v 0 0 0) (fld_setFld_same v 0 0 0 (by decide) (by decide)) hv hb
  rw [← hput]; rfl

end Sys2Proof.Machine
end

section
/-! PROOFS. What cards do to the sessions and buffers of the trace (17: R392 to R399), and the host's opening of a session
(R393). -/

namespace Sys2Proof.Machine

/-! ## Relations that every operation of a list keeps -/

/-- An operation leaves each state in a relation to what it finds. -/
def Eff.Leaves (R : State → State → Prop) (f : Eff) : Prop := ∀ s, R s (applyAll (f s) s)

section
variable {R : State → State → Prop} (hrefl : ∀ s, R s s) (htrans : ∀ s t u, R s t → R t u → R s u)
include htrans

theorem leaves_seq {f g : Eff} (hf : Eff.Leaves R f) (hg : Eff.Leaves R g) : Eff.Leaves R (Eff.seq f g) := fun s => by
  rw [applyAll_seq]
  exact htrans _ _ _ (hf s) (hg _)

include hrefl

theorem leaves_forEach {α : Type} (l : List α) (f : α → Eff) (h : ∀ a, Eff.Leaves R (f a)) : Eff.Leaves R (Eff.forEach l f) := by
  induction l with
  | nil => exact hrefl
  | cons a l ih => exact leaves_seq htrans (h a) ih

end

/-! ## Drops (R396) -/

/-- Sessions of which some count a drop. -/
theorem mfind_map_addDrop (l : Map Session) (ns : List Nat) (m : Nat) :
    mfind (l.map (fun e => if ns.contains e.1 then (e.1, addDrop e.2) else e)) m =
      (mfind l m).map (fun x => if ns.contains m then addDrop x else x) := by
  induction l with
  | nil => rfl
  | cons e l ih =>
    obtain ⟨k, x⟩ := e
    rw [List.map_cons, mfind_cons]
    by_cases hk : k = m
    · subst hk
      by_cases hn : k ∈ ns <;> simp [hn, mfind_cons]
    · by_cases hn : k ∈ ns <;> simpa [hn, mfind_cons, hk] using ih

theorem trace_count (frank ev n : Nat) (s : State) : (applyAll (count frank ev n s) s).trace = s.trace :=
  (framed_count frank ev n).same s .trace (by decide)

theorem trace_forEach_count (l : List Nat) (s : State) :
    (applyAll (Eff.forEach l (fun f => count f 18 1) s) s).trace = s.trace :=
  (framed_forEach l (fun f => count f 18 1) fun _ _ => framed_count _ _ _).same s .trace (by decide)

/-- Drops counted change the counts of the sessions that they are counted for, and nothing else of the trace unit. -/
theorem dropAll_done (ns : List Nat) (frank : Session → Nat) (s : State) :
    (applyAll (dropAll ns frank s) s).trace = { s.trace with sessions := (applyAll (dropAll ns frank s) s).trace.sessions } ∧
    (∀ m, getSession (applyAll (dropAll ns frank s) s) m = { getSession s m with
      drop := (getSession (applyAll (dropAll ns frank s) s) m).drop
      drops := (getSession (applyAll (dropAll ns frank s) s) m).drops }) ∧
    ∀ m, m ∉ ns → getSession (applyAll (dropAll ns frank s) s) m = getSession s m := by
  have ht : (applyAll (dropAll ns frank s) s).trace = if ns.isEmpty then s.trace else
      { s.trace with sessions := s.trace.sessions.map (fun e => if ns.contains e.1 then (e.1, addDrop e.2) else e) } := by
    simp only [dropAll, applyAll_seq, trace_forEach_count]
    cases ns.isEmpty <;> rfl
  have hread : ∀ m, getSession (applyAll (dropAll ns frank s) s) m = getSession s m ∨
      m ∈ ns ∧ getSession (applyAll (dropAll ns frank s) s) m = addDrop (getSession s m) := fun m => by
    simp only [getSession, ht]
    cases ns.isEmpty
    · simp only [Bool.false_eq_true, if_false, mget, mfind_map_addDrop]
      cases mfind s.trace.sessions m with
      | none => exact .inl rfl
      | some x => by_cases hn : m ∈ ns <;> simp [hn]
    · exact .inl rfl
  refine ⟨?_, fun m => ?_, fun m hm => ?_⟩
  · rw [ht]; cases ns.isEmpty <;> rfl
  · rcases hread m with h | ⟨-, h⟩ <;> rw [h]
    rfl
  · rcases hread m with h | ⟨h, -⟩
    · exact h
    · exact absurd h hm

/-! ## Cards in a buffer -/

theorem getCluster_cluster (c k : Nat) (x : Cluster) (s : State) :
    getCluster (applyAll [.cluster c x] s) k = if k = c then x else getCluster s k := by
  simp [getCluster, mget_mput]

/-- A card of some sessions at the end of a buffer; one of none is not kept. -/
theorem pushCard_done (cl : Nat) (k : BufCard) (s : State) (m : Nat) :
    getCluster (applyAll (pushCard cl k s) s) m =
      if m = cl ∧ k.who ≠ [] then { getCluster s cl with cards := (getCluster s cl).cards ++ [k] } else getCluster s m := by
  unfold pushCard
  by_cases hw : k.who = []
  · simp [hw]
  · have : k.who.isEmpty = false := by simpa using hw
    simp only [this, Bool.false_eq_true, if_false, ne_eq, hw, not_false_eq_true, and_true]
    exact getCluster_cluster cl m _ s

/-- What a card that comes into a buffer leaves: the buffer with it, if a session keeps it, the sessions but for the drops of those that lose it. -/
theorem putCard_done (cl src : Nat) (card : Card) (keep lost : List Nat) (frank : Session → Nat) (s : State) :
    (∀ m, m ≠ cl → getCluster (applyAll (putCard cl src card keep lost frank s) s) m = getCluster s m) ∧
    (∃ more, more.length ≤ 1 ∧ getCluster (applyAll (putCard cl src card keep lost frank s) s) cl =
      { getCluster s cl with cards := (getCluster s cl).cards ++ more }) ∧
    (applyAll (putCard cl src card keep lost frank s) s).trace.sel = s.trace.sel ∧
    (∀ m, getSession (applyAll (putCard cl src card keep lost frank s) s) m = { getSession s m with
      drop := (getSession (applyAll (putCard cl src card keep lost frank s) s) m).drop
      drops := (getSession (applyAll (putCard cl src card keep lost frank s) s) m).drops }) ∧
    ∀ m, m ∉ lost → getSession (applyAll (putCard cl src card keep lost frank s) s) m = getSession s m := by
  simp only [putCard, applyAll_all_cons, applyAll_all_nil]
  have hbump : ∀ m, getSession (applyAll (bumpSeq src s) s) m = getSession s m := fun _ => rfl
  have hbumpC : ∀ m, getCluster (applyAll (bumpSeq src s) s) m = getCluster s m := fun _ => rfl
  have hbumpS : (applyAll (bumpSeq src s) s).trace.sel = s.trace.sel := rfl
  generalize applyAll (bumpSeq src s) s = s1 at *
  obtain ⟨htrace, hread, hkeep⟩ := dropAll_done lost frank s1
  have hclus : (applyAll (dropAll lost frank s1) s1).clusters = s1.clusters := (framed_dropAll lost frank).same s1 .clusters (by decide)
  generalize applyAll (dropAll lost frank s1) s1 = s2 at *
  have hpush := pushCard_done cl { card := card, who := keep, written := false } s2
  have htr : (applyAll (pushCard cl { card := card, who := keep, written := false } s2) s2).trace = s2.trace :=
    (framed_pushCard _ _).same s2 .trace (by decide)
  generalize applyAll (pushCard cl _ s2) s2 = s3 at *
  have hs : ∀ m, getSession s3 m = getSession s2 m := fun m => by rw [getSession, htr, getSession]
  have hc : ∀ m, getCluster s2 m = getCluster s m := fun m => by rw [getCluster, hclus]; exact hbumpC m
  refine ⟨fun m hm => by rw [hpush, if_neg fun h => hm h.1, hc], ?_, by rw [htr, htrace, hbumpS], fun m => ?_, fun m hm => by rw [hs, hkeep m hm, hbump]⟩
  · rw [hpush, hc]
    split
    · exact ⟨[_], by simp, rfl⟩
    · exact ⟨[], by simp, by simp⟩
  · rw [hs, ← hbump]
    exact hread m

/-- What a STALL card leaves: at most one card more at the end of its buffer; no drop while the buffer is not entirely full. -/
theorem stallCard_done (cl event cycles : Nat) (s : State) :
    (∀ m, m ≠ cl → getCluster (applyAll (stallCard cl event cycles s) s) m = getCluster s m) ∧
    (∃ more, more.length ≤ 1 ∧ getCluster (applyAll (stallCard cl event cycles s) s) cl =
      { getCluster s cl with cards := (getCluster s cl).cards ++ more }) ∧
    (applyAll (stallCard cl event cycles s) s).trace.sel = s.trace.sel ∧
    (∀ m, getSession (applyAll (stallCard cl event cycles s) s) m = { getSession s m with
      drop := (getSession (applyAll (stallCard cl event cycles s) s) m).drop
      drops := (getSession (applyAll (stallCard cl event cycles s) s) m).drops }) ∧
    ((getCluster s cl).cards.length < bufCards → ∀ m, getSession (applyAll (stallCard cl event cycles s) s) m = getSession s m) := by
  unfold stallCard
  dsimp only
  split
  · exact ⟨fun _ _ => rfl, ⟨[], by decide, by simp⟩, rfl, fun _ => rfl, fun _ _ => rfl⟩
  · obtain ⟨hc, hcl, hsel, hread, hkeep⟩ := putCard_done cl (srcNum ⟨cl, 0, 0, 11⟩) _ _ _ sessFrank s
    exact ⟨hc, hcl, hsel, hread, fun hfull m => hkeep m (by simp [Nat.not_le.mpr hfull])⟩

/-- What the check of the high-water mark leaves: a buffer that it starts a period for, with at most its STALL card more. -/
theorem checkHigh_done (cl : Nat) (s : State) :
    (∀ m, m ≠ cl → getCluster (applyAll (checkHigh cl s) s) m = getCluster s m) ∧
    (getCluster (applyAll (checkHigh cl s) s) cl = getCluster s cl ∨
      (getCluster s cl).stall = none ∧ highCards ≤ (getCluster s cl).cards.length ∧
      ∃ more, more.length ≤ 1 ∧ getCluster (applyAll (checkHigh cl s) s) cl =
        { getCluster s cl with stall := some 0, cards := (getCluster s cl).cards ++ more }) ∧
    (applyAll (checkHigh cl s) s).trace.sel = s.trace.sel ∧
    (∀ m, getSession (applyAll (checkHigh cl s) s) m = { getSession s m with
      drop := (getSession (applyAll (checkHigh cl s) s) m).drop, drops := (getSession (applyAll (checkHigh cl s) s) m).drops }) ∧
    ((getCluster s cl).cards.length < bufCards → ∀ m, getSession (applyAll (checkHigh cl s) s) m = getSession s m) := by
  unfold checkHigh
  dsimp only
  split
  · next h =>
    obtain ⟨⟨hstall, hhigh⟩, -⟩ : ((getCluster s cl).stall = none ∧ highCards ≤ (getCluster s cl).cards.length) ∧ _ := by
      simpa only [Bool.and_eq_true, Option.isNone_iff_eq_none, decide_eq_true_eq] using h
    rw [applyAll_seq]
    have hset := fun m => getCluster_cluster cl m { getCluster s cl with stall := some 0 } s
    have hsess : ∀ m, getSession (applyAll [.cluster cl { getCluster s cl with stall := some 0 }] s) m = getSession s m := fun _ => rfl
    have hsel0 : (applyAll [.cluster cl { getCluster s cl with stall := some 0 }] s).trace.sel = s.trace.sel := rfl
    generalize applyAll [.cluster cl { getCluster s cl with stall := some 0 }] s = s1 at *
    obtain ⟨hc, ⟨more, hmore, hcl⟩, hsel, hread, hkeep⟩ := stallCard_done cl 0 0 s1
    have hcl1 : getCluster s1 cl = { getCluster s cl with stall := some 0 } := (hset cl).trans (if_pos rfl)
    refine ⟨fun m hm => by rw [hc m hm, hset, if_neg hm], .inr ⟨hstall, hhigh, more, hmore, by rw [hcl, hcl1]⟩, hsel.trans hsel0,
      fun m => ?_, fun hfull m => ?_⟩
    · rw [← hsess]; exact hread m
    · rw [← hsess]; exact hkeep (by rw [hcl1]; exact hfull) m
  · exact ⟨fun _ _ => rfl, .inl rfl, rfl, fun _ => rfl, fun _ _ => rfl⟩

/-- Below the high-water mark nothing begins. -/
theorem checkHigh_below {cl : Nat} {s : State} (h : (getCluster s cl).cards.length < highCards) : checkHigh cl s = [] := by
  simp [checkHigh, Nat.not_le.mpr h]

/-! ## Opening (R393) -/

/-- The registers of every session but the counts of drops, and the selection, are the same. -/
def sameSessions (s t : State) : Prop :=
  t.trace.sel = s.trace.sel ∧ ∀ m, (getSession t m).ctl = (getSession s m).ctl ∧ (getSession t m).ring = (getSession s m).ring ∧
    (getSession t m).ptr = (getSession s m).ptr

theorem sameSessions_checkHigh (cl : Nat) : Eff.Leaves sameSessions (checkHigh cl) := fun s => by
  obtain ⟨-, -, hsel, hread, -⟩ := checkHigh_done cl s
  exact ⟨hsel, fun m => by rw [hread m]; exact ⟨rfl, rfl, rfl⟩⟩

theorem sameSessions_refl (s : State) : sameSessions s s := ⟨rfl, fun _ => ⟨rfl, rfl, rfl⟩⟩

theorem sameSessions_trans (s t u : State) (h : sameSessions s t) (h' : sameSessions t u) : sameSessions s u := by
  refine ⟨h'.1.trans h.1, fun m => ?_⟩
  obtain ⟨c, r, p⟩ := h.2 m
  obtain ⟨c', r', p'⟩ := h'.2 m
  exact ⟨c'.trans c, r'.trans r, p'.trans p⟩

theorem framed_setTsErr (e : Nat) : Framed [.trace] (setTsErr e) := framed_trace _

/-- The result of an open stands above the selection, and nothing else changes. -/
theorem setTsErr_done (e : Nat) (he : e < 65536) (s : State) :
    (applyAll (setTsErr e s) s).trace = { s.trace with sel := (applyAll (setTsErr e s) s).trace.sel } ∧
    (applyAll (setTsErr e s) s).trace.sel.toNat % 65536 = s.trace.sel.toNat % 65536 ∧
    (applyAll (setTsErr e s) s).trace.sel.toNat / 65536 = e := by
  have hsel : (applyAll (setTsErr e s) s).trace.sel.toNat = s.trace.sel.toNat % 65536 + e * 65536 := by
    simp only [setTsErr, applyAll_cons, applyAll_nil, Upd.apply_trace_trace, BitVec.toNat_ofNat]
    exact Nat.mod_eq_of_lt (by omega)
  refine ⟨by simp [setTsErr], ?_, ?_⟩ <;> rw [hsel] <;> omega

theorem framed_openSession (v : DWord) : Framed [.trace, .clusters] (openSession v) := by
  refine framed_of fun s => ?_
  unfold openSession
  dsimp only
  split
  · exact ⟨_, rfl, (framed_setTsErr 1).mono (by simp)⟩
  split
  · exact ⟨_, rfl, (framed_setTsErr 2).mono (by simp)⟩
  · refine ⟨_, rfl, framed_all _ fun f hf => ?_⟩
    simp only [List.mem_cons, List.not_mem_nil, or_false] at hf
    rcases hf with rfl | rfl | rfl
    · exact (framed_setSession _ _).mono (by simp)
    · exact (framed_setTsErr 0).mono (by simp)
    · exact framed_forEach _ _ fun _ _ => framed_checkHigh _

/-- A check of buffers that all stand below the high-water mark does nothing. -/
theorem forEach_checkHigh_below (l : List (Nat × Cluster)) (s : State) (h : ∀ cl, (getCluster s cl).cards.length < highCards) :
    applyAll (Eff.forEach l (fun e => checkHigh e.1) s) s = s := by
  induction l with
  | nil => rfl
  | cons e l ih =>
    rw [show Eff.forEach (e :: l) (fun e => checkHigh e.1) = Eff.seq (checkHigh e.1) (Eff.forEach l fun e => checkHigh e.1) from rfl,
      applyAll_seq, checkHigh_below (h e.1)]
    exact ih

/-- Where every listed buffer stands below a mark, every buffer does. -/
theorem getCluster_below {s : State} (h : ∀ e ∈ s.clusters, e.2.cards.length < highCards) (cl : Nat) :
    (getCluster s cl).cards.length < highCards := by
  unfold getCluster mget
  split
  · next x hx => exact h _ (mem_of_mfind hx)
  · decide

/-- A session that has been opened: EN set, its pointers and drops zero (R393). -/
def openedSession (v : DWord) (x : Session) : Session := { x with ctl := setFld v 0 0 1, ptr := 0, drop := 0, drops := 0 }

theorem setSession_keeps (n : Nat) (x : Session) (s : State) :
    (applyAll (setSession n x s) s).trace.sel = s.trace.sel ∧ (applyAll (setSession n x s) s).trace.seqs = s.trace.seqs ∧
      (applyAll (setSession n x s) s).clusters = s.clusters := ⟨rfl, rfl, rfl⟩

/-- A write of TSCTL with EN = 1, by the case that R393 gives. -/
theorem sessionOpened_openSession (v : DWord) (s : State) : SessionOpened v s (applyAll (openSession (setFld v 0 0 1) s) s) := by
  have hother : fld (setFld v 0 0 1) 23 2 = fld v 23 2 := fld_setFld_other v 0 0 23 2 1 (by decide) (by decide) (by decide)
  have hclus := fun e => (framed_setTsErr e).same s .clusters (by decide)
  unfold SessionOpened openSession
  simp only [hother]
  by_cases ho : sessOpen (getSession s (tsIdx s)) = true
  · obtain ⟨htrace, hsel, herr⟩ := setTsErr_done 1 (by decide) s
    simp only [ho, if_true]
    exact ⟨hsel, herr, fun _ => ⟨hclus 1, htrace⟩, fun h => absurd h (by decide)⟩
  by_cases hb : fld v 23 2 = 0
  · simp only [ho, hb, bne_self_eq_false, Bool.false_eq_true, if_false, ne_eq, not_true, applyAll_all_cons, applyAll_all_nil]
    have hput := fun m => getSession_setSession (tsIdx s) m (openedSession v (getSession s (tsIdx s))) s
    obtain ⟨hsel1, hseq1, hclus1⟩ := setSession_keeps (tsIdx s) (openedSession v (getSession s (tsIdx s))) s
    rw [show { getSession s (tsIdx s) with ctl := setFld v 0 0 1, ptr := 0, drop := 0, drops := 0 } =
      openedSession v (getSession s (tsIdx s)) from rfl]
    generalize applyAll (setSession (tsIdx s) _ s) s = s1 at *
    obtain ⟨htrace, hsel, herr⟩ := setTsErr_done 0 (by decide) s1
    have hclus2 := ((framed_setTsErr 0).same s1 .clusters (by decide)).trans hclus1
    generalize applyAll (setTsErr 0 s1) s1 = s2 at *
    have hread : ∀ m, getSession s2 m = getSession s1 m := fun m => by rw [getSession, htrace, getSession]
    obtain ⟨hsel3, hregs⟩ := leaves_forEach sameSessions_refl sameSessions_trans s.clusters (fun e => checkHigh e.1)
      (fun e => sameSessions_checkHigh e.1) s2
    obtain ⟨hctl, hring, hptr⟩ := hregs (tsIdx s)
    rw [hread, hput, if_pos rfl] at hctl hring hptr
    refine ⟨by rw [hsel3, hsel, hsel1], by rw [hsel3, herr], fun h => absurd h (by simp), fun _ _ =>
      ⟨_, rfl, hctl, hptr, hring, fun hlow => ?_⟩⟩
    have hsame : applyAll (Eff.forEach s.clusters (fun e => checkHigh e.1) s2) s2 = s2 :=
      forEach_checkHigh_below s.clusters s2 fun cl => by rw [getCluster, hclus2]; exact getCluster_below hlow cl
    rw [hsame, hread, hput, if_pos rfl]
    exact ⟨hclus2, by rw [htrace]; exact hseq1, rfl, rfl, fun m hm => by rw [hread, hput, if_neg hm]⟩
  · obtain ⟨htrace, hsel, herr⟩ := setTsErr_done 2 (by decide) s
    have hb' : (fld v 23 2 != 0) = true := by simpa using hb
    simp only [ho, hb, hb', if_true, Bool.false_eq_true, if_false, ne_eq, not_false_eq_true]
    exact ⟨hsel, herr, fun _ => ⟨hclus 2, htrace⟩, fun _ h => absurd h (by simp)⟩

theorem writeTsctl_open (v : DWord) : writeTsctl (setFld v 0 0 1) = openSession (setFld v 0 0 1) := by
  funext s
  simp [writeTsctl, fld_setFld_same v 0 0 1 (by decide) (by decide)]

theorem tsctlOpen_done (v : DWord) (s : State) (h : registersAnswer s = true) :
    EventDoes (.tsctlOpen v) s [.trace, .clusters] [] [] (SessionOpened v s) :=
  eventDoes_hostPut (openSession (setFld v 0 0 1)) rfl (by rw [← writeTsctl_open]; exact hostPut_tsctl h _) (framed_openSession _)
    (sessionOpened_openSession v s)

end Sys2Proof.Machine
end

section
/-! PROOFS. The host's close of a trace session (17: R393). -/

namespace Sys2Proof.Machine

/-! ## What a flush keeps -/

/-- No buffer stands above the high-water mark, and one at it is in a period already: a card more and a STALL card find room. -/
def calmBuf (x : Cluster) : Prop := x.cards.length ≤ highCards ∧ (x.cards.length = highCards → x.stall ≠ none)

/-- What the flush of session n keeps: every session's control and ring registers; and while the buffers are calm, their calm
and every other session. -/
structure FlushKeeps (n : Nat) (s t : State) : Prop where
  regs : ∀ m, (getSession t m).ctl = (getSession s m).ctl ∧ (getSession t m).ring = (getSession s m).ring
  calm : (∀ cl, calmBuf (getCluster s cl)) → (∀ cl, calmBuf (getCluster t cl)) ∧ ∀ m, m ≠ n → getSession t m = getSession s m

section
variable (n : Nat)

theorem flushKeeps_refl (s : State) : FlushKeeps n s s := ⟨fun _ => ⟨rfl, rfl⟩, fun h => ⟨h, fun _ _ => rfl⟩⟩

theorem flushKeeps_trans (s t u : State) (h : FlushKeeps n s t) (h' : FlushKeeps n t u) : FlushKeeps n s u := by
  refine ⟨fun m => ⟨(h'.regs m).1.trans (h.regs m).1, (h'.regs m).2.trans (h.regs m).2⟩, fun hs => ?_⟩
  obtain ⟨ht, hst⟩ := h.calm hs
  obtain ⟨hu, htu⟩ := h'.calm ht
  exact ⟨hu, fun m hm => (htu m hm).trans (hst m hm)⟩

/-- An operation that touches neither the trace unit nor a buffer. -/
theorem Framed.flushKeeps {xs : List Comp} {f : Eff} (h : Framed xs f) (ht : Comp.trace ∉ xs) (hc : Comp.clusters ∉ xs) :
    Eff.Leaves (FlushKeeps n) f := fun s => by
  have htrace : (applyAll (f s) s).trace = s.trace := h.same s .trace ht
  have hclus : (applyAll (f s) s).clusters = s.clusters := h.same s .clusters hc
  have hread : ∀ m, getSession (applyAll (f s) s) m = getSession s m := fun m => by rw [getSession, htrace, getSession]
  refine ⟨fun m => by rw [hread m]; exact ⟨rfl, rfl⟩, fun hs => ⟨fun cl => ?_, fun m _ => hread m⟩⟩
  rw [getCluster, hclus]; exact hs cl

/-- An operation that leaves the buffers, the registers of the session, and every other session. -/
theorem flushKeeps_of_session {s t : State} (hc : t.clusters = s.clusters)
    (hn : (getSession t n).ctl = (getSession s n).ctl ∧ (getSession t n).ring = (getSession s n).ring)
    (hm : ∀ m, m ≠ n → getSession t m = getSession s m) : FlushKeeps n s t := by
  refine ⟨fun m => ?_, fun hs => ⟨fun cl => ?_, hm⟩⟩
  · by_cases h : m = n
    · subst h; exact hn
    · rw [hm m h]; exact ⟨rfl, rfl⟩
  · rw [getCluster, hc]; exact hs cl

theorem flushKeeps_bumpSeq (src : Nat) : Eff.Leaves (FlushKeeps n) (bumpSeq src) := fun _ =>
  flushKeeps_of_session n rfl ⟨rfl, rfl⟩ fun _ _ => rfl

theorem flushKeeps_dropAll (frank : Session → Nat) : Eff.Leaves (FlushKeeps n) (dropAll [n] frank) := fun s => by
  obtain ⟨-, hread, hkeep⟩ := dropAll_done [n] frank s
  exact flushKeeps_of_session n ((framed_dropAll [n] frank).same s .clusters (by decide)) (by rw [hread n]; exact ⟨rfl, rfl⟩)
    fun m hm => hkeep m (by simpa using hm)

theorem flushKeeps_loseCard : Eff.Leaves (FlushKeeps n) (loseCard n) :=
  leaves_seq (flushKeeps_trans n) (flushKeeps_bumpSeq n _) (flushKeeps_dropAll n _)

/-- A change of the session that keeps its control and ring registers. -/
theorem flushKeeps_setSession (s : State) (x : Session) (hctl : x.ctl = (getSession s n).ctl) (hring : x.ring = (getSession s n).ring) :
    FlushKeeps n s (applyAll (setSession n x s) s) := by
  refine flushKeeps_of_session n rfl ?_ fun m hm => (getSession_setSession n m x s).trans (if_neg hm)
  rw [getSession_setSession, if_pos rfl]
  exact ⟨hctl, hring⟩

theorem flushKeeps_dropsTold : Eff.Leaves (FlushKeeps n) (dropsTold n) := fun s => flushKeeps_setSession n s _ rfl rfl

/-- The homes of a ring take a card's bytes, if its address is one of memory. -/
def ringCells (n : Nat) (k : Card) (s : State) : Eff :=
  Eff.when (physExists s (ringAddr (getSession s n)))
    (unitCells (cardFrank (cardFor (getSession s n) k)) (cellsAt (ringAddr (getSession s n)) (cardBytes (cardFor (getSession s n) k))))

theorem framed_ringCells (n : Nat) (k : Card) (s : State) : Framed homeParts (ringCells n k s) := (framed_unitCells _ _).when _

/-- A card of no drain reaches its home, and TAIL counts it. -/
theorem ringWrite_eq (k : Card) (s : State) : ringWrite none n k s = Eff.seq (ringCells n k s)
    (setSession n { getSession s n with ptr := setFld (getSession s n).ptr 31 0 (sessTail (getSession s n) + 1) }) s := rfl

theorem flushKeeps_ringWrite (k : Card) : Eff.Leaves (FlushKeeps n) (ringWrite none n k) := fun s => by
  rw [ringWrite_eq, applyAll_seq]
  have hcells := (framed_ringCells n k s).flushKeeps n (by decide) (by decide) s
  obtain ⟨hctl, hring⟩ := hcells.regs n
  exact flushKeeps_trans n s _ _ hcells (flushKeeps_setSession n _ _ hctl.symm hring.symm)

/-- A change of a buffer's cards that leaves no more of them. -/
theorem flushKeeps_setCards (cl : Nat) (f : List BufCard → List BufCard) (hf : ∀ l, (f l).length ≤ l.length) :
    Eff.Leaves (FlushKeeps n) (setCards cl f) := fun s => by
  refine ⟨fun _ => ⟨rfl, rfl⟩, fun hs => ⟨fun m => ?_, fun _ _ => rfl⟩⟩
  rw [setCards, getCluster_cluster]
  split
  · obtain ⟨hle, hat⟩ := hs cl
    have := hf (getCluster s cl).cards
    exact ⟨by simp only; omega, fun h => hat (by simp only at h; omega)⟩
  · exact hs m

/-- A card that a filter drops leaves a list no longer than the rest. -/
theorem length_filter_pushed {α : Type} (p : α → Bool) (l more : List α) (b : α) (hb : p b = false) :
    ((l ++ [b] ++ more).filter p).length ≤ l.length + more.length := by
  have hl := List.length_filter_le p l
  have hm := List.length_filter_le p more
  rw [List.filter_append, List.filter_append, List.filter_singleton, hb, List.length_append, List.length_append]
  exact Nat.add_le_add hl hm

/-- A card of the session comes into a buffer and leaves it for the ring: with it at most one STALL card more has come, and a
period with that. -/
theorem flushKeeps_pass (cl : Nat) (k : Card) : Eff.Leaves (FlushKeeps n) (Eff.all
    [pushCard cl { card := k, who := [n], written := false }, checkHigh cl,
     setCards cl (fun l => l.filter (fun b => b.card != k || b.who != [n]))]) := fun s => by
  simp only [applyAll_all_cons, applyAll_all_nil]
  have hpush := fun m => pushCard_done cl { card := k, who := [n], written := false } s m
  have hread : ∀ m, getSession (applyAll (pushCard cl { card := k, who := [n], written := false } s) s) m = getSession s m :=
    fun _ => rfl
  generalize applyAll (pushCard cl _ s) s = s1 at *
  have hcl : (getCluster s1 cl).cards = (getCluster s cl).cards ++ [{ card := k, who := [n], written := false }] ∧
      (getCluster s1 cl).stall = (getCluster s cl).stall := by rw [hpush, if_pos (by simp)]; exact ⟨rfl, rfl⟩
  have hoff : ∀ m, m ≠ cl → getCluster s1 m = getCluster s m := fun m hm => by rw [hpush, if_neg fun h => hm h.1]
  obtain ⟨hc, hcl2, -, hread2, hkeep2⟩ := checkHigh_done cl s1
  generalize applyAll (checkHigh cl s1) s1 = s2 at *
  have hread3 : ∀ m, getSession (applyAll (setCards cl (fun l => l.filter (fun b => b.card != k || b.who != [n])) s2) s2) m =
      getSession s2 m := fun _ => rfl
  have hset := fun m => getCluster_cluster cl m
    { getCluster s2 cl with cards := (getCluster s2 cl).cards.filter (fun b => b.card != k || b.who != [n]) } s2
  refine ⟨fun m => ?_, fun hs => ⟨fun m => ?_, fun m _ => ?_⟩⟩
  · rw [hread3, hread2 m, hread m]; exact ⟨rfl, rfl⟩
  · refine (congrArg calmBuf (hset m)).mpr ?_
    by_cases hm : m = cl
    · obtain ⟨hle, hat⟩ := hs cl
      have hout := fun more => length_filter_pushed (fun b => b.card != k || b.who != [n]) (getCluster s cl).cards more
        { card := k, who := [n], written := false } (by simp)
      rw [if_pos hm]
      rcases hcl2 with h2 | ⟨hnone, hhigh, more, hmore, h2⟩ <;> rw [h2]
      · have hout := hout []
        rw [List.append_nil, List.length_nil] at hout
        rw [hcl.1]
        refine ⟨by simp only; omega, fun h => ?_⟩
        rw [show _ = (getCluster s cl).stall from hcl.2]
        exact hat (by simp only at h; omega)
      · have hout := hout more
        have hbelow : (getCluster s cl).cards.length ≠ highCards := fun h => hat h (hcl.2 ▸ hnone)
        rw [hcl.1]
        exact ⟨by simp only; omega, fun _ => by simp⟩
    · rw [if_neg hm, hc m hm, hoff m hm]
      exact hs m
  · obtain ⟨hle, -⟩ := hs cl
    rw [hread3, hkeep2 (by rw [hcl.1, List.length_append, List.length_singleton]; unfold highCards at hle; unfold bufCards; omega),
      hread]

theorem passCard_eq (k : Card) (told : Eff) (s : State) (h : pkgBufFull s = false) : passCard n k told s = Eff.all
    [bumpSeq (srcNum (pkgSrc 11)),
     Eff.all [pushCard (pkgBuf s) { card := k, who := [n], written := false }, checkHigh (pkgBuf s),
       setCards (pkgBuf s) (fun l => l.filter (fun b => b.card != k || b.who != [n]))],
     Eff.all [ringWrite none n k, count (sessFrank (getSession s n)) 14 1, told]] s := by
  simp [passCard, h, Eff.all, Eff.seq, Eff.nop, setCards]

theorem flushKeeps_all {fs : List Eff} (h : ∀ f ∈ fs, Eff.Leaves (FlushKeeps n) f) : Eff.Leaves (FlushKeeps n) (Eff.all fs) := by
  induction fs with
  | nil => exact flushKeeps_refl n
  | cons f fs ih =>
    exact leaves_seq (flushKeeps_trans n) (h f List.mem_cons_self) (ih fun g hg => h g (List.mem_cons_of_mem _ hg))

theorem flushKeeps_count (frank ev k : Nat) : Eff.Leaves (FlushKeeps n) (count frank ev k) :=
  (framed_count frank ev k).flushKeeps n (by decide) (by decide)

theorem flushKeeps_passCard (k : Card) (told : Eff) (ht : Eff.Leaves (FlushKeeps n) told) :
    Eff.Leaves (FlushKeeps n) (passCard n k told) := fun s => by
  cases h : pkgBufFull s
  · rw [passCard_eq n k told s h]
    refine flushKeeps_all n (fun f hf => ?_) s
    simp only [List.mem_cons, List.not_mem_nil, or_false] at hf
    rcases hf with rfl | rfl | rfl
    · exact flushKeeps_bumpSeq n _
    · exact flushKeeps_pass n _ k
    · refine flushKeeps_all n fun f hf => ?_
      simp only [List.mem_cons, List.not_mem_nil, or_false] at hf
      rcases hf with rfl | rfl | rfl
      · exact flushKeeps_ringWrite n k
      · exact flushKeeps_count n _ _ _
      · exact ht
  · rw [passCard, h]
    exact flushKeeps_loseCard n s

theorem flushKeeps_passDrop : Eff.Leaves (FlushKeeps n) (passDrop n) := fun s => by
  unfold passDrop
  split
  · exact flushKeeps_passCard n _ _ (flushKeeps_dropsTold n) s
  · exact flushKeeps_refl n s

theorem flushKeeps_when (c : Bool) {f : Eff} (h : Eff.Leaves (FlushKeeps n) f) : Eff.Leaves (FlushKeeps n) (Eff.when c f) := by
  cases c
  · exact flushKeeps_refl n
  · exact h

/-- At a flush a session takes a card or drops it. -/
theorem flushKeeps_takeCard (k : Card) : Eff.Leaves (FlushKeeps n) (fun s => (takeCard none n k true s).1) := fun s => by
  simp only [takeCard, Bool.not_true, Bool.false_and, Bool.true_or, Bool.false_eq_true, if_false, if_true]
  split
  · exact flushKeeps_ringWrite n k s
  · exact flushKeeps_dropAll n (fun x => cardFrank (cardFor x k)) s

/-- What follows the taking of card i of a buffer. -/
def cardTaken (n cl i : Nat) (b : BufCard) (w : Bool) : Eff :=
  Eff.seq (setCards cl (fun l => l.set i { b with who := b.who.filter (· != n), written := b.written || w })) (countWritten b w)

/-- A card that a session was admitted for leaves it: the DROP card due first, then the card, then its place in the buffer. -/
theorem flushCard_eq (cl i : Nat) (b : BufCard) (s : State) (hb : (getCluster s cl).cards[i]? = some b) (hn : b.who.contains n = true) :
    flushCard n cl i s = Eff.seq (Eff.when (fld b.card.d0 7 0 != 22) (passDrop n)) (fun s =>
      Eff.seq (fun s => (takeCard none n b.card true s).1) (cardTaken n cl i b ((takeCard none n b.card true s).2 == .written)) s) s := by
  have hmem : n ∈ b.who := by simpa using hn
  simp [flushCard, hb, hmem, Eff.seq, cardTaken]

theorem framed_countWritten (b : BufCard) (w : Bool) : Framed [] (countWritten b w) :=
  framed_of fun s => ⟨Eff.when (w && !b.written) (count (cardFrank (cardFor (getSession s (b.who.headD 0)) b.card)) 14 1), rfl,
    (framed_count _ _ _).when _⟩

theorem flushKeeps_cardTaken (cl i : Nat) (b : BufCard) (w : Bool) : Eff.Leaves (FlushKeeps n) (cardTaken n cl i b w) :=
  leaves_seq (flushKeeps_trans n) (flushKeeps_setCards n cl _ fun l => by simp)
    ((framed_countWritten b w).flushKeeps n (by decide) (by decide))

theorem flushKeeps_flushCard (cl i : Nat) : Eff.Leaves (FlushKeeps n) (flushCard n cl i) := fun s => by
  cases hb : (getCluster s cl).cards[i]? with
  | none => rw [flushCard, hb]; exact flushKeeps_refl n s
  | some b =>
    cases hn : b.who.contains n with
    | false => simp only [flushCard, hb, hn]; exact flushKeeps_refl n s
    | true =>
      rw [flushCard_eq n cl i b s hb hn]
      refine leaves_seq (flushKeeps_trans n) (flushKeeps_when n _ (flushKeeps_passDrop n)) (fun s => ?_) s
      exact leaves_seq (flushKeeps_trans n) (flushKeeps_takeCard n b.card) (flushKeeps_cardTaken n cl i b _) s

theorem flushKeeps_flushBuf (cl : Nat) : Eff.Leaves (FlushKeeps n) (flushBuf n cl) := fun s =>
  leaves_seq (flushKeeps_trans n) (leaves_forEach (flushKeeps_refl n) (flushKeeps_trans n) _ _ fun i => flushKeeps_flushCard n cl i)
    (flushKeeps_setCards n cl _ fun l => List.length_filter_le _ l) s

/-! ## What a flush touches -/

abbrev flushParts : List Comp := [.trace, .mem, .coh, .cores, .clusters]

theorem framed_ringWrite (k : Card) : Framed flushParts (ringWrite none n k) :=
  framed_of fun s => ⟨_, ringWrite_eq n k s, Framed.seq ((framed_ringCells n k s).mono (by simp)) ((framed_setSession _ _).mono (by simp))⟩

theorem framed_loseCard : Framed flushParts (loseCard n) :=
  Framed.seq ((framed_bumpSeq _).mono (by simp)) ((framed_dropAll _ _).mono (by simp))

theorem framed_setCards (cl : Nat) (f : List BufCard → List BufCard) : Framed [.clusters] (setCards cl f) := framed_cluster _ _

theorem framed_passCard (k : Card) (told : Eff) (ht : Framed flushParts told) : Framed flushParts (passCard n k told) :=
  framed_of fun s => by
    cases h : pkgBufFull s
    · refine ⟨_, passCard_eq n k told s h, framed_all _ fun f hf => ?_⟩
      simp only [List.mem_cons, List.not_mem_nil, or_false] at hf
      rcases hf with rfl | rfl | rfl
      · exact (framed_bumpSeq _).mono (by simp)
      · refine framed_all _ fun f hf => ?_
        simp only [List.mem_cons, List.not_mem_nil, or_false] at hf
        rcases hf with rfl | rfl | rfl
        · exact (framed_pushCard _ _).mono (by simp)
        · exact (framed_checkHigh _).mono (by simp)
        · exact (framed_setCards _ _).mono (by simp)
      · refine framed_all _ fun f hf => ?_
        simp only [List.mem_cons, List.not_mem_nil, or_false] at hf
        rcases hf with rfl | rfl | rfl
        · exact framed_ringWrite n k
        · exact (framed_count _ _ _).mono (by simp)
        · exact ht
    · exact ⟨_, by rw [passCard, h]; rfl, framed_loseCard n⟩

theorem framed_dropsTold : Framed [.trace] (dropsTold n) := framed_trace fun _ => _

theorem framed_passDrop : Framed flushParts (passDrop n) := framed_of fun s => by
  unfold passDrop
  split
  · exact ⟨_, rfl, framed_passCard n _ _ ((framed_dropsTold n).mono (by simp))⟩
  · exact ⟨Eff.nop, rfl, framed_nop _⟩

theorem framed_takeCard (k : Card) : Framed flushParts (fun s => (takeCard none n k true s).1) := framed_of fun s => by
  simp only [takeCard, Bool.not_true, Bool.false_and, Bool.true_or, Bool.false_eq_true, if_false, if_true]
  split
  · exact ⟨_, rfl, framed_ringWrite n k⟩
  · exact ⟨dropAll [n] (fun x => cardFrank (cardFor x k)), rfl, (framed_dropAll _ _).mono (by simp)⟩

theorem framed_flushCard (cl i : Nat) : Framed flushParts (flushCard n cl i) := framed_of fun s => by
  cases hb : (getCluster s cl).cards[i]? with
  | none => exact ⟨Eff.nop, by simp only [flushCard, hb]; rfl, framed_nop _⟩
  | some b =>
    cases hn : b.who.contains n with
    | false => exact ⟨Eff.nop, by simp only [flushCard, hb, hn]; rfl, framed_nop _⟩
    | true =>
      refine ⟨_, flushCard_eq n cl i b s hb hn, Framed.seq ((framed_passDrop n).when _) (framed_of fun s => ⟨_, rfl, ?_⟩)⟩
      exact Framed.seq (framed_takeCard n b.card)
        (Framed.seq ((framed_setCards _ _).mono (by simp)) ((framed_countWritten _ _).mono (by simp)))

theorem framed_flushBuf (cl : Nat) : Framed flushParts (flushBuf n cl) :=
  framed_of fun s => ⟨Eff.seq (Eff.forEach (List.range (getCluster s cl).cards.length) (flushCard n cl))
    (setCards cl (fun l => l.filter (fun b => !b.who.isEmpty))), rfl,
    Framed.seq (framed_forEach _ _ fun i _ => framed_flushCard n cl i) ((framed_setCards _ _).mono (by simp))⟩

/-! ## TSCTL with EN = 0 -/

/-- The flush of a session that ends, before EN falls: the buffers, the DROP card due, the TRUNC card. -/
def endFlush (reason : Nat) : Eff := fun s =>
  Eff.all
    [Eff.forEach s.clusters (fun e => flushBuf n e.1), passDrop n,
     fun t => passCard n (truncOf t n reason ((getSession t n).drop - (getSession s n).drop).toNat) Eff.nop t] s

theorem endSession_eq (reason : Nat) : endSession n reason =
    Eff.seq (endFlush n reason) (fun s => setSession n { getSession s n with ctl := setFld (getSession s n).ctl 0 0 0 } s) := by
  funext s
  simp [endSession, endFlush, Eff.all, Eff.seq, Eff.nop]

theorem flushKeeps_endFlush (reason : Nat) : Eff.Leaves (FlushKeeps n) (endFlush n reason) := fun s => by
  refine flushKeeps_all n (fun f hf => ?_) s
  simp only [List.mem_cons, List.not_mem_nil, or_false] at hf
  rcases hf with rfl | rfl | rfl
  · exact leaves_forEach (flushKeeps_refl n) (flushKeeps_trans n) _ _ fun e => flushKeeps_flushBuf n e.1
  · exact flushKeeps_passDrop n
  · exact fun t => flushKeeps_passCard n _ Eff.nop (flushKeeps_refl n) t

theorem framed_endFlush (reason : Nat) : Framed flushParts (endFlush n reason) := framed_of fun s => by
  unfold endFlush
  refine ⟨_, rfl, framed_all _ fun f hf => ?_⟩
  simp only [List.mem_cons, List.not_mem_nil, or_false] at hf
  rcases hf with rfl | rfl | rfl
  · exact framed_forEach _ _ fun e _ => framed_flushBuf n e.1
  · exact framed_passDrop n
  · exact framed_of fun t => ⟨_, rfl, framed_passCard n _ _ (framed_nop _)⟩

theorem framed_endSession (reason : Nat) : Framed flushParts (endSession n reason) := by
  rw [endSession_eq]
  exact Framed.seq (framed_endFlush n reason) (framed_of fun s => ⟨_, rfl, (framed_setSession _ _).mono (by simp)⟩)

end

/-- The selected session closed: EN has fallen, and with calm buffers no other session has changed. -/
theorem sessionClosed_endSession (reason : Nat) (s : State) : SessionClosed s (applyAll (endSession (tsIdx s) reason s) s) := by
  unfold SessionClosed
  rw [endSession_eq, applyAll_seq]
  obtain ⟨hregs, hcalm⟩ := flushKeeps_endFlush (tsIdx s) reason s
  generalize applyAll (endFlush (tsIdx s) reason s) s = s1 at *
  obtain ⟨hctl, hring⟩ := hregs (tsIdx s)
  have hread := fun m => getSession_setSession (tsIdx s) m
    { getSession s1 (tsIdx s) with ctl := setFld (getSession s1 (tsIdx s)).ctl 0 0 0 } s1
  refine ⟨?_, ?_, fun hlow m hm => ?_⟩ <;> rw [hread]
  · rw [if_pos rfl, ← hctl]
  · rw [if_pos rfl, ← hring]
  · have hs : ∀ cl, calmBuf (getCluster s cl) := fun cl =>
      ⟨(getCluster_below hlow cl).le, fun h => absurd h (getCluster_below hlow cl).ne⟩
    rw [if_neg hm, (hcalm hs).2 m hm]

theorem writeTsctl_close (v : DWord) {s : State} (h : sessOpen (getSession s (tsIdx s)) = true) :
    writeTsctl (setFld v 0 0 0) s = endSession (tsIdx s) 2 s := by
  simp [writeTsctl, fld_setFld_same v 0 0 0 (by decide) (by decide), h]

theorem tsctlClose_done (v : DWord) (s : State) (h : registersAnswer s = true) (ho : sessOpen (getSession s (tsIdx s)) = true) :
    EventDoes (.tsctlClose v) s [.trace, .mem, .coh, .cores, .clusters] [] [] (SessionClosed s) :=
  eventDoes_hostPut (endSession (tsIdx s) 2) rfl ((hostPut_tsctl h _).trans (writeTsctl_close v ho)) (framed_endSession _ 2)
    (sessionClosed_endSession 2 s)

end Sys2Proof.Machine
end

section
/-! PROOFS. Accesses from outside the package (10: R255; 20: R436), and the settlement of the host's events (O54). -/

namespace Sys2Proof.Machine

/-! ## Bytes written -/

/-- The cells of a run hold its bytes, each at its address. -/
theorem mem_cellsAt {a : Nat} {bs : List Byte} {c : Host.Cell} :
    c ∈ cellsAt a bs ↔ a ≤ c.1 ∧ c.1 < a + bs.length ∧ c.2 = bs.getD (c.1 - a) 0 := by
  obtain ⟨x, b⟩ := c
  simp only [cellsAt, List.mem_map, Prod.exists, List.mk_mem_zipIdx_iff_getElem?, Prod.mk.injEq]
  constructor
  · rintro ⟨b', i, hi, rfl, rfl⟩
    obtain ⟨hlt, rfl⟩ := List.getElem?_eq_some_iff.mp hi
    simp [hlt]
  · rintro ⟨h1, h2, rfl⟩
    have hlt : x - a < bs.length := by omega
    exact ⟨bs[x - a], x - a, List.getElem?_eq_getElem hlt, by omega, by simp [hlt]⟩

/-- Cells written whose bytes are a function of their addresses. -/
theorem readByte_writeCells (f : Nat → Byte) (cs m : List Host.Cell) (hf : ∀ c ∈ cs, c.2 = f c.1) (x : Nat) :
    readByte (writeCells m cs) x = if ∃ c ∈ cs, c.1 = x then f x else readByte m x := by
  induction cs generalizing m with
  | nil => simp [writeCells]
  | cons c cs ih =>
    refine (ih (writeByte m c.1 c.2) fun d hd => hf d (List.mem_cons_of_mem _ hd)).trans ?_
    by_cases hx : c.1 = x
    · subst hx
      simp [hf c List.mem_cons_self]
    · simp [hx, readByte_writeByte_other _ _ _ _ (Ne.symm hx)]

/-- The lines of a run are those of its addresses. -/
theorem lineOf_mem_linesOf {a n x : Nat} (h1 : a ≤ x) (h2 : x < a + n) : lineOf x ∈ linesOf a n := by
  have hlo : lineOf a ≤ lineOf x := Nat.div_le_div_right h1
  have hhi : lineOf x ≤ lineOf (a + n - 1) := Nat.div_le_div_right (by omega)
  exact List.mem_map.mpr ⟨lineOf x - lineOf a, List.mem_range.mpr (by omega), by omega⟩

/-! ## Merges and writes at quiet lines -/

theorem mergeLine_of_priv_nil {s : State} {l : Nat} (h : (getDir s l).priv = []) : mergeLine l s = [] := by
  simp [mergeLine, h]

/-- Lines without privatised copies have nothing to merge. -/
theorem forEach_mergeLine_of_priv_nil (ls : List Nat) (s : State) (h : ∀ l ∈ ls, (getDir s l).priv = []) :
    applyAll (Eff.forEach ls mergeLine s) s = s := by
  induction ls with
  | nil => rfl
  | cons l ls ih =>
    rw [show Eff.forEach (l :: ls) mergeLine = Eff.seq (mergeLine l) (Eff.forEach ls mergeLine) from rfl, applyAll_seq,
      mergeLine_of_priv_nil (h l List.mem_cons_self)]
    exact ih fun l hl => h l (List.mem_cons_of_mem _ hl)

theorem getDir_priv_of_noPrivate {s : State} (h : noPrivate s) (l : Nat) : (getDir s l).priv = [] := by
  unfold getDir mget
  split
  · next d hd => exact h _ (mem_of_mfind hd)
  · rfl

theorem framed_outsideWrite (frank line : Nat) (cs : List Host.Cell) : Framed homeParts (outsideWrite frank line cs) :=
  Framed.seq (framed_mergeLine _) (framed_queueWrite _ _ _ _ _ _)

theorem framed_outsideCells (a : Nat) (data : List Byte) : Framed homeParts (outsideCells a data) :=
  framed_forEach _ _ fun _ _ => framed_outsideWrite _ _ _

/-- A line is as quiet as the directory, the leases, the waiting writes and the cycle make it. -/
theorem outsideQuiet_congr {s t : State} {l : Nat} (hd : t.coh.dirs = s.coh.dirs) (hl : t.coh.leases = s.coh.leases)
    (hh : t.coh.homeq = s.coh.homeq) (hc : t.clk = s.clk) (h : outsideQuiet s l) : outsideQuiet t l := by
  unfold outsideQuiet getDir liveLeases foreignHolders homeWaits at *
  unfold getDir at *
  rw [hd, hl, hh, hc]
  exact h

/-- At a quiet line a write from outside performs at once, and every line stays as quiet as it was. -/
theorem outsideWrite_quiet (frank line : Nat) (cs : List Host.Cell) (s : State) (h : outsideQuiet s line) :
    (applyAll (outsideWrite frank line cs s) s).mem = writeCells s.mem cs ∧
    ∀ l, outsideQuiet s l → outsideQuiet (applyAll (outsideWrite frank line cs s) s) l := by
  obtain ⟨hpriv, hleases, hholders, hwaits⟩ := h
  have hop : applyAll (outsideWrite frank line cs s) s =
      applyAll (Eff.all [performCells cs, countAt frank (line * 128) (if line * 128 < 2 ^ 47 then cs.length else 0)] s) s := by
    simp [outsideWrite, mergeLine_of_priv_nil hpriv, queueWrite, hleases, hholders, hwaits]
  have hclk := (framed_outsideWrite frank line cs).same s .clk (by decide)
  obtain ⟨hmem, -, hcoh⟩ := performCells_done cs s
  rw [hop] at hclk ⊢
  simp only [applyAll_all_cons, applyAll_all_nil] at hclk ⊢
  have hcount := (framed_count frank (tierEvent (line * 128)) (if line * 128 ≥ 2 ^ 48 then
    2 * (if line * 128 < 2 ^ 47 then cs.length else 0) else (if line * 128 < 2 ^ 47 then cs.length else 0))).same
      (applyAll (performCells cs s) s)
  have hcoh' : (applyAll (countAt frank (line * 128) (if line * 128 < 2 ^ 47 then cs.length else 0)
      (applyAll (performCells cs s) s)) (applyAll (performCells cs s) s)).coh = _ := (hcount .coh (by decide)).trans hcoh
  exact ⟨(hcount .mem (by decide)).trans hmem, fun l => outsideQuiet_congr (by rw [hcoh']) (by rw [hcoh']) (by rw [hcoh']) hclk⟩

/-- Cells of quiet lines written line by line, their bytes a function of their addresses. -/
theorem forEach_outsideWrite_quiet (f : Nat → Byte) (cs : List Host.Cell) (hf : ∀ c ∈ cs, c.2 = f c.1) (ls : List Nat) (s : State)
    (h : ∀ l ∈ ls, outsideQuiet s l) (x : Nat) :
    readByte (applyAll (Eff.forEach ls (fun l => outsideWrite 0 l (cs.filter (fun (c : Host.Cell) => lineOf c.1 == l))) s) s).mem x =
      if lineOf x ∈ ls ∧ ∃ c ∈ cs, c.1 = x then f x else readByte s.mem x := by
  induction ls generalizing s with
  | nil => simp [Eff.forEach, Eff.all, Eff.nop]
  | cons l ls ih =>
    rw [show Eff.forEach (l :: ls) (fun l => outsideWrite 0 l (cs.filter (fun (c : Host.Cell) => lineOf c.1 == l))) =
      Eff.seq (outsideWrite 0 l (cs.filter (fun (c : Host.Cell) => lineOf c.1 == l))) (Eff.forEach ls _) from rfl, applyAll_seq]
    obtain ⟨hmem, hquiet⟩ := outsideWrite_quiet 0 l (cs.filter (fun (c : Host.Cell) => lineOf c.1 == l)) s (h l List.mem_cons_self)
    rw [ih _ fun m hm => hquiet m (h m (List.mem_cons_of_mem _ hm)), hmem,
      readByte_writeCells f _ _ fun c hc => hf c (List.mem_of_mem_filter hc)]
    have hown : (∃ d ∈ cs.filter (fun (d : Host.Cell) => lineOf d.1 == l), d.1 = x) ↔ lineOf x = l ∧ ∃ c ∈ cs, c.1 = x := by
      constructor
      · rintro ⟨d, hd, rfl⟩
        exact ⟨by simpa using (List.mem_filter.mp hd).2, d, List.mem_of_mem_filter hd, rfl⟩
      · rintro ⟨hl, c, hc, rfl⟩
        exact ⟨c, List.mem_filter.mpr ⟨hc, by simpa using hl⟩, rfl⟩
    simp only [hown, List.mem_cons]
    by_cases hc : ∃ c ∈ cs, c.1 = x
    · by_cases hx : lineOf x = l <;> simp [hc, hx]
    · simp [hc]

/-- Bytes written from outside at quiet lines are in memory at once. -/
theorem outsideCells_quiet (a : Nat) (data : List Byte) (s : State) (h : ∀ l ∈ linesOf a data.length, outsideQuiet s l) :
    BytesAfter s.mem (applyAll (outsideCells a data s) s).mem a data := fun x => by
  have hread := forEach_outsideWrite_quiet (fun x => data.getD (x - a) 0) (cellsAt a data) (fun c hc => (mem_cellsAt.mp hc).2.2)
    (linesOf a data.length) s h x
  refine hread.trans ?_
  by_cases hx : a ≤ x ∧ x < a + data.length
  · have hc : ∃ c ∈ cellsAt a data, c.1 = x := ⟨(x, data.getD (x - a) 0), mem_cellsAt.mpr ⟨hx.1, hx.2, rfl⟩, rfl⟩
    rw [if_pos ⟨lineOf_mem_linesOf hx.1 hx.2, hc⟩, if_pos hx]
  · have hc : ¬∃ c ∈ cellsAt a data, c.1 = x := by
      rintro ⟨c, hc, rfl⟩
      obtain ⟨h1, h2, -⟩ := mem_cellsAt.mp hc
      exact hx ⟨h1, h2⟩
    rw [if_neg fun h => hc h.2, if_neg hx]

end Sys2Proof.Machine
end

section
/-! PROOFS. What the host reads back (10: R255; 20: R436), the root's writes (10: R277), and the settlement of O54. -/

namespace Sys2Proof.Machine

/-! ## Updates that leave what the host has read -/

/-- An update that leaves what the host has read. -/
def Upd.mute : Upd → Bool
  | .hostVal _ => false
  | .reset => false
  | _ => true

theorem Upd.apply_hostVal {u : Upd} (h : u.mute = true) (s : State) (v : DWord) :
    u.apply { s with hostVal := v } = { u.apply s with hostVal := v } := by
  cases u with
  | hostVal w => simp [mute] at h
  | reset => simp [mute] at h
  | _ => rfl

/-- An operation that only makes updates that leave what the host has read. -/
def Eff.Mute (f : Eff) : Prop := ∀ s, ∀ u ∈ f s, u.mute = true

/-- Such updates do not see what the host has read. -/
theorem applyAll_hostVal {us : List Upd} (h : ∀ u ∈ us, u.mute = true) (s : State) (v : DWord) :
    applyAll us { s with hostVal := v } = { applyAll us s with hostVal := v } := by
  induction us generalizing s with
  | nil => rfl
  | cons u us ih =>
    rw [applyAll_cons, applyAll_cons, Upd.apply_hostVal (h u List.mem_cons_self)]
    exact ih (fun w hw => h w (List.mem_cons_of_mem _ hw)) _

theorem mute_nop : Eff.nop.Mute := fun _ _ hu => absurd hu List.not_mem_nil

theorem Eff.Mute.seq {f g : Eff} (hf : f.Mute) (hg : g.Mute) : (Eff.seq f g).Mute := fun s u hu =>
  (List.mem_append.mp hu).elim (hf s u) (hg _ u)

theorem mute_all (fs : List Eff) (h : ∀ f ∈ fs, f.Mute) : (Eff.all fs).Mute := by
  induction fs with
  | nil => exact mute_nop
  | cons f fs ih => exact (h f List.mem_cons_self).seq (ih fun g hg => h g (List.mem_cons_of_mem _ hg))

theorem Eff.Mute.when {f : Eff} (hf : f.Mute) (c : Bool) : (Eff.when c f).Mute := by
  cases c with
  | false => exact mute_nop
  | true => exact hf

theorem mute_forEach {α : Type} (l : List α) (f : α → Eff) (h : ∀ a, (f a).Mute) : (Eff.forEach l f).Mute :=
  mute_all _ fun g hg => by
    obtain ⟨a, -, rfl⟩ := List.mem_map.mp hg
    exact h a

theorem mute_writeMem (cs : List Host.Cell) : (writeMem cs).Mute := fun s u hu => by
  unfold writeMem at hu
  dsimp only at hu
  split at hu <;> simp only [List.mem_cons, List.not_mem_nil, or_false] at hu
  · subst hu; rfl
  · rcases hu with rfl | rfl <;> rfl

theorem mute_coh (g : State → Coh) : Eff.Mute (fun s => [.coh (g s)]) := fun s u hu => by
  rw [List.mem_singleton.mp hu]; rfl

/-- An operation that writes what the homes keep, or does nothing. -/
theorem mute_of_coh_or_nil {f : Eff} (h : ∀ s, f s = [] ∨ ∃ c, f s = [.coh c]) : f.Mute := fun s u hu => by
  obtain hs | ⟨c, hs⟩ := h s <;> rw [hs] at hu
  · cases hu
  · rw [List.mem_singleton.mp hu]; rfl

theorem mute_performCells (cs : List Host.Cell) : (performCells cs).Mute := mute_all _ fun f hf => by
  simp only [List.mem_cons, List.not_mem_nil, or_false] at hf
  rcases hf with rfl | rfl | rfl
  · exact mute_writeMem cs
  · refine mute_of_coh_or_nil fun s => ?_
    unfold clearPoison
    split
    · exact .inr ⟨_, rfl⟩
    · exact .inl rfl
  · refine mute_of_coh_or_nil fun s => ?_
    unfold fireWatches
    split
    · exact .inr ⟨_, rfl⟩
    · exact .inl rfl

theorem mute_count (frank ev n : Nat) : (count frank ev n).Mute := fun s u hu => by
  unfold count at hu
  split at hu
  · cases hu
  · rw [List.mem_singleton.mp hu]; rfl

theorem mute_markHome (line : Nat) (bad : Bool) : (markHome line bad).Mute := mute_of_coh_or_nil fun s => by
  unfold markHome
  split
  · exact .inr ⟨_, rfl⟩
  · exact .inl rfl

/-- Every update is one of a core. -/
theorem mute_flatMap_core {α : Type} (l : State → List α) (g : α → List Upd) (h : ∀ a, ∀ u ∈ g a, ∃ n c, u = .core n c) :
    Eff.Mute (fun s => (l s).flatMap g) := fun s u hu => by
  obtain ⟨a, -, hu⟩ := List.mem_flatMap.mp hu
  obtain ⟨n, c, rfl⟩ := h a u hu
  rfl

theorem mute_dropNc (core : Nat) (ls : List Nat) : (dropNc core ls).Mute :=
  mute_flatMap_core (fun s => s.cores) _ fun e u hu => by
    split at hu
    · exact ⟨_, _, List.mem_singleton.mp hu⟩
    · cases hu

theorem mute_invalLines (ls : List Nat) : (invalLines ls).Mute :=
  Eff.Mute.seq (mute_flatMap_core (fun s => s.cores) _ fun e u hu => by
    split at hu
    · exact ⟨_, _, List.mem_singleton.mp hu⟩
    · cases hu) (mute_coh _)

theorem mute_dropLines (ls : List Nat) : (dropLines ls).Mute := (mute_invalLines ls).seq (mute_coh _)

theorem mute_mergeLine (line : Nat) : (mergeLine line).Mute := fun s u hu => by
  unfold mergeLine at hu
  dsimp only at hu
  split at hu
  · cases hu
  · refine Eff.Mute.seq ((mute_writeMem _).seq (mute_coh _)) (mute_all _ fun f hf => ?_) s u hu
    simp only [List.mem_cons, List.not_mem_nil, or_false] at hf
    rcases hf with rfl | rfl | rfl
    · exact mute_markHome _ _
    · exact mute_dropLines _
    · exact mute_forEach _ _ fun _ => mute_count _ _ _

theorem mute_queueWrite (core uid frank cost line : Nat) (cs : List Host.Cell) :
    (queueWrite core uid frank cost line cs).Mute := fun s u hu => by
  unfold queueWrite at hu
  dsimp only at hu
  split at hu
  · refine mute_all _ (fun f hf => ?_) s u hu
    simp only [List.mem_cons, List.not_mem_nil, or_false] at hf
    rcases hf with rfl | rfl | rfl
    · exact mute_performCells cs
    · exact (mute_dropNc _ _).when _
    · exact mute_count _ _ _
  · simp only [List.mem_cons, List.not_mem_nil, or_false] at hu
    rcases hu with rfl | rfl <;> rfl

theorem mute_outsideCells (a : Nat) (data : List Byte) : (outsideCells a data).Mute :=
  mute_forEach _ _ fun _ => (mute_mergeLine _).seq (mute_queueWrite _ _ _ _ _ _)

/-- Where a value is read back and a mute operation follows, the operation leaves what it leaves by itself, the value apart. -/
theorem applyAll_hostVal_cons {f : Eff} (hf : f.Mute) (s : State) (v : DWord) :
    applyAll (.hostVal v :: f s) s = { applyAll (f s) s with hostVal := v } := applyAll_hostVal (hf s) s v

theorem framed_hostVal_cons {xs : List Comp} {f : Eff} (hf : f.Mute) (hx : Framed xs f) (v : DWord) :
    Framed (.hostVal :: xs) (fun s => .hostVal v :: f s) := by
  refine ⟨fun s c hc => ?_, fun s => ?_, fun s => ?_⟩ <;> rw [applyAll_hostVal_cons hf]
  · have hsame := hx.same s c fun h => hc (List.mem_cons_of_mem _ h)
    cases c with
    | hostVal => exact absurd List.mem_cons_self hc
    | _ => exact hsame
  · exact hx.groups s
  · exact hx.streams s

/-! ## Reads from outside -/

theorem framed_countRead (frank a n : Nat) : Framed [] (countRead frank a n) := framed_of fun s => by
  unfold countRead
  split
  · exact ⟨Eff.nop, rfl, framed_nop _⟩
  · exact ⟨_, rfl, framed_count _ _ _⟩

theorem framed_merges (ls : List Nat) : Framed homeParts (Eff.forEach ls mergeLine) :=
  framed_forEach _ _ fun _ _ => framed_mergeLine _

/-- The parts that an access from outside may change: what the homes keep, and what is read back. -/
def accessParts : List Comp := [.mem, .cores, .coh, .hostVal]

/-- How many bytes an access names: eight where it brings none, at most eight otherwise. -/
def accessLen (data : List Byte) : Nat := if data.isEmpty then 8 else min 8 data.length

theorem outside_read (a : Nat) (data : List Byte) (s : State) : outside a false data s =
    Eff.seq (Eff.forEach (linesOf a (accessLen data)) mergeLine)
      (Eff.seq (fun s => [.hostVal (BitVec.ofNat 64 (ofBytes (readBytes s.mem a (accessLen data))))])
        (Eff.when (decide (a < 2 ^ 47)) (countRead 0 a (accessLen data)))) s := by
  simp [outside, Eff.all, Eff.seq, Eff.nop, accessLen]

theorem framed_readBack (a n : Nat) (c : Bool) :
    Framed [.hostVal] (Eff.seq (fun s => [.hostVal (BitVec.ofNat 64 (ofBytes (readBytes s.mem a n)))]) (Eff.when c (countRead 0 a n))) :=
  Framed.seq (framed_of fun s => ⟨_, rfl, framed_hostVal_cons mute_nop (framed_nop []) _⟩)
    (((framed_countRead 0 a n).when c).mono (by simp))

theorem framed_outside_read (a : Nat) (data : List Byte) : Framed accessParts (outside a false data) := framed_of fun s =>
  ⟨_, outside_read a data s, Framed.seq ((framed_merges _).mono (by decide)) ((framed_readBack a _ _).mono (by decide))⟩

/-- A read from outside reads back the bytes at their homes, which it changes only by merging privatised copies. -/
theorem outside_read_done (a : Nat) (data : List Byte) (s : State) :
    let t := applyAll (outside a false data s) s
    t.hostVal = BitVec.ofNat 64 (ofBytes (readBytes t.mem a (if data = [] then 8 else min 8 data.length))) ∧
      (noPrivate s → t.mem = s.mem) := by
  have hn : accessLen data = if data = [] then 8 else min 8 data.length := by simp [accessLen]
  dsimp only
  rw [← hn, outside_read, applyAll_seq]
  have hmem := (framed_readBack a (accessLen data) (decide (a < 2 ^ 47))).same
    (applyAll (Eff.forEach (linesOf a (accessLen data)) mergeLine s) s) .mem (by decide)
  refine ⟨?_, fun h => hmem.trans ?_⟩
  · rw [show State.mem _ = State.mem _ from hmem, applyAll_seq]
    exact ((framed_countRead 0 a (accessLen data)).when _).same _ .hostVal (by decide)
  · rw [forEach_mergeLine_of_priv_nil _ _ fun l _ => getDir_priv_of_noPrivate h l]

/-! ## Plain accesses -/

/-- A plain write from outside: its bytes go to the homes of their lines. -/
theorem outside_plain {s : State} (h : hostAtom s.subj = .plain) (a : Nat) (data : List Byte) :
    outside a true data s = outsideCells a data s := by
  simp [outside, h]

/-- What a framed operation keeps, told of a state that differs in its event's subject only. -/
theorem eventKeeps_of_framed_subj {xs : List Comp} {f : Eff} (hf : Framed xs f) (l : List Nat) (s : State) :
    EventKeeps xs [] [] s (applyAll (f { s with subj := l }) { s with subj := l }) := by
  refine ⟨fun x hx => ?_, fun q _ => by rw [hf.groups], fun q _ => by rw [hf.streams]⟩
  have hsame := hf.same { s with subj := l } x hx
  cases x <;> exact hsame

/-- An access from outside, whose subject the event may have replaced before, has been performed. -/
theorem outsideDone_of_exec {i : Instr} {a : Nat} {w : Bool} {data : List Byte} {s : State} (l : List Nat)
    (hl : hostAtom s.subj = .plain → hostAtom l = .plain)
    (hx : w = false ∨ subjReps s.subj = [] → exec i s = .next (applyAll (outside a w data { s with subj := l }) { s with subj := l })) :
    OutsideDone i a w data s := by
  refine ⟨fun hw => ?_, fun hw hplain hreps => ?_⟩ <;> subst hw
  · exact ⟨_, hx (.inl rfl), eventKeeps_of_framed_subj (framed_outside_read a data) l s,
      outside_read_done a data { s with subj := l }⟩
  · have hcells := outside_plain (s := { s with subj := l }) (hl hplain) a data
    refine ⟨_, hx (.inr hreps), ?_, fun hquiet => ?_⟩ <;> rw [hcells]
    · exact eventKeeps_of_framed_subj ((framed_outsideCells a data).mono (by decide)) l s
    · exact outsideCells_quiet a data { s with subj := l } hquiet

/-! ## The host's cas and atomic add -/

/-- What the host's atomic writes, of the value that it finds in n bytes, if it writes. -/
def atomNew (k : HostAtom) (data : List Byte) (n old : Nat) : Option Nat :=
  match k with
  | .plain => none
  | .cas cmp => if old = cmp then some (ofBytes data) else none
  | .add => some ((old + ofBytes data) % 2 ^ (8 * n))

/-- The newest value of n bytes whose lines' copies are merged. -/
def lastVal (s : State) (a n : Nat) : Nat := ofBytes ((List.range n).map (fun i => lastByte s (a + i)))

/-- A value written from outside, if there is one. -/
def atomCells (a n : Nat) (new : Option Nat) : Eff :=
  match new with
  | some v => outsideCells a (toBytes n v)
  | none => Eff.nop

theorem atomCells_apply (a n : Nat) (new : Option Nat) (s : State) :
    atomCells a n new s = match new with
      | some v => outsideCells a (toBytes n v) s
      | none => [] := by
  cases new <;> rfl

theorem mute_atomCells (a n : Nat) (new : Option Nat) : (atomCells a n new).Mute := by
  cases new with
  | none => exact mute_nop
  | some v => exact mute_outsideCells _ _

theorem framed_atomCells (a n : Nat) (new : Option Nat) : Framed homeParts (atomCells a n new) := by
  cases new with
  | none => exact framed_nop _
  | some v => exact framed_outsideCells _ _

/-- An atomic from outside: the copies merge, the host reads the newest value, and the new one goes to its homes. -/
theorem outside_atom {s : State} (h : hostAtom s.subj ≠ .plain) (a : Nat) {data : List Byte} (hd : data ≠ []) :
    outside a true data s =
      Eff.seq (Eff.forEach (linesOf a (min 8 data.length)) mergeLine)
        (fun t => .hostVal (BitVec.ofNat 64 (lastVal t a (min 8 data.length))) ::
          atomCells a (min 8 data.length) (atomNew (hostAtom s.subj) data (min 8 data.length) (lastVal t a (min 8 data.length))) t) s := by
  have hn : (if data.isEmpty then 8 else min 8 data.length) = min 8 data.length := by simp [hd]
  unfold outside
  dsimp only
  rw [hn, if_pos rfl]
  cases hk : hostAtom s.subj with
  | plain => exact absurd hk h
  | cas cmp => simp only [Eff.seq, atomCells_apply] <;> rfl
  | add => rfl

theorem framed_outside_atom (a n : Nat) (new : Nat → Option Nat) :
    Framed accessParts (Eff.seq (Eff.forEach (linesOf a n) mergeLine)
      (fun t => .hostVal (BitVec.ofNat 64 (lastVal t a n)) :: atomCells a n (new (lastVal t a n)) t)) :=
  Framed.seq ((framed_merges _).mono (by decide))
    (framed_of fun s => ⟨_, rfl, (framed_hostVal_cons (mute_atomCells a n (new (lastVal s a n))) (framed_atomCells _ _ _)
      (BitVec.ofNat 64 (lastVal s a n))).mono (by decide)⟩)

theorem length_toBytes (n v : Nat) : (toBytes n v).length = n := by
  induction n generalizing v with
  | zero => rfl
  | succ n ih => simp [toBytes, ih]

/-- At quiet lines an atomic's new value is in memory at once; where it writes none, memory is as it was. -/
theorem atomCells_quiet (a n : Nat) (new : Option Nat) (s : State) (h : ∀ l ∈ linesOf a n, outsideQuiet s l) :
    match new with
    | some v => BytesAfter s.mem (applyAll (atomCells a n new s) s).mem a (toBytes n v)
    | none => (applyAll (atomCells a n new s) s).mem = s.mem := by
  cases new with
  | none => rfl
  | some v => exact outsideCells_quiet a (toBytes n v) s (by rwa [length_toBytes])

theorem execHostAccess_served {a : Nat} {w : Bool} {data : List Byte} {s : State} (hu : linksUp s = true)
    (hs : served_ s true a (max 1 data.length) = true) :
    exec (.hostAccess a w data) s = .next (applyAll (outside a w data s) s) := by
  simp [exec, execHostAccess, outsideAccess, commit, hu, hs]

/-- The host's cas and atomic add read the newest value, and where they write, quiet lines take the new one at once. -/
theorem hostAtom_done {a : Nat} {data : List Byte} {s : State} (hu : linksUp s = true)
    (hs : served_ s true a (max 1 data.length) = true) (hd : data ≠ []) (hk : hostAtom s.subj ≠ .plain) : HostAtomDone a data s := by
  unfold HostAtomDone
  dsimp only
  refine eventDoes_of_framed (framed_outside_atom a (min 8 data.length) (atomNew (hostAtom s.subj) data (min 8 data.length)))
    ((execHostAccess_served hu hs).trans (by rw [outside_atom hk a hd])) ?_
  rw [applyAll_seq, applyAll_hostVal_cons (mute_atomCells _ _ _)]
  refine ⟨rfl, fun hquiet => ?_⟩
  have hmerged := forEach_mergeLine_of_priv_nil (linesOf a (min 8 data.length)) s fun l hl => (hquiet l hl).1
  have hold : newestVal s a (min 8 data.length) = lastVal s a (min 8 data.length) := by
    unfold newestVal
    rw [hmerged]
    rfl
  have hcells := atomCells_quiet a (min 8 data.length)
    (atomNew (hostAtom s.subj) data (min 8 data.length) (lastVal s a (min 8 data.length))) s hquiet
  rw [hmerged, hold]
  cases hkind : hostAtom s.subj with
  | plain => trivial
  | cas cmp =>
    rw [hkind] at hcells
    by_cases hcmp : lastVal s a (min 8 data.length) = cmp <;> simpa [atomNew, hcmp] using hcells
  | add =>
    rw [hkind] at hcells
    exact hcells

/-! ## The root's writes -/

/-- A peer's write to a replicated page waits in the root's order for each of its replicas. -/
theorem rootWrite_done {a : Nat} {data : List Byte} {s : State} (hu : linksUp s = true)
    (hs : served_ s false a (max 1 data.length) = true) (hr : subjReps s.subj ≠ []) : RootWriteDone a data s := by
  have horder : Framed [.coh] (replOrder (subjReps s.subj) 0 data) := framed_of fun t => by
    unfold replOrder
    split
    · exact ⟨Eff.nop, rfl, framed_nop _⟩
    · exact ⟨fun _ => [.coh _], rfl, framed_coh _⟩
  have hcounts : Framed [] (Eff.forEach ((subjReps s.subj).filter (fun r => r.1 == ownPkg s)) (fun r => countAt 0 r.2 data.length)) :=
    framed_forEach _ _ fun _ _ => framed_count _ _ _
  refine eventDoes_of_framed (horder.seq (hcounts.mono (by simp))) (by simp [exec, execPeerAccess, commit, hu, hs, hr]) ?_
  rw [applyAll_seq]
  refine (hcounts.same _ .coh (by decide)).trans ?_
  simp [replOrder, hr, Upd.apply]

/-! ## Accesses from outside -/

theorem hostAccess_idle {a : Nat} {w : Bool} {data : List Byte} {s : State} (hu : linksUp s = false) :
    Idle (.hostAccess a w data) s := by
  simp [Idle, exec, execHostAccess, outsideAccess, hu]

theorem hostAccess_unserved {a : Nat} {w : Bool} {data : List Byte} {s : State} (hu : linksUp s = true)
    (hs : ¬served_ s true a (max 1 data.length) = true) : exec (.hostAccess a w data) s = .fault .noSuchAddress := by
  simp [exec, execHostAccess, outsideAccess, hu, hs]

theorem hostAccess_done {a : Nat} {w : Bool} {data : List Byte} {s : State} (hu : linksUp s = true)
    (hs : served_ s true a (max 1 data.length) = true) : OutsideDone (.hostAccess a w data) a w data s :=
  outsideDone_of_exec s.subj id fun _ => execHostAccess_served hu hs

/-- A peer's access that no replicated page meets drops the event's subject and is one from outside. -/
theorem execPeerAccess_plain {a : Nat} {w : Bool} {data : List Byte} {s : State} (h : w = false ∨ subjReps s.subj = []) :
    exec (.peerAccess a w data) s = outsideAccess false a w data { s with subj := [] } := by
  have hplain : (w && !(subjReps s.subj).isEmpty && linksUp s) = false := by
    rcases h with h | h <;> simp [h]
  simp only [exec, execPeerAccess, hplain]
  rfl

theorem peerAccess_unserved {a : Nat} {w : Bool} {data : List Byte} {s : State} (hu : linksUp s = true)
    (hs : ¬served_ s false a (max 1 data.length) = true) : exec (.peerAccess a w data) s = .fault .noSuchAddress := by
  by_cases h : w = false ∨ subjReps s.subj = []
  · rw [execPeerAccess_plain h, outsideAccess, if_neg (by simpa [linksUp] using hu)]
    exact if_neg hs
  · obtain ⟨hw, hr⟩ := not_or.mp h
    simp [exec, execPeerAccess, hw, hr, hu, hs]

theorem peerAccess_done {a : Nat} {w : Bool} {data : List Byte} {s : State} (hu : linksUp s = true)
    (hs : served_ s false a (max 1 data.length) = true) : OutsideDone (.peerAccess a w data) a w data s :=
  outsideDone_of_exec [] (fun _ => rfl) fun h => by
    rw [execPeerAccess_plain h, outsideAccess, if_neg (by simpa [linksUp] using hu)]
    exact if_pos hs

/-! ## The settlement -/

/-- Settles O54: a register write is a framed operation, whose effect each register's lemma states; an access from outside merges
copies, writes at the homes of its lines and reads back, each framed. -/
theorem hostEvents : Obligations.HostEvents := by
  unfold Obligations.HostEvents
  refine ⟨registerEvents_idle, rtctlCommit_done, rtctlRelease_done,
    ⟨fun v s => qctlEvent_done rfl, fun v s => qctlEvent_done rfl, fun v s => qctlEvent_done rfl, fun v s => qctlEvent_done rfl⟩,
    tsctlOpen_done, tsctlClose_done, tsptrHeadWrite_done, fqptrHeadWrite_done, rtfailAck_done,
    fun a w data s => ⟨hostAccess_idle, fun hu => ⟨?_, ?_⟩⟩⟩
  · split
    · next hs => exact ⟨hostAccess_done hu hs, hostAtom_done hu hs⟩
    · next hs => exact hostAccess_unserved hu hs
  · split
    · next hs => exact ⟨peerAccess_done hu hs, fun _ => rootWrite_done hu hs⟩
    · next hs => exact peerAccess_unserved hu hs

end Sys2Proof.Machine
end

section
/-! PROOFS. Encodings read back (O8, O9): the fields of a word at their places, the three layouts, each instruction. -/

namespace Sys2Proof.Machine

open Sys2Proof.Laws.Encoded

/-! ## Codes of operand fields -/

@[simp] theorem dstOf_dstCode (d : Dst) : dstOf (dstCode d) = d := by
  cases d with
  | v n | q n => revert n; decide

@[simp] theorem srcOf_srcCode (a : Src) : srcOf (srcCode a) = a := by
  cases a with
  | v n | q n | y n | k n | special n | reserved n | imm n => revert n; decide

@[simp] theorem tyOf_tyCode (t : Ty) : tyOf (tyCode t) = t := by cases t <;> rfl

@[simp] theorem ufldOf_ufldCode (f : UFld) : ufldOf (ufldCode f) = f := by
  cases f with
  | k n | kc n | lc n | lm n | special n | imm n => revert n; decide

@[simp] theorem ubOf_ubCode (b : UB) : ubOf (ubCode b) = b := by
  cases b with
  | fld f => simp [ubOf, ubCode, ufldCode_lt f]
  | imm n => revert n; decide

/-! ## Fields of a word -/

theorem bit_eq_iff (x i : Nat) (b : Bool) : bit x i = b ↔ x / 2 ^ i % 2 = b.toNat := by
  cases b <;> simp [bit]

theorem laneBase_fields {op d a b : Nat} (s x : Bool) (hop : op < 64) (hd : d < 128) (ha : a < 256) (hb : b < 256) :
    let w := Encode.laneBase op d a b s x
    bit w 31 = false ∧ bit w 30 = s ∧ bit w 29 = x ∧ bits w 28 23 = op ∧ bits w 22 16 = d ∧ bits w 15 8 = a ∧ bits w 7 0 = b := by
  have hs := boolToNat_lt s
  have hx := boolToNat_lt x
  simp only [bit_eq_iff, bits, Encode.laneBase, Bool.toNat_false]
  refine ⟨?_, ?_, ?_, ?_, ?_, ?_, ?_⟩ <;> omega

theorem laneExt_fields {c g ty q sub : Nat} (gn : Bool) (hc : c < 256) (hg : g < 8) (ht : ty < 16) (hq : q < 4096) (hsub : sub < 16) :
    let e := Encode.laneExt c g gn ty q sub
    bits e 31 24 = c ∧ bits e 23 21 = g ∧ bit e 20 = gn ∧ bits e 19 16 = ty ∧ bits e 15 4 = q ∧ bits e 3 0 = sub := by
  have hn := boolToNat_lt gn
  simp only [bit_eq_iff, bits, Encode.laneExt]
  refine ⟨?_, ?_, ?_, ?_, ?_, ?_⟩ <;> omega

/-- Words of 32 bits that parse as an instruction. -/
def Reads (ws : List Nat) (i : Instr) : Prop := parseWords ws = some i ∧ ∀ n ∈ ws, n < 2 ^ 32

/-! ## Lane words -/

/-- A lane word without a modifier word holds the default fields (R29). -/
def DefaultMods {δ α β : Type} (w : LaneForm δ α β) (sub : Nat) (dflt : Ty) : Prop :=
  w.x = true ∨ (w.c = 0 ∧ w.g = 7 ∧ w.gn = false ∧ w.ty = dflt ∧ w.q = 0 ∧ sub = 0)

theorem defaultMods_of_modsOk {δ α β : Type} {w : LaneForm δ α β} {sub : Nat} {dflt : Ty} {types : List Ty} {mask : Nat}
    (h : modsOk w sub dflt types mask = true) : DefaultMods w sub dflt := by
  simp only [modsOk, Bool.and_eq_true, Bool.or_eq_true, beq_iff_eq, Bool.not_eq_true'] at h
  obtain ⟨-, hx | ⟨⟨⟨⟨⟨hc, hg⟩, hn⟩, ht⟩, hq⟩, hs⟩⟩ := h
  · exact .inl hx
  · exact .inr ⟨hc, hg, hn, ht, hq, hs⟩

theorem defaultMods_of_sub {δ α β : Type} {w : LaneForm δ α β} {sub : Nat} {dflt dflt' : Ty} {types : List Ty} {mask : Nat}
    (h : modsOk w sub dflt types mask = true) (hs : sub ≠ 0) : DefaultMods w sub dflt' :=
  .inl ((defaultMods_of_modsOk h).resolve_right fun hm => hs hm.2.2.2.2.2)

/-- The words of a lane form read back: its opcode, its SUB and every field. -/
theorem lane_fields {δ α β : Type} {fd : δ → Nat} {fa : α → Nat} {fb : β → Nat} {gd : Nat → δ} {ga : Nat → α} {gb : Nat → β}
    {op sub : Nat} {dflt : Ty} {w : LaneForm δ α β} (hop : op < 64) (hsub : sub < 16) (hm : DefaultMods w sub dflt)
    (hd : ∀ d, fd d < 128 ∧ gd (fd d) = d) (ha : ∀ a, fa a < 256 ∧ ga (fa a) = a) (hb : ∀ b, fb b < 256 ∧ gb (fb b) = b) :
    ∃ n e, parseWords (Encode.lane fd fa fb op sub w) = some (Decode.parseLane n e) ∧ bits n 28 23 = op ∧
      Decode.subOf n e = sub ∧ Decode.lane gd ga gb dflt n e = w := by
  obtain ⟨b31, b30, b29, hop', hd', ha', hb'⟩ := laneBase_fields w.s w.x hop (hd w.d).1 (ha w.a).1 (hb w.b).1
  obtain ⟨hc, hg, hn, ht, hq, hs⟩ := laneExt_fields w.gn w.c.isLt w.g.isLt (tyCode_lt w.ty) w.q.isLt hsub
  obtain ⟨s, x, d, a, b, c, g, gn, ty, q⟩ := w
  cases x with
  | true =>
    refine ⟨_, Encode.laneExt c.toNat g.toNat gn (tyCode ty) q.toNat sub, ?_, hop', ?_, ?_⟩
    · simp [Encode.lane, parseWords, parse, b31, b29]
    · simp [Decode.subOf, b29, hs]
    · simp [Decode.lane, *]
  | false =>
    obtain ⟨rfl, rfl, rfl, rfl, rfl, rfl⟩ := hm.resolve_left (by simp)
    refine ⟨_, 0, ?_, hop', ?_, ?_⟩
    · simp [Encode.lane, parseWords, parse, b31, b29]
    · simp [Decode.subOf, b29]
    · simp [Decode.lane, *]

/-- A lane form whose opcode and SUB parse as one constructor reads as it. -/
theorem laneForm_reads {δ α β : Type} {fd : δ → Nat} {fa : α → Nat} {fb : β → Nat} {gd : Nat → δ} {ga : Nat → α} {gb : Nat → β}
    {op sub : Nat} {dflt : Ty} {w : LaneForm δ α β} {C : LaneForm δ α β → Instr} (hop : op < 64) (hsub : sub < 16)
    (hm : DefaultMods w sub dflt)
    (hd : ∀ d, fd d < 128 ∧ gd (fd d) = d) (ha : ∀ a, fa a < 256 ∧ ga (fa a) = a) (hb : ∀ b, fb b < 256 ∧ gb (fb b) = b)
    (hC : ∀ n e, bits n 28 23 = op → Decode.subOf n e = sub → Decode.parseLane n e = C (Decode.lane gd ga gb dflt n e)) :
    Reads (Encode.lane fd fa fb op sub w) (C w) := by
  obtain ⟨n, e, hp, ho, hs, hw⟩ := lane_fields hop hsub hm hd ha hb
  refine ⟨?_, (lane_words op sub hop hsub w (fun d => (hd d).1) (fun a => (ha a).1) (fun b => (hb b).1)).2⟩
  rw [hp, hC n e ho hs, hw]

theorem dst_reads (d : Dst) : dstCode d < 128 ∧ dstOf (dstCode d) = d := ⟨dstCode_lt d, dstOf_dstCode d⟩
theorem src_reads (a : Src) : srcCode a < 256 ∧ srcOf (srcCode a) = a := ⟨srcCode_lt a, srcOf_srcCode a⟩
theorem bitVec_reads {n : Nat} (v : BitVec n) : v.toNat < 2 ^ n ∧ BitVec.ofNat n v.toNat = v := ⟨v.isLt, by simp⟩

theorem laneR_reads {C : LaneW → Instr} {op sub : Nat} {dflt : Ty} {w : LaneW} (hop : op < 64) (hsub : sub < 16)
    (hm : DefaultMods w sub dflt)
    (hC : ∀ n e, bits n 28 23 = op → Decode.subOf n e = sub → Decode.parseLane n e = C (Decode.laneR dflt n e)) :
    Reads (Encode.laneR op sub w) (C w) :=
  laneForm_reads hop hsub hm dst_reads src_reads src_reads hC

theorem laneP_reads {C : PredW → Instr} {op sub : Nat} {dflt : Ty} {w : PredW} (hop : op < 64) (hsub : sub < 16)
    (hm : DefaultMods w sub dflt)
    (hC : ∀ n e, bits n 28 23 = op → Decode.subOf n e = sub → Decode.parseLane n e = C (Decode.laneP dflt n e)) :
    Reads (Encode.laneP op sub w) (C w) :=
  laneForm_reads hop hsub hm bitVec_reads src_reads src_reads hC

theorem lanePL_reads {C : PLogW → Instr} {op sub : Nat} {dflt : Ty} {w : PLogW} (hop : op < 64) (hsub : sub < 16)
    (hm : DefaultMods w sub dflt)
    (hC : ∀ n e, bits n 28 23 = op → Decode.subOf n e = sub → Decode.parseLane n e = C (Decode.lanePL dflt n e)) :
    Reads (Encode.lanePL op sub w) (C w) :=
  laneForm_reads hop hsub hm bitVec_reads bitVec_reads bitVec_reads hC

theorem laneK_reads {C : KMovW → Instr} {op sub : Nat} {dflt : Ty} {w : KMovW} (hop : op < 64) (hsub : sub < 16)
    (hm : DefaultMods w sub dflt)
    (hC : ∀ n e, bits n 28 23 = op → Decode.subOf n e = sub → Decode.parseLane n e = C (Decode.laneK dflt n e)) :
    Reads (Encode.laneK op sub w) (C w) :=
  laneForm_reads hop hsub hm dst_reads bitVec_reads bitVec_reads hC

/-! ## Branch words -/

/-- The word of a branch reads back; a branch has no extension word (R37). -/
theorem bra_reads {C : BraW → Instr} {op : Nat} {w : BraW} (hop : op < 64) (hx : w.x = false) (he : w.e = 0)
    (hC : ∀ n e, bits n 28 23 = op → Decode.parseLane n e = C (Decode.braW n e)) :
    Reads (Encode.bra op w) (C w) := by
  refine ⟨?_, (bra_words op hop w hx).2⟩
  obtain ⟨s, x, g, gn, disp, e⟩ := w
  obtain rfl : x = false := hx
  obtain rfl : e = 0 := he
  have hs := boolToNat_lt s
  have hn := boolToNat_lt gn
  have hg := g.isLt
  have hd := disp.isLt
  generalize hb : s.toNat * 2 ^ 30 + op * 2 ^ 23 + g.toNat * 2 ^ 20 + gn.toNat * 2 ^ 19 + disp.toNat = b
  have b31 : bit b 31 = false := by rw [bit_eq_iff, Bool.toNat_false]; omega
  have b30 : bit b 30 = s := by rw [bit_eq_iff]; omega
  have b29 : bit b 29 = false := by rw [bit_eq_iff, Bool.toNat_false]; omega
  have b19 : bit b 19 = gn := by rw [bit_eq_iff]; omega
  have ho : bits b 28 23 = op := by rw [bits]; omega
  have hg' : bits b 22 20 = g.toNat := by rw [bits]; omega
  have hd' : bits b 18 0 = disp.toNat := by rw [bits]; omega
  simp only [Encode.bra, hb, parseWords, parse, b29, b31, hC b 0 ho, Decode.braW, b30, b19, hg', hd', BitVec.ofNat_toNat,
    BitVec.setWidth_eq, Bool.false_eq_true, if_false]

/-! ## Uniform words -/

/-- The words of a uniform form read back: its opcode and every field. -/
theorem uni_fields {op : Nat} {w : UniW} (hop : op < 128) (ht : (Head.uni w).tidy = true) :
    ∃ n e, parseWords (Encode.uni op w) = some (Decode.parseUni n e) ∧ bits n 28 22 = op ∧ Decode.uniW n e = w := by
  obtain ⟨s, x, d, a, b, e⟩ := w
  have hs := boolToNat_lt s
  have hx := boolToNat_lt x
  have hd := ufldCode_lt d
  have ha := ufldCode_lt a
  have hb := ubCode_lt b
  generalize hn : 2 ^ 31 + s.toNat * 2 ^ 30 + x.toNat * 2 ^ 29 + op * 2 ^ 22 + ufldCode d * 2 ^ 15 + ufldCode a * 2 ^ 8 + ubCode b = n
  have b31 : bit n 31 = true := by rw [bit_eq_iff, Bool.toNat_true]; omega
  have b30 : bit n 30 = s := by rw [bit_eq_iff]; omega
  have b29 : bit n 29 = x := by rw [bit_eq_iff]; omega
  have ho : bits n 28 22 = op := by rw [bits]; omega
  have hd' : bits n 21 15 = ufldCode d := by rw [bits]; omega
  have ha' : bits n 14 8 = ufldCode a := by rw [bits]; omega
  have hb' : bits n 7 0 = ubCode b := by rw [bits]; omega
  refine ⟨n, e.toNat, ?_, ho, ?_⟩
  · cases x with
    | true => rw [Encode.uni, hn]; simp [parseWords, parse, b29, b31]
    | false =>
      obtain rfl : e = 0 := by simpa [Head.tidy] using ht
      rw [Encode.uni, hn]; simp [parseWords, parse, b29, b31]
  · cases x with
    | true => simp [Decode.uniW, b29, b30, hd', ha', hb']
    | false =>
      obtain rfl : e = 0 := by simpa [Head.tidy] using ht
      simp [Decode.uniW, b29, b30, hd', ha', hb']

theorem uni_reads {C : UniW → Instr} {op : Nat} {w : UniW} (hop : op < 128) (ht : (Head.uni w).tidy = true)
    (hC : ∀ n e, bits n 28 22 = op → Decode.uniW n e = w → Decode.parseUni n e = C (Decode.uniW n e)) :
    Reads (Encode.uni op w) (C w) := by
  obtain ⟨n, e, hp, ho, hw⟩ := uni_fields hop ht
  refine ⟨?_, (uni_words op hop w).2⟩
  rw [hp, hC n e ho hw, hw]

theorem parseUni_hint {n e k : Nat} (h1 : 1 ≤ k) (h14 : k ≤ 14) (h : bits n 28 22 = 112 + k) :
    Decode.parseUni n e = .hint (BitVec.ofNat 4 k) (Decode.uniW n e) := by
  interval_cases k <;> (rw [Decode.parseUni, h]; rfl)

/-! ## Bytes of words -/

theorem wordOfBytes_bytesOfWord {w : Nat} (h : w < 2 ^ 32) :
    wordOfBytes (BitVec.ofNat 8 w) (BitVec.ofNat 8 (w / 2 ^ 8)) (BitVec.ofNat 8 (w / 2 ^ 16)) (BitVec.ofNat 8 (w / 2 ^ 24)) = w := by
  simp only [wordOfBytes, BitVec.toNat_ofNat]
  omega

/-- The bytes of an instruction's words are read as that instruction, the bytes after them left over. -/
theorem readInstr_of_reads {ws : List Nat} {i : Instr} (hr : Reads ws i) (rest : List Byte) :
    readInstr (ws.flatMap bytesOfWord ++ rest) = .ok (i, rest) := by
  obtain ⟨h, hlt⟩ := hr
  match ws, h with
  | [w], h =>
    have hw := wordOfBytes_bytesOfWord (hlt w (by simp))
    cases hx : bit w 29 with
    | true => simp [parseWords, hx] at h
    | false =>
      obtain rfl : parse w 0 = i := by simpa [parseWords, hx] using h
      simp only [List.flatMap_cons, List.flatMap_nil, List.append_nil, bytesOfWord, List.cons_append, List.nil_append, readInstr, hw,
        hx, Bool.false_eq_true, if_false]
  | [w, e], h =>
    have hw := wordOfBytes_bytesOfWord (hlt w (by simp))
    have he := wordOfBytes_bytesOfWord (hlt e (by simp))
    cases hx : bit w 29 with
    | false => simp [parseWords, hx] at h
    | true =>
      obtain rfl : parse w e = i := by simpa [parseWords, hx] using h
      simp only [List.flatMap_cons, List.flatMap_nil, List.append_nil, bytesOfWord, List.cons_append, List.nil_append, readInstr, hw,
        he, hx, if_true]

/-! ## Opcodes that several uniform forms share -/

section
variable {n e : Nat} {u : UniW}

theorem parseUni_kfmtSet (h : bits n 28 22 = 18) (hu : Decode.uniW n e = u) : Decode.parseUni n e =
    if fs u 8 7 == 1 then .kfmtSetPreset u else if fs u 8 7 == 2 then .kfmtSetSeed u else .kfmtSet u := by
  rw [Decode.parseUni, h, hu]; rfl

theorem parseUni_mrow (h : bits n 28 22 = 36) (hu : Decode.uniW n e = u) : Decode.parseUni n e =
    if u.a == .imm 1 then .mrowClr u else .mrow u := by
  rw [Decode.parseUni, h, hu]; rfl

theorem parseUni_sstat (h : bits n 28 22 = 44) (hu : Decode.uniW n e = u) : Decode.parseUni n e =
    if u.a == .imm 1 then .sstatClr u else .sstat u := by
  rw [Decode.parseUni, h, hu]; rfl

theorem parseUni_wstat (h : bits n 28 22 = 55) (hu : Decode.uniW n e = u) : Decode.parseUni n e =
    if u.a == .imm 1 then .wstatRead u else if u.a == .imm 2 then .wstatClr u else .wstat u := by
  rw [Decode.parseUni, h, hu]; rfl

theorem parseUni_ringPut (h : bits n 28 22 = 59) (hu : Decode.uniW n e = u) : Decode.parseUni n e =
    if Decode.freeFld u.a then .ringPutFree u else .ringPut u := by
  rw [Decode.parseUni, h, hu]; rfl

theorem parseUni_roundFloor (h : bits n 28 22 = 78) (hu : Decode.uniW n e = u) : Decode.parseUni n e =
    if u.a == .imm 0 then .roundFloorClr u else .roundFloor u := by
  rw [Decode.parseUni, h, hu]; rfl

theorem parseUni_cntcfg (h : bits n 28 22 = 107) (hu : Decode.uniW n e = u) : Decode.parseUni n e =
    if fs u 13 12 == 1 then .cntcfgClear u else if fs u 13 12 == 2 then .cntcfgWrite u else .cntcfgEvent u := by
  rw [Decode.parseUni, h, hu]; rfl

end

/-- A ring field 96 + N is none of the fields 104 + N (R245). -/
theorem freeFld_of_ringFld {f : UFld} (h : ringFld f = true) : Decode.freeFld f = false := by
  cases f with
  | imm n => simpa [ringFld, immOf, Decode.freeFld] using fun h8 => absurd h8 (by simpa [ringFld, immOf] using h)
  | _ => rfl

theorem freeFld_of_ringPutFree {w : UniW} (h : (Instr.ringPutFree w).wf = true) : Decode.freeFld w.a = true := by
  simp only [Instr.wf, Bool.and_eq_true] at h
  obtain ⟨-, h⟩ := h
  cases ha : w.a with
  | imm n => rw [ha] at h; exact h
  | _ => rw [ha] at h; cases h

theorem ne_imm_of_dK {f : UFld} {n : Fin 32} (h : dK f = true) : ¬(f == .imm n) = true := by
  cases f with
  | k m => simp
  | _ => cases h

/-! ## Each instruction -/

theorem lane_reads {i : Instr} {s x gn : Bool} {g : BitVec 3} (hwf : i.wf = true) (hh : headOf i = .lane s x g gn) :
    Reads (encode i) i := by
  cases i with
  | add w | sub w | addc w | subb w | mul w | mulhi w | mad w | madhi w | div w | rem w | min w | max w | and w | or w | xor w
  | andn w | shl w | shr w | sar w | rot w | clz w | popc w | brev w | bfx w | bfi w | lea w | sel w | mov w | fadd w | fsub w
  | fmul w | ffma w | fmin w | fmax w | fdiv w | frcp w | frsq w | fsqrt w | fex2 w | flg2 w | fsin w | fcos w | dot2 w
  | hfma2 w | cvtFf w | cvtFi w | cvtIf w | cvtIi w | cvtxPack w | cvtxUnpack w | pack2 w | fclass w | bscl w | qblk w | brx w
  | callx w | ret w | exit w | brk w | rejoin w | yield w | shflIdx w | shflUp w | shflDn w | shflXor w | match_ w | spawn w
  | phflush w | ld w | st w | cas w | prf w | spt w | spc w | ldb w | mtov w | mvtot w =>
    simp only [Instr.wf, okAB, okABC, okA, okShift, okField, okCarry, okCvt, okCtl, okShfl, Bool.and_eq_true, and_assoc] at hwf
    exact laneR_reads (by decide) (by decide) (defaultMods_of_modsOk hwf.1) fun n e ho hs => by rw [Decode.parseLane, ho, hs]; rfl
  | voteBal w =>
    simp only [Instr.wf, okA, Bool.and_eq_true, and_assoc] at hwf
    exact laneR_reads (by decide) (by decide) (defaultMods_of_sub (dflt' := .n32) hwf.1 (by decide)) fun n e ho hs => by
      rw [Decode.parseLane, ho, hs]; rfl
  | redux k w | scan k w | atom k w =>
    simp only [Instr.wf, okRedux, Bool.and_eq_true, and_assoc] at hwf
    exact laneR_reads (by decide) k.isLt (defaultMods_of_modsOk hwf.1) fun n e ho hs => by
      rw [Decode.parseLane, ho, hs, BitVec.ofNat_toNat, BitVec.setWidth_eq]; rfl
  | voteAny w | voteAll w =>
    simp only [Instr.wf, Bool.and_eq_true, and_assoc] at hwf
    exact laneP_reads (by decide) (by decide) (defaultMods_of_modsOk hwf.1) fun n e ho hs => by rw [Decode.parseLane, ho, hs]; rfl
  | cmp k w | fcmp k w =>
    simp only [Instr.wf, Bool.and_eq_true, and_assoc] at hwf
    exact laneP_reads (by decide) k.isLt (defaultMods_of_modsOk hwf.1) fun n e ho hs => by
      rw [Decode.parseLane, ho, hs, BitVec.ofNat_toNat, BitVec.setWidth_eq]; rfl
  | pand w | por w | pxor w | pnot w =>
    simp only [Instr.wf, Bool.and_eq_true, and_assoc] at hwf
    exact lanePL_reads (by decide) (by decide) (defaultMods_of_modsOk hwf.1) fun n e ho hs => by rw [Decode.parseLane, ho, hs]; rfl
  | movk w =>
    simp only [Instr.wf, Bool.and_eq_true, and_assoc] at hwf
    exact laneK_reads (by decide) (by decide) (defaultMods_of_modsOk hwf.1) fun n e ho hs => by rw [Decode.parseLane, ho, hs]; rfl
  | _ => cases hh

theorem branch_reads {i : Instr} {w : BraW} (hwf : i.wf = true) (hh : headOf i = .bra w) (ht : (Head.bra w).tidy = true) :
    Reads (encode i) i := by
  cases i with
  | bra w | call w =>
    cases hh
    simp only [Instr.wf, Bool.and_eq_true, Bool.not_eq_true'] at hwf
    exact bra_reads (by decide) hwf.1 (by simpa [Head.tidy, hwf.1] using ht) fun n e ho => by rw [Decode.parseLane, ho]; rfl
  | _ => cases hh

theorem uniform_reads {i : Instr} {u : UniW} (hwf : i.wf = true) (hh : headOf i = .uni u) (ht : (Head.uni u).tidy = true) :
    Reads (encode i) i := by
  cases i with
  | kadd w | ksub w | kmul w | kand w | kor w | kxor w | kshl w | kshr w | kmin w | kmax w | kcmp w | ksel w | kmov w | kmovi w
  | lcset w | lcstep w | kcset w | kcwait w | kfmtGet w | kbra w | kcall w | kret w | obres w | obfree w | mload w | mloadx w
  | mma w | mzero w | macc w | mst w | mbarArr w | mbarWait w | mseqGo w | mseqEnd w | sdec w | mmat w | mres w | sbound w
  | lrec w | lrecTap w | wbind w | wunbind w | wabs w | wtouch w | wpost w | pmarm w | pmwait w | ringInit w | ringGet w
  | ringWait w | kld w | kst w | katom w | fence w | cwb w | cinv w | monArm w | monWait w | tlbinv w | pgmig w | roundAdv w
  | roundGet w | barArr w | barWait w | barSync w | barJoin w | barLeave w | barGen w | rdtime w | rdcyc w | nap w | post w
  | qreset w | trap w | sysc w | eret w | mfs w | mts w | halt w | tmark w | tsamp w | cntrd w | icinv w | ipref w | nop w =>
    cases hh
    exact uni_reads (by decide) ht fun n e ho _ => by rw [Decode.parseUni, ho]; rfl
  | kfmtSetPreset w | kfmtSetSeed w | kfmtSet w =>
    cases hh
    simp only [Instr.wf, Bool.and_eq_true, beq_iff_eq, and_assoc] at hwf
    exact uni_reads (by decide) ht fun n e ho hw => by rw [hw]; simp [parseUni_kfmtSet ho hw, hwf]
  | mrowClr w | mrow w =>
    cases hh
    simp only [Instr.wf, Bool.and_eq_true, beq_iff_eq, and_assoc] at hwf
    exact uni_reads (by decide) ht fun n e ho hw => by rw [hw]; simp [parseUni_mrow ho hw, hwf]
  | sstatClr w | sstat w =>
    cases hh
    simp only [Instr.wf, Bool.and_eq_true, beq_iff_eq, and_assoc] at hwf
    exact uni_reads (by decide) ht fun n e ho hw => by rw [hw]; simp [parseUni_sstat ho hw, hwf]
  | wstatRead w | wstatClr w | wstat w =>
    cases hh
    simp only [Instr.wf, Bool.and_eq_true, beq_iff_eq, and_assoc] at hwf
    exact uni_reads (by decide) ht fun n e ho hw => by rw [hw]; simp [parseUni_wstat ho hw, hwf]
  | ringPutFree w =>
    cases hh
    exact uni_reads (by decide) ht fun n e ho hw => by rw [hw, parseUni_ringPut ho hw, freeFld_of_ringPutFree hwf]; rfl
  | ringPut w =>
    cases hh
    simp only [Instr.wf, Bool.and_eq_true] at hwf
    exact uni_reads (by decide) ht fun n e ho hw => by rw [hw, parseUni_ringPut ho hw, freeFld_of_ringFld hwf.2]; rfl
  | roundFloorClr w =>
    cases hh
    simp only [Instr.wf, Bool.and_eq_true] at hwf
    exact uni_reads (by decide) ht fun n e ho hw => by rw [hw, parseUni_roundFloor ho hw, if_pos hwf.2]
  | roundFloor w =>
    cases hh
    simp only [Instr.wf, Bool.and_eq_true] at hwf
    exact uni_reads (by decide) ht fun n e ho hw => by rw [hw, parseUni_roundFloor ho hw, if_neg (ne_imm_of_dK hwf.2)]
  | cntcfgClear w | cntcfgWrite w | cntcfgEvent w =>
    cases hh
    simp only [Instr.wf, Bool.and_eq_true, beq_iff_eq, and_assoc] at hwf
    exact uni_reads (by decide) ht fun n e ho hw => by rw [hw]; simp [parseUni_cntcfg ho hw, hwf]
  | hint k w =>
    cases hh
    simp only [Instr.wf, Bool.and_eq_true, bne_iff_ne] at hwf
    have hk := k.isLt
    exact uni_reads (by omega) ht fun n e ho _ => by
      rw [parseUni_hint (by omega) (by omega) ho, BitVec.ofNat_toNat, BitVec.setWidth_eq]
  | _ => cases hh

theorem reserved_of_headOf {i : Instr} {w e : Word} (h : headOf i = .reserved w e) : i = .reservedOpcode w e := by
  cases i with
  | reservedOpcode w e => cases h; rfl
  | _ => cases h

/-- The words of a legal instruction parse as that instruction. -/
theorem encode_reads {i : Instr} (hwf : i.wf = true) (hev : headOf i ≠ .event) (ht : (headOf i).tidy = true) :
    Reads (encode i) i := by
  cases hh : headOf i with
  | lane s x g gn => exact lane_reads hwf hh
  | bra w => exact branch_reads hwf hh (hh ▸ ht)
  | uni w => exact uniform_reads hwf hh (hh ▸ ht)
  | reserved w e => exact absurd hwf (by rw [reserved_of_headOf hh]; exact Bool.false_ne_true)
  | event => exact absurd hh hev

/-! ## The settlements -/

/-- Settles O8: the bytes of the words read back as the words, and the words parse as the instruction that they encode. -/
theorem decodeEncode : Obligations.DecodeEncode := by
  unfold Obligations.DecodeEncode
  intro i rest hwf hev ht
  rw [decode, readInstr_of_reads (encode_reads hwf hev ht) rest]
  exact if_pos hwf

/-- Words that encode a legal instruction decode to it. -/
theorem decode_words {bs : List Byte} (i : Instr) (hbs : (encode i).flatMap bytesOfWord ++ [] = bs) (hwf : i.wf = true)
    (hev : headOf i ≠ .event) (ht : (headOf i).tidy = true) : decode bs = .ok (i, []) :=
  hbs ▸ decodeEncode i [] hwf hev ht

/-- Settles O9: each of the words is what its legal instruction encodes to, so it decodes to that instruction. -/
theorem decodedWords : Obligations.DecodedWords := by
  unfold Obligations.DecodedWords
  refine ⟨?_, ?_, ?_, ?_, ?_, ?_, ?_, ?_⟩ <;> exact decode_words _ rfl rfl (by decide) rfl

end Sys2Proof.Machine
end

section
/-! PROOFS. The lane forms that write registers alone (O1, O3, O4). -/

namespace Sys2Proof.Machine

/-! ## A word whose body writes registers alone -/

section
variable {i : Instr} {s : State} {c : Ctx} {body : Ctx → State → Res}

/-- A word whose body completes with new registers and no other effect. -/
theorem completes_of_regs {d : Done} {R : Regs → Regs → Prop} (h : Issues i anyProfile s c) (hx : exec i s = issue i body s)
    (hb : body c s = .done d) (he : d.eff = Eff.nop) (hgo : d.go = .seq) (hR : ∀ r, R r (d.regs r)) :
    ∃ t, exec i s = .next t ∧ Completes c s t [] [] R none := by
  obtain ⟨t, ht, hc⟩ := completes_done h hb (he ▸ framed_nop []) (.inl hgo)
  rw [hgo] at hc
  exact ⟨t, hx.trans ht, hc.regs_mono fun r r' e => e ▸ hR r⟩

/-- The shared shape of the lane forms with a result: it stands in the destination of each lane whose guard holds. -/
theorem completes_of_laneRes {w : LaneW} {ty : Ty} {f : Nat → Nat} {r : LaneResult} (h : Issues i anyProfile s c)
    (hr : laneOut c w ty f = some r) (hx : exec i s = issue i body s) (hb : body c s = laneRes c w ty f) :
    ∃ t, exec i s = .next t ∧ Completes c s t [] [] (LaneWritten r.ty r.d true r.act r.val) none := by
  cases hr
  exact completes_of_regs h hx hb rfl rfl fun r => laneWritten_putLanes _ _ _ _ _ r

/-- The shared shape of the forms with a predicate. -/
theorem completes_of_predRes {n : Nat} {m : Word} {f : Nat → Bool} (h : Issues i anyProfile s c) (hx : exec i s = issue i body s)
    (hb : body c s = .done { act := m, regs := putPred n m f }) :
    ∃ t, exec i s = .next t ∧ Completes c s t [] [] (PredWritten n m f) none :=
  completes_of_regs h hx hb rfl rfl fun r => predWritten_putPred n m f r

end

/-! ## The integer forms and the moves -/

/-- Settles O1: each form answers the shared shape of a lane result with the value that the table gives. -/
theorem laneIntegerResults : Obligations.LaneIntegerResults := by
  unfold Obligations.LaneIntegerResults
  intro i s c r h hr
  cases i with
  | add w | sub w | mul w | mulhi w | mad w | madhi w | min w | max w | and w | or w | xor w | andn w | shl w | shr w | sar w | rot w
  | clz w | popc w | brev w | bfx w | bfi w | lea w | sel w | mov w => exact completes_of_laneRes h hr rfl rfl
  | movk w =>
    cases hr
    exact completes_of_regs h rfl rfl rfl rfl fun r => laneWritten_putLanes _ _ _ _ _ r
  | _ => cases hr

/-! ## Predicates -/

/-- A vote's test over the participating lanes' values (R115). -/
theorem any_votes (f : Nat → Nat) (ls : List Nat) :
    (ls.map fun l => f l != 0).any id = decide (∃ l ∈ ls, f l ≠ 0) := by
  rw [Bool.eq_iff_iff]; simp

theorem all_votes (f : Nat → Nat) (ls : List Nat) :
    (ls.map fun l => f l != 0).all id = decide (∀ l ∈ ls, f l ≠ 0) := by
  rw [Bool.eq_iff_iff]; simp

/-- Settles O3: each form answers the shared shape of a predicate with the test that the table gives; a vote's list of tests comes to
an existence or to a universal statement. -/
theorem predicateResults : Obligations.PredicateResults := by
  unfold Obligations.PredicateResults
  intro i s c n m f h hr
  cases i with
  | cmp k w | fcmp k w | pand w | por w | pnot w | pxor w =>
    cases hr
    exact completes_of_predRes h rfl rfl
  | voteAny w =>
    cases hr
    exact completes_of_predRes h rfl (by simp only [voteRes, any_votes])
  | voteAll w =>
    cases hr
    exact completes_of_predRes h rfl (by simp only [voteRes, all_votes])
  | _ => cases hr

/-! ## Floating forms and conversions -/

/-- Settles O4: each form answers the shared shape of a lane result with the value that the table gives. -/
theorem laneFloatResults : Obligations.LaneFloatResults := by
  unfold Obligations.LaneFloatResults
  intro i s c r h hr
  cases i with
  | fadd w | fsub w | fmul w | ffma w | fmin w | fmax w | fdiv w | frcp w | frsq w | fsqrt w | fex2 w | flg2 w | fsin w | fcos w
  | dot2 w | hfma2 w | cvtFf w | cvtFi w | cvtIf w | cvtIi w | cvtxUnpack w | pack2 w | fclass w | bscl w =>
    exact completes_of_laneRes h hr rfl rfl
  | _ => cases hr

end Sys2Proof.Machine
end

section
/-! PROOFS. Early register reads, the quiet forms and the reserved opcode (O13, O17, O19). -/

namespace Sys2Proof.Machine

/-! ## A register read too early -/

/-- The values from before the outstanding writes that cover an element. -/
def heldBefore (u : UCtx) (reg : Reg) (lane half : Nat) : List Nat :=
  (u.outs.filter (outCovers · reg lane)).map (elem ·.before reg lane half)

theorem readElem_of_heldBefore_nil {u : UCtx} {reg : Reg} {lane half : Nat} (h : heldBefore u reg lane half = []) (fresh : Nat) :
    readElem u fresh reg lane half = elem u.regs reg lane half := by
  unfold heldBefore at h
  simp only [readElem, h]

/-- A read picks one of the older values or the element's own. -/
theorem readElem_mem (u : UCtx) (fresh : Nat) (reg : Reg) (lane half : Nat) :
    readElem u fresh reg lane half ∈ heldBefore u reg lane half ++ [elem u.regs reg lane half] := by
  cases h : heldBefore u reg lane half with
  | nil => simp [readElem_of_heldBefore_nil h]
  | cons x xs =>
    unfold heldBefore at h
    simp only [readElem, h]
    rw [List.getD_eq_getElem _ _ (Nat.mod_lt _ (by simp))]
    exact List.getElem_mem _

/-- Settles O13: the read picks from the list of the value and those from before the outstanding writes that cover the element. -/
theorem hazardRead : Obligations.HazardRead := by
  unfold Obligations.HazardRead
  refine fun u fresh reg lane half => ⟨fun h => readElem_of_heldBefore_nil ?_ fresh, ?_⟩
  · simpa [heldBefore] using h
  · rcases List.mem_append.1 (readElem_mem u fresh reg lane half) with h | h
    · obtain ⟨o, ho, he⟩ := List.mem_map.1 h
      obtain ⟨hm, hc⟩ := List.mem_filter.1 ho
      exact .inr ⟨o, hm, hc, he.symm⟩
    · exact .inl (List.mem_singleton.1 h)

/-! ## The quiet forms -/

/-- A word whose body completes with nothing to do. -/
theorem completes_of_idle {i : Instr} {s : State} {c : Ctx} {body : Ctx → State → Res} {m : Word} (h : Issues i anyProfile s c)
    (hx : exec i s = issue i body s) (hb : body c s = .done { act := m }) :
    ∃ t, exec i s = .next t ∧ Completes c s t [] [] RegsKept none :=
  completes_of_regs h hx hb rfl rfl fun _ => rfl

/-- Settles O17: in the states where it is quiet, each form's body completes with no register and no effect. -/
theorem quietForms : Obligations.QuietForms := by
  unfold Obligations.QuietForms
  intro i s c h hq
  cases i with
  | nop w | hint op w | rejoin w => exact completes_of_idle h rfl rfl
  | brk w => exact completes_of_idle h rfl (if_pos hq)
  | yield w =>
    have hact : c.active w.g w.gn = 0 := by simpa [quiet] using hq
    exact completes_of_regs h rfl rfl (by simp [hact, Eff.when]) rfl fun _ => rfl
  | kcall w =>
    have hcond : c.kcond w = false := by simpa [quiet, Ctx.kcond] using hq
    exact completes_of_idle (m := c.lanes) h rfl (by simp [hcond])
  | nap w => exact completes_of_idle h rfl (if_pos (of_decide_eq_true hq))
  | fence w =>
    refine completes_of_idle (m := c.lanes) h rfl ?_
    by_cases hlow : fenceScope (fs w 3 0) < 3
    · simp [hlow]
    · by_cases hatom : fs w 5 4 = 1
      · have hnone : atomHeld c.sq = none := by simpa [quiet, hlow, hatom] using hq
        simp [hlow, hatom, hnone]
      · have hdrained : drained s c.sq (fenceScope (fs w 3 0)) = true := by simpa [quiet, hlow, hatom] using hq
        simp [hlow, hatom, hdrained]
  | _ => cases hq

/-! ## The reserved opcode -/

/-- A word that the first check of R51 refuses takes ILL. -/
theorem issue_illegal {i : Instr} {prof : Ctx → State → Bool} {body : Ctx → State → Res} {s : State} {c : Ctx}
    (h : ctxHere i s = some c) (hi : illegal c s = true) (hr : trapRoom s c = true) (hs : c.strm = false) :
    issueP i prof body s = .next (applyAll (raise c { cause := 1, addr := c.words, lane := c.checkLane } Eff.nop s) s) := by
  obtain ⟨hroom, hwaits⟩ : mustStall s (coreSrc c.core c.part 0) 2 c.frank = false ∧ trapWaits c.u = none := by
    simpa [trapRoom, hs] using hr
  rw [issueP_eq h, commit_eq]
  simp only [issueEff, preCheck, hi, trapOr, hs, hroom, hwaits, if_true, Bool.not_false, Bool.and_false, Bool.false_eq_true, if_false]

/-- Settles O19: no reserved opcode is well-formed, so the first check of R51 refuses it, and the trap is taken. -/
theorem reservedOpcodeTraps : Obligations.ReservedOpcodeTraps := by
  unfold Obligations.ReservedOpcodeTraps
  intro w e s c h hs hr g hg hn
  obtain ⟨iss, -, hctx⟩ := ctxHere_iss h
  have hill : illegal c s = true := by
    have hwf : c.i.wf = false := by rw [ctxOf_i hctx]; rfl
    simp [illegal, hwf]
  exact ⟨_, issue_illegal h hill hr hs,
    raise_trapped c { cause := 1, addr := c.words, lane := c.checkLane } s g hs hg hn (ctxHere_places h hs)⟩

end Sys2Proof.Machine
end

section
/-! PROOFS. A step is the meaning of the word it fetched, or its event (O6). -/

namespace Sys2Proof.Machine

/-! ## The word that is fetched -/

/-- Without X no extension word is fetched. -/
theorem fetchInstr_ext {c : Ctx} {s : State} {w e : Word} {eff : Eff} (h : fetchInstr c s = .word w e eff)
    (hx : bit w.toNat 29 = false) : e = 0 := by
  unfold fetchInstr at h
  cases hf : fetchOne c s c.pc with
  | word w0 e0 f0 =>
    rw [hf] at h
    dsimp only at h
    split at h
    · split at h
      · cases h
        simp_all
      all_goals cases h
    · cases h
      rfl
  | _ => simp [hf] at h

/-- The words of an instruction are read as what the two of them parse to. -/
theorem readInstr_words (w e : Word) (more : List Byte) (he : bit w.toNat 29 = false → e = 0) :
    readInstr (bytesOfWord w.toNat ++ (if bit w.toNat 29 then bytesOfWord e.toNat else []) ++ more) =
      .ok (parse w.toNat e.toNat, more) := by
  cases hx : bit w.toNat 29 with
  | true =>
    have hr : Reads [w.toNat, e.toNat] (parse w.toNat e.toNat) := ⟨by simp [parseWords, hx], by simp [w.isLt, e.isLt]⟩
    simpa using readInstr_of_reads hr more
  | false =>
    obtain rfl := he hx
    have hr : Reads [w.toNat] (parse w.toNat 0) := ⟨by simp [parseWords, hx], by simp [w.isLt]⟩
    simpa using readInstr_of_reads hr more

theorem readInstr_of_decode {bs more : List Byte} {i : Instr} (h : decode bs = .ok (i, more)) : readInstr bs = .ok (i, more) := by
  unfold decode at h
  split at h
  · next heq =>
    split at h
    · cases h
      exact heq
    · cases h
  · cases h

/-- The instruction that the fetched words decode to is the one that the issue of the path parses. -/
theorem parse_of_fetched {c : Ctx} {s : State} {w e : Word} {eff : Eff} {i : Instr} {more : List Byte}
    (hf : fetchInstr c s = .word w e eff)
    (hd : decode (bytesOfWord w.toNat ++ (if bit w.toNat 29 then bytesOfWord e.toNat else []) ++ more) = .ok (i, more)) :
    parse w.toNat e.toNat = i := by
  have hread := readInstr_of_decode hd
  rw [readInstr_words w e more (fetchInstr_ext hf)] at hread
  cases hread
  rfl

/-! ## The move of a step -/

theorem takeMove_issue {s : State} {a : Agent} {pc : DWord} {lanes : Word} {rest : List Move}
    (h : s.agenda = .issue a pc lanes :: rest) : takeMove s = (.issue a pc lanes, rest) := by
  simp [takeMove, h, moveWaits]

theorem takeMove_event {s : State} {i : Instr} {subj : List Nat} {rest : List Move}
    (h : s.agenda = .event i subj :: rest) : takeMove s = (.event i subj, rest) := by
  simp [takeMove, h, moveWaits]

/-- A path that may issue and is not held runs the instruction that its words parse to. -/
theorem issuePath_exec {a : Agent} {pc : DWord} {lanes : Word} {s : State} {c : Ctx} {w e : Word} {eff : Eff}
    (hm : mayIssue s a pc lanes = true) (hc : fetchCtx s a pc lanes = some c) (hs : skipping s a = false)
    (hf : fetchInstr c s = .word w e eff) (hh : heldNow s a pc lanes (parse w.toNat e.toNat) = false) :
    issuePath a pc lanes s =
      exec (parse w.toNat e.toNat) (atWord a pc (goingLanes s a lanes (parse w.toNat e.toNat)) w e eff s) := by
  simp [issuePath, hm, hc, hs, hf, hh]

/-- Settles O6: the step takes the agenda's move, whose act is the parsed word's meaning or the event's; what the words decode to is
what they parse to. -/
theorem stepRunsDecoded : Obligations.StepRunsDecoded := by
  unfold Obligations.StepRunsDecoded
  refine ⟨?_, ?_⟩
  · intro s a pc lanes rest c w e eff i more hagenda s1 hs1 hmay hctx hskip hfetch hdec hheld
    obtain rfl := parse_of_fetched hfetch hdec
    have hact : act (.issue a pc lanes) (moveState s) = issuePath a pc lanes s1 := by rw [hs1]; rfl
    rw [step, takeMove_issue hagenda, hact, issuePath_exec hmay hctx hskip hfetch hheld]
  · intro s i subj rest hagenda
    rw [step, takeMove_event hagenda]
    rfl

end Sys2Proof.Machine
end

section
/-! PROOFS. Events of one agent: paths forced and released, markers, landings (O57: R46, R47, R98, R105, R112, R133). -/

namespace Sys2Proof.Machine

/-! ## Events that keep the rest -/

theorem EventKeeps.refl (xs : List Comp) (gs ss : List Nat) (s : State) : EventKeeps xs gs ss s s :=
  ⟨Same.refl xs s, fun _ _ => rfl, fun _ _ => rfl⟩

theorem EventKeeps.trans {xs : List Comp} {gs ss : List Nat} {s t u : State} (h : EventKeeps xs gs ss s t)
    (k : EventKeeps xs gs ss t u) : EventKeeps xs gs ss s u := by
  obtain ⟨hsame, hgroups, hstreams⟩ := h
  obtain ⟨ksame, kgroups, kstreams⟩ := k
  exact ⟨hsame.trans ksame, fun q hq => (kgroups q hq).trans (hgroups q hq), fun q hq => (kstreams q hq).trans (hstreams q hq)⟩

/-- An operation that changes at most the parts, the groups and the streams listed. -/
def Within (xs : List Comp) (gs ss : List Nat) (f : Eff) : Prop := ∀ s, EventKeeps xs gs ss s (applyAll (f s) s)

theorem Framed.within {xs : List Comp} {f : Eff} (h : Framed xs f) (gs ss : List Nat) : Within xs gs ss f := fun s =>
  ⟨h.same s, fun q _ => by rw [h.groups s], fun q _ => by rw [h.streams s]⟩

theorem Within.seq {xs : List Comp} {gs ss : List Nat} {f g : Eff} (hf : Within xs gs ss f) (hg : Within xs gs ss g) :
    Within xs gs ss (Eff.seq f g) := fun s => by
  rw [applyAll_seq]
  exact (hf s).trans (hg _)

theorem Within.mono {xs ys : List Comp} {gs ss : List Nat} {f : Eff} (h : Within xs gs ss f) (hxy : ∀ x ∈ xs, x ∈ ys) :
    Within ys gs ss f := fun s => by
  obtain ⟨hsame, hgroups, hstreams⟩ := h s
  exact ⟨hsame.mono hxy, hgroups, hstreams⟩

/-- An operation whose updates depend on the state, each choice within the same bounds. -/
theorem within_of {xs : List Comp} {gs ss : List Nat} {f : Eff} (h : ∀ s, ∃ g : Eff, f s = g s ∧ Within xs gs ss g) :
    Within xs gs ss f := fun s => by
  obtain ⟨g, hg, hw⟩ := h s
  rw [hg]
  exact hw s

theorem within_nop (xs : List Comp) (gs ss : List Nat) : Within xs gs ss Eff.nop := EventKeeps.refl xs gs ss

theorem within_group (p : Nat) (g : State → Group) (ss : List Nat) : Within [] [p] ss (fun s => [.group p (g s)]) := fun s => by
  refine ⟨fun x _ => ?_, fun q hq => mfind_mput_other _ _ _ _ (by simpa using hq), fun _ _ => rfl⟩
  cases x <;> rfl

theorem within_stream (p : Nat) (y : State → Stream) (gs : List Nat) : Within [] gs [p] (fun s => [.stream p (y s)]) := fun s => by
  refine ⟨fun x _ => ?_, fun _ _ => rfl, fun q hq => mfind_mput_other _ _ _ _ (by simpa using hq)⟩
  cases x <;> rfl

/-- An event that is an operation within bounds. -/
theorem eventDoes_of_within {i : Instr} {s : State} {xs : List Comp} {gs ss : List Nat} {f : Eff} {P : State → Prop}
    (hf : Within xs gs ss f) (hx : exec i s = commit f s) (hp : P (applyAll (f s) s)) : EventDoes i s xs gs ss P :=
  ⟨_, hx, hf s, hp⟩

/-! ## The group of a place -/

theorem mfind_group (p : Nat) (h : Group) (s : State) : mfind (applyAll [.group p h] s).groups p = some h := mfind_mput_same _ _ _

theorem schedTo_group {p : Nat} {g : Group} {s : State} {R : Sched → Sched → Prop} {x : Sched} (hg : mfind s.groups p = some g)
    (hR : R g.sched x) : schedTo p s R (applyAll [.group p { g with sched := x }] s) := fun k hk => by
  obtain rfl : g = k := Option.some.inj (hg.symm.trans hk)
  exact ⟨_, mfind_group p _ s, rfl, hR⟩

/-- An event that changes the issue state of a group alone. -/
theorem eventDoes_sched {i : Instr} {p : Nat} {g : Group} {s : State} {R : Sched → Sched → Prop} {x : Sched}
    (hg : mfind s.groups p = some g) (hx : exec i s = .next (applyAll [.group p { g with sched := x }] s)) (hR : R g.sched x) :
    EventDoes i s [] [p] [] (schedTo p s R) :=
  eventDoes_of_within (f := fun _ => [.group p { g with sched := x }]) (within_group p _ []) hx (schedTo_group hg hR)

/-! ## Paths (R98, R105, R112) -/

/-- A mask made of the lanes of those paths that pass a test. -/
theorem inMask_foldl_or {α : Type} (test : α → Prop) [DecidablePred test] (lanes : α → Word) (ps : List α) (l : Nat) (m : Word) :
    inMask (ps.foldl (fun m p => if test p then m ||| lanes p else m) m) l = true ↔
      inMask m l = true ∨ ∃ q ∈ ps, inMask (lanes q) l = true ∧ test q := by
  induction ps generalizing m with
  | nil => simp
  | cons p ps ih =>
    rw [List.foldl_cons, ih]
    by_cases ht : test p
    · simp [ht, inMask, or_assoc]
    · simp [ht]

theorem inMask_agedLanes (limit : Nat) (g : Group) (l : Nat) :
    inMask (agedLanes limit g) l = true ↔ ∃ q ∈ pathsOf g, inMask q.2 l = true ∧ limit ≤ pathAge g q.2 :=
  (inMask_foldl_or _ _ _ _ _).trans (by simp [inMask])

theorem holdRelease_mem {s : State} {p : Nat} {g : Group} {q : DWord × Word} (h : holdRelease s p g = some q) :
    q ∈ pathsOf g ∧ ageLimit s (coreOfG p) ≤ holdCount g q.2 := by
  unfold holdRelease at h
  split at h
  · cases h
  · have htest := List.find?_some h
    simp only [Bool.and_eq_true, decide_eq_true_eq] at htest
    exact ⟨List.mem_of_find?_eq_some h, htest.2⟩

theorem convRelease_mem {s : State} {p : Nat} {g : Group} {q : DWord × Word} (h : convRelease s p g = some q) :
    q ∈ pathsOf g ∧ ∀ r ∈ pathsOf g, pathHeld s p g r.1 = true := by
  unfold convRelease at h
  dsimp only at h
  split at h
  · cases h
  · next hgo =>
    obtain ⟨-, hheld⟩ : _ ∧ (pathsOf g).all (fun r => pathHeld s p g r.1) = true := by
      simpa only [Bool.or_eq_true, not_or, Bool.not_eq_true', Bool.not_eq_false] using hgo
    refine ⟨?_, List.all_eq_true.1 hheld⟩
    split at h
    · next heq => exact Option.some.inj h ▸ List.mem_of_find?_eq_some heq
    · exact List.mem_of_mem_head? h

theorem atGroup_eq {s : State} {p : Nat} {g : Group} (hg : mfind s.groups p = some g) (f : Group → Group) :
    atGroup p f s = [.group p (f g)] := by
  simp [atGroup, hg]

/-- The release of a path by a rule. -/
theorem releaseBy_eq {rule : State → Nat → Group → Option (DWord × Word)} {s : State} {p : Nat} {g : Group} {q : DWord × Word}
    (hg : mfind s.groups p = some g) (hq : rule s p g = some q) :
    releaseBy rule p s = [.group p { g with sched := { g.sched with released := some q } }] := by
  simp [releaseBy, releasePath, atGroup_eq hg, hg, hq]

theorem pathAgeLimit_done {s : State} {p : Nat} {g : Group} (hp : p = subjAt s 0) (hg : mfind s.groups p = some g) :
    EventDoes .pathAgeLimit s [] [p] [] (schedTo p s (fun x y => y = { x with forced := y.forced } ∧ ∀ l, l < 32 →
      (inMask y.forced l = true ↔ ∃ q ∈ pathsOf g, inMask q.2 l = true ∧ ageLimit s (coreOfG p) ≤ pathAge g q.2))) := by
  subst hp
  have hx : exec .pathAgeLimit s = commit (atGroup (subjAt s 0) (forcePaths (ageLimit s (coreOfG (subjAt s 0))))) s := rfl
  rw [commit_eq, atGroup_eq hg] at hx
  exact eventDoes_sched hg hx ⟨rfl, fun l _ => inMask_agedLanes _ g l⟩

theorem holdCountLimit_done {s : State} {p : Nat} {g : Group} {q : DWord × Word} (hp : p = subjAt s 0) (hg : mfind s.groups p = some g)
    (hq : holdRelease s p g = some q) :
    EventDoes .holdCountLimit s [] [p] [] (schedTo p s (fun x y => y = { x with released := some q } ∧ q ∈ pathsOf g ∧
      ageLimit s (coreOfG p) ≤ holdCount g q.2)) := by
  subst hp
  have hx : exec .holdCountLimit s = commit (releaseBy holdRelease (subjAt s 0)) s := rfl
  rw [commit_eq, releaseBy_eq hg hq] at hx
  exact eventDoes_sched hg hx ⟨rfl, holdRelease_mem hq⟩

theorem convergenceRelease_done {s : State} {p : Nat} {g : Group} {q : DWord × Word} (hp : p = subjAt s 0)
    (hg : mfind s.groups p = some g) (hq : convRelease s p g = some q) :
    EventDoes .convergenceRelease s [] [p] [] (schedTo p s (fun x y => y = { x with released := some q } ∧ q ∈ pathsOf g ∧
      ∀ r ∈ pathsOf g, pathHeld s p g r.1 = true)) := by
  subst hp
  have hx : exec .convergenceRelease s = commit (releaseBy convRelease (subjAt s 0)) s := rfl
  rw [commit_eq, releaseBy_eq hg hq] at hx
  exact eventDoes_sched hg hx ⟨rfl, convRelease_mem hq⟩

theorem rejoinRelease_done {s : State} {p : Nat} {g : Group} (hp : p = subjAt s 0) (hg : mfind s.groups p = some g) :
    EventDoes .rejoinRelease s [] [p] [] (schedTo p s (fun x y => y = { x with passed := x.passed ||| rejoinLanes s p g })) := by
  subst hp
  by_cases hm : rejoinLanes s (subjAt s 0) g = 0#32
  · refine ⟨s, by simp [exec, execRejoinRelease, commit, hg, hm], EventKeeps.refl _ _ _ s, fun k hk => ?_⟩
    obtain rfl : g = k := Option.some.inj (hg.symm.trans hk)
    exact ⟨g, hk, rfl, by simp [hm]⟩
  · exact eventDoes_sched hg (by simp [exec, execRejoinRelease, commit, hg, hm]) rfl

/-! ## The shared part of an agent -/

theorem within_setU (a : Agent) (f : UCtx → UCtx) : Within [] (groupPlaces a) (streamPlaces a) (setU a f) := by
  refine within_of fun s => ?_
  cases a with
  | group p =>
    cases hg : mfind s.groups p with
    | none => exact ⟨Eff.nop, by simp [setU, hg, Eff.nop], within_nop _ _ _⟩
    | some g => exact ⟨fun _ => [.group p { g with u := f g.u }], by simp [setU, hg], within_group p _ _⟩
  | stream p =>
    cases hx : mfind s.streams p with
    | none => exact ⟨Eff.nop, by simp [setU, hx, Eff.nop], within_nop _ _ _⟩
    | some x => exact ⟨fun _ => [.stream p { x with u := f x.u }], by simp [setU, hx], within_stream p _ _⟩

theorem agentU_setU {s : State} {a : Agent} {u : UCtx} (f : UCtx → UCtx) (h : agentU s a = some u) :
    agentU (applyAll (setU a f s) s) a = some (f u) := by
  cases a with
  | group p =>
    obtain ⟨g, hg, rfl⟩ := Option.map_eq_some_iff.1 h
    simp [setU, agentU, hg]
  | stream p =>
    obtain ⟨x, hx, rfl⟩ := Option.map_eq_some_iff.1 h
    simp [setU, agentU, hx]

/-! ## Markers and results (R46, R47, R133) -/

theorem markerRelease_done {s : State} {a : Agent} {u : UCtx} (ha : a = subjAgent s) (hu : agentU s a = some u) (hmark : u.mark = true)
    (hland : ∀ o ∈ u.outs, o.landed = true) :
    EventDoes .markerRelease s [] (groupPlaces a) (streamPlaces a) (fun t => agentU t a = some { u with mark := false, outs := [] }) := by
  subst ha
  have hdone : markerDone u = true := by simpa [markerDone, hmark, allLanded] using hland
  exact eventDoes_of_within (within_setU _ _) rfl ((agentU_setU _ hu).trans (by rw [if_pos hdone]))

/-- One result more has landed: the other fields are as before, and with a single result the registers too. -/
def LandedOne (n : Nat) (u v : UCtx) (outs : List Out) : Prop :=
  v = { u with regs := v.regs, outs := v.outs } ∧ v.outs.length = outs.length ∧
  (v.outs.filter (fun o => !o.landed)).length + 1 = (outs.filter (fun o => !o.landed)).length ∧ (n = 1 → v.regs = u.regs)

theorem landOne_go (u : UCtx) (fresh : Nat) (done todo : List Out) (h : todo.any (fun o => !o.landed && o.sq.isNone) = true) :
    LandedOne (done ++ todo).length u (landOne.go u fresh done todo) (done ++ todo) := by
  induction todo generalizing done with
  | nil => simp at h
  | cons o rest ih =>
    unfold landOne.go
    by_cases hskip : (o.landed || o.sq.isSome) = true
    · have hrest : rest.any (fun o => !o.landed && o.sq.isNone) = true := by
        rw [List.any_cons, Bool.or_eq_true] at h
        refine h.resolve_left fun ho => ?_
        cases hl : o.landed <;> cases hs : o.sq <;> simp_all
      rw [if_pos hskip]
      simpa using ih (done ++ [o]) hrest
    · rw [if_neg hskip]
      have hl : o.landed = false := by
        simp only [Bool.or_eq_true, not_or, Bool.not_eq_true] at hskip
        exact hskip.1
      refine ⟨rfl, by simp, by simp [hl]; omega, fun hone => ?_⟩
      obtain rfl : rest = [] := by
        simp only [List.length_append, List.length_cons] at hone
        exact List.length_eq_zero_iff.1 (by omega)
      have hnone : clashes o [] = [] := by
        simp only [clashes, List.find?_nil, List.flatMap_eq_nil_iff]
        intro reg _
        split <;> simp
      simp [hnone]

theorem landOne_landed {u : UCtx} (fresh : Nat) (h : landable u = true) : LandedOne u.outs.length u (landOne u fresh) u.outs := by
  exact landOne_go u fresh [] u.outs h

theorem resultLanding_done {s : State} {a : Agent} {u : UCtx} (ha : a = subjAgent s) (hu : agentU s a = some u)
    (hland : landable u = true) :
    EventDoes .resultLanding s [] (groupPlaces a) (streamPlaces a) (fun t => ∃ v, agentU t a = some v ∧
      v = { u with regs := v.regs, outs := v.outs } ∧ v.outs.length = u.outs.length ∧
      (v.outs.filter (fun o => !o.landed)).length + 1 = (u.outs.filter (fun o => !o.landed)).length ∧
      (u.outs.length = 1 → v.regs = u.regs)) := by
  subst ha
  refine eventDoes_of_within (f := Eff.seq (setU (subjAgent s) (fun u => landOne u s.fresh)) (fun s => [.fresh (s.fresh + 1)]))
    ((within_setU _ _).seq ((framed_fresh _).within _ _)) rfl ⟨landOne u s.fresh, ?_, landOne_landed s.fresh hland⟩
  rw [applyAll_seq]
  have hset := agentU_setU (fun u => landOne u s.fresh) hu
  generalize subjAgent s = a at *
  cases a <;> exact hset

end Sys2Proof.Machine
end

section
/-! PROOFS. What a party has released is recorded at rings and barriers (O57: R246, R337), and the card-emission points that it
passes (R397). -/

namespace Sys2Proof.Machine

/-! ## Card-emission points (R397) -/

theorem unhold_of_noStall {s : State} (h : noStall s) (cl key : Nat) : unhold cl key s = [] := by
  simp [unhold, h.2 cl]

/-- With no session that registered engines wait for, an engine's event happens at its card-emission point. -/
theorem cardPoint_of_noStall {s : State} (h : noStall s) (src : Src387) (who frank : Nat) (eff : Eff) :
    cardPoint src who frank eff s = some (Eff.seq (unhold (bufOf s src) (srcNum src)) eff) := by
  have hheld : engineHeld s (bufOf s src) (srcNum src) = false := by simp [engineHeld, h.2]
  have hfits : fitsCards none eff s = true := by
    have hopen : s.trace.sessions.all (fun e => !(sessOpen e.2 && sessReg e.2)) = true :=
      List.all_eq_true.2 fun e he => by simpa [imp_iff_not_or] using h.1 e he
    rw [fitsCards, hopen, Bool.true_or]
  simp only [cardPoint, atPoint, hheld, hfits, Bool.false_eq_true, if_false, if_true]

theorem seq_unhold_of_noStall {s : State} (h : noStall s) (cl key : Nat) (eff : Eff) : Eff.seq (unhold cl key) eff s = eff s := by
  simp [Eff.seq, unhold_of_noStall h]

/-! ## Agents and parties -/

theorem agentU_of_partyOf {s : State} {a : Agent} {x : Party} (h : partyOf s a = some x) : agentU s a = some x.u := by
  cases a with
  | group p =>
    obtain ⟨g, hg, rfl⟩ := Option.map_eq_some_iff.1 h
    simp [agentU, hg]
  | stream p =>
    obtain ⟨y, hy, rfl⟩ := Option.map_eq_some_iff.1 h
    simp [agentU, hy]

theorem partyOf_of_agentU {s : State} {a : Agent} {u : UCtx} (h : agentU s a = some u) : ∃ y, partyOf s a = some y ∧ y.u = u := by
  cases a with
  | group p =>
    obtain ⟨g, hg, rfl⟩ := Option.map_eq_some_iff.1 h
    exact ⟨_, by simp only [partyOf, hg]; rfl, rfl⟩
  | stream p =>
    obtain ⟨y, hy, rfl⟩ := Option.map_eq_some_iff.1 h
    exact ⟨_, by simp only [partyOf, hy]; rfl, rfl⟩

theorem Framed.agentU {xs : List Comp} {f : Eff} (h : Framed xs f) (s : State) (a : Agent) :
    Machine.agentU (applyAll (f s) s) a = Machine.agentU s a := by
  cases a <;> simp only [Machine.agentU, h.groups, h.streams]

/-! ## Scratchpad bytes -/

theorem framed_spad (g : State → List Host.Cell) : Framed [.spad] (fun s => [.spad (g s)]) := by
  refine ⟨fun s x hx => ?_, fun _ => rfl, fun _ => rfl⟩
  cases x <;> first | rfl | exact absurd (by simp) hx

/-! ## Rings (R245, R246) -/

theorem framed_setRing (blk n : Nat) (r : Ring) : Framed [.blocks] (setRing blk n r) := framed_of fun s => by
  unfold setRing
  split
  · exact ⟨fun _ => _, rfl, framed_block _ _⟩
  · exact ⟨Eff.nop, rfl, framed_nop _⟩

theorem framed_putHeader (blk : Nat) (r : Ring) (slot : Nat) (f : DWord → DWord) : Framed [.spad] (putHeader blk r slot f) :=
  framed_of fun s => by
    unfold putHeader
    split
    · exact ⟨fun _ => _, rfl, framed_spad _⟩
    · exact ⟨Eff.nop, rfl, framed_nop _⟩

theorem framed_recordRing (x : Party) (p : Pend) : Framed [.blocks, .spad] (recordRing x p) := framed_of fun s => by
  unfold recordRing
  split
  · split
    · exact ⟨_, rfl, ((framed_putHeader _ _ _ _).mono (by simp)).seq ((framed_setRing _ _ _).mono (by simp))⟩
    · exact ⟨Eff.nop, rfl, framed_nop _⟩
  · split
    · exact ⟨_, rfl, ((framed_putHeader _ _ _ _).mono (by simp)).seq ((framed_setRing _ _ _).mono (by simp))⟩
    · exact ⟨Eff.nop, rfl, framed_nop _⟩
  · exact ⟨Eff.nop, rfl, framed_nop _⟩

theorem ringAt_congr {s t : State} (h : t.blocks = s.blocks) (blk n : Nat) : ringAt t blk n = ringAt s blk n := by
  simp only [ringAt, h]

theorem ringAt_setRing {s : State} {blk n : Nat} {r : Ring} (h : ringAt s blk n = some r) (r' : Ring) :
    ringAt (applyAll (setRing blk n r' s) s) blk n = some r' := by
  obtain ⟨b, hb, -⟩ := Option.bind_eq_some_iff.1 h
  simp [setRing, ringAt, hb]

/-- A ring with a release of a kind counted. -/
def ringCounted (k : PendKind) (r : Ring) : Ring :=
  match k with
  | .put _ _ _ => { r with p := (r.p + 1) % 2 ^ 32 }
  | .putFree _ => { r with f := (r.f + 1) % 2 ^ 32 }
  | _ => r

theorem ringAt_recordRing {s : State} {x : Party} {q : Pend} {n : Nat} {r : Ring} (hq : pendRing q = some n)
    (hr : ringAt s x.blk n = some r) : ringAt (applyAll (recordRing x q s) s) x.blk n = some (ringCounted q.kind r) := by
  have hheader : ∀ slot f, ringAt (applyAll (putHeader x.blk r slot f s) s) x.blk n = some r := fun slot f =>
    (ringAt_congr ((framed_putHeader x.blk r slot f).same s .blocks (by simp)) x.blk n).trans hr
  unfold pendRing at hq
  cases hk : q.kind with
  | put m slot tag =>
    simp only [hk, Option.some.injEq] at hq
    subst hq
    simp only [recordRing, hk, hr, applyAll_seq]
    exact ringAt_setRing (hheader _ _) _
  | putFree m =>
    simp only [hk, Option.some.injEq] at hq
    subst hq
    simp only [recordRing, hk, hr, applyAll_seq]
    exact ringAt_setRing (hheader _ _) _
  | _ => simp [hk] at hq

theorem ringPutRecord_done {s : State} {a : Agent} {x : Party} {q : Pend} {r : Nat} (ha : a = subjAgent s) (hx : partyOf s a = some x)
    (hnow : ringPendNow s a = some q) (hq : pendRing q = some r) :
    EventDoes .ringPutRecord s [.blocks, .spad] (groupPlaces a) (streamPlaces a) (fun t =>
      (∃ y, partyOf t a = some y ∧ y.u = { x.u with pend := x.u.pend.erase q }) ∧
      ∀ v, ringAt s x.blk r = some v → ∃ v', ringAt t x.blk r = some v' ∧ v'.pr = v.pr ∧ v'.a = v.a ∧
        v'.p = (match q.kind with
          | .put _ _ _ => (v.p + 1) % 2 ^ 32
          | _ => v.p) ∧
        v'.f = (match q.kind with
          | .putFree _ => (v.f + 1) % 2 ^ 32
          | _ => v.f)) := by
  subst ha
  have hset := within_setU (subjAgent s) (fun u => { u with pend := u.pend.erase q })
  have hrec := framed_recordRing x q
  refine eventDoes_of_within (f := Eff.seq (setU (subjAgent s) (fun u => { u with pend := u.pend.erase q })) (recordRing x q))
    ((hset.mono (by simp)).seq (hrec.within _ _)) ?_ ⟨?_, fun v hv => ⟨ringCounted q.kind v, ?_, ?_⟩⟩
  · show commit (takeRing (subjAgent s)) s = _
    simp only [commit_eq, takeRing, hx, hnow]
  · refine partyOf_of_agentU ?_
    rw [applyAll_seq, hrec.agentU, agentU_setU _ (agentU_of_partyOf hx)]
  · rw [applyAll_seq]
    exact ringAt_recordRing hq ((ringAt_congr ((hset s).1 .blocks (by simp)) _ _).trans hv)
  · cases hk : q.kind <;> exact ⟨rfl, rfl, rfl, rfl⟩

/-! ## Barriers (R331, R337) -/

theorem barAt_congr {s t : State} (hb : t.blocks = s.blocks) (hr : t.bars = s.bars) (blk key : Nat) : barAt t blk key = barAt s blk key := by
  simp only [barAt, getBar, hb, hr]

theorem framed_setBar (blk key : Nat) (x : Bar) : Framed [.blocks, .bars] (setBar blk key x) := framed_of fun s => by
  unfold setBar
  split
  · split
    · exact ⟨fun _ => _, rfl, (framed_block _ _).mono (by simp)⟩
    · exact ⟨Eff.nop, rfl, framed_nop _⟩
  · exact ⟨fun _ => _, rfl, (framed_bar _ _).mono (by simp)⟩

/-- A barrier set of a block that is there reads as set, and every other as before. -/
theorem barAt_setBar {s : State} {blk : Nat} (h : mfind s.blocks blk ≠ none) (key k : Nat) (x : Bar) :
    barAt (applyAll (setBar blk key x s) s) blk k = if k = key then x else barAt s blk k := by
  obtain ⟨b, hb⟩ := Option.ne_none_iff_exists'.1 h
  by_cases hkey : key < 16
  · by_cases hk : k < 16
    · simp [setBar, barAt, hkey, hk, hb, mget_mput]
    · have hne : k ≠ key := by omega
      simp [setBar, barAt, getBar, hkey, hk, hb, hne]
  · by_cases hk : k < 16
    · have hne : k ≠ key := by omega
      simp [setBar, barAt, hkey, hk, hb, hne]
    · have hiff : k - 16 = key - 16 ↔ k = key := by omega
      simp [setBar, barAt, getBar, hkey, hk, mget_mput, hiff]

theorem framed_barchk (core part slot lane frank key reason gen : Nat) (live released : Word) :
    Framed [.trace, .clusters] (barchk core part slot lane frank key reason gen live released) := framed_emit _ _ _ _ _ _ _

theorem framed_lateCards (key : Nat) (n : BarNow) : Framed [.trace, .clusters] (lateCards key n) :=
  framed_forEach _ _ fun _ _ => framed_barchk _ _ _ _ _ _ _ _ _ _

/-- The checker's cards of an arrival (R335). -/
def arrivalCards (x : Party) (key frank : Nat) (rel live : Word) (n : BarNow) : Eff :=
  Eff.seq (Eff.when (rel != live) (barchk x.core x.part x.slot (lowest rel) frank key 2 n.base.gen live rel))
    (lateCards key { n with arrs := n.arrs ++ [x.id] })

theorem framed_arrivalCards (x : Party) (key frank : Nat) (rel live : Word) (n : BarNow) :
    Framed [.trace, .clusters] (arrivalCards x key frank rel live n) :=
  ((framed_barchk _ _ _ _ _ _ _ _ _ _).when _).seq (framed_lateCards _ _)

/-- A party's own record of an arrival. -/
def withArrived (key gen : Nat) (u : UCtx) : UCtx := { u with arrived := mput u.arrived key gen }

/-- The record of an arrival: its cards, the barrier with it, the party's own record. -/
theorem applyAll_recordArrive (a : Agent) (x : Party) (key : Nat) (rel live : Word) (s : State) :
    applyAll (recordArrive a x key rel live s) s =
      applyAll (Eff.seq (arrivalCards x key (frankOfBlk s x.blk) rel live (nowAt s.clk.cyc (barAt s x.blk key)))
        (Eff.seq (setBar x.blk key (barArrived s.clk.cyc key x.id (barAt s x.blk key)))
          (setU a (withArrived key (arrivalGen s.clk.cyc x.id (barAt s x.blk key))))) s) s := by
  have hgen : (if (nowAt s.clk.cyc (barAt s x.blk key)).base.joins.contains x.id &&
        !(nowAt s.clk.cyc (barAt s x.blk key)).base.members.contains x.id
      then ((nowAt s.clk.cyc (barAt s x.blk key)).base.gen + 1) % 65536 else (nowAt s.clk.cyc (barAt s x.blk key)).base.gen) =
      arrivalGen s.clk.cyc x.id (barAt s x.blk key) := by
    simp [arrivalGen]
  simp only [recordArrive, hgen, arrivalCards, applyAll_all_cons, applyAll_all_nil, applyAll_seq]
  rfl

/-- The state after an arrival's record: the barrier has the arrival and no other has changed, and the party knows its
generation. -/
theorem recordArrive_done {s : State} {a : Agent} {x : Party} {u : UCtx} (hu : agentU s a = some u) (hb : mfind s.blocks x.blk ≠ none)
    (key : Nat) (rel live : Word) {t : State} (ht : t = applyAll (recordArrive a x key rel live s) s) :
    EventKeeps [.blocks, .bars, .trace, .clusters] (groupPlaces a) (streamPlaces a) s t ∧
    (∀ k, barAt t x.blk k = if k = key then barArrived s.clk.cyc key x.id (barAt s x.blk key) else barAt s x.blk k) ∧
    agentU t a = some (withArrived key (arrivalGen s.clk.cyc x.id (barAt s x.blk key)) u) := by
  rw [applyAll_recordArrive] at ht
  have hcards := framed_arrivalCards x key (frankOfBlk s x.blk) rel live (nowAt s.clk.cyc (barAt s x.blk key))
  generalize arrivalCards x key (frankOfBlk s x.blk) rel live (nowAt s.clk.cyc (barAt s x.blk key)) = cards at ht hcards
  generalize barArrived s.clk.cyc key x.id (barAt s x.blk key) = b at ht ⊢
  generalize withArrived key (arrivalGen s.clk.cyc x.id (barAt s x.blk key)) = record at ht ⊢
  have hbar := framed_setBar x.blk key b
  have hparty := within_setU a record
  have hkeeps := (((hcards.mono (by simp)).seq (hbar.mono (by simp))).within _ _).seq
    (hparty.mono (ys := [.blocks, .bars, .trace, .clusters]) (by simp)) s
  simp only [applyAll_seq] at ht hkeeps
  subst ht
  have hblocks : (applyAll (cards s) s).blocks = s.blocks := hcards.same s .blocks (by simp)
  have hbars : (applyAll (cards s) s).bars = s.bars := hcards.same s .bars (by simp)
  refine ⟨hkeeps, fun k => ?_, ?_⟩
  · have hset := hparty (applyAll (setBar x.blk key b (applyAll (cards s) s)) (applyAll (cards s) s))
    rw [barAt_congr (hset.1 .blocks (by simp)) (hset.1 .bars (by simp)), barAt_setBar (by rwa [hblocks]), barAt_congr hblocks hbars]
  · rw [agentU_setU record]
    rw [hbar.agentU, hcards.agentU, hu]

/-! ## The arrival that is recorded -/

theorem arrivalOf_of_not {s : State} {a : Agent} {x : Party} {p : Pend} (h : arrivesNow s x p = false) : arrivalOf s a x p = none := by
  cases hk : p.kind with
  | arrive key rel live =>
    simp only [arrivesNow, hk] at h
    simp only [arrivalOf, hk, h, Bool.false_eq_true, if_false]
  | _ => simp only [arrivalOf, hk]

/-- The first pending arrival that may be recorded is the one that is. -/
theorem takeArrival_eq {s : State} {a : Agent} {x : Party} {q : Pend} {key : Nat} {rel live : Word} (hx : partyOf s a = some x)
    (hq : x.u.pend.find? (arrivesNow s x) = some q) (hk : q.kind = .arrive key rel live) (hs : noStall s) :
    takeArrival a s =
      Eff.seq (setU a (fun u => { u with pend := u.pend.filter (· != q) })) (recordArrive a x key rel live) s := by
  obtain ⟨hnow, before, after, hpend, hbefore⟩ := List.find?_eq_some_iff_append.1 hq
  have hready : (earlierDone s x q.after (barScope key) && mayReach s.clk.cyc x.id (barAt s x.blk key)) = true := by
    simpa [arrivesNow, hk] using hnow
  have hnone : before.findSome? (arrivalOf s a x) = none :=
    List.findSome?_eq_none_iff.2 fun p hp => arrivalOf_of_not (by simpa using hbefore p hp)
  have hthis := cardPoint_of_noStall hs (coreSrc x.core x.part 5) x.blk (frankOfBlk s x.blk)
    (Eff.seq (setU a (fun u => { u with pend := u.pend.filter (· != q) })) (recordArrive a x key rel live))
  have hof : arrivalOf s a x q = some (Eff.seq (unhold (bufOf s (coreSrc x.core x.part 5)) (srcNum (coreSrc x.core x.part 5)))
      (Eff.seq (setU a (fun u => { u with pend := u.pend.filter (· != q) })) (recordArrive a x key rel live))) := by
    simp only [arrivalOf, hk, hready, if_true, hthis]
  simp only [takeArrival, arrivalNow, hx, hpend, List.findSome?_append, hnone, List.findSome?_cons, hof, Option.none_or, Eff.opt]
  exact seq_unhold_of_noStall hs _ _ _

theorem arrivalRecord_done {s : State} {a : Agent} {x : Party} {q : Pend} {key : Nat} {rel live : Word} (ha : a = subjAgent s)
    (hx : partyOf s a = some x) (hq : x.u.pend.find? (arrivesNow s x) = some q) (hk : q.kind = .arrive key rel live)
    (hb : mfind s.blocks x.blk ≠ none) (hs : noStall s) :
    EventDoes .arrivalRecord s [.blocks, .bars, .trace, .clusters] (groupPlaces a) (streamPlaces a) (fun t =>
      let b := barAt s x.blk key
      barAt t x.blk key = barArrived s.clk.cyc key x.id b ∧ (∀ k, k ≠ key → barAt t x.blk k = barAt s x.blk k) ∧
      ∃ y, partyOf t a = some y ∧ y.u.pend = x.u.pend.filter (· != q) ∧
        mfind y.u.arrived key = some (arrivalGen s.clk.cyc x.id b)) := by
  subst ha
  have hset := within_setU (subjAgent s) (fun u => { u with pend := u.pend.filter (· != q) })
  have hexec : exec .arrivalRecord s = .next (applyAll (takeArrival (subjAgent s) s) s) := rfl
  rw [takeArrival_eq hx hq hk hs, applyAll_seq] at hexec
  have hu := agentU_setU (fun u => { u with pend := u.pend.filter (· != q) }) (agentU_of_partyOf hx)
  obtain ⟨hsame, -, -⟩ := hset s
  have hfirst := (hset.mono (ys := [.blocks, .bars, .trace, .clusters]) (by simp)) s
  generalize applyAll (setU (subjAgent s) (fun u => { u with pend := u.pend.filter (· != q) }) s) s = s1 at *
  have hblocks : s1.blocks = s.blocks := hsame .blocks (by simp)
  have hbars : s1.bars = s.bars := hsame .bars (by simp)
  have hclk : s1.clk = s.clk := hsame .clk (by simp)
  obtain ⟨hkeeps, hbar, hparty⟩ := recordArrive_done hu (by rwa [hblocks]) key rel live rfl
  obtain ⟨y, hy, hyu⟩ := partyOf_of_agentU hparty
  simp only [barAt_congr hblocks hbars, hclk] at hbar hyu
  refine ⟨_, hexec, hfirst.trans hkeeps, (hbar key).trans (if_pos rfl), fun k hne => (hbar k).trans (if_neg hne), y, hy, ?_, ?_⟩
  · rw [hyu]; rfl
  · rw [hyu]; exact mfind_mput_same _ _ _

end Sys2Proof.Machine
end

section
/-! PROOFS. Counted rows of the stream and the delivery of its traps (O57: R136, R192, R374). -/

namespace Sys2Proof.Machine

/-! ## Writes of an engine (R295, R307) -/

theorem framed_unclaim (k : Writer) (ls : List Nat) : Framed [.coh] (unclaim k ls) := framed_of fun s => by
  unfold unclaim
  split
  · exact ⟨fun _ => _, rfl, framed_coh _⟩
  · exact ⟨Eff.nop, rfl, framed_nop _⟩

theorem framed_writeThrough (k : Writer) (cs : List Host.Cell) : Framed homeParts (writeThrough k cs) := by
  refine framed_all _ fun f hf => ?_
  simp only [List.mem_cons, List.not_mem_nil, or_false] at hf
  rcases hf with rfl | rfl | rfl
  · exact (framed_unclaim _ _).mono (by simp)
  · exact framed_performCells _
  · exact framed_dropNc _ _

theorem framed_replOrder (rs : List (Nat × Nat)) (off : Nat) (bs : List Byte) : Framed [.coh] (replOrder rs off bs) :=
  framed_of fun s => by
    unfold replOrder
    split
    · exact ⟨Eff.nop, rfl, framed_nop _⟩
    · exact ⟨fun _ => _, rfl, framed_coh _⟩

theorem framed_replWrite (k : Writer) (reps : List (Nat × Nat)) (off : Nat) (bs : List Byte) :
    Framed homeParts (replWrite k reps off bs) := framed_of fun s => by
  unfold replWrite
  dsimp only
  split
  · exact ⟨_, rfl, (framed_writeThrough _ _).seq ((framed_replOrder _ _ _).mono (by simp))⟩
  · exact ⟨_, rfl, (framed_replOrder _ _ _).mono (by simp)⟩

theorem framed_countRepl (frank : Nat) (reps : List (Nat × Nat)) (off n : Nat) : Framed [] (countRepl frank reps off n) :=
  (framed_count _ _ _).seq (framed_of fun _ => ⟨_, rfl, framed_forEach _ _ fun _ _ => framed_count _ _ _⟩)

/-- What an engine's writes change of the package. -/
abbrev engineParts : List Comp := [.mem, .spad, .cores, .coh]

theorem framed_engineWrite (k : Writer) (frank : Nat) (ps : List Piece) (bs : List Byte) :
    Framed engineParts (engineWrite k frank ps bs) := by
  induction ps generalizing bs with
  | nil => exact framed_nop _
  | cons p ps ih =>
    refine Framed.seq ?_ (ih _)
    cases p.place with
    | spad c o => exact (framed_spad _).mono (by simp)
    | phys a nc => exact ((framed_writeThrough _ _).mono (by simp)).seq ((framed_count _ _ _).mono (by simp))
    | repl r reps off => exact ((framed_replWrite _ _ _ _).mono (by simp)).seq ((framed_countRepl _ _ _ _).mono (by simp))
    | counter r b => exact framed_nop _

theorem framed_storeRows (k : Writer) (frank : Nat) (m : Matrix) (t oty i : Nat) (rows : List (List Piece)) :
    Framed engineParts (storeRows k frank m t oty i rows) := by
  induction rows generalizing i with
  | nil => exact framed_nop _
  | cons ps rows ih => exact (framed_engineWrite _ _ _ _).seq (ih _)

/-! ## Completion registers (R136, R137) -/

@[simp] theorem getKc_setKst (u : UFile) (n m : Nat) (v : DWord) : getKc (setKst u n v) m = getKc u m := rfl
@[simp] theorem getKst_setKc (u : UFile) (n m : Nat) (v : DWord) : getKst (setKc u n v) m = getKst u m := rfl

theorem kcAfter_kcPut (n : Nat) (x : KcNow) (u : UFile) : KcAfter n x u (kcPut n x u) := by
  have hlog : ∀ m, getKc { u with kcn := mput u.kcn n x } m = getKc u m ∧ getKst { u with kcn := mput u.kcn n x } m = getKst u m :=
    fun _ => ⟨rfl, rfl⟩
  intro m
  by_cases hlow : (x.base + x.adds) % 2 ^ 64 < x.subs
  · have hzero : (x.base + x.adds) % 2 ^ 64 - x.subs = 0 := by omega
    simp only [kcPut, kcLeft, kcStatus, if_pos hlow, hzero, getKc_setKst, getKst_setKc, getKc_setKc, getKst_setKst, hlog, and_true]
    rfl
  · simp only [kcPut, kcLeft, kcStatus, if_neg hlow, getKc_setKst, getKst_setKc, getKc_setKc, getKst_setKst, hlog, and_self]

/-- The operations of a stream with the first row of one of them taken off. -/
def rowTaken (id : Nat) (ops : List Op) : List Op := ops.map (fun x => if x.id == id then { x with rows := x.rows.drop 1 } else x)

theorem rowTaken_ids (id : Nat) (ops : List Op) : (rowTaken id ops).map (·.id) = ops.map (·.id) := by
  rw [rowTaken, List.map_map]
  refine List.map_congr_left fun o _ => ?_
  by_cases h : o.id = id <;> simp [h]

theorem mem_rowTaken {id : Nat} {ops : List Op} {z : Op} (h : z ∈ rowTaken id ops) (hz : z.id = id) :
    ∃ z' ∈ ops, z'.id = id ∧ z.rows = z'.rows.drop 1 := by
  obtain ⟨z', hm, rfl⟩ := List.mem_map.1 h
  by_cases hid : z'.id = id
  · exact ⟨z', hm, hid, by simp [hid]⟩
  · simp [hid] at hz

/-- A ready row of an mst is written, then the stream's count goes down. -/
theorem applyAll_landStoreRow {s : State} {p : Nat} {x : Stream} {b : Block} {m : Matrix} {o : Op} {tile oty kc : Nat}
    (hx : mfind s.streams p = some x) (hk : kcStore x = some (o, tile, oty, kc)) (hb : mfind s.blocks x.blk = some b)
    (hm : b.mat = some m) (hgone : goneRun s (physRuns s (o.rows.headD [])) = none)
    (hready : piecesReady s (.op o.id) (o.rows.headD []) = true) :
    applyAll (landStoreRow p s) s = applyAll (Eff.seq
      (storeRows (.op o.id) (frankOfBlk s x.blk) m tile oty (16 - o.rows.length) (o.rows.take 1))
      (fun _ => [.stream p (countRow s.clk.cyc (some kc) (16 * otyBytes oty) { x with ops := rowTaken o.id x.ops })]) s) s := by
  have hrows := framed_storeRows (.op o.id) (frankOfBlk s x.blk) m tile oty (16 - o.rows.length) (o.rows.take 1)
  have hclk : (applyAll (storeRows (.op o.id) (frankOfBlk s x.blk) m tile oty (16 - o.rows.length) (o.rows.take 1) s) s).clk = s.clk :=
    hrows.same s .clk (by simp)
  simp only [landStoreRow, hx, hk, hb, hm, Option.bind_some, hgone, whenReady, hready, if_true, Eff.opt, applyAll_seq, hrows.streams,
    hclk, rowTaken]

theorem completionLanding_done {s : State} {p : Nat} {x : Stream} {b : Block} {o : Op} {tile oty kc : Nat} {m : Matrix}
    (hp : p = subjAt s 0) (hx : mfind s.streams p = some x) (hk : kcStore x = some (o, tile, oty, kc))
    (hb : mfind s.blocks x.blk = some b) (hm : b.mat = some m) (hgone : goneRun s (physRuns s (o.rows.headD [])) = none)
    (hready : piecesReady s (.op o.id) (o.rows.headD []) = true) :
    EventDoes .completionLanding s [.mem, .spad, .cores, .coh] [] [p] (fun t => ∃ y, mfind t.streams p = some y ∧
      KcAfter kc (kcDown s kc (16 * otyBytes oty) x.u.regs.u) x.u.regs.u y.u.regs.u ∧
      y.ops.map (·.id) = x.ops.map (·.id) ∧ ∀ z ∈ y.ops, z.id = o.id → ∃ z' ∈ x.ops, z'.id = o.id ∧ z.rows = z'.rows.drop 1) := by
  subst hp
  have hexec : exec .completionLanding s = .next (applyAll (landStoreRow (subjAt s 0) s) s) := rfl
  rw [applyAll_landStoreRow hx hk hb hm hgone hready] at hexec
  refine eventDoes_of_within (((framed_storeRows _ _ _ _ _ _ _).within _ _).seq ((within_stream _ _ _).mono (by simp))) hexec ?_
  rw [applyAll_seq]
  exact ⟨_, mfind_mput_same _ _ _, kcAfter_kcPut _ _ _, rowTaken_ids _ _, fun z hz => mem_rowTaken hz⟩

/-! ## Traps of a stream (R374) -/

/-- The bank that a trap fills (R369, R373). -/
def trapBank (g : Group) (place : Nat) (strm : Bool) (pc : DWord) (lane : Nat) (dest : TrapTo) : Bank :=
  { cause := trapCauseWord strm dest.retry (sysMode g) dest.cause, pc := pc, addr := dest.addr
    lane := trapLaneWord (coreOfG place) (partOfG place % 4) (slotOfG place) lane
    scr := (if dest.sys then g.tr.bankS else g.tr.bankU).scr, active := true }

/-- A trap that a group with bank S free takes: its bank is filled, its lanes go to the handler, and a card may come of it. -/
theorem takeTrap_taken {s : State} {place : Nat} {g : Group} {strm : Bool} {lanes : Word} {pc next : DWord} {r : TrapReq} {dest : TrapTo}
    (hg : mfind s.groups place = some g) (hb : g.tr.bankS.active = false) (hd : dest = trapTo g s.idn.stvec r.cause r.addr)
    {t : State} (ht : t = applyAll (takeTrap place strm lanes pc next r s) s) :
    EventKeeps [.trace, .clusters] [place] [] s t ∧ ∃ h, mfind t.groups place = some h ∧ h.live = g.live ∧
      (if dest.sys then h.tr.bankU = g.tr.bankU else h.tr.bankS = g.tr.bankS) ∧
      (if dest.sys then h.tr.bankS else h.tr.bankU) = trapBank g place strm pc r.lane dest ∧
      ∀ l, l < 32 → inMask lanes l = true → mget 0 h.sched.pc l = dest.vec := by
  subst hd
  rw [ht]
  unfold takeTrap
  simp only [hg, hb, Bool.false_eq_true, if_false, applyAll_seq]
  have hcard := framed_emit (coreSrc (coreOfG place) (partOfG place % 4) 0) 2 r.lane (slotOfG place) (frankOfBlk s g.blk)
    (BitVec.ofNat 64 ((trapTo g s.idn.stvec r.cause r.addr).cause + (trapTo g s.idn.stvec r.cause r.addr).retry.toNat * 2 ^ 8 +
      strm.toNat * 2 ^ 9)) pc
  have hafter := fun G => group_then_framed hcard place (s.fresh + 1) G s _ rfl
  refine ⟨⟨(hafter _).2.2.2, fun q hq => (hafter _).2.1 q (by simpa using hq), fun q _ => by rw [(hafter _).2.2.1]⟩, _, (hafter _).1, rfl,
    ?_, ?_, ?_⟩
  · dsimp only
    cases (trapTo g s.idn.stvec r.cause r.addr).sys <;> rfl
  · dsimp only
    cases hsys : (trapTo g s.idn.stvec r.cause r.addr).sys <;> simp [trapBank, hsys]
  · intro l hl hm
    simp only [mget_foldl_mset, mem_lanesOf, hl, hm, and_self, if_true]

/-- The delivery of a stream's trap to a host group. -/
def deliverTo (p : Nat) (x : Stream) (tr : StreamTrap) (q : Nat) (g : Group) : Eff :=
  Eff.seq (fun _ => [.stream p { x with trap := some { tr with delivered := true } }])
    (takeTrap q true g.live tr.pc tr.next { cause := tr.cause, addr := tr.addr, lane := lowest g.live })

/-- With no engine stalled a trap is delivered to a host group that may take it. -/
theorem exec_streamTrapDelivery {s : State} {x : Stream} {tr : StreamTrap} {q : Nat} {g : Group}
    (hx : mfind s.streams (subjAt s 0) = some x) (htr : x.trap = some tr) (hd : tr.delivered = false)
    (hhost : hostGroup s x.blk = some (q, g)) (hstall : stallsNow s g = false) (hwait : trapWaits g.u = none) (hs : noStall s) :
    exec .streamTrapDelivery s = .next (applyAll (deliverTo (subjAt s 0) x tr q g s) s) := by
  have hpoint := cardPoint_of_noStall hs (coreSrc (subjAt s 0 / 4) (subjAt s 0 % 4) 0) x.blk (frankOfBlk s x.blk)
    (deliverTo (subjAt s 0) x tr q g)
  have hdeliver : deliver s (subjAt s 0) = cardPoint (coreSrc (subjAt s 0 / 4) (subjAt s 0 % 4) 0) x.blk (frankOfBlk s x.blk)
      (deliverTo (subjAt s 0) x tr q g) s := by
    simp only [deliver, undelivered, hx, htr, hd, hhost, hstall, hwait, Option.isSome_none, Bool.or_self, Bool.false_eq_true, if_false]
    rfl
  simp only [exec, execStreamTrapDelivery, commit, hdeliver, hpoint, seq_unhold_of_noStall hs]

theorem streamTrapDelivery_done {s : State} {p : Nat} {x : Stream} {tr : StreamTrap} {q : Nat} {g : Group} {dest : TrapTo}
    (hp : p = subjAt s 0) (hx : mfind s.streams p = some x) (htr : x.trap = some tr) (hd : tr.delivered = false)
    (hhost : hostGroup s x.blk = some (q, g)) (hg : mfind s.groups q = some g) (hstall : stallsNow s g = false)
    (hwait : trapWaits g.u = none) (hb : g.tr.bankS.active = false) (hs : noStall s)
    (hdest : dest = trapTo g s.idn.stvec tr.cause tr.addr) :
    EventDoes .streamTrapDelivery s [.trace, .clusters] [q] [p] (fun t =>
      (∃ y, mfind t.streams p = some y ∧ y = { x with trap := some { tr with delivered := true } }) ∧
      ∃ h, mfind t.groups q = some h ∧ h.live = g.live ∧
        (if dest.sys then h.tr.bankU = g.tr.bankU else h.tr.bankS = g.tr.bankS) ∧
        (if dest.sys then h.tr.bankS else h.tr.bankU) =
          { cause := trapCauseWord true dest.retry (g.tr.privMode || g.tr.bankS.active) dest.cause, pc := tr.pc, addr := dest.addr
            lane := trapLaneWord (coreOfG q) (partOfG q % 4) (slotOfG q) (lowest g.live)
            scr := (if dest.sys then g.tr.bankS else g.tr.bankU).scr, active := true } ∧
        ∀ l, l < 32 → inMask g.live l = true → mget 0 h.sched.pc l = dest.vec) := by
  subst hp
  have hset := within_stream (subjAt s 0) (fun _ => { x with trap := some { tr with delivered := true } }) [q] s
  have hexec := exec_streamTrapDelivery hx htr hd hhost hstall hwait hs
  rw [deliverTo, applyAll_seq] at hexec
  generalize hs1 : applyAll [.stream (subjAt s 0) { x with trap := some { tr with delivered := true } }] s = s1 at hset hexec
  have hg1 : mfind s1.groups q = some g := by rw [← hs1]; exact hg
  have hdest1 : dest = trapTo g s1.idn.stvec tr.cause tr.addr := by rw [← hs1]; exact hdest
  obtain ⟨⟨hsame, hgroups, hstreams⟩, hgroup⟩ := takeTrap_taken (strm := true) (lanes := g.live) (pc := tr.pc) (next := tr.next)
    (r := { cause := tr.cause, addr := tr.addr, lane := lowest g.live }) hg1 hb hdest1 rfl
  obtain ⟨hsame1, hgroups1, hstreams1⟩ := hset
  refine ⟨_, hexec, ⟨(hsame1.mono (by simp)).trans hsame, fun k hk => (hgroups k hk).trans (hgroups1 k hk),
    fun k hk => (hstreams k (by simp)).trans (hstreams1 k hk)⟩, ⟨_, (hstreams _ (by simp)).trans ?_, rfl⟩, hgroup⟩
  rw [← hs1]
  exact mfind_mput_same _ _ _

end Sys2Proof.Machine
end

section
/-! PROOFS. Pigeonholes that expire and the groups that come of them (O57: R120 to R122). -/

namespace Sys2Proof.Machine

/-! ## Pigeonholes that become pending -/

/-- One pigeonhole looked at: pending, under the next number, if it is open and passes the test. -/
def flushHole (test : Hole → Bool) (k : Core × Nat) (e : Nat × Hole) : Core × Nat :=
  if e.2.pending.isNone && test e.2 then ({ k.1 with holes := mput k.1.holes e.1 { e.2 with pending := some k.2 } }, k.2 + 1) else k

theorem flushHoles_eq (test : Hole → Bool) (k : Core × Nat) : flushHoles test k = k.1.holes.foldl (flushHole test) k := rfl

/-- A pigeonhole after one look at another. -/
theorem mfind_flushHole_other {test : Hole → Bool} {k : Core × Nat} {e : Nat × Hole} {n : Nat} (h : n ≠ e.1) :
    mfind (flushHole test k e).1.holes n = mfind k.1.holes n := by
  unfold flushHole
  split
  · exact mfind_mput_other _ _ _ _ h
  · rfl

/-- After a list of pigeonholes with distinct numbers has been looked at, a number holds a listed open one that passes the test,
now pending, or what it held before. -/
theorem mfind_foldl_flushHole (test : Hole → Bool) (l : Map Hole) (hl : sortedKeys l = true) (k : Core × Nat) (n : Nat) :
    (∃ e o, mfind l n = some e ∧ (e.pending.isNone && test e) = true ∧
      mfind (l.foldl (flushHole test) k).1.holes n = some { e with pending := some o }) ∨
    ((∀ e, mfind l n = some e → (e.pending.isNone && test e) = false) ∧
      mfind (l.foldl (flushHole test) k).1.holes n = mfind k.1.holes n) := by
  induction l generalizing k with
  | nil => exact .inr ⟨fun e he => by simp at he, rfl⟩
  | cons x l ih =>
    obtain ⟨m, y⟩ := x
    obtain ⟨hlt, hl⟩ := (sortedKeys_cons m y l).1 hl
    rw [List.foldl_cons, mfind_cons]
    by_cases hm : m = n
    · subst hm
      have hnone : mfind l m = none := Option.eq_none_iff_forall_not_mem.2 fun v hv => lt_irrefl m (hlt _ (mem_of_mfind hv))
      have hkeep := (ih hl (flushHole test k (m, y))).resolve_left fun ⟨e, o, he, _⟩ => by simp [hnone] at he
      rw [if_pos rfl, hkeep.2]
      by_cases hy : (y.pending.isNone && test y) = true
      · exact .inl ⟨y, k.2, rfl, hy, by rw [flushHole, if_pos hy]; exact mfind_mput_same _ _ _⟩
      · refine .inr ⟨fun e he => ?_, by rw [flushHole, if_neg hy]⟩
        cases he
        exact Bool.not_eq_true _ ▸ hy
    · rw [if_neg hm, ← mfind_flushHole_other (test := test) (k := k) (e := (m, y)) (Ne.symm hm)]
      exact ih hl _

/-- The pigeonholes are as before but for what is pending, and every expired one is. -/
def ExpiredPending (cyc : Nat) (old new : Map Hole) : Prop :=
  ∀ n, ((mfind new n).map (fun h => { h with pending := none })) = ((mfind old n).map (fun h => { h with pending := none })) ∧
    ∀ h, mfind new n = some h → h.expiry ≤ cyc → h.pending.isSome = true

theorem expiredPending_flushHoles {k : Core} (cyc next : Nat) (h : sortedKeys k.holes = true) :
    ExpiredPending cyc k.holes (flushHoles (fun h => decide (h.expiry ≤ cyc)) (k, next)).1.holes := fun n => by
  rw [flushHoles_eq]
  rcases mfind_foldl_flushHole (fun h => decide (h.expiry ≤ cyc)) k.holes h (k, next) n with ⟨e, o, he, -, hnew⟩ | ⟨hclosed, hnew⟩
  · rw [hnew, he]
    exact ⟨rfl, fun x hx _ => by cases hx; rfl⟩
  · rw [hnew]
    refine ⟨rfl, fun x hx hle => ?_⟩
    simpa [hle] using hclosed x hx

/-- With no open pigeonhole expired, every expired one is pending. -/
theorem expiredPending_of_none {s : State} {c : Nat} (h : holeExpired s c = false) :
    ExpiredPending s.clk.cyc (getCore s c).holes (getCore s c).holes := fun n => by
  refine ⟨rfl, fun x hx hle => ?_⟩
  have hclosed : (x.pending.isNone && decide (x.expiry ≤ s.clk.cyc)) = false := by
    simpa using (List.any_eq_false.1 h) _ (mem_of_mfind hx)
  simpa [hle] using hclosed

theorem pigeonholeExpiry_done {s : State} {c : Nat} (hc : c = subjAt s 0) (hsort : sortedKeys (getCore s c).holes = true) :
    EventDoes .pigeonholeExpiry s [.cores] [] [] (fun t => (∀ k, k ≠ c → getCore t k = getCore s k) ∧
      ∀ n, ((mfind (getCore t c).holes n).map (fun h => { h with pending := none })) =
          ((mfind (getCore s c).holes n).map (fun h => { h with pending := none })) ∧
        ∀ h, mfind (getCore t c).holes n = some h → h.expiry ≤ s.clk.cyc → h.pending.isSome = true) := by
  subst hc
  cases hexp : holeExpired s (subjAt s 0) with
  | true =>
    have hpending := expiredPending_flushHoles s.clk.cyc s.nextId hsort
    have hexec : exec .pigeonholeExpiry s = .next (applyAll
        [.core (subjAt s 0) (flushHoles (fun h => decide (h.expiry ≤ s.clk.cyc)) (getCore s (subjAt s 0), s.nextId)).1,
         .nextId (flushHoles (fun h => decide (h.expiry ≤ s.clk.cyc)) (getCore s (subjAt s 0), s.nextId)).2] s) := by
      simp only [exec, execPigeonholeExpiry, commit, hexp, Bool.not_true, Bool.false_eq_true, if_false]
    generalize flushHoles (fun h => decide (h.expiry ≤ s.clk.cyc)) (getCore s (subjAt s 0), s.nextId) = r at hexec hpending
    have hcore : ∀ k, getCore (applyAll [.core (subjAt s 0) r.1, .nextId r.2] s) k = if k = subjAt s 0 then r.1 else getCore s k :=
      fun k => getCore_core (subjAt s 0) k r.1 s
    refine eventDoes_of_framed (f := Eff.seq (fun _ => [.core (subjAt s 0) r.1]) (fun _ => [.nextId r.2]))
      ((framed_core _ _).seq ((framed_nextId _).mono (by simp))) hexec ⟨fun k hk => (hcore k).trans (if_neg hk), ?_⟩
    have hread := (hcore (subjAt s 0)).trans (if_pos rfl)
    rw [← hread] at hpending
    exact hpending
  | false =>
    refine ⟨s, ?_, EventKeeps.refl _ _ _ s, fun _ _ => rfl, expiredPending_of_none hexp⟩
    simp only [exec, execPigeonholeExpiry, commit, hexp, Bool.not_false, if_true]
    rfl

/-! ## The registers of spawned threads (R121, R122) -/

/-- A thread's registers laid into the rows of its lane, from a row on. -/
def layThread (lane row : Nat) (regs : List Word) (m : Map Word) : Map Word :=
  (regs.zipIdx row).foldl (fun m a => mset 0 m (32 * a.2 + lane) a.1) m

theorem mget_layThread_other {lane row key : Nat} {regs : List Word} {m : Map Word} (h : ∀ n, row ≤ n → key ≠ 32 * n + lane) :
    mget 0 (layThread lane row regs m) key = mget 0 m key := by
  induction regs generalizing row m with
  | nil => rfl
  | cons x regs ih =>
    refine (ih (row := row + 1) fun n hn => h n (by omega)).trans ?_
    rw [mget_mset, if_neg (h row le_rfl)]

theorem mget_layThread {lane row j : Nat} {regs : List Word} {m : Map Word} {a : Word} (h : regs[j]? = some a) :
    mget 0 (layThread lane row regs m) (32 * (row + j) + lane) = a := by
  induction regs generalizing row m j with
  | nil => simp at h
  | cons x regs ih =>
    cases j with
    | zero =>
      obtain rfl : x = a := by simpa using h
      refine (mget_layThread_other (row := row + 1) fun n hn => by omega).trans ?_
      simp [mget_mset]
    | succ j =>
      have := ih (row := row + 1) (m := mset 0 m (32 * row + lane) x) (j := j) (by simpa using h)
      rwa [show row + 1 + j = row + (j + 1) by omega] at this

/-- The threads' registers laid into the lanes from one on. -/
def layThreads (lane : Nat) (ts : List (List Word)) (m : Map Word) : Map Word :=
  (ts.zipIdx lane).foldl (fun m t => layThread t.2 0 t.1 m) m

theorem mget_layThreads_other {lane key : Nat} {ts : List (List Word)} {m : Map Word} (h : key % 32 < lane)
    (hlen : lane + ts.length ≤ 32) : mget 0 (layThreads lane ts m) key = mget 0 m key := by
  induction ts generalizing lane m with
  | nil => rfl
  | cons t ts ih =>
    simp only [List.length_cons] at hlen
    refine (ih (lane := lane + 1) (by omega) (by omega)).trans ?_
    exact mget_layThread_other fun n _ => by omega

theorem mget_layThreads {lane i j : Nat} {ts : List (List Word)} {m : Map Word} {a : Word} (hlen : lane + ts.length ≤ 32)
    (h : (ts[i]?).bind (·[j]?) = some a) : mget 0 (layThreads lane ts m) (32 * j + (lane + i)) = a := by
  induction ts generalizing lane m i with
  | nil => simp at h
  | cons t ts ih =>
    simp only [List.length_cons] at hlen
    cases i with
    | zero =>
      refine (mget_layThreads_other (lane := lane + 1) (by omega) (by omega)).trans ?_
      have := mget_layThread (lane := lane) (row := 0) (m := m) (show t[j]? = some a by simpa using h)
      simpa using this
    | succ i =>
      have := ih (lane := lane + 1) (m := layThread lane 0 t m) (i := i) (by omega) (by simpa using h)
      rwa [show lane + 1 + i = lane + (i + 1) by omega] at this

/-- The registers that a spawned group's threads begin with. -/
theorem getV_threadRegs {ts : List (List Word)} {i j : Nat} {a : Word} (hlen : ts.length ≤ 32)
    (h : (ts[i]?).bind (·[j]?) = some a) : getV (threadRegs ts).l j i = a := by
  have := mget_layThreads (lane := 0) (m := []) (by omega) h
  rwa [Nat.zero_add] at this

theorem mget_pcsAt {m : Word} {pc : DWord} {l : Nat} (h : inMask m l = true) : mget 0 (pcsAt m pc) l = pc := by
  have hl : l < 32 := BitVec.lt_of_getLsbD h
  rw [pcsAt, mget_foldl_mset, if_pos ((mem_lanesOf m l).2 ⟨hl, h⟩)]

/-! ## The placement of a pending group (R122) -/

/-- A spawned group as it starts: its threads are its live lanes, at the entry, with their registers and the kernel's formats. -/
def SpawnStarts (h : Hole) (l : Launch) (blk : Nat) (g : Group) : Prop :=
  g.blk = blk ∧ g.vector = true ∧ g.ending = false ∧ g.u.wait = none ∧ (∀ i, i < 32 → (inMask g.live i = true ↔ i < h.threads.length)) ∧
  (∀ i, inMask g.live i = true → mget 0 g.sched.pc i = h.entry) ∧ (∀ n, getKf g.u.regs.u n = mget kfReset l.fmts n) ∧
  ∀ i j a, i < 32 → j < 4 → ((h.threads[i]?).bind (·[j]?)) = some a → getV g.u.regs.l j i = a

theorem spawnStarts_newGroup (h : Hole) (l : Launch) (uid blk grans : Nat) (priv : Bool) (pbase : Nat) (hlen : h.threads.length ≤ 32) :
    SpawnStarts h l blk (newGroup uid blk true grans (maskOf (fun i => decide (i < h.threads.length)))
      (withFmts l (threadRegs h.threads)) h.entry priv pbase) := by
  refine ⟨rfl, rfl, rfl, rfl, fun i hi => ?_, fun i hi => mget_pcsAt hi, fun _ => rfl, fun i j a _ _ ha => getV_threadRegs hlen ha⟩
  show inMask (maskOf _) i = true ↔ _
  rw [inMask_maskOf _ i hi, decide_eq_true_iff]

theorem placeSpawned_eq {s : State} {c n : Nat} {h : Hole} {l : Launch} {p : Nat} {areas : List (Nat × Nat)}
    (hw : spawnWhere s c = some (n, h, l, p, areas)) (hlen : h.threads.length ≤ 32) :
    ∃ b g, placeSpawned c s = [.core c { getCore s c with holes := mdel (getCore s c).holes n }, .block s.nextId b,
        .group (16 * (4 * c + p) + (freeSlots s (4 * c + p)).headD 0) g, .nextId (s.nextId + 2), .fresh (s.fresh + 1)] ∧
      (b.launch = h.launch ∧ b.core = c ∧ b.part = p ∧ b.spawned = true ∧ b.spSize = 0) ∧ SpawnStarts h l s.nextId g := by
  simp only [placeSpawned, hw]
  exact ⟨_, _, rfl, ⟨rfl, rfl, rfl, rfl, rfl⟩, spawnStarts_newGroup h l _ _ _ _ _ hlen⟩

/-- The state in which a spawned group stands as a block of its own. -/
theorem applyAll_placed (c : Nat) (k : Core) (blk : Nat) (b : Block) (place : Nat) (g : Group) (next fresh : Nat) (s : State) {t : State}
    (ht : t = applyAll [.core c k, .block blk b, .group place g, .nextId next, .fresh fresh] s) :
    EventKeeps [.cores, .blocks] [place] [] s t ∧ getCore t c = k ∧ mfind t.blocks blk = some b ∧ mfind t.groups place = some g := by
  subst ht
  have hparts : Framed [.cores, .blocks] (Eff.seq (fun _ => [.core c k]) (fun _ => [.block blk b])) :=
    ((framed_core _ _).mono (by simp)).seq ((framed_block _ _).mono (by simp))
  have hrest : Framed [.cores, .blocks] (Eff.seq (fun _ => [.nextId next]) (fun _ => [.fresh fresh])) :=
    ((framed_nextId _).seq (framed_fresh _)).mono (by simp)
  have hkeeps := ((hparts.within [place] []).seq (((within_group place (fun _ => g) []).mono (by simp)).seq (hrest.within _ _))) s
  exact ⟨hkeeps, by simp [getCore, mget_mput], by simp, by simp⟩

theorem pendingGroupPlacement_done {s : State} {c n : Nat} {h : Hole} {l : Launch} {p : Nat} {areas : List (Nat × Nat)}
    (hc : c = subjAt s 0) (hw : spawnWhere s c = some (n, h, l, p, areas)) (hlen : h.threads.length ≤ 32) :
    EventDoes .pendingGroupPlacement s [.cores, .blocks] [16 * (4 * c + p) + (freeSlots s (4 * c + p)).headD 0] [] (fun t =>
      mfind (getCore t c).holes n = none ∧
      (∃ b, mfind t.blocks s.nextId = some b ∧ b.launch = h.launch ∧ b.core = c ∧ b.part = p ∧ b.spawned = true ∧ b.spSize = 0) ∧
      ∃ g, mfind t.groups (16 * (4 * c + p) + (freeSlots s (4 * c + p)).headD 0) = some g ∧ g.blk = s.nextId ∧
        g.vector = true ∧ g.ending = false ∧ g.u.wait = none ∧ (∀ i, i < 32 → (inMask g.live i = true ↔ i < h.threads.length)) ∧
        (∀ i, inMask g.live i = true → mget 0 g.sched.pc i = h.entry) ∧
        (∀ n, getKf g.u.regs.u n = mget kfReset l.fmts n) ∧
        ∀ i j a, i < 32 → j < 4 → ((h.threads[i]?).bind (·[j]?)) = some a → getV g.u.regs.l j i = a) := by
  subst hc
  obtain ⟨b, g, heq, hblock, hgroup⟩ := placeSpawned_eq hw hlen
  have hexec : exec .pendingGroupPlacement s = .next (applyAll (placeSpawned (subjAt s 0) s) s) := rfl
  rw [heq] at hexec
  generalize subjAt s 0 = c at *
  generalize 16 * (4 * c + p) + (freeSlots s (4 * c + p)).headD 0 = place at *
  obtain ⟨hkeeps, hcore, hblocks, hgroups⟩ := applyAll_placed c { getCore s c with holes := mdel (getCore s c).holes n } s.nextId b place g
    (s.nextId + 2) (s.fresh + 1) s rfl
  exact ⟨_, hexec, hkeeps, by rw [hcore]; exact mfind_mdel_same _ _, ⟨b, hblocks, hblock⟩, g, hgroups, hgroup⟩

end Sys2Proof.Machine
end

section
/-! PROOFS. What the engines of a block change as they are cancelled (O57: R225, R228, R247, R285). -/

namespace Sys2Proof.Machine

/-! ## Updates of one state -/

/-- Updates that in a state change only the parts listed, and no group or stream. -/
def FramedAt (xs : List Comp) (s : State) (us : List Upd) : Prop :=
  Same xs s (applyAll us s) ∧ (applyAll us s).groups = s.groups ∧ (applyAll us s).streams = s.streams

theorem Framed.at {xs : List Comp} {f : Eff} (h : Framed xs f) (s : State) : FramedAt xs s (f s) := ⟨h.same s, h.groups s, h.streams s⟩

theorem framed_of_at {xs : List Comp} {f : Eff} (h : ∀ s, FramedAt xs s (f s)) : Framed xs f :=
  ⟨fun s => (h s).1, fun s => (h s).2.1, fun s => (h s).2.2⟩

theorem framedAt_nil (xs : List Comp) (s : State) : FramedAt xs s [] := ⟨Same.refl xs s, rfl, rfl⟩

theorem FramedAt.append {xs : List Comp} {s : State} {us vs : List Upd} (h : FramedAt xs s us) (k : FramedAt xs (applyAll us s) vs) :
    FramedAt xs s (us ++ vs) := by
  obtain ⟨hsame, hgroups, hstreams⟩ := h
  obtain ⟨ksame, kgroups, kstreams⟩ := k
  rw [FramedAt, applyAll_append]
  exact ⟨hsame.trans ksame, kgroups.trans hgroups, kstreams.trans hstreams⟩

/-- Updates of a state, then an operation with a frame. -/
theorem FramedAt.then {xs : List Comp} {s : State} {us : List Upd} {f : Eff} (h : FramedAt xs s us) (hf : Framed xs f) :
    FramedAt xs s (Eff.seq (fun _ => us) f s) := h.append (hf.at _)

/-- A list of updates, each with the frame. -/
theorem framed_updates {xs : List Comp} (g : State → List Upd) (h : ∀ s, ∀ u ∈ g s, Framed xs (fun _ => [u])) : Framed xs g := by
  refine framed_of_at fun s => ?_
  have key : ∀ us : List Upd, (∀ u ∈ us, Framed xs (fun _ => [u])) → ∀ t, FramedAt xs t us := by
    intro us
    induction us with
    | nil => exact fun _ t => framedAt_nil xs t
    | cons u us ih =>
      exact fun hu t => ((hu u List.mem_cons_self).at t).append (vs := us) (ih (fun v hv => hu v (List.mem_cons_of_mem _ hv)) _)
  exact key _ (h s) s

/-! ## Translation for an engine (R285) -/

/-- What an engine's translation changes: TLBs, merge tables, the fault unit. -/
abbrev translParts : List Comp := [.cores, .clusters, .faults]

theorem framed_clusterFault (cl : Nat) (x : Cluster) (b : Bool) (f : FaultUnit) :
    Framed translParts (fun _ => .cluster cl x :: (if b then [.faults f] else [])) := by
  cases b with
  | false => exact (framed_cluster _ _).mono (by simp)
  | true => exact ((framed_cluster (fun _ => cl) (fun _ => x)).mono (by simp)).seq ((framed_faults (fun _ => f)).mono (by simp))

theorem framed_mergeOpen (w : Who) (a : Acc) (va lane : Nat) (cause : Option Nat) : Framed translParts (mergeOpen w a va lane cause) :=
  framed_of fun s => by
    unfold mergeOpen
    exact ⟨fun _ => _, rfl, framed_clusterFault _ _ _ _⟩

theorem framed_countMig (w : Who) (a : Acc) (e : TlbE) (va : Nat) : Framed translParts (countMig w a e va) := framed_of fun s => by
  unfold countMig
  dsimp only
  split
  · exact ⟨Eff.nop, rfl, framed_nop _⟩
  · split
    · exact ⟨Eff.nop, rfl, framed_nop _⟩
    · exact ⟨_, rfl, framed_clusterFault _ _ _ _⟩

theorem framed_countWalk (frank : Nat) (tctx : DWord) (va : Nat) : Framed [] (countWalk frank tctx va) :=
  framed_of fun s => by
    unfold countWalk
    exact ⟨_, rfl, framed_forEach _ _ fun _ _ => framed_countRead _ _ _⟩

theorem framed_tlbFillL1 (core : Nat) (e : TlbE) : Framed [.cores] (tlbFillL1 core e) := framed_of fun s => by
  unfold tlbFillL1
  split
  · exact ⟨Eff.nop, rfl, framed_nop _⟩
  · exact ⟨fun _ => _, rfl, framed_core _ _⟩

theorem framed_tlbFillL2 (cl : Nat) (e : TlbE) : Framed [.clusters] (tlbFillL2 cl e) := framed_cluster _ _

/-- What comes of an engine's access changes only what translation may. -/
def ERes.Framed : ERes → Prop
  | .ok _ eff => Machine.Framed translParts eff
  | .fails _ eff => Machine.Framed translParts eff
  | .waits => True

/-- The fault of an engine's access (R285): it meets the page's entry, waits for the table, or opens the entry. -/
def engineFault (s : State) (w : Who) (a : Acc) (va cause : Nat) : ERes :=
  match mergeFind s (clusterOf w.core) w.asid (pageOf va) with
  | some m => if m.cause.isSome then .fails cause Eff.nop else .waits
  | none => if mergeFull s (clusterOf w.core) then .waits else .fails cause (mergeOpen w a va 255 (some cause))

theorem framed_engineFault (s : State) (w : Who) (a : Acc) (va cause : Nat) : (engineFault s w a va cause).Framed := by
  unfold engineFault
  split
  · split
    · exact framed_nop _
    · trivial
  · split
    · trivial
    · exact framed_mergeOpen _ _ _ _ _

/-- What a walk that an engine makes fills and counts. -/
theorem framed_engineFill (w : Who) (a : Acc) (va : Nat) (e : TlbE) : Framed translParts
    (Eff.all [countWalk w.frank w.tctx va, tlbFillL2 (clusterOf w.core) e, tlbFillL1 w.core e, countMig w a e va]) := by
  refine framed_all _ fun f hf => ?_
  simp only [List.mem_cons, List.not_mem_nil, or_false] at hf
  rcases hf with rfl | rfl | rfl | rfl
  · exact (framed_countWalk _ _ _).mono (by simp)
  · exact (framed_tlbFillL2 _ _).mono (by simp)
  · exact (framed_tlbFillL1 _ _).mono (by simp)
  · exact framed_countMig _ _ _ _

theorem framed_engineTranslate (s : State) (w : Who) (a : Acc) (va : Nat) : (engineTranslate s w a va).Framed := by
  have hfault := framed_engineFault s w a va
  unfold engineTranslate
  dsimp only
  cases tlbFind s w.core w.asid va with
  | some e =>
    dsimp only
    cases denyCause s e a w.user with
    | none => exact framed_countMig _ _ _ _
    | some cause => exact hfault cause
  | none =>
    dsimp only
    cases hm : mergeFind s (clusterOf w.core) w.asid (pageOf va) with
    | some m =>
      dsimp only
      cases m.cause with
      | some cause => exact framed_nop _
      | none => trivial
    | none =>
      simp only [engineFault, hm] at hfault
      dsimp only
      split
      · trivial
      · next hroom =>
        simp only [hroom] at hfault ⊢
        split
        · split
          · exact hfault 8
          · exact framed_engineFill _ _ _ _
        · exact hfault _

/-! ## One access of a courier (R222, R228) -/

/-- What a courier's accesses change besides the scratchpad. -/
abbrev courierParts : List Comp := [.mem, .coh, .cores, .clusters, .faults]

theorem framed_extendMask (core line : Nat) (as : List Nat) : Framed [.coh] (extendMask core line as) := framed_of fun s => by
  unfold extendMask
  dsimp only
  split
  · exact ⟨Eff.nop, rfl, framed_nop _⟩
  · split
    · exact ⟨Eff.nop, rfl, framed_nop _⟩
    · exact ⟨fun _ => _, rfl, framed_coh _⟩

theorem framed_mergeFor (core a n : Nat) : Framed homeParts (mergeFor core a n) := framed_of fun s => by
  unfold mergeFor
  refine ⟨_, rfl, framed_forEach _ _ fun l _ => framed_of fun t => ?_⟩
  split
  · exact ⟨_, rfl, framed_mergeLine _⟩
  · exact ⟨_, rfl, (framed_extendMask _ _ _).mono (by simp)⟩

theorem framed_mergeRuns (core : Nat) (rs : List (Nat × Nat × Bool)) : Framed homeParts (mergeRuns core rs) :=
  framed_forEach _ _ fun _ _ => framed_mergeFor _ _ _

/-- A courier's access changes only what translation may, if it makes one. -/
def reachFramed : ERes ⊕ Unit → Prop
  | .inl r => r.Framed
  | .inr _ => True

theorem framed_courierReach (s : State) (w : Who) (a : Acc) (addr n : Nat) : reachFramed (courierReach s w a addr n) := by
  unfold courierReach
  split
  · exact framed_nop _
  · split
    · split
      · exact framed_nop _
      · exact framed_nop _
    · split
      · trivial
      · exact framed_engineTranslate _ _ _ _

theorem framedAt_courierRead {s : State} {w : Who} {addr n : Nat} {us : List Upd} {r : Nat ⊕ Nat}
    (h : courierRead s w addr n = some (us, r)) : FramedAt courierParts s us := by
  have hreach := framed_courierReach s w .cread addr n
  unfold courierRead at h
  cases hr : courierReach s w .cread addr n with
  | inr u =>
    simp only [hr, Option.some.injEq, Prod.mk.injEq] at h
    exact h.1 ▸ framedAt_nil _ s
  | inl e =>
    rw [hr] at hreach
    cases e with
    | waits => simp [hr] at h
    | fails c eff =>
      simp only [hr, Option.some.injEq, Prod.mk.injEq] at h
      exact h.1 ▸ (Framed.mono hreach (by simp)).at s
    | ok p eff =>
      have hread : Framed courierParts (Eff.seq eff (Eff.seq (mergeRuns w.core (physRuns s [{ place := p, len := n }]))
          (Eff.forEach (physRuns s [{ place := p, len := n }]) (fun r => countRead w.frank r.1 n)))) :=
        (Framed.mono hreach (by simp)).seq (((framed_mergeRuns _ _).mono (by simp)).seq
          ((framed_forEach _ _ fun _ _ => framed_countRead _ _ _).mono (by simp)))
      have hus : us = Eff.seq eff (Eff.seq (mergeRuns w.core (physRuns s [{ place := p, len := n }]))
          (Eff.forEach (physRuns s [{ place := p, len := n }]) (fun r => countRead w.frank r.1 n))) s := by
        simp only [hr] at h
        split at h
        · cases h
        · split at h
          · cases h; rfl
          · split at h
            · cases h; rfl
            · cases h; rfl
      exact hus ▸ hread.at s

theorem framedAt_readsOf {w : Who} {rs : List (Nat × Nat)} {s : State} {us : List Upd} {v : List Nat ⊕ Nat}
    (h : readsOf w rs s = some (us, v)) : FramedAt courierParts s us := by
  induction rs generalizing s us v with
  | nil =>
    cases h
    exact framedAt_nil _ s
  | cons r rs ih =>
    unfold readsOf at h
    split at h
    · cases h
    · next hr =>
      cases h
      exact framedAt_courierRead hr
    · next hr =>
      split at h
      · cases h
      · next hrs =>
        cases h
        exact (framedAt_courierRead hr).append (ih hrs)
      · next hrs =>
        cases h
        exact (framedAt_courierRead hr).append (ih hrs)

/-! ## Copies that are cancelled (R225, R247, R248) -/

/-- What a copy changes of the package. -/
abbrev copyParts : List Comp := [.mem, .coh, .cores, .clusters, .faults, .spad]

theorem FramedAt.mono {xs ys : List Comp} {s : State} {us : List Upd} (h : FramedAt xs s us) (hxy : ∀ x ∈ xs, x ∈ ys) : FramedAt ys s us :=
  ⟨h.1.mono hxy, h.2⟩

theorem framedAt_unitStep {k : Writer} {w : Who} {x : Win} {base : Nat} {u : CUnit} {s : State} {us : List Upd} {c : Option Nat}
    (h : unitStep k w x base false u s = some (us, c)) : FramedAt copyParts s us := by
  simp only [unitStep, Bool.false_eq_true, if_false] at h
  split at h
  · cases h
  · next hr =>
    cases h
    exact (framedAt_readsOf hr).mono (by simp)
  · next hr =>
    cases h
    exact ((framedAt_readsOf hr).mono (by simp)).then (f := fun _ => [.spad _]) ((framed_spad _).mono (by simp))

theorem framedAt_copyUnits {k : Writer} {w : Who} {x : Win} {base : Nat} {l : List CUnit} {s : State} {e : CopyEnd}
    (h : copyUnits k w x base false l s = some e) : FramedAt copyParts s e.us := by
  induction l generalizing s e with
  | nil =>
    cases h
    exact framedAt_nil _ s
  | cons u l ih =>
    unfold copyUnits at h
    split at h
    · cases h
    · next hu =>
      cases h
      exact framedAt_unitStep hu
    · next hu =>
      split at h
      · cases h
      · next hl =>
        cases h
        exact (framedAt_unitStep hu).append (ih hl)

theorem framed_unitWrite (frank : Nat) (p : Place) (bs : List Byte) : Framed homeParts (unitWrite frank p bs) := by
  cases p with
  | phys a nc => exact framed_unitCells _ _
  | repl r reps off => exact ((framed_replOrder _ _ _).mono (by simp)).seq ((framed_countRepl _ _ _ _).mono (by simp))
  | spad c o => exact framed_nop _
  | counter r b => exact framed_nop _

theorem framed_outFinish (w : Who) (r : Nat × OutW) : Framed homeParts (outFinish w r) := framed_of fun s => by
  unfold outFinish
  split
  · exact ⟨_, rfl, framed_unitWrite _ _ _⟩
  · exact ⟨Eff.nop, rfl, framed_nop _⟩

theorem framedAt_cancelledAt (s : State) (blk : Nat) (b : Block) (w : Nat) : FramedAt copyParts s (cancelledAt s blk b w).us := by
  unfold cancelledAt
  dsimp only
  split
  · exact framedAt_nil _ s
  · split
    · exact ((framed_forEach _ _ fun _ _ => framed_outFinish _ _).at s).mono (by simp)
    · split
      · next e h => exact framedAt_copyUnits (e := e) h
      · exact framedAt_nil _ s

/-- What the windows of a block change of the package as they are cancelled. -/
abbrev cancelParts : List Comp := [.mem, .spad, .blocks, .trace, .clusters, .coh, .cores, .faults]

theorem framed_setWin (blk w : Nat) (x : Win) : Framed [.blocks] (setWin blk w x) := framed_of fun s => by
  unfold setWin
  split
  · exact ⟨fun _ => _, rfl, framed_block _ _⟩
  · exact ⟨Eff.nop, rfl, framed_nop _⟩

theorem framed_unbindWin (blk w : Nat) : Framed [.blocks] (unbindWin blk w) := framed_of fun s => by
  unfold unbindWin
  split
  · exact ⟨_, rfl, framed_setWin _ _ _⟩
  · exact ⟨Eff.nop, rfl, framed_nop _⟩

theorem framed_dropCopy (core blk w : Nat) : Framed [.cores] (dropCopy core blk w) := framed_core _ _

theorem framed_copyCard (blk : Nat) (b : Block) (courier w : Nat) (j : CopyJob) (event payload : Nat) (p1 : DWord) :
    Framed [.trace, .clusters] (copyCard blk b courier w j event payload p1) := framed_of fun s => by
  unfold copyCard
  exact ⟨_, rfl, framed_emit _ _ _ _ _ _ _⟩

theorem framed_writePostmark (b : Block) (x : Win) (v : DWord) : Framed [.spad] (writePostmark b x v) := framed_spad _

/-- What a cancelled copy has moved, then the rest of its cancellation. -/
theorem framedAt_cancel {s : State} {blk : Nat} {b : Block} {w : Nat} {rest : List Eff} (h : ∀ f ∈ rest, Framed cancelParts f) :
    FramedAt cancelParts s (Eff.all ((fun s => (cancelledAt s blk b w).us) :: rest) s) :=
  ((framedAt_cancelledAt s blk b w).mono (by simp)).append ((framed_all rest h).at _)

theorem framed_cancelCopy (blk w : Nat) : Framed cancelParts (cancelCopy blk w) := framed_of_at fun s => by
  unfold cancelCopy
  split
  · exact framedAt_nil _ s
  · refine framedAt_cancel fun f hf => ?_
    simp only [List.mem_cons, List.not_mem_nil, or_false] at hf
    rcases hf with rfl | rfl | rfl | rfl
    · exact (framed_fresh _).mono (by simp)
    · exact (framed_dropCopy _ _ _).mono (by simp)
    · exact (framed_writePostmark _ _ _).mono (by simp)
    · split
      · exact (framed_copyCard _ _ _ _ _ _ _ _).mono (by simp)
      · exact framed_nop _

theorem framed_cancelRunahead (blk w : Nat) : Framed cancelParts (cancelRunahead blk w) := framed_of_at fun s => by
  unfold cancelRunahead
  split
  · exact framedAt_nil _ s
  · refine framedAt_cancel fun f hf => ?_
    simp only [List.mem_cons, List.not_mem_nil, or_false] at hf
    rcases hf with rfl | rfl
    · exact (framed_fresh _).mono (by simp)
    · exact (framed_dropCopy _ _ _).mono (by simp)

theorem framed_cancelCopies (blk : Nat) (out : Bool) : Framed cancelParts (cancelCopies blk out) := framed_of fun s => by
  have hcopy : ∀ n, Framed cancelParts (Eff.seq (cancelCopy blk n) (unbindWin blk n)) := fun n =>
    (framed_cancelCopy _ _).seq ((framed_unbindWin _ _).mono (by simp))
  unfold cancelCopies
  split
  · exact ⟨Eff.nop, rfl, framed_nop _⟩
  · refine ⟨_, rfl, framed_forEach _ _ fun e _ => ?_⟩
    split
    · exact hcopy _
    · exact (framed_cancelRunahead _ _).seq ((framed_unbindWin _ _).mono (by simp))
    · split
      · exact hcopy _
      · exact framed_nop _
    · exact framed_nop _

end Sys2Proof.Machine
end

section
/-! PROOFS. Ends of groups and streams, and the events of agents together (O57: R124, R198, R247, R334). -/

namespace Sys2Proof.Machine

/-! ## Ends of parties (R334) and of blocks (R247) -/

theorem framed_partyEnd (blk party core part slot : Nat) (live : Word) :
    Framed [.blocks, .bars, .trace, .clusters] (partyEnd blk party core part slot live) := framed_of fun s => by
  unfold partyEnd
  refine ⟨_, rfl, framed_forEach _ _ fun key _ => framed_of fun t => ?_⟩
  dsimp only
  exact ⟨_, rfl, (((framed_barchk _ _ _ _ _ _ _ _ _ _).when _).mono (by simp)).seq ((framed_setBar _ _ _).mono (by simp))⟩

theorem framed_closeMerges (blk : Nat) : Framed [.clusters] (closeMerges blk) := framed_updates _ fun s u hu => by
  obtain ⟨e, -, rfl⟩ := List.mem_map.1 hu
  exact framed_cluster (fun _ => _) (fun _ => _)

theorem framed_delBlock (blk : Nat) : Framed [.blocks] (fun _ => [.delBlock blk]) := by
  refine ⟨fun s x hx => ?_, fun _ => rfl, fun _ => rfl⟩
  cases x with
  | blocks => exact absurd (by simp) hx
  | _ => rfl

theorem framed_reclaim (blk : Nat) : Framed cancelParts (reclaim blk) := framed_of fun s => by
  unfold reclaim
  split
  · exact ⟨Eff.nop, rfl, framed_nop _⟩
  · split
    · exact ⟨Eff.nop, rfl, framed_nop _⟩
    · refine ⟨_, rfl, framed_all _ fun f hf => ?_⟩
      simp only [List.mem_cons, List.not_mem_nil, or_false] at hf
      rcases hf with rfl | rfl | rfl
      · exact framed_cancelCopies _ _
      · exact (framed_closeMerges _).mono (by simp)
      · refine framed_of fun t => ?_
        split
        · split
          · exact ⟨Eff.nop, rfl, framed_nop _⟩
          · exact ⟨_, rfl, (framed_delBlock blk).mono (by simp)⟩
        · exact ⟨Eff.nop, rfl, framed_nop _⟩

/-! ## Groups and streams that leave (R124, R198) -/

/-- What an end of a group or a stream changes of the package. -/
abbrev endParts : List Comp := [.mem, .spad, .blocks, .bars, .trace, .clusters, .coh, .cores, .faults]

theorem within_delGroup (p : Nat) : Within [] [p] [] (fun _ => [.delGroup p]) := fun s => by
  refine ⟨fun x _ => ?_, fun q hq => mfind_mdel_other _ _ _ (by simpa using hq), fun _ _ => rfl⟩
  cases x <;> rfl

theorem within_delStream (p : Nat) : Within [] [] [p] (fun _ => [.delStream p]) := fun s => by
  refine ⟨fun x _ => ?_, fun _ _ => rfl, fun q hq => mfind_mdel_other _ _ _ (by simpa using hq)⟩
  cases x <;> rfl

theorem applyAll_all_snoc (a b c d : Eff) (s : State) : applyAll (Eff.all [a, b, c, d] s) s = applyAll (Eff.seq (Eff.all [a, b, c]) d s) s := by
  simp only [applyAll_all_cons, applyAll_all_nil, applyAll_seq]

/-- A group leaves its barriers, its memory and its watches, then its place. -/
theorem applyAll_removeGroup {s : State} {p : Nat} {g : Group} (hg : mfind s.groups p = some g) :
    ∃ f, Framed endParts f ∧ applyAll (removeGroup p s) s = applyAll (Eff.seq f (fun _ => [.delGroup p]) s) s := by
  unfold removeGroup
  simp only [hg]
  refine ⟨_, framed_all _ fun f hf => ?_, applyAll_all_snoc _ _ _ _ s⟩
  simp only [List.mem_cons, List.not_mem_nil, or_false] at hf
  rcases hf with rfl | rfl | rfl
  · exact (framed_partyEnd _ _ _ _ _ _).mono (by simp)
  · refine framed_of fun t => ?_
    split
    · exact ⟨fun _ => _, rfl, (framed_block _ _).mono (by simp)⟩
    · exact ⟨Eff.nop, rfl, framed_nop _⟩
  · refine framed_of fun t => ?_
    split
    · exact ⟨fun _ => _, rfl, (framed_coh _).mono (by simp)⟩
    · exact ⟨Eff.nop, rfl, framed_nop _⟩

/-- A stream leaves its barriers, then its place. -/
theorem removeStream_eq {s : State} {p : Nat} {x : Stream} (hx : mfind s.streams p = some x) :
    ∃ f, Framed endParts f ∧ removeStream p s = Eff.seq f (fun _ => [.delStream p]) s := by
  unfold removeStream
  simp only [hx]
  exact ⟨_, (framed_partyEnd _ _ _ _ _ _).mono (by simp), rfl⟩

theorem groupEnd_done {s : State} {p : Nat} {g : Group} (hp : p = subjAt s 0) (hg : mfind s.groups p = some g)
    (hdone : groupDone g = true) (hs : noStall s) :
    EventDoes .groupEnd s [.mem, .spad, .blocks, .bars, .trace, .clusters, .coh, .cores, .faults] [p] [] (fun t =>
      mfind t.groups p = none) := by
  subst hp
  obtain ⟨leave, hleave, hremove⟩ := applyAll_removeGroup hg
  have hreclaim : Framed endParts (reclaim g.blk) := (framed_reclaim _).mono (by simp)
  have hexec : exec .groupEnd s = .next (applyAll (Eff.opt (groupEnds s (subjAt s 0)) s) s) := rfl
  simp only [groupEnds, hg, hdone, if_true, cardPoint_of_noStall hs, Eff.opt, seq_unhold_of_noStall hs] at hexec
  rw [applyAll_seq, hremove, ← applyAll_seq] at hexec
  have hbounds := ((hleave.within _ _).seq ((within_delGroup (subjAt s 0)).mono (by simp))).seq (hreclaim.within [subjAt s 0] [])
  refine ⟨_, hexec, hbounds s, ?_⟩
  simp only [applyAll_seq, hreclaim.groups]
  exact mfind_mdel_same _ _

theorem streamEnd_done {s : State} {p : Nat} {x : Stream} (hp : p = subjAt s 0) (hx : mfind s.streams p = some x)
    (hdone : streamDone x = true) (hs : noStall s) :
    EventDoes .streamEnd s [.mem, .spad, .blocks, .bars, .trace, .clusters, .coh, .cores, .faults] [] [p] (fun t =>
      mfind t.streams p = none) := by
  subst hp
  obtain ⟨leave, hleave, hremove⟩ := removeStream_eq hx
  have hreclaim : Framed endParts (reclaim x.blk) := (framed_reclaim _).mono (by simp)
  have hexec : exec .streamEnd s = .next (applyAll (Eff.opt (streamEnds s (subjAt s 0)) s) s) := rfl
  simp only [streamEnds, hx, hdone, if_true, cardPoint_of_noStall hs, Eff.opt, seq_unhold_of_noStall hs] at hexec
  rw [applyAll_seq, hremove, ← applyAll_seq] at hexec
  have hbounds := ((hleave.within _ _).seq ((within_delStream (subjAt s 0)).mono (by simp))).seq (hreclaim.within [] [subjAt s 0])
  refine ⟨_, hexec, hbounds s, ?_⟩
  simp only [applyAll_seq, hreclaim.streams]
  exact mfind_mdel_same _ _

/-! ## The settlement -/

/-- Settles O57: each event is an operation with a frame on the agent that it names, whose effect its lemma states; those with a card
happen at their card-emission point, where no engine stalls. -/
theorem agentEvents : Obligations.AgentEvents := by
  unfold Obligations.AgentEvents
  refine ⟨⟨?_, ?_, ?_, ?_⟩, ⟨?_, ?_, ?_, ?_, ?_⟩, ?_, ?_, ?_, ?_, ?_⟩
  · exact fun s p g hp hg => pathAgeLimit_done hp hg
  · exact fun s p g q hp hg hq => holdCountLimit_done hp hg hq
  · exact fun s p g q hp hg hq => convergenceRelease_done hp hg hq
  · exact fun s p g hp hg => rejoinRelease_done hp hg
  · exact fun s a u ha hu hmark hland => markerRelease_done ha hu hmark hland
  · exact fun s a u ha hu hland => resultLanding_done ha hu hland
  · exact fun s p x b o tile oty kc m hp hx hk hb hm hgone hready => completionLanding_done hp hx hk hb hm hgone hready
  · exact fun s a x q r ha hx hnow hq => ringPutRecord_done ha hx hnow hq
  · exact fun s a x q key rel live ha hx hq hk hb hs => arrivalRecord_done ha hx hq hk hb hs
  · exact fun s c hc hsort => pigeonholeExpiry_done hc hsort
  · exact fun s c n h l p areas hc hw hlen => pendingGroupPlacement_done hc hw hlen
  · exact fun s p g hp hg hdone hs => groupEnd_done hp hg hdone hs
  · exact fun s p x hp hx hdone hs => streamEnd_done hp hx hdone hs
  · exact fun s p x tr q g dest hp hx htr hd hhost hg hstall hwait hb hs hdest =>
      streamTrapDelivery_done hp hx htr hd hhost hg hstall hwait hb hs hdest

end Sys2Proof.Machine
end

section
/-! PROOFS. The packing conversions, the collectives and the reads of addresses and tiles (O5, O24). -/

namespace Sys2Proof.Machine

/-! ## Packing through a format register (R70, R88, R92) -/

/-- A write of a format register leaves the other uniform files. -/
theorem setKf_keeps (u : UFile) (n : Nat) (v : DWord) :
    (∀ k, getK (setKf u n v) k = getK u k) ∧ (setKf u n v).kp = u.kp ∧ (setKf u n v).lc = u.lc ∧ (setKf u n v).lm = u.lm ∧
      (setKf u n v).kc = u.kc :=
  ⟨fun _ => rfl, rfl, rfl, rfl, rfl⟩

/-- The seed's step after a lane result: the format registers are those before the result but for the one that steps, and no other
register changes. -/
theorem stepSeed_after_lanes {t : Ty} {d : Dst} {y : Bool} {a : Word} {f : Nat → Nat} {r m : Regs} (h : LaneWritten t d y a f r m)
    (n : Nat) :
    (stepSeed n m).l = m.l ∧
      (∀ k, getKf (stepSeed n m).u k =
        if k = n ∧ (xfmtOf (getKf r.u k)).rnd = 4 then advanceSeed (getKf r.u k) else getKf r.u k) ∧
      (∀ k, getK (stepSeed n m).u k = getK r.u k) ∧ (stepSeed n m).u.kp = r.u.kp ∧ (stepSeed n m).u.lc = r.u.lc ∧
      (stepSeed n m).u.lm = r.u.lm ∧ (stepSeed n m).u.kc = r.u.kc := by
  rw [← h.u]
  unfold stepSeed
  by_cases hrnd : (xfmtOf (getKf m.u n)).rnd = 4
  · rw [if_pos hrnd]
    refine ⟨rfl, fun k => ?_, setKf_keeps _ _ _⟩
    rw [getKf_setKf]
    by_cases hk : k = n
    · subst hk; simp [hrnd]
    · simp [hk]
  · rw [if_neg hrnd]
    refine ⟨rfl, fun k => ?_, fun _ => rfl, rfl, rfl, rfl, rfl⟩
    rw [if_neg]
    rintro ⟨rfl, hk⟩
    exact hrnd hk

/-- Settles O5: both forms answer the shared shape of a packing conversion, a lane result and then the seed's step. -/
theorem packingForms : Obligations.PackingForms := by
  unfold Obligations.PackingForms
  intro i s c w f h hr
  cases i with
  | cvtxPack _ | qblk _ =>
    cases hr
    exact completes_of_regs h rfl rfl rfl rfl fun r =>
      have hm := laneWritten_putLanes .n32 w.d true (c.active w.g w.gn) _ r
      ⟨_, hm, stepSeed_after_lanes hm _⟩
  | _ => cases hr

/-! ## The combining order (R84) -/

@[simp] theorem length_reduxLevel (f : Nat → Nat → Nat) (d : Nat) (xs : List Nat) : (reduxLevel f d xs).length = xs.length := by
  simp [reduxLevel]

theorem getD_reduxLevel (f : Nat → Nat → Nat) (d : Nat) {xs : List Nat} {l : Nat} (hl : l < xs.length) :
    (reduxLevel f d xs).getD l 0 = if l < d then xs.getD l 0 else f (xs.getD (l - d) 0) (xs.getD l 0) := by
  simp [reduxLevel, List.getD_eq_getElem?_getD, hl]

/-- After its first n levels, of distance 1, 2, 4 and so on, the tree holds at each position what its definition gives. -/
theorem getD_levels (f : Nat → Nat → Nat) (xs : List Nat) (n : Nat) :
    (((List.range n).map (2 ^ ·)).foldl (fun xs d => reduxLevel f d xs) xs).length = xs.length ∧
      ∀ l < xs.length, (((List.range n).map (2 ^ ·)).foldl (fun xs d => reduxLevel f d xs) xs).getD l 0 =
        treeAt f (fun k => xs.getD k 0) n l := by
  induction n with
  | zero => exact ⟨rfl, fun _ _ => rfl⟩
  | succ n ih =>
    obtain ⟨hlen, hat⟩ := ih
    simp only [List.range_succ, List.map_append, List.map_singleton, List.foldl_append, List.foldl_cons, List.foldl_nil]
    refine ⟨by rw [length_reduxLevel, hlen], fun l hl => ?_⟩
    rw [getD_reduxLevel f _ (hlen.symm ▸ hl), hat l hl, hat (l - 2 ^ n) (Nat.lt_of_le_of_lt (Nat.sub_le _ _) hl), treeAt]

/-- A position of the tree depends only on the operands up to it. -/
theorem treeAt_congr (f : Nat → Nat → Nat) {x y : Nat → Nat} (n l : Nat) (h : ∀ k ≤ l, x k = y k) :
    treeAt f x n l = treeAt f y n l := by
  induction n generalizing l with
  | zero => exact h l (Nat.le_refl l)
  | succ n ih => rw [treeAt, treeAt, ih l h, ih (l - 2 ^ n) fun k hk => h k (hk.trans (Nat.sub_le _ _))]

theorem getD_reduxIn (c : Ctx) (w : LaneW) (op : Nat) {l : Nat} (hl : l < 32) : (reduxIn c w op).getD l 0 = treeIn c w op l := by
  simp [reduxIn, treeIn, List.getD_eq_getElem?_getD, hl]

/-- The model's tree over the lanes' operands is the one that R84 defines. -/
theorem getD_reduxTree (f : Nat → Nat → Nat) (c : Ctx) (w : LaneW) (op : Nat) {l : Nat} (hl : l < 32) :
    (reduxTree f (reduxIn c w op)).getD l 0 = treeAt f (treeIn c w op) 5 l := by
  have hlen : (reduxIn c w op).length = 32 := by simp [reduxIn]
  calc (reduxTree f (reduxIn c w op)).getD l 0
      = treeAt f (fun k => (reduxIn c w op).getD k 0) 5 l := (getD_levels f (reduxIn c w op) 5).2 l (hlen ▸ hl)
    _ = treeAt f (treeIn c w op) 5 l := treeAt_congr f 5 l fun k hk => getD_reduxIn c w op (by omega)

/-! ## Lane results as functions of the lane -/

theorem putLanes_congr {t : Ty} {d : Dst} {y : Bool} {m : Word} {f g : Nat → Nat} (h : ∀ l ∈ lanesOf m, f l = g l) :
    putLanes t d y m f = putLanes t d y m g :=
  funext fun r => List.foldl_ext _ _ r fun _ l hl => by rw [h l hl]

theorem laneRes_congr {c : Ctx} {w : LaneW} {ty : Ty} {f g : Nat → Nat} (h : ∀ l < 32, f l = g l) :
    laneRes c w ty f = laneRes c w ty g := by
  have hput := fun act => putLanes_congr (t := ty) (d := w.d) (y := true) fun l hl => h l ((mem_lanesOf act l).1 hl).1
  simp only [laneRes, hput]

/-! ## Lanes that name tiles (R193) -/

/-- With legal tile numbers in every lane neither trap of the tile forms is taken. -/
theorem laneTiles_legal {c : Ctx} {w : LaneW} (k : (Nat → Nat) → Res)
    (h : ∀ l ∈ lanesOf (c.active w.g w.gn), c.src 0 .n32 w.a l < 16 ∧ (w.ty = .f64 → c.src 0 .n32 w.a l % 2 = 0)) :
    laneTiles c w k = k (fun l => c.src 0 .n32 w.a l) := by
  have hrange : (lanesOf (c.active w.g w.gn)).find? (fun l => decide (15 < c.src 0 .n32 w.a l)) = none :=
    List.find?_eq_none.2 fun l hl => by
      have := (h l hl).1
      simp only [decide_eq_true_eq]
      omega
  have heven : (if w.ty == .f64 then (lanesOf (c.active w.g w.gn)).find? (fun l => c.src 0 .n32 w.a l % 2 == 1) else none) = none := by
    split
    · next hty => exact List.find?_eq_none.2 fun l hl => by simp [(h l hl).2 (eq_of_beq hty)]
    · rfl
  simp only [laneTiles, hrange, heven]

/-! ## The settlement -/

/-- Settles O24: each form answers the shared shape of a lane result; REDUX and SCAN by the order of R84, SPC and MTOV as no lane
raises their traps. -/
theorem collectiveResults : Obligations.CollectiveResults := by
  unfold Obligations.CollectiveResults
  intro i s c r h hr
  cases i with
  | voteBal w | match_ w | spt w => exact completes_of_laneRes h hr rfl rfl
  | redux sub w =>
    refine completes_of_laneRes h hr rfl ?_
    dsimp only
    rw [getD_reduxTree _ c w _ (by decide)]
  | scan sub w =>
    refine completes_of_laneRes h hr rfl (laneRes_congr fun l hl => ?_)
    rw [getD_reduxTree _ c w _ hl, getD_reduxTree _ c w _ (Nat.lt_of_le_of_lt (Nat.sub_le l 1) hl)]
  | spc w =>
    simp only [collResult, Option.ite_none_right_eq_some] at hr
    obtain ⟨hok, hr⟩ := hr
    refine completes_of_laneRes h hr rfl ?_
    have hnone : (lanesOf (c.active w.g w.gn)).find? (fun l => (spcVal c.core (c.ea0 w l)).isNone) = none :=
      List.find?_eq_none.2 fun l hl => by simpa [Option.isSome_iff_ne_none, Ctx.ea0] using hok l hl
    rw [hnone]
    rfl
  | mtov w =>
    simp only [collResult, Option.ite_none_right_eq_some] at hr
    obtain ⟨hok, hr⟩ := hr
    exact completes_of_laneRes h hr rfl (laneTiles_legal _ hok)
  | _ => cases hr

end Sys2Proof.Machine
end

section
/-! PROOFS. The uniform forms that write kp, lc, lm, kc and kf (O26, O27). -/

namespace Sys2Proof.Machine

/-! ## Loop counters (R134) -/

theorem toNat_ringMod (v : Nat) (size : Word) : (ringMod v size).toNat = modSize v size.toNat := by
  unfold ringMod modSize
  by_cases hz : size = 0
  · subst hz; simp
  · have hne : size.toNat ≠ 0 := fun h => hz (BitVec.eq_of_toNat_eq h)
    have hlt := Nat.mod_lt v (Nat.pos_of_ne_zero hne)
    simp only [beq_iff_eq, hz, hne, if_false, BitVec.toNat_ofNat]
    exact Nat.mod_eq_of_lt (by omega)

@[simp] theorem getLm_setLc (u : UFile) (n v k : Nat) : getLm (setLc u n v) k = getLm u k := rfl

theorem toNat_getLc_setLc (u : UFile) (n v k : Nat) :
    (getLc (setLc u n v) k).toNat = if k = n then modSize v (getLm u k).toNat else (getLc u k).toNat := by
  rw [setLc, getLc_setLcRaw]
  split
  · next hk => rw [hk, toNat_ringMod]
  · rfl

theorem getLm_setLm (u : UFile) (n k : Nat) (v : Word) : getLm (setLm u n v) k = if k = n then v else getLm u k :=
  mget_mset 0 u.lm n k v

theorem toNat_getLc_setLm (u : UFile) (n k : Nat) (v : Word) :
    (getLc (setLm u n v) k).toNat = if k = n then modSize (getLc u k).toNat v.toNat else (getLc u k).toNat := by
  rw [setLm, getLc_setLcRaw]
  split
  · next hk => rw [hk, toNat_ringMod]
  · rfl

theorem modSize_of_lt {x size : Nat} (h : x < if size = 0 then 2 ^ 32 else size) : modSize x size = x := by
  unfold modSize
  by_cases hz : size = 0
  · rw [if_pos hz] at h ⊢
    exact Nat.mod_eq_of_lt h
  · rw [if_neg hz] at h ⊢
    exact Nat.mod_eq_of_lt h

/-- A counter's sum is the residue, so it is below the size (R155). -/
theorem lcSum_eq (lc b : Nat) (size : Word) :
    (lcSum lc b size : Int) = ((lc : Int) + sextN b 64) % (if size = 0 then 2 ^ 32 else (size.toNat : Int)) ∧
      lcSum lc b size < if size.toNat = 0 then 2 ^ 32 else size.toNat := by
  have hsize : size = 0 ↔ size.toNat = 0 := BitVec.toNat_inj (y := 0).symm
  by_cases hz : size.toNat = 0
  · have hnonneg := Int.emod_nonneg ((lc : Int) + sextN b 64) (b := 2 ^ 32) (by decide)
    have hlt := Int.emod_lt_of_pos ((lc : Int) + sextN b 64) (b := 2 ^ 32) (by decide)
    simp only [lcSum, beq_iff_eq, hsize, hz, if_true]
    omega
  · have hpos : (0 : Int) < size.toNat := by omega
    have hnonneg := Int.emod_nonneg ((lc : Int) + sextN b 64) hpos.ne'
    have hlt := Int.emod_lt_of_pos ((lc : Int) + sextN b 64) hpos
    simp only [lcSum, beq_iff_eq, hsize, hz, if_false]
    omega

/-- A counter that steps, its size unchanged (R155). -/
theorem toNat_getLc_lcstep (u : UFile) (n lc b k : Nat) :
    ((getLc (setLc u n (lcSum lc b (getLm u n))) k).toNat : Int) =
      if k = n then ((lc : Int) + sextN b 64) % (if getLm u k = 0 then 2 ^ 32 else ((getLm u k).toNat : Int))
      else ((getLc u k).toNat : Int) := by
  rw [toNat_getLc_setLc]
  split
  · next hk =>
    subst hk
    obtain ⟨hsum, hlt⟩ := lcSum_eq lc b (getLm u k)
    rw [modSize_of_lt hlt, hsum]
  · rfl

/-! ## Writes of one uniform file -/

section
variable (r : Regs)

theorem onlyFile_setKp (n : Nat) (v : Bool) : OnlyFile true false false false r { r with u := setKp r.u n v } :=
  ⟨fun _ => rfl, nofun, fun _ _ => ⟨rfl, rfl⟩, fun _ _ => rfl, fun _ _ => rfl, fun _ _ => rfl, rfl⟩

theorem onlyFile_loop (lc lm : Map Word) : OnlyFile false true false false r { r with u := { r.u with lc := lc, lm := lm } } :=
  ⟨fun _ => rfl, fun _ _ => rfl, nofun, fun _ _ => rfl, fun _ _ => rfl, fun _ _ => rfl, rfl⟩

theorem onlyFile_kcPut (n : Nat) (x : KcNow) : OnlyFile false false true false r { r with u := kcPut n x r.u } := by
  unfold kcPut
  dsimp only
  split <;> exact ⟨fun _ => rfl, fun _ _ => rfl, fun _ _ => ⟨rfl, rfl⟩, nofun, nofun, fun _ _ => rfl, rfl⟩

theorem onlyFile_setKf (n : Nat) (v : DWord) : OnlyFile false false false true r { r with u := setKf r.u n v } :=
  ⟨fun _ => rfl, fun _ _ => rfl, fun _ _ => ⟨rfl, rfl⟩, fun _ _ => rfl, fun _ _ => rfl, nofun, rfl⟩

end

/-! ## LCSET of a counter (R155) -/

/-- The registers after LCSET of a counter: its size first where the word sets it (R155). -/
def lcsetRegs (setm size n v : Nat) (r : Regs) : Regs :=
  let u := if setm = 1 then setLm r.u n (BitVec.ofNat 32 size) else r.u
  { r with u := setLc u n v }

theorem onlyFile_lcsetRegs (setm size n v : Nat) (r : Regs) : OnlyFile false true false false r (lcsetRegs setm size n v r) := by
  unfold lcsetRegs
  dsimp only
  split <;> exact onlyFile_loop r _ _

theorem toNat_getLm_lcsetRegs (setm n v k : Nat) {size : Nat} (hs : size < 2 ^ 32) (r : Regs) :
    (getLm (lcsetRegs setm size n v r).u k).toNat = if k = n ∧ setm = 1 then size else (getLm r.u k).toNat := by
  simp only [lcsetRegs, getLm_setLc]
  by_cases hset : setm = 1
  · simp only [hset, if_true, getLm_setLm, and_true]
    split
    · exact (BitVec.toNat_ofNat _ _).trans (Nat.mod_eq_of_lt hs)
    · rfl
  · simp [hset]

theorem toNat_getLc_lcsetRegs (setm size n v k : Nat) (r : Regs) :
    (getLc (lcsetRegs setm size n v r).u k).toNat =
      if k = n then modSize v (getLm (lcsetRegs setm size n v r).u k).toNat else (getLc r.u k).toNat := by
  refine (toNat_getLc_setLc _ n v k).trans ?_
  by_cases hk : k = n
  · rw [if_pos hk, if_pos hk]; rfl
  · rw [if_neg hk, if_neg hk]
    split
    · rw [toNat_getLc_setLm, if_neg hk]
    · rfl

theorem fs_lt (w : UniW) (hi lo : Nat) : fs w hi lo < 2 ^ (hi + 1 - lo) := Nat.mod_lt _ (Nat.two_pow_pos _)

/-! ## Registers that a word computes from its issuer's own -/

/-- The registers that a completed word changes are those its context shows. -/
theorem Completes.regs_own {i : Instr} {c : Ctx} {s t : State} {touched : List Comp} {own : List Own} {R : Regs → Regs → Prop}
    {target : Option (Nat → DWord)} (h : Completes c s t touched own R target) (hc : ctxHere i s = some c) :
    Completes c s t touched own (fun r r' => r = c.u.regs ∧ R r r') target := by
  obtain ⟨iss, -, hctx⟩ := ctxHere_iss hc
  refine ⟨h.world, h.agents, fun hs => ?_, fun hs => ?_⟩
  · obtain ⟨g, k, hg, hk, ha⟩ := h.group hs
    obtain ⟨g', hg', -, hu, -⟩ := ctxOf_group hctx hs
    obtain rfl : g = g' := Option.some.inj (hg.symm.trans hg')
    exact ⟨g, k, hg, hk, ⟨by rw [hu], ha.file⟩, ha.wait, ha.pc, ha.keep, ha.ident⟩
  · obtain ⟨g, k, hg, hk, ha⟩ := h.stream hs
    obtain ⟨g', hg', -, hu⟩ := ctxOf_stream hctx hs
    obtain rfl : g = g' := Option.some.inj (hg.symm.trans hg')
    exact ⟨g, k, hg, hk, ⟨by rw [hu], ha.file⟩, ha.wait, ha.pc, ha.keep, ha.loop, ha.ident⟩

/-- A word whose body completes with new registers, stated of its issuer's own. -/
theorem completes_of_ownRegs {i : Instr} {s : State} {c : Ctx} {body : Ctx → State → Res} {d : Done} {R : Regs → Regs → Prop}
    (h : Issues i anyProfile s c) (hx : exec i s = issue i body s) (hb : body c s = .done d) (he : d.eff = Eff.nop) (hgo : d.go = .seq)
    (hR : R c.u.regs (d.regs c.u.regs)) : ∃ t, exec i s = .next t ∧ Completes c s t [] [] R none := by
  obtain ⟨t, ht, hc⟩ := completes_of_regs (R := fun r r' => r' = d.regs r) h hx hb he hgo fun _ => rfl
  exact ⟨t, ht, (hc.regs_own h.1).regs_mono fun _ _ ⟨hr, hr'⟩ => by subst hr hr'; exact hR⟩

/-! ## Format images (R93) -/

/-- A form that offers an image that R78 allows writes it to the register that it names. -/
theorem completes_of_kfmtRes {i : Instr} {s : State} {c : Ctx} {body : Ctx → State → Res} {w : UniW} {img : DWord}
    {R : Regs → Regs → Prop} (h : Issues i anyProfile s c) (hx : exec i s = issue i body s) (hb : body c s = kfmtRes c w img)
    (hv : kfValid img = true) (hR : ∀ r r', OnlyFile false false false true r r' →
      (∀ n, getKf r'.u n = if n = fs w 11 9 then img else getKf r.u n) → R r r') :
    ∃ t, exec i s = .next t ∧ Completes c s t [] [] R none :=
  completes_of_regs h hx (hb.trans (if_pos hv)) rfl rfl fun r =>
    hR r _ (onlyFile_setKf r _ _) fun _ => getKf_setKf _ _ _ _

/-- Settles O27: each form's body traps with the image that it offers. -/
theorem kfmtRejects : Obligations.KfmtRejects := by
  unfold Obligations.KfmtRejects
  intro i s c img h hroom hs himg hbad g hg hbank
  have hrej : ∀ w, kfmtRes c w img = .trap 7 img (lowest c.live) Eff.nop := fun w => if_neg (by simp [hbad])
  cases i with
  | kfmtSet w | kfmtSetPreset w | kfmtSetSeed w =>
    cases himg
    exact issue_trapped h hroom hs (hrej w) hg hbank
  | _ => cases himg

/-! ## Predicates and status words (R153, R156) -/

/-- kp7 is never read, so no write of it matters. -/
theorem getKp_setKp_of_lt (u : UFile) (n k : Nat) (v : Bool) (hk : k < 7) : getKp (setKp u n v) k = if k = n then v else getKp u k := by
  have h7 : k ≠ 7 := by omega
  simp [getKp, setKp, mget_mset, h7]

/-- The end of a kcwait moves the status word to kD (R156). -/
theorem getK_kcwaitRegs (d kc : Nat) (r : Regs) (n : Nat) :
    getK (kcwaitRegs d kc r).u n = if n = d then getKst r.u kc else getK r.u n :=
  (getK_setK r.u d n _).trans (by rw [BitVec.ofNat_toNat, BitVec.setWidth_eq])

theorem getKst_kcwaitRegs (d kc : Nat) (r : Regs) (n : Nat) :
    getKst (kcwaitRegs d kc r).u n = if n = kc then 0 else getKst r.u n :=
  getKst_setKst (putK d (getKst r.u kc).toNat r).u kc n 0

/-- How KCMP combines, with its last code as the exclusive or (R153). -/
theorem kcmpComb_eq (comb : Nat) (old t : Bool) :
    kcmpComb comb old t = match comb with
      | 0 => t
      | 1 => old && t
      | 2 => old || t
      | _ => xor old t := by
  unfold kcmpComb
  split <;> simp

/-! ## The settlement -/

/-- Settles O26: the body of each form completes with a write of the file it names, whose law gives what the file holds. -/
theorem uniformFileForms : Obligations.UniformFileForms := by
  unfold Obligations.UniformFileForms
  intro i s c f h hf
  cases i with
  | kcmp w =>
    cases hf
    refine completes_of_regs h rfl rfl rfl rfl fun r => ⟨onlyFile_setKp r _ _, fun n hn => ?_⟩
    rw [getKp_setKp_of_lt _ _ _ _ hn, kcmpComb_eq]
    by_cases hne : n = fs w 6 4
    · subst hne; rfl
    · simp only [hne, if_false]
  | lcset w =>
    simp only [uniFiles] at hf
    split at hf
    · next m hd =>
      cases hf
      refine completes_of_regs h rfl rfl rfl rfl fun r => ?_
      dsimp only
      rw [hd]
      have hsize : fs w 30 0 < 2 ^ 32 := (fs_lt w 30 0).trans (by decide)
      exact ⟨onlyFile_lcsetRegs _ _ _ _ r, fun n => ⟨toNat_getLm_lcsetRegs _ _ _ _ hsize r, toNat_getLc_lcsetRegs _ _ _ _ _ r⟩⟩
    · next m hd =>
      cases hf
      refine completes_of_regs h rfl rfl rfl rfl fun r => ?_
      dsimp only
      rw [hd]
      refine ⟨onlyFile_loop r _ _, fun n => ⟨?_, ?_⟩⟩
      · rw [getLm_setLm]; split <;> simp
      · rw [toNat_getLc_setLm]; simp
    · cases hf
  | lcstep w =>
    simp only [uniFiles] at hf
    split at hf
    · next m hd =>
      cases hf
      refine completes_of_ownRegs h rfl (by simp only [hd]; rfl) rfl rfl ⟨onlyFile_loop _ _ _, fun n => ⟨rfl, ?_⟩⟩
      rw [hd]
      exact toNat_getLc_lcstep _ _ _ _ _
    · cases hf
  | kcset w =>
    simp only [uniFiles] at hf
    split at hf
    · next m hd =>
      cases hf
      refine completes_of_regs h rfl rfl rfl rfl fun r => ?_
      dsimp only
      rw [hd]
      exact ⟨onlyFile_kcPut r _ _, kcAfter_kcPut _ _ _⟩
    · cases hf
  | kcwait w =>
    simp only [uniFiles] at hf
    split at hf
    · next kc d ha hd =>
      obtain ⟨hz, hf⟩ := Option.ite_none_right_eq_some.1 hf
      cases hf
      refine completes_of_regs h rfl (d := { act := c.lanes, regs := kcwaitRegs d kc }) ?_ rfl rfl fun r => ?_
      · simp [ha, hd, kcNum, kNum, hz]
      · exact ⟨rfl, getK_kcwaitRegs d kc r, getKst_kcwaitRegs d kc r, rfl, rfl, rfl, rfl, rfl⟩
    · cases hf
  | kfmtSet w =>
    obtain ⟨hv, hf⟩ := Option.ite_none_right_eq_some.1 hf
    cases hf
    exact completes_of_kfmtRes h rfl rfl hv fun r r' ho hk => ⟨ho, hk⟩
  | kfmtSetPreset w | kfmtSetSeed w =>
    obtain ⟨hv, hf⟩ := Option.ite_none_right_eq_some.1 hf
    cases hf
    exact completes_of_kfmtRes h rfl rfl hv fun r r' ho hk => ⟨ho, fun n => (hk n).trans (by split <;> simp_all [Ctx.kfImg])⟩
  | _ => cases hf

end Sys2Proof.Machine
end

section
/-! PROOFS. The steps of the matrix unit (O46). -/

namespace Sys2Proof.Machine

/-! ## Tiles (R189) -/

/-- Writing an element changes the tiles alone. -/
theorem putTile_tiles (m : Matrix) (t : Nat) (pair : Bool) (i j v : Nat) : ∃ x, putTile m t pair i j v = { m with tiles := x } := by
  cases pair <;> exact ⟨_, rfl⟩

/-- An element of a tile after one of its elements is written. -/
theorem tileAt_putTile_same (m : Matrix) (t : Nat) (pair : Bool) {i j k l : Nat} (v : Nat) (hj : j < 16) (hl : l < 16) :
    tileAt (putTile m t pair i j v) t pair k l =
      if k = i ∧ l = j then v % 2 ^ (if pair then 64 else 32) else tileAt m t pair k l := by
  cases pair with
  | false =>
    have hkey : 256 * t + 16 * k + l = 256 * t + 16 * i + j ↔ k = i ∧ l = j := by omega
    simp only [tileAt, putTile, Bool.false_eq_true, if_false, mget_mset, hkey]
    split <;> simp
  | true =>
    by_cases he : k = i ∧ l = j
    · obtain ⟨rfl, rfl⟩ := he
      have hne : 256 * t + 32 * k + 2 * l ≠ 256 * t + 32 * k + 2 * l + 1 := by omega
      simp only [tileAt, putTile, if_true, mget_mset, hne, if_false, BitVec.toNat_ofNat, and_self]
      omega
    · have h1 : 256 * t + 32 * k + 2 * l ≠ 256 * t + 32 * i + 2 * j := by omega
      have h2 : 256 * t + 32 * k + 2 * l ≠ 256 * t + 32 * i + 2 * j + 1 := by omega
      have h3 : 256 * t + 32 * k + 2 * l + 1 ≠ 256 * t + 32 * i + 2 * j := by omega
      have h4 : 256 * t + 32 * k + 2 * l + 1 ≠ 256 * t + 32 * i + 2 * j + 1 := by omega
      simp only [tileAt, putTile, if_true, mget_mset, h1, h2, h3, h4, he, if_false]

/-- An element of another tile is as before. -/
theorem tileAt_putTile_other (m : Matrix) (t : Nat) (pair : Bool) {i j k l u : Nat} (v : Nat) (hi : i < 16) (hj : j < 16)
    (hk : k < 16) (hl : l < 16) (hu : u ≠ t) (hp : ¬(pair = true ∧ u = t + 1)) :
    tileAt (putTile m t pair i j v) u false k l = tileAt m u false k l := by
  cases pair with
  | false =>
    have h1 : 256 * u + 16 * k + l ≠ 256 * t + 16 * i + j := by omega
    simp [tileAt, putTile, mget_mset, h1]
  | true =>
    have hu' : u ≠ t + 1 := by simpa using hp
    have h1 : 256 * u + 16 * k + l ≠ 256 * t + 32 * i + 2 * j := by omega
    have h2 : 256 * u + 16 * k + l ≠ 256 * t + 32 * i + 2 * j + 1 := by omega
    simp [tileAt, putTile, mget_mset, h1, h2]

/-- Elements written one after the other, numbered along the rows, each with its value. -/
def putElems (t : Nat) (pair : Bool) (f : Nat → Nat → Nat) (ns : List Nat) (m : Matrix) : Matrix :=
  ns.foldl (fun m n => putTile m t pair (n / 16) (n % 16) (f (n / 16) (n % 16))) m

theorem mapTile_eq_putElems (m : Matrix) (t : Nat) (pair : Bool) (f : Nat → Nat → Nat) :
    mapTile m t pair f = putElems t pair f (List.range 256) m := rfl

section
variable (t : Nat) (pair : Bool) (f : Nat → Nat → Nat) (m : Matrix)

theorem putElems_tiles (ns : List Nat) : ∃ x, putElems t pair f ns m = { m with tiles := x } := by
  induction ns generalizing m with
  | nil => exact ⟨_, rfl⟩
  | cons n ns ih =>
    obtain ⟨y, hy⟩ := putTile_tiles m t pair (n / 16) (n % 16) (f (n / 16) (n % 16))
    obtain ⟨x, hx⟩ := ih { m with tiles := y }
    exact ⟨x, (congrArg (putElems t pair f ns) hy).trans hx⟩

theorem tileAt_putElems_same (ns : List Nat) {k l : Nat} (hl : l < 16) :
    tileAt (putElems t pair f ns m) t pair k l =
      if 16 * k + l ∈ ns then f k l % 2 ^ (if pair then 64 else 32) else tileAt m t pair k l := by
  induction ns generalizing m with
  | nil => simp [putElems]
  | cons n ns ih =>
    have hn : (k = n / 16 ∧ l = n % 16) ↔ 16 * k + l = n := by omega
    refine (ih _).trans ?_
    rw [tileAt_putTile_same _ _ _ _ (Nat.mod_lt n (by decide)) hl]
    simp only [hn, List.mem_cons]
    by_cases hmem : 16 * k + l ∈ ns
    · simp [hmem]
    · by_cases he : 16 * k + l = n
      · obtain ⟨rfl, rfl⟩ := hn.2 he
        simp [he]
      · simp [hmem, he]

theorem tileAt_putElems_other (ns : List Nat) (hns : ∀ n ∈ ns, n < 256) {k l u : Nat} (hk : k < 16) (hl : l < 16) (hu : u ≠ t)
    (hp : ¬(pair = true ∧ u = t + 1)) : tileAt (putElems t pair f ns m) u false k l = tileAt m u false k l := by
  induction ns generalizing m with
  | nil => rfl
  | cons n ns ih =>
    have hn := hns n (by simp)
    exact (ih _ fun x hx => hns x (by simp [hx])).trans
      (tileAt_putTile_other m t pair _ (by omega) (by omega) hk hl hu hp)

/-- Every element of a tile replaced: what the tile's own elements and those of the others are after it. -/
theorem tileAfter_mapTile : tileAfter t pair f m (mapTile m t pair f) := by
  rw [mapTile_eq_putElems]
  refine ⟨?_, fun i j hi hj => ?_, fun u i j hu hp hi hj => ?_⟩
  · obtain ⟨x, hx⟩ := putElems_tiles t pair f m (List.range 256)
    rw [hx]
  · rw [tileAt_putElems_same t pair f m _ hj, if_pos (List.mem_range.2 (by omega))]
  · exact tileAt_putElems_other t pair f m _ (fun _ => List.mem_range.1) hi hj hu hp

end

theorem tileAfter_congr {t : Nat} {pair : Bool} {f g : Nat → Nat → Nat} {m m' : Matrix} (h : tileAfter t pair f m m')
    (hfg : ∀ i j, i < 16 → j < 16 → f i j = g i j) : tileAfter t pair g m m' := by
  obtain ⟨hkeep, hat, hother⟩ := h
  exact ⟨hkeep, fun i j hi hj => by rw [hat i j hi hj, hfg i j hi hj], hother⟩

/-! ## A step of a tile (R83, R185 to R189) -/

/-- The tile step of a case, by the machine's two kinds of step. -/
def StepCase.apply (x : StepCase) (m : Matrix) : Matrix :=
  if x.int then intStep m x.tile x.ovw (rows16 x.k x.ai) (rows16 x.k x.bi)
  else floatStep m x.tile x.pair x.ovw x.chunk (rows16 x.k x.af) (rows16 x.k x.bf)

theorem zipWith_rows16 {α β : Type} (g : α → α → β) (k : Nat) (a b : Nat → Nat → α) {i j : Nat} (hi : i < 16) (hj : j < 16) :
    List.zipWith g ((rows16 k a).getD i []) ((rows16 k b).getD j []) = (List.range k).map fun n => g (a i n) (b j n) := by
  simp [rows16, List.getD_eq_getElem?_getD, hi, hj, List.zipWith_map, List.zipWith_self]

/-- After a step each element of the tile holds what R185 to R189 give; only a floating type steps a pair. -/
theorem tileAfter_apply (x : StepCase) (m : Matrix) (hpair : x.int = true → x.pair = false) :
    tileAfter x.tile x.pair (fun i j => x.out (tileAt m x.tile x.pair i j) i j) m (x.apply m) := by
  unfold StepCase.apply
  by_cases hint : x.int = true
  · rw [if_pos hint, hpair hint, intStep]
    refine tileAfter_congr (tileAfter_mapTile _ _ _ _) fun i j hi hj => ?_
    rw [zipWith_rows16 _ _ _ _ hi hj, ← List.sum_eq_foldl]
    simp only [StepCase.out, hint, if_true, Nat.cast_ite, Nat.cast_zero]
  · rw [if_neg hint, floatStep]
    refine tileAfter_congr (tileAfter_mapTile _ _ _ _) fun i j hi hj => ?_
    rw [zipWith_rows16 _ _ _ _ hi hj]
    simp only [StepCase.out, hint]
    rfl

/-! ## A word with an effect on the matrix resources of its block -/

theorem framed_onMatrix (blk : Nat) (f : Matrix → Matrix) : Framed [.blocks] (onMatrix blk f) := by
  apply framed_of
  intro s
  unfold onMatrix
  repeat' split
  · exact ⟨fun _ => [.block _ _], rfl, framed_block _ _⟩
  all_goals exact ⟨Eff.nop, rfl, framed_nop _⟩

/-- The block of a context is the state's. -/
theorem ctxHere_block {i : Instr} {s : State} {c : Ctx} (h : ctxHere i s = some c) : mfind s.blocks c.blkId = some c.blk := by
  obtain ⟨iss, -, h⟩ := ctxHere_iss h
  unfold ctxOf at h
  dsimp only at h
  repeat' split at h
  all_goals cases h
  all_goals assumption

theorem mat_of_block {i : Instr} {s : State} {c : Ctx} {b : Block} {m : Matrix} (h : ctxHere i s = some c)
    (hb : mfind s.blocks c.blkId = some b) (hm : b.mat = some m) : c.mat = m := by
  obtain rfl : c.blk = b := Option.some.inj ((ctxHere_block h).symm.trans hb)
  simp [Ctx.mat, hm]

/-- A change of the matrix resources of the word's block, in the blocks of the state before it. -/
theorem matrixAfter_onMatrix {c : Ctx} {s s1 t : State} {F : Matrix → Matrix} {P : Matrix → Matrix → Prop}
    (h1 : s1.blocks = s.blocks) (ht : t.blocks = (applyAll (onMatrix c.blkId F s1) s1).blocks)
    (hP : ∀ b m, mfind s.blocks c.blkId = some b → b.mat = some m → P m (F m)) : MatrixAfter c s t P := by
  unfold onMatrix at ht
  rw [h1] at ht
  refine ⟨fun q hq => ?_, fun b m hb hm => ⟨F m, ?_, hP b m hb hm⟩⟩
  · rw [ht]
    repeat' split
    · simp [h1, mfind_mput_other _ _ _ _ hq]
    all_goals simp [h1]
  · simp [ht, hb, hm]

/-- A word whose body completes with new registers and a change of the matrix resources of its block. -/
theorem completes_onMatrix {i : Instr} {prof : Ctx → State → Bool} {body : Ctx → State → Res} {s : State} {c : Ctx} {d : Done}
    {F : Matrix → Matrix} {e : Eff} {R : Regs → Regs → Prop} {P : Matrix → Matrix → Prop} (h : Issues i prof s c)
    (hx : exec i s = issueP i prof body s) (hb : body c s = .done d) (hd : d.eff = Eff.seq (onMatrix c.blkId F) e) (he : Framed [] e)
    (hgo : d.go = .seq) (hR : ∀ r, R r (d.regs r)) (hP : ∀ b m, mfind s.blocks c.blkId = some b → b.mat = some m → P m (F m)) :
    ∃ t, exec i s = .next t ∧ Completes c s t [.blocks] [] R none ∧ MatrixAfter c s t P := by
  have hframe : Framed [.blocks] d.eff := hd ▸ (framed_onMatrix _ _).seq (he.mono (by simp))
  obtain ⟨t, ht, hc, hafter⟩ := completes_own h hb (hframe.own []) (.inl hgo)
  obtain ⟨hsame, -⟩ := hafter _ rfl
  rw [hgo] at hc
  refine ⟨t, hx.trans ht, hc.regs_mono fun r r' e => e ▸ hR r, ?_⟩
  have hcard : (applyAll (splitCard c (usplit c s) s) s).blocks = s.blocks :=
    same_splitCard c s .blocks (by unfold cardParts; split <;> simp)
  refine matrixAfter_onMatrix hcard ((hsame .blocks (by simp)).trans ?_) hP
  rw [hd, applyAll_seq]
  exact he.same _ .blocks (by simp)

/-! ## Words that step a tile -/

theorem waitOps_unclashed {c : Ctx} {s : State} {obR obW : List (Nat × Nat)} {tR tW : List Nat} (k : Res)
    (h : unclashed c s obR obW tR tW = true) : waitOps c s obR obW tR tW k = k := by
  cases hs : streamOf c s with
  | none => simp [waitOps, hs]
  | some x =>
    have hfree : x.ops.any (opClash obR obW tR tW) = false := by simpa only [unclashed, hs, Bool.not_eq_true'] using h
    simp [waitOps, hs, hfree]

/-- The automatic increment counts the loop counter on by one step (R135). -/
theorem stepRegs_autoInc (inc : Bool) (lc : Nat) (r : Regs) : stepRegs inc lc r (autoInc inc lc r) := by
  cases inc with
  | false => rfl
  | true =>
    refine ⟨rfl, onlyFile_loop r _ _, fun n => ⟨rfl, ?_⟩⟩
    refine (toNat_getLc_setLc _ _ _ _).trans ?_
    split
    · next h => rw [h]
    · rfl

/-- A body completes with the step of a case: the tile's new elements, the loop counter counted on, the products counted. -/
def StepDone (c : Ctx) (m : Matrix) (x : StepCase) (inc : Bool) (lc : Nat) (r : Res) : Prop :=
  ∃ F ev n, r = .done { act := c.lanes, regs := autoInc inc lc, eff := Eff.seq (onMatrix c.blkId F) (count c.frank ev n) } ∧
    F m = x.apply m

/-- A word whose body completes with the step of a case does what the case says. -/
theorem completes_of_step {i : Instr} {prof : Ctx → State → Bool} {body : Ctx → State → Res} {s : State} {c : Ctx} {b : Block}
    {m : Matrix} {x : StepCase} {inc : Bool} {lc : Nat} (h : Issues i prof s c) (hx : exec i s = issueP i prof body s)
    (hblk : mfind s.blocks c.blkId = some b) (hm : b.mat = some m) (hregs : x.regs = stepRegs inc lc)
    (hpair : x.int = true → x.pair = false) (hdone : StepDone c m x inc lc (body c s)) :
    ∃ t, exec i s = .next t ∧ Completes c s t [.blocks] [] x.regs none ∧
      MatrixAfter c s t (fun m m' => tileAfter x.tile x.pair (fun i j => x.out (tileAt m x.tile x.pair i j) i j) m m') := by
  obtain ⟨F, ev, n, hb, hF⟩ := hdone
  refine completes_onMatrix h hx hb rfl (framed_count _ _ _) rfl (fun r => hregs ▸ stepRegs_autoInc inc lc r) fun b' m' hb' hm' => ?_
  obtain rfl : b = b' := Option.some.inj (hblk.symm.trans hb')
  obtain rfl : m = m' := Option.some.inj (hm.symm.trans hm')
  exact hF ▸ tileAfter_apply x m hpair

/-- No integer type steps a pair of tiles (R185). -/
theorem stepOf_pair_of_int {ityp : Nat} (cont : Nat) (h : ityInt ityp = true) : (stepOf ityp cont).pair = false := by
  obtain rfl | rfl : ityp = 3 ∨ ityp = 4 := by simpa [ityInt] using h
  all_goals rfl

/-! ## The settlement -/

/-- Settles O46: in the states of each case the word's body takes neither trap nor wait and completes with the case's step. -/
theorem matrixSteps : Obligations.MatrixSteps := by
  unfold Obligations.MatrixSteps
  intro i s c b m x h hblk hm hcase
  have hmat := mat_of_block h.1 hblk hm
  cases i with
  | mma w =>
    simp only [stepCase] at hcase
    split at hcase
    · next ra rb hra hrb =>
      obtain ⟨⟨hrecs, htile, hfitA, hfitB, hfree⟩, hx⟩ := Option.ite_none_right_eq_some.1 hcase
      cases hx
      refine completes_of_step h rfl hblk hm rfl (stepOf_pair_of_int _) ?_
      simp only [hmat, hra, hrb, hrecs, Bool.not_true, Bool.false_eq_true, if_false]
      rw [if_neg (by simpa using htile), if_neg (by simpa using ⟨hfitA, hfitB⟩), waitOps_unclashed _ hfree]
      exact ⟨_, _, _, rfl, rfl⟩
    · cases hcase
  | mmat w | mres w =>
    simp only [stepCase] at hcase
    split at hcase
    · next rd rb hrd hrb =>
      obtain ⟨⟨hxd, hxb, hfitH, hok, hfitD, hfitB, hfreeH, hfree⟩, hx⟩ := Option.ite_none_right_eq_some.1 hcase
      cases hx
      refine completes_of_step h rfl hblk hm rfl (fun _ => rfl) ?_
      simp only [sparseRes, hmat, hrd, hrb]
      rw [if_neg (by simpa [hxd, hxb] using hfitH), waitOps_unclashed _ hfreeH, if_neg (by simp [hok]),
        if_neg (by simpa using ⟨hfitD, hfitB⟩), waitOps_unclashed _ hfree]
      exact ⟨_, _, _, rfl, rfl⟩
    · cases hcase
  | _ => cases hcase

end Sys2Proof.Machine
end

section
/-! PROOFS. What reset leaves (O12). -/

namespace Sys2Proof.Machine

/-- No queue, session, round region, core or byte of memory is written at reset: each reads its default. -/
theorem reset_maps_nil : State.reset.mail.queues = [] ∧ State.reset.trace.sessions = [] ∧ State.reset.rounds.ents = [] ∧
    State.reset.cores = [] ∧ State.reset.mem = [] :=
  ⟨rfl, rfl, rfl, rfl, rfl⟩

/-- Settles O12: the registers named have the values of the reset state, and a read of an empty store gives its default. -/
theorem resetState : Obligations.ResetState := by
  unfold Obligations.ResetState
  obtain ⟨hqueues, hsessions, hents, hcores, hmem⟩ := reset_maps_nil
  refine ⟨rfl, rfl, rfl, rfl, rfl, fun q => ?_, fun n => ?_, fun n => ?_, fun c => ?_, rfl, rfl, rfl, rfl, ?_, fun a => ?_⟩
  · rw [getQueue, hqueues]; rfl
  · rw [getSession, hsessions]; rfl
  · rw [getRt, hents]; rfl
  · rw [getCore, hcores]; rfl
  · rintro u n rfl; exact ⟨rfl, rfl⟩
  · rw [hmem]; rfl

end Sys2Proof.Machine
end

section
/-! PROOFS. Branches, calls and returns (O14, O15: R109 to R111, R114). -/

namespace Sys2Proof.Machine

/-! ## Where the issuing lanes go -/

/-- A displacement in words added to an address (R109). -/
theorem wordsFrom_eq (pc : DWord) (d : Int) : wordsFrom pc d = pc + BitVec.ofInt 64 (4 * d) := by
  have hpat : wordsFrom pc d = BitVec.ofInt 64 (pc.toNat + 4 * d) := by
    refine BitVec.eq_of_toNat_eq ?_
    rw [wordsFrom, patOf, BitVec.toNat_ofNat, BitVec.toNat_ofInt]
    omega
  rw [hpat, BitVec.ofInt_add, BitVec.ofInt_natCast, BitVec.ofNat_toNat, BitVec.setWidth_eq]

/-- A target that every lane meets at a word address passes the check of R110. -/
theorem alignedThen_of_aligned {c : Ctx} {w : LaneW} (k : Word → Res)
    (h : ∀ l ∈ lanesOf (c.active w.g w.gn), c.src 0 .n64 w.a l % 4 = 0) : alignedThen c w k = k (c.active w.g w.gn) := by
  have hnone : (lanesOf (c.active w.g w.gn)).find? (fun l => (c.target w l).toNat % 4 != 0) = none := by
    rw [List.find?_eq_none]
    intro l hl
    have hword := h l hl
    simp only [Ctx.target, BitVec.toNat_ofNat, bne_iff_ne, ne_eq, not_not]
    omega
  simp only [alignedThen, hnone]

/-- A completed word's target matters at the issuing lanes of a group and at lane 0 of the stream. -/
theorem Completes.target_congr {c : Ctx} {s t : State} {touched : List Comp} {own : List Own} {R : Regs → Regs → Prop}
    {f f' : Nat → DWord} (h : Completes c s t touched own R (some f)) (hg : c.strm = false → f = f') (hs : f 0 = f' 0) :
    Completes c s t touched own R (some f') := by
  refine ⟨h.world, h.agents, fun hc => ?_, fun hc => ?_⟩
  · rw [← hg hc]; exact h.group hc
  · rw [Option.map_some, ← hs]; exact h.stream hc

/-- A word that only takes its lanes to targets. -/
theorem completes_of_goTo {i : Instr} {s : State} {c : Ctx} {body : Ctx → State → Res} {m : Word} {f : Nat → DWord}
    (h : Issues i anyProfile s c) (hx : exec i s = issue i body s) (hb : body c s = goTo c m f) :
    ∃ t, exec i s = .next t ∧ Completes c s t [] [] RegsKept (some fun l => if inMask m l then f l else c.next) := by
  obtain ⟨t, ht, hc⟩ := completes_done h hb (framed_nop []) (.inr ⟨_, rfl⟩)
  exact ⟨t, hx.trans ht, hc⟩

/-- The mask of the lanes that a uniform branch moves holds the group's lanes, and lane 0 for the stream (R114). -/
theorem movers_of_group {c : Ctx} (h : c.strm = false) : c.movers = c.lanes := by simp [Ctx.movers, h]

theorem movers_of_stream {c : Ctx} (h : c.strm = true) : c.movers = 1 := by simp [Ctx.movers, h]

/-- Settles O14: each branch takes the lanes it moves to their targets; KBRA moves its whole path or, for the stream, lane 0. -/
theorem branchForms : Obligations.BranchForms := by
  unfold Obligations.BranchForms
  intro i s c f h hr
  cases i with
  | bra w =>
    cases hr
    simp only [← wordsFrom_eq]
    exact completes_of_goTo h rfl rfl
  | brx w =>
    obtain ⟨halign, hf⟩ := Option.ite_none_right_eq_some.1 hr
    cases hf
    exact completes_of_goTo h rfl (alignedThen_of_aligned _ halign)
  | kbra w =>
    simp only [branchResult] at hr
    by_cases hcond : kbraCond (c.kpred 0) (kNum w.a) = true
    · rw [if_pos hcond] at hr
      cases hr
      obtain ⟨t, ht, hc⟩ := completes_of_goTo (m := c.movers) (f := fun _ => kTarget c w) h rfl (if_pos hcond)
      refine ⟨t, ht, hc.target_congr (fun hs => ?_) ?_⟩
      · simp only [movers_of_group hs, hs, Bool.false_or, kTarget, wordsFrom_eq]
      · cases hs : c.strm with
        | false => simp only [movers_of_group hs, Bool.false_or, kTarget, wordsFrom_eq]
        | true => simp [movers_of_stream hs, inMask, kTarget, wordsFrom_eq]
    · rw [if_neg hcond] at hr
      cases hr
      exact completes_of_idle (m := c.lanes) h rfl (if_neg hcond)
  | _ => cases hr

/-! ## Return stacks (R110, R111) -/

/-- A word that takes its lanes to targets and changes their return stacks: the stacks of the lanes it moves, or of the stream. -/
theorem completes_of_jump {i : Instr} {s : State} {c : Ctx} {body : Ctx → State → Res} {m : Word} {f : Nat → DWord}
    {r : Nat → Option (List DWord)} (h : Issues i anyProfile s c) (hx : exec i s = issue i body s)
    (hb : body c s = .done { act := m, go := .jump f r }) :
    ∃ t, exec i s = .next t ∧ Completes c s t [] [.rs] RegsKept (some f) ∧
      ∀ l, l < 32 → (c.strm = false ∨ l = 0) →
        stackOf c t l = if c.strm || inMask c.lanes l then (r l).getD (stackOf c s l) else stackOf c s l := by
  obtain ⟨iss, -, hctx⟩ := ctxHere_iss h.1
  obtain ⟨t, ht, hc, hafter⟩ := completes_own h hb ((framed_nop []).own [.rs]) (.inr ⟨f, r, rfl, .inl (by simp)⟩)
  refine ⟨t, hx.trans ht, hc, fun l hl hlane => ?_⟩
  obtain ⟨-, hgroup, hstream⟩ := hafter _ rfl
  cases hs : c.strm with
  | false =>
    obtain ⟨g, hg, -⟩ := ctxOf_group hctx hs
    obtain ⟨x, hx⟩ := hgroup g hs (by rw [applyAll_nop, groups_splitCard]; exact hg)
    simp only [stackOf, groupOf, hs, Bool.false_eq_true, if_false, hg, hx, finishSched_rs, hl, true_and, Bool.false_or]
  | true =>
    obtain ⟨x, hx, -⟩ := ctxOf_stream hctx hs
    have ht := hstream x hs (by rw [applyAll_nop, streams_splitCard]; exact hx)
    obtain rfl : l = 0 := by simpa [hs] using hlane
    simp [stackOf, streamOf, hs, hx, ht, finishStream]

/-- With room on every mover's stack a call pushes. -/
theorem callTo_of_room {c : Ctx} {s : State} {m : Word} {f : Nat → DWord} (h : ∀ l ∈ lanesOf m, (stackOf c s l).length < 16) :
    callTo c s m f = .done
      { act := m, go := .jump (fun l => if inMask m l then f l else c.next)
                          (fun l => if inMask m l then some (c.next :: stackOf c s l) else none) } := by
  have hnone : (lanesOf m).find? (fun l => decide (16 ≤ (stackOf c s l).length)) = none := by
    rw [List.find?_eq_none]
    intro l hl
    simpa using h l hl
  simp only [callTo, hnone]

/-- With an address on every mover's stack a return pops. -/
theorem popTo_of_nonempty {c : Ctx} {s : State} {m : Word} (h : ∀ l ∈ lanesOf m, stackOf c s l ≠ []) :
    popTo c s m = .done
      { act := m, go := .jump (fun l => if inMask m l then (stackOf c s l).headD 0 else c.next)
                          (fun l => if inMask m l then some ((stackOf c s l).drop 1) else none) } := by
  have hnone : (lanesOf m).find? (fun l => (stackOf c s l).isEmpty) = none := by
    rw [List.find?_eq_none]
    intro l hl
    simpa using h l hl
  simp only [popTo, hnone]

/-- A call completes where every mover's stack has room. -/
theorem completes_of_callTo {i : Instr} {s : State} {c : Ctx} {body : Ctx → State → Res} {m : Word} {f : Nat → DWord}
    (h : Issues i anyProfile s c) (hx : exec i s = issue i body s) (hb : body c s = callTo c s m f)
    (hroom : ∀ l ∈ lanesOf m, (stackOf c s l).length < 16) :
    ∃ t, exec i s = .next t ∧ Completes c s t [] [.rs] RegsKept (some (fun l => if inMask m l then f l else c.next)) ∧
      ∀ l, l < 32 → (c.strm = false ∨ l = 0) →
        stackOf c t l = if inMask m l && (c.strm || inMask c.lanes l) then c.next :: stackOf c s l else stackOf c s l := by
  obtain ⟨t, ht, hc, hstack⟩ := completes_of_jump h hx (hb.trans (callTo_of_room hroom))
  refine ⟨t, ht, hc, fun l hl hlane => ?_⟩
  rw [hstack l hl hlane]
  cases inMask m l <;> simp

/-- A return completes where every mover's stack has an address. -/
theorem completes_of_popTo {i : Instr} {s : State} {c : Ctx} {body : Ctx → State → Res} {m : Word}
    (h : Issues i anyProfile s c) (hx : exec i s = issue i body s) (hb : body c s = popTo c s m)
    (hfull : ∀ l ∈ lanesOf m, stackOf c s l ≠ []) :
    ∃ t, exec i s = .next t ∧
      Completes c s t [] [.rs] RegsKept (some (fun l => if inMask m l then (stackOf c s l).headD 0 else c.next)) ∧
      ∀ l, l < 32 → (c.strm = false ∨ l = 0) →
        stackOf c t l = if inMask m l && (c.strm || inMask c.lanes l) then (stackOf c s l).tail else stackOf c s l := by
  obtain ⟨t, ht, hc, hstack⟩ := completes_of_jump h hx (hb.trans (popTo_of_nonempty hfull))
  refine ⟨t, ht, hc, fun l hl hlane => ?_⟩
  rw [hstack l hl hlane]
  cases inMask m l <;> simp

/-- Settles O15: each form answers the shared call, or the shared return, of the lanes it moves. -/
theorem callAndReturnForms : Obligations.CallAndReturnForms := by
  unfold Obligations.CallAndReturnForms
  refine ⟨fun i s c m f h hr hroom => ?_, fun i s c m h hr hfull => ?_⟩
  · cases i with
    | call w =>
      cases hr
      simp only [← wordsFrom_eq]
      exact completes_of_callTo h rfl rfl hroom
    | callx w =>
      obtain ⟨halign, hf⟩ := Option.ite_none_right_eq_some.1 hr
      cases hf
      exact completes_of_callTo h rfl (alignedThen_of_aligned _ halign) hroom
    | kcall w =>
      obtain ⟨hcond, hf⟩ := Option.ite_none_right_eq_some.1 hr
      cases hf
      simp only [← wordsFrom_eq]
      exact completes_of_callTo h rfl (if_pos hcond) hroom
    | _ => cases hr
  · cases i with
    | ret w | kret w =>
      cases hr
      exact completes_of_popTo h rfl rfl hfull
    | _ => cases hr

end Sys2Proof.Machine
end

section
/-! PROOFS. The end of lanes, the yielded turn and the breakpoint (O16: R110, R113, R124, R369 to R371), and the shuffles (O23:
R107, R108, R117). -/

namespace Sys2Proof.Machine

open Sys2Proof.Laws.Encoded

/-! ## Lane words are issued by groups -/

theorem isUniform_of_laneR {i : Instr} {op sub : Nat} {w : LaneW} (he : encode i = Encode.laneR op sub w) (hop : op < 64) :
    isUniform i = false := by
  rw [isUniform, he]
  exact (laneBase_fields w.s w.x hop (dstCode_lt w.d) (srcCode_lt w.a) (srcCode_lt w.b)).1

/-- The stream issues no lane word (R172). -/
theorem strm_of_laneWord {i : Instr} {prof : Ctx → State → Bool} {s : State} {c : Ctx} (h : Issues i prof s c)
    (hl : isUniform i = false) : c.strm = false := by
  obtain ⟨iss, -, hctx⟩ := ctxHere_iss h.1
  have hrole : roleOk c = true := by
    have hp := h.2
    simp only [passes, Bool.and_eq_true] at hp
    simpa [isHint, hl] using hp.1.1.1.2
  by_contra hs
  simp [roleOk, ctxOf_i hctx, hl, Bool.eq_true_of_not_eq_false hs] at hrole

/-- A word of a group that changes its own group and goes on: the group after it. -/
theorem completes_of_onGroup {i : Instr} {s : State} {c : Ctx} {body : Ctx → State → Res} {m : Word} {f : Group → Group}
    {own : List Own} (h : Issues i anyProfile s c) (hs : c.strm = false) (hx : exec i s = issue i body s)
    (hb : body c s = .done { act := m, eff := onGroup c f }) (hf : ∀ g, KeepsG own g (f g)) :
    ∃ t, exec i s = .next t ∧ Completes c s t [] own RegsKept none ∧ ∀ g, mfind s.groups c.key = some g →
      ∃ h o, mfind t.groups c.key = some h ∧ h.live = (f g).live ∧ h.ending = (f g).ending ∧
        h.sched = finishSched c { act := m, eff := onGroup c f } o (f g).sched := by
  obtain ⟨t, ht, hc, hafter⟩ := completes_own h hb (ownFramed_onGroup hf) (.inl rfl)
  refine ⟨t, hx.trans ht, hc, fun g hg => ?_⟩
  obtain ⟨iss, -, hctx⟩ := ctxHere_iss h.1
  obtain ⟨g', hg', huid, -⟩ := ctxOf_group hctx hs
  obtain rfl : g' = g := Option.some.inj (hg'.symm.trans hg)
  obtain ⟨-, hgroup, -⟩ := hafter _ rfl
  have hown : ∀ s1 : State, s1.groups = s.groups → mfind (applyAll (onGroup c f s1) s1).groups c.key = some (f g') := fun s1 h1 => by
    rw [onGroup_eq hs (h1 ▸ hg) huid]
    exact mfind_mput_same _ _ _
  obtain ⟨x, hx⟩ := hgroup (f g') hs (hown _ (groups_splitCard c _ s))
  exact ⟨_, _, hx, rfl, rfl, rfl⟩

/-! ## EXIT -/

theorem keepsG_exitLanes (m : Word) (g : Group) : KeepsG [.live] g (exitLanes m g) := by
  refine ⟨⟨rfl, rfl, rfl, rfl, rfl⟩, rfl, fun _ => rfl, fun x hx => ?_⟩
  cases x with
  | live => exact absurd (List.mem_singleton_self _) hx
  | rs => exact fun _ => rfl
  | loop | ops | strap | stopped => trivial
  | _ => rfl

theorem exit_done {w : LaneW} {s : State} {c : Ctx} (h : Issues (.exit w) anyProfile s c) :
    ∃ t, exec (.exit w) s = .next t ∧ Completes c s t [] [.live] RegsKept none ∧
      ∀ g, mfind s.groups c.key = some g → ∃ h, mfind t.groups c.key = some h ∧
        h.live = g.live &&& ~~~(c.active w.g w.gn) ∧ (h.ending = true ↔ g.ending = true ∨ h.live = 0) := by
  obtain ⟨t, ht, hc, hgroup⟩ := completes_of_onGroup h
    (strm_of_laneWord h (isUniform_of_laneR (i := .exit w) rfl (by decide))) rfl rfl (keepsG_exitLanes (c.active w.g w.gn))
  refine ⟨t, ht, hc, fun g hg => ?_⟩
  obtain ⟨k, -, hk, hlive, hending, -⟩ := hgroup g hg
  refine ⟨k, hk, hlive, ?_⟩
  rw [hending, hlive]
  simp [exitLanes]

/-! ## YIELD -/

theorem keepsG_yieldGroup (c : Ctx) (s : State) (limit : Nat) (g : Group) : KeepsG [] g (yieldGroup c s limit g) := by
  refine ⟨⟨rfl, rfl, rfl, rfl, rfl⟩, rfl, fun _ => rfl, fun x _ => ?_⟩
  cases x with
  | live => exact ⟨rfl, rfl⟩
  | rs => exact fun _ => rfl
  | loop | ops | strap | stopped => trivial
  | _ => rfl

/-- A store without the keys that a test drops. -/
theorem mfind_filter_key {β : Type} (keep : Nat → Bool) (m : Map β) (n : Nat) :
    mfind (m.filter (fun e => keep e.1)) n = if keep n then mfind m n else none := by
  induction m with
  | nil => simp
  | cons e m ih =>
    obtain ⟨k, v⟩ := e
    by_cases hk : keep k = true
    · rw [List.filter_cons_of_pos (by exact hk), mfind_cons, mfind_cons, ih]
      by_cases hn : k = n
      · subst hn; simp [hk]
      · simp [hn]
    · rw [List.filter_cons_of_neg (by exact hk), mfind_cons, ih]
      by_cases hn : k = n
      · subst hn; simp [hk]
      · simp [hn]

/-- After its word a path's lanes have age 0, the other lanes keep theirs (R98). -/
theorem mget_age_finishSched (c : Ctx) (d : Done) (o : Word) (x : Sched) (l : Nat) :
    mget 0 (finishSched c d o x).age l = if inMask c.lanes l then 0 else mget 0 x.age l := by
  simp only [finishSched, mget, mfind_filter_key (fun l => !inMask c.lanes l)]
  cases inMask c.lanes l <;> simp

/-- Each listed lane is raised to an age, and none loses age. -/
theorem le_mget_foldl_raise (n : Nat) (ls : List Nat) (m : Map Nat) (l : Nat) (h : l ∈ ls ∨ n ≤ mget 0 m l) :
    n ≤ mget 0 (ls.foldl (fun m l => mput m l (max (mget 0 m l) n)) m) l := by
  induction ls generalizing m with
  | nil => exact h.resolve_left List.not_mem_nil
  | cons a ls ih =>
    refine ih _ ?_
    rw [mget_mput]
    by_cases ha : l = a
    · subst ha; exact .inr (by simp)
    · simpa [ha] using h

theorem yield_done {w : LaneW} {s : State} {c : Ctx} (h : Issues (.yield w) anyProfile s c) (hact : c.active w.g w.gn ≠ 0) :
    ∃ t, exec (.yield w) s = .next t ∧ Completes c s t [] [] RegsKept none ∧
      ∀ g, mfind s.groups c.key = some g → ∃ h, mfind t.groups c.key = some h ∧ h.sched.yielded = true ∧
        (∀ l, l < 32 → inMask c.lanes l = true → mget 0 h.sched.age l = 0) ∧
        (∀ p ∈ candidatesOf s c.key g, p.1 ≠ c.pc → ∀ l ∈ lanesOf p.2, inMask c.lanes l = false →
          ageLimit s c.core - 1 ≤ mget 0 h.sched.age l) := by
  have hwhen : Eff.when (c.active w.g w.gn != 0) (onGroup c (yieldGroup c s (ageLimit s c.core))) =
      onGroup c (yieldGroup c s (ageLimit s c.core)) := if_pos (bne_iff_ne.2 hact)
  obtain ⟨t, ht, hc, hgroup⟩ := completes_of_onGroup (m := c.active w.g w.gn) h
    (strm_of_laneWord h (isUniform_of_laneR (i := .yield w) rfl (by decide))) rfl
    (congrArg (fun e => Res.done { act := c.active w.g w.gn, eff := e }) hwhen) (keepsG_yieldGroup c s _)
  refine ⟨t, ht, hc, fun g hg => ?_⟩
  obtain ⟨k, o, hk, -, -, hsched⟩ := hgroup g hg
  refine ⟨k, hk, ?_⟩
  rw [hsched]
  refine ⟨rfl, fun l _ hl => ?_, fun p hp hpc l hl hout => ?_⟩
  · rw [mget_age_finishSched, hl, if_pos rfl]
  · obtain ⟨hpath, hcand⟩ := List.mem_filter.1 hp
    rw [mget_age_finishSched, hout, if_neg (by decide)]
    refine le_mget_foldl_raise _ _ _ _ (.inl (List.mem_flatMap.2 ⟨p, List.mem_filter.2 ⟨hpath, ?_⟩, hl⟩))
    simp [hpc, hcand]

/-! ## BRK -/

theorem brk_trapped {w : LaneW} {s : State} {c : Ctx} {n lane : Nat} {addr : DWord} (h : Issues (.brk w) anyProfile s c)
    (hr : trapRoom s c = true) (hs : c.strm = false) (hform : trapForm c (.brk w) = some (n, addr, lane)) {g : Group}
    (hg : mfind s.groups c.key = some g) (hn : g.tr.bankS.active = false) :
    trapTo g s.idn.stvec n addr = { sys := true, vec := s.idn.stvec, cause := n, addr := addr, retry := false } ∧
      ∃ t, exec (.brk w) s = .next t ∧ ∃ h, mfind t.groups c.key = some h ∧ Trapped c s t n addr lane g h := by
  obtain ⟨hact, htrap⟩ := Option.ite_none_left_eq_some.1 hform
  cases htrap
  exact ⟨rfl, issue_trapped h hr hs (if_neg (by simpa using hact)) hg hn⟩

/-- Settles O16: EXIT and YIELD complete with their changes of the group, BRK's body traps. -/
theorem exitAndYieldForms : Obligations.ExitAndYieldForms := by
  unfold Obligations.ExitAndYieldForms
  exact ⟨fun _ _ _ h => exit_done h, fun _ _ _ h hact => yield_done h hact,
    fun _ _ _ _ _ _ h hr hs hform _ hg hn => brk_trapped h hr hs hform hg hn⟩

/-! ## The shuffles -/

/-- What a shuffle's body gets from a lane is what R108 gives. -/
theorem shflGet_eq (c : Ctx) (s : State) (w : LaneW) (l : Nat) (j : Int) :
    shflGet c w (c.active w.g w.gn) (compatBit s c.l 1) l j = shflValue c s w l j := by
  simp only [shflGet, shflValue, Bool.or_eq_true, decide_eq_true_eq]

/-- A shuffle of a source-lane function completes with the values and, where C names a predicate, the validities. -/
theorem completes_of_shflRes {i : Instr} {s : State} {c : Ctx} {body : Ctx → State → Res} {w : LaneW} {f : Nat → Nat → Int}
    (h : Issues i anyProfile s c) (hx : exec i s = issue i body s) (hb : body c s = shflRes c s w f) :
    ∃ t, exec i s = .next t ∧
      Completes c s t [] [] (fun r r' => ∃ m,
        LaneWritten w.ty w.d true (c.active w.g w.gn)
          (fun l => patRes w.ty (shflValue c s w l (f l (c.src 1 .n32 w.b l))).1) r m ∧
        if w.c = 0 then r' = m
        else PredWritten (w.c.toNat - 1) (c.active w.g w.gn)
          (fun l => (shflValue c s w l (f l (c.src 1 .n32 w.b l))).2) m r') none := by
  refine completes_of_regs h hx hb rfl rfl fun r => ?_
  simp only [shflGet_eq]
  refine ⟨_, laneWritten_putLanes _ _ _ _ _ r, ?_⟩
  by_cases hc : w.c = 0
  · simp [hc]
  · simp only [hc, if_false, beq_iff_eq]
    exact predWritten_putPred _ _ _ _

theorem exec_of_shflFrom {i : Instr} {w : LaneW} {f : Nat → Nat → Int} (h : shflFrom i = some (w, f)) (s : State) :
    exec i s = issue i (fun c s => shflRes c s w f) s := by
  cases i with
  | shflIdx v | shflUp v | shflDn v | shflXor v => cases h; rfl
  | _ => cases h

/-- Settles O23: each shuffle answers the shared shape with its source-lane function. -/
theorem shuffleForms : Obligations.ShuffleForms := by
  unfold Obligations.ShuffleForms
  exact fun _ s _ _ _ h hr => completes_of_shflRes h (exec_of_shflFrom hr s) rfl

end Sys2Proof.Machine
end

section
/-! PROOFS. Pigeonholes that a spawn fills and that phflush closes (O43: R120, R121, R123). -/

namespace Sys2Proof.Machine

open Sys2Proof.Laws.Encoded

/-! ## One thread deposited -/

section
variable {launch part expiry order : Nat} {entry : DWord} {args : List Word} {k : Core} {n : Nat}

/-- A thread joins the open pigeonhole of its launch and entry; the 32nd makes it pending. -/
theorem mfind_deposit_open {h : Hole} (ho : openHole k launch entry = some (n, h)) :
    mfind (deposit launch part entry expiry args (k, order)).1.holes n =
      some { h with threads := h.threads ++ [args], pending := if h.threads.length + 1 < 32 then h.pending else some order } := by
  simp only [deposit, ho, mfind_mput_same, List.length_append, List.length_singleton]
  by_cases hlen : h.threads.length + 1 < 32
  · simp [hlen, Nat.not_le.2 hlen]
  · simp [hlen, Nat.le_of_not_lt hlen]

/-- With none open a thread opens the lowest free pigeonhole. -/
theorem mfind_deposit_new (ho : openHole k launch entry = none) (hf : mfree k.holes 32 = some n) :
    mfind (deposit launch part entry expiry args (k, order)).1.holes n =
      some { entry := entry, launch := launch, threads := [args], expiry := expiry, part := part, pending := none } := by
  have hf : mfree k.holes holeCount = some n := hf
  simp [deposit, ho, hf]

/-- No other pigeonhole changes. -/
theorem mfind_deposit_other (ho : ∀ h, openHole k launch entry ≠ some (n, h))
    (hf : openHole k launch entry = none → mfree k.holes 32 ≠ some n) :
    mfind (deposit launch part entry expiry args (k, order)).1.holes n = mfind k.holes n := by
  unfold deposit
  cases hopen : openHole k launch entry with
  | some e =>
    obtain ⟨m, h⟩ := e
    have hne : n ≠ m := fun heq => ho h (by rw [hopen, heq])
    exact mfind_mput_other _ _ _ _ hne
  | none =>
    cases hfree : mfree k.holes holeCount with
    | none => rfl
    | some m =>
      have hne : n ≠ m := fun heq => hf hopen (by rw [heq]; exact hfree)
      exact mfind_mput_other _ _ _ _ hne

end

/-! ## SPAWN -/

theorem framed_core_nextId (n : Nat) (f : State → Core) (g : State → Nat) : Framed [.cores] (fun s => [.core n (f s), .nextId (g s)]) := by
  refine ⟨fun s x hx => ?_, fun _ => rfl, fun _ => rfl⟩
  cases x <;> first | rfl | exact absurd (by simp) hx

/-- No card of a lane word that is no collective comes before it (R105, R106). -/
theorem splitCard_of_laneR {i : Instr} {op sub : Nat} {w : LaneW} {c : Ctx} (hi : c.i = i) (he : encode i = Encode.laneR op sub w)
    (hop : op < 64) (hcoll : isCollective i = false) (s : State) : splitCard c (usplit c s) = Eff.nop := by
  have hconv : isConv c.i = false := by rw [hi, isConv, isUniform_of_laneR he hop, hcoll]; rfl
  simp [usplit, hconv, splitCard]

/-- The core of a spawn after its deposits, lowest lane first, and the number of the next pending pigeonhole. -/
def spawnDeposits (c : Ctx) (w : LaneW) (s : State) : Core × Nat :=
  (lanesOf (c.active w.g w.gn)).foldl (fun k l =>
    deposit c.launch c.part (c.target w l) (c.cyc + c.spawnTimer w l) (c.spawnArgs w l) k) (getCore s c.core, s.nextId)

/-- The core of a spawn after it: its deposits, and the place and the cycle of the last one that deposited. -/
def spawnedCore (c : Ctx) (w : LaneW) (s : State) : Core :=
  { (spawnDeposits c w s).1 with
    spawnAt := if c.active w.g w.gn = 0 then (getCore s c.core).spawnAt else (c.cyc, c.key) }

/-- What a spawn that finds room does. -/
def spawnEff (c : Ctx) (w : LaneW) : Eff := fun s => [.core c.core (spawnedCore c w s), .nextId (spawnDeposits c w s).2]

theorem framed_spawnEff (c : Ctx) (w : LaneW) : Framed [.cores] (spawnEff c w) := framed_core_nextId _ _ _

theorem getCore_spawnEff (c : Ctx) (w : LaneW) (s : State) :
    getCore (applyAll (spawnEff c w s) s) c.core = spawnedCore c w s := by
  simp [spawnEff, getCore, mget_mput]

theorem getCore_of_same {s t : State} (h : Same [] s t) (k : Nat) : getCore t k = getCore s k := by
  have hcores : t.cores = s.cores := h .cores (by simp)
  rw [getCore, hcores, getCore]

/-- A spawn of word targets that finds room deposits its threads. -/
theorem spawnBody_of_room {c : Ctx} {s : State} {w : LaneW}
    (halign : ∀ l ∈ lanesOf (c.active w.g w.gn), c.src 0 .n64 w.a l % 4 = 0) (hfit : spawnFits c s w = true) :
    spawnBody w c s = .done { act := c.active w.g w.gn, eff := spawnEff c w } := by
  have hbody := alignedThen_of_aligned (fun m =>
    if !spawnFits c s w then .park (.retry .holes) Eff.nop else .done { act := m, eff := spawnEff c w }) halign
  rw [hfit] at hbody
  refine Eq.trans ?_ hbody
  unfold spawnBody alignedThen
  rw [hfit]
  have heff : spawnEff c w = fun s =>
      let r := spawnDeposits c w s
      [.core c.core { r.1 with spawnAt := if c.active w.g w.gn == 0 then r.1.spawnAt else (c.cyc, c.key) }, .nextId r.2] := by
    funext s
    by_cases hact : c.active w.g w.gn = 0
    · have hnone : spawnDeposits c w s = (getCore s c.core, s.nextId) := by
        have hlanes : lanesOf (c.active w.g w.gn) = [] := by rw [hact]; decide
        rw [spawnDeposits, hlanes]; rfl
      simp [spawnEff, spawnedCore, hact, hnone]
    · simp only [spawnEff, spawnedCore, if_neg hact, beq_eq_false_iff_ne.2 hact, Bool.false_eq_true, if_false]
  rw [heff]
  rfl

theorem spawn_done {w : LaneW} {s : State} {c : Ctx} (h : Issues (.spawn w) anyProfile s c)
    (halign : ∀ l ∈ lanesOf (c.active w.g w.gn), c.src 0 .n64 w.a l % 4 = 0) (hfit : spawnFits c s w = true) :
    ∃ t, exec (.spawn w) s = .next t ∧ Completes c s t [.cores] [] RegsKept none ∧ getCore t c.core = spawnedCore c w s := by
  obtain ⟨t, ht, hc, hafter⟩ := completes_own h (spawnBody_of_room halign hfit) ((framed_spawnEff c w).own []) (.inl rfl)
  obtain ⟨iss, -, hctx⟩ := ctxHere_iss h.1
  have hsame := (hafter s (by rw [splitCard_of_laneR (ctxOf_i hctx) rfl (by decide) rfl]; rfl)).1
  exact ⟨t, ht, hc, (getCore_of_same hsame _).trans (getCore_spawnEff c w s)⟩

/-! ## PHFLUSH -/

/-- What phflush does to the pigeonholes of its core. -/
def phflushEff (c : Ctx) (w : LaneW) : Eff := fun s =>
  let r := flushHoles (fun h => ((lanesOf (c.active w.g w.gn)).map (c.target w)).contains h.entry) (getCore s c.core, s.nextId)
  [.core c.core r.1, .nextId r.2]

/-- A flush makes the open pigeonholes that pass its test pending and changes nothing else of any. -/
theorem flushHoles_done (test : Hole → Bool) {k : Core} (order : Nat) (h : sortedKeys k.holes = true) (n : Nat) :
    (mfind (flushHoles test (k, order)).1.holes n).map (fun h => { h with pending := none }) =
      (mfind k.holes n).map (fun h => { h with pending := none }) ∧
    ∀ h, mfind (flushHoles test (k, order)).1.holes n = some h → (∀ o, test { h with pending := o } = true) → h.pending.isSome = true := by
  rw [flushHoles_eq]
  rcases mfind_foldl_flushHole test k.holes h (k, order) n with ⟨e, o, he, -, hnew⟩ | ⟨hclosed, hnew⟩
  · rw [hnew, he]
    exact ⟨rfl, fun x hx _ => by cases hx; rfl⟩
  · rw [hnew]
    refine ⟨rfl, fun x hx htest => ?_⟩
    simpa [htest x.pending] using hclosed x hx

theorem phflush_done {w : LaneW} {s : State} {c : Ctx} (h : Issues (.phflush w) anyProfile s c) :
    ∃ t, exec (.phflush w) s = .next t ∧ Completes c s t [.cores] [] RegsKept none ∧
      (sortedKeys (getCore s c.core).holes = true → ∀ n,
        ((mfind (getCore t c.core).holes n).map (fun h => { h with pending := none })) =
          ((mfind (getCore s c.core).holes n).map (fun h => { h with pending := none })) ∧
        (∀ h, mfind (getCore t c.core).holes n = some h →
          (∃ l ∈ lanesOf (c.active w.g w.gn), BitVec.ofNat 64 (c.src 0 .n64 w.a l) = h.entry) → h.pending.isSome = true)) := by
  obtain ⟨t, ht, hc, hafter⟩ := completes_own
    (body := fun c _ => .done { act := c.active w.g w.gn, eff := phflushEff c w }) h rfl ((framed_core_nextId _ _ _).own []) (.inl rfl)
  refine ⟨t, ht, hc, fun hsort n => ?_⟩
  obtain ⟨iss, -, hctx⟩ := ctxHere_iss h.1
  have hsame := (hafter s (by rw [splitCard_of_laneR (ctxOf_i hctx) rfl (by decide) rfl]; rfl)).1
  have hcore : getCore t c.core = (flushHoles (fun h => ((lanesOf (c.active w.g w.gn)).map (c.target w)).contains h.entry)
      (getCore s c.core, s.nextId)).1 :=
    (getCore_of_same hsame _).trans (by simp [phflushEff, getCore, mget_mput])
  obtain ⟨hkeep, hpend⟩ := flushHoles_done (fun h => ((lanesOf (c.active w.g w.gn)).map (c.target w)).contains h.entry) s.nextId hsort n
  rw [hcore]
  refine ⟨hkeep, fun x hx ⟨l, hl, hentry⟩ => hpend x hx fun _ => ?_⟩
  exact List.contains_iff_mem.2 (List.mem_map.2 ⟨l, hl, hentry⟩)

/-- Settles O43: SPAWN and PHFLUSH change their core alone, by the deposits and by the flush; a deposit changes one pigeonhole. -/
theorem pigeonholeForms : Obligations.PigeonholeForms := by
  unfold Obligations.PigeonholeForms
  exact ⟨⟨fun _ _ _ h halign hfit => spawn_done h halign hfit, fun _ _ _ h => phflush_done h⟩,
    fun _ _ _ _ _ _ _ _ => ⟨fun _ _ ho => mfind_deposit_open ho, fun _ ho hf => mfind_deposit_new ho hf,
      fun _ ho hf => mfind_deposit_other ho hf⟩⟩

end Sys2Proof.Machine
end

section
/-! PROOFS. Parked forms that return with a value alone (O56: R101, R136, R241, R245, R273, R337, R343). -/

namespace Sys2Proof.Machine

/-! ## What stands while a parked agent is woken -/

/-- An agent's wait, its registers, its place and what a return keeps of it are the same in two states. -/
def Stands (a : Agent) (s t : State) : Prop :=
  match a with
  | .group p => ∀ g, mfind s.groups p = some g → ∃ h, mfind t.groups p = some h ∧ h.u.wait = g.u.wait ∧ h.u.regs = g.u.regs ∧
      h.live = g.live ∧ h.tr = g.tr ∧ h.sq = g.sq ∧ h.sched = g.sched
  | .stream p => ∀ g, mfind s.streams p = some g → ∃ h, mfind t.streams p = some h ∧ h.u.wait = g.u.wait ∧ h.u.regs = g.u.regs ∧
      h.pc = g.pc ∧ h.loop = g.loop ∧ h.ops = g.ops ∧ h.trap = g.trap

theorem Stands.trans {a : Agent} (s t u : State) (h : Stands a s t) (k : Stands a t u) : Stands a s u := by
  cases a with
  | group p =>
    intro g hg
    obtain ⟨g1, hg1, e1, e2, e3, e4, e5, e6⟩ := h g hg
    obtain ⟨g2, hg2, f1, f2, f3, f4, f5, f6⟩ := k g1 hg1
    exact ⟨g2, hg2, f1.trans e1, f2.trans e2, f3.trans e3, f4.trans e4, f5.trans e5, f6.trans e6⟩
  | stream p =>
    intro g hg
    obtain ⟨g1, hg1, e1, e2, e3, e4, e5, e6⟩ := h g hg
    obtain ⟨g2, hg2, f1, f2, f3, f4, f5, f6⟩ := k g1 hg1
    exact ⟨g2, hg2, f1.trans e1, f2.trans e2, f3.trans e3, f4.trans e4, f5.trans e5, f6.trans e6⟩

theorem stands_of_agents {a : Agent} {s t : State} (hg : t.groups = s.groups) (hs : t.streams = s.streams) : Stands a s t := by
  cases a with
  | group p => exact fun g h => ⟨g, by rw [hg]; exact h, rfl, rfl, rfl, rfl, rfl, rfl⟩
  | stream p => exact fun g h => ⟨g, by rw [hs]; exact h, rfl, rfl, rfl, rfl, rfl, rfl⟩

theorem Framed.stands {xs : List Comp} {f : Eff} (h : Framed xs f) (a : Agent) : Eff.Leaves (Stands a) f := fun s =>
  stands_of_agents (h.groups s) (h.streams s)

/-- A change of what groups and streams share that keeps registers and wait. -/
theorem stands_setU (a : Agent) {f : UCtx → UCtx} (hw : ∀ u, (f u).wait = u.wait) (hr : ∀ u, (f u).regs = u.regs) :
    Eff.Leaves (Stands a) (setU a f) := fun s => by
  cases a with
  | group p =>
    intro g hg
    exact ⟨{ g with u := f g.u }, by simp [setU, hg], hw _, hr _, rfl, rfl, rfl, rfl⟩
  | stream p =>
    intro g hg
    exact ⟨{ g with u := f g.u }, by simp [setU, hg], hw _, hr _, rfl, rfl, rfl, rfl⟩

/-! ## An agent woken -/

/-- Where the stream goes on depends on its loop alone. -/
theorem streamNext_pc {x y : Stream} (h : x.loop = y.loop) (next : DWord) : (streamNext x next).pc = (streamNext y next).pc := by
  unfold streamNext
  rw [h]
  cases y.loop with
  | none => rfl
  | some l => dsimp only; split <;> (try split) <;> rfl

theorem streamNext_keeps (x : Stream) (next : DWord) : (streamNext x next).u = x.u ∧ (streamNext x next).blk = x.blk ∧
    (streamNext x next).ops = x.ops ∧ (streamNext x next).trap = x.trap := by
  unfold streamNext
  cases x.loop with
  | none => exact ⟨rfl, rfl, rfl, rfl⟩
  | some l => dsimp only; split <;> (try split) <;> exact ⟨rfl, rfl, rfl, rfl⟩

theorem Woken.mono {a : Agent} {w : Wait} {R R' : Regs → Regs → Prop} {s t : State} (h : Woken a w R s t)
    (hR : ∀ r r', R r r' → R' r r') : Woken a w R' s t := by
  cases a with
  | group p =>
    intro g hg
    obtain ⟨k, hk, hwait, hregs, hrest⟩ := h g hg
    exact ⟨k, hk, hwait, hR _ _ hregs, hrest⟩
  | stream p =>
    intro g hg
    obtain ⟨k, hk, hwait, hregs, hrest⟩ := h g hg
    exact ⟨k, hk, hwait, hR _ _ hregs, hrest⟩

theorem Woken.of_stands {a : Agent} {w : Wait} {R : Regs → Regs → Prop} {s s1 t : State} (h : Stands a s s1)
    (k : Woken a w R s1 t) : Woken a w R s t := by
  cases a with
  | group p =>
    intro g hg
    obtain ⟨g1, hg1, -, regs, live, tr, sq, sched⟩ := h g hg
    obtain ⟨g2, hg2, hwait, hregs, hlive, htr, hsq, hpc⟩ := k g1 hg1
    exact ⟨g2, hg2, hwait, regs ▸ hregs, hlive.trans live, htr.trans tr, hsq.trans sq, sched ▸ hpc⟩
  | stream p =>
    intro g hg
    obtain ⟨g1, hg1, -, regs, -, loop, ops, trap⟩ := h g hg
    obtain ⟨g2, hg2, hwait, hregs, hpc, hops, htrap⟩ := k g1 hg1
    exact ⟨g2, hg2, hwait, regs ▸ hregs, hpc.trans (streamNext_pc loop _), hops.trans ops, htrap.trans trap⟩

theorem Woken.stands {a : Agent} {w : Wait} {R : Regs → Regs → Prop} {s s1 t : State} (h : Woken a w R s s1)
    (k : Stands a s1 t) : Woken a w R s t := by
  cases a with
  | group p =>
    intro g hg
    obtain ⟨g1, hg1, hwait, hregs, hlive, htr, hsq, hpc⟩ := h g hg
    obtain ⟨g2, hg2, wait, regs, live, tr, sq, sched⟩ := k g1 hg1
    exact ⟨g2, hg2, wait.trans hwait, regs ▸ hregs, live.trans hlive, tr.trans htr, sq.trans hsq, sched ▸ hpc⟩
  | stream p =>
    intro g hg
    obtain ⟨g1, hg1, hwait, hregs, hpc, hops, htrap⟩ := h g hg
    obtain ⟨g2, hg2, wait, regs, pc, -, ops, trap⟩ := k g1 hg1
    exact ⟨g2, hg2, wait.trans hwait, regs ▸ hregs, pc.trans hpc, ops.trans hops, trap.trans htrap⟩

theorem within_wake (a : Agent) (sets : List Reg) (regs : Regs → Regs) :
    Within [] (groupPlaces a) (streamPlaces a) (wake a sets regs) := by
  refine within_of fun s => ?_
  cases a with
  | group p =>
    unfold wake
    dsimp only
    split
    · exact ⟨Eff.nop, rfl, within_nop _ _ _⟩
    · split
      · exact ⟨Eff.nop, rfl, within_nop _ _ _⟩
      · exact ⟨fun _ => _, rfl, within_group p _ _⟩
  | stream p =>
    unfold wake
    dsimp only
    split
    · exact ⟨Eff.nop, rfl, within_nop _ _ _⟩
    · split
      · exact ⟨Eff.nop, rfl, within_nop _ _ _⟩
      · exact ⟨fun _ => _, rfl, within_stream p _ _⟩

/-- What the groups and streams share of an agent that a return wakes. -/
def wokenU (u : UCtx) (w : Wait) (sets : List Reg) (regs : Regs → Regs) : UCtx :=
  { u with regs := regs u.regs
           outs := if sets.isEmpty then u.outs else u.outs ++
             [{ pc := w.pc, regs := sets, lanes := 0, before := u.regs, sq := none, landed := false }]
           mark := u.mark || w.mark, wait := none, since := mdel u.since w.pc.toNat, counted := u.counted.erase w.pc.toNat }

/-- The group that a return wakes. -/
def wokenGroup (g : Group) (w : Wait) (sets : List Reg) (regs : Regs → Regs) : Group :=
  { g with u := wokenU g.u w sets regs
           sched := { g.sched with pc := (lanesOf w.lanes).foldl (fun m l => mset 0 m l w.next) g.sched.pc, released := none
                                   hold := g.sched.hold.filter (fun e => !inMask w.lanes e.1)
                                   age := g.sched.age.filter (fun e => !inMask w.lanes e.1) } }

/-- The stream that a return wakes. -/
def wokenStream (t : Stream) (w : Wait) (sets : List Reg) (regs : Regs → Regs) : Stream :=
  streamNext { t with u := wokenU t.u w sets regs } w.next

theorem wake_group {s : State} {p : Nat} {g : Group} {w : Wait} (hg : mfind s.groups p = some g) (hw : g.u.wait = some w)
    (sets : List Reg) (regs : Regs → Regs) : wake (.group p) sets regs s = [.group p (wokenGroup g w sets regs)] := by
  simp only [wake, hg, hw]
  rfl

theorem wake_stream {s : State} {p : Nat} {t : Stream} {w : Wait} (ht : mfind s.streams p = some t) (hw : t.u.wait = some w)
    (sets : List Reg) (regs : Regs → Regs) : wake (.stream p) sets regs s = [.stream p (wokenStream t w sets regs)] := by
  simp only [wake, ht, hw]
  rfl

/-- An agent that waits is woken with its new registers. -/
theorem woken_wake {s : State} {a : Agent} {w : Wait} (h : WaitsAt s a w) (sets : List Reg) (regs : Regs → Regs) :
    Woken a w (fun r r' => r' = regs r) s (applyAll (wake a sets regs s) s) := by
  cases a with
  | group p =>
    intro g hg
    have hw : g.u.wait = some w := by simpa [WaitsAt, agentU, hg] using h
    refine ⟨wokenGroup g w sets regs, ?_, rfl, rfl, rfl, rfl, rfl, fun l hl => ?_⟩
    · rw [wake_group hg hw]
      exact mfind_group p _ s
    · simp only [wokenGroup, mget_foldl_mset, mem_lanesOf, hl, true_and]
  | stream p =>
    intro t ht
    have hw : t.u.wait = some w := by simpa [WaitsAt, agentU, ht] using h
    obtain ⟨hu, -, hops, htrap⟩ := streamNext_keeps { t with u := wokenU t.u w sets regs } w.next
    refine ⟨wokenStream t w sets regs, ?_, congrArg UCtx.wait hu, congrArg UCtx.regs hu, streamNext_pc (by rfl) _, hops, htrap⟩
    rw [wake_stream ht hw]
    exact mfind_mput_same _ _ _

theorem waitKind_of_waitsAt {s : State} {a : Agent} {w : Wait} (h : WaitsAt s a w) : waitKind s a = some w.kind := by
  simp only [waitKind, show (agentU s a).bind (·.wait) = some w from h, Option.map_some]

theorem waitsAt_of_agentU {s : State} {a : Agent} {u : UCtx} {w : Wait} (hu : agentU s a = some u) (hw : u.wait = some w) :
    WaitsAt s a w := by
  simp [WaitsAt, hu, hw]

theorem waitsAt_of_group {s : State} {p : Nat} {g : Group} {w : Wait} (hg : mfind s.groups p = some g) (hw : g.u.wait = some w) :
    WaitsAt s (.group p) w :=
  waitsAt_of_agentU (u := g.u) (by simp [agentU, hg]) hw

theorem waitsAt_of_partyOf {s : State} {a : Agent} {x : Party} {w : Wait} (hx : partyOf s a = some x) (hw : x.u.wait = some w) :
    WaitsAt s a w :=
  waitsAt_of_agentU (agentU_of_partyOf hx) hw

theorem WaitsAt.of_stands {s t : State} {a : Agent} {w : Wait} (h : Stands a s t) (hw : WaitsAt s a w) : WaitsAt t a w := by
  cases a with
  | group p =>
    obtain ⟨u, hu, hwu⟩ := Option.bind_eq_some_iff.1 hw
    obtain ⟨g, hg, rfl⟩ := Option.map_eq_some_iff.1 hu
    obtain ⟨k, hk, hkw, -⟩ := h g hg
    exact waitsAt_of_group hk (hkw.trans hwu)
  | stream p =>
    obtain ⟨u, hu, hwu⟩ := Option.bind_eq_some_iff.1 hw
    obtain ⟨g, hg, rfl⟩ := Option.map_eq_some_iff.1 hu
    obtain ⟨k, hk, hkw, -⟩ := h g hg
    exact waitsAt_of_agentU (u := k.u) (by simp [agentU, hk]) (hkw.trans hwu)

/-- The register result of a form that returns a value in kD. -/
theorem kset_setsK (d : Nat) (v : DWord) (r : Regs) : KSet d v r (setsK d v r) :=
  ⟨(getK_setK r.u d · v), ⟨rfl, rfl, rfl, rfl, rfl, rfl⟩, rfl⟩

/-- An agent that waits is woken with a value in kD. -/
theorem woken_wakeK {s : State} {a : Agent} {w : Wait} (h : WaitsAt s a w) (d : Nat) (v : DWord) :
    Woken a w (KSet d v) s (applyAll (wakeK a d v s) s) :=
  (woken_wake h _ _).mono fun _ _ hr => hr ▸ kset_setsK d v _

theorem within_wakeK (a : Agent) (d : Nat) (v : DWord) : Within [] (groupPlaces a) (streamPlaces a) (wakeK a d v) :=
  within_wake a _ _

/-- A return whose condition holds happens. -/
theorem returns_of_over {i : Instr} {s : State} {a : Agent} {w : Wait} {xs : List Comp} {R : Regs → Regs → Prop} {P : State → Prop}
    {cond : State → Option Eff} {eff : Eff}
    (hx : exec i s = commit (fun s => match cond s with
      | some eff => eff s
      | none => []) s) (hover : cond s = some eff) (hf : Within xs (groupPlaces a) (streamPlaces a) eff)
    (hwoken : Woken a w R s (applyAll (eff s) s)) (hp : P (applyAll (eff s) s)) : Returns i s a w xs R P := by
  refine eventDoes_of_within hf (hx.trans ?_) ⟨hwoken, hp⟩
  simp only [commit_eq, hover]

/-! ## Forms that return a value alone -/

theorem kcwaitReturn_done {s : State} {w : Wait} {u : UCtx} {d kc : Nat} (hu : agentU s (subjAgent s) = some u) (hw : u.wait = some w)
    (hk : w.kind = .kcwait d kc) (hc : getKc u.regs.u kc = 0) :
    Returns .kcwaitReturn s (subjAgent s) w [] (fun r r' => r' = kcwaitRegs d kc r) (fun _ => True) := by
  have hwait := waitsAt_of_agentU hu hw
  refine returns_of_over (cond := fun s => kcwaitOver s (subjAgent s)) (eff := wake (subjAgent s) [.k d] (kcwaitRegs d kc)) rfl ?_
    (within_wake _ _ _) (woken_wake hwait _ _) trivial
  simp [kcwaitOver, hu, waitKind_of_waitsAt hwait, hk, hc]

theorem napExpiry_done {s : State} {w : Wait} {n : Nat} (hwait : WaitsAt s (subjAgent s) w) (hk : w.kind = .nap n)
    (hn : n ≤ s.clk.cyc) : Returns .napExpiry s (subjAgent s) w [] RegsKept (fun _ => True) := by
  refine returns_of_over (cond := fun s => napOver s (subjAgent s)) (eff := wake (subjAgent s) [] id) rfl ?_
    (within_wake _ _ _) (woken_wake hwait _ _) trivial
  simp [napOver, waitKind_of_waitsAt hwait, hk, hn]

theorem barrierWaitReturn_done {s : State} {w : Wait} {d key : Nat} {sync : Bool} {x : Party}
    (hx : partyOf s (.group (subjAt s 0)) = some x) (hw : x.u.wait = some w) (hk : w.kind = .barWait d key sync)
    (hover : waitOver s x key = true) :
    Returns .barrierWaitReturn s (.group (subjAt s 0)) w [] (KSet d (barWord (barAt s x.blk key))) (fun _ => True) := by
  have hwait := waitsAt_of_partyOf hx hw
  refine returns_of_over (cond := fun s => barOver s (.group (subjAt s 0))) rfl ?_ (within_wakeK _ _ _) (woken_wakeK hwait _ _) trivial
  simp [barOver, hx, waitKind_of_waitsAt hwait, hk, hover]

theorem mbarWaitReturn_done {s : State} {w : Wait} {d key : Nat} {sync : Bool} {x : Party}
    (hx : partyOf s (.stream (subjAt s 0)) = some x) (hw : x.u.wait = some w) (hk : w.kind = .barWait d key sync)
    (hover : waitOver s x key = true) :
    Returns .mbarWaitReturn s (.stream (subjAt s 0)) w [] (KSet d (barWord (barAt s x.blk key))) (fun _ => True) := by
  have hwait := waitsAt_of_partyOf hx hw
  refine returns_of_over (cond := fun s => barOver s (.stream (subjAt s 0))) rfl ?_ (within_wakeK _ _ _) (woken_wakeK hwait _ _) trivial
  simp [barOver, hx, waitKind_of_waitsAt hwait, hk, hover]

/-! ## Ring forms (R245) -/

theorem ringWaitReturn_room {s : State} {w : Wait} {d n side : Nat} {r : Ring} (hwait : WaitsAt s (subjAgent s) w)
    (hk : w.kind = .ringWait d n side) (hr : ringAt s (agentBlk s (subjAgent s)) n = some r)
    (hover : (side = 0 ∧ countDiff r.pr r.f < r.ns) ∨ (side = 1 ∧ countDiff r.p r.a ≠ 0)) :
    Returns .ringWaitReturn s (subjAgent s) w []
      (KSet d (BitVec.ofNat 64 (if side = 0 then r.pr % r.ns else ringTag s (agentBlk s (subjAgent s)) r))) (fun _ => True) := by
  refine returns_of_over (cond := fun s => ringOver s (subjAgent s)) rfl ?_ (within_wakeK _ _ _) (woken_wakeK hwait _ _) trivial
  obtain ⟨rfl, hroom⟩ | ⟨rfl, hfull⟩ := hover
  · simp [ringOver, waitKind_of_waitsAt hwait, hk, hr, ringRoom, hroom]
  · simp [ringOver, waitKind_of_waitsAt hwait, hk, hr, ringFull, hfull]

theorem ringWaitReturn_get {s : State} {w : Wait} {d n : Nat} {r : Ring} (hwait : WaitsAt s (subjAgent s) w)
    (hk : w.kind = .ringGet d n) (hr : ringAt s (agentBlk s (subjAgent s)) n = some r) (hfull : countDiff r.p r.a ≠ 0) :
    Returns .ringWaitReturn s (subjAgent s) w [.blocks] (KSet d (BitVec.ofNat 64 (ringTag s (agentBlk s (subjAgent s)) r)))
      (fun t => ringAt t (agentBlk s (subjAgent s)) n = some { r with a := (r.a + 1) % 2 ^ 32 }) := by
  have hring := framed_setRing (agentBlk s (subjAgent s)) n { r with a := (r.a + 1) % 2 ^ 32 }
  have hwake := within_wakeK (subjAgent s) d (BitVec.ofNat 64 (ringTag s (agentBlk s (subjAgent s)) r))
  have hstands := hring.stands (subjAgent s) s
  refine returns_of_over (cond := fun s => ringOver s (subjAgent s))
    (eff := Eff.seq (setRing (agentBlk s (subjAgent s)) n { r with a := (r.a + 1) % 2 ^ 32 })
      (wakeK (subjAgent s) d (BitVec.ofNat 64 (ringTag s (agentBlk s (subjAgent s)) r)))) rfl ?_
    ((hring.within _ _).seq (hwake.mono (by simp))) ?_ ?_
  · simp [ringOver, waitKind_of_waitsAt hwait, hk, hr, ringFull, hfull]
  · rw [applyAll_seq]
    exact (woken_wakeK (hwait.of_stands hstands) d _).of_stands hstands
  · rw [applyAll_seq]
    exact (ringAt_congr ((hwake _).1 .blocks (by simp)) _ _).trans (ringAt_setRing hr _)

end Sys2Proof.Machine
end

section
/-! PROOFS. Parked forms whose return leaves more than a value: a put's slot, the windows and slots that pmwait and mon.wait
disarm (O56: R241, R245, R273). -/

namespace Sys2Proof.Machine

/-! ## The slot that a put takes (R245) -/

theorem ringAt_setRing_of_ne {blk n blk' m : Nat} (h : blk ≠ blk' ∨ n ≠ m) (r : Ring) (s : State) :
    ringAt (applyAll (setRing blk' m r s) s) blk n = ringAt s blk n := by
  unfold setRing
  cases hb : mfind s.blocks blk' with
  | none => rfl
  | some b =>
    by_cases hblk : blk = blk'
    · subst hblk
      simp [ringAt, hb, mfind_mput_other _ _ _ _ (h.resolve_left (· rfl))]
    · simp [ringAt, mfind_mput_other _ _ _ _ hblk]

/-- A ring is there in both states with the same slots, taken and acquired. -/
def RingKept (blk n : Nat) (s t : State) : Prop :=
  ∀ r, ringAt s blk n = some r → ∃ r', ringAt t blk n = some r' ∧ r'.pr = r.pr ∧ r'.a = r.a ∧ r'.ns = r.ns

theorem RingKept.refl (blk n : Nat) (s : State) : RingKept blk n s s := fun r h => ⟨r, h, rfl, rfl, rfl⟩

theorem RingKept.trans {blk n : Nat} (s t u : State) (h : RingKept blk n s t) (k : RingKept blk n t u) : RingKept blk n s u :=
  fun r hr => by
    obtain ⟨r1, h1, hpr, ha, hns⟩ := h r hr
    obtain ⟨r2, h2, kpr, ka, kns⟩ := k r1 h1
    exact ⟨r2, h2, kpr.trans hpr, ka.trans ha, kns.trans hns⟩

theorem ringKept_of_eq {blk n : Nat} {s t : State} (h : ringAt t blk n = ringAt s blk n) : RingKept blk n s t := fun r hr =>
  ⟨r, h.trans hr, rfl, rfl, rfl⟩

theorem ringKept_of_within {blk n : Nat} {gs ss : List Nat} {f : Eff} (h : Within [] gs ss f) : Eff.Leaves (RingKept blk n) f :=
  fun s => ringKept_of_eq (ringAt_congr ((h s).1 .blocks (by simp)) _ _)

/-- The record of any release leaves a ring's slots taken and acquired: it counts publishes or frees. -/
theorem ringKept_recordRing (blk n : Nat) (x : Party) (q : Pend) : Eff.Leaves (RingKept blk n) (recordRing x q) := fun s r hr => by
  by_cases hthis : x.blk = blk ∧ pendRing q = some n
  · obtain ⟨rfl, hq⟩ := hthis
    refine ⟨ringCounted q.kind r, ringAt_recordRing hq hr, ?_⟩
    cases q.kind <;> exact ⟨rfl, rfl, rfl⟩
  · refine ringKept_of_eq ?_ r hr
    have hother : ∀ m slot f v r', pendRing q = some m →
        ringAt (applyAll (Eff.seq (putHeader x.blk v slot f) (setRing x.blk m r') s) s) blk n = ringAt s blk n :=
      fun m slot f v r' hm => by
        rw [applyAll_seq, ringAt_setRing_of_ne]
        · exact ringAt_congr ((framed_putHeader x.blk v slot f).same s .blocks (by simp)) blk n
        · by_contra h
          obtain ⟨hblk, hn⟩ := not_or.1 h
          exact hthis ⟨(not_not.1 hblk).symm, not_not.1 hn ▸ hm⟩
    unfold recordRing
    cases hk : q.kind with
    | put m slot tag =>
      dsimp only
      cases hm : ringAt s x.blk m with
      | none => rfl
      | some v => exact hother m _ _ _ _ (by simp [pendRing, hk])
    | putFree m =>
      dsimp only
      cases hm : ringAt s x.blk m with
      | none => rfl
      | some v => exact hother m _ _ _ _ (by simp [pendRing, hk])
    | arrive => rfl

/-- A release that issues changes what its agent has pending, and records one release at most. -/
theorem within_takeRing (a : Agent) : Within [.blocks, .spad] (groupPlaces a) (streamPlaces a) (takeRing a) := by
  refine within_of fun s => ?_
  unfold takeRing
  split
  · exact ⟨_, rfl, ((within_setU _ _).mono (by simp)).seq ((framed_recordRing _ _).within _ _)⟩
  · exact ⟨Eff.nop, rfl, within_nop _ _ _⟩

theorem ringKept_takeRing (a : Agent) (blk n : Nat) : Eff.Leaves (RingKept blk n) (takeRing a) := fun s => by
  unfold takeRing
  split
  · exact leaves_seq RingKept.trans (ringKept_of_within (within_setU _ _)) (ringKept_recordRing _ _ _ _) s
  · exact RingKept.refl _ _ _

theorem stands_setPend (a : Agent) (f : List Pend → List Pend) : Eff.Leaves (Stands a) (setU a fun u => { u with pend := f u.pend }) :=
  stands_setU a (fun _ => rfl) (fun _ => rfl)

theorem stands_takeRing (a : Agent) : Eff.Leaves (Stands a) (takeRing a) := fun s => by
  unfold takeRing
  split
  · next q _ _ => exact leaves_seq Stands.trans (stands_setPend a (·.erase q)) ((framed_recordRing _ _).stands a) s
  · exact stands_of_agents rfl rfl

/-- What each part of a release keeps, whatever it makes pending, the release keeps. -/
theorem leaves_ringRelease {R : State → State → Prop} (htrans : ∀ s t u, R s t → R t u → R s u) {a : Agent} {k : PendKind}
    (hset : ∀ f : List Pend → List Pend, Eff.Leaves R (setU a fun u => { u with pend := f u.pend }))
    (hnext : Eff.Leaves R (fun s => [.nextId (s.nextId + 1)])) (htake : Eff.Leaves R (takeRing a)) :
    Eff.Leaves R (ringRelease a k) := fun s => by
  have hparts : applyAll (ringRelease a k s) s = applyAll (Eff.seq
      (setU a fun u => { u with pend := (fun l => l ++ [{ kind := k, after := s.nextId }]) u.pend })
      (Eff.seq (fun s => [.nextId (s.nextId + 1)]) (takeRing a)) s) s := by
    simp only [ringRelease, applyAll_all_cons, applyAll_all_nil, applyAll_seq]
  rw [hparts]
  exact leaves_seq htrans (hset (fun l => l ++ [{ kind := k, after := s.nextId }])) (leaves_seq htrans hnext htake) s

theorem within_ringRelease (a : Agent) (k : PendKind) :
    Within [.blocks, .spad] (groupPlaces a) (streamPlaces a) (ringRelease a k) :=
  leaves_ringRelease (R := EventKeeps [.blocks, .spad] (groupPlaces a) (streamPlaces a)) (fun _ _ _ => EventKeeps.trans)
    (fun _ => (within_setU _ _).mono (by simp)) (((framed_nextId _).mono (by simp)).within _ _) (within_takeRing a)

theorem ringKept_ringRelease (a : Agent) (k : PendKind) (blk n : Nat) : Eff.Leaves (RingKept blk n) (ringRelease a k) :=
  leaves_ringRelease RingKept.trans (fun _ => ringKept_of_within (within_setU _ _))
    (ringKept_of_within ((framed_nextId _).within [] [])) (ringKept_takeRing a blk n)

theorem stands_ringRelease (a : Agent) (k : PendKind) : Eff.Leaves (Stands a) (ringRelease a k) :=
  leaves_ringRelease Stands.trans (stands_setPend a) ((framed_nextId _).stands a) (stands_takeRing a)

/-- A put takes the next slot of its ring and keeps its agent's place. -/
theorem putTakes_done (a : Agent) {s : State} {blk n : Nat} {r : Ring} (tag : Word) (hr : ringAt s blk n = some r) {t : State}
    (ht : t = applyAll (putTakes a blk n tag s) s) :
    EventKeeps [.blocks, .spad] (groupPlaces a) (streamPlaces a) s t ∧ Stands a s t ∧
    ∃ r', ringAt t blk n = some r' ∧ r'.pr = (r.pr + 1) % 2 ^ 32 ∧ r'.a = r.a ∧ r'.ns = r.ns := by
  subst ht
  have hset := framed_setRing blk n { r with pr := (r.pr + 1) % 2 ^ 32 }
  simp only [putTakes, hr]
  refine ⟨((hset.mono (by simp)).within _ _).seq (within_ringRelease _ _) s,
    leaves_seq Stands.trans (hset.stands a) (stands_ringRelease _ _) s, ?_⟩
  rw [applyAll_seq]
  exact ringKept_ringRelease a _ blk n _ _ (ringAt_setRing hr _)

theorem ringWaitReturn_put {s : State} {w : Wait} {n : Nat} {tag : Word} {r : Ring} (hwait : WaitsAt s (subjAgent s) w)
    (hk : w.kind = .ringPut n tag) (hr : ringAt s (agentBlk s (subjAgent s)) n = some r) (hroom : countDiff r.pr r.f < r.ns) :
    Returns .ringWaitReturn s (subjAgent s) w [.blocks, .spad] RegsKept (fun t =>
      ∃ r', ringAt t (agentBlk s (subjAgent s)) n = some r' ∧ r'.pr = (r.pr + 1) % 2 ^ 32 ∧ r'.a = r.a ∧ r'.ns = r.ns) := by
  have hwake := within_wake (subjAgent s) [] id
  have hexec : exec .ringWaitReturn s =
      commit (Eff.seq (wake (subjAgent s) [] id) (putTakes (subjAgent s) (agentBlk s (subjAgent s)) n tag)) s := by
    have hover : ringOver s (subjAgent s) =
        some (Eff.seq (wake (subjAgent s) [] id) (putTakes (subjAgent s) (agentBlk s (subjAgent s)) n tag)) := by
      simp only [ringOver, waitKind_of_waitsAt hwait, hk, hr, ringRoom, hroom, decide_true, if_true]
    show execRingWaitReturn s = _
    simp only [execRingWaitReturn, commit_eq, hover]
  rw [commit_eq, applyAll_seq] at hexec
  obtain ⟨hkeeps, hstands, hring⟩ := putTakes_done (subjAgent s) tag
    ((ringAt_congr ((hwake s).1 .blocks (by simp)) _ _).trans hr) rfl
  exact ⟨_, hexec, (hwake.mono (by simp) s).trans hkeeps, (woken_wake hwait [] id).stands hstands, hring⟩

/-! ## What a group is armed for (R241, R273) -/

theorem within_atGroup (p : Nat) (f : Group → Group) : Within [] [p] [] (atGroup p f) := within_of fun s => by
  unfold atGroup
  split
  · exact ⟨fun _ => _, rfl, within_group p _ _⟩
  · exact ⟨Eff.nop, rfl, within_nop _ _ _⟩

/-- A change of a group that keeps what it waits for and its place keeps them. -/
theorem stands_atGroup {p : Nat} {s : State} {g : Group} (hg : mfind s.groups p = some g) (f : Group → Group) (hu : (f g).u = g.u)
    (hlive : (f g).live = g.live) (htr : (f g).tr = g.tr) (hsq : (f g).sq = g.sq) (hsched : (f g).sched = g.sched) :
    Stands (.group p) s (applyAll (atGroup p f s) s) := fun k hk => by
  obtain rfl : g = k := Option.some.inj (hg.symm.trans hk)
  rw [atGroup_eq hg]
  exact ⟨f g, mfind_group p _ s, by rw [hu], by rw [hu], hlive, htr, hsq, hsched⟩

/-- A group woken keeps all but what it shares with the stream and its issue state. -/
theorem mfind_wakeK {s : State} {p : Nat} {g : Group} {w : Wait} (hg : mfind s.groups p = some g) (hw : g.u.wait = some w) (d : Nat)
    (v : DWord) : mfind (applyAll (wakeK (.group p) d v s) s).groups p = some (wokenGroup g w [.k d] (setsK d v)) := by
  rw [wakeK, wake_group hg hw]
  exact mfind_group p _ s

/-- A group that changes what it is armed for returns with a value. -/
theorem returns_atGroup {s : State} {p : Nat} {g : Group} {w : Wait} (hg : mfind s.groups p = some g) (hw : g.u.wait = some w)
    (f : Group → Group) (hu : (f g).u = g.u) (hlive : (f g).live = g.live) (htr : (f g).tr = g.tr) (hsq : (f g).sq = g.sq)
    (hsched : (f g).sched = g.sched) (d : Nat) (v : DWord) {t : State}
    (ht : t = applyAll (Eff.seq (atGroup p f) (wakeK (.group p) d v) s) s) :
    EventKeeps [] [p] [] s t ∧ Woken (.group p) w (KSet d v) s t ∧
      mfind t.groups p = some (wokenGroup (f g) w [.k d] (setsK d v)) := by
  have hstands := stands_atGroup hg f hu hlive htr hsq hsched
  have hat : mfind (applyAll (atGroup p f s) s).groups p = some (f g) := by
    rw [atGroup_eq hg]
    exact mfind_group p _ s
  subst ht
  refine ⟨(within_atGroup p f).seq (within_wakeK (.group p) d v) s, ?_, ?_⟩
  · rw [applyAll_seq]
    exact (woken_wakeK ((waitsAt_of_group hg hw).of_stands hstands) d v).of_stands hstands
  · rw [applyAll_seq]
    exact mfind_wakeK hat (by rw [hu, hw]) d v

theorem pmwaitReturn_done {s : State} {p : Nat} {g : Group} {w : Wait} {d n : Nat} {v : DWord} (hp : p = subjAt s 0)
    (hg : mfind s.groups p = some g) (hw : g.u.wait = some w) (hk : w.kind = .pmwait d) (hready : pmReady s g = some (n, v)) :
    Returns .pmwaitReturn s (.group p) w [] (KSet d v) (fun t => ∃ h, mfind t.groups p = some h ∧
      ∀ m, mfind h.armed m = if m = n then none else mfind g.armed m) := by
  obtain ⟨hkeeps, hwoken, hgroup⟩ := returns_atGroup hg hw (fun g => { g with armed := mdel g.armed n }) rfl rfl rfl rfl rfl d v rfl
  refine ⟨_, ?_, hkeeps, hwoken, _, hgroup, fun m => ?_⟩
  · show execPmwaitReturn s = _
    have hover : pmwaitOver s p =
        some (Eff.seq (atGroup p (fun g => { g with armed := mdel g.armed n })) (wakeK (.group p) d v)) := by
      simp only [pmwaitOver, hg, waitKind_of_waitsAt (waitsAt_of_group hg hw), hk, hready]
    simp only [execPmwaitReturn, commit_eq, ← hp, hover]
  · split
    · next h => rw [h]; exact mfind_mdel_same _ _
    · next h => exact mfind_mdel_other _ _ _ h

theorem extendMask_of_priv_nil {s : State} {l : Nat} (h : (getDir s l).priv = []) (core : Nat) (as : List Nat) :
    extendMask core l as s = [] := by
  simp [extendMask, h]

/-- Operations that each leave a state as it is. -/
theorem forEach_idle {α : Type} {l : List α} {f : α → Eff} {s : State} (h : ∀ x ∈ l, applyAll (f x s) s = s) :
    applyAll (Eff.forEach l f s) s = s := by
  induction l with
  | nil => rfl
  | cons x l ih =>
    rw [show Eff.forEach (x :: l) f = Eff.seq (f x) (Eff.forEach l f) from rfl, applyAll_seq, h x List.mem_cons_self]
    exact ih fun y hy => h y (List.mem_cons_of_mem _ hy)

/-- Where no line has privatised copies, no run is merged. -/
theorem mergeRuns_of_noPrivate {s : State} (h : noPrivate s) (core : Nat) (rs : List (Nat × Nat × Bool)) :
    applyAll (mergeRuns core rs s) s = s := by
  refine forEach_idle fun r _ => forEach_idle fun l _ => ?_
  split
  · rw [mergeLine_of_priv_nil (getDir_priv_of_noPrivate h l)]; rfl
  · rw [extendMask_of_priv_nil (getDir_priv_of_noPrivate h l)]; rfl

theorem monWaitReturn_done {s : State} {p : Nat} {g : Group} {w : Wait} {d : Nat} {lim : Option Nat} (hp : p = subjAt s 0)
    (hg : mfind s.groups p = some g) (hw : g.u.wait = some w) (hk : w.kind = .monWait d lim) (hdiff : monDiffer s (coreOfG p) g ≠ 0)
    (hpoison : monPoison s g = none) (hdenied : monDenied s (coreOfG p) g = []) (hblind : g.mons.any monBlind = false)
    (hblocked : monBlocked s g = none) :
    Returns .monWaitReturn s (.group p) w [.mem, .cores, .coh] (KSet d (BitVec.ofNat 64 (monDiffer s (coreOfG p) g))) (fun t =>
      (noPrivate s → t.mem = s.mem) ∧
        ∃ h, mfind t.groups p = some h ∧ h.mons = g.mons.filter (fun e => !bit (monDiffer s (coreOfG p) g) e.1)) := by
  have hover : monOver s p = some (Eff.all
      [mergeRuns (coreOfG p) (monRuns s g (monDiffer s (coreOfG p) g)), atGroup p (disarm (monDiffer s (coreOfG p) g)),
       wakeK (.group p) d (BitVec.ofNat 64 (monDiffer s (coreOfG p) g))]) := by
    simp only [monOver, hg, waitKind_of_waitsAt (waitsAt_of_group hg hw), hk, hblind, hblocked, hpoison, hdiff, hdenied,
      Bool.false_eq_true, if_false, Option.isSome_none, List.isEmpty_nil, Bool.not_true]
  have hexec : exec .monWaitReturn s = execMonWaitReturn s := rfl
  simp only [execMonWaitReturn, commit_eq, ← hp, hover] at hexec
  generalize monDiffer s (coreOfG p) g = mask at hexec ⊢
  have hmerge := framed_mergeRuns (coreOfG p) (monRuns s g mask)
  have hmem : noPrivate s → (applyAll (mergeRuns (coreOfG p) (monRuns s g mask) s) s).mem = s.mem := fun h => by
    rw [mergeRuns_of_noPrivate h]
  have hfirst := (hmerge.mono (ys := [.mem, .cores, .coh]) (by simp [homeParts])).within [p] [] s
  have hstands := hmerge.stands (.group p) s
  have hg1 := (congrArg (mfind · p) (hmerge.groups s)).trans hg
  rw [applyAll_all_cons] at hexec
  generalize applyAll (mergeRuns (coreOfG p) (monRuns s g mask) s) s = s1 at *
  obtain ⟨hkeeps, hwoken, hgroup⟩ := returns_atGroup hg1 hw (disarm mask) rfl rfl rfl rfl rfl d (BitVec.ofNat 64 mask) rfl
  have hrest : applyAll (Eff.all [atGroup p (disarm mask), wakeK (.group p) d (BitVec.ofNat 64 mask)] s1) s1 =
      applyAll (Eff.seq (atGroup p (disarm mask)) (wakeK (.group p) d (BitVec.ofNat 64 mask)) s1) s1 := by
    simp only [applyAll_all_cons, applyAll_all_nil, applyAll_seq]
  rw [hrest] at hexec
  obtain ⟨hsame, hgroups, hstreams⟩ := hkeeps
  exact ⟨_, hexec, hfirst.trans ⟨hsame.mono (by simp), hgroups, hstreams⟩, hwoken.of_stands hstands,
    fun h => (hsame .mem (by simp)).trans (hmem h), _, hgroup, rfl⟩

theorem monWaitTimeout_done {s : State} {p : Nat} {g : Group} {w : Wait} {d limit : Nat} (hp : p = subjAt s 0)
    (hg : mfind s.groups p = some g) (hw : g.u.wait = some w) (hk : w.kind = .monWait d (some limit)) (hlimit : limit ≤ s.clk.cyc)
    (hdiff : monDiffer s (coreOfG p) g = 0) (hpoison : monPoison s g = none) (hblind : g.mons.any monBlind = false) :
    Returns .monWaitTimeout s (.group p) w [] (KSet d 0) (fun t => ∃ h, mfind t.groups p = some h ∧ h.mons = g.mons) := by
  have hkind := waitKind_of_waitsAt (waitsAt_of_group hg hw)
  have hnone : monOver s p = none := by
    simp only [monOver, hg, hkind, hk, hblind, hpoison, hdiff, Bool.false_eq_true, if_false, if_true, ite_self]
  refine ⟨_, ?_, within_wakeK (.group p) d 0 s, woken_wakeK (waitsAt_of_group hg hw) d 0, _, mfind_wakeK hg hw d 0, rfl⟩
  show execMonWaitTimeout s = _
  simp only [execMonWaitTimeout, commit_eq, ← hp, monTimeOut, hkind, hk, hlimit, hnone, decide_true, Option.isNone_none,
    Bool.and_self, if_true]

end Sys2Proof.Machine
end

section
/-! PROOFS. Second arrivals, made when their party's generation is complete (O56: R196, R337). -/

namespace Sys2Proof.Machine

/-! ## The party of an agent (R337) -/

/-- The party of an agent is there with the same name, block, store queue and operations. -/
def PartyKept (a : Agent) (s t : State) : Prop :=
  ∀ x, partyOf s a = some x → ∃ y, partyOf t a = some y ∧ y.id = x.id ∧ y.blk = x.blk ∧ y.sq = x.sq ∧ y.ops = x.ops

theorem PartyKept.trans {a : Agent} (s t u : State) (h : PartyKept a s t) (k : PartyKept a t u) : PartyKept a s u := fun x hx => by
  obtain ⟨y, hy, hid, hblk, hsq, hops⟩ := h x hx
  obtain ⟨z, hz, kid, kblk, ksq, kops⟩ := k y hy
  exact ⟨z, hz, kid.trans hid, kblk.trans hblk, ksq.trans hsq, kops.trans hops⟩

theorem partyKept_group {s t : State} {p : Nat} {g h : Group} (hg : mfind s.groups p = some g) (hh : mfind t.groups p = some h)
    (huid : h.uid = g.uid) (hblk : h.blk = g.blk) (hsq : h.sq = g.sq) : PartyKept (.group p) s t := fun x hx => by
  simp only [partyOf, hg, Option.map_some, Option.some.injEq] at hx
  subst hx
  exact ⟨_, congrArg (Option.map _) hh, congrArg groupParty huid, hblk, hsq, rfl⟩

theorem partyKept_stream {s t : State} {p : Nat} {g h : Stream} (hg : mfind s.streams p = some g) (hh : mfind t.streams p = some h)
    (hblk : h.blk = g.blk) (hops : h.ops = g.ops) : PartyKept (.stream p) s t := fun x hx => by
  simp only [partyOf, hg, Option.map_some, Option.some.injEq] at hx
  subst hx
  exact ⟨_, congrArg (Option.map _) hh, congrArg streamParty hblk, hblk, rfl, hops⟩

theorem partyKept_of_agents {a : Agent} {s t : State} (hg : t.groups = s.groups) (hs : t.streams = s.streams) : PartyKept a s t := by
  cases a with
  | group p =>
    intro x hx
    obtain ⟨g, hg1, -⟩ := Option.map_eq_some_iff.1 hx
    exact partyKept_group hg1 (by rw [hg]; exact hg1) rfl rfl rfl x hx
  | stream p =>
    intro x hx
    obtain ⟨g, hg1, -⟩ := Option.map_eq_some_iff.1 hx
    exact partyKept_stream hg1 (by rw [hs]; exact hg1) rfl rfl x hx

theorem partyKept_setU (a : Agent) (f : UCtx → UCtx) : Eff.Leaves (PartyKept a) (setU a f) := fun s => by
  cases a with
  | group p =>
    intro x hx
    obtain ⟨g, hg, -⟩ := Option.map_eq_some_iff.1 hx
    refine partyKept_group (h := { g with u := f g.u }) hg ?_ rfl rfl rfl x hx
    simp [setU, hg]
  | stream p =>
    intro x hx
    obtain ⟨g, hg, -⟩ := Option.map_eq_some_iff.1 hx
    refine partyKept_stream (h := { g with u := f g.u }) hg ?_ rfl rfl x hx
    simp [setU, hg]

theorem partyKept_wake {s : State} {a : Agent} {w : Wait} (h : WaitsAt s a w) (sets : List Reg) (regs : Regs → Regs) :
    PartyKept a s (applyAll (wake a sets regs s) s) := by
  cases a with
  | group p =>
    obtain ⟨u, hu, hw⟩ := Option.bind_eq_some_iff.1 h
    obtain ⟨g, hg, rfl⟩ := Option.map_eq_some_iff.1 hu
    refine partyKept_group (h := wokenGroup g w sets regs) hg ?_ rfl rfl rfl
    rw [wake_group hg hw]
    exact mfind_group p _ s
  | stream p =>
    obtain ⟨u, hu, hw⟩ := Option.bind_eq_some_iff.1 h
    obtain ⟨g, hg, rfl⟩ := Option.map_eq_some_iff.1 hu
    obtain ⟨-, hblk, hops, -⟩ := streamNext_keeps { g with u := wokenU g.u w sets regs } w.next
    refine partyKept_stream (h := wokenStream g w sets regs) hg ?_ hblk hops
    rw [wake_stream hg hw]
    exact mfind_mput_same _ _ _

/-- What an agent that is woken keeps of what groups and streams share. -/
theorem agentU_wake {s : State} {a : Agent} {u : UCtx} {w : Wait} (hu : agentU s a = some u) (hw : u.wait = some w) (sets : List Reg)
    (regs : Regs → Regs) : agentU (applyAll (wake a sets regs s) s) a = some (wokenU u w sets regs) := by
  cases a with
  | group p =>
    obtain ⟨g, hg, rfl⟩ := Option.map_eq_some_iff.1 hu
    rw [wake_group hg hw]
    simp [agentU, wokenGroup]
  | stream p =>
    obtain ⟨g, hg, rfl⟩ := Option.map_eq_some_iff.1 hu
    obtain ⟨hkeep, -⟩ := streamNext_keeps { g with u := wokenU g.u w sets regs } w.next
    rw [wake_stream hg hw]
    simp [agentU, wokenStream, hkeep]

theorem nextId_setU (a : Agent) (f : UCtx → UCtx) (s : State) : (applyAll (setU a f s) s).nextId = s.nextId := by
  cases a <;> (unfold setU; dsimp only; split <;> rfl)

theorem nextId_wake (a : Agent) (sets : List Reg) (regs : Regs → Regs) (s : State) :
    (applyAll (wake a sets regs s) s).nextId = s.nextId := by
  cases a <;> (unfold wake; dsimp only; split <;> try split) <;> rfl

/-! ## An arrival that is made (R337) -/

theorem noStall_of_same {xs : List Comp} {s t : State} (h : noStall s) (hsame : Same xs s t) (htrace : Comp.trace ∉ xs)
    (hclusters : Comp.clusters ∉ xs) : noStall t := by
  have ht : t.trace = s.trace := hsame .trace htrace
  have hc : t.clusters = s.clusters := hsame .clusters hclusters
  unfold noStall getCluster at *
  rw [ht, hc]
  exact h

theorem arrivesNow_of_same {xs : List Comp} {s t : State} {x y : Party} (p : Pend) (hsame : Same xs s t)
    (hxs : ∀ c ∈ [Comp.coh, .clk, .blocks, .bars], c ∉ xs) (hid : y.id = x.id) (hblk : y.blk = x.blk) (hsq : y.sq = x.sq)
    (hops : y.ops = x.ops) : arrivesNow t y p = arrivesNow s x p := by
  have hcoh : t.coh = s.coh := hsame .coh (hxs _ (by simp))
  have hclk : t.clk = s.clk := hsame .clk (hxs _ (by simp))
  have hbar := barAt_congr (hsame .blocks (hxs _ (by simp))) (hsame .bars (hxs _ (by simp)))
  simp only [arrivesNow, earlierDone, relReady, hcoh, hclk, hbar, hid, hblk, hsq, hops]

theorem stands_recordArrive (a : Agent) (x : Party) (key : Nat) (rel live : Word) :
    Eff.Leaves (Stands a) (recordArrive a x key rel live) := fun s => by
  rw [applyAll_recordArrive]
  exact leaves_seq Stands.trans ((framed_arrivalCards _ _ _ _ _ _).stands a)
    (leaves_seq Stands.trans ((framed_setBar _ _ _).stands a)
      (stands_setU a (f := withArrived key (arrivalGen s.clk.cyc x.id (barAt s x.blk key))) (fun _ => rfl) (fun _ => rfl))) s

/-- The one pending arrival of an agent: recorded in its turn, else nothing happens. -/
theorem takeArrival_done {s : State} {a : Agent} {x : Party} {p : Pend} {key : Nat} {rel live : Word} (hx : partyOf s a = some x)
    (hpend : x.u.pend = [p]) (hk : p.kind = .arrive key rel live) (hb : mfind s.blocks x.blk ≠ none) (hs : noStall s) {t : State}
    (ht : t = applyAll (takeArrival a s) s) :
    EventKeeps [.blocks, .bars, .trace, .clusters] (groupPlaces a) (streamPlaces a) s t ∧ Stands a s t ∧
    (if arrivesNow s x p = true then barAt t x.blk key = barArrived s.clk.cyc key x.id (barAt s x.blk key) else t = s) := by
  cases hnow : arrivesNow s x p with
  | false =>
    have hnone : takeArrival a s = [] := by
      simp [takeArrival, arrivalNow, hx, hpend, arrivalOf_of_not hnow, Eff.opt, Eff.nop]
    rw [hnone] at ht
    subst ht
    exact ⟨EventKeeps.refl _ _ _ _, stands_of_agents rfl rfl, by simp⟩
  | true =>
    rw [takeArrival_eq (q := p) hx (by simp [hpend, hnow]) hk hs, applyAll_seq] at ht
    have hset := within_setU a (fun u => { u with pend := u.pend.filter (· != p) }) s
    have hu := agentU_setU (fun u => { u with pend := u.pend.filter (· != p) }) (agentU_of_partyOf hx)
    have hstands := stands_setPend a (List.filter (· != p)) s
    generalize applyAll (setU a (fun u => { u with pend := u.pend.filter (· != p) }) s) s = s1 at *
    obtain ⟨hsame, hgroups, hstreams⟩ := hset
    have hblocks : s1.blocks = s.blocks := hsame .blocks (by simp)
    have hclk : s1.clk = s.clk := hsame .clk (by simp)
    obtain ⟨hkeeps, hbar, -⟩ := recordArrive_done hu (by rwa [hblocks]) key rel live ht
    have hstand := stands_recordArrive a x key rel live s1
    rw [← ht] at hstand
    simp only [barAt_congr hblocks (hsame .bars (by simp)), hclk] at hbar
    exact ⟨EventKeeps.trans ⟨hsame.mono (by simp), hgroups, hstreams⟩ hkeeps, hstands.trans _ _ _ hstand,
      (hbar key).trans (if_pos rfl)⟩

/-- An arrival that issues: recorded at once or pending. -/
theorem arriveFor_done {s : State} {a : Agent} {x : Party} (hx : partyOf s a = some x) (hpend : x.u.pend = [])
    (hb : mfind s.blocks x.blk ≠ none) (hs : noStall s) (key : Nat) (lanes live : Word) {t : State}
    (ht : t = applyAll (arriveFor a key lanes live s) s) :
    EventKeeps [.blocks, .bars, .trace, .clusters] (groupPlaces a) (streamPlaces a) s t ∧ Stands a s t ∧
    ArrivalMade s t a x key lanes live := by
  simp only [arriveFor, applyAll_all_cons, applyAll_all_nil] at ht
  generalize hp : ({ kind := .arrive key lanes live, after := s.nextId } : Pend) = p at ht
  have hkind : p.kind = .arrive key lanes live := by rw [← hp]
  have hafter : p.after = s.nextId := by rw [← hp]
  have hset := (within_setU a (fun u => { u with pend := u.pend ++ [p] })).seq
    ((framed_nextId (fun s => s.nextId + 1)).within (groupPlaces a) (streamPlaces a)) s
  have hu := agentU_setU (fun u => { u with pend := u.pend ++ [p] }) (agentU_of_partyOf hx)
  have hstands := leaves_seq Stands.trans (stands_setPend a (· ++ [p])) ((framed_nextId (fun s => s.nextId + 1)).stands a) s
  have hparty := leaves_seq PartyKept.trans (partyKept_setU a (fun u => { u with pend := u.pend ++ [p] }))
    (fun s => partyKept_of_agents (a := a) ((framed_nextId (fun s => s.nextId + 1)).groups s)
      ((framed_nextId (fun s => s.nextId + 1)).streams s)) s x hx
  rw [← (framed_nextId (fun s => s.nextId + 1)).agentU] at hu
  rw [applyAll_seq] at hset hstands hparty
  generalize applyAll (setU a (fun u => { u with pend := u.pend ++ [p] }) s) s = s1 at *
  generalize applyAll [.nextId (s1.nextId + 1)] s1 = s2 at *
  obtain ⟨y, hy, hid, hblk, hsq, hops⟩ := hparty
  have hyu : y.u = _ := Option.some.inj ((agentU_of_partyOf hy).symm.trans hu)
  obtain ⟨hsame, hgroups, hstreams⟩ := hset
  have hblocks : s2.blocks = s.blocks := hsame .blocks (by simp)
  have hclk : s2.clk = s.clk := hsame .clk (by simp)
  have hbar := barAt_congr hblocks (hsame .bars (by simp))
  have hypend : y.u.pend = [p] := by rw [hyu, hpend]; rfl
  obtain ⟨hkeeps, hstand, hmade⟩ := takeArrival_done hy hypend hkind
    (by rwa [hblocks, hblk]) (noStall_of_same hs hsame (by simp) (by simp)) ht
  refine ⟨EventKeeps.trans ⟨hsame.mono (by simp), hgroups, hstreams⟩ hkeeps, hstands.trans _ _ _ hstand, ?_⟩
  rw [arrivesNow_of_same p hsame (by simp) hid hblk hsq hops] at hmade
  simp only [arrivesNow, hkind, hafter, Bool.and_eq_true, hbar, hclk, hid, hblk] at hmade
  unfold ArrivalMade
  split at hmade
  · next h => rw [if_pos h, hmade]
  · next h =>
    subst hmade
    rw [if_neg h]
    exact ⟨hbar _ _, y, hy, by rw [hypend, hp]⟩

/-- An arrival of a party that is there with the same accesses before it is the same arrival. -/
theorem arrivalMade_of_same {s s1 t : State} {a : Agent} {x y : Party} {key : Nat} {lanes live : Word} (hsame : Same [] s s1)
    (hid : y.id = x.id) (hblk : y.blk = x.blk) (hsq : y.sq = x.sq) (hops : y.ops = x.ops) (hnext : s1.nextId = s.nextId)
    (h : ArrivalMade s1 t a y key lanes live) : ArrivalMade s t a x key lanes live := by
  have hcoh : s1.coh = s.coh := hsame .coh (by simp)
  have hclk : s1.clk = s.clk := hsame .clk (by simp)
  have hbar := barAt_congr (hsame .blocks (by simp)) (hsame .bars (by simp))
  have hdone : earlierDone s1 y = earlierDone s x := by
    funext after scope
    simp only [earlierDone, relReady, hcoh, hsq, hops]
  unfold ArrivalMade at h ⊢
  rw [hdone, hclk, hbar, hid, hblk, hnext] at h
  exact h

/-! ## The second arrivals (R196, R337) -/

/-- A second arrival whose generation is complete is no longer held back. -/
theorem barOver_of_arrivesLater {s : State} {a : Agent} {x : Party} {w : Wait} {key : Nat} {sync : Option Nat}
    (h : arrivesLater s a x w key sync) :
    barOver s a = some (Eff.seq (laterArrive a key sync) (arriveFor a key (waitLanes s a) (agentLive s a))) := by
  obtain ⟨hx, hw, hk, harr, -⟩ := h
  simp [barOver, hx, waitKind_of_waitsAt (waitsAt_of_partyOf hx hw), hk, harr]

/-- A second arrival, made once its agent's wait has changed: the party is there with nothing pending. -/
theorem arriveAfter_done {s s1 : State} {a : Agent} {x : Party} {w : Wait} {key : Nat} {sync : Option Nat}
    (h : arrivesLater s a x w key sync) (hkeeps : EventKeeps [] (groupPlaces a) (streamPlaces a) s s1) (hparty : PartyKept a s s1)
    (hnext : s1.nextId = s.nextId) {u : UCtx} (hu : agentU s1 a = some u) (hpend : u.pend = x.u.pend) (lanes live : Word) {t : State}
    (ht : t = applyAll (arriveFor a key lanes live s1) s1) :
    EventKeeps [.blocks, .bars, .trace, .clusters] (groupPlaces a) (streamPlaces a) s t ∧ Stands a s1 t ∧
    ArrivalMade s t a x key lanes live := by
  obtain ⟨hx, -, -, -, hnone, hb, hs⟩ := h
  obtain ⟨hsame, hgroups, hstreams⟩ := hkeeps
  obtain ⟨y, hy, hid, hblk, hsq, hops⟩ := hparty x hx
  have hyu : y.u = u := Option.some.inj ((agentU_of_partyOf hy).symm.trans hu)
  have hblocks : s1.blocks = s.blocks := hsame .blocks (by simp)
  obtain ⟨hkeeps, hstands, hmade⟩ := arriveFor_done hy (by rw [hyu, hpend, hnone]) (by rwa [hblocks, hblk])
    (noStall_of_same hs hsame (by simp) (by simp)) key lanes live ht
  exact ⟨EventKeeps.trans ⟨hsame.mono (by simp), hgroups, hstreams⟩ hkeeps, hstands,
    arrivalMade_of_same hsame hid hblk hsq hops hnext hmade⟩

theorem exec_barrierWaitReturn {s : State} {eff : Eff} (h : barOver s (.group (subjAt s 0)) = some eff) :
    exec .barrierWaitReturn s = commit eff s := by
  show execBarrierWaitReturn s = _
  simp only [execBarrierWaitReturn, commit_eq, h]

theorem exec_mbarWaitReturn {s : State} {eff : Eff} (h : barOver s (.stream (subjAt s 0)) = some eff) :
    exec .mbarWaitReturn s = commit eff s := by
  show execMbarWaitReturn s = _
  simp only [execMbarWaitReturn, commit_eq, h]

/-- A bar.arr or an mbar.arr whose generation is complete is over and arrives. -/
theorem laterArrival_returns {i : Instr} {s : State} {a : Agent} {x : Party} {w : Wait} {key : Nat}
    (hover : ∀ eff, barOver s a = some eff → exec i s = commit eff s) (h : arrivesLater s a x w key none) :
    Returns i s a w [.blocks, .bars, .trace, .clusters] RegsKept (fun t =>
      ArrivalMade s t a x key (waitLanes s a) (agentLive s a)) := by
  obtain ⟨hx, hw, -⟩ := id h
  have hwait := waitsAt_of_partyOf hx hw
  have hexec := hover _ (barOver_of_arrivesLater h)
  rw [commit_eq, applyAll_seq] at hexec
  obtain ⟨hkeeps, hstands, hmade⟩ := arriveAfter_done h (within_wake a [] id s) (partyKept_wake hwait [] id) (nextId_wake a [] id s)
    (agentU_wake (agentU_of_partyOf hx) hw [] id) rfl (waitLanes s a) (agentLive s a) rfl
  exact ⟨_, hexec, hkeeps, (woken_wake hwait [] id).stands hstands, hmade⟩

theorem barrierWaitReturn_arrives {s : State} {w : Wait} {key : Nat} {x : Party} {a : Agent} (ha : a = .group (subjAt s 0))
    (h : arrivesLater s a x w key none) :
    Returns .barrierWaitReturn s a w [.blocks, .bars, .trace, .clusters] RegsKept (fun t =>
      ArrivalMade s t a x key w.lanes (agentLive s a)) := by
  obtain ⟨hx, hw, -⟩ := id h
  have hlanes : waitLanes s a = w.lanes := by
    subst ha
    simp only [waitLanes, agentU_of_partyOf hx, Option.bind_some, hw, Option.map_some, Option.getD_some]
  rw [← hlanes]
  exact laterArrival_returns (fun _ hover => exec_barrierWaitReturn (ha ▸ hover)) h

theorem mbarWaitReturn_arrives {s : State} {w : Wait} {key : Nat} {x : Party} {a : Agent} (ha : a = .stream (subjAt s 0))
    (h : arrivesLater s a x w key none) :
    Returns .mbarWaitReturn s a w [.blocks, .bars, .trace, .clusters] RegsKept (fun t => ArrivalMade s t a x key 0 0) := by
  subst ha
  exact laterArrival_returns (fun _ => exec_mbarWaitReturn) h

/-- A bar.sync waits for the generation in which it now arrives. -/
def waitsSync (d key : Nat) (u : UCtx) : UCtx := { u with wait := u.wait.map (fun w => { w with kind := .barWait d key true }) }

theorem barrierWaitReturn_syncs {s : State} {w : Wait} {key d : Nat} {x : Party} {a : Agent} {g : Group}
    (ha : a = .group (subjAt s 0)) (h : arrivesLater s a x w key (some d)) (hg : mfind s.groups (subjAt s 0) = some g) :
    EventDoes .barrierWaitReturn s [.blocks, .bars, .trace, .clusters] [subjAt s 0] [] (fun t =>
      (∃ k, mfind t.groups (subjAt s 0) = some k ∧ k.u.wait = some { w with kind := .barWait d key true } ∧
        k.u.regs = g.u.regs ∧ k.sched = g.sched ∧ k.live = g.live ∧ k.tr = g.tr ∧ k.sq = g.sq) ∧
      ArrivalMade s t a x key w.lanes g.live) := by
  subst ha
  obtain ⟨hx, hw, -⟩ := id h
  have hxu : x.u = g.u := Option.some.inj ((agentU_of_partyOf hx).symm.trans (by simp [agentU, hg]))
  have hlanes : waitLanes s (.group (subjAt s 0)) = w.lanes := by
    simp only [waitLanes, agentU_of_partyOf hx, Option.bind_some, hw, Option.map_some, Option.getD_some]
  have hlive : agentLive s (.group (subjAt s 0)) = g.live := by simp [agentLive, hg]
  have hexec := exec_barrierWaitReturn (barOver_of_arrivesLater h)
  rw [commit_eq, hlanes, hlive, applyAll_seq] at hexec
  have hset : applyAll (laterArrive (.group (subjAt s 0)) key (some d) s) s =
      applyAll (setU (.group (subjAt s 0)) (waitsSync d key) s) s := rfl
  rw [hset] at hexec
  obtain ⟨hkeeps, hstands, hmade⟩ := arriveAfter_done h (within_setU _ (waitsSync d key) s) (partyKept_setU _ _ s)
    (nextId_setU _ _ s) (agentU_setU (waitsSync d key) (agentU_of_partyOf hx)) rfl w.lanes g.live rfl
  have hg1 : mfind (applyAll (setU (.group (subjAt s 0)) (waitsSync d key) s) s).groups (subjAt s 0) =
      some { g with u := waitsSync d key g.u } := by
    simp [setU, hg]
  obtain ⟨k, hk, hkwait, hkregs, hklive, hktr, hksq, hksched⟩ := hstands _ hg1
  refine ⟨_, hexec, hkeeps, ⟨k, hk, hkwait.trans ?_, hkregs, hksched, hklive, hktr, hksq⟩, hmade⟩
  simp only [waitsSync, ← hxu, hw, Option.map_some]

end Sys2Proof.Machine
end

section
/-! PROOFS. A spawn that waited for pigeonholes issues again (O56: R121). -/

namespace Sys2Proof.Machine

/-! ## A group's word that issues again -/

/-- A word that passes breaks no check of R51. -/
theorem preCheck_of_passes {i : Instr} {prof : Ctx → State → Bool} {s : State} {c : Ctx} (hi : c.i = i)
    (h : passes i prof s c = true) : preCheck c prof s = none := by
  simp only [passes, Bool.and_eq_true, Bool.not_eq_true', Bool.or_eq_true, Option.isNone_iff_eq_none] at h
  obtain ⟨⟨⟨⟨hlegal, hrole⟩, hprof⟩, hmark⟩, -⟩ := h
  have hbad : (!isHint c.i && !roleOk c) = false := by rw [hi]; cases hrole with | _ h => simp [h]
  have hlack : (!isHint c.i && prof c s) = false := by rw [hi]; cases hprof with | _ h => simp [h]
  simp [preCheck, hlegal, hbad, hlack, hmark]

/-- A group's word with no card before it that completes with an effect on the rest of the package alone. -/
theorem completes_issueEff {prof : Ctx → State → Bool} {body : Ctx → State → Res} {s : State} {c : Ctx} {d : Done} {g : Group}
    {touched : List Comp} (hs : c.strm = false) (hg : mfind s.groups c.key = some g) (hu : g.uid = c.uid)
    (hpre : preCheck c prof s = none) (hsplit : usplit c s = none) (hb : body c s = .done d) (he : Framed touched d.eff)
    (hgo : d.go = .seq) {t : State} (ht : t = applyAll (issueEff c prof body s) s) :
    Completes c s t touched [] (fun r r' => r' = d.regs r) none ∧ Same [] (applyAll (d.eff s) s) t := by
  have hissue : issueEff c prof body s = Eff.seq (splitCard c none) (finish c d) s := by
    simp only [issueEff, hpre, hsplit, Option.isSome_none, Bool.false_and, Bool.false_eq_true, if_false, hb]
  have hfinish : t = applyAll (finish c d s) s := by
    rw [ht, hissue, applyAll_seq]
    rfl
  obtain ⟨x, hsame, hgroup, hgroups, hstreams⟩ := finish_group c d s g hs (by rw [he.groups]; exact hg) hu
  rw [← hfinish] at hsame hgroup hgroups hstreams
  refine ⟨⟨?_, ⟨fun q hq => ?_, fun q _ => by rw [hstreams, he.streams]⟩,
    fun _ => ⟨g, _, hg, hgroup, rfl, rfl, fun l hl => ?_, ?_, rfl, rfl, rfl, rfl, rfl⟩,
    fun hstrm => absurd hstrm (by simp [hs])⟩, hsame⟩
  · exact ((he.same s).mono (by simp +contextual)).trans (hsame.mono (by simp))
  · have hne : q ≠ c.key := hq.resolve_left (by simp [hs])
    rw [hgroups q hne, he.groups]
  · exact (finishSched_pc _ _ _ _ _ hl).trans (by rw [hgo]; rfl)
  · intro y _
    cases y with
    | rs => exact fun l => (finishSched_rs _ _ _ _ _).trans (by rw [hgo]; exact ite_self _)
    | _ => trivial

/-! ## The parked spawn (R121) -/

/-- A word that issues again is its group's word, as the group stands when it waits no longer. -/
theorem ctxOf_retry {i : Instr} {iss : Issue} {s : State} {p : Nat} {c : Ctx} (ha : iss.agent = .group p)
    (h : ctxOf i iss s = some c) :
    ctxOf i iss (applyAll (retry (.group p) s) s) = some { c with u := { c.u with wait := none } } := by
  unfold ctxOf at h
  simp only [ha] at h
  cases hg : mfind s.groups p with
  | none => simp [hg] at h
  | some g =>
    simp only [hg] at h
    cases hb : mfind s.blocks g.blk with
    | none => simp [hb] at h
    | some b =>
      simp only [hb] at h
      cases hl : mfind s.mail.launches b.launch with
      | none => simp [hl] at h
      | some l =>
        simp only [hl, Option.some.injEq] at h
        subst h
        simp [ctxOf, retry, ha, hg, hb, hl, sysMode]

theorem within_retry (a : Agent) : Within [] (groupPlaces a) (streamPlaces a) (retry a) := within_of fun s => by
  cases a with
  | group p =>
    unfold retry
    dsimp only
    split
    · exact ⟨fun _ => _, rfl, within_group p _ _⟩
    · exact ⟨Eff.nop, rfl, within_nop _ _ _⟩
  | stream p =>
    unfold retry
    dsimp only
    split
    · exact ⟨fun _ => _, rfl, within_stream p _ _⟩
    · exact ⟨Eff.nop, rfl, within_nop _ _ _⟩

theorem nextId_retry (a : Agent) (s : State) : (applyAll (retry a s) s).nextId = s.nextId := by
  cases a <;> (unfold retry; dsimp only; split <;> rfl)

/-- A parked spawn that finds its pigeonholes is the spawn of a group. -/
theorem ctxOf_of_spawnReady {s : State} {p : Nat} {c : Ctx} {w : LaneW} (h : spawnReady s p = some (c, w)) :
    spawnFits c s w = true ∧ ∃ iss : Issue, iss.agent = .group p ∧ ctxOf (.spawn w) iss s = some c := by
  unfold spawnReady at h
  split at h
  · cases h
  split at h
  · cases h
  split at h
  · cases h
  split at h
  · dsimp only at h
    split at h
    · next hctx =>
      split at h
      · next hfits =>
        cases h
        exact ⟨hfits, _, rfl, hctx⟩
      · cases h
    · cases h
  · cases h

theorem strm_of_ctxOf {i : Instr} {iss : Issue} {s : State} {p : Nat} {c : Ctx} (ha : iss.agent = .group p)
    (h : ctxOf i iss s = some c) : c.strm = false := by
  unfold ctxOf at h
  rw [ha] at h
  dsimp only at h
  repeat' split at h
  all_goals cases h
  all_goals rfl

/-- The context of a spawn that waits no longer finds the same room. -/
theorem spawnFits_retry (c : Ctx) {s t : State} (w : LaneW) (h : getCore t c.core = getCore s c.core) :
    spawnFits { c with u := { c.u with wait := none } } t w = spawnFits c s w := by
  show spawnFits c t w = _
  rw [spawnFits, h, spawnFits]

theorem spawnRelease_done {s s' : State} {c : Ctx} {w : LaneW} (h : spawnAgain s (subjAt s 0) = some (c, w, s'))
    (hpass : passes (.spawn w) anyProfile s' c = true)
    (halign : ∀ l ∈ lanesOf (c.active w.g w.gn), c.src 0 .n64 w.a l % 4 = 0) :
    ∃ t, exec .spawnRelease s = .next t ∧ Completes c s' t [.cores] [] RegsKept none ∧
      getCore t c.core = { ((lanesOf (c.active w.g w.gn)).foldl (fun k l =>
        deposit c.launch c.part (BitVec.ofNat 64 (c.src 0 .n64 w.a l)) (c.cyc + max 1 (min 65535 (c.src 2 .n32 (srcOf w.c.toNat) l)))
          (c.spawnArgs w l) k) (getCore s c.core, s.nextId)).1 with
        spawnAt := if c.active w.g w.gn = 0 then (getCore s c.core).spawnAt else (c.cyc, c.key) } := by
  obtain ⟨⟨c0, w0⟩, hready, heq⟩ := Option.map_eq_some_iff.1 h
  obtain ⟨hfits, iss, ha, hctx0⟩ := ctxOf_of_spawnReady hready
  simp only [Prod.mk.injEq] at heq
  obtain ⟨rfl, rfl, rfl⟩ := heq
  have hctx := ctxOf_retry ha hctx0
  have hcore : ∀ k, getCore (applyAll (retry (.group (subjAt s 0)) s) s) k = getCore s k := getCore_of_same (within_retry _ s).1
  have hnext := nextId_retry (.group (subjAt s 0)) s
  have hfit := (spawnFits_retry c0 w0 (hcore c0.core)).trans hfits
  have hexec : exec .spawnRelease s = execSpawnRelease s := rfl
  simp only [execSpawnRelease, commit_eq, hready, applyAll_seq] at hexec
  generalize ({ c0 with u := { c0.u with wait := none } } : Ctx) = c at *
  generalize applyAll (retry (.group (subjAt s 0)) s) s = s' at *
  have hstrm := strm_of_ctxOf ha hctx
  obtain ⟨g, hg, hu, -⟩ := ctxOf_group hctx hstrm
  have hi := ctxOf_i hctx
  have hsplit : usplit c s' = none := by
    have hconv : isConv c.i = false := by
      rw [hi, isConv, isUniform_of_laneR (i := .spawn w0) rfl (by decide)]
      rfl
    simp [usplit, hconv]
  obtain ⟨hdone, hsame⟩ := completes_issueEff hstrm hg hu (preCheck_of_passes hi hpass) hsplit (spawnBody_of_room halign hfit)
    (framed_spawnEff c w0) rfl rfl
  refine ⟨_, hexec, hdone, (getCore_of_same hsame _).trans ((getCore_spawnEff c w0 s').trans ?_)⟩
  rw [spawnedCore, spawnDeposits, hnext, hcore]
  rfl

end Sys2Proof.Machine
end

section
/-! PROOFS. The end of a migration at the homes: the frame taken over and copied, the leaf entry rewritten (O56: R289). -/

namespace Sys2Proof.Machine

/-! ## Bytes of a sparse memory -/

theorem mfind_of_mem {β : Type} {m : Map β} (h : sortedKeys m = true) {n : Nat} {v : β} (hm : (n, v) ∈ m) : mfind m n = some v := by
  induction m with
  | nil => cases hm
  | cons e m ih =>
    obtain ⟨k, w⟩ := e
    obtain ⟨hlt, hm'⟩ := (sortedKeys_cons k w m).mp h
    rw [mfind_cons]
    rcases List.mem_cons.mp hm with heq | htail
    · obtain ⟨rfl, rfl⟩ := Prod.mk.inj heq
      exact if_pos rfl
    · rw [if_neg (Nat.ne_of_lt (hlt _ htail)), ih hm' htail]

/-- A byte of a listed cell, and of an address with no cell. -/
theorem readByte_of_mem {m : List Host.Cell} (h : Memory.wf m = true) {c : Host.Cell} (hc : c ∈ m) : readByte m c.1 = c.2 := by
  rw [readByte, mget, mfind_of_mem (wf_iff m |>.mp h).1 hc]

theorem readByte_of_not_mem {m : List Host.Cell} {a : Nat} (h : ¬∃ c ∈ m, c.1 = a) : readByte m a = emptyByte := by
  rw [readByte, mget]
  split
  · next b hb => exact absurd ⟨_, mem_of_mfind hb, rfl⟩ h
  · rfl

/-- Bytes written are read back. -/
theorem readBytes_writeCells_cellsAt (m : List Host.Cell) (a : Nat) (bs : List Byte) :
    readBytes (writeCells m (cellsAt a bs)) a bs.length = bs := by
  refine List.ext_getElem (by simp [readBytes]) fun i hi _ => ?_
  have hlt : i < bs.length := by simpa [readBytes] using hi
  have hcell : ∃ c ∈ cellsAt a bs, c.1 = a + i :=
    ⟨(a + i, bs.getD (a + i - a) 0), mem_cellsAt.mpr ⟨by simp, by simpa using hlt, rfl⟩, rfl⟩
  have hread := readByte_writeCells (fun x => bs.getD (x - a) 0) (cellsAt a bs) m (fun c hc => (mem_cellsAt.mp hc).2.2) (a + i)
  rw [if_pos hcell] at hread
  simp [readBytes, hread, hlt]

/-- The bytes of a value give it back (R3). -/
theorem ofBytes_toBytes (n v : Nat) : ofBytes (toBytes n v) = v % 256 ^ n := by
  induction n generalizing v with
  | zero => simp [toBytes, ofBytes, Nat.mod_one]
  | succ n ih =>
    rw [toBytes, ofBytes, ih, BitVec.toNat_ofNat, show (256 : Nat) ^ (n + 1) = 2 ^ 8 * 256 ^ n by omega, Nat.mod_mul]
    rfl

/-! ## The frame taken over -/

/-- The L1 copies of some lines dropped, as an invalidation drops them. -/
def l1Drops (ls : List Nat) : Eff := fun s => s.cores.flatMap (fun e =>
  if ls.any (fun l => (mfind e.2.l1 l).isSome)
  then [.core e.1 { e.2 with l1 := e.2.l1.filter (fun x => !ls.contains x.1) }] else [])

theorem framed_l1Drops (ls : List Nat) : Framed [.cores] (l1Drops ls) := framed_cores _ fun s u hu => by
  obtain ⟨e, -, hu⟩ := List.mem_flatMap.mp hu
  split at hu
  · exact ⟨_, _, List.mem_singleton.mp hu⟩
  · cases hu

/-- An invalidation drops copies, then changes what the homes keep of the lines. -/
theorem invalLines_eq (ls : List Nat) : invalLines ls = Eff.seq (l1Drops ls) (fun s => [.coh { s.coh with
    fills := s.coh.fills.filter (fun x => !ls.contains x.line)
    acks := s.coh.acks ++ heldAcks (s.coh.fills.filter (fun x => ls.contains x.line))
    dirs := clearHolders s.clk.cyc ls s.coh.dirs }]) := rfl

/-- Copies given up change no byte of memory and no write that waits at a home. -/
theorem dropLines_done (ls : List Nat) (s : State) :
    (applyAll (dropLines ls s) s).mem = s.mem ∧ (applyAll (dropLines ls s) s).coh.homeq = s.coh.homeq := by
  have hmem : (applyAll (l1Drops ls s) s).mem = s.mem := (framed_l1Drops ls).same s .mem (by simp)
  have hcoh : (applyAll (l1Drops ls s) s).coh = s.coh := (framed_l1Drops ls).same s .coh (by simp)
  rw [dropLines, invalLines_eq, applyAll_seq, applyAll_seq]
  generalize applyAll (l1Drops ls s) s = s1 at *
  exact ⟨hmem, (congrArg Coh.homeq hcoh : s1.coh.homeq = s.coh.homeq)⟩

theorem framed_migTakes (m : Migration) : Framed homeParts (migTakes m) := framed_of fun s => by
  unfold migTakes
  refine ⟨_, rfl, framed_all _ fun f hf => ?_⟩
  simp only [List.mem_cons, List.not_mem_nil, or_false] at hf
  rcases hf with rfl | rfl | rfl | rfl
  · exact framed_forEach _ _ fun _ _ => framed_mergeLine _
  · exact framed_of fun s => ⟨_, rfl, framed_forEach _ _ fun _ _ => framed_homePerform _⟩
  · exact framed_of fun s => ⟨_, rfl, framed_dropLines _⟩
  · exact (framed_coh _).mono (by simp)

/-- Where no line has privatised copies and no write waits, the takeover changes no byte. -/
theorem migTakes_done {s : State} (h : noneHeld s) (m : Migration) :
    (applyAll (migTakes m s) s).mem = s.mem ∧ (applyAll (migTakes m s) s).coh.homeq = [] := by
  obtain ⟨hpriv, hhomeq⟩ := h
  have hmerge := forEach_mergeLine_of_priv_nil (heldLines s (migNew m)) s fun l _ => getDir_priv_of_noPrivate hpriv l
  have hperform : applyAll (Eff.forEach (s.coh.homeq.filter (fun w => migNew m w.line)) homePerform s) s = s := by
    rw [hhomeq]; rfl
  obtain ⟨hmem, hq⟩ := dropLines_done (heldLines s (fun l => migLine m l || migNew m l)) s
  simp only [migTakes, applyAll_all_cons, applyAll_all_nil, hmerge, hperform]
  exact ⟨hmem, hq.trans hhomeq⟩

/-! ## The copy -/

theorem framed_migCopy (m : Migration) : Framed [.mem] (migCopy m) := framed_of fun s => by
  unfold migCopy
  exact ⟨Eff.seq (fun _ => [.mem _]) (fun _ => [.mem _]), rfl, (framed_mem _).seq (framed_mem _)⟩

/-- The new frame holds the bytes of the old one. -/
theorem readByte_migCopy {s : State} (h : Memory.wf s.mem = true) (m : Migration) {i : Nat} (hi : i < 2 ^ m.log2) :
    readByte (applyAll (migCopy m s) s).mem (m.new + i) = readByte s.mem (m.old + i) := by
  generalize hold : s.mem.filter (fun c => decide (m.old ≤ c.1) && decide (c.1 < m.old + 2 ^ m.log2)) = old
  generalize hdst : s.mem.filter (fun c => decide (m.new ≤ c.1) && decide (c.1 < m.new + 2 ^ m.log2)) = dst
  have hmem : (applyAll (migCopy m s) s).mem = writeCells (writeCells s.mem (dst.map (fun c => ((c.1, emptyByte) : Host.Cell))))
      (old.map (fun c => ((c.1 - m.old + m.new, c.2) : Host.Cell))) := by
    simp only [migCopy, hold, hdst]
    rfl
  have hcopied : ∀ c ∈ old.map (fun c => ((c.1 - m.old + m.new, c.2) : Host.Cell)), c.2 = readByte s.mem (c.1 - m.new + m.old) := by
    intro c hc
    obtain ⟨d, hd, rfl⟩ := List.mem_map.mp hc
    rw [← hold] at hd
    obtain ⟨hd, hrange⟩ := List.mem_filter.mp hd
    have hle : m.old ≤ d.1 := by
      simp only [Bool.and_eq_true, decide_eq_true_eq] at hrange
      exact hrange.1
    show d.2 = readByte s.mem (d.1 - m.old + m.new - m.new + m.old)
    rw [Nat.add_sub_cancel, Nat.sub_add_cancel hle, readByte_of_mem h hd]
  rw [hmem, readByte_writeCells (fun x => readByte s.mem (x - m.new + m.old)) _ _ hcopied]
  split
  · show readByte s.mem (m.new + i - m.new + m.old) = _
    rw [Nat.add_sub_cancel_left, Nat.add_comm]
  · next hnone =>
    have hsrc : ¬∃ c ∈ s.mem, c.1 = m.old + i := fun ⟨c, hc, hca⟩ => hnone
      ⟨(c.1 - m.old + m.new, c.2), List.mem_map.mpr ⟨c, by rw [← hold]; simp [hc, hca, hi], rfl⟩,
        show c.1 - m.old + m.new = m.new + i by omega⟩
    rw [readByte_of_not_mem hsrc, readByte_writeCells (fun _ => emptyByte) _ _ fun c hc => by
      obtain ⟨d, -, rfl⟩ := List.mem_map.mp hc
      rfl]
    split
    · rfl
    · next hfree =>
      refine readByte_of_not_mem fun ⟨c, hc, hca⟩ => hfree ⟨(c.1, emptyByte), List.mem_map.mpr ⟨c, ?_, rfl⟩, hca⟩
      rw [← hdst]
      simp [hc, hca, hi]

/-! ## The leaf entry -/

/-- NC copies dropped change the cores alone. -/
theorem framed_dropNc_cores (core : Nat) (ls : List Nat) : Framed [.cores] (dropNc core ls) := framed_cores _ fun s u hu => by
  obtain ⟨e, -, hu⟩ := List.mem_flatMap.mp hu
  split at hu
  · exact ⟨_, _, List.mem_singleton.mp hu⟩
  · cases hu

/-- A write at homes that are ready for it is in memory, and no write waits for it. -/
theorem writeThrough_done (k : Writer) (cs : List Host.Cell) (s : State) :
    (applyAll (writeThrough k cs s) s).mem = writeCells s.mem cs ∧ (applyAll (writeThrough k cs s) s).coh.homeq = s.coh.homeq := by
  simp only [writeThrough, applyAll_all_cons, applyAll_all_nil]
  have hmem1 := (framed_unclaim k (cellLines cs)).same s .mem (by simp)
  have hq1 : (applyAll (unclaim k (cellLines cs) s) s).coh.homeq = s.coh.homeq := by
    unfold unclaim
    split <;> rfl
  generalize applyAll (unclaim k (cellLines cs) s) s = s1 at *
  obtain ⟨hmem2, -, hcoh2⟩ := performCells_done cs s1
  generalize applyAll (performCells cs s1) s1 = s2 at *
  have hmem3 := (framed_dropNc_cores unitCore (cellLines cs)).same s2 .mem (by simp)
  have hcoh3 := (framed_dropNc_cores unitCore (cellLines cs)).same s2 .coh (by simp)
  exact ⟨hmem3.trans (hmem2.trans (congrArg (writeCells · cs) hmem1)),
    (congrArg Coh.homeq (hcoh3.trans hcoh2)).trans hq1⟩

theorem framed_migLeaf (m : Migration) : Framed homeParts (migLeaf m) := framed_of fun s =>
  ⟨writeThrough (migKey m) (cellsAt m.pteAt (toBytes 8 (setFld (cohDword s m.pteAt) 47 16 (m.new / 65536)).toNat)), rfl,
    framed_writeThrough _ _⟩

/-- The leaf entry names the new frame, and no byte beside it changes. -/
theorem migLeaf_done (m : Migration) (s : State) :
    fld (BitVec.ofNat 64 (ofBytes (readBytes (applyAll (migLeaf m s) s).mem m.pteAt 8))) 47 16 = m.new / 65536 % 2 ^ 32 ∧
    (∀ x, x < m.pteAt ∨ m.pteAt + 8 ≤ x → readByte (applyAll (migLeaf m s) s).mem x = readByte s.mem x) ∧
    (applyAll (migLeaf m s) s).coh.homeq = s.coh.homeq := by
  obtain ⟨hmem, hq⟩ := writeThrough_done (migKey m)
    (cellsAt m.pteAt (toBytes 8 (setFld (cohDword s m.pteAt) 47 16 (m.new / 65536)).toNat)) s
  generalize hv : setFld (cohDword s m.pteAt) 47 16 (m.new / 65536) = v at hmem hq
  have hleaf : applyAll (migLeaf m s) s = applyAll (writeThrough (migKey m) (cellsAt m.pteAt (toBytes 8 v.toNat)) s) s := by
    rw [← hv]; rfl
  rw [hleaf, hmem]
  refine ⟨?_, fun x hx => ?_, hq⟩
  · have hread := readBytes_writeCells_cellsAt s.mem m.pteAt (toBytes 8 v.toNat)
    rw [length_toBytes] at hread
    rw [hread, ofBytes_toBytes, Nat.mod_eq_of_lt (show v.toNat < 256 ^ 8 from v.isLt), BitVec.ofNat_toNat, BitVec.setWidth_eq, ← hv]
    exact fld_setFld_same _ 47 16 _ (by decide) (by decide)
  · refine readByte_writeCells_other _ _ _ fun c hc => ?_
    obtain ⟨hlo, hhi, -⟩ := mem_cellsAt.mp hc
    rw [length_toBytes] at hhi
    omega

end Sys2Proof.Machine
end

section
/-! PROOFS. The rest of a migration's end and the settlement of the returns (O56: R101, R121, R136, R196, R241, R245, R273, R289,
R337, R343). -/

namespace Sys2Proof.Machine

/-! ## The TLBs (R289) -/

/-- A TLB entry translates the page of a migration. -/
def migHit (m : Migration) (e : TlbE) : Bool := (e.asid == m.asid || fld e.pte 7 7 == 1) && e.base == m.va / 2 ^ e.log2

theorem migHit_eq_false {m : Migration} {e : TlbE} (h : migHit m e = false) :
    ¬((e.asid = m.asid ∨ fld e.pte 7 7 = 1) ∧ e.base = m.va / 2 ^ e.log2) := fun ⟨hspace, hbase⟩ => by
  have hhit : migHit m e = true := by
    simp only [migHit, Bool.and_eq_true, Bool.or_eq_true, beq_iff_eq]
    exact ⟨hspace, hbase⟩
  rw [h] at hhit
  cases hhit

/-- The drop of a migration's page from the TLBs of the cores, and from those of the clusters. -/
def coreTlbs (m : Migration) : Eff := fun s => (s.cores.filter (fun e => e.2.tlb.any (migHit m))).map (fun e =>
  .core e.1 { e.2 with tlb := e.2.tlb.filter (fun x => !migHit m x) })

def clusterTlbs (m : Migration) : Eff := fun s => (s.clusters.filter (fun e => e.2.tlb.any (migHit m))).map (fun e =>
  .cluster e.1 { e.2 with tlb := e.2.tlb.filter (fun x => !migHit m x) })

theorem migTlbs_eq (m : Migration) : migTlbs m = Eff.seq (coreTlbs m) (clusterTlbs m) := rfl

/-- No entry of a TLB translates the page of a migration. -/
def tlbFree (m : Migration) (es : List TlbE) : Prop := ∀ e ∈ es, migHit m e = false

theorem tlbFree_filter (m : Migration) (es : List TlbE) : tlbFree m (es.filter (fun x => !migHit m x)) := fun e he => by
  simpa using (List.mem_filter.mp he).2

theorem tlbFree_of_not_any {m : Migration} {es : List TlbE} (h : es.any (migHit m) = false) : tlbFree m es := fun e he => by
  simpa using List.any_eq_false.mp h e he

theorem everyCore_coreTlbs (m : Migration) (s : State) : everyCore (fun c => tlbFree m c.tlb) (applyAll (coreTlbs m s) s) := by
  refine everyCore_applyAll (fun e : Nat × Core => e.1) (fun e => { e.2 with tlb := e.2.tlb.filter (fun x => !migHit m x) }) _ s
    (fun e _ => tlbFree_filter m e.2.tlb) fun e he hl => tlbFree_of_not_any ?_
  cases hany : e.2.tlb.any (migHit m) with
  | false => rfl
  | true => exact absurd rfl (hl e (List.mem_filter.mpr ⟨he, hany⟩))

/-- A property of every listed cluster. -/
def everyCluster (P : Cluster → Prop) (s : State) : Prop := ∀ e ∈ s.clusters, P e.2

theorem mem_clusters_applyAll {α : Type} (key : α → Nat) (g : α → Cluster) (l : List α) (s : State) {e : Nat × Cluster}
    (h : e ∈ (applyAll (l.map (fun a => Upd.cluster (key a) (g a))) s).clusters) :
    (∃ a ∈ l, e = (key a, g a)) ∨ e ∈ s.clusters ∧ ∀ a ∈ l, key a ≠ e.1 := by
  induction l generalizing s with
  | nil => exact .inr ⟨h, fun _ ha => absurd ha List.not_mem_nil⟩
  | cons a l ih =>
    rcases ih _ h with ⟨b, hb, rfl⟩ | ⟨he, hl⟩
    · exact .inl ⟨b, List.mem_cons_of_mem _ hb, rfl⟩
    · rcases mem_mput he with rfl | ⟨he, hne⟩
      · exact .inl ⟨a, List.mem_cons_self, rfl⟩
      · refine .inr ⟨he, fun b hb => ?_⟩
        rcases List.mem_cons.mp hb with rfl | hb
        · exact Ne.symm hne
        · exact hl b hb

theorem everyCluster.getCluster {P : Cluster → Prop} {s : State} (h : everyCluster P s) (hnew : P {}) (k : Nat) : P (getCluster s k) := by
  unfold Machine.getCluster mget
  split
  · next c hc => exact h _ (mem_of_mfind hc)
  · exact hnew

theorem everyCluster_clusterTlbs (m : Migration) (s : State) :
    everyCluster (fun c => tlbFree m c.tlb) (applyAll (clusterTlbs m s) s) := fun e he => by
  rcases mem_clusters_applyAll (fun e : Nat × Cluster => e.1) (fun e => { e.2 with tlb := e.2.tlb.filter (fun x => !migHit m x) })
    _ s he with ⟨a, -, rfl⟩ | ⟨he, hl⟩
  · exact tlbFree_filter m a.2.tlb
  · refine tlbFree_of_not_any ?_
    cases hany : e.2.tlb.any (migHit m) with
    | false => rfl
    | true => exact absurd rfl (hl e (List.mem_filter.mpr ⟨he, hany⟩))

/-- A list of updates as an operation for each of its subjects. -/
theorem forEach_single {α : Type} (l : List α) (u : α → Upd) (s : State) : Eff.forEach l (fun a _ => [u a]) s = l.map u := by
  induction l generalizing s with
  | nil => rfl
  | cons a l ih =>
    show u a :: Eff.forEach l (fun a _ => [u a]) _ = _
    rw [ih]
    rfl

theorem framed_clusterUpds {α : Type} (l : State → List α) (key : α → Nat) (g : α → Cluster) :
    Framed [.clusters] (fun s => (l s).map (fun a => Upd.cluster (key a) (g a))) := framed_of fun s =>
  ⟨Eff.forEach (l s) (fun a _ => [.cluster (key a) (g a)]), (forEach_single _ _ s).symm,
    framed_forEach _ _ fun _ _ => framed_cluster _ _⟩

theorem framed_coreUpds {α : Type} (l : State → List α) (key : α → Nat) (g : α → Core) :
    Framed [.cores] (fun s => (l s).map (fun a => Upd.core (key a) (g a))) := framed_cores _ fun s u hu => by
  obtain ⟨a, -, rfl⟩ := List.mem_map.mp hu
  exact ⟨_, _, rfl⟩

theorem framed_migTlbs (m : Migration) : Framed [.cores, .clusters] (migTlbs m) := by
  rw [migTlbs_eq]
  exact ((framed_coreUpds _ _ _).mono (by simp)).seq ((framed_clusterUpds _ _ _).mono (by simp))

/-- No TLB of the package translates the page. -/
def tlbsFree (m : Migration) (s : State) : Prop :=
  everyCore (fun c => tlbFree m c.tlb) s ∧ everyCluster (fun c => tlbFree m c.tlb) s

theorem tlbsFree_migTlbs (m : Migration) (s : State) : tlbsFree m (applyAll (migTlbs m s) s) := by
  rw [migTlbs_eq, applyAll_seq]
  have hclusters : Framed [.clusters] (clusterTlbs m) := framed_clusterUpds _ _ _
  exact ⟨everyCore_of_cores (everyCore_coreTlbs m s) (hclusters.same _ .cores (by simp)), everyCluster_clusterTlbs m _⟩

theorem tlbsFree_of_same {xs : List Comp} {m : Migration} {s t : State} (h : tlbsFree m s) (hsame : Same xs s t)
    (hcores : Comp.cores ∉ xs) (hclusters : Comp.clusters ∉ xs) : tlbsFree m t := by
  have hc : t.clusters = s.clusters := hsame .clusters hclusters
  refine ⟨everyCore_of_cores h.1 (hsame .cores hcores), ?_⟩
  unfold everyCluster
  rw [hc]
  exact h.2

/-! ## The homes and the TLBs at the end of a migration -/

/-- What a migration's end does before it comes to the groups. -/
def migFront (frank : Nat) (m : Migration) : Eff := Eff.all [migTakes m, migCopy m, migCount frank m, migLeaf m, migTlbs m]

theorem framed_migCount (frank : Nat) (m : Migration) : Framed [] (migCount frank m) := (framed_count _ _ _).seq (framed_count _ _ _)

theorem framed_migFront (frank : Nat) (m : Migration) : Framed [.mem, .cores, .clusters, .coh] (migFront frank m) := by
  refine framed_all _ fun f hf => ?_
  simp only [List.mem_cons, List.not_mem_nil, or_false] at hf
  rcases hf with rfl | rfl | rfl | rfl | rfl
  · exact (framed_migTakes m).mono (by simp)
  · exact (framed_migCopy m).mono (by simp)
  · exact (framed_migCount frank m).mono (by simp)
  · exact (framed_migLeaf m).mono (by simp)
  · exact (framed_migTlbs m).mono (by simp)

/-- The contents of the old frame are at the new one, the leaf entry names it, no TLB translates the page, and no write waits. -/
theorem migFront_done {s : State} (hmem : Memory.wf s.mem = true) (h : noneHeld s) (frank : Nat) {m : Migration}
    (hpte : m.pteAt + 8 ≤ m.new ∨ m.new + 2 ^ m.log2 ≤ m.pteAt) {t : State} (ht : t = applyAll (migFront frank m s) s) :
    (∀ i, i < 2 ^ m.log2 → readByte t.mem (m.new + i) = readByte s.mem (m.old + i)) ∧
    fld (BitVec.ofNat 64 (ofBytes (readBytes t.mem m.pteAt 8))) 47 16 = m.new / 65536 % 2 ^ 32 ∧ tlbsFree m t ∧ t.coh.homeq = [] := by
  simp only [migFront, applyAll_all_cons, applyAll_all_nil] at ht
  obtain ⟨hmem1, hq1⟩ := migTakes_done h m
  generalize applyAll (migTakes m s) s = s1 at *
  have hcopy := fun i (hi : i < 2 ^ m.log2) => readByte_migCopy (hmem1 ▸ hmem) m hi
  have hcoh2 : (applyAll (migCopy m s1) s1).coh = s1.coh := (framed_migCopy m).same s1 .coh (by simp)
  generalize applyAll (migCopy m s1) s1 = s2 at *
  have hmem3 : (applyAll (migCount frank m s2) s2).mem = s2.mem := (framed_migCount frank m).same s2 .mem (by simp)
  have hcoh3 : (applyAll (migCount frank m s2) s2).coh = s2.coh := (framed_migCount frank m).same s2 .coh (by simp)
  generalize applyAll (migCount frank m s2) s2 = s3 at *
  obtain ⟨hleaf, hother, hq4⟩ := migLeaf_done m s3
  generalize applyAll (migLeaf m s3) s3 = s4 at *
  have hmem5 : t.mem = s4.mem := ht ▸ (framed_migTlbs m).same s4 .mem (by simp)
  have hcoh5 : t.coh = s4.coh := ht ▸ (framed_migTlbs m).same s4 .coh (by simp)
  refine ⟨fun i hi => ?_, by rw [hmem5, hleaf], ht ▸ tlbsFree_migTlbs m s4, by rw [hcoh5, hq4, hcoh3, hcoh2, hq1]⟩
  rw [hmem5, hother (m.new + i) (by omega), hmem3, hcopy i hi, hmem1]

/-! ## The agents and what is left -/

/-- What a migration's end does to the groups and the streams. -/
def migAgents (m : Migration) : Eff := Eff.seq (fun s => s.groups.map (fun e => .group e.1 (migGroup m e.2)))
  (fun s => s.streams.map (fun e => .stream e.1 (migStream m e.2)))

/-- Stream updates change no part of the package and no group. -/
theorem applyAll_streams_keep {α : Type} (key : α → Nat) (g : α → Stream) (l : List α) (s : State) :
    Same [] s (applyAll (l.map (fun a => Upd.stream (key a) (g a))) s) ∧
    (applyAll (l.map (fun a => Upd.stream (key a) (g a))) s).groups = s.groups := by
  induction l generalizing s with
  | nil => exact ⟨Same.refl _ s, rfl⟩
  | cons a l ih =>
    obtain ⟨hsame, hgroups⟩ := ih ((Upd.stream (key a) (g a)).apply s)
    refine ⟨Same.trans (fun x _ => ?_) hsame, hgroups⟩
    cases x <;> rfl

theorem migAgents_done (m : Migration) {s : State} (hsort : sortedKeys s.groups = true) {p : Nat} {g : Group}
    (hg : mfind s.groups p = some g) {t : State} (ht : t = applyAll (migAgents m s) s) :
    Same [] s t ∧ mfind t.groups p = some (migGroup m g) := by
  rw [migAgents, applyAll_seq] at ht
  obtain ⟨hsame1, -⟩ := applyAll_groups_keep (fun e : Nat × Group => e.1) (fun e => migGroup m e.2) s.groups s
  have hg1 := mfind_groups_applyAll (migGroup m) s.groups hsort s p
  generalize applyAll (s.groups.map (fun e => Upd.group e.1 (migGroup m e.2))) s = s1 at *
  obtain ⟨hsame2, hgroups⟩ := applyAll_streams_keep (fun e : Nat × Stream => e.1) (fun e => migStream m e.2) s1.streams s1
  rw [← ht] at hsame2 hgroups
  exact ⟨hsame1.trans hsame2, by rw [hgroups, hg1, hg]; rfl⟩

/-- The instruction caches lose what they hold of the new frame. -/
def migCaches (m : Migration) : Eff := fun s =>
  s.cores.map (fun e => .core e.1 { e.2 with icache := e.2.icache.filter (fun x => !migNew m x.1) })

theorem framed_migCaches (m : Migration) : Framed [.cores] (migCaches m) := framed_coreUpds _ _ _

theorem everyCore_migCaches (m : Migration) {s : State} (h : everyCore (fun c => tlbFree m c.tlb) s) :
    everyCore (fun c => tlbFree m c.tlb) (applyAll (migCaches m s) s) :=
  everyCore_applyAll (fun e : Nat × Core => e.1) (fun e => { e.2 with icache := e.2.icache.filter (fun x => !migNew m x.1) }) s.cores s
    (fun e he => h e he) fun e he hl => absurd rfl (hl e he)

/-- What a migration's end does once the agents know the new frame: saved blocks, instruction caches, what the homes keep. -/
def migBack (m : Migration) : Eff := Eff.all
  [fun s => [.mail { s.mail with saved := s.mail.saved.map (migSaved m) }],
   migCaches m, onCoh (migCoh m), migReplay m]

/-- With no write at a home nothing is replayed. -/
theorem migReplay_done (m : Migration) {s : State} (h : s.coh.homeq = []) :
    applyAll (migReplay m s) s = applyAll [.coh { s.coh with homeq := [] }] s := by
  simp [migReplay, onCoh, h, Eff.seq, Eff.forEach, Eff.all, Eff.nop]

theorem migBack_done (m : Migration) {s : State} (hq : s.coh.homeq = []) (hfree : tlbsFree m s) {t : State}
    (ht : t = applyAll (migBack m s) s) :
    Same [.cores, .coh, .mail] s t ∧ t.groups = s.groups ∧ tlbsFree m t ∧ ∀ x ∈ t.coh.migs, x.uid ≠ m.uid := by
  simp only [migBack, applyAll_all_cons, applyAll_all_nil] at ht
  have hmail := framed_mail (fun s => { s.mail with saved := s.mail.saved.map (migSaved m) })
  have hsame1 := hmail.same s
  have hgroups1 := hmail.groups s
  generalize applyAll [.mail { s.mail with saved := s.mail.saved.map (migSaved m) }] s = s1 at *
  have hfree1 := tlbsFree_of_same hfree hsame1 (by simp) (by simp)
  have hcoh1 : s1.coh = s.coh := hsame1 .coh (by simp)
  have hsame2 := (framed_migCaches m).same s1
  have hgroups2 := (framed_migCaches m).groups s1
  have hcores2 := everyCore_migCaches m hfree1.1
  generalize applyAll (migCaches m s1) s1 = s2 at *
  have hclusters2 : s2.clusters = s1.clusters := hsame2 .clusters (by simp)
  have hfree2 : tlbsFree m s2 := ⟨hcores2, by unfold everyCluster; rw [hclusters2]; exact hfree1.2⟩
  have hcoh2 : s2.coh = s1.coh := hsame2 .coh (by simp)
  have hhomes := framed_coh (fun s => migCoh m s.coh)
  have hsame3 := hhomes.same s2
  have hgroups3 := hhomes.groups s2
  have hmigs : ∀ x ∈ (applyAll (onCoh (migCoh m) s2) s2).coh.migs, x.uid ≠ m.uid := fun x hx => by
    simpa using (List.mem_filter.mp hx).2
  have hq3 : (applyAll (onCoh (migCoh m) s2) s2).coh.homeq = [] :=
    (congrArg Coh.homeq (hcoh2.trans hcoh1) : s2.coh.homeq = s.coh.homeq).trans hq
  generalize hs3 : applyAll (onCoh (migCoh m) s2) s2 = s3 at *
  rw [show applyAll [Upd.coh (migCoh m s2.coh)] s2 = s3 from hs3] at hsame3 hgroups3
  rw [migReplay_done m hq3] at ht
  have hreplay := framed_coh (fun s => { s.coh with homeq := [] })
  have hsame4 := hreplay.same s3
  have hgroups4 := hreplay.groups s3
  rw [← ht] at hsame4 hgroups4
  have hsame34 := hsame3.trans hsame4
  refine ⟨(((hsame1.mono (by simp)).trans (hsame2.mono (by simp))).trans (hsame34.mono (by simp))),
    by rw [hgroups4, hgroups3, hgroups2, hgroups1], tlbsFree_of_same hfree2 hsame34 (by simp) (by simp), ?_⟩
  rw [ht]
  exact hmigs

/-! ## MIGRATION_COMPLETE -/

/-- The end of a migration in its four parts. -/
theorem applyAll_migEnd (p : Nat) (m : Migration) (s : State) : ∃ frank, applyAll (migEnd p m s) s =
    applyAll (Eff.seq (migFront frank m) (Eff.seq (migAgents m) (Eff.seq (migBack m) (migWakes p))) s) s := by
  refine ⟨((mfind s.groups p).map (fun g => frankOfBlk s g.blk)).getD 0, ?_⟩
  simp only [migEnd, migFront, migAgents, migBack, migCaches, applyAll_all_cons, applyAll_all_nil, applyAll_seq]

theorem migWakes_eq {s : State} {p : Nat} {g : Group} {w : Wait} {d : Nat} (hg : mfind s.groups p = some g) (hw : g.u.wait = some w)
    (hk : w.kind = .migration d) : migWakes p s = wakeK (.group p) d 0 s := by
  simp only [migWakes, waitKind_of_waitsAt (waitsAt_of_group hg hw), hk]

theorem migrationComplete_done {s : State} {p : Nat} {g : Group} {w : Wait} {d : Nat} {m : Migration} (hinv : State.Inv s)
    (hp : p = subjAt s 0) (hg : mfind s.groups p = some g) (hw : g.u.wait = some w) (hk : w.kind = .migration d)
    (hm : migOf s g.uid = some m) (hready : migReady s m = true) (hnone : noneHeld s)
    (hpte : m.pteAt + 8 ≤ m.new ∨ m.new + 2 ^ m.log2 ≤ m.pteAt) :
    ∃ t, exec .migrationComplete s = .next t ∧ Same [.mem, .cores, .clusters, .coh, .mail] s t ∧
      (∃ h, mfind t.groups p = some h ∧ h.u.wait = none ∧ KSet d 0 g.u.regs h.u.regs ∧ h.live = g.live ∧
        ∀ l, l < 32 → mget 0 h.sched.pc l = if inMask w.lanes l then w.next else mget 0 g.sched.pc l) ∧
      (∀ i, i < 2 ^ m.log2 → readByte t.mem (m.new + i) = readByte s.mem (m.old + i)) ∧
      fld (BitVec.ofNat 64 (ofBytes (readBytes t.mem m.pteAt 8))) 47 16 = m.new / 65536 % 2 ^ 32 ∧
      (∀ k, ∀ e ∈ (getCore t k).tlb, ¬((e.asid = m.asid ∨ fld e.pte 7 7 = 1) ∧ e.base = m.va / 2 ^ e.log2)) ∧
      (∀ k, ∀ e ∈ (getCluster t k).tlb, ¬((e.asid = m.asid ∨ fld e.pte 7 7 = 1) ∧ e.base = m.va / 2 ^ e.log2)) ∧
      ∀ x ∈ t.coh.migs, x.uid ≠ m.uid := by
  have hexec : exec .migrationComplete s = .next (applyAll (migEnd p m s) s) := by
    show execMigrationComplete s = _
    have hover : migOver s p = some (migEnd p m) := by simp only [migOver, hg, hm, hready, if_true]
    simp only [execMigrationComplete, commit_eq, ← hp, hover]
  obtain ⟨frank, hparts⟩ := applyAll_migEnd p m s
  simp only [hparts, applyAll_seq] at hexec
  obtain ⟨hcopy, hleaf, hfree1, hq1⟩ := migFront_done hinv.mem hnone frank hpte rfl
  have hsame1 := (framed_migFront frank m).same s
  have hgroups1 := (framed_migFront frank m).groups s
  generalize applyAll (migFront frank m s) s = s1 at *
  obtain ⟨hsame2, hg2⟩ := migAgents_done m (hgroups1 ▸ hinv.groups) (hgroups1 ▸ hg) rfl
  generalize applyAll (migAgents m s1) s1 = s2 at *
  have hq2 : s2.coh.homeq = [] := (congrArg Coh.homeq (hsame2 .coh (by simp)) : s2.coh.homeq = s1.coh.homeq).trans hq1
  obtain ⟨hsame3, hgroups3, hfree3, hmigs⟩ := migBack_done m hq2 (tlbsFree_of_same hfree1 hsame2 (by simp) (by simp)) rfl
  generalize applyAll (migBack m s2) s2 = s3 at *
  have hg3 : mfind s3.groups p = some (migGroup m g) := by rw [hgroups3, hg2]
  rw [migWakes_eq hg3 hw hk] at hexec
  obtain ⟨hsame4, -, -⟩ := within_wakeK (.group p) d 0 s3
  obtain ⟨h, hh, hwait, hregs, hlive, -, -, hpc⟩ := woken_wakeK (waitsAt_of_group hg3 hw) d 0 _ hg3
  generalize applyAll (wakeK (.group p) d 0 s3) s3 = t at *
  have hmem : t.mem = s1.mem := (hsame4 .mem (by simp) : t.mem = s3.mem).trans
    ((hsame3 .mem (by simp) : s3.mem = s2.mem).trans (hsame2 .mem (by simp)))
  have hcoh : t.coh = s3.coh := hsame4 .coh (by simp)
  obtain ⟨hcores, hclusters⟩ := tlbsFree_of_same hfree3 hsame4 (by simp) (by simp)
  have hempty : tlbFree m [] := fun _ he => absurd he List.not_mem_nil
  refine ⟨t, hexec, ?_, ⟨h, hh, hwait, hregs, hlive, hpc⟩, ?_, ?_, fun k e he => migHit_eq_false (hcores.getCore hempty k e he),
    fun k e he => migHit_eq_false (hclusters.getCluster hempty k e he), ?_⟩
  · exact ((hsame1.mono (by simp)).trans (hsame2.mono (by simp))).trans ((hsame3.mono (by simp)).trans (hsame4.mono (by simp)))
  · rw [hmem]; exact hcopy
  · rw [hmem]; exact hleaf
  · rw [hcoh]; exact hmigs

/-! ## The settlement -/

/-- Settles O56: each return's condition gives what its parked form does, and the wake of its agent leaves the rest. -/
theorem waitReturns : Obligations.WaitReturns := by
  unfold Obligations.WaitReturns
  refine ⟨⟨fun s w u d kc hu hw hk hc => ?_, fun _ _ _ _ _ _ _ => pmwaitReturn_done, fun _ _ _ _ _ _ => monWaitReturn_done,
      fun _ _ _ _ _ _ => monWaitTimeout_done, fun _ _ _ => napExpiry_done⟩,
    ⟨fun _ _ _ _ _ => ringWaitReturn_put, fun _ _ _ _ _ => ringWaitReturn_get, fun _ _ _ _ _ _ => ringWaitReturn_room,
      fun _ _ _ _ _ _ => barrierWaitReturn_done, fun _ _ _ _ _ _ => mbarWaitReturn_done,
      fun _ _ _ _ _ => barrierWaitReturn_arrives, fun _ _ _ _ _ _ _ => barrierWaitReturn_syncs,
      fun _ _ _ _ _ => mbarWaitReturn_arrives⟩,
    fun _ _ _ _ => spawnRelease_done, fun _ _ _ _ _ _ => migrationComplete_done⟩
  obtain ⟨t, hexec, hkeeps, hwoken, -⟩ := kcwaitReturn_done hu hw hk hc
  refine ⟨t, hexec, hkeeps, hwoken.mono fun r r' hr => ?_, trivial⟩
  subst hr
  exact ⟨getK_kcwaitRegs d kc r, getKst_kcwaitRegs d kc r, rfl, rfl, rfl, rfl, rfl, rfl⟩

end Sys2Proof.Machine
end

section
/-! PROOFS. The carry and division forms (O2, O22). -/

namespace Sys2Proof.Machine

/-! ## Carries (R140) -/

/-- The shared shape of the carry forms: the result in its destination, then the carry in pC. -/
theorem completes_of_carryRes {i : Instr} {s : State} {c : Ctx} {body : Ctx → State → Res} {w : LaneW} {f : Nat → Nat × Bool}
    (h : Issues i anyProfile s c) (hx : exec i s = issue i body s) (hb : body c s = carryRes c w f) :
    ∃ t, exec i s = .next t ∧
      Completes c s t [] [] (fun r r' => ∃ m, LaneWritten w.ty w.d true (c.active w.g w.gn) (fun l => patRes w.ty (f l).1) r m ∧
        PredWritten w.c.toNat (c.active w.g w.gn) (fun l => (f l).2) m r') none :=
  completes_of_regs h hx hb rfl rfl fun _ => ⟨_, laneWritten_putLanes _ _ _ _ _ _, predWritten_putPred _ _ _ _⟩

/-! ## Division (R141) -/

/-- Without a divisor of 0 in a lane that executes a division answers the shared shape of a lane result. -/
theorem divRes_of_ne_zero {c : Ctx} {w : LaneW} (f : Int → Int → Int)
    (h : ∀ l, l < 32 → inMask (c.active w.g w.gn) l = true → c.intB w l ≠ 0) :
    divRes c w f = laneRes c w w.ty (fun l => intRes w (f (c.intA w l) (c.intB w l))) := by
  have hnone : (lanesOf (c.active w.g w.gn)).find? (fun l => c.intB w l == 0) = none :=
    List.find?_eq_none.2 fun l hl => by
      obtain ⟨hlt, hact⟩ := (mem_lanesOf _ l).1 hl
      simpa using h l hlt hact
  simp only [divRes, hnone]

/-- The lowest lane that executes with a divisor of 0 is the one that DIVZ names. -/
theorem divRes_of_zero {c : Ctx} {w : LaneW} {l : Nat} (f : Int → Int → Int) (hl : l < 32)
    (hact : inMask (c.active w.g w.gn) l = true) (hz : c.intB w l = 0)
    (hmin : ∀ k, k < l → inMask (c.active w.g w.gn) k = true → c.intB w k ≠ 0) : divRes c w f = .trap 12 0 l Eff.nop := by
  have hfind : (lanesOf (c.active w.g w.gn)).find? (fun l => c.intB w l == 0) = some l := by
    rw [lanesOf, List.find?_filter, List.find?_range_eq_some]
    refine ⟨by simp [hact, hz], List.mem_range.2 hl, fun k hk => ?_⟩
    simpa [imp_iff_not_or] using hmin k hk
  simp only [divRes, hfind]

/-! ## The settlements -/

/-- Settles O2: the carry forms answer the shared shape of a lane result with a predicate after it; the division forms, where no
divisor is 0, that of a lane result. -/
theorem carryAndDivisionForms : Obligations.CarryAndDivisionForms := by
  unfold Obligations.CarryAndDivisionForms
  refine ⟨fun i s c w f h hr => ?_, fun i s c w f h hr hne => ?_⟩
  · cases i with
    | addc _ | subb _ => cases hr; exact completes_of_carryRes h rfl rfl
    | _ => cases hr
  · cases i with
    | div _ | rem _ => cases hr; exact completes_of_laneRes h rfl rfl (divRes_of_ne_zero _ hne)
    | _ => cases hr

/-- Settles O22: both forms' bodies answer DIVZ of the lowest lane with a divisor of 0, with no effect of their own, and the system
handler takes it. -/
theorem divisionByZeroTraps : Obligations.DivisionByZeroTraps := by
  unfold Obligations.DivisionByZeroTraps
  intro i s c w f l h hs hroom hr hl hact hz hmin g hg hbank
  refine ⟨rfl, ?_⟩
  cases i with
  | div _ | rem _ => cases hr; exact issue_trapped h hroom hs (divRes_of_zero _ hl hact hz hmin) hg hbank
  | _ => cases hr

end Sys2Proof.Machine
end

section
/-! PROOFS. The uniform forms that write kD alone (O25). -/

namespace Sys2Proof.Machine

section
variable {i : Instr} {s : State} {c : Ctx} {body : Ctx → State → Res} {d : UFld} {v v' : Nat}

/-- A word whose body completes with a value in kD, stated of a value that is the same mod 2^64. -/
theorem completes_of_putU {act : Word} (h : Issues i anyProfile s c) (hx : exec i s = issue i body s)
    (hb : body c s = .done { act := act, regs := putU d v' }) (hv : BitVec.ofNat 64 v' = BitVec.ofNat 64 v) :
    ∃ t, exec i s = .next t ∧ Completes c s t [] [] (KWritten d v) none :=
  completes_of_regs h hx hb rfl rfl fun r => by
    obtain ⟨hk, hrest, hl⟩ := kWritten_putU d v' r
    exact ⟨fun n => by rw [hk n, hv], hrest, hl⟩

/-- The shared shape of the uniform arithmetic: kD holds the value mod 2^64. -/
theorem completes_of_uniRes {w : UniW} (h : Issues i anyProfile s c) (hx : exec i s = issue i body s)
    (hb : body c s = uniRes c w v') (hv : v' % 2 ^ 64 = v % 2 ^ 64) :
    ∃ t, exec i s = .next t ∧ Completes c s t [] [] (KWritten w.d v) none :=
  completes_of_putU h hx hb (BitVec.eq_of_toNat_eq (by simpa using hv))

end

/-! ## Values -/

/-- A difference as a 64-bit pattern (R152). -/
theorem patOf_sub (a b : Nat) : patOf ((a : Int) - (b : Int)) 64 % 2 ^ 64 = (a + (2 ^ 64 - b % 2 ^ 64)) % 2 ^ 64 := by
  unfold patOf
  omega

/-- Equal signed values are equal patterns. -/
theorem mod_eq_of_sextN_eq {a b : Nat} (h : sextN a 64 = sextN b 64) : a % 2 ^ 64 = b % 2 ^ 64 := by
  simp only [sextN] at h
  split at h <;> split at h <;> omega

/-- Of two equal signed values either is the maximum. -/
theorem kmax_comm (a b : Nat) :
    (if sextN a 64 < sextN b 64 then b else a) % 2 ^ 64 = (if sextN b 64 < sextN a 64 then a else b) % 2 ^ 64 := by
  rcases lt_trichotomy (sextN a 64) (sextN b 64) with hlt | heq | hgt
  · rw [if_pos hlt, if_neg (lt_asymm hlt)]
  · rw [if_neg heq.not_lt, if_neg heq.not_gt, mod_eq_of_sextN_eq heq]
  · rw [if_neg (lt_asymm hgt), if_pos hgt]

theorem kshl_eq (a b : Nat) : (if 64 ≤ b then 0 else a * 2 ^ b) = if 64 ≤ b then 0 else a <<< b := by
  rw [Nat.shiftLeft_eq]

theorem kshr_eq (a b : Nat) : (if 64 ≤ b then 0 else a / 2 ^ b) = if 64 ≤ b then 0 else a >>> b := by
  rw [Nat.shiftRight_eq_div_pow]

/-! ## What the issuer's context shows -/

/-- A context shows the clock as the state holds it. -/
theorem ctxHere_clock {i : Instr} {s : State} {c : Ctx} (h : ctxHere i s = some c) : c.cyc = s.clk.cyc ∧ c.time = timeReg s.clk := by
  obtain ⟨iss, -, h⟩ := ctxHere_iss h
  unfold ctxOf at h
  dsimp only at h
  repeat' split at h
  all_goals cases h
  all_goals exact ⟨rfl, rfl⟩

/-- What the cycle of another group's cntcfg found at a counter. -/
theorem ctNow_filter_other {x : CtSet} {n : Nat} {w : CtNow} (hw : mfind x.wrote n = some w) (cyc who : Nat) :
    (ctNow x cyc n).filter (fun w => w.who != who) = if w.cyc = cyc ∧ w.who ≠ who then some w else none := by
  by_cases hcyc : w.cyc = cyc <;> simp [ctNow, hw, hcyc, Option.filter]

/-- A counter's read is the one that R414 and R415 give. -/
theorem ctRead_eq_counterRead (c : Ctx) (s : State) (set sel : Nat) :
    ctRead s c.key set sel = counterRead c s set (sel % 16) (16 ≤ sel) := by
  have hsel : decide (16 ≤ sel) = !decide (sel < 16) := by simp only [← Nat.not_lt, decide_not]
  unfold ctRead counterRead
  dsimp only
  cases hw : mfind (getSet s set).wrote (sel % 16) with
  | none => by_cases hlt : sel < 16 <;> simp [ctNow, ctOvf, hw, hsel, hlt]
  | some w =>
    rw [ctNow_filter_other hw]
    by_cases hmet : w.cyc = s.clk.cyc ∧ w.who ≠ c.key <;> by_cases hlt : sel < 16 <;> simp [hmet, hsel, hlt]

/-! ## Waits that are over -/

/-- A wait that is over completes with the barrier's word. -/
theorem barWaitRes_over {c : Ctx} {s : State} {x : Party} {key : Nat} (w : UniW) (hx : partyOf s c.iss.agent = some x)
    (ho : waitOver s x key = true) :
    barWaitRes c s w key = .done { act := c.lanes, regs := putU w.d (barWord (barAt s c.blkId key)).toNat } := by
  simp only [barWaitRes, hx, ho, if_true]

/-! ## The settlement -/

/-- Settles O25: in the states of the table each form's body completes with its value in kD. -/
theorem uniformResults : Obligations.UniformResults := by
  unfold Obligations.UniformResults
  intro i s c d v h hr
  cases i with
  | kadd w | kmul w | kand w | kor w | kxor w | kmin w | ksel w | kmov w | kmovi w =>
    cases hr
    exact completes_of_uniRes h rfl rfl rfl
  | ksub w =>
    cases hr
    exact completes_of_uniRes h rfl rfl (patOf_sub _ _)
  | kmax w =>
    cases hr
    exact completes_of_uniRes h rfl rfl (kmax_comm _ _)
  | kshl w =>
    cases hr
    exact completes_of_uniRes h rfl rfl (by rw [kshl_eq])
  | kshr w =>
    cases hr
    exact completes_of_uniRes h rfl rfl (by rw [kshr_eq])
  | kfmtGet w | wstatRead w =>
    cases hr
    exact completes_of_putU h rfl rfl rfl
  | rdtime w =>
    cases hr
    refine completes_of_putU h rfl rfl ?_
    rw [(ctxHere_clock h.1).2, BitVec.ofNat_toNat, BitVec.setWidth_eq]
    rfl
  | rdcyc w =>
    cases hr
    exact completes_of_putU h rfl rfl (by rw [(ctxHere_clock h.1).1])
  | mfs w =>
    obtain ⟨hok, hr⟩ := Option.ite_none_right_eq_some.1 hr
    cases hr
    simp only [Bool.and_eq_true, Bool.not_eq_true'] at hok
    obtain ⟨⟨hknown, hpriv⟩, hwaits⟩ := hok
    have hread : readAs s c.reader (c.ub w) = some (some (readSpecial s c.reader (c.ub w))) := by
      simp [readAs, hknown, Ctx.reader, hpriv]
    refine completes_of_putU h rfl (act := c.lanes) ?_ rfl
    simp [withSreg, hknown, hread, hwaits]
  | cntrd w =>
    obtain ⟨⟨hsel, hset⟩, hr⟩ := Option.ite_none_right_eq_some.1 hr
    cases hr
    refine completes_of_putU h rfl (act := c.lanes) ?_ (by rw [← ctRead_eq_counterRead])
    have hrange : ¬(63 < c.ub w ∧ c.ub w ≠ 2 ^ 64 - 1) := by omega
    have hmode : ¬((c.sys = false ∧ c.ub w ≠ 2 ^ 64 - 1) ∧ c.ub w ≠ c.frank % 64) := by
      rintro ⟨⟨hsys, hown⟩, hother⟩
      rcases hset with hset | ⟨-, hset | hset⟩
      · exact hown hset
      · exact absurd hset (by simp [hsys])
      · exact hother hset
    dsimp only
    rw [if_neg (by omega), if_neg (by simpa using hrange), if_neg (by simpa using hmode)]
  | wstat w =>
    obtain ⟨hn, hr⟩ := Option.ite_none_right_eq_some.1 hr
    cases hr
    exact completes_of_putU h rfl (if_neg (Nat.not_le.2 hn)) rfl
  | barGen w =>
    obtain ⟨key, hkey, hr⟩ := Option.map_eq_some_iff.1 hr
    cases hr
    exact completes_of_putU h rfl (act := c.lanes) (by simp only [withBar, hkey]) rfl
  | barWait w =>
    simp only [uniResult] at hr
    split at hr
    · next key x hkey hx =>
      obtain ⟨ho, hr⟩ := Option.ite_none_right_eq_some.1 hr
      cases hr
      exact completes_of_putU h rfl (by simp only [withBar, hkey]; exact barWaitRes_over w hx ho) rfl
    · cases hr
  | mbarWait w =>
    simp only [uniResult] at hr
    split at hr
    · next x hx =>
      obtain ⟨hok, hr⟩ := Option.ite_none_right_eq_some.1 hr
      cases hr
      simp only [Bool.and_eq_true, decide_eq_true_eq] at hok
      obtain ⟨hlt, ho⟩ := hok
      exact completes_of_putU h rfl (by simp only [withNumBar, if_pos hlt]; exact barWaitRes_over w hx ho) rfl
    · cases hr
  | ringWait w =>
    simp only [uniResult] at hr
    split at hr
    · next r hring =>
      split at hr
      · next hside =>
        obtain ⟨hfull, hr⟩ := Option.ite_none_right_eq_some.1 hr
        cases hr
        exact completes_of_putU h rfl (act := c.lanes) (by simp [withRing, hring, hside, ringFull, hfull]) rfl
      · next hside =>
        obtain ⟨hroom, hr⟩ := Option.ite_none_right_eq_some.1 hr
        cases hr
        exact completes_of_putU h rfl (act := c.lanes) (by simp [withRing, hring, hside, ringRoom, hroom]) rfl
    · cases hr
  | mrow w | sstat w =>
    simp only [uniResult] at hr
    split at hr
    · next x hx =>
      obtain ⟨hok, hr⟩ := Option.ite_none_right_eq_some.1 hr
      cases hr
      simp only [Bool.and_eq_true, Bool.not_eq_true'] at hok
      obtain ⟨hstrm, hidle⟩ := hok
      have hstream : streamOf c s = some x := by simp only [streamOf, hstrm, if_true, hx]
      refine completes_of_putU h rfl (act := c.lanes) ?_ rfl
      simp only [mrowRes, sstatRes, hstream, hidle, Bool.false_eq_true, if_false]
    · cases hr
  | _ => cases hr

end Sys2Proof.Machine
end

section
/-! PROOFS. The forms that put a matrix operation in flight (O47). -/

namespace Sys2Proof.Machine

/-! ## Operations that take no number -/

/-- The next number to be given out is the same. -/
def sameNextId (s t : State) : Prop := t.nextId = s.nextId

theorem sameNextId_trans (s t u : State) (h : sameNextId s t) (k : sameNextId t u) : sameNextId s u := Eq.trans k h

/-- An operation that gives out no number. -/
abbrev TakesNoId : Eff → Prop := Eff.Leaves sameNextId

theorem takesNoId_nop : TakesNoId Eff.nop := fun _ => rfl

theorem TakesNoId.seq {f g : Eff} (hf : TakesNoId f) (hg : TakesNoId g) : TakesNoId (Eff.seq f g) := leaves_seq sameNextId_trans hf hg

theorem takesNoId_forEach {α : Type} (l : List α) (f : α → Eff) (h : ∀ a, TakesNoId (f a)) : TakesNoId (Eff.forEach l f) :=
  leaves_forEach (R := sameNextId) (fun _ => rfl) sameNextId_trans l f h

theorem takesNoId_all (fs : List Eff) (h : ∀ f ∈ fs, TakesNoId f) : TakesNoId (Eff.all fs) := by
  induction fs with
  | nil => exact takesNoId_nop
  | cons f fs ih => exact TakesNoId.seq (h f (by simp)) (ih fun g hg => h g (by simp [hg]))

theorem takesNoId_of {f : Eff} (h : ∀ s, ∃ g : Eff, f s = g s ∧ TakesNoId g) : TakesNoId f := fun s => by
  obtain ⟨g, hg, hf⟩ := h s
  rw [hg]
  exact hf s

theorem takesNoId_count (frank ev n : Nat) : TakesNoId (count frank ev n) := takesNoId_of fun s => by
  unfold count
  split
  · exact ⟨Eff.nop, rfl, takesNoId_nop⟩
  · exact ⟨fun s => [.ctrs _], rfl, fun _ => rfl⟩

/-! ## Cards take no number -/

theorem takesNoId_dropAll (ns : List Nat) (frank : Session → Nat) : TakesNoId (dropAll ns frank) := takesNoId_of fun s => by
  unfold dropAll
  refine ⟨_, rfl, TakesNoId.seq ?_ (takesNoId_forEach _ _ fun _ => takesNoId_count _ _ _)⟩
  cases ns.isEmpty <;> exact fun _ => rfl

theorem takesNoId_pushCard (cl : Nat) (k : BufCard) : TakesNoId (pushCard cl k) := by
  unfold pushCard
  cases k.who.isEmpty <;> exact fun _ => rfl

theorem takesNoId_putCard (cl src : Nat) (card : Card) (keep lost : List Nat) (frank : Session → Nat) :
    TakesNoId (putCard cl src card keep lost frank) :=
  TakesNoId.seq (fun _ => rfl)
    ((takesNoId_dropAll _ _).seq ((takesNoId_pushCard _ _).seq takesNoId_nop))

theorem takesNoId_checkHigh (cl : Nat) : TakesNoId (checkHigh cl) := takesNoId_of fun s => by
  unfold checkHigh
  dsimp only
  split
  · refine ⟨_, rfl, TakesNoId.seq (fun _ => rfl) (takesNoId_of fun s => ?_)⟩
    unfold stallCard
    dsimp only
    split
    · exact ⟨Eff.nop, rfl, takesNoId_nop⟩
    · exact ⟨_, rfl, takesNoId_putCard _ _ _ _ _ _⟩
  · exact ⟨Eff.nop, rfl, takesNoId_nop⟩

theorem takesNoId_emit (src : Src387) (ty lane slot frank : Nat) (p0 p1 : DWord) :
    TakesNoId (emit src ty lane slot frank p0 p1) := takesNoId_of fun s => by
  unfold emit
  dsimp only
  split
  · exact ⟨Eff.nop, rfl, takesNoId_nop⟩
  · exact ⟨_, rfl, (takesNoId_putCard _ _ _ _ _ _).seq (takesNoId_checkHigh _)⟩

theorem nextId_splitCard (c : Ctx) (o : Option DWord) (s : State) : (applyAll (splitCard c o s) s).nextId = s.nextId := by
  cases o with
  | none => rfl
  | some a => exact takesNoId_emit _ _ _ _ _ _ _ s

/-! ## The translations of rows (R174, R182) -/

/-- Updates of cores alone. -/
def OnCores (us : List Upd) : Prop := ∀ u ∈ us, ∃ n k, u = .core n k

theorem onCores_nil : OnCores [] := fun _ h => absurd h List.not_mem_nil

theorem OnCores.append {us vs : List Upd} (h : OnCores us) (k : OnCores vs) : OnCores (us ++ vs) := fun u hu =>
  (List.mem_append.1 hu).elim (h u) (k u)

theorem onCores_forEach {α : Type} (l : List α) (f : α → Eff) (h : ∀ a s, OnCores (f a s)) (s : State) :
    OnCores (Eff.forEach l f s) := by
  induction l generalizing s with
  | nil => exact onCores_nil
  | cons a l ih => exact (h a s).append (ih _)

theorem OnCores.framed {us : List Upd} (h : OnCores us) : Framed [.cores] (fun _ => us) := framed_cores _ fun _ => h

theorem OnCores.takesNoId {us : List Upd} (h : OnCores us) : TakesNoId (fun _ => us) := fun s => by
  induction us generalizing s with
  | nil => rfl
  | cons u us ih =>
    obtain ⟨n, k, rfl⟩ := h u (by simp)
    exact (ih (fun v hv => h v (by simp [hv])) _).trans rfl

theorem onCores_tlbFillL1 (core : Nat) (e : TlbE) (s : State) : OnCores (tlbFillL1 core e s) := by
  unfold tlbFillL1
  split
  · exact onCores_nil
  · exact fun u hu => ⟨_, _, List.mem_singleton.1 hu⟩

/-- A translation that succeeds fills L1 TLBs alone (R283). -/
theorem onCores_translate {s : State} {w : Who} {a : Acc} {rs : List TReq} {eff : Eff} (h : translate s w a rs = .ok eff)
    (t : State) : OnCores (eff t) := by
  unfold translate at h
  dsimp only at h
  repeat' split at h
  all_goals cases h
  exact onCores_forEach _ _ (fun _ _ => onCores_tlbFillL1 _ _ _) t

/-- The segments of a row translate by updates of cores. -/
theorem onCores_rowGo {c : Ctx} {a : Acc} {segs : List (Nat × Nat)} {ps ps' : List Piece} {us us' : List Upd} {s : State}
    (h : rowGo c a segs ps us s = .ok ps' us') (hus : OnCores us) : OnCores us' := by
  induction segs generalizing ps us s with
  | nil =>
    cases h
    exact hus
  | cons seg segs ih =>
    obtain ⟨va, n⟩ := seg
    simp only [rowGo] at h
    split at h
    · split at h
      · cases h
      · exact ih h hus
    · split at h
      · cases h
      · cases h
      · next eff heff => exact ih h (hus.append (onCores_translate heff s))

theorem onCores_rowAt {c : Ctx} {a : Acc} {ea : DWord} {n : Nat} {s : State} {ps : List Piece} {us : List Upd}
    (h : rowAt c a ea n s = .ok ps us) : OnCores us := by
  unfold rowAt at h
  split at h
  · repeat' split at h
    all_goals cases h
    all_goals exact onCores_nil
  · split at h
    · cases h
    · exact onCores_rowGo h onCores_nil
  · cases h

/-- Rows translate by updates of cores. -/
theorem onCores_rowsGo (c : Ctx) (a : Acc) (n : Nat) (ea : Nat → DWord) (rs : List Nat) (rows : List (List Piece))
    (us : List Upd) (s : State) (hus : OnCores us) : OnCores (rowsGo c a n ea rs rows us s).us := by
  induction rs generalizing rows us s with
  | nil => exact hus
  | cons r rs ih =>
    simp only [rowsGo]
    split
    · next ps u hrow => exact ih _ _ _ (hus.append (onCores_rowAt hrow))
    · exact hus

/-- All rows translated: the walk over them does not stop. -/
theorem rowsAll_eq {c : Ctx} {s : State} {a : Acc} {len base stride : Nat} {rs : List Nat} {rows : List (List Piece)}
    (h : rowsAll c s a len base stride rs = some rows) :
    (rowsGo c a len (rowAddr base stride) rs [] [] s).stop = none ∧ (rowsGo c a len (rowAddr base stride) rs [] [] s).rows = rows := by
  unfold rowsAll at h
  split at h
  · next hstop => exact ⟨hstop, Option.some.inj h⟩
  · cases h

/-! ## Accesses counted towards migration (R288) -/

theorem framed_countForwards (w : Who) (a : Acc) (vas : List Nat) : Framed translParts (countForwards w a vas) :=
  framed_forEach _ _ fun va _ => framed_of fun s => by
    cases tlbFind s w.core w.asid va with
    | none => exact ⟨Eff.nop, rfl, framed_nop _⟩
    | some e => exact ⟨_, rfl, framed_countMig w a e va⟩

theorem takesNoId_countMig (w : Who) (a : Acc) (e : TlbE) (va : Nat) : TakesNoId (countMig w a e va) := fun s => by
  unfold countMig
  dsimp only
  repeat' split
  all_goals rfl

theorem takesNoId_countForwards (w : Who) (a : Acc) (vas : List Nat) : TakesNoId (countForwards w a vas) :=
  takesNoId_forEach _ _ fun va => takesNoId_of fun s => by
    cases tlbFind s w.core w.asid va with
    | none => exact ⟨Eff.nop, rfl, takesNoId_nop⟩
    | some e => exact ⟨_, rfl, takesNoId_countMig w a e va⟩

theorem framed_countRows (c : Ctx) (a : Acc) (n : Nat) (ea : Nat → DWord) (rows first : Nat) :
    Framed translParts (countRows c a n ea rows first) := framed_of fun _ => ⟨countForwards _ _ _, rfl, framed_countForwards _ _ _⟩

theorem takesNoId_countRows (c : Ctx) (a : Acc) (n : Nat) (ea : Nat → DWord) (rows first : Nat) :
    TakesNoId (countRows c a n ea rows first) := takesNoId_of fun _ => ⟨countForwards _ _ _, rfl, takesNoId_countForwards _ _ _⟩

/-! ## The fork (R173, R304) -/

/-- An operation put in flight. -/
def withOp (o : Op) (x : Stream) : Stream := { x with ops := x.ops ++ [o] }

theorem keepsS_withOp (o : Op) (x : Stream) : KeepsS [.ops] x (withOp o x) :=
  ⟨rfl, rfl, rfl, rfl, fun y hy => by
    cases y with
    | ops => exact absurd (by simp) hy
    | wstat | pend | arrived | rs | strap | stopped => rfl
    | _ => trivial⟩

theorem forkOp_eq (c : Ctx) (o : Op) (s : State) :
    forkOp c o s = Eff.seq (onStream c (withOp { o with id := s.nextId })) (fun s => [.nextId (s.nextId + 1)]) s := rfl

theorem ownFramed_forkOp (c : Ctx) (o : Op) : OwnFramed c [] [.ops] (forkOp c o) := ownFramed_of fun s =>
  ⟨_, forkOp_eq c o s, (ownFramed_onStream fun x => keepsS_withOp _ x).seq ((framed_nextId _).own _)⟩

/-- The forked operation stands last among those in flight, under the next number. -/
theorem ops_forkOp {c : Ctx} {o : Op} {s : State} {x : Stream} (hs : c.strm = true) (hx : mfind s.streams c.key = some x)
    (hblk : x.blk = c.blkId) :
    mfind (applyAll (forkOp c o s) s).streams c.key = some (withOp { o with id := s.nextId } x) := by
  rw [forkOp_eq, applyAll_seq, onStream_eq hs hx hblk]
  exact mfind_mput_same _ _ _

theorem applyAll_all_concat (fs : List Eff) (f : Eff) (s : State) :
    applyAll (Eff.all (fs ++ [f]) s) s = applyAll (Eff.seq (Eff.all fs) f s) s := by
  induction fs generalizing s with
  | nil => rw [applyAll_seq]; exact (applyAll_all_cons s f []).trans (applyAll_all_nil _)
  | cons g fs ih => rw [List.cons_append, applyAll_all_cons, ih, applyAll_seq, applyAll_seq, applyAll_all_cons]

/-- The completion of a form that forks an operation, yet without its number, after other operations. -/
def forkingDone (c : Ctx) (regs : Regs → Regs) (fs : List Eff) (o : Op) : Done :=
  { act := c.lanes, regs := regs, eff := Eff.all (fs ++ [forkOp c { o with id := 0 }]) }

theorem all_singleton (f : Eff) : Eff.all [f] = f := funext fun s => List.append_nil (f s)

/-- A word of the stream whose body completes with operations that keep agents and numbers, and then a fork. -/
theorem completes_of_fork {i : Instr} {prof : Ctx → State → Bool} {body : Ctx → State → Res} {s : State} {c : Ctx}
    {regs : Regs → Regs} {fs : List Eff} {o : Op} (ho : o.id = s.nextId) (h : Issues i prof s c)
    (hx : exec i s = issueP i prof body s) (hs : c.strm = true) (hb : body c s = .done (forkingDone c regs fs o))
    (hframed : ∀ f ∈ fs, Framed translParts f) (hids : ∀ f ∈ fs, TakesNoId f) :
    ∃ t, exec i s = .next t ∧ Completes c s t translParts [.ops] (fun r r' => r' = regs r) none ∧
      ∀ x, mfind s.streams c.key = some x → ∃ y, mfind t.streams c.key = some y ∧ y.ops = x.ops ++ [o] := by
  have hown : OwnFramed c translParts [.ops] (forkingDone c regs fs o).eff := ownFramed_all _ fun f hf => by
    rcases List.mem_append.1 hf with hf | hf
    · exact (hframed f hf).own _
    · rw [List.mem_singleton.1 hf]
      exact (ownFramed_forkOp c _).mono (List.nil_subset _) (List.Subset.refl _)
  obtain ⟨t, ht, hc, hafter⟩ := completes_own h hb hown (.inl rfl)
  obtain ⟨-, -, hstream⟩ := hafter _ rfl
  refine ⟨t, hx.trans ht, hc, fun x hxs => ?_⟩
  obtain ⟨iss, -, hctx⟩ := ctxHere_iss h.1
  obtain ⟨x', hx', hblk, -⟩ := ctxOf_stream hctx hs
  obtain rfl : x = x' := Option.some.inj (hxs.symm.trans hx')
  have hcard := streams_splitCard c (usplit c s) s
  have hnext := nextId_splitCard c (usplit c s) s
  generalize applyAll (splitCard c (usplit c s) s) s = s1 at *
  have hfront := framed_all fs hframed
  have hfork := ops_forkOp (o := { o with id := 0 }) (s := applyAll (Eff.all fs s1) s1) hs
    (by rw [hfront.streams, hcard]; exact hxs) hblk
  rw [show (applyAll (Eff.all fs s1) s1).nextId = o.id from (takesNoId_all fs hids s1).trans (hnext.trans ho.symm)] at hfork
  refine ⟨finishStream c (forkingDone c regs fs o) (withOp o x), hstream _ hs ?_, (streamNext_keeps _ _).2.2.1⟩
  rw [forkingDone, applyAll_all_concat, applyAll_seq]
  exact hfork

/-! ## The settlement -/

/-- The operations of a row form before its fork: they keep agents and numbers. -/
theorem rowForm_front {us : List Upd} (h : OnCores us) (c : Ctx) (a : Acc) (n : Nat) (ea : Nat → DWord) (rows first : Nat) :
    (∀ f ∈ [fun _ => us, countRows c a n ea rows first], Framed translParts f) ∧
      ∀ f ∈ [fun _ => us, countRows c a n ea rows first], TakesNoId f := by
  refine ⟨fun f hf => ?_, fun f hf => ?_⟩ <;> rcases List.mem_pair.1 hf with rfl | rfl
  · exact h.framed.mono (by simp)
  · exact framed_countRows _ _ _ _ _ _
  · exact h.takesNoId
  · exact takesNoId_countRows _ _ _ _ _ _

/-- A load whose block fits its record in whole units takes no RECORD trap (R182, R184). -/
theorem not_loadMisfit {room need ebits rest : Nat} (hfit : need ≤ room) (hwhole : ebits ≠ 0 → rest = 0) :
    ¬(decide (room < need) || (decide (ebits ≠ 0) && decide (rest ≠ 0))) = true := by
  simpa using ⟨hfit, hwhole⟩

/-- Settles O47: in the states of each case the word's body takes neither trap nor wait, its rows all translate, and it completes
with its fork. -/
theorem matrixForks : Obligations.MatrixForks := by
  unfold Obligations.MatrixForks
  intro i s c op f h hcase hs
  cases i with
  | mload w | mloadx w =>
    simp only [forkCase] at hcase
    split at hcase
    · next r x hr hx =>
      obtain ⟨⟨hfit, hwhole, hbase, hstride, hgoing, hfree⟩, hcase⟩ := Option.ite_none_right_eq_some.1 hcase
      obtain ⟨rows, hrows, hop⟩ := Option.map_eq_some_iff.1 hcase
      cases hop
      obtain ⟨hstop, rfl⟩ := rowsAll_eq hrows
      obtain ⟨hframed, hids⟩ := rowForm_front (onCores_rowsGo _ _ _ _ _ _ _ _ onCores_nil) c _ _ _ _ _
      refine completes_of_fork rfl h rfl hs ?_ hframed hids
      simp only [loadRes, hr, hx]
      rw [if_neg (not_loadMisfit hfit hwhole), if_neg (by simp [hbase, hstride]), if_neg (by simp [hgoing]),
        waitOps_unclashed _ hfree, hstop]
      rfl
    · cases hcase
  | mst w =>
    simp only [forkCase] at hcase
    obtain ⟨⟨htile, hbase, hstride, hfree⟩, hcase⟩ := Option.ite_none_right_eq_some.1 hcase
    obtain ⟨rows, hrows, hop⟩ := Option.map_eq_some_iff.1 hcase
    cases hop
    obtain ⟨hstop, rfl⟩ := rowsAll_eq hrows
    obtain ⟨hframed, hids⟩ := rowForm_front (onCores_rowsGo _ _ _ _ _ _ _ _ onCores_nil) c _ _ _ _ _
    refine completes_of_fork rfl h rfl hs ?_ hframed hids
    dsimp only
    rw [if_neg (by simpa using htile), if_neg (by simp [hbase, hstride]), waitOps_unclashed _ hfree, hstop]
    rfl
  | sdec w =>
    simp only [forkCase] at hcase
    split at hcase
    · next rs rd x hrs hrd hx =>
      obtain ⟨⟨hxs, hxd, hfit, hfreeSrc, hcode, hfree⟩, hcase⟩ := Option.ite_none_right_eq_some.1 hcase
      cases hcase
      refine completes_of_fork (fs := []) rfl h rfl hs ?_ (fun _ hf => absurd hf List.not_mem_nil)
        (fun _ hf => absurd hf List.not_mem_nil)
      simp only [hrs, hrd]
      rw [if_neg (by simp [hxs, hxd]), if_neg (by omega), waitOps_unclashed _ hfreeSrc, hcode]
      dsimp only
      rw [waitOps_unclashed _ hfree, forkingDone, List.nil_append, all_singleton]
      rfl
    · cases hcase
  | _ => cases hcase

end Sys2Proof.Machine
end

section
/-! PROOFS. The end of a copy in a package that lists a core twice (O59). -/

namespace Sys2Proof.Machine

/-! ## A core listed twice -/

/-- The copy-out of a window of one byte, and a copy of the next window. -/
def endingJob : CopyJob := { blk := 1, win := 0, out := true, ra := false, uid := 0, after := 0 }
def hiddenJob : CopyJob := { endingJob with win := 1 }

/-- A window of one byte at address 0x10000, and the TLB entry of its page, which core 0 may write. -/
def byteWindow : Win := { state := .copyout, size := 64, layout := [(0, 0x10000), (1, 0x100), (2, 1), (9, 1)] }
def byteEntry : TlbE := { asid := 0, base := 1, log2 := 16, pte := 0x1007B, root := 0, reps := [], count := 0 }

/-- An NC copy of the byte's line. -/
def ncLine : Line := { data := [], lexp := 0, tracked := false, nc := true, tags := [] }

/-- A package that lists core 0 twice: courier 1 of the first entry, the one that is read, runs the copy-out of a window; the second
entry holds an NC copy of the line that the copy-out writes, and another job on its courier 1. -/
def twiceListedState : State :=
  { State.reset with
    subj := [0, 1]
    blocks := [(1, { launch := 0, num := 0, blkid := 0, core := 0, part := 0, spBase := 0, spSize := 4096, winN := 2, tctx := 0
                     since := 0, spawned := false, wins := [(0, byteWindow)] })]
    groups := [(0, { uid := 0, blk := 1, vector := false, grans := 1, live := 1 })]
    cores := [(0, { couriers := [(1, endingJob)], tlb := [byteEntry] }), (0, { couriers := [(1, hiddenJob)], l1 := [(512, ncLine)] })] }

/-- The copy of courier 1 has all it needs to end. -/
theorem copyOf_twiceListedState :
    (copyOf twiceListedState 0 1 true).any (fun x => x.2.1.core == 0 && !(groupsOfBlk twiceListedState x.1.blk).isEmpty) = true :=
  rfl

/-- Courier 1 of a core when COPY_OUT_END is over. -/
def courierLeft (s : State) : Option CopyJob :=
  match exec .copyOutEnd s with
  | .next t => mfind (getCore t 0).couriers 1
  | _ => none

/-- The write gives up the NC copy of the second entry, which so becomes the core, with its other job. -/
theorem courierLeft_twiceListedState : courierLeft twiceListedState = some hiddenJob := rfl

/-- Refutes O59: COPY_OUT_END is said to leave the copy's courier idle, in every state whose courier list of that core rises. In a
state that lists the core twice, the copy's write drops an NC copy that stands in the second entry, that entry takes the place of
the first, and the courier is busy with the second entry's job. The statement lacks the hypothesis that the cores' keys rise. -/
theorem not_courierAndEngineEvents : ¬ Obligations.CourierAndEngineEvents := by
  unfold Obligations.CourierAndEngineEvents
  rintro ⟨⟨-, -, -, copyOutEnd⟩, -⟩
  obtain ⟨⟨j, b, e⟩, hcopy, hends⟩ := (Option.any_eq_true _ _).mp copyOf_twiceListedState
  simp only [Bool.and_eq_true, beq_iff_eq, Bool.not_eq_true', List.isEmpty_eq_false_iff] at hends
  obtain ⟨hcore, hgroups⟩ := hends
  have hstall : noStall twiceListedState := ⟨fun e he => absurd he List.not_mem_nil, fun _ => rfl⟩
  obtain ⟨t, ht, -, -, hidle, -⟩ := copyOutEnd twiceListedState 0 1 j b e rfl rfl hcopy hcore hgroups rfl hstall
  have hbusy := courierLeft_twiceListedState
  simp only [courierLeft, ht, hidle] at hbusy
  cases hbusy

end Sys2Proof.Machine
end

section
/-! PROOFS. The forms on the matrix resources that take no engine (O45), and the sequencer's own forms (O48). -/

namespace Sys2Proof.Machine

/-! ## One change of the matrix resources -/

theorem seq_nop (f : Eff) : Eff.seq f Eff.nop = f := funext fun s => List.append_nil (f s)

/-- A word whose body completes with a change of the matrix resources of its block and no other effect. -/
theorem completes_matrix {i : Instr} {prof : Ctx → State → Bool} {body : Ctx → State → Res} {s : State} {c : Ctx}
    {act : Word} {regs : Regs → Regs} {F : Matrix → Matrix} {R : Regs → Regs → Prop} {P : Matrix → Matrix → Prop}
    (h : Issues i prof s c) (hx : exec i s = issueP i prof body s)
    (hb : body c s = .done { act := act, regs := regs, eff := onMatrix c.blkId F }) (hR : ∀ r, R r (regs r))
    (hP : ∀ m, c.mat = m → P m (F m)) :
    ∃ t, exec i s = .next t ∧ Completes c s t [.blocks] [] R none ∧ MatrixAfter c s t P :=
  completes_onMatrix h hx hb (seq_nop _).symm (framed_nop _) rfl hR fun _ m hblk hm => hP m (mat_of_block h.1 hblk hm)

/-- A word whose body completes without an effect leaves the matrix resources as they are. -/
theorem completes_matrix_kept {i : Instr} {prof : Ctx → State → Bool} {body : Ctx → State → Res} {s : State} {c : Ctx}
    {act : Word} {regs : Regs → Regs} {R : Regs → Regs → Prop} (h : Issues i prof s c) (hx : exec i s = issueP i prof body s)
    (hb : body c s = .done { act := act, regs := regs }) (hR : ∀ r, R r (regs r)) :
    ∃ t, exec i s = .next t ∧ Completes c s t [.blocks] [] R none ∧ MatrixAfter c s t (fun m m' => m' = m) := by
  obtain ⟨t, ht, hc⟩ := completes_done h hb (framed_nop []) (.inl rfl)
  have hblocks : t.blocks = s.blocks := hc.world .blocks (by unfold cardParts; split <;> simp)
  refine ⟨t, hx.trans ht, ?_, fun q _ => by rw [hblocks], fun b m hb hm => ⟨m, by rw [hblocks, hb, ← hm], rfl⟩⟩
  obtain ⟨hworld, hagents, hgroup, hstream⟩ := hc.regs_mono fun r r' (e : r' = regs r) => e ▸ hR r
  exact ⟨hworld.mono (by simp +contextual), hagents, hgroup, hstream⟩

/-! ## Reservations (R176 to R178) -/

theorem recsAfter_mput (m : Matrix) (reg : Nat) (r : ObRec) : recsAfter reg (some r) m { m with recs := mput m.recs reg r } :=
  ⟨rfl, fun n => mfind_mput m.recs reg n r⟩

theorem recsAfter_mdel (m : Matrix) (reg : Nat) : recsAfter reg none m { m with recs := mdel m.recs reg } := by
  refine ⟨rfl, fun n => ?_⟩
  split
  · next hn => exact hn ▸ mfind_mdel_same m.recs n
  · next hn => exact mfind_mdel_other m.recs reg n hn

/-! ## Elements written by lanes (R193) -/

/-- An element of a tile, or of a pair that begins at an even number, after an element of another is written. -/
theorem tileAt_putTile_apart (m : Matrix) {t u : Nat} (pair : Bool) {i j k l : Nat} (v : Nat) (hi : i < 16) (hj : j < 16)
    (hk : k < 16) (hl : l < 16) (hu : u ≠ t) (heven : pair = true → u % 2 = 0 ∧ t % 2 = 0) :
    tileAt (putTile m t pair i j v) u pair k l = tileAt m u pair k l := by
  cases pair with
  | false => exact tileAt_putTile_other m t false v hi hj hk hl hu (by simp)
  | true =>
    obtain ⟨heu, het⟩ := heven rfl
    have h1 : 256 * u + 32 * k + 2 * l ≠ 256 * t + 32 * i + 2 * j := by omega
    have h2 : 256 * u + 32 * k + 2 * l ≠ 256 * t + 32 * i + 2 * j + 1 := by omega
    have h3 : 256 * u + 32 * k + 2 * l + 1 ≠ 256 * t + 32 * i + 2 * j := by omega
    have h4 : 256 * u + 32 * k + 2 * l + 1 ≠ 256 * t + 32 * i + 2 * j + 1 := by omega
    simp only [tileAt, putTile, if_true, mget_mset, h1, h2, h3, h4, if_false]

/-- Elements that lanes write one after the other, each in its tile, row and column. -/
def putByLanes (pair : Bool) (t row col val : Nat → Nat) (ls : List Nat) (m : Matrix) : Matrix :=
  ls.foldl (fun m l => putTile m (t l) pair (row l) (col l) (val l)) m

section
variable (pair : Bool) (t row col val : Nat → Nat)

theorem putByLanes_tiles (ls : List Nat) (m : Matrix) : ∃ x, putByLanes pair t row col val ls m = { m with tiles := x } := by
  induction ls generalizing m with
  | nil => exact ⟨_, rfl⟩
  | cons l ls ih =>
    obtain ⟨y, hy⟩ := putTile_tiles m (t l) pair (row l) (col l) (val l)
    obtain ⟨x, hx⟩ := ih { m with tiles := y }
    exact ⟨x, (congrArg (putByLanes pair t row col val ls) hy).trans hx⟩

/-- An element holds what the last lane that names it has written. -/
theorem tileAt_putByLanes (hrow : ∀ l, row l < 16) (hcol : ∀ l, col l < 16) (ls : List Nat)
    (heven : pair = true → ∀ l ∈ ls, t l % 2 = 0) (m : Matrix) {u i j : Nat} (hi : i < 16) (hj : j < 16) (hu : pair = true → u % 2 = 0) :
    tileAt (putByLanes pair t row col val ls m) u pair i j =
      match ls.reverse.find? (fun l => t l == u && row l == i && col l == j) with
      | some l => val l % 2 ^ (if pair then 64 else 32)
      | none => tileAt m u pair i j := by
  induction ls generalizing m with
  | nil => rfl
  | cons l ls ih =>
    refine (ih (fun hp k hk => heven hp k (List.mem_cons_of_mem _ hk)) _).trans ?_
    rw [List.reverse_cons, List.find?_append]
    cases ls.reverse.find? (fun l => t l == u && row l == i && col l == j) with
    | some k => rfl
    | none =>
      by_cases ht : t l = u
      · subst ht
        simp only [Option.none_or, List.find?_singleton, beq_self_eq_true, Bool.true_and]
        rw [tileAt_putTile_same m (t l) pair (val l) (hcol l) hj]
        by_cases hat : row l = i ∧ col l = j
        · simp [hat.1, hat.2]
        · have hne : ¬(i = row l ∧ j = col l) := fun ⟨h1, h2⟩ => hat ⟨h1.symm, h2.symm⟩
          simp [hat, hne]
      · have hno : (t l == u) = false := beq_false_of_ne ht
        simp only [Option.none_or, List.find?_singleton, hno, Bool.false_and]
        exact tileAt_putTile_apart m pair (val l) (hrow l) (hcol l) hi hj (Ne.symm ht)
          fun hp => ⟨hu hp, heven hp l List.mem_cons_self⟩

end

/-! ## The settlements -/

/-- Settles O45: in the states of each case the word's body takes neither trap nor wait and completes with its change. -/
theorem matrixForms : Obligations.MatrixForms := by
  unfold Obligations.MatrixForms
  intro i s c f g h hcase
  cases i with
  | obres w =>
    cases hcase
    by_cases hst : obresStatus c.mat (fs w 31 28) (c.ua w) (c.ub w) (fs w 27 27 == 1) (fs w 23 15) = 0
    · simp only [hst, if_true]
      exact completes_matrix h rfl (by dsimp only; rw [hst, if_pos rfl]) (fun r => kWritten_putU w.d 0 r) fun m _ => recsAfter_mput m _ _
    · simp only [hst, if_false]
      exact completes_matrix_kept h rfl (by dsimp only; rw [if_neg hst]) (fun r => kWritten_putU w.d _ r)
  | obfree w =>
    simp only [matrixForm] at hcase
    obtain ⟨hreg, hcase⟩ := Option.ite_none_left_eq_some.1 hcase
    split at hcase
    · next hfree =>
      cases hcase
      exact completes_matrix_kept h rfl (by dsimp only; rw [if_neg hreg, hfree]; rfl) fun _ => rfl
    · next r hr =>
      obtain ⟨hclash, hcase⟩ := Option.ite_none_right_eq_some.1 hcase
      cases hcase
      refine completes_matrix (act := c.lanes) h rfl ?_ (fun _ => rfl) fun m _ => recsAfter_mdel m _
      dsimp only
      rw [if_neg hreg, hr]
      exact waitOps_unclashed _ hclash
  | mzero w =>
    obtain ⟨hclash, hcase⟩ := Option.ite_none_right_eq_some.1 hcase
    cases hcase
    exact completes_matrix h rfl (waitOps_unclashed _ hclash) (fun _ => rfl) fun m _ => tileAfter_mapTile _ _ _ m
  | macc w =>
    simp only [matrixForm] at hcase
    obtain ⟨hlegal, hcase⟩ := Option.ite_none_left_eq_some.1 hcase
    cases hcase
    obtain ⟨heven, hclash⟩ := not_or.1 hlegal
    refine completes_matrix (act := c.lanes) h rfl ?_ (fun _ => rfl) fun m _ => tileAfter_mapTile _ _ _ m
    dsimp only
    rw [if_neg (by simpa using heven)]
    exact waitOps_unclashed _ (not_not.1 hclash)
  | mvtot w =>
    simp only [matrixForm] at hcase
    obtain ⟨hlegal, hcase⟩ := Option.ite_none_right_eq_some.1 hcase
    cases hcase
    refine completes_matrix h rfl (laneTiles_legal _ hlegal) (fun _ => rfl) fun m _ => ⟨?_, fun u i j _ hi hj hu => ?_⟩
    · obtain ⟨x, hx⟩ := putByLanes_tiles (w.ty == .f64) (fun l => c.src 0 .n32 w.a l) (laneRow c w) (· % 16)
        (fun l => c.src 2 w.ty (srcOf w.c.toNat) l) (lanesOf (c.active w.g w.gn)) m
      exact hx.trans (congrArg (fun tiles => { m with tiles }) (congrArg Matrix.tiles hx.symm))
    · exact tileAt_putByLanes _ _ _ _ _ (fun l => Nat.mod_lt _ (by decide)) (fun l => Nat.mod_lt _ (by decide)) _
        (fun hp l hl => (hlegal l hl).2 (eq_of_beq hp)) m hi hj hu
  | _ => cases hcase

/-! ## The loop of the sequencer (R197) -/

/-- No loop runs where a form that may not stand in a body passes its checks (R197). -/
theorem loop_none_of_barred {i : Instr} {prof : Ctx → State → Bool} {s : State} {c : Ctx} {x : Stream} (h : Issues i prof s c)
    (hi : barredInBody i = true) (hx : streamOf c s = some x) : x.loop = none := by
  obtain ⟨iss, -, hctx⟩ := ctxHere_iss h.1
  have hlegal : illegal c s = false := by
    have hp := h.2
    simp only [passes, Bool.and_eq_true, Bool.not_eq_true'] at hp
    exact hp.1.1.1.1
  simp only [illegal, hx, ctxOf_i hctx, hi, Bool.or_eq_false_iff, Bool.and_true] at hlegal
  exact Option.isNone_iff_eq_none.1 (Option.isSome_eq_false_iff.1 hlegal.2)

/-- A word of the stream that starts a loop: it goes on at the next word, the loop in place, and nothing else changes. -/
theorem completes_loop {i : Instr} {prof : Ctx → State → Bool} {body : Ctx → State → Res} {s : State} {c : Ctx} {act : Word}
    {len cnt : Nat} {x : Stream} (h : Issues i prof s c) (hx : exec i s = issueP i prof body s) (hs : c.strm = true)
    (hstream : mfind s.streams c.key = some x) (hloop : x.loop = none)
    (hb : body c s = .done { act := act, go := .loop len cnt }) :
    ∃ t, exec i s = .next t ∧ Completes c s t [] [.loop] RegsKept none ∧ ∃ y, mfind t.streams c.key = some y ∧
      y.loop = some { start := c.next, len := len, done := 0, left := cnt } := by
  obtain ⟨iss, -, hctx⟩ := ctxHere_iss h.1
  obtain ⟨x', hx', hblk, -⟩ := ctxOf_stream hctx hs
  obtain rfl : x = x' := Option.some.inj (hstream.symm.trans hx')
  have hcard := same_splitCard c s
  have hgroups := groups_splitCard c (usplit c s) s
  have hstreams := streams_splitCard c (usplit c s) s
  have hissue := issue_done h hb
  generalize applyAll (splitCard c (usplit c s) s) s = s1 at *
  obtain ⟨hsame, hown, hothers, hkeep⟩ :=
    finish_stream c { act := act, go := .loop len cnt } s1 x hs ((congrArg (mfind · c.key) hstreams).trans hstream) hblk
  refine ⟨_, hx.trans hissue, ⟨?_, ⟨fun q _ => ?_, fun q hq => ?_⟩, fun hc => ?_, fun _ => ⟨x, _, hstream, hown, ?_⟩⟩, _, hown, rfl⟩
  · exact (List.append_nil (cardParts c s)).symm ▸ hcard.trans (hsame.mono (List.nil_subset _))
  · exact congrArg (mfind · q) (hkeep.trans hgroups)
  · exact (hothers q (hq.resolve_left (by simp [hs]))).trans (congrArg (mfind · q) hstreams)
  · simp [hs] at hc
  · refine ⟨rfl, rfl, ?_, fun y _ => ?_, fun hl => absurd List.mem_cons_self hl, rfl⟩
    · simp only [Option.map_none, streamNext, hloop]
      rfl
    · cases y with
      | wstat | pend | arrived | rs | ops | strap | stopped => rfl
      | _ => trivial

/-- A word of the stream that completes with a change of the stream alone. -/
theorem completes_onStream {i : Instr} {prof : Ctx → State → Bool} {body : Ctx → State → Res} {s : State} {c : Ctx} {act : Word}
    {f : Stream → Stream} {own : List Own} {x : Stream} (h : Issues i prof s c) (hx : exec i s = issueP i prof body s)
    (hs : c.strm = true) (hstream : mfind s.streams c.key = some x) (hkeeps : ∀ x, KeepsS own x (f x))
    (hb : body c s = .done { act := act, eff := onStream c f }) :
    ∃ t, exec i s = .next t ∧ Completes c s t [] own RegsKept none ∧
      mfind t.streams c.key = some (finishStream c { act := act, eff := onStream c f } (f x)) := by
  obtain ⟨iss, -, hctx⟩ := ctxHere_iss h.1
  obtain ⟨x', hx', hblk, -⟩ := ctxOf_stream hctx hs
  obtain rfl : x = x' := Option.some.inj (hstream.symm.trans hx')
  obtain ⟨t, ht, hc, hafter⟩ := completes_own h hb (ownFramed_onStream hkeeps) (.inl rfl)
  obtain ⟨-, -, hown⟩ := hafter _ rfl
  refine ⟨t, hx.trans ht, hc, hown _ hs ?_⟩
  have hcard : mfind (applyAll (splitCard c (usplit c s) s) s).streams c.key = some x :=
    (congrArg (mfind · c.key) (streams_splitCard c (usplit c s) s)).trans hstream
  simp only [onStream_eq hs hcard hblk]
  exact mfind_mput_same _ _ _

/-- The stream with its issue stopped (R198). -/
def stopIssue (x : Stream) : Stream := { x with stopped := true }

theorem keepsS_stopIssue (x : Stream) : KeepsS [.stopped] x (stopIssue x) :=
  ⟨rfl, rfl, rfl, rfl, fun y hy => by cases y <;> simp_all [sameOwnS, stopIssue]⟩

theorem streamNext_stopped (x : Stream) (next : DWord) : (streamNext x next).stopped = x.stopped := by
  unfold streamNext
  cases x.loop with
  | none => rfl
  | some l => dsimp only; split <;> (try split) <;> rfl

theorem streamOf_own {c : Ctx} {s : State} {x : Stream} (hs : c.strm = true) (hx : mfind s.streams c.key = some x) :
    streamOf c s = some x := by
  simp only [streamOf, hs, if_true, hx]

/-- Settles O48: each form's body completes with its loop, its stop or its register of the matrix resources. -/
theorem sequencerForms : Obligations.SequencerForms := by
  unfold Obligations.SequencerForms
  refine ⟨fun w s c x h hs hx => ?_, fun w s c h hs => ?_, fun w s c x h hs hx hidle => ?_,
    fun w s c x h hs hx hidle => ?_, fun w s c h hs hbound => ?_⟩
  · exact completes_loop h rfl hs hx (loop_none_of_barred h rfl (streamOf_own hs hx)) rfl
  · obtain ⟨iss, -, hctx⟩ := ctxHere_iss h.1
    obtain ⟨x, hx, -⟩ := ctxOf_stream hctx hs
    obtain ⟨t, ht, hc, hown⟩ := completes_onStream h rfl hs hx keepsS_stopIssue rfl
    exact ⟨t, ht, hc, _, hown, streamNext_stopped _ _⟩
  · refine completes_matrix (act := c.lanes) h rfl ?_ (fun r => kWritten_putU w.d _ r) fun m _ => rfl
    simp only [mrowRes, streamOf_own hs hx, hidle, Bool.false_eq_true, if_false, if_true]
  · refine completes_matrix (act := c.lanes) h rfl ?_ (fun r => kWritten_putU w.d _ r) fun m _ => rfl
    simp only [sstatRes, streamOf_own hs hx, hidle, Bool.false_eq_true, if_false, if_true]
  · exact completes_matrix h rfl (if_neg (Nat.not_lt.2 hbound)) (fun _ => rfl) fun m _ => rfl

end Sys2Proof.Machine
end

section
/-! PROOFS. What special registers read as in states that agree in the parts that hold them (O50: R379, R380, R383). -/

namespace Sys2Proof.Machine

/-! ## The parts that hold the registers -/

/-- The special registers that a part of the package holds. -/
def sregsOf : Comp → List Nat
  | .boot => [0x00]
  | .idn => [0x00, 0x01, 0x0D, 0x29, 0x2A, 0x2B, 0x2C, 0x2D, 0x3E]
  | .cores => [0x02, 0x10]
  | .clk => [0x08, 0x09, 0x28]
  | .blocks => [0x14, 0x15, 0x16, 0x18, 0x1C]
  | .faults => [0x1E, 0x1F]
  | .rounds => [0x20, 0x21, 0x22, 0x23, 0x24]
  | .mail => [0x30, 0x31, 0x32, 0x33, 0x34, 0x35]
  | .trace => [0x38, 0x39, 0x3A, 0x3B, 0x3C]
  | _ => []

/-- Those that a part of a group holds. -/
def ownSregs : Own → List Nat
  | .tr => [0x0C, 0x0E, 0x0F, 0x11, 0x12, 0x13]
  | .wstat => [0x19]
  | .atomcfg => [0x1A]
  | _ => []

/-- A register reads the same in states that agree in the parts that hold it. -/
theorem readSpecial_congr {s t : State} {r : Reader} {m p : Nat} {g h : Group} (hr : r.group = some p) (hst : r.stream = none)
    (hg : mfind s.groups p = some g) (hh : mfind t.groups p = some h) (hparts : ∀ x, m ∈ sregsOf x → sameComp s t x)
    (hown : ∀ o, m ∈ ownSregs o → sameOwnG g h o) : readSpecial t r m = readSpecial s r m := by
  have hboot : m ∈ sregsOf .boot → t.boot = s.boot := hparts .boot
  have hidn : m ∈ sregsOf .idn → t.idn = s.idn := hparts .idn
  have hcores : m ∈ sregsOf .cores → t.cores = s.cores := hparts .cores
  have hclk : m ∈ sregsOf .clk → t.clk = s.clk := hparts .clk
  have hblocks : m ∈ sregsOf .blocks → t.blocks = s.blocks := hparts .blocks
  have hfaults : m ∈ sregsOf .faults → t.faults = s.faults := hparts .faults
  have hrounds : m ∈ sregsOf .rounds → t.rounds = s.rounds := hparts .rounds
  have hmail : m ∈ sregsOf .mail → t.mail = s.mail := hparts .mail
  have htrace : m ∈ sregsOf .trace → t.trace = s.trace := hparts .trace
  have htr : m ∈ ownSregs .tr → h.tr = g.tr := hown .tr
  have hwstat : m ∈ ownSregs .wstat → h.u.wstat = g.u.wstat := hown .wstat
  have hatom : m ∈ ownSregs .atomcfg → h.atomcfg = g.atomcfg := hown .atomcfg
  unfold readSpecial
  split <;> simp (disch := decide) only [hboot, hidn, hcores, hclk, hblocks, hfaults, hrounds, hmail, htrace, getCore, ofGroup,
    Reader.grp, hr, hst, hg, hh, ofBlock, ofMatrix, getRt, curRt, getQueue, curQ, getSession, tsIdx, htr, hwstat, hatom, runBank,
    Option.isSome_none, Bool.false_eq_true, if_false]

/-! ## What a word's USPLIT card leaves (R106) -/

theorem sameSessions_emit (src : Src387) (ty lane slot frank : Nat) (p0 p1 : DWord) :
    Eff.Leaves sameSessions (emit src ty lane slot frank p0 p1) := fun s => by
  unfold emit
  dsimp only
  split
  · exact sameSessions_refl s
  · refine leaves_seq sameSessions_trans (fun s => ?_) (sameSessions_checkHigh _) s
    obtain ⟨-, -, hsel, hread, -⟩ := putCard_done _ _ _ _ _ _ s
    exact ⟨hsel, fun m => by rw [hread m]; exact ⟨rfl, rfl, rfl⟩⟩

theorem sameSessions_carded (c : Ctx) (s : State) : sameSessions s (carded c s) := by
  unfold carded
  cases usplit c s with
  | some a => exact sameSessions_emit _ _ _ _ _ _ _ s
  | none => exact sameSessions_refl s

theorem same_carded (c : Ctx) (s : State) : Same [.trace, .clusters] s (carded c s) :=
  (same_splitCard c s).mono fun x hx => by unfold cardParts at hx; split at hx <;> simp_all

theorem groups_carded (c : Ctx) (s : State) : (carded c s).groups = s.groups := groups_splitCard c _ s

theorem carded_of_unsplit {c : Ctx} {s : State} (h : usplit c s = none) : carded c s = s := by
  simp only [carded, h, splitCard]
  rfl

/-- The card changes no special register but TSDROP. -/
theorem readSpecial_carded {c : Ctx} {s : State} {g : Group} {m : Nat} (hs : c.strm = false) (hg : mfind s.groups c.key = some g)
    (hm : usplit c s = none ∨ m ≠ 0x3C) : readSpecial (carded c s) c.reader m = readSpecial s c.reader m := by
  rcases hm with hm | hm
  · rw [carded_of_unsplit hm]
  by_cases htrace : m ∈ sregsOf .trace
  · obtain ⟨hsel, hregs⟩ := sameSessions_carded c s
    have hidx : tsIdx (carded c s) = tsIdx s := by rw [tsIdx, hsel, tsIdx]
    obtain ⟨hctl, hring, hptr⟩ := hregs (tsIdx s)
    simp only [sregsOf, List.mem_cons, List.not_mem_nil, or_false] at htrace
    rcases htrace with rfl | rfl | rfl | rfl | rfl
    · exact congrArg zext hsel
    · simpa only [readSpecial, hidx] using hctl
    · simpa only [readSpecial, hidx] using hring
    · simpa only [readSpecial, hidx] using hptr
    · exact absurd rfl hm
  · have hreader : c.reader.group = some c.key := by simp [Ctx.reader, hs]
    have hstream : c.reader.stream = none := by simp [Ctx.reader, hs]
    refine readSpecial_congr hreader hstream hg (by rw [groups_carded]; exact hg) (fun x hx => same_carded c s x ?_)
      fun o _ => (KeepsG.refl [] g).keep o List.not_mem_nil
    rintro hmem
    rcases List.mem_pair.1 hmem with rfl | rfl
    · exact htrace hx
    · simp [sregsOf] at hx

/-! ## MTS of a register that its mode may write -/

/-- MTS of register n with a value issues from a group whose mode may write it. -/
structure MtsIssues (w : UniW) (s : State) (c : Ctx) (n : Nat) (v : DWord) : Prop where
  issues : Issues (.mts w) anyProfile s c
  group  : c.strm = false
  reg    : c.ub w = n
  val    : v = BitVec.ofNat 64 (c.ua w)
  may    : sregPriv n = true ∨ sregSysWrite n = true → c.sys = true

/-- What MTS of a register leaves: the register reads as given, and no other, but for those that it selects. -/
def MtsDone (c : Ctx) (s t : State) (n : Nat) (xs : List Comp) (own : List Own) (x : DWord) : Prop :=
  Completes c s t xs own RegsKept none ∧ readSpecial t c.reader n = x ∧
    ∀ m, m ≠ n → m ∉ sregShown n → (usplit c s = none ∨ m < 0x38 ∨ 0x3C < m) → readSpecial t c.reader m = readSpecial s c.reader m

theorem writeAs_of_may {w : UniW} {s : State} {c : Ctx} {n : Nat} {v : DWord} (h : MtsIssues w s c n v) (hn : sregKnown n = true)
    (hw : sregReadOnly n = false) : writeAs s c.reader n v = putSpecial s c.reader n v := by
  have hmode : ((sregPriv n || sregSysWrite n) && !c.reader.sys) = false := by
    cases hp : sregPriv n || sregSysWrite n
    · rfl
    · exact congrArg (!·) (h.may (by simpa using hp))
  simp [writeAs, hn, hw, hmode]

/-- The registers that the parts which a write touches hold. -/
def touchedSregs (xs : List Comp) (own : List Own) : List Nat := xs.flatMap sregsOf ++ own.flatMap ownSregs

/-- Those of them besides the register written and the registers that it selects. -/
def siblings (n : Nat) (xs : List Comp) (own : List Own) : List Nat :=
  (touchedSregs xs own).filter (fun m => m != n && !(sregShown n).contains m)

/-- Completion asks of a word's own effect only what it does in the state at hand. -/
theorem finish_congr (c : Ctx) (act : Word) {eff eff' : Eff} {s : State} (h : eff s = eff' s) :
    finish c { act := act, eff := eff } s = finish c { act := act, eff := eff' } s :=
  congrArg (fun us => us ++ finish c { act := act } (applyAll us s)) h

section
variable {w : UniW} {s : State} {c : Ctx} {n : Nat} {v : DWord} (h : MtsIssues w s c n v) (hn : sregKnown n = true)
  (hw : sregReadOnly n = false)
include h hn hw

/-- Such an MTS whose write is an operation is a word that completes with any operation that does the same after its USPLIT card. -/
theorem mts_ok {eff eff' : Eff} (hput : putSpecial s c.reader n v = .ok eff) (heff : eff (carded c s) = eff' (carded c s)) :
    ∃ body, exec (.mts w) s = issue (.mts w) body s ∧ body c s = .done { act := c.lanes, eff := eff' } := by
  obtain ⟨body, hx, hb⟩ : ∃ body, exec (.mts w) s = issue (.mts w) body s ∧ body c s = .done { act := c.lanes, eff := eff } := by
    refine ⟨_, rfl, ?_⟩
    simp only [withSreg, h.reg, hn, if_true, ← h.val, writeAs_of_may h hn hw, hput]
  refine ⟨fun _ _ => .done { act := c.lanes, eff := eff' }, hx.trans ((issue_done h.issues hb).trans ?_), rfl⟩
  refine Eq.trans ?_ (issue_done (body := fun _ _ => .done { act := c.lanes, eff := eff' }) h.issues rfl).symm
  change Host.Outcome.next (applyAll (finish c _ (carded c s)) (carded c s)) = .next (applyAll (finish c _ (carded c s)) (carded c s))
  rw [finish_congr c c.lanes heff]

/-- MTS completes with an operation that does what its write does in the state that its USPLIT card leaves; there the
registers of the parts that the write touches read as stated. -/
theorem mtsDone_of_same {eff' eff : Eff} {xs : List Comp} {own : List Own} {x : DWord} (hput : putSpecial s c.reader n v = .ok eff')
    (heff : eff' (carded c s) = eff (carded c s)) (he : OwnFramed c xs own eff)
    (hval : ∀ s1, carded c s = s1 → readSpecial (applyAll (eff s1) s1) c.reader n = x)
    (hrest : ∀ s1, carded c s = s1 → ∀ m ∈ siblings n xs own, readSpecial (applyAll (eff s1) s1) c.reader m = readSpecial s1 c.reader m) :
    ∃ t, exec (.mts w) s = .next t ∧ MtsDone c s t n xs own x := by
  obtain ⟨body, hx, hb⟩ := mts_ok h hn hw hput heff
  obtain ⟨t, ht, hc, hafter⟩ := completes_own h.issues hb he (.inl rfl)
  obtain ⟨hsame, hgroup, -⟩ := hafter (carded c s) rfl
  obtain ⟨iss, -, hctx⟩ := ctxHere_iss h.issues.1
  obtain ⟨g, hg, hu, -⟩ := ctxOf_group hctx h.group
  have hg1 : mfind (carded c s).groups c.key = some g := (congrArg (mfind · c.key) (groups_carded c s)).trans hg
  obtain ⟨g2, hg2, hkeeps⟩ := he.group (carded c s) g h.group hg1 hu
  obtain ⟨samp, ht2⟩ := hgroup g2 h.group hg2
  have hreader : c.reader.group = some c.key := by simp [Ctx.reader, h.group]
  have hstream : c.reader.stream = none := by simp [Ctx.reader, h.group]
  have hread : ∀ m, readSpecial t c.reader m = readSpecial (applyAll (eff (carded c s)) (carded c s)) c.reader m := fun m =>
    readSpecial_congr hreader hstream hg2 ht2 (fun x _ => hsame x List.not_mem_nil) fun o ho => by
      cases o with
      | tr | wstat | atomcfg => rfl
      | _ => exact absurd ho List.not_mem_nil
  refine ⟨t, hx.trans ht, hc, (hread n).trans (hval _ rfl), fun m hmn hshown hcard => ?_⟩
  refine (hread m).trans (Eq.trans ?_ (readSpecial_carded h.group hg (hcard.imp id fun hm => by omega)))
  by_cases hm : m ∈ touchedSregs xs own
  · exact hrest _ rfl m (List.mem_filter.2 ⟨hm, by simp [hmn, hshown]⟩)
  · simp only [touchedSregs, List.mem_append, List.mem_flatMap, not_or, not_exists, not_and] at hm
    exact readSpecial_congr hreader hstream hg1 hg2 (fun x hx => he.same _ x fun hxs => hm.1 x hxs hx)
      fun o ho => hkeeps.keep o fun hos => hm.2 o hos ho

theorem mtsDone_of_ok {eff : Eff} {xs : List Comp} {own : List Own} {x : DWord} (hput : putSpecial s c.reader n v = .ok eff)
    (he : OwnFramed c xs own eff)
    (hval : ∀ s1, carded c s = s1 → readSpecial (applyAll (eff s1) s1) c.reader n = x)
    (hrest : ∀ s1, carded c s = s1 → ∀ m ∈ siblings n xs own, readSpecial (applyAll (eff s1) s1) c.reader m = readSpecial s1 c.reader m) :
    ∃ t, exec (.mts w) s = .next t ∧ MtsDone c s t n xs own x :=
  mtsDone_of_same h hn hw hput rfl he hval hrest

end

end Sys2Proof.Machine
end

section
/-! PROOFS. The special registers that mts writes as plain fields (O50: R286, R313, R345, R376, R379, R380, R383, R393). -/

namespace Sys2Proof.Machine

/-! ## Images -/

/-- A masked low half, as a 64-bit value. -/
theorem zext_and (v : DWord) (m : Word) : zext (v.setWidth 32 &&& m) = v &&& zext m := by
  refine BitVec.eq_of_getLsbD_eq fun i hi => ?_
  simp only [zext, BitVec.getLsbD_setWidth, BitVec.getLsbD_and]
  by_cases h : i < 32
  · simp [h, hi]
  · simp [h, BitVec.getLsbD_of_ge m i (by omega)]

/-- The select field of a register with its result above it. -/
theorem zext_select (sel : Word) (n : Nat) (hn : n < 65536) :
    zext (BitVec.ofNat 32 (sel.toNat / 65536 * 65536 + n)) = BitVec.ofNat 64 (fld (zext sel) 31 16 * 65536 + n) := by
  have hsel := sel.isLt
  refine BitVec.eq_of_toNat_eq ?_
  simp only [zext, fld, bits, BitVec.toNat_setWidth, BitVec.toNat_ofNat]
  omega

/-- The low six bits of a value. -/
theorem zext_bits_5_0 (v : DWord) : zext (BitVec.ofNat 32 (bits v.toNat 5 0)) = v &&& 0x3F := by
  refine BitVec.eq_of_toNat_eq ?_
  have hand : (v &&& 0x3F).toNat = v.toNat % 64 := Nat.and_two_pow_sub_one_eq_mod v.toNat 6
  rw [hand]
  simp only [zext, bits, BitVec.toNat_setWidth, BitVec.toNat_ofNat]
  omega

/-- Bits cleared of a 32-bit register. -/
theorem zext_clear (a : Word) (v : DWord) (m : Word) :
    zext (a &&& ~~~(v.setWidth 32 &&& m)) = zext a &&& ~~~(v &&& zext m) := by
  refine BitVec.eq_of_getLsbD_eq fun i hi => ?_
  simp only [zext, BitVec.getLsbD_setWidth, BitVec.getLsbD_and, BitVec.getLsbD_not]
  by_cases h : i < 32
  · simp [h, hi]
  · simp [BitVec.getLsbD_of_ge a i (by omega)]

/-- One bit of a 32-bit register replaced. -/
theorem zext_replace (a : Word) (v : DWord) (m : Word) :
    zext ((a &&& ~~~m) ||| (v.setWidth 32 &&& m)) = (zext a &&& ~~~(zext m)) ||| (v &&& zext m) := by
  refine BitVec.eq_of_getLsbD_eq fun i hi => ?_
  simp only [zext, BitVec.getLsbD_setWidth, BitVec.getLsbD_and, BitVec.getLsbD_or, BitVec.getLsbD_not]
  by_cases h : i < 32
  · simp [h, hi]
  · simp [BitVec.getLsbD_of_ge a i (by omega), BitVec.getLsbD_of_ge m i (by omega)]

section
variable {w : UniW} {s : State} {c : Ctx} {v : DWord}

/-! ## Registers of the package's identity -/

theorem mtsDone_stvec (h : MtsIssues w s c 0x0D v) : ∃ t, exec (.mts w) s = .next t ∧ MtsDone c s t 0x0D [.idn] [] v :=
  mtsDone_of_ok h rfl rfl rfl ((framed_ident _ _).own _) (fun _ _ => rfl) fun _ _ m hm => by fin_cases hm <;> rfl

theorem mtsDone_hevt (h : MtsIssues w s c 0x2D v) :
    ∃ t, exec (.mts w) s = .next t ∧ MtsDone c s t 0x2D [.idn] [] (v &&& 0x0000FFFFFFFFFFC0) :=
  mtsDone_of_ok h rfl rfl rfl ((framed_ident _ _).own _) (fun _ _ => rfl) fun _ _ m hm => by fin_cases hm <;> rfl

theorem mtsDone_mcstat (h : MtsIssues w s c 0x29 v) :
    ∃ t, exec (.mts w) s = .next t ∧ MtsDone c s t 0x29 [.idn] [] (readSpecial s c.reader 0x29 &&& ~~~(v &&& 0xFFFF000000000000)) :=
  mtsDone_of_ok h rfl rfl rfl ((framed_ident _ _).own _) (fun _ _ => rfl) fun _ _ m hm => by fin_cases hm <;> rfl

theorem mtsDone_lnkstat (h : MtsIssues w s c 0x2C v) :
    ∃ t, exec (.mts w) s = .next t ∧ MtsDone c s t 0x2C [.idn] [] (readSpecial s c.reader 0x2C &&& ~~~(v &&& 0x8000000000000000)) :=
  mtsDone_of_ok h rfl rfl rfl ((framed_ident _ _).own _) (fun _ _ => rfl) fun _ _ m hm => by fin_cases hm <;> rfl

/-! ## Registers of the core, of the block and of the fault unit -/

theorem mtsDone_corestat (h : MtsIssues w s c 0x02 v) :
    ∃ t, exec (.mts w) s = .next t ∧ MtsDone c s t 0x02 [.cores] [] (readSpecial s c.reader 0x02 &&& ~~~(v &&& 0x8)) := by
  refine mtsDone_of_ok h rfl rfl rfl ((framed_core _ _).own _) (fun s1 hs1 => ?_) fun s1 hs1 m hm => ?_
  · have hcore : getCore s1 c.reader.core = getCore s c.reader.core := by
      rw [getCore, ← hs1, show (carded c s).cores = s.cores from same_carded c s .cores (by decide), getCore]
    simp only [readSpecial, getCore_core, if_true, hcore]
    exact zext_clear _ v 0x8
  · fin_cases hm
    simp only [readSpecial, getCore_core, if_true]

theorem mtsDone_agelim (h : MtsIssues w s c 0x10 v) :
    ∃ t, exec (.mts w) s = .next t ∧ MtsDone c s t 0x10 [.cores] [] (v &&& 0xFFFF) := by
  refine mtsDone_of_ok h rfl rfl rfl ((framed_core _ _).own _) (fun s1 hs1 => ?_) fun s1 hs1 m hm => ?_
  · simp only [readSpecial, getCore_core, if_true]
    exact zext_and v 0xFFFF
  · fin_cases hm
    simp only [readSpecial, getCore_core, if_true]

theorem mtsDone_fqcfg (h : MtsIssues w s c 0x1E v) : ∃ t, exec (.mts w) s = .next t ∧ MtsDone c s t 0x1E [.faults] [] (fqcfgOf v) :=
  mtsDone_of_ok h rfl rfl rfl ((framed_faults _).own _) (fun _ _ => rfl) fun _ _ m hm => by fin_cases hm; rfl

theorem readSpecial_withFqptr (s : State) (r : Reader) (x : DWord) :
    ∀ m ∈ siblings 0x1F [.faults] [], readSpecial (applyAll [.faults { s.faults with ptr := x }] s) r m = readSpecial s r m :=
  fun m hm => by fin_cases hm; rfl

theorem mtsDone_fqptr (h : MtsIssues w s c 0x1F v) : ∃ t, exec (.mts w) s = .next t ∧
    MtsDone c s t 0x1F [.faults] [] (setFld (readSpecial s c.reader 0x1F) 63 32 (fld v 63 32)) := by
  have hold : readSpecial s c.reader 0x1F = (carded c s).faults.ptr :=
    congrArg FaultUnit.ptr (show s.faults = (carded c s).faults from (same_carded c s .faults (by decide)).symm)
  rw [hold]
  exact mtsDone_of_ok h rfl rfl rfl ((framed_faults _).own _) (fun s1 hs1 => hs1 ▸ rfl) fun s1 _ => readSpecial_withFqptr s1 _ _

/-- TCTX of the group's block. -/
theorem mtsDone_tctx (h : MtsIssues w s c 0x1C v) :
    ∃ t, exec (.mts w) s = .next t ∧ MtsDone c s t 0x1C [.blocks] [] (v &&& 0xFFFFFFFFFFFF) := by
  have hblock : mfind (carded c s).blocks c.reader.blk = some c.blk :=
    (congrArg (mfind · c.blkId) (show (carded c s).blocks = s.blocks from same_carded c s .blocks (by decide))).trans
      (ctxHere_block h.issues.1)
  have hreader : c.reader.group.isNone = false := by simp [Ctx.reader, h.group]
  refine mtsDone_of_ok h rfl rfl rfl ((framed_of fun s => ?_ : Framed [.blocks] _).own _) (fun s1 hs1 => ?_) fun s1 hs1 m hm => ?_
  · repeat' split
    · exact ⟨Eff.nop, rfl, framed_nop _⟩
    · exact ⟨fun _ => [.block _ _], rfl, framed_block _ _⟩
    · exact ⟨Eff.nop, rfl, framed_nop _⟩
  · simp [readSpecial, ofBlock, ← hs1, hblock, hreader]
  · fin_cases hm <;> simp [readSpecial, ofBlock, ofMatrix, ← hs1, hblock, hreader, spseg]

/-! ## Registers of the group -/

/-- A change of the writer's own group, as the operation that changes a context's group. -/
theorem putGroup_eq {f : Group → Group} {s : State} {g : Group} (hs : c.strm = false) (hg : mfind s.groups c.key = some g) :
    putGroup c.reader f s = [.group c.key (f g)] := by
  simp [putGroup, Ctx.reader, hs, hg]

theorem ownFramed_putGroup (hs : c.strm = false) {own : List Own} {f : Group → Group} (hf : ∀ g, KeepsG own g (f g)) :
    OwnFramed c [] own (putGroup c.reader f) := by
  have hnone : ∀ s, mfind s.groups c.key = none → putGroup c.reader f s = [] := fun s hg => by
    simp [putGroup, Ctx.reader, hs, hg]
  refine ⟨fun s => ?_, fun s => ?_, fun s g _ hg _ => ?_, fun s g hc => ?_⟩
  · cases hg : mfind s.groups c.key with
    | none => rw [hnone s hg]; exact Same.refl _ s
    | some g => rw [putGroup_eq hs hg]; intro x _; cases x <;> rfl
  · cases hg : mfind s.groups c.key with
    | none => rw [hnone s hg]; exact ⟨fun _ _ => rfl, fun _ _ => rfl⟩
    | some g =>
      rw [putGroup_eq hs hg]
      exact ⟨fun q hq => mfind_mput_other _ _ _ _ (hq.resolve_left (by simp [hs])), fun _ _ => rfl⟩
  · rw [putGroup_eq hs hg]
    exact ⟨f g, mfind_mput_same _ _ _, hf g⟩
  · simp [hs] at hc

/-- A register of the group: MTS completes with a change of the group, by which the registers of the parts changed read as stated. -/
theorem mtsDone_of_group {n : Nat} {own : List Own} {f : Group → Group} {x : DWord} (h : MtsIssues w s c n v) (hn : sregKnown n = true)
    (hw : sregReadOnly n = false) (hput : putSpecial s c.reader n v = .ok (putGroup c.reader f)) (hf : ∀ g, KeepsG own g (f g))
    (hval : ∀ s1 g, mfind s1.groups c.key = some g → mfind s.groups c.key = some g →
      readSpecial ((Upd.group c.key (f g)).apply s1) c.reader n = x)
    (hrest : ∀ s1 g, mfind s1.groups c.key = some g → ∀ m ∈ siblings n [] own,
      readSpecial ((Upd.group c.key (f g)).apply s1) c.reader m = readSpecial s1 c.reader m) :
    ∃ t, exec (.mts w) s = .next t ∧ MtsDone c s t n [] own x := by
  obtain ⟨iss, -, hctx⟩ := ctxHere_iss h.issues.1
  obtain ⟨g, hg, -⟩ := ctxOf_group hctx h.group
  have hcard : ∀ s1, carded c s = s1 → mfind s1.groups c.key = some g := fun s1 hs1 => by rw [← hs1, groups_carded]; exact hg
  refine mtsDone_of_ok h hn hw hput (ownFramed_putGroup h.group hf) (fun s1 hs1 => ?_) fun s1 hs1 => ?_
  · rw [putGroup_eq h.group (hcard s1 hs1)]
    exact hval s1 g (hcard s1 hs1) hg
  · rw [putGroup_eq h.group (hcard s1 hs1)]
    exact hrest s1 g (hcard s1 hs1)

theorem ofGroup_after (hs : c.strm = false) (s : State) (g : Group) (f : Group → DWord) :
    ofGroup ((Upd.group c.key g).apply s) c.reader f = f g := by
  simp [ofGroup, Reader.grp, Ctx.reader, hs]

theorem ofGroup_before (hs : c.strm = false) {s : State} {g : Group} (hg : mfind s.groups c.key = some g) (f : Group → DWord) :
    ofGroup s c.reader f = f g := by
  simp [ofGroup, Reader.grp, Ctx.reader, hs, hg]

theorem runBank_setRunBank (g : Group) (b : Bank) : runBank (setRunBank g b) = b := by
  unfold setRunBank
  split
  · next f rest hf =>
    cases hsys : f.sys <;> simp [runBank, hf, hsys]
  · next hf => simp [runBank, hf]

theorem setRunBank_eq (g : Group) (b : Bank) : setRunBank g b = { g with tr := (setRunBank g b).tr } := by
  unfold setRunBank
  repeat' split
  all_goals rfl

theorem utvec_setRunBank (g : Group) (b : Bank) : (setRunBank g b).tr.utvec = g.tr.utvec := by
  unfold setRunBank
  repeat' split
  all_goals rfl

/-- A change of one part of a group keeps the others. -/
theorem keepsG_tr (g : Group) (x : TrapCtx) : KeepsG [.tr] g { g with tr := x } :=
  ⟨⟨rfl, rfl, rfl, rfl, rfl⟩, rfl, fun _ => rfl, fun o ho => by cases o <;> simp_all [sameOwnG]⟩

theorem keepsG_wstat (g : Group) (x : Word) : KeepsG [.wstat] g { g with u := { g.u with wstat := x } } :=
  ⟨⟨rfl, rfl, rfl, rfl, rfl⟩, rfl, fun _ => rfl, fun o ho => by cases o <;> simp_all [sameOwnG]⟩

theorem keepsG_atomcfg (g : Group) (x : Word) : KeepsG [.atomcfg] g { g with atomcfg := x } :=
  ⟨⟨rfl, rfl, rfl, rfl, rfl⟩, rfl, fun _ => rfl, fun o ho => by cases o <;> simp_all [sameOwnG]⟩

theorem keepsG_setRunBank (g : Group) (b : Bank) : KeepsG [.tr] g (setRunBank g b) := by
  rw [setRunBank_eq]
  exact keepsG_tr g _

/-- UTVEC of the group. -/
theorem mtsDone_utvec (h : MtsIssues w s c 0x0C v) : ∃ t, exec (.mts w) s = .next t ∧ MtsDone c s t 0x0C [] [.tr] v := by
  refine mtsDone_of_group h rfl rfl rfl (fun g => keepsG_tr g _) (fun s1 g _ _ => ?_) fun s1 g hg m hm => ?_
  · exact ofGroup_after h.group s1 _ _
  · fin_cases hm <;> simp only [readSpecial, ofGroup_after h.group, ofGroup_before h.group hg] <;> rfl

/-- TRAPSCR of the running level. -/
theorem mtsDone_trapscr (h : MtsIssues w s c 0x13 v) : ∃ t, exec (.mts w) s = .next t ∧ MtsDone c s t 0x13 [] [.tr] v := by
  refine mtsDone_of_group h rfl rfl rfl (fun g => keepsG_setRunBank g _) (fun s1 g _ _ => ?_) fun s1 g hg => ?_
  · refine (ofGroup_after h.group s1 _ _).trans ?_
    rw [runBank_setRunBank]
  · intro m hm
    fin_cases hm <;> simp only [readSpecial, ofGroup_after h.group, ofGroup_before h.group hg, runBank_setRunBank, utvec_setRunBank]

/-- TRAPCAUSE of the running handler: RETRY alone is replaced. -/
theorem mtsDone_trapcause (h : MtsIssues w s c 0x0E v) {g : Group} (hg : mfind s.groups c.key = some g) (hframes : g.tr.frames.isEmpty = false) :
    ∃ t, exec (.mts w) s = .next t ∧
      MtsDone c s t 0x0E [] [.tr] ((readSpecial s c.reader 0x0E &&& ~~~0x4000) ||| (v &&& 0x4000)) := by
  have hgrp : c.reader.grp s = some g := by simp [Reader.grp, Ctx.reader, h.group, hg]
  refine mtsDone_of_group h rfl rfl (by simp only [putSpecial, hgrp, hframes]; rfl) (fun g => keepsG_setRunBank g _)
    (fun s1 g' _ hg' => ?_) fun s1 g hg => ?_
  · refine (ofGroup_after h.group s1 _ _).trans ?_
    rw [runBank_setRunBank, show readSpecial s c.reader 0x0E = zext (runBank g').cause from ofGroup_before h.group hg' _]
    exact zext_replace _ v 0x4000
  · intro m hm
    fin_cases hm <;> simp only [readSpecial, ofGroup_after h.group, ofGroup_before h.group hg, runBank_setRunBank, utvec_setRunBank]

theorem mtsDone_wstat (h : MtsIssues w s c 0x19 v) :
    ∃ t, exec (.mts w) s = .next t ∧ MtsDone c s t 0x19 [] [.wstat] (v &&& 0x80FF7F3F) := by
  refine mtsDone_of_group h rfl rfl rfl (fun g => keepsG_wstat g _) (fun s1 g _ _ => ?_) fun s1 g hg m hm => by fin_cases hm
  have hreader : c.reader.stream.isSome = false := by simp [Ctx.reader, h.group]
  simp only [readSpecial, hreader, Bool.false_eq_true, if_false, ofGroup_after h.group]
  exact zext_and v 0x80FF7F3F

/-- The value 3 of ATOMCFG stores 0. -/
theorem zext_atomcfg (v : DWord) :
    zext (if v.setWidth 32 &&& 3 == 3 then 0 else v.setWidth 32 &&& 3) = if v &&& 3 = 3 then 0 else v &&& 3 := by
  have hlow : zext (v.setWidth 32 &&& 3) = v &&& 3 := zext_and v 3
  have hinj : (v.setWidth 32 &&& 3 : Word) = 3 ↔ v &&& 3 = 3 := by
    rw [← hlow]
    constructor
    · intro h; rw [h]; rfl
    · intro h
      have := congrArg (BitVec.setWidth 32) h
      simpa [zext] using this
  by_cases h3 : v &&& 3 = 3
  · simp only [hinj.2 h3, h3, beq_self_eq_true, if_true]; rfl
  · simp only [beq_eq_false_iff_ne.2 (mt hinj.1 h3), h3, Bool.false_eq_true, if_false, hlow]

theorem mtsDone_atomcfg (h : MtsIssues w s c 0x1A v) :
    ∃ t, exec (.mts w) s = .next t ∧ MtsDone c s t 0x1A [] [.atomcfg] (if v &&& 3 = 3 then 0 else v &&& 3) := by
  refine mtsDone_of_group h rfl rfl rfl (fun g => keepsG_atomcfg g _) (fun s1 g _ _ => ?_) fun s1 g hg m hm => by fin_cases hm
  exact (ofGroup_after h.group s1 _ _).trans (zext_atomcfg v)

/-! ## The round table (R313) -/

/-- A field of the entry that RTSEL names, while it is free. -/
theorem mtsDone_of_free {n : Nat} {f : RtEntry → RtEntry} {x : DWord} (h : MtsIssues w s c n v) (hn : sregKnown n = true)
    (hw : sregReadOnly n = false) (hfree : rtValid (getRt s (curRt s)) = false) (hput : putSpecial s c.reader n v = .ok (writeFree f))
    (hval : ∀ t e, getRt t (curRt t) = f e → readSpecial t c.reader n = x)
    (hrest : ∀ s1 t, t.rounds.sel = s1.rounds.sel → getRt t (curRt t) = f (getRt s1 (curRt s1)) → ∀ m ∈ siblings n [.rounds] [],
      readSpecial t c.reader m = readSpecial s1 c.reader m) :
    ∃ t, exec (.mts w) s = .next t ∧ MtsDone c s t n [.rounds] [] x := by
  have hrounds : (carded c s).rounds = s.rounds := same_carded c s .rounds (by decide)
  have heff : writeFree f (carded c s) = setRt (curRt (carded c s)) (f (getRt (carded c s) (curRt (carded c s)))) (carded c s) := by
    have hsame : getRt (carded c s) (curRt (carded c s)) = getRt s (curRt s) := by simp only [getRt, curRt, hrounds]
    simp [writeFree, hsame, hfree]
  have hdone : ∀ s1, getRt (applyAll (setRt (curRt s1) (f (getRt s1 (curRt s1))) s1) s1) (curRt s1) = f (getRt s1 (curRt s1)) := fun s1 =>
    (getRt_setRt _ _ _ s1).trans (if_pos rfl)
  exact mtsDone_of_same (eff := fun s1 => setRt (curRt s1) (f (getRt s1 (curRt s1))) s1) h hn hw hput heff ((framed_rounds _).own _)
    (fun s1 _ => hval _ _ (hdone s1)) fun s1 _ => hrest s1 _ rfl (hdone s1)

theorem mtsDone_rtbase (h : MtsIssues w s c 0x21 v) (hfree : rtValid (getRt s (curRt s)) = false) :
    ∃ t, exec (.mts w) s = .next t ∧ MtsDone c s t 0x21 [.rounds] [] (v &&& 0x00FFFFFFFFFF003F) :=
  mtsDone_of_free h rfl rfl hfree rfl (fun _ _ ht => congrArg RtEntry.base ht) fun _ _ hsel ht m hm => by
    fin_cases hm <;> simp only [readSpecial, hsel, ht]

theorem mtsDone_rtcva (h : MtsIssues w s c 0x22 v) (hfree : rtValid (getRt s (curRt s)) = false) :
    ∃ t, exec (.mts w) s = .next t ∧ MtsDone c s t 0x22 [.rounds] [] (v &&& 0x00FFFFFFFFFFFFF8) :=
  mtsDone_of_free h rfl rfl hfree rfl (fun _ _ ht => congrArg RtEntry.cva ht) fun _ _ hsel ht m hm => by
    fin_cases hm <;> simp only [readSpecial, hsel, ht]

theorem mtsDone_rtcnt (h : MtsIssues w s c 0x24 v) (hfree : rtValid (getRt s (curRt s)) = false) :
    ∃ t, exec (.mts w) s = .next t ∧ MtsDone c s t 0x24 [.rounds] [] (v &&& 0xFFFFFFFFFFFF) :=
  mtsDone_of_free h rfl rfl hfree rfl (fun _ _ ht => congrArg RtEntry.cnt ht) fun _ _ hsel ht m hm => by
    fin_cases hm <;> simp only [readSpecial, hsel, ht]

/-- RTCTL of a free entry without V. -/
theorem mtsDone_rtctl (h : MtsIssues w s c 0x23 v) (hv : fld v 0 0 ≠ 1) (hfree : rtValid (getRt s (curRt s)) = false) :
    ∃ t, exec (.mts w) s = .next t ∧ MtsDone c s t 0x23 [.rounds] [] (v &&& 0xFFFF0FFF000007F6) :=
  mtsDone_of_free (f := fun e => { e with ctl := rtFields v }) h rfl rfl hfree (by simp only [putSpecial, if_neg hv, hfree]; rfl)
    (fun _ _ ht => congrArg RtEntry.ctl ht) fun _ _ hsel ht m hm => by fin_cases hm <;> simp only [readSpecial, hsel, ht]

/-- RTSEL: the result of the last commit stays above the selection. -/
theorem mtsDone_rtsel (h : MtsIssues w s c 0x20 v) : ∃ t, exec (.mts w) s = .next t ∧
    MtsDone c s t 0x20 [.rounds] [] (BitVec.ofNat 64 (fld (readSpecial s c.reader 0x20) 31 16 * 65536 + fld v 9 0)) := by
  have hrounds : (carded c s).rounds = s.rounds := same_carded c s .rounds (by decide)
  refine mtsDone_of_ok h rfl rfl rfl ((framed_rounds _).own _) (fun s1 hs1 => ?_) fun s1 hs1 m hm => by fin_cases hm
  have hv := fld_lt v 9 0
  rw [show readSpecial s c.reader 0x20 = zext s1.rounds.sel from congrArg (fun x : Rounds => zext x.sel) (hs1 ▸ hrounds.symm)]
  exact zext_select s1.rounds.sel (fld v 9 0) (by omega)

/-! ## The queue registers (R345) -/

theorem mtsDone_qsel (h : MtsIssues w s c 0x30 v) :
    ∃ t, exec (.mts w) s = .next t ∧ MtsDone c s t 0x30 [.mail] [] (v &&& 0x3F) :=
  mtsDone_of_ok h rfl rfl rfl ((framed_mail _).own _) (fun _ _ => zext_bits_5_0 v) fun _ _ m hm => by fin_cases hm

/-- A register of the selected queue. -/
theorem mtsDone_of_queue {n : Nat} {eff : Eff} {f : Queue → Queue} {x : DWord} (h : MtsIssues w s c n v) (hn : sregKnown n = true)
    (hw : sregReadOnly n = false) (hput : putSpecial s c.reader n v = .ok eff)
    (heff : eff (carded c s) = setQueue (curQ (carded c s)) (f (getQueue (carded c s) (curQ (carded c s)))) (carded c s))
    (hval : ∀ t q, getQueue t (curQ t) = f q → readSpecial t c.reader n = x)
    (hrest : ∀ s1 t, t.mail.sel = s1.mail.sel → getQueue t (curQ t) = f (getQueue s1 (curQ s1)) → ∀ m ∈ siblings n [.mail] [],
      readSpecial t c.reader m = readSpecial s1 c.reader m) :
    ∃ t, exec (.mts w) s = .next t ∧ MtsDone c s t n [.mail] [] x := by
  have hdone : ∀ s1, getQueue (applyAll (setQueue (curQ s1) (f (getQueue s1 (curQ s1))) s1) s1) (curQ s1) = f (getQueue s1 (curQ s1)) :=
    fun s1 => (getQueue_setQueue _ _ _ s1).trans (if_pos rfl)
  exact mtsDone_of_same (eff := fun s1 => setQueue (curQ s1) (f (getQueue s1 (curQ s1))) s1) h hn hw hput heff ((framed_mail _).own _)
    (fun s1 _ => hval _ _ (hdone s1)) fun s1 _ => hrest s1 _ rfl (hdone s1)

/-- A context register of the selected queue, while it is disabled. -/
theorem mtsDone_of_off {n : Nat} {f : Queue → Queue} {x : DWord} (h : MtsIssues w s c n v) (hn : sregKnown n = true)
    (hw : sregReadOnly n = false) (hoff : ¬fld (getQueue s (curQ s)).ctl 0 0 = 1) (hput : putSpecial s c.reader n v = .ok (writeOff f))
    (hval : ∀ t q, getQueue t (curQ t) = f q → readSpecial t c.reader n = x)
    (hrest : ∀ s1 t, t.mail.sel = s1.mail.sel → getQueue t (curQ t) = f (getQueue s1 (curQ s1)) → ∀ m ∈ siblings n [.mail] [],
      readSpecial t c.reader m = readSpecial s1 c.reader m) :
    ∃ t, exec (.mts w) s = .next t ∧ MtsDone c s t n [.mail] [] x := by
  have hmail : (carded c s).mail = s.mail := same_carded c s .mail (by decide)
  have hsame : getQueue (carded c s) (curQ (carded c s)) = getQueue s (curQ s) := by simp only [getQueue, curQ, hmail]
  exact mtsDone_of_queue h hn hw hput (by simp [writeOff, hsame, hoff]) hval hrest

theorem mtsDone_qtctx (h : MtsIssues w s c 0x32 v) (hoff : ¬fld (getQueue s (curQ s)).ctl 0 0 = 1) :
    ∃ t, exec (.mts w) s = .next t ∧ MtsDone c s t 0x32 [.mail] [] (v &&& 0xFFFFFFFFFFFF) :=
  mtsDone_of_off h rfl rfl hoff rfl (fun _ _ ht => congrArg Queue.tctx ht)
    fun _ _ hsel ht m hm => by fin_cases hm <;> simp only [readSpecial, hsel, ht]

theorem mtsDone_qhead (h : MtsIssues w s c 0x33 v) (hoff : ¬fld (getQueue s (curQ s)).ctl 0 0 = 1) :
    ∃ t, exec (.mts w) s = .next t ∧ MtsDone c s t 0x33 [.mail] [] v :=
  mtsDone_of_off h rfl rfl hoff rfl (fun _ _ ht => congrArg Queue.head ht)
    fun _ _ hsel ht m hm => by fin_cases hm <;> simp only [readSpecial, hsel, ht]

theorem mtsDone_qwork (h : MtsIssues w s c 0x35 v) (hoff : ¬fld (getQueue s (curQ s)).ctl 0 0 = 1) :
    ∃ t, exec (.mts w) s = .next t ∧ MtsDone c s t 0x35 [.mail] [] (v &&& 0x00FFFFFFFFFFFFFF) :=
  mtsDone_of_off h rfl rfl hoff rfl (fun _ _ ht => congrArg Queue.work ht)
    fun _ _ hsel ht m hm => by fin_cases hm <;> simp only [readSpecial, hsel, ht]

theorem mtsDone_qtail (h : MtsIssues w s c 0x34 v) : ∃ t, exec (.mts w) s = .next t ∧ MtsDone c s t 0x34 [.mail] [] v :=
  mtsDone_of_queue (f := fun x => { x with tail := v }) h rfl rfl rfl rfl (fun _ _ ht => congrArg Queue.tail ht)
    fun _ _ hsel ht m hm => by fin_cases hm <;> simp only [readSpecial, hsel, ht]

/-! ## The session registers (R391 to R393) -/

/-- TSSEL: the result of the last open stays above the selection. -/
theorem mtsDone_tssel (h : MtsIssues w s c 0x38 v) : ∃ t, exec (.mts w) s = .next t ∧
    MtsDone c s t 0x38 [.trace] [] (BitVec.ofNat 64 (fld (readSpecial s c.reader 0x38) 31 16 * 65536 + fld v 3 0)) := by
  obtain ⟨hsel, -⟩ := sameSessions_carded c s
  refine mtsDone_of_ok h rfl rfl rfl ((framed_trace _).own _) (fun s1 hs1 => ?_) fun s1 hs1 m hm => by fin_cases hm
  have hv := fld_lt v 3 0
  rw [show readSpecial s c.reader 0x38 = zext s1.trace.sel from congrArg zext (hs1 ▸ hsel.symm)]
  exact zext_select s1.trace.sel (fld v 3 0) (by omega)

/-- The session that TSSEL names has, after the word's card, the registers that it had. -/
theorem session_carded {s1 : State} (hs1 : carded c s = s1) : tsIdx s1 = tsIdx s ∧
    (getSession s1 (tsIdx s1)).ctl = (getSession s (tsIdx s)).ctl ∧ (getSession s1 (tsIdx s1)).ring = (getSession s (tsIdx s)).ring ∧
    (getSession s1 (tsIdx s1)).ptr = (getSession s (tsIdx s)).ptr := by
  obtain ⟨hsel, hregs⟩ := sameSessions_carded c s
  rw [hs1] at hsel hregs
  have hidx : tsIdx s1 = tsIdx s := by rw [tsIdx, hsel, tsIdx]
  exact ⟨hidx, hidx ▸ hregs (tsIdx s)⟩

/-- A register of the selected session. -/
theorem mtsDone_of_session {n : Nat} {eff : Eff} {f : Session → Session} {x : DWord} (h : MtsIssues w s c n v) (hn : sregKnown n = true)
    (hw : sregReadOnly n = false) (hput : putSpecial s c.reader n v = .ok eff)
    (heff : eff (carded c s) = setSession (tsIdx (carded c s)) (f (getSession (carded c s) (tsIdx (carded c s)))) (carded c s))
    (hval : ∀ s1 t, carded c s = s1 → getSession t (tsIdx t) = f (getSession s1 (tsIdx s1)) → readSpecial t c.reader n = x)
    (hrest : ∀ s1 t, t.trace.sel = s1.trace.sel → getSession t (tsIdx t) = f (getSession s1 (tsIdx s1)) →
      ∀ m ∈ siblings n [.trace] [], readSpecial t c.reader m = readSpecial s1 c.reader m) :
    ∃ t, exec (.mts w) s = .next t ∧ MtsDone c s t n [.trace] [] x := by
  have hdone : ∀ s1, getSession (applyAll (setSession (tsIdx s1) (f (getSession s1 (tsIdx s1))) s1) s1) (tsIdx s1) =
      f (getSession s1 (tsIdx s1)) := fun s1 => (getSession_setSession _ _ _ s1).trans (if_pos rfl)
  exact mtsDone_of_same (eff := fun s1 => setSession (tsIdx s1) (f (getSession s1 (tsIdx s1))) s1) h hn hw hput heff ((framed_trace _).own _)
    (fun s1 hs1 => hval s1 _ hs1 (hdone s1)) fun s1 _ => hrest s1 _ rfl (hdone s1)

theorem mtsDone_tsptr (h : MtsIssues w s c 0x3B v) : ∃ t, exec (.mts w) s = .next t ∧
    MtsDone c s t 0x3B [.trace] [] (setFld (readSpecial s c.reader 0x3B) 63 32 (fld v 63 32)) := by
  refine mtsDone_of_session (f := fun x => { x with ptr := setFld x.ptr 63 32 (fld v 63 32) }) h rfl rfl rfl rfl
    (fun s1 t hs1 ht => ?_) fun _ _ hsel ht m hm => ?_
  · obtain ⟨-, -, -, hptr⟩ := session_carded hs1
    simp only [readSpecial, ht, hptr]
  · fin_cases hm <;> simp only [readSpecial, hsel, ht]

theorem sessOpen_carded (c : Ctx) (s : State) :
    sessOpen (getSession (carded c s) (tsIdx (carded c s))) = sessOpen (getSession s (tsIdx s)) := by
  obtain ⟨-, hctl, -⟩ := session_carded (c := c) (s := s) rfl
  rw [sessOpen, hctl, sessOpen]

/-- TSCTL of a closed session without EN. -/
theorem mtsDone_tsctl (h : MtsIssues w s c 0x39 v) (hv : ¬fld v 0 0 = 1) (hopen : ¬sessOpen (getSession s (tsIdx s)) = true) :
    ∃ t, exec (.mts w) s = .next t ∧ MtsDone c s t 0x39 [.trace] [] (v &&& 0xFFFFFFFFFF000003) := by
  refine mtsDone_of_session (f := fun x => { x with ctl := v &&& 0xFFFFFFFFFF000003 }) h rfl rfl rfl ?_
    (fun s1 t hs1 ht => congrArg Session.ctl ht) fun _ _ hsel ht m hm => ?_
  · simp only [writeTsctl, hv, if_false, sessOpen_carded, hopen, Bool.false_eq_true]
  · fin_cases hm <;> simp only [readSpecial, hsel, ht]

/-- TSRING of an open session stays; another takes the base and the size, or 8 for one out of range (R392). -/
theorem mtsDone_tsring (h : MtsIssues w s c 0x3A v) : ∃ t, exec (.mts w) s = .next t ∧
    MtsDone c s t 0x3A [.trace] [] (if sessOpen (getSession s (tsIdx s)) then readSpecial s c.reader 0x3A else
      BitVec.ofNat 64 (fld v 47 12 * 4096 + if 8 ≤ fld v 4 0 ∧ fld v 4 0 ≤ 26 then fld v 4 0 else 8)) := by
  by_cases hopen : sessOpen (getSession s (tsIdx s)) = true
  · rw [if_pos hopen]
    refine mtsDone_of_same (eff := Eff.nop) h rfl rfl rfl ?_ ((framed_nop _).own _) (fun s1 hs1 => ?_) fun _ _ _ _ => rfl
    · simp only [writeTsring, sessOpen_carded, hopen, if_true]
      rfl
    · obtain ⟨-, -, hring, -⟩ := session_carded hs1
      exact hring
  · rw [if_neg hopen]
    refine mtsDone_of_session (f := fun x => { x with
        ring := BitVec.ofNat 64 (fld v 47 12 * 4096 + if 8 ≤ fld v 4 0 ∧ fld v 4 0 ≤ 26 then fld v 4 0 else 8) }) h rfl rfl rfl ?_
      (fun s1 t hs1 ht => congrArg Session.ring ht) fun _ _ hsel ht m hm => ?_
    · simp only [writeTsring, sessOpen_carded, hopen, Bool.false_eq_true, if_false, Bool.and_eq_true, decide_eq_true_eq]
    · fin_cases hm <;> simp only [readSpecial, hsel, ht]

/-! ## The table -/

/-- Each register that MTS writes as a plain field reads as the table gives. -/
theorem mtsDone_mtsResult {n : Nat} {xs : List Comp} {own : List Own} {x : DWord} (h : MtsIssues w s c n v)
    (hr : mtsResult c s n v = some (xs, own, x)) : ∃ t, exec (.mts w) s = .next t ∧ MtsDone c s t n xs own x := by
  unfold mtsResult at hr
  dsimp only at hr
  split at hr
  · cases hr; exact mtsDone_corestat h
  · cases hr; exact mtsDone_utvec h
  · cases hr; exact mtsDone_stvec h
  · split at hr
    · next g hg =>
      split at hr
      · cases hr
      · next hframes => cases hr; exact mtsDone_trapcause h hg (by simpa using hframes)
    · cases hr
  · cases hr; exact mtsDone_agelim h
  · cases hr; exact mtsDone_trapscr h
  · cases hr; exact mtsDone_wstat h
  · cases hr; exact mtsDone_atomcfg h
  · cases hr; exact mtsDone_tctx h
  · cases hr; exact mtsDone_fqcfg h
  · cases hr; exact mtsDone_fqptr h
  · cases hr; exact mtsDone_rtsel h
  · obtain ⟨hfree, hr⟩ := Option.ite_none_left_eq_some.1 hr
    cases hr; exact mtsDone_rtbase h (by simpa using hfree)
  · obtain ⟨hfree, hr⟩ := Option.ite_none_left_eq_some.1 hr
    cases hr; exact mtsDone_rtcva h (by simpa using hfree)
  · obtain ⟨hfree, hr⟩ := Option.ite_none_left_eq_some.1 hr
    obtain ⟨hv, hfree⟩ := not_or.1 hfree
    cases hr; exact mtsDone_rtctl h hv (by simpa using hfree)
  · obtain ⟨hfree, hr⟩ := Option.ite_none_left_eq_some.1 hr
    cases hr; exact mtsDone_rtcnt h (by simpa using hfree)
  · cases hr; exact mtsDone_mcstat h
  · cases hr; exact mtsDone_lnkstat h
  · cases hr; exact mtsDone_hevt h
  · cases hr; exact mtsDone_qsel h
  · obtain ⟨hoff, hr⟩ := Option.ite_none_left_eq_some.1 hr
    cases hr; exact mtsDone_qtctx h hoff
  · obtain ⟨hoff, hr⟩ := Option.ite_none_left_eq_some.1 hr
    cases hr; exact mtsDone_qhead h hoff
  · cases hr; exact mtsDone_qtail h
  · obtain ⟨hoff, hr⟩ := Option.ite_none_left_eq_some.1 hr
    cases hr; exact mtsDone_qwork h hoff
  · cases hr; exact mtsDone_tssel h
  · obtain ⟨hclosed, hr⟩ := Option.ite_none_left_eq_some.1 hr
    obtain ⟨hv, hclosed⟩ := not_or.1 hclosed
    cases hr; exact mtsDone_tsctl h hv hclosed
  · cases hr; exact mtsDone_tsring h
  · cases hr; exact mtsDone_tsptr h
  · cases hr

end

end Sys2Proof.Machine
end

section
/-! PROOFS. What a group's word leaves that parks (O50: R101, R404, R411). -/

namespace Sys2Proof.Machine

/-! ## The group of a word that waits -/

/-- A word's group has changed in its sampling alone, and nothing else has. -/
structure OnlySampled (c : Ctx) (g : Group) (s t : State) : Prop where
  same    : Same [] s t
  group   : ∃ x, mfind t.groups c.key = some { g with samp := x }
  others  : ∀ q, q ≠ c.key → mfind t.groups q = mfind s.groups q
  streams : t.streams = s.streams

theorem Framed.onlySampled {f : Eff} (hf : Framed [] f) {c : Ctx} {s : State} {g : Group} (hg : mfind s.groups c.key = some g) :
    OnlySampled c g s (applyAll (f s) s) :=
  ⟨hf.same s, ⟨g.samp, by rw [hf.groups]; exact hg⟩, fun q _ => by rw [hf.groups], hf.streams s⟩

theorem OnlySampled.trans {c : Ctx} {g : Group} {s t u : State} (h : OnlySampled c g s t)
    (k : ∀ x, mfind t.groups c.key = some { g with samp := x } → OnlySampled c { g with samp := x } t u) : OnlySampled c g s u := by
  obtain ⟨x, hx⟩ := h.group
  obtain ⟨hsame, ⟨y, hy⟩, hothers, hstreams⟩ := k x hx
  exact ⟨h.same.trans hsame, ⟨y, hy⟩, fun q hq => (hothers q hq).trans (h.others q hq), hstreams.trans h.streams⟩

theorem onlySampled_seq {c : Ctx} {f f' : Eff} (hf : ∀ s g, mfind s.groups c.key = some g → OnlySampled c g s (applyAll (f s) s))
    (hf' : ∀ s g, mfind s.groups c.key = some g → OnlySampled c g s (applyAll (f' s) s)) {s : State} {g : Group}
    (hg : mfind s.groups c.key = some g) : OnlySampled c g s (applyAll (Eff.seq f f' s) s) := by
  rw [applyAll_seq]
  exact (hf s g hg).trans fun x hx => hf' _ _ hx

theorem onlySampled_when {c : Ctx} {f : Eff} (b : Bool) (hf : ∀ s g, mfind s.groups c.key = some g → OnlySampled c g s (applyAll (f s) s))
    {s : State} {g : Group} (hg : mfind s.groups c.key = some g) : OnlySampled c g s (applyAll (Eff.when b f s) s) := by
  cases b with
  | false => exact (framed_nop []).onlySampled hg
  | true => exact hf s g hg

theorem framed_slotServed (c : Ctx) : Framed [] (slotServed c) := framed_of fun s => by
  unfold slotServed
  dsimp only
  split
  · exact ⟨Eff.nop, rfl, framed_nop _⟩
  · exact ⟨_, rfl, framed_part (fun _ => _) (fun _ => _)⟩

/-- A waiting form that counts as issued. -/
theorem onlySampled_waits (c : Ctx) (hs : c.strm = false) (waits : Bool) {s : State} {g : Group} (hg : mfind s.groups c.key = some g) :
    OnlySampled c g s (applyAll (Eff.when waits (Eff.seq (slotServed c)
      (Eff.when (!c.counted) (Eff.seq (count c.frank 2 1) (sampleStep c { act := c.lanes })))) s) s) := by
  refine onlySampled_when _ (fun s g => onlySampled_seq (fun s g => (framed_slotServed c).onlySampled)
    fun s g => onlySampled_when _ fun s g => onlySampled_seq (fun s g => (framed_count _ _ _).onlySampled) fun s g hg => ?_) hg
  obtain ⟨x, h1, h2, h3, h4⟩ := sampleStep_group c { act := c.lanes } s g hs hg
  exact ⟨h1, ⟨x, h2⟩, h3, h4⟩

/-! ## A word that parks (R101) -/

/-- A group's word parks after an operation that leaves the agents as they are; the park changes nothing but the group. -/
theorem parks_parkAt {c : Ctx} {s s1 t : State} {touched : List Comp} {k : WaitKind} {i : Instr} (h : ctxHere i s = some c)
    (hs : c.strm = false) (hsame : Same (cardParts c s ++ touched) s s1) (hgroups : s1.groups = s.groups)
    (hstreams : s1.streams = s.streams) (ht : t = applyAll (parkAt c k s1) s1) :
    Parks c s t touched k ∧ Same [] s1 t := by
  obtain ⟨iss, -, hctx⟩ := ctxHere_iss h
  obtain ⟨g, hg, hu, -⟩ := ctxOf_group hctx hs
  have hg1 : mfind s1.groups c.key = some g := by rw [hgroups]; exact hg
  obtain ⟨g2, waits, heq, hwait, hregs, hpc, hrs, hlive, htr, hsq⟩ : ∃ g2 waits, parkAt c k s1 = Eff.seq (fun _ => [.group c.key g2])
      (Eff.when waits (Eff.seq (slotServed c)
        (Eff.when (!c.counted) (Eff.seq (count c.frank 2 1) (sampleStep c { act := c.lanes }))))) s1 ∧
      g2.u.wait = some { kind := k, pc := c.pc, next := c.next, lanes := c.lanes, mark := (headOf c.i).marker } ∧
      g2.u.regs = g.u.regs ∧ g2.sched.pc = g.sched.pc ∧ g2.sched.rs = g.sched.rs ∧ g2.live = g.live ∧ g2.tr = g.tr ∧ g2.sq = g.sq := by
    unfold parkAt
    simp only [hs, Bool.false_eq_true, if_false, Eff.seq, onGroup_eq hs hg1 hu]
    exact ⟨_, _, rfl, rfl, rfl, rfl, rfl, rfl, rfl, rfl⟩
  rw [heq, applyAll_seq] at ht
  obtain ⟨hsame2, ⟨x, hx⟩, hothers, hkeep⟩ := onlySampled_waits c hs waits (s := applyAll [.group c.key g2] s1) (mfind_mput_same _ _ _)
  rw [← ht] at hsame2 hx hothers hkeep
  have hput : Same [] s1 (applyAll [.group c.key g2] s1) := fun y _ => by cases y <;> rfl
  refine ⟨⟨hsame.trans ((hput.trans hsame2).mono (List.nil_subset _)), ⟨fun q hq => ?_, fun q _ => ?_⟩, fun _ => ?_, fun hc => ?_⟩, hput.trans hsame2⟩
  · have hq := hq.resolve_left (by simp [hs])
    exact (hothers q hq).trans ((mfind_mput_other _ _ _ _ hq).trans (by rw [hgroups]))
  · rw [hkeep]
    exact congrArg (mfind · q) hstreams
  · exact ⟨g, _, hg, hx, hwait, hregs, hpc, hrs, hlive, htr, hsq⟩
  · simp [hs] at hc

end Sys2Proof.Machine
end

section
/-! PROOFS. MTS of the sequencer's registers, of RTCTL, QCTL and TSCTL, and the settlement of O50 (R203, R207, R216, R314, R315, R345,
R364, R393, R470). -/

namespace Sys2Proof.Machine

section
variable {w : UniW} {s : State} {c : Ctx} {n : Nat} {v : DWord}

/-! ## Writes that are operations -/

/-- MTS of a register whose write is an operation on the package: how it ends, and the state that it leaves but for its agent. -/
theorem mts_completes (h : MtsIssues w s c n v) (hn : sregKnown n = true) (hw : sregReadOnly n = false) {eff' eff : Eff} {xs : List Comp}
    (hput : putSpecial s c.reader n v = .ok eff') (heff : eff' (carded c s) = eff (carded c s)) (he : Framed xs eff) :
    ∃ t, exec (.mts w) s = .next t ∧ Completes c s t xs [] RegsKept none ∧ Same [] (applyAll (eff (carded c s)) (carded c s)) t := by
  obtain ⟨body, hx, hb⟩ := mts_ok h hn hw hput heff
  obtain ⟨t, ht, hc, hafter⟩ := completes_own h.issues hb (he.own []) (.inl rfl)
  exact ⟨t, hx.trans ht, hc, (hafter _ rfl).1⟩

/-- MTS whose write waits parks. -/
theorem mts_parks (h : MtsIssues w s c n v) (hn : sregKnown n = true) (hw : sregReadOnly n = false) {k : WaitKind} {eff : Eff}
    (hput : putSpecial s c.reader n v = .park k eff) :
    ∃ body, exec (.mts w) s = issue (.mts w) body s ∧ body c s = .park k eff := by
  refine ⟨_, rfl, ?_⟩
  simp only [withSreg, h.reg, hn, if_true, ← h.val, writeAs_of_may h hn hw, hput]

/-! ## ROWPROG, SSTAT and SBOUND (R470) -/

/-- What MTS of a register of the sequencer makes of the matrix resources. -/
def sequencerSreg (n : Nat) (v : DWord) (m : Matrix) : Matrix :=
  if n = 0x14 then { m with rowprog := v.setWidth 32 &&& 0x800F00FF }
  else if n = 0x15 then { m with sstat := v &&& 0xFFFFFFFFFFEFFF00 }
  else { m with sbound := BitVec.ofNat 32 (min 65536 (bits (v.setWidth 32).toNat 16 0)) }

theorem putSpecial_sequencer {r : Reader} {b : Block} {m : Matrix} (hr : r.group.isNone = false) (hb : mfind s.blocks r.blk = some b)
    (hm : b.mat = some m) (hn : n ∈ [0x14, 0x15, 0x16]) : putSpecial s r n v = .ok (onMatrix r.blk (sequencerSreg n v)) := by
  have hput : ∀ f, putMatrix s r f = .ok (onMatrix r.blk f) := fun f => by simp [putMatrix, hr, hb, hm]
  fin_cases hn <;> exact hput _

/-- The same in terms of the operand (R203, R207). -/
theorem sequencerSreg_operand (n a : Nat) (m : Matrix) : sequencerSreg n (BitVec.ofNat 64 a) m =
    if n = 0x14 then { m with rowprog := BitVec.ofNat 32 a &&& 0x800F00FF }
    else if n = 0x15 then { m with sstat := BitVec.ofNat 64 a &&& 0xFFFFFFFFFFEFFF00 }
    else { m with sbound := BitVec.ofNat 32 (min 65536 (a % 2 ^ 17)) } := by
  have hlow : (BitVec.ofNat 64 a).setWidth 32 = BitVec.ofNat 32 a := BitVec.eq_of_toNat_eq (by simp)
  have hbits : bits (BitVec.ofNat 32 a).toNat 16 0 = a % 2 ^ 17 := by simp only [bits, BitVec.toNat_ofNat]; omega
  simp only [sequencerSreg, hlow, hbits]

theorem mts_sequencer (h : MtsIssues w s c n v) (hn : n ∈ [0x14, 0x15, 0x16]) {b : Block} {m : Matrix}
    (hb : mfind s.blocks c.blkId = some b) (hm : b.mat = some m) :
    ∃ t, exec (.mts w) s = .next t ∧ Completes c s t [.blocks] [] RegsKept none ∧
      MatrixAfter c s t (fun m m' => m' = sequencerSreg n v m) := by
  have hreader : c.reader.group.isNone = false := by simp [Ctx.reader, h.group]
  obtain ⟨body, hx, hbody⟩ := mts_ok h (by fin_cases hn <;> rfl) (by fin_cases hn <;> rfl)
    (putSpecial_sequencer hreader (show mfind s.blocks c.reader.blk = some b from hb) hm hn) rfl
  exact completes_matrix h.issues hx hbody (fun _ => rfl) fun m _ => rfl

/-! ## RTCTL with V = 1 (R314) -/

theorem setFld_of_fld_eq {v : DWord} {hi lo x : Nat} (hhi : hi < 64) (hlo : lo ≤ hi) (h : fld v hi lo = x) : setFld v hi lo x = v := by
  refine BitVec.eq_of_getLsbD_eq fun i _ => ?_
  rw [getLsbD_setFld v hi lo x i hhi hlo, ← h]
  split
  · next hi' =>
    rw [testBit_fld]
    simp [show i - lo < hi + 1 - lo by omega, show lo + (i - lo) = i by omega]
  · rfl

theorem inRegionScope_congr {s t : State} (h : t.rounds = s.rounds) (r k : Nat) : inRegionScope t r k = inRegionScope s r k := by
  simp only [inRegionScope, getRt, h]

/-- A commit of a state, as one of another that agrees with it but for cards. -/
theorem commitDone_congr {s s1 t t1 : State} (hs : Same [.trace, .clusters] s s1) (ht : Same [] t1 t) (h : CommitDone v s1 t1) :
    CommitDone v s t := by
  have hrounds : s1.rounds = s.rounds := hs .rounds (by decide)
  have hidn : s1.idn = s.idn := hs .idn (by decide)
  have hmem : s1.mem = s.mem := hs .mem (by decide)
  have hcores : s1.cores = s.cores := hs .cores (by decide)
  have hcoh : s1.coh = s.coh := hs .coh (by decide)
  have hrounds' : t.rounds = t1.rounds := ht .rounds (by decide)
  have hmem' : t.mem = t1.mem := ht .mem (by decide)
  have hcores' : t.cores = t1.cores := ht .cores (by decide)
  have hcoh' : t.coh = t1.coh := ht .coh (by decide)
  have hcode : ∀ n e x, commitCode s1 n e x = commitCode s n e x := fun n e x => by simp only [commitCode, hrounds, hidn]
  simp only [CommitDone, getRt, curRt, getCore, inRegionScope_congr hrounds', hrounds, hmem, hcores, hcoh, hrounds', hmem', hcores',
    hcoh', hcode] at h ⊢
  exact h

theorem mts_commit (h : MtsIssues w s c 0x23 v) (hv : fld v 0 0 = 1) :
    ∃ t, exec (.mts w) s = .next t ∧ Completes c s t [.rounds, .cores, .coh, .mem] [] RegsKept none ∧ CommitDone v s t := by
  have hput : putSpecial s c.reader 0x23 v = .ok (commitRegion v) := by simp only [putSpecial, hv, if_true]
  obtain ⟨t, ht, hc, hsame⟩ := mts_completes h rfl rfl hput rfl (framed_commitRegion v)
  refine ⟨t, ht, hc, commitDone_congr (same_carded c s) hsame ?_⟩
  have hdone := commitDone_commitRegion v (carded c s)
  rwa [setFld_of_fld_eq (by decide) (by decide) hv] at hdone

/-! ## RTCTL with V = 0 (R315) -/

theorem mts_regionBusy (h : MtsIssues w s c 0x23 v) (hv : fld v 0 0 = 0) (hvalid : rtValid (getRt s (curRt s)) = true)
    (hbusy : regionBusy s (curRt s) = true) :
    ∃ t, exec (.mts w) s = .next t ∧ Parks c s t [] (.retry (.region (curRt s))) := by
  have hput : putSpecial s c.reader 0x23 v = .park (.retry (.region (curRt s))) Eff.nop := by simp [putSpecial, hv, hvalid, hbusy]
  obtain ⟨body, hx, hb⟩ := mts_parks h rfl rfl hput
  refine ⟨_, hx.trans (issue_retry h.issues hb), ?_⟩
  exact (parks_parkAt h.issues.1 h.group (Same.refl _ s) rfl rfl (applyAll_seq _ _ _)).1

theorem regionFreed_congr {s s1 t t1 : State} (hrounds : s1.rounds = s.rounds) (hmail : s1.mail = s.mail) (ht : Same [] t1 t)
    (h : RegionFreed s1 t1) : RegionFreed s t := by
  have hrounds' : t.rounds = t1.rounds := ht .rounds (by decide)
  have hmail' : t.mail = t1.mail := ht .mail (by decide)
  have hcores' : t.cores = t1.cores := ht .cores (by decide)
  simp only [RegionFreed, getRt, curRt, getCore, hrounds, hmail, hrounds', hmail', hcores'] at h ⊢
  exact h

/-- The group of a completed word that has lost floors besides. -/
theorem groupAfter_finish {d : Done} {g g1 : Group} {r : Nat} (hdrop : FloorsDropped r g g1) (hregs : ∀ x, d.regs x = x)
    (hgo : d.go = .seq) (o : Word) (x : Samp) : GroupAfter c [.floors, .ovf] RegsKept (fun _ => c.next) g
      { g1 with u := finishU c d g1.u, sched := finishSched c d o g1.sched, samp := x } := by
  obtain ⟨hkeep, -⟩ := hdrop
  rw [hkeep]
  refine ⟨hregs _, rfl, fun l hl => ?_, fun y hy => ?_, rfl, rfl, rfl, rfl, rfl⟩
  · exact (finishSched_pc c d o g.sched l hl).trans (by rw [hgo])
  · cases y with
    | rs =>
      intro l
      exact (finishSched_rs c d o g.sched l).trans (by rw [hgo]; exact ite_self _)
    | floors | ovf => exact absurd (by simp) hy
    | live => exact ⟨rfl, rfl⟩
    | tr | sq | armed | mons | atomcfg | wstat | pend | arrived => rfl
    | _ => trivial

/-- A registered region that nothing is in flight for is released, in every group. -/
theorem mts_release (h : MtsIssues w s c 0x23 v) (hv : fld v 0 0 = 0) (hvalid : rtValid (getRt s (curRt s)) = true)
    (hfree : regionBusy s (curRt s) = false) (hsorted : sortedKeys s.groups = true) :
    ∃ t, exec (.mts w) s = .next t ∧ Same (cardParts c s ++ [.rounds, .cores, .coh, .mail]) s t ∧ t.streams = s.streams ∧
      RegionFreed s t ∧
      (∀ q g, q ≠ c.key → mfind s.groups q = some g → ∃ h, mfind t.groups q = some h ∧ FloorsDropped (curRt s) g h) ∧
      ∃ g h, mfind s.groups c.key = some g ∧ mfind t.groups c.key = some h ∧
        GroupAfter c [.floors, .ovf] RegsKept (fun _ => c.next) g h ∧
        FloorsDropped (curRt s) g { g with floors := h.floors, ovf := h.ovf } := by
  have hput : putSpecial s c.reader 0x23 v = .ok (releaseRegion (curRt s)) := by simp [putSpecial, hv, hvalid, hfree]
  obtain ⟨body, hx, hb⟩ := mts_ok h rfl rfl hput rfl
  obtain ⟨iss, -, hctx⟩ := ctxHere_iss h.issues.1
  obtain ⟨g, hg, hu, -⟩ := ctxOf_group hctx h.group
  have hissue := hx.trans (issue_done h.issues hb)
  have hcard := same_splitCard c s
  have hgroups := groups_splitCard c (usplit c s) s
  have hstreams := streams_splitCard c (usplit c s) s
  have hmore := same_carded c s
  unfold carded at hmore
  generalize applyAll (splitCard c (usplit c s) s) s = s1 at *
  have hrounds : s1.rounds = s.rounds := hmore .rounds (by decide)
  have hmail : s1.mail = s.mail := hmore .mail (by decide)
  have hcur : curRt s1 = curRt s := by rw [curRt, hrounds, curRt]
  obtain ⟨hworld, hstr, hfreed, hfloors⟩ := releaseRegion_done s1 (by rw [hgroups]; exact hsorted)
  rw [hcur] at hworld hstr hfreed hfloors
  obtain ⟨g1, hg1, hdrop⟩ := hfloors c.key g (by rw [hgroups]; exact hg)
  obtain ⟨x, hsame, hown, hothers, hkeep⟩ := finish_group c { act := c.lanes, eff := releaseRegion (curRt s) } s1 g1 h.group hg1
    ((congrArg Group.uid hdrop.1).trans hu)
  refine ⟨_, hissue, ?_, hkeep.trans (hstr.trans hstreams), regionFreed_congr hrounds hmail hsame hfreed, fun q k hq hk => ?_, g, _, hg, hown,
    groupAfter_finish hdrop (fun _ => rfl) rfl _ _, ?_⟩
  · exact (hcard.mono (by simp +contextual)).trans ((hworld.mono (by simp +contextual)).trans (hsame.mono (by simp)))
  · rw [hothers q hq]
    exact hfloors q k (by rw [hgroups]; exact hk)
  · exact hdrop.1 ▸ hdrop

/-! ## QCTL (R345, R364) -/

/-- What the write of QCTL does to its queue. -/
def qctlEff (s : State) (v : DWord) : Eff := setQueue (curQ s) (qctlWrite (mayEnable s) (getQueue s (curQ s)) v)

theorem framed_qctlEff (s : State) (v : DWord) : Framed [.mail] (qctlEff s v) := framed_mail _

/-- A state with the mail unit that the write leaves in any state of the same mail unit. -/
theorem queueSet_of_qctlEff {s1 t : State} (hs : s1.mail = s.mail) (ht : Same [] (applyAll (qctlEff s v s1) s1) t) :
    QueueSet (curQ s) v s t := by
  have hmail : t.mail = (applyAll (qctlEff s v s) s).mail := by
    rw [show t.mail = _ from ht .mail (by decide)]
    simp only [qctlEff, setQueue, applyAll_cons, applyAll_nil, Upd.apply_mail_mail, hs]
  have hset : QueueSet (curQ s) v s (applyAll (qctlEff s v s) s) := queueSet_qctlWrite (curQ s) v s
  simp only [QueueSet, getQueue, hmail] at hset ⊢
  exact hset

theorem mts_qctl (h : MtsIssues w s c 0x31 v) : ∃ t, exec (.mts w) s = .next t ∧ QueueSet (curQ s) v s t ∧
    if fld v 6 6 = 1 ∧ queueBlocks s (curQ s) ≠ [] then Parks c s t [.mail] (.saves (curQ s))
    else Completes c s t [.mail] [] RegsKept none := by
  have hmail : (carded c s).mail = s.mail := same_carded c s .mail (by decide)
  have hframed := framed_qctlEff s v
  split
  · next hwait =>
    have hput : putSpecial s c.reader 0x31 v = .park (.saves (curQ s)) (qctlEff s v) := by simp [putSpecial, hwait, qctlEff]
    obtain ⟨body, hx, hb⟩ := mts_parks h rfl rfl hput
    have hpark := hx.trans (issue_park h.issues (fun y hy => by cases hy) hb)
    simp only [applyAll_all_cons, applyAll_all_nil] at hpark
    have hcard : Same (cardParts c s) s (carded c s) := same_splitCard c s
    obtain ⟨hparks, hkept⟩ := parks_parkAt (touched := [.mail]) (k := .saves (curQ s)) h.issues.1 h.group
      ((hcard.mono fun _ => List.mem_append_left _).trans ((hframed.same (carded c s)).mono fun _ => List.mem_append_right _))
      ((hframed.groups _).trans (groups_carded c s)) ((hframed.streams _).trans (streams_splitCard c (usplit c s) s)) rfl
    exact ⟨_, hpark, queueSet_of_qctlEff hmail hkept, hparks⟩
  · next hgo =>
    have hput : putSpecial s c.reader 0x31 v = .ok (qctlEff s v) := by simpa [putSpecial, qctlEff] using hgo
    obtain ⟨t, ht, hc, hafter⟩ := mts_completes h rfl rfl hput rfl hframed
    exact ⟨t, ht, queueSet_of_qctlEff hmail hafter, hc⟩

/-! ## TSCTL (R393) -/

theorem mts_open (h : MtsIssues w s c 0x39 v) (hv : fld v 0 0 = 1) :
    ∃ t, exec (.mts w) s = .next t ∧ Completes c s t [.trace, .clusters] [] RegsKept none ∧ SessionOpened v (carded c s) t := by
  have hopen : writeTsctl v = openSession v := funext fun s => by simp only [writeTsctl, hv, if_true]
  obtain ⟨t, ht, hc, hsame⟩ := mts_completes h rfl rfl (show putSpecial s c.reader 0x39 v = .ok (openSession v) by rw [← hopen]; rfl) rfl
    (framed_openSession v)
  refine ⟨t, ht, hc, ?_⟩
  have hdone := sessionOpened_openSession v (carded c s)
  rw [setFld_of_fld_eq (by decide) (by decide) hv] at hdone
  have htrace : t.trace = _ := hsame .trace (by decide)
  have hclus : t.clusters = _ := hsame .clusters (by decide)
  simp only [SessionOpened, getSession, htrace, hclus] at hdone ⊢
  exact hdone

theorem mts_close (h : MtsIssues w s c 0x39 v) (hv : fld v 0 0 = 0) (hopen : sessOpen (getSession s (tsIdx s)) = true) :
    ∃ t, exec (.mts w) s = .next t ∧ Completes c s t [.trace, .mem, .coh, .cores, .clusters] [] RegsKept none ∧
      SessionClosed (carded c s) t := by
  have heff : writeTsctl v (carded c s) = endSession (tsIdx (carded c s)) 2 (carded c s) := by
    simp only [writeTsctl, hv, sessOpen_carded, hopen, if_true, if_neg (show ¬(0 : Nat) = 1 by decide)]
  obtain ⟨t, ht, hc, hsame⟩ := mts_completes h rfl rfl rfl heff (framed_endSession _ 2)
  refine ⟨t, ht, hc, ?_⟩
  have hdone := sessionClosed_endSession 2 (carded c s)
  have htrace : t.trace = _ := hsame .trace (by decide)
  simp only [SessionClosed, getSession, htrace] at hdone ⊢
  exact hdone

end

/-- Settles O50: MTS of a plain register by the lemma of its part, MTS of a register of the sequencer by the change of the matrix
resources, and RTCTL, QCTL and TSCTL by the lemmas of the operations that they are. -/
theorem specialRegisterWrites : Obligations.SpecialRegisterWrites := by
  unfold Obligations.SpecialRegisterWrites
  refine ⟨fun w s c n v xs own x h hs hn hv hmay hx => mtsDone_mtsResult ⟨h, hs, hn, hv, hmay⟩ hx,
    fun w s c n b m h hs hsys hn hmem hb hm => ?_, fun w s c v h hs hsys hv => ?_⟩
  · obtain ⟨t, ht, hc, hafter⟩ := mts_sequencer ⟨h, hs, hn, rfl, fun _ => hsys⟩ hmem hb hm
    simp only [sequencerSreg_operand] at hafter
    exact ⟨t, ht, hc, hafter⟩
  · have hissues : ∀ {n}, c.ub w = n → MtsIssues w s c n v := fun hn => ⟨h, hs, hn, hv, fun _ => hsys⟩
    exact ⟨fun hn => mts_commit (hissues hn), fun hn => mts_release (hissues hn), fun hn => mts_regionBusy (hissues hn),
      fun hn => mts_qctl (hissues hn), fun hn => mts_open (hissues hn), fun hn => mts_close (hissues hn)⟩

end Sys2Proof.Machine
end

section
/-! PROOFS. An arrival by bar.sync at a barrier that is not what its cycle has made of it (O33). -/

namespace Sys2Proof.Machine

/-! ## A barrier apart from its cycle -/

/-- BAR.SYNC of barrier 1. -/
def syncWord : UniW := { s := false, x := false, d := .k 1, a := .imm 1, b := .fld (.k 0), e := 0 }

/-- Barrier 1: it has no member, but in the record of its cycle the cycle began with party 0 as its one member. -/
def driftedBar : Bar := { now := { cyc := State.reset.clk.cyc, base := { members := [0] } } }

/-- A package where group 0, party 0, issues a word in the block of that barrier. -/
def driftedState : State :=
  { State.reset with
    cur := some { agent := .group 0, pc := 0x10000, lanes := 1, word := 0, ext := 0 }
    mail := { State.reset.mail with launches := [(0, { queue := 0, seq := 0, addr := 0, pkt := [] })] }
    blocks := [(1, { launch := 0, num := 0, blkid := 0, core := 0, part := 0, spBase := 0, spSize := 0, winN := 0, tctx := 0
                     since := 0, spawned := false, nbars := [(1, driftedBar)] })]
    groups := [(0, { uid := 0, blk := 1, vector := true, grans := 1, live := 1 })] }

/-- The word issues, and the party's arrival, for which nothing has to wait, would complete the generation of the cycle's record. -/
theorem syncIssues_driftedState : (ctxHere (.barSync syncWord) driftedState).any (fun c =>
    passes (.barSync syncWord) anyProfile driftedState c && c.blkId == 1 && c.cyc == State.reset.clk.cyc &&
    barKeyOf c.core (c.ua syncWord) == some 1 && !divergeTraps c &&
    (partyOf driftedState c.iss.agent).any (fun x => x.id == 0 && x.u.pend.isEmpty && !hasArrived driftedState x 1 &&
      earlierDone driftedState x driftedState.nextId (barScope 1))) = true :=
  rfl

/-- The barrier after the word. -/
def syncedBar (s : State) : Option Bar :=
  match exec (.barSync syncWord) s with
  | .next t => some (barAt t 1 1)
  | _ => none

/-- The barrier has no such member, so that the word raises BARRIER and the barrier stays. -/
theorem syncedBar_driftedState : syncedBar driftedState = some driftedBar := rfl

/-- Refutes O33: BAR.SYNC is said to record the arrival of a party that the barrier had as a member when the cycle began. In a state
whose barrier has not that member, though the record of its cycle has, BAR.SYNC raises BARRIER. The statement lacks the hypothesis that
the barrier itself has the party as a member or a joiner. -/
theorem not_barrierArrivals : ¬ Obligations.BarrierArrivals := by
  unfold Obligations.BarrierArrivals
  rintro ⟨-, sync⟩
  obtain ⟨c, hctx, hc⟩ := (Option.any_eq_true _ _).mp syncIssues_driftedState
  simp only [Bool.and_eq_true, beq_iff_eq, Bool.not_eq_true'] at hc
  obtain ⟨⟨⟨⟨⟨hpass, hblk⟩, hcyc⟩, hkey⟩, hdiverge⟩, hparty⟩ := hc
  obtain ⟨x, hx, hparty⟩ := (Option.any_eq_true _ _).mp hparty
  simp only [Bool.and_eq_true, beq_iff_eq, Bool.not_eq_true', List.isEmpty_iff] at hparty
  obtain ⟨⟨⟨hid, hpend⟩, hfirst⟩, hdone⟩ := hparty
  have hstall : noStall driftedState := ⟨fun e he => absurd he List.not_mem_nil, fun _ => rfl⟩
  have hbar : barAt driftedState c.blkId 1 = driftedBar := by rw [hblk]; rfl
  obtain ⟨t, ht, -, hafter⟩ := sync syncWord driftedState c 1 x driftedBar.now ⟨hctx, hpass⟩ hkey hdiverge hx hfirst hpend hstall hdone
    (by rw [hbar, hcyc, hid]; decide) (by rw [hbar, hcyc]; rfl) (by rw [hid]; decide) (by rw [hid]; decide) (by rw [hid]; decide)
  have hkept := syncedBar_driftedState
  rw [hbar, hcyc, hid, hblk] at hafter
  simp only [syncedBar, ht, hafter] at hkept
  revert hkept
  decide

end Sys2Proof.Machine
end

section
/-! PROOFS. The windows that lrec, lrec.tap and wbind change (O30: R224, R234 to R236). -/

namespace Sys2Proof.Machine

/-! ## Words that change no agent but their own registers -/

/-- A word whose body completes with registers and an operation that touches no agent: how it ends, from the state that its
USPLIT card leaves. -/
theorem completes_framed {i : Instr} {s : State} {c : Ctx} {body : Ctx → State → Res} {d : Done} {xs : List Comp}
    {R : Regs → Regs → Prop} (h : Issues i anyProfile s c) (hx : exec i s = issue i body s) (hb : body c s = .done d)
    (hgo : d.go = .seq) (he : Framed xs d.eff) (hR : ∀ r, R r (d.regs r)) :
    ∃ t, exec i s = .next t ∧ Completes c s t xs [] R none ∧ Same [] (applyAll (d.eff (carded c s)) (carded c s)) t := by
  obtain ⟨t, ht, hc, hafter⟩ := completes_own h hb (he.own []) (.inl hgo)
  rw [hgo] at hc
  exact ⟨t, hx.trans ht, hc.regs_mono fun r r' e => e ▸ hR r, (hafter _ rfl).1⟩

theorem blocks_carded (c : Ctx) (s : State) : (carded c s).blocks = s.blocks := same_carded c s .blocks (by decide)

/-! ## Blocks -/

theorem BlockAfter.congr {c : Ctx} {s s' t t' : State} {f : Nat → Win → Win → Prop} {g : Nat → Option Ring → Option Ring → Prop}
    (h : BlockAfter c s t f g) (hs : s.blocks = s'.blocks) (ht : t'.blocks = t.blocks) : BlockAfter c s' t' f g := by
  simpa only [BlockAfter, hs, ht] using h

theorem blockAfter_refl {c : Ctx} {s t : State} {f : Nat → Win → Win → Prop} {g : Nat → Option Ring → Option Ring → Prop}
    (ht : t.blocks = s.blocks) (hf : ∀ b, mfind s.blocks c.blkId = some b → ∀ n, f n (getWin b n) (getWin b n))
    (hg : ∀ b, mfind s.blocks c.blkId = some b → ∀ n, g n (mfind b.rings n) (mfind b.rings n)) : BlockAfter c s t f g :=
  ⟨fun q _ => by rw [ht], fun b hb => ⟨b, ht ▸ hb, rfl, hf b hb, hg b hb⟩⟩

theorem getWin_withWin (b : Block) (n m : Nat) (x : Win) : getWin (withWin b n x) m = if m = n then x else getWin b m := by
  rw [getWin, withWin, mget_mput, getWin]

/-- A block with one window put. -/
theorem blockAfter_withWin {c : Ctx} {s t : State} {b : Block} {n : Nat} {x : Win} {f : Win → Win → Prop}
    (hb : mfind s.blocks c.blkId = some b) (ht : t.blocks = mput s.blocks c.blkId (withWin b n x)) (hf : f (getWin b n) x) :
    BlockAfter c s t (onlyWin n f) noneOf := by
  refine ⟨fun q hq => by rw [ht, mfind_mput_other _ _ _ _ hq], fun b' hb' => ?_⟩
  obtain rfl : b = b' := Option.some.inj (hb.symm.trans hb')
  refine ⟨withWin b n x, by rw [ht, mfind_mput_same], rfl, fun m => ?_, fun _ => rfl⟩
  rw [getWin_withWin, onlyWin]
  by_cases hm : m = n
  · rw [if_pos hm, if_pos hm, hm]; exact hf
  · rw [if_neg hm, if_neg hm]

/-! ## One window -/

theorem withWinNum_of_lt {c : Ctx} {w : UniW} (h : c.ub w < c.blk.winN) (k : Nat → Win → Res) :
    withWinNum c w k = k (c.ub w) (getWin c.blk (c.ub w)) := if_neg (Nat.not_le.2 h)

theorem withBound_of_bound {c : Ctx} {w : UniW} (h : c.ub w < c.blk.winN) (hbound : (getWin c.blk (c.ub w)).state ≠ .unbound)
    (k : Nat → Win → Res) : withBound c w k = k (c.ub w) (getWin c.blk (c.ub w)) :=
  (withWinNum_of_lt h _).trans (if_neg (by simpa using hbound))

theorem framed_onWin (blk n : Nat) (f : Win → Win) : Framed [.blocks] (onWin blk n f) := framed_of fun s => by
  unfold onWin
  split
  · exact ⟨fun _ => _, rfl, framed_block _ _⟩
  · exact ⟨Eff.nop, rfl, framed_nop _⟩

theorem blocks_onWin {s : State} {blk : Nat} {b : Block} (hb : mfind s.blocks blk = some b) (n : Nat) (f : Win → Win) :
    (applyAll (onWin blk n f s) s).blocks = mput s.blocks blk (withWin b n (f (getWin b n))) := by
  simp [onWin, hb]

/-- A word whose body completes with a change of one window of its block. -/
theorem completes_onWin {i : Instr} {s : State} {c : Ctx} {body : Ctx → State → Res} {act : Word} {n : Nat} {F : Win → Win}
    {f : Win → Win → Prop} (h : Issues i anyProfile s c) (hx : exec i s = issue i body s)
    (hb : body c s = .done { act := act, eff := onWin c.blkId n F }) (hf : ∀ x, f x (F x)) :
    ∃ t, exec i s = .next t ∧ Completes c s t [.blocks] [] RegsKept none ∧ BlockAfter c s t (onlyWin n f) noneOf := by
  obtain ⟨t, ht, hc, hsame⟩ := completes_framed (R := RegsKept) h hx hb rfl (framed_onWin _ _ _) fun _ => rfl
  have hblk := ctxHere_block h.1
  have hcard := blocks_carded c s
  exact ⟨t, ht, hc, (blockAfter_withWin (hcard ▸ hblk) ((hsame .blocks (by simp)).trans (blocks_onWin (hcard ▸ hblk) n F))
    (hf _)).congr hcard rfl⟩

/-! ## The settlement -/

/-- The dwords of a record that lrec writes (R234). -/
theorem ldw_recorded (l : Map DWord) (base n : Nat) (v : Nat → DWord) (j : Nat) :
    ldw ((List.range (n + 1)).foldl (fun m i => mset 0 m (base + i) (v i)) l) j =
      if base ≤ j ∧ j ≤ base + n then v (j - base) else ldw l j := by
  have hkeys : (List.range (n + 1)).foldl (fun m i => mset 0 m (base + i) (v i)) l =
      ((List.range (n + 1)).map (base + ·)).foldl (fun m k => mset 0 m k (v (k - base))) l := by
    simp [List.foldl_map]
  have hmem : j ∈ (List.range (n + 1)).map (base + ·) ↔ base ≤ j ∧ j ≤ base + n := by
    simp only [List.mem_map, List.mem_range]
    exact ⟨by rintro ⟨i, hi, rfl⟩; omega, fun hj => ⟨j - base, by omega, by omega⟩⟩
  rw [ldw, hkeys, mget_foldl_mset, ldw]
  simp only [hmem]

/-- Settles O30: in the states of each case the word's body completes with its change of the window that B names. -/
theorem windowRecording : Obligations.WindowRecording := by
  unfold Obligations.WindowRecording
  intro i s c n f h hform
  cases i with
  | lrec w =>
    obtain ⟨hn, hform⟩ := Option.ite_none_right_eq_some.1 hform
    cases hform
    exact completes_onWin h rfl (withWinNum_of_lt hn _) fun x => ⟨rfl, fun j => ldw_recorded _ _ _ _ j⟩
  | lrecTap w =>
    obtain ⟨⟨hn, hbound, himg⟩, hform⟩ := Option.ite_none_right_eq_some.1 hform
    cases hform
    exact completes_onWin h rfl ((withBound_of_bound hn hbound _).trans (if_neg (by simp [himg]))) fun _ => rfl
  | wbind w =>
    obtain ⟨⟨hn, hcode, hpriv, hstage⟩, hform⟩ := Option.ite_none_right_eq_some.1 hform
    cases hform
    refine completes_onWin (act := c.lanes) h rfl ((withWinNum_of_lt hn _).trans ?_) fun _ => rfl
    dsimp only
    rw [hcode]
    dsimp only
    rw [hstage, hpriv]
  | _ => cases hform

end Sys2Proof.Machine
end

section
/-! PROOFS. The status of a group's windows and the windows it is armed for (O32: R241, R242). -/

namespace Sys2Proof.Machine

/-! ## The agent of a word after it -/

/-- The agent that issues a word stands at the place of its context. -/
theorem agent_of_ctxHere {i : Instr} {s : State} {c : Ctx} (h : ctxHere i s = some c) :
    c.iss.agent = if c.strm then .stream c.key else .group c.key := by
  obtain ⟨iss, -, h⟩ := ctxHere_iss h
  unfold ctxOf at h
  dsimp only at h
  repeat' split at h
  all_goals cases h
  all_goals assumption

theorem streams_carded (c : Ctx) (s : State) : (carded c s).streams = s.streams := streams_splitCard c _ s

/-- A word whose body completes with registers and an operation on its own agent: what the agent shares with others of its
kind after it, from what the operation leaves. -/
theorem completes_agentU {i : Instr} {s : State} {c : Ctx} {body : Ctx → State → Res} {d : Done} {xs : List Comp} {own : List Own}
    {R : Regs → Regs → Prop} (h : Issues i anyProfile s c) (hx : exec i s = issue i body s) (hb : body c s = .done d)
    (hgo : d.go = .seq) (he : OwnFramed c xs own d.eff) (hR : ∀ r, R r (d.regs r)) :
    ∃ t, exec i s = .next t ∧ Completes c s t xs own R none ∧ Same [] (applyAll (d.eff (carded c s)) (carded c s)) t ∧
      ∀ u, agentU (applyAll (d.eff (carded c s)) (carded c s)) c.iss.agent = some u →
        agentU t c.iss.agent = some (finishU c d u) := by
  obtain ⟨t, ht, hc, hafter⟩ := completes_own h hb he (.inl hgo)
  rw [hgo] at hc
  obtain ⟨hsame, hgroup, hstream⟩ := hafter (carded c s) rfl
  refine ⟨t, hx.trans ht, hc.regs_mono fun r r' e => e ▸ hR r, hsame, fun u hu => ?_⟩
  rw [agent_of_ctxHere h.1] at hu ⊢
  cases hs : c.strm with
  | false =>
    rw [hs] at hu
    obtain ⟨g, hg, rfl⟩ := Option.map_eq_some_iff.1 hu
    obtain ⟨x, hx⟩ := hgroup g hs hg
    exact Option.map_eq_some_iff.2 ⟨_, hx, rfl⟩
  | true =>
    rw [hs] at hu
    obtain ⟨y, hy, rfl⟩ := Option.map_eq_some_iff.1 hu
    refine Option.map_eq_some_iff.2 ⟨_, hstream y hs hy, ?_⟩
    simp only [finishStream, hgo]
    exact (streamNext_keeps _ _).1

theorem partyU_of_agentU {s : State} {a : Agent} {u : UCtx} {y : Party} (hu : agentU s a = some u) (hy : partyOf s a = some y) :
    y.u = u := Option.some.inj ((agentU_of_partyOf hy).symm.trans hu)

/-! ## WSTAT (R242) -/

theorem ownFramed_onU_wstat (c : Ctx) (x : Word) : OwnFramed c [] [.wstat] (onU c fun u => { u with wstat := x }) := by
  unfold onU
  cases c.strm with
  | false => exact ownFramed_onGroup fun g => keepsG_wstat g x
  | true =>
    refine ownFramed_onStream fun y => ⟨rfl, rfl, rfl, rfl, fun o ho => ?_⟩
    cases o with
    | wstat => exact absurd (List.mem_singleton_self _) ho
    | pend | arrived | rs | ops | strap | stopped => rfl
    | _ => trivial

/-- What an agent shares, after a change of its own. -/
theorem agentU_onU {i : Instr} {s s1 : State} {c : Ctx} (h : ctxHere i s = some c) (f : UCtx → UCtx)
    (hg : s1.groups = s.groups) (hs : s1.streams = s.streams) :
    agentU (applyAll (onU c f s1) s1) c.iss.agent = some (f c.u) := by
  obtain ⟨iss, -, hctx⟩ := ctxHere_iss h
  rw [agent_of_ctxHere h]
  cases hstrm : c.strm with
  | false =>
    obtain ⟨g, hgrp, huid, hu, -⟩ := ctxOf_group hctx hstrm
    simp [agentU, onU, hstrm, onGroup_eq hstrm (hg ▸ hgrp) huid, hu]
  | true =>
    obtain ⟨y, hstr, hblk, hu⟩ := ctxOf_stream hctx hstrm
    simp [agentU, onU, hstrm, onStream_eq hstrm (hs ▸ hstr) hblk, hu]

theorem wstatClr_done {w : UniW} {s : State} {c : Ctx} (h : Issues (.wstatClr w) anyProfile s c) :
    ∃ t, exec (.wstatClr w) s = .next t ∧ Completes c s t [] [.wstat] (KWritten w.d c.u.wstat.toNat) none ∧
      ∀ y, partyOf t c.iss.agent = some y → y.u.wstat = 0 := by
  obtain ⟨t, ht, hc, -, hagent⟩ := completes_agentU
    (body := fun c _ => .done { act := c.lanes, regs := putU w.d c.u.wstat.toNat, eff := onU c (fun u => { u with wstat := 0 }) })
    h rfl rfl rfl (ownFramed_onU_wstat c 0) (kWritten_putU w.d _)
  refine ⟨t, ht, hc, fun y hy => ?_⟩
  have hcleared := agentU_onU h.1 (fun u => { u with wstat := 0 }) (groups_carded c s) (streams_carded c s)
  rw [partyU_of_agentU (hagent _ hcleared) hy]
  rfl

/-! ## Armed windows (R241) -/

theorem keepsG_armed (g : Group) (m : Map Nat) : KeepsG [.armed] g { g with armed := m } := by
  refine ⟨⟨rfl, rfl, rfl, rfl, rfl⟩, rfl, fun _ => rfl, fun x hx => ?_⟩
  cases x with
  | armed => exact absurd (List.mem_singleton_self _) hx
  | live => exact ⟨rfl, rfl⟩
  | rs => exact fun _ => rfl
  | loop | ops | strap | stopped => trivial
  | _ => rfl

/-- A word of a group whose body completes with registers and another armed set. -/
theorem completes_onArmed {i : Instr} {s : State} {c : Ctx} {body : Ctx → State → Res} {act : Word} {regs : Regs → Regs}
    {F : Group → Map Nat} {g : Group} {R : Regs → Regs → Prop} (h : Issues i anyProfile s c) (hx : exec i s = issue i body s)
    (hs : c.strm = false) (hg : mfind s.groups c.key = some g)
    (hb : body c s = .done { act := act, regs := regs, eff := onGroup c (fun g => { g with armed := F g }) })
    (hR : ∀ r, R r (regs r)) :
    ∃ t, exec i s = .next t ∧ Completes c s t [] [.armed] R none ∧ ∃ h, mfind t.groups c.key = some h ∧ h.armed = F g := by
  obtain ⟨t, ht, hc, hafter⟩ := completes_own h hb (ownFramed_onGroup fun g => keepsG_armed g (F g)) (.inl rfl)
  obtain ⟨iss, -, hctx⟩ := ctxHere_iss h.1
  obtain ⟨g', hg', huid, -⟩ := ctxOf_group hctx hs
  obtain rfl : g = g' := Option.some.inj (hg.symm.trans hg')
  obtain ⟨-, hgroup, -⟩ := hafter (carded c s) rfl
  have hcard : mfind (carded c s).groups c.key = some g := (congrArg (mfind · c.key) (groups_carded c s)).trans hg
  obtain ⟨x, hx'⟩ := hgroup { g with armed := F g } hs (by
    dsimp only
    rw [onGroup_eq hs hcard huid]
    exact mfind_group _ _ _)
  exact ⟨t, hx.trans ht, hc.regs_mono fun r r' e => e ▸ hR r, _, hx', rfl⟩

theorem mfind_mdel {β : Type} (m : Map β) (n k : Nat) : mfind (mdel m n) k = if k = n then none else mfind m k := by
  split
  · next hk => rw [hk, mfind_mdel_same]
  · next hk => exact mfind_mdel_other m n k hk

theorem groupOf_own {c : Ctx} {s : State} {g : Group} (hs : c.strm = false) (hg : mfind s.groups c.key = some g) :
    groupOf c s = some g := by
  simp only [groupOf, hs, Bool.false_eq_true, if_false, hg]

/-- Settles O32: each form's body completes with its change of the agent's status word or of the group's armed set. -/
theorem postmarkForms : Obligations.PostmarkForms := by
  unfold Obligations.PostmarkForms
  refine ⟨fun w s c h => wstatClr_done h, fun w s c g h hn hbound hs hg => ?_, fun w s c g h hs hg harmed => ?_,
    fun w s c g n v h hs hg harmed hready => ?_⟩
  · obtain ⟨t, ht, hc, k, hk, hkarmed⟩ := completes_onArmed (R := RegsKept) h rfl hs hg (withBound_of_bound hn hbound _) fun _ => rfl
    exact ⟨t, ht, hc, k, hk, fun m => hkarmed ▸ mfind_mput _ _ _ _⟩
  · refine completes_of_regs (d := { act := c.lanes, regs := putU w.d 0 }) h rfl ?_ rfl rfl (kWritten_putU w.d 0)
    simp only [groupOf_own hs hg, harmed, List.isEmpty_nil, if_true]
  · obtain ⟨t, ht, hc, k, hk, hkarmed⟩ := completes_onArmed (act := c.lanes) (regs := putU w.d v.toNat) (F := fun g => mdel g.armed n)
      h rfl hs hg (by simp only [groupOf_own hs hg, List.isEmpty_iff, harmed, if_false, hready]) (kWritten_putU w.d v.toNat)
    exact ⟨t, ht, hc, k, hk, fun m => hkarmed ▸ mfind_mdel _ _ _⟩

end Sys2Proof.Machine
end

section
/-! PROOFS. Words that change every group of their block: windows unbound (O31: R225, R237, R241). -/

namespace Sys2Proof.Machine

/-! ## Every group of a block changed -/

theorem sortedKeys_filter {β : Type} (p : Nat × β → Bool) {m : Map β} (h : sortedKeys m = true) : sortedKeys (m.filter p) = true := by
  induction m with
  | nil => rfl
  | cons e m ih =>
    obtain ⟨k, v⟩ := e
    obtain ⟨hlt, hm⟩ := (sortedKeys_cons k v m).mp h
    by_cases hp : p (k, v) = true
    · rw [List.filter_cons_of_pos hp, sortedKeys_cons]
      exact ⟨fun e he => hlt e (List.mem_of_mem_filter he), ih hm⟩
    · rw [List.filter_cons_of_neg hp]
      exact ih hm

/-- The values of a store that pass a test. -/
theorem mfind_filter_value {β : Type} (p : β → Bool) {m : Map β} (h : sortedKeys m = true) (n : Nat) :
    mfind (m.filter (fun e => p e.2)) n = (mfind m n).filter p := by
  have hsub : ∀ v, mfind (m.filter (fun e => p e.2)) n = some v ↔ mfind m n = some v ∧ p v = true := fun v => by
    refine ⟨fun hv => ?_, fun ⟨hv, hp⟩ => mfind_of_mem (sortedKeys_filter _ h) (List.mem_filter.2 ⟨mem_of_mfind hv, hp⟩)⟩
    obtain ⟨hm, hp⟩ := List.mem_filter.1 (mem_of_mfind hv)
    exact ⟨mfind_of_mem h hm, hp⟩
  exact Option.ext fun v => (hsub v).trans Option.filter_eq_some_iff.symm

/-- The groups of a block, changed by a function. -/
def eachGroup (blk : Nat) (f : Group → Group) : Eff := fun s => (groupsOfBlk s blk).map (fun e => .group e.1 (f e.2))

/-- A group as a change of the groups of a block leaves it. -/
def inBlk (blk : Nat) (f : Group → Group) (g : Group) : Group := if g.blk = blk then f g else g

theorem mfind_eachGroup {s : State} (h : sortedKeys s.groups = true) (blk : Nat) (f : Group → Group) (q : Nat) :
    mfind (applyAll (eachGroup blk f s) s).groups q = (mfind s.groups q).map (inBlk blk f) := by
  refine (mfind_groups_applyAll f (groupsOfBlk s blk) (sortedKeys_filter _ h) s q).trans ?_
  rw [groupsOfBlk, mfind_filter_value (fun g => g.blk == blk) h]
  cases mfind s.groups q with
  | none => rfl
  | some g => by_cases hg : g.blk = blk <;> simp [inBlk, Option.filter_some, hg]

theorem eachGroup_keeps (blk : Nat) (f : Group → Group) (s : State) :
    Same [] s (applyAll (eachGroup blk f s) s) ∧ (applyAll (eachGroup blk f s) s).streams = s.streams :=
  applyAll_groups_keep (fun e : Nat × Group => e.1) (fun e => f e.2) (groupsOfBlk s blk) s

/-- The group of a completed word whose operation kept its registers and place. -/
theorem groupAfter_of_keepsG {c : Ctx} {d : Done} {own : List Own} {g g1 : Group} (hkeep : KeepsG own g g1)
    (hregs : ∀ r, d.regs r = r) (hgo : d.go = .seq) (o : Word) (x : Samp) : GroupAfter c own RegsKept (fun _ => c.next) g
      { g1 with u := finishU c d g1.u, sched := finishSched c d o g1.sched, samp := x } := by
  obtain ⟨hident, hfile, hpc, hown⟩ := hkeep
  refine ⟨(hregs _).trans hfile, rfl, fun l hl => ?_, fun y hy => ?_, hident⟩
  · refine (finishSched_pc c d o g1.sched l hl).trans ?_
    rw [hgo, hpc]
  · cases y with
    | rs =>
      intro l
      refine (finishSched_rs c d o g1.sched l).trans ?_
      rw [hgo]
      exact (ite_self _).trans (hown .rs hy l)
    | loop | ops | strap | stopped => trivial
    | _ => exact hown _ hy

/-- A word of a group whose body completes with an operation that changes the groups of its block: how it ends, from the state
that its USPLIT card leaves. -/
theorem completes_groups {i : Instr} {s : State} {c : Ctx} {body : Ctx → State → Res} {d : Done} {own : List Own}
    {f : Group → Group} (h : Issues i anyProfile s c) (hx : exec i s = issue i body s) (hb : body c s = .done d)
    (hs : c.strm = false) (hgo : d.go = .seq) (hregs : ∀ r, d.regs r = r) (hkeep : ∀ g, KeepsG own g (f g))
    (hgroups : ∀ q, mfind (applyAll (d.eff (carded c s)) (carded c s)).groups q =
      (mfind (carded c s).groups q).map (inBlk c.blkId f)) :
    ∃ t, exec i s = .next t ∧ Same [] (applyAll (d.eff (carded c s)) (carded c s)) t ∧
      t.streams = (applyAll (d.eff (carded c s)) (carded c s)).streams ∧
      (∀ q, q ≠ c.key → mfind t.groups q = (mfind s.groups q).map (inBlk c.blkId f)) ∧
      ∃ g h, mfind s.groups c.key = some g ∧ mfind t.groups c.key = some h ∧ g.blk = c.blkId ∧ h.armed = (f g).armed ∧
        GroupAfter c own RegsKept (fun _ => c.next) g h := by
  obtain ⟨iss, -, hctx⟩ := ctxHere_iss h.1
  obtain ⟨g, hg, huid, -, -, -, hblk⟩ := ctxOf_group hctx hs
  rw [groups_carded] at hgroups
  have hg1 : mfind (applyAll (d.eff (carded c s)) (carded c s)).groups c.key = some (f g) := by
    rw [hgroups, hg, Option.map_some, inBlk, if_pos hblk]
  obtain ⟨x, hsame, hown, hothers, hstreams⟩ := finish_group c d (carded c s) (f g) hs hg1 ((hkeep g).ident.1.trans huid)
  exact ⟨_, hx.trans (issue_done h hb), hsame, hstreams, fun q hq => (hothers q hq).trans (hgroups q),
    g, _, hg, hown, hblk, rfl, groupAfter_of_keepsG (hkeep g) hregs hgo _ _⟩

/-! ## WUNBIND (R237) -/

/-- A group with its armed set changed. -/
def rearmed (F : Map Nat → Map Nat) (g : Group) : Group := { g with armed := F g.armed }

theorem disarmWin_eq (blk n : Nat) : disarmWin blk n = eachGroup blk (rearmed (mdel · n)) := rfl

/-- What wunbind does to a window that no copy moves. -/
def unbindEff (blk n : Nat) : Eff := Eff.all [Eff.nop, onWin blk n (fun x => { x with state := .unbound }), disarmWin blk n]

/-- It unbinds the window and takes it from the armed sets of the block's groups. -/
theorem unbindEff_done {c : Ctx} {s : State} {b : Block} (hsort : sortedKeys s.groups = true) (hb : mfind s.blocks c.blkId = some b)
    (n : Nat) :
    Same [.blocks] s (applyAll (unbindEff c.blkId n s) s) ∧ (applyAll (unbindEff c.blkId n s) s).streams = s.streams ∧
    BlockAfter c s (applyAll (unbindEff c.blkId n s) s) (onlyWin n (fun x x' => x' = { x with state := .unbound })) noneOf ∧
    ∀ q, mfind (applyAll (unbindEff c.blkId n s) s).groups q = (mfind s.groups q).map (inBlk c.blkId (rearmed (mdel · n))) := by
  have hwin := framed_onWin c.blkId n fun x => { x with state := .unbound }
  have hblocks := blocks_onWin hb n fun x => { x with state := .unbound }
  have hsame := hwin.same s
  have hgroups := hwin.groups s
  have hstreams := hwin.streams s
  simp only [unbindEff, applyAll_all_cons, applyAll_all_nil, applyAll_nop, disarmWin_eq]
  generalize applyAll (onWin c.blkId n (fun x => { x with state := .unbound }) s) s = s1 at *
  obtain ⟨hkeeps, hkeepstr⟩ := eachGroup_keeps c.blkId (rearmed (mdel · n)) s1
  refine ⟨hsame.trans (hkeeps.mono (List.nil_subset _)), hkeepstr.trans hstreams, ?_, fun q => ?_⟩
  · exact blockAfter_withWin hb ((hkeeps .blocks (by simp)).trans hblocks) rfl
  · rw [mfind_eachGroup (hgroups ▸ hsort), hgroups]

/-- WUNBIND whose body completes with an operation on its window and on the armed sets of its block: from what the operation does
to the state that the word's USPLIT card leaves. -/
theorem wunbind_done {w : UniW} {s : State} {c : Ctx} {body : Ctx → State → Res} {E : Eff} {F : Map Nat → Map Nat} {unbound : Prop}
    [Decidable unbound] (h : Issues (.wunbind w) anyProfile s c) (hs : c.strm = false)
    (hx : exec (.wunbind w) s = issue (.wunbind w) body s) (hb : body c s = .done { act := c.lanes, eff := E })
    (hF : ∀ m k, mfind (F m) k = if k = c.ub w ∧ ¬unbound then none else mfind m k)
    (hE : Same [.blocks] (carded c s) (applyAll (E (carded c s)) (carded c s)) ∧
      (applyAll (E (carded c s)) (carded c s)).streams = (carded c s).streams ∧
      BlockAfter c (carded c s) (applyAll (E (carded c s)) (carded c s))
        (onlyWin (c.ub w) (fun x x' => x' = { x with state := .unbound })) noneOf ∧
      ∀ q, mfind (applyAll (E (carded c s)) (carded c s)).groups q =
        (mfind (carded c s).groups q).map (inBlk c.blkId (rearmed F))) :
    ∃ t, exec (.wunbind w) s = .next t ∧ Same (cardParts c s ++ [.blocks]) s t ∧ t.streams = s.streams ∧
      BlockAfter c s t (onlyWin (c.ub w) (fun x x' => x' = { x with state := .unbound })) noneOf ∧
      (∀ q g, mfind s.groups q = some g → ∃ h, mfind t.groups q = some h ∧
        (∀ m, mfind h.armed m = if g.blk = c.blkId ∧ m = c.ub w ∧ ¬unbound then none else mfind g.armed m) ∧
        (q ≠ c.key → h = { g with armed := h.armed })) ∧
      ∃ g h, mfind s.groups c.key = some g ∧ mfind t.groups c.key = some h ∧
        GroupAfter c [.armed] RegsKept (fun _ => c.next) g h := by
  obtain ⟨hsame, hstreams, hblock, hgroups⟩ := hE
  obtain ⟨t, ht, hfinish, hkept, hothers, k, k', hk, hk', hkblk, hkarmed, hafter⟩ :=
    completes_groups (f := rearmed F) h hx hb hs rfl (fun _ => rfl) (fun g => keepsG_armed g (F g.armed)) hgroups
  have hcard := same_splitCard c s
  change Same (cardParts c s) s (carded c s) at hcard
  refine ⟨t, ht, ?_, hkept.trans (hstreams.trans (streams_carded c s)),
    hblock.congr (blocks_carded c s) (hfinish .blocks (by simp)), fun q g hg => ?_, k, k', hk, hk', hafter⟩
  · exact (hcard.mono (by simp +contextual)).trans
      ((hsame.mono (by simp +contextual)).trans (hfinish.mono (List.nil_subset _)))
  · by_cases hq : q = c.key
    · subst hq
      obtain rfl : k = g := Option.some.inj (hk.symm.trans hg)
      refine ⟨k', hk', fun m => ?_, fun hne => absurd rfl hne⟩
      simp only [hkarmed, rearmed, hF, hkblk, true_and]
    · refine ⟨inBlk c.blkId (rearmed F) g, by rw [hothers q hq, hg, Option.map_some], fun m => ?_, fun _ => ?_⟩
      all_goals by_cases hb : g.blk = c.blkId <;> simp [inBlk, rearmed, hF, hb]

/-- Settles O31: no copy moves the window, so the word's body completes: with no effect where the window is UNBOUND, else with
the window unbound and out of the armed sets of the block's groups. -/
theorem windowUnbind : Obligations.WindowUnbind := by
  unfold Obligations.WindowUnbind
  intro w s c b x h hsort hb hn hx hstate hblk hs
  subst hblk
  have hblocks := blocks_carded c s
  have hgroups := groups_carded c s
  by_cases hunbound : x.state = .unbound
  · refine wunbind_done (F := id) (E := Eff.nop) h hs rfl ((withWinNum_of_lt hn _).trans (by rw [hx, hunbound]))
      (fun m k => by simp [hunbound]) ⟨Same.refl _ _, rfl, blockAfter_refl rfl (fun b' hb' m => ?_) fun _ _ _ => rfl, fun q => ?_⟩
    · obtain rfl : c.blk = b' := Option.some.inj (hb.symm.trans (hblocks ▸ hb'))
      unfold onlyWin
      split
      · next hm => rw [hm, hx, ← hunbound]
      · rfl
    · cases hq : mfind (carded c s).groups q <;> simp [hq, inBlk, rearmed]
  · refine wunbind_done (F := (mdel · (c.ub w))) (E := unbindEff c.blkId (c.ub w)) h hs rfl ((withWinNum_of_lt hn _).trans ?_)
      (fun m k => by simp [hunbound, mfind_mdel]) (unbindEff_done (hgroups ▸ hsort) (hblocks ▸ hb) _)
    rw [hx]
    rcases hstate with hst | hst | hst
    · rw [hst]; rfl
    · rw [hst]; rfl
    · exact absurd hst hunbound

end Sys2Proof.Machine
end

section
/-! PROOFS. What wabs, wpost and wtouch leave: the window, its postmark, the queued copy and the promise (O34: R225, R227, R229 to
R231, R238 to R240). -/

namespace Sys2Proof.Machine

/-! ## What cards leave (R386 to R399) -/

section
variable {R : State → State → Prop} (hrefl : ∀ s, R s s) (htrans : ∀ s t u, R s t → R t u → R s u)
  (htrace : ∀ s x, R s ((Upd.trace x).apply s)) (hcluster : ∀ s n x, R s ((Upd.cluster n x).apply s))
  (hctrs : ∀ s x, R s ((Upd.ctrs x).apply s))
include hrefl htrans htrace hcluster hctrs

/-- What every update of the trace unit, of a trace buffer and of the counters keeps, a card put into a buffer keeps. -/
theorem leaves_putCard (cl src : Nat) (card : Card) (keep lost : List Nat) (frank : Session → Nat) :
    Eff.Leaves R (putCard cl src card keep lost frank) := by
  have hcount : ∀ f, Eff.Leaves R (count f 18 1) := fun f s => hctrs s _
  have hdrop : Eff.Leaves R (dropAll lost frank) := fun s => by
    refine leaves_seq htrans (fun s => ?_) (leaves_forEach hrefl htrans _ _ hcount) s
    cases lost with
    | nil => exact hrefl s
    | cons n ns => exact htrace s _
  have hpush : Eff.Leaves R (pushCard cl { card := card, who := keep, written := false }) := fun s => by
    cases keep with
    | nil => exact hrefl s
    | cons n ns => exact hcluster s cl _
  exact leaves_seq htrans (fun s => htrace s _) (leaves_seq htrans hdrop (leaves_seq htrans hpush hrefl))

/-- What every update of the trace unit, of a trace buffer and of the counters keeps, a card emitted keeps. -/
theorem leaves_emit (src : Src387) (ty lane slot frank : Nat) (p0 p1 : DWord) : Eff.Leaves R (emit src ty lane slot frank p0 p1) := by
  have hput := leaves_putCard hrefl htrans htrace hcluster hctrs
  have hstall : ∀ cl event cycles, Eff.Leaves R (stallCard cl event cycles) := fun cl event cycles s => by
    unfold stallCard
    dsimp only
    split
    · exact hrefl s
    · exact hput _ _ _ _ _ _ s
  have hhigh : ∀ cl, Eff.Leaves R (checkHigh cl) := fun cl s => by
    unfold checkHigh
    dsimp only
    split
    · exact leaves_seq htrans (f := fun s => [.cluster cl { getCluster s cl with stall := some 0 }]) (fun s => hcluster s cl _)
        (hstall cl 0 0) s
    · exact hrefl s
  intro s
  unfold emit
  dsimp only
  split
  · exact hrefl s
  · exact leaves_seq htrans (hput _ _ _ _ _ _) (hhigh _) s

end

theorem fresh_carded (c : Ctx) (s : State) : (carded c s).fresh = s.fresh := by
  unfold carded
  cases usplit c s with
  | none => rfl
  | some a =>
    exact leaves_emit (R := fun s t => t.fresh = s.fresh) (fun _ => rfl) (fun _ _ _ h k => Eq.trans k h) (fun _ _ => rfl)
      (fun _ _ _ => rfl) (fun _ _ => rfl) _ _ _ _ _ _ _ s

/-! ## Scratchpad dwords -/

/-- A byte of a value (R3). -/
theorem getD_toBytes {n i : Nat} (h : i < n) (v : Nat) : (toBytes n v).getD i 0 = BitVec.ofNat 8 (v / 2 ^ (8 * i)) := by
  induction n generalizing i v with
  | zero => omega
  | succ n ih =>
    cases i with
    | zero => simp [toBytes]
    | succ i =>
      rw [toBytes, List.getD_cons_succ, ih (by omega), Nat.div_div_eq_div_mul, show 256 * 2 ^ (8 * i) = 2 ^ (8 * (i + 1)) by ring]

/-- Bytes of dwords written to the scratchpad. -/
theorem spadAfter_cells {s t : State} {a n : Nat} {bs : List Byte} {v : Nat → DWord} (ht : t.spad = writeCells s.spad (cellsAt a bs))
    (hlen : bs.length = 8 * n) (hbs : ∀ i, i < 8 * n → bs.getD i 0 = BitVec.ofNat 8 ((v (i / 8)).toNat / 2 ^ (8 * (i % 8)))) :
    SpadAfter s t a n v := fun k => by
  have hcell : (∃ c ∈ cellsAt a bs, c.1 = k) ↔ a ≤ k ∧ k < a + 8 * n := by
    simp only [mem_cellsAt, hlen]
    constructor
    · rintro ⟨c, ⟨h1, h2, -⟩, rfl⟩
      exact ⟨h1, h2⟩
    · exact fun ⟨h1, h2⟩ => ⟨(k, bs.getD (k - a) 0), ⟨h1, h2, rfl⟩, rfl⟩
  rw [ht, readByte_writeCells (fun x => bs.getD (x - a) 0) _ _ fun c hc => (mem_cellsAt.1 hc).2.2]
  simp only [hcell]
  split
  · next hk => exact hbs (k - a) (by omega)
  · rfl

/-- One dword written to the scratchpad. -/
theorem spadAfter_dword {s t : State} {a : Nat} {v : DWord} (ht : t.spad = writeCells s.spad (cellsAt a (toBytes 8 v.toNat))) :
    SpadAfter s t a 1 (fun _ => v) :=
  spadAfter_cells ht (length_toBytes 8 _) fun i hi => by rw [getD_toBytes hi, Nat.mod_eq_of_lt hi]

theorem SpadAfter.congr {s s' t t' : State} {a n : Nat} {v : Nat → DWord} (h : SpadAfter s t a n v) (hs : s.spad = s'.spad)
    (ht : t'.spad = t.spad) : SpadAfter s' t' a n v := by
  simpa only [SpadAfter, hs, ht] using h

/-! ## Forks (R229, R230, R240) -/

/-- A window changed, the next number given out, the window's postmark written. -/
def forkWin (blk n : Nat) (f : Win → Win) (v : DWord) : Eff :=
  Eff.all [onWin blk n f, fun s => [.nextId (s.nextId + 1)], markWin blk n v]

theorem framed_markWin (blk n : Nat) (v : DWord) : Framed [.spad] (markWin blk n v) := framed_of fun s => by
  unfold markWin
  split
  · exact ⟨_, rfl, framed_writePostmark _ _ _⟩
  · exact ⟨Eff.nop, rfl, framed_nop _⟩

theorem framed_forkWin (blk n : Nat) (f : Win → Win) (v : DWord) : Framed [.blocks, .spad] (forkWin blk n f v) :=
  framed_all _ fun e he => by
    simp only [List.mem_cons, List.not_mem_nil, or_false] at he
    rcases he with rfl | rfl | rfl
    · exact (framed_onWin _ _ _).mono (by simp)
    · exact (framed_nextId _).mono (by simp)
    · exact (framed_markWin _ _ _).mono (by simp)

/-- A fork whose change keeps the window's range: its block, and its postmark. -/
theorem forkWin_done {c : Ctx} {s : State} {b : Block} {n : Nat} {x : Win} {f : Win → Win} {P : Win → Win → Prop} (v : DWord)
    (hb : mfind s.blocks c.blkId = some b) (hx : getWin b n = x) (hP : P x (f x)) (hoff : (f x).off = x.off)
    (hsize : (f x).size = x.size) :
    BlockAfter c s (applyAll (forkWin c.blkId n f v s) s) (onlyWin n P) noneOf ∧
    SpadAfter s (applyAll (forkWin c.blkId n f v s) s) (blkByte b (x.off + x.size - 8)) 1 (fun _ => v) := by
  have hwin := framed_onWin c.blkId n f
  have hblocks := blocks_onWin hb n f
  have hspad := hwin.same s .spad (by simp)
  simp only [forkWin, applyAll_all_cons, applyAll_all_nil]
  generalize applyAll (onWin c.blkId n f s) s = s1 at *
  have hmark := framed_markWin c.blkId n v
  refine ⟨blockAfter_withWin hb ((hmark.same _ .blocks (by simp)).trans hblocks) (hx ▸ hP), spadAfter_dword ?_⟩
  have hb1 : mfind s1.blocks c.blkId = some (withWin b n (f x)) := by rw [hblocks, mfind_mput_same, hx]
  simp only [applyAll_cons, applyAll_nil, markWin, Upd.apply_nextId_blocks, hb1, writePostmark, getWin_withWin, if_true, hoff, hsize,
    Upd.apply_spad_spad, Upd.apply_nextId_spad]
  exact congrArg (writeCells · _) hspad

/-! ## WABS (R238) -/

/-- The origin that a wabs gives (R238). -/
def wabsOrigin (c : Ctx) (w : UniW) : List Nat :=
  [c.kreg 0 (kNum w.a) % 2 ^ 32, c.kreg 0 (kNum w.a) / 2 ^ 32, c.kreg 0 (kNum w.a + 1) % 2 ^ 32, c.kreg 0 (kNum w.a + 1) / 2 ^ 32,
    c.kreg 0 (kNum w.a + 2) % 2 ^ 32]

/-- The window of a wabs, that had a SEQ, after it. -/
def wabsWin (c : Ctx) (s : State) (w : UniW) (seq : Nat) (x : Win) : Win :=
  { x with state := .absent, org := wabsOrigin c w, ctap := x.tap, seq := (seq + 1) % 65536, uid := c.uid, after := s.nextId }

/-- What a wabs of a window that had no run-ahead copy does. -/
def wabsEff (c : Ctx) (s : State) (w : UniW) (x : Win) : Eff :=
  Eff.seq Eff.nop (forkWin c.blkId (c.ub w) (wabsWin c s w x.seq) (postmark ((x.seq + 1) % 65536) 0 0 0 0 0 0))

theorem wabs_done {w : UniW} {s : State} {c : Ctx} {b : Block} {x : Win} (h : Issues (.wabs w) anyProfile s c)
    (hb : mfind s.blocks c.blkId = some b) (hn : c.ub w < b.winN) (hx : getWin b (c.ub w) = x)
    (hstate : x.state = .present ∨ x.state = .absent)
    (hfit : ¬(layXf x.layout = true ∧ (c.kreg 0 (kNum w.a) % 2 ^ 32) % (xfmtOf x.fmt).blen ≠ 0)) :
    ∃ t, exec (.wabs w) s = .next t ∧ Completes c s t [.blocks, .spad] [] RegsKept none ∧
      BlockAfter c s t (onlyWin (c.ub w) (fun x x' => x' = wabsWin c s w x.seq x)) noneOf ∧
      SpadAfter s t (blkByte b (x.off + x.size - 8)) 1 (fun _ => postmark ((x.seq + 1) % 65536) 0 0 0 0 0 0) := by
  obtain rfl : c.blk = b := Option.some.inj ((ctxHere_block h.1).symm.trans hb)
  have hbound : x.state ≠ .unbound := by rcases hstate with hst | hst <;> simp [hst]
  have hfits : ¬(layXf x.layout && (c.kreg 0 (kNum w.a) % 2 ^ 32) % (xfmtOf x.fmt).blen != 0) = true := by
    simpa only [Bool.and_eq_true, bne_iff_ne] using hfit
  obtain ⟨t, ht, hc, hsame⟩ := completes_framed (R := RegsKept) (d := { act := c.lanes, eff := wabsEff c s w x }) h rfl
    ((withBound_of_bound hn (hx ▸ hbound) _).trans (by
      rw [hx]
      rcases hstate with hst | hst <;> rw [hst] <;> exact if_neg hfits))
    rfl ((framed_nop _).seq (framed_forkWin _ _ _ _)) fun _ => rfl
  have hcard := blocks_carded c s
  obtain ⟨hblock, hspad⟩ := forkWin_done (P := fun x x' => x' = wabsWin c s w x.seq x) (f := wabsWin c s w x.seq)
    (postmark ((x.seq + 1) % 65536) 0 0 0 0 0 0) (hcard ▸ hb) hx rfl rfl rfl
  exact ⟨t, ht, hc, hblock.congr hcard (hsame .blocks (by simp)),
    hspad.congr (same_carded c s .spad (by decide)) (hsame .spad (by simp))⟩

theorem getCore_congr {s t : State} (h : t.cores = s.cores) (k : Nat) : getCore t k = getCore s k := by
  rw [getCore, h, getCore]

theorem getCore_carded (c : Ctx) (s : State) (k : Nat) : getCore (carded c s) k = getCore s k :=
  getCore_congr (same_carded c s .cores (by decide)) k

/-! ## WPOST (R240) -/

theorem framed_queueCopy (core : Nat) (j : CopyJob) : Framed [.cores] (queueCopy core j) := framed_core _ _

/-- A queued copy was queued in the same cycle as another, from a later place (R227). -/
def queuedLater (j x : CopyJob) : Bool := x.cyc == j.cyc && (decide (j.part < x.part) || (x.part == j.part && decide (j.slot < x.slot)))

theorem queuedLater_iff (j x : CopyJob) :
    queuedLater j x = true ↔ x.cyc = j.cyc ∧ (j.part < x.part ∨ (x.part = j.part ∧ j.slot < x.slot)) := by
  simp [queuedLater]

/-- A copy that enters a queue stands behind those it must follow (R227). -/
theorem copyQueued_queueCopy (core : Nat) (j : CopyJob) (s : State) :
    CopyQueued j (getCore s core).copyq (getCore (applyAll (queueCopy core j s) s) core).copyq := by
  have hcore := getCore_core core core
  simp only [queueCopy, hcore, if_true]
  generalize (getCore s core).copyq = q
  refine ⟨q.takeWhile (fun x => !queuedLater j x), q.dropWhile (fun x => !queuedLater j x), (List.takeWhile_append_dropWhile).symm,
    rfl, fun x hx hlater => ?_, fun x hx => ?_⟩
  · have hearlier := List.mem_takeWhile_imp hx
    rw [(queuedLater_iff j x).2 hlater] at hearlier
    cases hearlier
  · have hfirst := List.head?_dropWhile_not (fun x => !queuedLater j x) q
    rw [hx] at hfirst
    exact (queuedLater_iff j x).1 (by simpa using hfirst)

/-- A fork that queues a copy. -/
def forkAndQueue (blk n : Nat) (f : Win → Win) (v : DWord) (core : Nat) (j : CopyJob) : Eff :=
  Eff.all [onWin blk n f, fun s => [.nextId (s.nextId + 1)], markWin blk n v, queueCopy core j]

theorem framed_forkAndQueue (blk n : Nat) (f : Win → Win) (v : DWord) (core : Nat) (j : CopyJob) :
    Framed [.blocks, .spad, .cores] (forkAndQueue blk n f v core j) :=
  framed_all _ fun e he => by
    simp only [List.mem_cons, List.not_mem_nil, or_false] at he
    rcases he with rfl | rfl | rfl | rfl
    · exact (framed_onWin _ _ _).mono (by simp)
    · exact (framed_nextId _).mono (by simp)
    · exact (framed_markWin _ _ _).mono (by simp)
    · exact (framed_queueCopy _ _).mono (by simp)

theorem applyAll_forkAndQueue (blk n : Nat) (f : Win → Win) (v : DWord) (core : Nat) (j : CopyJob) (s : State) :
    applyAll (forkAndQueue blk n f v core j s) s =
      applyAll (queueCopy core j (applyAll (forkWin blk n f v s) s)) (applyAll (forkWin blk n f v s) s) :=
  (applyAll_all_snoc _ _ _ _ s).trans (applyAll_seq s _ _)

/-- The fork's block and postmark, and the queue that its copy joins. -/
theorem forkAndQueue_done {c : Ctx} {s : State} {b : Block} {n : Nat} {x : Win} {f : Win → Win} {P : Win → Win → Prop} (v : DWord)
    (core : Nat) (j : CopyJob) (hb : mfind s.blocks c.blkId = some b) (hx : getWin b n = x) (hP : P x (f x)) (hoff : (f x).off = x.off)
    (hsize : (f x).size = x.size) {t : State} (ht : t = applyAll (forkAndQueue c.blkId n f v core j s) s) :
    BlockAfter c s t (onlyWin n P) noneOf ∧ SpadAfter s t (blkByte b (x.off + x.size - 8)) 1 (fun _ => v) ∧
    CopyQueued j (getCore s core).copyq (getCore t core).copyq := by
  obtain ⟨hblock, hspad⟩ := forkWin_done v hb hx hP hoff hsize
  have hcore := getCore_congr ((framed_forkWin c.blkId n f v).same s .cores (by simp)) core
  have hqueue := framed_queueCopy core j
  rw [applyAll_forkAndQueue] at ht
  generalize applyAll (forkWin c.blkId n f v s) s = s1 at *
  subst ht
  exact ⟨hblock.congr rfl (hqueue.same s1 .blocks (by simp)), hspad.congr rfl (hqueue.same s1 .spad (by simp)),
    hcore ▸ copyQueued_queueCopy core j s1⟩

/-- The window of a wpost, that had a SEQ, after it. -/
def wpostWin (c : Ctx) (s : State) (seq : Nat) (x : Win) : Win :=
  { x with state := .copyout, seq := (seq + 1) % 65536, uid := c.uid, after := s.nextId }

/-- The copy that a wpost queues. -/
def wpostJob (c : Ctx) (s : State) (w : UniW) : CopyJob :=
  { blk := c.blkId, win := c.ub w, out := true, ra := false, uid := c.uid, after := s.nextId, cyc := s.clk.cyc
    part := c.part, slot := c.slot }

/-- What a wpost of a window does. -/
def wpostEff (c : Ctx) (s : State) (w : UniW) (x : Win) : Eff :=
  forkAndQueue c.blkId (c.ub w) (wpostWin c s x.seq) (postmark ((x.seq + 1) % 65536) 0 0 0 0 0 0) c.core (wpostJob c s w)

theorem wpost_done {w : UniW} {s : State} {c : Ctx} {b : Block} {x : Win} (h : Issues (.wpost w) anyProfile s c)
    (hb : mfind s.blocks c.blkId = some b) (hn : c.ub w < b.winN) (hx : getWin b (c.ub w) = x) (hstate : x.state = .present)
    (himg : layImg x.layout = false) (hdec : layDec x.layout = false) :
    ∃ t, exec (.wpost w) s = .next t ∧ Completes c s t [.blocks, .spad, .cores] [] RegsKept none ∧
      BlockAfter c s t (onlyWin (c.ub w) (fun x x' => x' = wpostWin c s x.seq x)) noneOf ∧
      SpadAfter s t (blkByte b (x.off + x.size - 8)) 1 (fun _ => postmark ((x.seq + 1) % 65536) 0 0 0 0 0 0) ∧
      CopyQueued (wpostJob c s w) (getCore s c.core).copyq (getCore t c.core).copyq := by
  obtain rfl : c.blk = b := Option.some.inj ((ctxHere_block h.1).symm.trans hb)
  have hbound : x.state ≠ .unbound := by simp [hstate]
  obtain ⟨t, ht, hc, hsame⟩ := completes_framed (R := RegsKept) (d := { act := c.lanes, eff := wpostEff c s w x }) h rfl
    ((withBound_of_bound hn (hx ▸ hbound) _).trans (by rw [hx, himg, hdec, hstate]; rfl)) rfl
    (framed_forkAndQueue _ _ _ _ _ _) fun _ => rfl
  have hcard := blocks_carded c s
  obtain ⟨hblock, hspad, hqueue⟩ := forkAndQueue_done (P := fun x x' => x' = wpostWin c s x.seq x) (f := wpostWin c s x.seq)
    (postmark ((x.seq + 1) % 65536) 0 0 0 0 0 0) c.core (wpostJob c s w) (hcard ▸ hb) hx rfl rfl rfl rfl
  refine ⟨t, ht, hc, hblock.congr hcard (hsame .blocks (by simp)),
    hspad.congr (same_carded c s .spad (by decide)) (hsame .spad (by simp)), ?_⟩
  rw [getCore_of_same hsame, ← getCore_carded c s]
  exact hqueue

/-! ## WTOUCH (R225, R231, R239) -/

/-- The copy that a touch queues. -/
def touchJob (s : State) (q : Queuer) (blk n : Nat) (x : Win) : CopyJob :=
  { blk := blk, win := n, out := false, ra := false, uid := x.uid, after := x.after, cyc := s.clk.cyc, part := q.part, slot := q.slot }

/-- A window as a touch, that promises p, leaves it. -/
def touchedWin (p : Nat) (x : Win) : Win :=
  if x.state = .absent ∨ x.state = .runahead then { x with state := .copyin, prom := p } else x

/-- A touch of an ABSENT window. -/
theorem touch_of_absent {q : Queuer} {blk n : Nat} {s : State} {b : Block} {x : Win} (hb : mfind s.blocks blk = some b)
    (hx : getWin b n = x) (hstate : x.state = .absent) :
    touch q blk n s = Eff.seq (fun _ => [.block blk (withWin b n { x with state := .copyin, prom := promiseOf s b.core x })])
      (queueCopy b.core (touchJob s q blk n x)) s := by
  simp only [touch, hb, hx, hstate]
  rfl

/-- A touch of a RUNAHEAD window. -/
theorem touch_of_runahead {q : Queuer} {blk n : Nat} {s : State} {b : Block} {x : Win} (hb : mfind s.blocks blk = some b)
    (hx : getWin b n = x) (hstate : x.state = .runahead) :
    touch q blk n s = [.block blk (withWin b n { x with state := .copyin, prom := promiseOf s b.core x })] := by
  simp only [touch, hb, hx, hstate]

/-- A touch of a window in any other state. -/
theorem touch_of_other {q : Queuer} {blk n : Nat} {s : State} {b : Block} {x : Win} (hb : mfind s.blocks blk = some b)
    (hx : getWin b n = x) (hstate : ¬(x.state = .absent ∨ x.state = .runahead)) : touch q blk n s = [] := by
  simp only [touch, hb, hx]
  split
  · next h => exact absurd (.inl h) hstate
  · next h => exact absurd (.inr h) hstate
  · rfl

theorem framed_touch (q : Queuer) (blk n : Nat) : Framed [.blocks, .cores] (touch q blk n) := framed_of fun s => by
  cases hb : mfind s.blocks blk with
  | none => exact ⟨Eff.nop, by simp [touch, hb, Eff.nop], framed_nop _⟩
  | some b =>
    by_cases habsent : (getWin b n).state = .absent
    · exact ⟨_, touch_of_absent hb rfl habsent, ((framed_block _ _).mono (by simp)).seq ((framed_queueCopy _ _).mono (by simp))⟩
    · by_cases hra : (getWin b n).state = .runahead
      · exact ⟨fun _ => _, touch_of_runahead hb rfl hra, (framed_block _ _).mono (by simp)⟩
      · exact ⟨Eff.nop, touch_of_other hb rfl (by simp [habsent, hra]), framed_nop _⟩

/-- A touch: the window, and the queue of its core. -/
theorem touch_done {c : Ctx} {q : Queuer} {s : State} {b : Block} {n : Nat} {x : Win} (hb : mfind s.blocks c.blkId = some b)
    (hx : getWin b n = x) :
    BlockAfter c s (applyAll (touch q c.blkId n s) s) (onlyWin n (fun x' y => y = touchedWin (promiseOf s b.core x) x')) noneOf ∧
    if x.state = .absent then
      CopyQueued (touchJob s q c.blkId n x) (getCore s b.core).copyq (getCore (applyAll (touch q c.blkId n s) s) b.core).copyq
    else (getCore (applyAll (touch q c.blkId n s) s) b.core).copyq = (getCore s b.core).copyq := by
  have hput : ∀ {t : State},
      t.blocks = mput s.blocks c.blkId (withWin b n { x with state := .copyin, prom := promiseOf s b.core x }) →
      (x.state = .absent ∨ x.state = .runahead) →
      BlockAfter c s t (onlyWin n (fun x' y => y = touchedWin (promiseOf s b.core x) x')) noneOf := fun ht hst =>
    blockAfter_withWin hb ht (by rw [hx]; exact (if_pos hst).symm)
  by_cases habsent : x.state = .absent
  · rw [touch_of_absent hb hx habsent, if_pos habsent, applyAll_seq]
    exact ⟨hput ((framed_queueCopy _ _).same _ .blocks (by simp)) (.inl habsent), copyQueued_queueCopy _ _ _⟩
  · rw [if_neg habsent]
    by_cases hra : x.state = .runahead
    · rw [touch_of_runahead hb hx hra]
      exact ⟨hput rfl (.inr hra), rfl⟩
    · have hother : ¬(x.state = .absent ∨ x.state = .runahead) := by simp [habsent, hra]
      rw [touch_of_other hb hx hother]
      refine ⟨blockAfter_refl rfl (fun b' hb' m => ?_) fun _ _ _ => rfl, rfl⟩
      obtain rfl : b = b' := Option.some.inj (hb.symm.trans hb')
      unfold onlyWin
      split
      · next hm => rw [hm, hx]; exact (if_neg hother).symm
      · rfl

/-- What a wtouch returns (R231). -/
def touchedValue (n : Nat) (b : Option Block) : Nat :=
  match b with
  | some b => if (getWin b n).state == .copyin then (getWin b n).prom else 0
  | none => 0

theorem touchedValue_of_touched {n p : Nat} {b : Block} {x : Win} (h : getWin b n = touchedWin p x) :
    touchedValue n (some b) = match x.state with
      | .absent => p
      | .runahead => p
      | .copyin => x.prom
      | _ => 0 := by
  cases hst : x.state <;> simp [touchedValue, h, touchedWin, hst]

/-- A promise looks at the clock, the core's couriers and the free value (R231). -/
theorem promiseOf_carded (c : Ctx) (s : State) (core : Nat) (x : Win) : promiseOf (carded c s) core x = promiseOf s core x := by
  have hclk : (carded c s).clk = s.clk := same_carded c s .clk (by decide)
  simp only [promiseOf, courierWait, hclk, getCore_carded, fresh_carded]

theorem wtouch_done {w : UniW} {s : State} {c : Ctx} {b : Block} {x : Win} (h : Issues (.wtouch w) anyProfile s c)
    (hb : mfind s.blocks c.blkId = some b) (hn : c.ub w < b.winN) (hx : getWin b (c.ub w) = x) (hbound : x.state ≠ .unbound) :
    ∃ t, exec (.wtouch w) s = .next t ∧
      Completes c s t [.blocks, .cores] [] (KWritten w.d (match x.state with
        | .absent => promiseOf s b.core x
        | .runahead => promiseOf s b.core x
        | .copyin => x.prom
        | _ => 0)) none ∧
      BlockAfter c s t (onlyWin (c.ub w) (fun x' y => y = touchedWin (promiseOf s b.core x) x')) noneOf ∧
      if x.state = .absent then
        CopyQueued (touchJob s c.queuer c.blkId (c.ub w) x) (getCore s b.core).copyq (getCore t b.core).copyq
      else (getCore t b.core).copyq = (getCore s b.core).copyq := by
  obtain rfl : c.blk = b := Option.some.inj ((ctxHere_block h.1).symm.trans hb)
  have hcard := same_carded c s
  obtain ⟨-, hafter⟩ := (touch_done (q := c.queuer) hb hx).1
  obtain ⟨b', hb', -, hwins, -⟩ := hafter _ hb
  have htouched := hwins (c.ub w)
  rw [onlyWin, if_pos rfl, hx] at htouched
  obtain ⟨t, ht, hc, hsame⟩ := completes_framed h rfl ((withBound_of_bound hn (hx ▸ hbound) _).trans rfl) rfl
    (framed_touch _ _ _) (kWritten_putU w.d (touchedValue (c.ub w) (mfind (applyAll (touch c.queuer c.blkId (c.ub w) s) s).blocks c.blkId)))
  rw [hb', touchedValue_of_touched htouched] at hc
  obtain ⟨hblock, hqueue⟩ := touch_done (q := c.queuer) (blocks_carded c s ▸ hb) hx
  have hclk : (carded c s).clk = s.clk := hcard .clk (by decide)
  simp only [promiseOf_carded, getCore_carded, touchJob, hclk] at hblock hqueue
  refine ⟨t, ht, hc, hblock.congr (blocks_carded c s) (hsame .blocks (by simp)), ?_⟩
  rw [getCore_of_same hsame]
  exact hqueue

/-- Settles O34: each form's body completes with its change of the window, its postmark and the queue of its core. -/
theorem windowForks : Obligations.WindowForks := by
  unfold Obligations.WindowForks
  exact ⟨⟨fun w s c b x => wabs_done, fun w s c b x => wpost_done⟩,
    fun w s c b x h hb _ hn hx hbound => wtouch_done h hb hn hx hbound⟩

end Sys2Proof.Machine
end

section
/-! PROOFS. Rings made and acquired from (O35: R243 to R245). -/

namespace Sys2Proof.Machine

/-! ## A ring put into its block -/

theorem blocks_setRing {s : State} {blk : Nat} {b : Block} (hb : mfind s.blocks blk = some b) (n : Nat) (r : Ring) :
    (applyAll (setRing blk n r s) s).blocks = mput s.blocks blk { b with rings := mput b.rings n r } := by
  simp [setRing, hb]

/-- A block with one ring put. -/
theorem blockAfter_withRing {c : Ctx} {s t : State} {b : Block} {n : Nat} {r : Ring} (hb : mfind s.blocks c.blkId = some b)
    (ht : t.blocks = mput s.blocks c.blkId { b with rings := mput b.rings n r }) : BlockAfter c s t noneOf (onlyRing n r) := by
  refine ⟨fun q hq => by rw [ht, mfind_mput_other _ _ _ _ hq], fun b' hb' => ?_⟩
  obtain rfl : b = b' := Option.some.inj (hb.symm.trans hb')
  exact ⟨{ b with rings := mput b.rings n r }, by rw [ht, mfind_mput_same], rfl, fun _ => rfl, fun m => mfind_mput _ _ _ _⟩

/-! ## RING.GET (R245) -/

theorem withRing_of_ring {c : Ctx} {s : State} {b : Block} {n : Nat} {r : Ring} (hb : mfind s.blocks c.blkId = some b)
    (hr : mfind b.rings n = some r) (k : Ring → Res) : withRing c s n k = k r := by
  simp only [withRing, ringAt, hb, Option.bind_some, hr]

theorem ringGet_done {w : UniW} {s : State} {c : Ctx} {b : Block} {r : Ring} (h : Issues (.ringGet w) anyProfile s c)
    (hb : mfind s.blocks c.blkId = some b) (hr : mfind b.rings (ringNum w) = some r) (hfull : countDiff r.p r.a ≠ 0) :
    ∃ t, exec (.ringGet w) s = .next t ∧
      Completes c s t [.blocks] [] (KWritten w.d ((ringHeader s b r (r.a % r.ns)).toNat / 2 ^ 32 * 2 ^ 32 + r.a % r.ns)) none ∧
      BlockAfter c s t noneOf (onlyRing (ringNum w) { r with a := (r.a + 1) % 2 ^ 32 }) := by
  have htag : ringTag s c.blkId r = (ringHeader s b r (r.a % r.ns)).toNat / 2 ^ 32 * 2 ^ 32 + r.a % r.ns := by simp only [ringTag, hb]
  obtain ⟨t, ht, hc, hsame⟩ := completes_framed h rfl ((withRing_of_ring hb hr _).trans (if_pos (by simp [ringFull, hfull]))) rfl
    (framed_setRing _ _ _) (kWritten_putU w.d (ringTag s c.blkId r))
  have hcard := blocks_carded c s
  have hblock := blockAfter_withRing (hcard ▸ hb) ((hsame .blocks (by simp)).trans (blocks_setRing (hcard ▸ hb) _ _))
  exact ⟨t, ht, htag ▸ hc, hblock.congr hcard rfl⟩

/-! ## Pending releases forgotten (R244) -/

/-- An agent's own, without the pending releases of a ring. -/
def ringDropped (n : Nat) (u : UCtx) : UCtx := { u with pend := u.pend.filter (fun p => pendRing p != some n) }

/-- A group without its pending releases of a ring. -/
def groupDropped (n : Nat) (g : Group) : Group := { g with u := ringDropped n g.u }

/-- The stream of a block loses its pending releases of a ring. -/
def dropStreamPends (blk n : Nat) : Eff := fun s =>
  match streamOfBlk s blk with
  | some (p, t) => [.stream p { t with u := ringDropped n t.u }]
  | none => []

theorem keepsG_pend (g : Group) (l : List Pend) : KeepsG [.pend] g { g with u := { g.u with pend := l } } := by
  refine ⟨⟨rfl, rfl, rfl, rfl, rfl⟩, rfl, fun _ => rfl, fun x hx => ?_⟩
  cases x with
  | pend => exact absurd (List.mem_singleton_self _) hx
  | live => exact ⟨rfl, rfl⟩
  | rs => exact fun _ => rfl
  | loop | ops | strap | stopped => trivial
  | _ => rfl

theorem dropRingPends_eq (blk n : Nat) (s : State) :
    dropRingPends blk n s = Eff.seq (eachGroup blk (groupDropped n)) (dropStreamPends blk n) s := by
  have hstreams := (eachGroup_keeps blk (groupDropped n) s).2
  simp only [Eff.seq, dropStreamPends, streamOfBlk, hstreams]
  rfl

theorem dropStreamPends_keeps (blk n : Nat) (s : State) :
    Same [] s (applyAll (dropStreamPends blk n s) s) ∧ (applyAll (dropStreamPends blk n s) s).groups = s.groups ∧
    ∀ p y, mfind s.streams p = some y → y.blk = blk →
      ∃ y', mfind (applyAll (dropStreamPends blk n s) s).streams p = some y' ∧ y'.blk = blk := by
  unfold dropStreamPends
  cases hx : streamOfBlk s blk with
  | none => exact ⟨Same.refl _ _, rfl, fun p y hy hblk => ⟨y, hy, hblk⟩⟩
  | some e =>
    obtain ⟨q, x⟩ := e
    refine ⟨fun z _ => by cases z <;> rfl, rfl, fun p y hy hblk => ?_⟩
    simp only [applyAll_cons, applyAll_nil, Upd.apply_stream_streams]
    by_cases hp : p = q
    · subst hp
      exact ⟨_, mfind_mput_same _ _ _, by simpa using List.find?_some hx⟩
    · exact ⟨y, (mfind_mput_other _ _ _ _ hp).trans hy, hblk⟩

/-! ## RING.INIT (R243) -/

/-- What ring.init does: the headers hold 0, the ring's pending releases are forgotten, its counts are 0. -/
def initRing (blk n a : Nat) (r : Ring) : Eff :=
  Eff.all [fun _ => [.spad (cellsAt a (List.replicate (8 * r.ns) 0))], dropRingPends blk n, setRing blk n r]

theorem initRing_done {c : Ctx} {s : State} {b : Block} (hsort : sortedKeys s.groups = true) (hb : mfind s.blocks c.blkId = some b)
    (n a : Nat) (r : Ring) :
    Same [.blocks, .spad] s (applyAll (initRing c.blkId n a r s) s) ∧
    BlockAfter c s (applyAll (initRing c.blkId n a r s) s) noneOf (onlyRing n r) ∧
    SpadAfter s (applyAll (initRing c.blkId n a r s) s) a r.ns (fun _ => 0) ∧
    (∀ q, mfind (applyAll (initRing c.blkId n a r s) s).groups q = (mfind s.groups q).map (inBlk c.blkId (groupDropped n))) ∧
    ∀ p y, mfind s.streams p = some y → y.blk = c.blkId →
      ∃ y', mfind (applyAll (initRing c.blkId n a r s) s).streams p = some y' ∧ y'.blk = c.blkId := by
  have hspad := framed_spad fun _ => cellsAt a (List.replicate (8 * r.ns) 0)
  have hring := framed_setRing c.blkId n r
  simp only [initRing, applyAll_all_cons, applyAll_all_nil, dropRingPends_eq, applyAll_seq]
  have hwritten : (applyAll [.spad (cellsAt a (List.replicate (8 * r.ns) 0))] s).spad =
    writeCells s.spad (cellsAt a (List.replicate (8 * r.ns) 0)) := rfl
  have hsame1 := hspad.same s
  have hgroups1 := hspad.groups s
  have hstreams1 := hspad.streams s
  generalize applyAll [.spad (cellsAt a (List.replicate (8 * r.ns) 0))] s = s1 at *
  obtain ⟨hsame2, hstreams2⟩ := eachGroup_keeps c.blkId (groupDropped n) s1
  have hgroups2 := mfind_eachGroup (hgroups1 ▸ hsort) c.blkId (groupDropped n)
  generalize applyAll (eachGroup c.blkId (groupDropped n) s1) s1 = s2 at *
  obtain ⟨hsame3, hgroups3, hblk3⟩ := dropStreamPends_keeps c.blkId n s2
  generalize applyAll (dropStreamPends c.blkId n s2) s2 = s3 at *
  have hkept : Same [.spad] s s3 := hsame1.trans ((hsame2.trans hsame3).mono (List.nil_subset _))
  have hb3 : mfind s3.blocks c.blkId = some b := (hkept .blocks (by simp)) ▸ hb
  refine ⟨(hkept.mono (by simp)).trans ((hring.same s3).mono (by simp)),
    (blockAfter_withRing hb3 (blocks_setRing hb3 n r)).congr (hkept .blocks (by simp)) rfl,
    spadAfter_cells (bs := List.replicate (8 * r.ns) 0) ?_ List.length_replicate fun i hi => ?_, fun q => ?_, fun p y hy hblk => ?_⟩
  · exact ((hring.same s3 .spad (by simp)).trans ((hsame2.trans hsame3) .spad (by simp))).trans hwritten
  · simp [hi]
  · rw [hring.groups, hgroups3, hgroups2, hgroups1]
  · rw [hring.streams]
    exact hblk3 p y (hstreams2 ▸ hstreams1 ▸ hy) hblk

/-- A word of a group or a stream whose body completes with an operation that changes the groups of its block and keeps the stream
in its place: how it ends, from the state that its USPLIT card leaves. -/
theorem completes_eachGroup {i : Instr} {s : State} {c : Ctx} {body : Ctx → State → Res} {d : Done} {own : List Own}
    {f : Group → Group} (h : Issues i anyProfile s c) (hx : exec i s = issue i body s) (hb : body c s = .done d)
    (hgo : d.go = .seq) (hregs : ∀ r, d.regs r = r) (hkeep : ∀ g, KeepsG own g (f g))
    (hgroups : ∀ q, mfind (applyAll (d.eff (carded c s)) (carded c s)).groups q =
      (mfind (carded c s).groups q).map (inBlk c.blkId f))
    (hstreams : ∀ p y, mfind (carded c s).streams p = some y → y.blk = c.blkId →
      ∃ y', mfind (applyAll (d.eff (carded c s)) (carded c s)).streams p = some y' ∧ y'.blk = c.blkId) :
    ∃ t, exec i s = .next t ∧ Same [] (applyAll (d.eff (carded c s)) (carded c s)) t ∧
      (∀ q, q ≠ c.key ∨ c.strm = true → mfind t.groups q = (mfind s.groups q).map (inBlk c.blkId f)) ∧
      (c.strm = false → ∃ g h, mfind s.groups c.key = some g ∧ mfind t.groups c.key = some h ∧
        GroupAfter c own RegsKept (fun _ => c.next) g h) := by
  cases hs : c.strm with
  | false =>
    obtain ⟨t, ht, hsame, -, hothers, g, k, hg, hk, -, -, hafter⟩ := completes_groups h hx hb hs hgo hregs hkeep hgroups
    exact ⟨t, ht, hsame, fun q hq => hothers q (hq.resolve_right (by simp)), fun _ => ⟨g, k, hg, hk, hafter⟩⟩
  | true =>
    obtain ⟨iss, -, hctx⟩ := ctxHere_iss h.1
    obtain ⟨x, hstr, hblk, -⟩ := ctxOf_stream hctx hs
    obtain ⟨y, hy, hyblk⟩ := hstreams c.key x (streams_carded c s ▸ hstr) hblk
    obtain ⟨hsame, -, -, hkept⟩ := finish_stream c d (carded c s) y hs hy hyblk
    refine ⟨_, hx.trans (issue_done h hb), hsame, fun q _ => ?_, fun hf => by cases hf⟩
    exact ((congrArg (mfind · q) hkept).trans (hgroups q)).trans (by rw [groups_carded])

/-- A group after the pending releases of a ring are forgotten. -/
theorem groupDropped_pend (blk n : Nat) (g : Group) :
    inBlk blk (groupDropped n) g = { g with u := { g.u with pend := (inBlk blk (groupDropped n) g).u.pend } } ∧
    (inBlk blk (groupDropped n) g).u.pend = if g.blk = blk then g.u.pend.filter (fun p => pendRing p ≠ some n) else g.u.pend := by
  unfold inBlk
  split
  · refine ⟨rfl, List.filter_congr fun p _ => ?_⟩
    rw [decide_not, bne, beq_eq_decide]
  · exact ⟨rfl, rfl⟩

theorem ringInit_done {w : UniW} {s : State} {c : Ctx} {b : Block} (h : Issues (.ringInit w) anyProfile s c)
    (hsort : sortedKeys s.groups = true) (hb : mfind s.blocks c.blkId = some b) (halign : c.ua w % 8 = 0)
    (hfit : c.ua w + 8 * (fs w 5 0 + 1) ≤ b.spSize) :
    ∃ t, exec (.ringInit w) s = .next t ∧ Same (cardParts c s ++ [.blocks, .spad]) s t ∧
      BlockAfter c s t noneOf (onlyRing (fs w 8 6) { base := c.ua w, ns := fs w 5 0 + 1 }) ∧
      SpadAfter s t (blkByte b (c.ua w)) (fs w 5 0 + 1) (fun _ => 0) ∧
      (∀ q g, q ≠ c.key ∨ c.strm = true → mfind s.groups q = some g → ∃ h, mfind t.groups q = some h ∧
        h = { g with u := { g.u with pend := h.u.pend } } ∧
        h.u.pend = if g.blk = c.blkId then g.u.pend.filter (fun p => pendRing p ≠ some (fs w 8 6)) else g.u.pend) ∧
      (c.strm = false → ∃ g h, mfind s.groups c.key = some g ∧ mfind t.groups c.key = some h ∧
        GroupAfter c [.pend] RegsKept (fun _ => c.next) g h) := by
  obtain rfl : c.blk = b := Option.some.inj ((ctxHere_block h.1).symm.trans hb)
  have hcard : Same (cardParts c s) s (carded c s) := same_splitCard c s
  obtain ⟨hsame, hblock, hspad, hgroups, hstreams⟩ := initRing_done (c := c) (groups_carded c s ▸ hsort) (blocks_carded c s ▸ hb)
    (fs w 8 6) (blkByte c.blk (c.ua w)) { base := c.ua w, ns := fs w 5 0 + 1 }
  obtain ⟨t, ht, hfinish, hothers, hown⟩ := completes_eachGroup (f := groupDropped (fs w 8 6))
    (d := { act := c.lanes, eff := initRing c.blkId (fs w 8 6) (blkByte c.blk (c.ua w)) { base := c.ua w, ns := fs w 5 0 + 1 } })
    h rfl (if_neg (by simpa only [halign, Bool.or_eq_true, decide_eq_true_eq, not_or, not_lt, ne_eq, not_not, true_and])) rfl (fun _ => rfl)
    (fun g => keepsG_pend g _) hgroups hstreams
  refine ⟨t, ht, ?_, hblock.congr (blocks_carded c s) (hfinish .blocks (by simp)),
    hspad.congr (same_carded c s .spad (by decide)) (hfinish .spad (by simp)), fun q g hq hg => ?_, hown⟩
  · exact (hcard.mono (by simp +contextual)).trans
      ((hsame.mono (by simp +contextual)).trans (hfinish.mono (List.nil_subset _)))
  · exact ⟨_, by rw [hothers q hq, hg, Option.map_some], groupDropped_pend _ _ g⟩

end Sys2Proof.Machine
end

section
/-! PROOFS. Releases of ring slots (O35: R245, R246). -/

namespace Sys2Proof.Machine

/-! ## What a release changes of its agent -/

theorem keepsS_pend (y : Stream) (l : List Pend) : KeepsS [.pend] y { y with u := { y.u with pend := l } } := by
  refine ⟨rfl, rfl, rfl, rfl, fun x hx => ?_⟩
  cases x with
  | pend => exact absurd (List.mem_singleton_self _) hx
  | wstat | arrived | rs | ops | strap | stopped => rfl
  | _ => trivial

/-- A change of what a word's own agent has pending. -/
theorem ownFramed_setPend {c : Ctx} {a : Agent} (ha : a = if c.strm then .stream c.key else .group c.key) (F : List Pend → List Pend) :
    OwnFramed c [] [.pend] (setU a fun u => { u with pend := F u.pend }) := by
  have hwithin := within_setU a fun u => { u with pend := F u.pend }
  refine ⟨fun s => (hwithin s).1, fun s => ⟨fun q hq => (hwithin s).2.1 q ?_, fun q hq => (hwithin s).2.2 q ?_⟩,
    fun s g hs hg _ => ⟨_, ?_, keepsG_pend g (F g.u.pend)⟩, fun s y hs hy _ => ⟨_, ?_, keepsS_pend y (F y.u.pend)⟩⟩
  · rw [ha]; cases hs : c.strm <;> simp_all [groupPlaces]
  · rw [ha]; cases hs : c.strm <;> simp_all [streamPlaces]
  · simp [ha, hs, setU, hg]
  · simp [ha, hs, setU, hy]

theorem ownFramed_takeRing {c : Ctx} {a : Agent} (ha : a = if c.strm then .stream c.key else .group c.key) :
    OwnFramed c [.blocks, .spad] [.pend] (takeRing a) := ownFramed_of fun s => by
  unfold takeRing
  split
  · next p _ _ =>
    exact ⟨_, rfl, ((ownFramed_setPend ha (·.erase p)).mono (by simp) (List.Subset.refl _)).seq ((framed_recordRing _ _).own _)⟩
  · exact ⟨Eff.nop, rfl, (framed_nop _).own _⟩

theorem ownFramed_ringRelease {c : Ctx} {a : Agent} (ha : a = if c.strm then .stream c.key else .group c.key) (k : PendKind) :
    OwnFramed c [.blocks, .spad] [.pend] (ringRelease a k) :=
  ownFramed_of fun s => ⟨Eff.all [setU a (fun u => { u with pend := u.pend ++ [{ kind := k, after := s.nextId }] }),
      fun s => [.nextId (s.nextId + 1)], takeRing a], rfl, ownFramed_all _ fun f hf => by
    simp only [List.mem_cons, List.not_mem_nil, or_false] at hf
    rcases hf with rfl | rfl | rfl
    · exact (ownFramed_setPend ha (· ++ [{ kind := k, after := s.nextId }])).mono (by simp) (List.Subset.refl _)
    · exact ((framed_nextId _).mono (by simp)).own _
    · exact ownFramed_takeRing ha⟩

/-! ## A release recorded (R246) -/

theorem ringHeader_congr {s t : State} (h : t.spad = s.spad) (b : Block) (r : Ring) (slot : Nat) :
    ringHeader t b r slot = ringHeader s b r slot := by
  rw [ringHeader, h, ringHeader]

/-- The slot whose header the record of a release writes. -/
def recordedSlot (k : PendKind) (r : Ring) : Nat :=
  match k with
  | .put _ slot _ => slot
  | _ => r.f % r.ns

/-- The header that it writes there. -/
def recordedHeader (k : PendKind) (h : DWord) : DWord :=
  match k with
  | .put _ _ tag => headerOf tag.toNat (!bit h.toNat 0) (bit h.toNat 1)
  | _ => headerOf (h.toNat / 2 ^ 32) (bit h.toNat 0) (!bit h.toNat 1)

theorem recordRing_eq {s : State} {x : Party} {p : Pend} {n : Nat} {r : Ring} (hp : pendRing p = some n)
    (hr : ringAt s x.blk n = some r) :
    recordRing x p s = Eff.seq (putHeader x.blk r (recordedSlot p.kind r) (recordedHeader p.kind))
      (setRing x.blk n (ringCounted p.kind r)) s := by
  unfold pendRing at hp
  cases hk : p.kind with
  | put m slot tag =>
    simp only [hk, Option.some.injEq] at hp
    subst hp
    simp only [recordRing, hk, hr]
    rfl
  | putFree m =>
    simp only [hk, Option.some.injEq] at hp
    subst hp
    simp only [recordRing, hk, hr]
    rfl
  | _ => simp [hk] at hp

/-- A release recorded: its header is written and its ring counts it. -/
theorem recordRing_done {c : Ctx} {s : State} {b : Block} {n : Nat} {r : Ring} {x : Party} {p : Pend}
    (hb : mfind s.blocks c.blkId = some b) (hr : mfind b.rings n = some r) (hblk : x.blk = c.blkId) (hp : pendRing p = some n) :
    BlockAfter c s (applyAll (recordRing x p s) s) noneOf (onlyRing n (ringCounted p.kind r)) ∧
    SpadAfter s (applyAll (recordRing x p s) s) (blkByte b (r.base + 8 * recordedSlot p.kind r)) 1
      (fun _ => recordedHeader p.kind (ringHeader s b r (recordedSlot p.kind r))) := by
  rw [recordRing_eq hp (by rw [hblk, ringAt, hb]; exact hr), hblk, applyAll_seq]
  have hheader := framed_putHeader c.blkId r (recordedSlot p.kind r) (recordedHeader p.kind)
  have hspad : (applyAll (putHeader c.blkId r (recordedSlot p.kind r) (recordedHeader p.kind) s) s).spad =
      writeCells s.spad (cellsAt (blkByte b (r.base + 8 * recordedSlot p.kind r))
        (toBytes 8 (recordedHeader p.kind (ringHeader s b r (recordedSlot p.kind r))).toNat)) := by
    simp [putHeader, hb]
  have hblocks := hheader.same s .blocks (by simp)
  generalize applyAll (putHeader c.blkId r (recordedSlot p.kind r) (recordedHeader p.kind) s) s = s1 at *
  have hb1 : mfind s1.blocks c.blkId = some b := (congrArg (mfind · c.blkId) hblocks).trans hb
  exact ⟨(blockAfter_withRing hb1 (blocks_setRing hb1 n _)).congr hblocks rfl,
    spadAfter_dword (((framed_setRing _ _ _).same s1 .spad (by simp)).trans hspad)⟩

/-- A ring put twice. -/
theorem BlockAfter.ring_trans {c : Ctx} {s t u : State} {n : Nat} {r r' : Ring} (h : BlockAfter c s t noneOf (onlyRing n r))
    (k : BlockAfter c t u noneOf (onlyRing n r')) : BlockAfter c s u noneOf (onlyRing n r') := by
  refine ⟨fun q hq => (k.1 q hq).trans (h.1 q hq), fun b hb => ?_⟩
  obtain ⟨b1, hb1, heq1, hwin1, hring1⟩ := h.2 b hb
  obtain ⟨b2, hb2, heq2, hwin2, hring2⟩ := k.2 b1 hb1
  refine ⟨b2, hb2, heq2.trans (by rw [heq1]), fun m => (hwin2 m).trans (hwin1 m), fun m => ?_⟩
  have h1 := hring1 m
  have h2 := hring2 m
  unfold onlyRing at *
  split
  · next hm => rw [h2, if_pos hm]
  · next hm => rw [h2, if_neg hm, h1, if_neg hm]

/-- Whether a release is recorded at once looks at what is before it and at its ring. -/
theorem ringPendReady_congr {s t : State} {x y : Party} (p : Pend) (hcoh : t.coh = s.coh) (hblocks : t.blocks = s.blocks)
    (hblk : y.blk = x.blk) (hsq : y.sq = x.sq) (hops : y.ops = x.ops) : ringPendReady t y p = ringPendReady s x p := by
  simp only [ringPendReady, earlierDone, relReady, ringAt_congr hblocks, hcoh, hblk, hsq, hops]

/-- The one pending release of an agent: recorded, else nothing happens. -/
theorem takeRing_done {s : State} {a : Agent} {x : Party} {p : Pend} (hx : partyOf s a = some x) (hpend : x.u.pend = [p])
    (hp : (pendRing p).isSome = true) :
    if ringPendReady s x p = true then
      ∃ s1, s1.blocks = s.blocks ∧ s1.spad = s.spad ∧ applyAll (takeRing a s) s = applyAll (recordRing x p s1) s1
    else applyAll (takeRing a s) s = s := by
  have hnow : ringPendNow s a = if ringPendReady s x p = true then some p else none := by
    simp only [ringPendNow, hx, hpend, List.find?_cons, hp, Bool.true_and, List.find?_nil]
    cases ringPendReady s x p <;> rfl
  by_cases hready : ringPendReady s x p = true
  · rw [if_pos hready] at hnow ⊢
    have hset := within_setU a fun u => { u with pend := u.pend.erase p }
    refine ⟨_, (hset s).1 .blocks (by simp), (hset s).1 .spad (by simp), ?_⟩
    simp only [takeRing, hx, hnow, applyAll_seq]
  · rw [if_neg hready] at hnow ⊢
    simp only [takeRing, hx, hnow, applyAll_nil]

/-- A release that issues: recorded at once where nothing holds it back, else pending. -/
theorem ringRelease_done {c : Ctx} {s : State} {b : Block} {n : Nat} {r : Ring} {a : Agent} {x : Party} {p : Pend} {k : PendKind}
    (hb : mfind s.blocks c.blkId = some b) (hr : mfind b.rings n = some r) (hx : partyOf s a = some x) (hxblk : x.blk = c.blkId)
    (hpend : x.u.pend = []) (hpk : p = { kind := k, after := s.nextId }) (hp : pendRing p = some n) {t : State}
    (ht : t = applyAll (ringRelease a k s) s) :
    if ringPendReady s x p = true then
      BlockAfter c s t noneOf (onlyRing n (ringCounted k r)) ∧
      SpadAfter s t (blkByte b (r.base + 8 * recordedSlot k r)) 1 (fun _ => recordedHeader k (ringHeader s b r (recordedSlot k r)))
    else t.blocks = s.blocks ∧ t.spad = s.spad ∧ agentU t a = some { x.u with pend := [p] } := by
  simp only [ringRelease, ← hpk, applyAll_all_cons, applyAll_all_nil] at ht
  have hset := (within_setU a (fun u => { u with pend := u.pend ++ [p] })).seq
    ((framed_nextId (fun s => s.nextId + 1)).within (groupPlaces a) (streamPlaces a)) s
  have hu := agentU_setU (fun u => { u with pend := u.pend ++ [p] }) (agentU_of_partyOf hx)
  have hparty := leaves_seq PartyKept.trans (partyKept_setU a (fun u => { u with pend := u.pend ++ [p] }))
    (fun s => partyKept_of_agents (a := a) ((framed_nextId (fun s => s.nextId + 1)).groups s)
      ((framed_nextId (fun s => s.nextId + 1)).streams s)) s x hx
  rw [← (framed_nextId (fun s => s.nextId + 1)).agentU, hpend, List.nil_append] at hu
  rw [applyAll_seq] at hset hparty
  generalize applyAll (setU a (fun u => { u with pend := u.pend ++ [p] }) s) s = s1 at *
  generalize applyAll [.nextId (s1.nextId + 1)] s1 = s2 at *
  obtain ⟨y, hy, -, hblk, hsq, hops⟩ := hparty
  obtain ⟨hsame, -⟩ := hset
  have hblocks : s2.blocks = s.blocks := hsame .blocks (by simp)
  have hspad : s2.spad = s.spad := hsame .spad (by simp)
  have hypend : y.u.pend = [p] := by rw [partyU_of_agentU hu hy]
  have htake := takeRing_done hy hypend (by rw [hp]; rfl)
  have hkind : p.kind = k := by rw [hpk]
  rw [ringPendReady_congr p (hsame .coh (by simp)) hblocks hblk hsq hops, ← ht] at htake
  by_cases hready : ringPendReady s x p = true
  · rw [if_pos hready] at htake ⊢
    obtain ⟨s3, hblocks3, hspad3, htaken⟩ := htake
    have hspad' := hspad3.trans hspad
    have hblocks' := hblocks3.trans hblocks
    obtain ⟨hblock, hcells⟩ := recordRing_done (c := c) ((congrArg (mfind · c.blkId) hblocks').trans hb) hr (hblk.trans hxblk) hp
    rw [hkind, ringHeader_congr hspad'] at hcells
    rw [htaken]
    exact ⟨(hkind ▸ hblock).congr hblocks' rfl, hcells.congr hspad' rfl⟩
  · rw [if_neg hready] at htake ⊢
    subst htake
    exact ⟨hblocks, hspad, hu⟩

/-! ## The releasing words (R245, R246) -/

theorem partyOf_carded (c : Ctx) (s : State) (a : Agent) : partyOf (carded c s) a = partyOf s a := by
  cases a <;> simp only [partyOf, lowSlot, groups_carded, streams_carded, blocks_carded]

/-- The party of a word's agent is of the word's block. -/
theorem partyBlk_of_ctxHere {i : Instr} {s : State} {c : Ctx} {x : Party} (h : ctxHere i s = some c)
    (hx : partyOf s c.iss.agent = some x) : x.blk = c.blkId := by
  obtain ⟨iss, -, hctx⟩ := ctxHere_iss h
  rw [agent_of_ctxHere h] at hx
  cases hs : c.strm with
  | false =>
    obtain ⟨g, hg, -, -, -, -, hblk⟩ := ctxOf_group hctx hs
    simp only [hs, Bool.false_eq_true, if_false, partyOf, hg, Option.map_some, Option.some.injEq] at hx
    rw [← hx, hblk]
  | true =>
    obtain ⟨y, hy, hblk, -⟩ := ctxOf_stream hctx hs
    simp only [hs, if_true, partyOf, hy, Option.map_some, Option.some.injEq] at hx
    rw [← hx, hblk]

theorem earlierDone_carded (c : Ctx) (s : State) (x : Party) : earlierDone (carded c s) x = earlierDone s x := by
  have hcoh : (carded c s).coh = s.coh := same_carded c s .coh (by decide)
  funext after scope
  simp only [earlierDone, relReady, hcoh]

theorem nextId_carded (c : Ctx) (s : State) : (carded c s).nextId = s.nextId := nextId_splitCard c _ s

theorem ringPutFree_done {w : UniW} {s : State} {c : Ctx} {b : Block} {r : Ring} {x : Party}
    (h : Issues (.ringPutFree w) anyProfile s c) (hb : mfind s.blocks c.blkId = some b) (hr : mfind b.rings (ringNum w) = some r)
    (hfree : pendingFrees s c.blkId (ringNum w) < countDiff r.a r.f) (hx : partyOf s c.iss.agent = some x) (hpend : x.u.pend = []) :
    ∃ t, exec (.ringPutFree w) s = .next t ∧ Completes c s t [.blocks, .spad] [.pend] RegsKept none ∧
      if earlierDone s x s.nextId 3 = true then
        BlockAfter c s t noneOf (onlyRing (ringNum w) { r with f := (r.f + 1) % 2 ^ 32 }) ∧
        SpadAfter s t (blkByte b (r.base + 8 * (r.f % r.ns))) 1 (fun _ =>
          headerOf ((ringHeader s b r (r.f % r.ns)).toNat / 2 ^ 32) (bit (ringHeader s b r (r.f % r.ns)).toNat 0)
            (!bit (ringHeader s b r (r.f % r.ns)).toNat 1))
      else t.blocks = s.blocks ∧ t.spad = s.spad ∧
        ∀ y, partyOf t c.iss.agent = some y → y.u.pend = [{ kind := .putFree (ringNum w), after := s.nextId }] := by
  obtain ⟨t, ht, hc, hsame, hagent⟩ := completes_agentU (R := RegsKept) h rfl
    ((withRing_of_ring hb hr _).trans (if_neg (Nat.not_le.2 hfree))) rfl (ownFramed_ringRelease (agent_of_ctxHere h.1) _) fun _ => rfl
  have hblocks := blocks_carded c s
  have hspad : (carded c s).spad = s.spad := same_carded c s .spad (by decide)
  have hdone := ringRelease_done (c := c) (k := .putFree (ringNum w)) (hblocks ▸ hb) hr ((partyOf_carded c s _).trans hx)
    (partyBlk_of_ctxHere h.1 hx) hpend rfl rfl rfl
  refine ⟨t, ht, hc, ?_⟩
  simp only [ringPendReady, earlierDone_carded, nextId_carded, ringHeader_congr hspad, Bool.and_true] at hdone
  split at hdone
  · next hnow =>
    rw [if_pos hnow]
    exact ⟨hdone.1.congr hblocks (hsame .blocks (by simp)), hdone.2.congr hspad (hsame .spad (by simp))⟩
  · next hlater =>
    rw [if_neg hlater]
    obtain ⟨hkept, hcells, hu⟩ := hdone
    refine ⟨(hsame .blocks (by simp)).trans (hkept.trans hblocks), (hsame .spad (by simp)).trans (hcells.trans hspad), fun y hy => ?_⟩
    rw [partyU_of_agentU (hagent _ hu) hy]
    rfl

theorem headerOf_mod (n : Nat) (full free : Bool) : headerOf (n % 2 ^ 32) full free = headerOf n full free := by
  rw [headerOf, Nat.mod_mod, headerOf]

theorem ownFramed_putTakes {c : Ctx} {a : Agent} (ha : a = if c.strm then .stream c.key else .group c.key) (blk n : Nat) (tag : Word) :
    OwnFramed c [.blocks, .spad] [.pend] (putTakes a blk n tag) := ownFramed_of fun s => by
  unfold putTakes
  split
  · exact ⟨_, rfl, (((framed_setRing _ _ _).mono (by simp)).own _).seq (ownFramed_ringRelease ha _)⟩
  · exact ⟨Eff.nop, rfl, (framed_nop _).own _⟩

/-- A put takes the next slot, and is recorded at once where what is before it is done and its slot is the next to be published. -/
theorem putTakes_slot {c : Ctx} {s : State} {b : Block} {n : Nat} {r : Ring} {a : Agent} {x : Party} {tag : Word}
    (hb : mfind s.blocks c.blkId = some b) (hr : mfind b.rings n = some r) (hx : partyOf s a = some x) (hxblk : x.blk = c.blkId)
    (hpend : x.u.pend = []) {t : State} (ht : t = applyAll (putTakes a c.blkId n tag s) s) :
    if earlierDone s x s.nextId 3 = true ∧ r.pr % r.ns = r.p % r.ns then
      BlockAfter c s t noneOf (onlyRing n { r with pr := (r.pr + 1) % 2 ^ 32, p := (r.p + 1) % 2 ^ 32 }) ∧
      SpadAfter s t (blkByte b (r.base + 8 * (r.pr % r.ns))) 1 (fun _ =>
        headerOf tag.toNat (!bit (ringHeader s b r (r.pr % r.ns)).toNat 0) (bit (ringHeader s b r (r.pr % r.ns)).toNat 1))
    else BlockAfter c s t noneOf (onlyRing n { r with pr := (r.pr + 1) % 2 ^ 32 }) ∧ t.spad = s.spad ∧
      agentU t a = some { x.u with pend := [{ kind := .put n (r.pr % r.ns) tag, after := s.nextId }] } := by
  have hring : ringAt s c.blkId n = some r := by
    rw [ringAt, hb]
    exact hr
  simp only [putTakes, hring, applyAll_seq] at ht
  have hset := framed_setRing c.blkId n { r with pr := (r.pr + 1) % 2 ^ 32 }
  have hsame := hset.same s
  have hblocks := blocks_setRing hb n { r with pr := (r.pr + 1) % 2 ^ 32 }
  have htaken := ringAt_setRing hring { r with pr := (r.pr + 1) % 2 ^ 32 }
  have hu := (hset.agentU s a).trans (agentU_of_partyOf hx)
  obtain ⟨y, hy, -, hblk, hsq, hops⟩ := partyKept_of_agents (a := a) (hset.groups s) (hset.streams s) x hx
  have hnext : (applyAll (setRing c.blkId n { r with pr := (r.pr + 1) % 2 ^ 32 } s) s).nextId = s.nextId := by simp [setRing, hb]
  generalize applyAll (setRing c.blkId n { r with pr := (r.pr + 1) % 2 ^ 32 } s) s = s1 at *
  have hyu := partyU_of_agentU hu hy
  have hcoh : s1.coh = s.coh := hsame .coh (by simp)
  have hspad : s1.spad = s.spad := hsame .spad (by simp)
  have hblock := blockAfter_withRing hb hblocks
  have hyblk := hblk.trans hxblk
  have hready : ringPendReady s1 y { kind := .put n (r.pr % r.ns) tag, after := s1.nextId } = true ↔
      earlierDone s x s.nextId 3 = true ∧ r.pr % r.ns = r.p % r.ns := by
    simp only [ringPendReady, earlierDone, relReady, hcoh, hsq, hops, hyblk, htaken, hnext, Bool.and_eq_true, decide_eq_true_eq]
  have hdone := ringRelease_done (c := c) (k := .put n (r.pr % r.ns) tag) (n := n)
    (by rw [hblocks, mfind_mput_same]) (mfind_mput_same _ _ _) hy hyblk (by rw [hyu, hpend]) rfl rfl ht
  simp only [hready] at hdone
  split at hdone
  · next hnow =>
    rw [if_pos hnow]
    rw [ringHeader_congr hspad] at hdone
    exact ⟨hblock.ring_trans hdone.1, hdone.2.congr hspad rfl⟩
  · next hlater =>
    rw [if_neg hlater]
    obtain ⟨hkept, hcells, hpended⟩ := hdone
    exact ⟨hblock.congr rfl hkept, hcells.trans hspad, by rw [hpended, hyu, hnext]⟩

theorem ringPut_done {w : UniW} {s : State} {c : Ctx} {b : Block} {r : Ring} {x : Party} (h : Issues (.ringPut w) anyProfile s c)
    (hb : mfind s.blocks c.blkId = some b) (hr : mfind b.rings (ringNum w) = some r) (hroom : countDiff r.pr r.f < r.ns)
    (hx : partyOf s c.iss.agent = some x) (hpend : x.u.pend = []) :
    ∃ t, exec (.ringPut w) s = .next t ∧ Completes c s t [.blocks, .spad] [.pend] RegsKept none ∧
      if earlierDone s x s.nextId 3 = true ∧ r.pr % r.ns = r.p % r.ns then
        BlockAfter c s t noneOf (onlyRing (ringNum w) { r with pr := (r.pr + 1) % 2 ^ 32, p := (r.p + 1) % 2 ^ 32 }) ∧
        SpadAfter s t (blkByte b (r.base + 8 * (r.pr % r.ns))) 1 (fun _ =>
          headerOf (c.ub w) (!bit (ringHeader s b r (r.pr % r.ns)).toNat 0) (bit (ringHeader s b r (r.pr % r.ns)).toNat 1))
      else BlockAfter c s t noneOf (onlyRing (ringNum w) { r with pr := (r.pr + 1) % 2 ^ 32 }) ∧ t.spad = s.spad ∧
        ∀ y, partyOf t c.iss.agent = some y →
          y.u.pend = [{ kind := .put (ringNum w) (r.pr % r.ns) (BitVec.ofNat 32 (c.ub w)), after := s.nextId }] := by
  obtain ⟨t, ht, hc, hsame, hagent⟩ := completes_agentU (R := RegsKept) h rfl
    ((withRing_of_ring hb hr _).trans (if_pos (by simpa [ringRoom] using hroom))) rfl
    (ownFramed_putTakes (agent_of_ctxHere h.1) _ _ _) fun _ => rfl
  have hblocks := blocks_carded c s
  have hspad : (carded c s).spad = s.spad := same_carded c s .spad (by decide)
  have hdone := putTakes_slot (c := c) (n := ringNum w) (tag := BitVec.ofNat 32 (c.ub w)) (hblocks ▸ hb) hr
    ((partyOf_carded c s _).trans hx) (partyBlk_of_ctxHere h.1 hx) hpend rfl
  refine ⟨t, ht, hc, ?_⟩
  simp only [earlierDone_carded, nextId_carded, ringHeader_congr hspad, BitVec.toNat_ofNat, headerOf_mod] at hdone
  split at hdone
  · next hnow =>
    rw [if_pos hnow]
    exact ⟨hdone.1.congr hblocks (hsame .blocks (by simp)), hdone.2.congr hspad (hsame .spad (by simp))⟩
  · next hlater =>
    rw [if_neg hlater]
    obtain ⟨hblock, hcells, hu⟩ := hdone
    refine ⟨hblock.congr hblocks (hsame .blocks (by simp)), (hsame .spad (by simp)).trans (hcells.trans hspad), fun y hy => ?_⟩
    rw [partyU_of_agentU (hagent _ hu) hy]
    rfl

/-- Settles O35: each form's body completes, with its ring changed, its headers written and its release recorded or pending. -/
theorem ringForms : Obligations.RingForms := by
  unfold Obligations.RingForms
  exact ⟨⟨fun w s c b h hsort hb _ halign hfit => ringInit_done h hsort hb halign hfit, fun w s c b r => ringGet_done⟩,
    fun w s c b r x => ringPut_done, fun w s c b r x => ringPutFree_done⟩

end Sys2Proof.Machine
end

section
/-! PROOFS. What a load reads of its group's own stores (O38: R261). -/

namespace Sys2Proof.Machine

theorem mem_keysOf {ps : List Piece} {p : Piece} {i : Nat} (hp : p ∈ ps) (hi : i < p.len) : byteKey p.place i ∈ keysOf ps :=
  List.mem_flatMap.2 ⟨p, hp, List.mem_map_of_mem (List.mem_range.2 hi)⟩

/-- A function of the bytes of some pieces that depends on their keys alone. -/
theorem flatMap_eq_map_keysOf {α : Type} {ps : List Piece} {F : Piece → Nat → α} {f : Nat × Nat → α}
    (h : ∀ p ∈ ps, ∀ i < p.len, F p i = f (byteKey p.place i)) :
    ps.flatMap (fun p => (List.range p.len).map (F p)) = (keysOf ps).map f := by
  simp only [keysOf, List.map_flatMap, List.map_map]
  exact List.flatMap_congr fun p hp => List.map_congr_left fun i hi => h p hp i (List.mem_range.1 hi)

theorem loadPieces_of_queued {s : State} {core : Nat} {sq : List SqE} {useL1 root : Bool} {ps : List Piece} {f : Nat × Nat → Byte}
    (h : ∀ k ∈ keysOf ps, sqLook sq k = some (.inl (f k))) :
    loadPieces s core sq useL1 root ps = .inl ((keysOf ps).map f) := by
  simp only [loadPieces]
  rw [flatMap_eq_map_keysOf (f := fun k => .inl (f k)) fun p hp i hi => by rw [h _ (mem_keysOf hp hi)],
    List.findSome?_eq_none_iff.2 (by simp)]
  simp

/-- The first pair at a key of a list without repetition is that key's own. -/
theorem find?_zip_of_nodup {α : Type} {ks : List (Nat × Nat)} (hn : ks.Nodup) : ∀ {bs : List α}, bs.length = ks.length →
    ks.map (fun k => (ks.zip bs).find? (fun b => b.1 == k)) = (ks.zip bs).map some := by
  induction ks with
  | nil => intros; rfl
  | cons k ks ih =>
    obtain ⟨hk, hn⟩ := List.nodup_cons.1 hn
    intro bs hlen
    cases bs with
    | nil => cases hlen
    | cons b bs =>
      have hskip : ∀ j ∈ ks, ((k, b) :: ks.zip bs).find? (fun b => b.1 == j) = (ks.zip bs).find? (fun b => b.1 == j) :=
        fun j hj => List.find?_cons_of_neg fun h => hk ((eq_of_beq h : k = j) ▸ hj)
      simp [List.map_congr_left hskip, ih hn (Nat.succ.inj hlen)]

theorem sqLook_append_store {sq : List SqE} {id rel frank : Nat} {it : SqItem} {k : Nat × Nat} (hn : (keysOf it.pieces).Nodup)
    (hk : k ∈ keysOf it.pieces) :
    sqLook (sq ++ [{ id := id, kind := .store, rel := rel, items := [it], frank := frank }]) k =
      some (.inl ((((itemBytes it).find? (fun b => b.1 == k)).map (·.2)).getD 0)) := by
  have hmem : (itemBytes it).find? (fun b => b.1 == k) ∈ (itemBytes it).map some := by
    rw [itemBytes, ← find?_zip_of_nodup hn (length_toBytes _ _)]
    exact List.mem_map_of_mem hk
  obtain ⟨b, -, hb⟩ := List.mem_map.1 hmem
  simp [sqLook, entryLook, ← hb]

/-- Settles O38: the newest entry is looked up first, and its one item holds each of its bytes once. -/
theorem storeForwarded : Obligations.StoreForwarded := by
  unfold Obligations.StoreForwarded
  intro s core sq id rel frank it useL1 root hn
  have hlen := length_toBytes (keysOf it.pieces).length it.data.toNat
  rw [loadPieces_of_queued fun k hk => sqLook_append_store hn hk]
  congr 1
  calc (keysOf it.pieces).map (fun k => (((itemBytes it).find? (fun b => b.1 == k)).map Prod.snd).getD 0)
      = ((itemBytes it).map some).map (fun b => (b.map Prod.snd).getD 0) := by
        rw [itemBytes, ← find?_zip_of_nodup hn hlen, List.map_map]; rfl
    _ = (itemBytes it).map Prod.snd := List.map_map
    _ = toBytes (keysOf it.pieces).length it.data.toNat := List.map_snd_zip (Nat.le_of_eq hlen)

end Sys2Proof.Machine
end

section
/-! PROOFS. The accesses of lanes and uniform words, and the store queue (O39). -/

namespace Sys2Proof.Machine

/-! ## Checked accesses -/

/-- Accesses that pass the checks fill L1 TLBs alone (R265, R283). -/
theorem onCores_locate {s : State} {w : Who} {a : Acc} {n : Nat} {late : Option Nat} {l : List LReq}
    {at_ : List (Nat × List Piece)} {eff : Eff} (h : locate s w a n late l = .ok at_ eff) (t : State) : OnCores (eff t) := by
  unfold locate at h
  repeat (split at h; · cases h)
  dsimp only at h
  split at h
  · split at h <;> cases h
  · cases h
  · cases h
  · cases h
  · next eff' htr _ =>
    unfold windowsThen at h
    split at h
    · cases h
    · cases h
    · cases h
      exact onCores_translate htr t

theorem framed_of_onCores {eff : Eff} (h : ∀ t, OnCores (eff t)) : Framed [.cores] eff :=
  framed_of fun s => ⟨fun _ => eff s, rfl, (h s).framed⟩

theorem takesNoId_of_onCores {eff : Eff} (h : ∀ t, OnCores (eff t)) : TakesNoId eff :=
  takesNoId_of fun s => ⟨fun _ => eff s, rfl, (h s).takesNoId⟩

theorem framed_countAccess (w : Who) (a : Acc) (n : Nat) (l : List LReq) : Framed translParts (countAccess w a n l) :=
  framed_of fun _ => ⟨countForwards _ _ _, rfl, framed_countForwards _ _ _⟩

theorem takesNoId_countAccess (w : Who) (a : Acc) (n : Nat) (l : List LReq) : TakesNoId (countAccess w a n l) :=
  takesNoId_of fun _ => ⟨countForwards _ _ _, rfl, takesNoId_countForwards _ _ _⟩

/-! ## The store queue (R261) -/

/-- A new entry at the end of a group's queue. -/
def queued (c : Ctx) (kind : SqKind) (rel : Nat) (acq : Bool) (items : List SqItem) (id : Nat) (g : Group) : Group :=
  { g with sq := g.sq ++ [{ id := id, kind := kind, rel := rel, items := items, frank := c.frank, acq := acq }] }

theorem keepsG_queued (c : Ctx) (kind : SqKind) (rel : Nat) (acq : Bool) (items : List SqItem) (id : Nat) (g : Group) :
    KeepsG [.sq] g (queued c kind rel acq items id g) := by
  refine ⟨⟨rfl, rfl, rfl, rfl, rfl⟩, rfl, fun _ => rfl, fun x hx => ?_⟩
  cases x with
  | sq => exact absurd (List.mem_singleton_self _) hx
  | live => exact ⟨rfl, rfl⟩
  | rs => exact fun _ => rfl
  | loop | ops | strap | stopped => trivial
  | _ => rfl

theorem pushSq_eq (c : Ctx) (kind : SqKind) (rel : Nat) (acq : Bool) (items : List SqItem) (s : State) :
    pushSq c kind rel acq items s =
      Eff.seq (onGroup c (queued c kind rel acq items s.nextId)) (fun s => [.nextId (s.nextId + 1)]) s := rfl

theorem ownFramed_pushSq (c : Ctx) (kind : SqKind) (rel : Nat) (acq : Bool) (items : List SqItem) :
    OwnFramed c [] [.sq] (pushSq c kind rel acq items) := ownFramed_of fun s =>
  ⟨_, pushSq_eq c kind rel acq items s, (ownFramed_onGroup (keepsG_queued c kind rel acq items s.nextId)).seq ((framed_nextId _).own _)⟩

theorem group_pushSq {c : Ctx} {s : State} {g : Group} (hs : c.strm = false) (hg : mfind s.groups c.key = some g)
    (hu : g.uid = c.uid) (kind : SqKind) (rel : Nat) (acq : Bool) (items : List SqItem) :
    mfind (applyAll (pushSq c kind rel acq items s) s).groups c.key = some (queued c kind rel acq items s.nextId g) := by
  rw [pushSq_eq, applyAll_seq, onGroup_eq hs hg hu]
  exact mfind_mput_same _ _ _

/-! ## Words of a group that change their own group -/

/-- A word of a group whose body completes: its group after it, from what the operation leaves of it. -/
theorem completes_group {i : Instr} {s : State} {c : Ctx} {body : Ctx → State → Res} {d : Done} {xs : List Comp} {own : List Own}
    {R : Regs → Regs → Prop} (h : Issues i anyProfile s c) (hx : exec i s = issue i body s) (hb : body c s = .done d)
    (hgo : d.go = .seq) (he : OwnFramed c xs own d.eff) (hR : ∀ r, R r (d.regs r)) :
    ∃ t, exec i s = .next t ∧ Completes c s t xs own R none ∧ Same [] (applyAll (d.eff (carded c s)) (carded c s)) t ∧
      (c.strm = false → ∀ g, mfind (applyAll (d.eff (carded c s)) (carded c s)).groups c.key = some g →
        ∃ u q x, mfind t.groups c.key = some { g with u := u, sched := q, samp := x }) := by
  obtain ⟨t, ht, hc, hafter⟩ := completes_own h hb he (.inl hgo)
  rw [hgo] at hc
  obtain ⟨hsame, hgroup, -⟩ := hafter (carded c s) rfl
  refine ⟨t, hx.trans ht, hc.regs_mono fun r r' e => e ▸ hR r, hsame, fun hs g hg => ?_⟩
  obtain ⟨x, hx⟩ := hgroup g hs hg
  exact ⟨_, _, x, hx⟩

/-- A word of a group whose operation ends with an entry in the store queue. -/
theorem completes_pushSq {i : Instr} {s : State} {c : Ctx} {body : Ctx → State → Res} {d : Done} {xs : List Comp} {E : Eff}
    {kind : SqKind} {rel : Nat} {acq : Bool} {items : List SqItem}
    (h : Issues i anyProfile s c) (hx : exec i s = issue i body s) (hs : c.strm = false) (hb : body c s = .done d)
    (hgo : d.go = .seq) (hregs : ∀ r, d.regs r = r) (heff : d.eff = Eff.seq E (pushSq c kind rel acq items)) (hE : Framed xs E)
    (hid : TakesNoId E) :
    ∃ t, exec i s = .next t ∧ Completes c s t xs [.sq] RegsKept none ∧
      Same [] (applyAll (E (carded c s)) (carded c s)) t ∧
      ∀ g, mfind s.groups c.key = some g → ∃ h, mfind t.groups c.key = some h ∧
        h.sq = g.sq ++ [{ id := s.nextId, kind := kind, rel := rel, items := items, frank := c.frank, acq := acq }] := by
  have hown : OwnFramed c xs [.sq] d.eff := heff ▸ (hE.own _).seq ((ownFramed_pushSq c _ _ _ _).mono (by simp) fun _ => id)
  obtain ⟨t, ht, hc, hsame, hgroup⟩ := completes_group (R := RegsKept) h hx hb hgo hown hregs
  refine ⟨t, ht, hc, ?_, fun g hg => ?_⟩
  · refine Same.trans ?_ hsame
    rw [heff, applyAll_seq]
    exact (ownFramed_pushSq c _ _ _ _).same _
  · obtain ⟨iss, -, hctx⟩ := ctxHere_iss h.1
    obtain ⟨g', hg', huid, -⟩ := ctxOf_group hctx hs
    obtain rfl : g' = g := Option.some.inj (hg'.symm.trans hg)
    have hg1 : mfind (applyAll (E (carded c s)) (carded c s)).groups c.key = some g' := by
      rw [hE.groups, groups_carded]
      exact hg
    have hpush := group_pushSq hs hg1 huid kind rel acq items
    rw [hid, nextId_carded] at hpush
    obtain ⟨u, q, x, hk⟩ := hgroup hs _ (by rw [heff, applyAll_seq]; exact hpush)
    exact ⟨_, hk, rfl⟩

/-! ## Stores and atomics (O39) -/

theorem withStore_of_passes {s : State} {c : Ctx} {x : StoreCase} {at_ : List (Nat × List Piece)} {eff : Eff}
    (h : storePasses s x at_ eff) (hroom : c.sq.length < 32) (k : State → Eff → List (Nat × List Piece) → Res) :
    withStore c s x.who x.acc x.n x.rs k = k (applyAll (eff s) s) (Eff.seq eff (countAccess x.who x.acc x.n x.rs)) at_ := by
  obtain ⟨hloc, hclear⟩ := h
  have hfull : sqFull c.sq = false := decide_eq_false (Nat.not_le.2 hroom)
  simp only [withStore, hloc, beq_iff_eq, hclear, hfull, Bool.false_eq_true, if_false]

/-- A store or atomic whose body ends with its entry in the queue. -/
theorem storeForm_done {i : Instr} {s : State} {c : Ctx} {x : StoreCase} {at_ : List (Nat × List Piece)} {eff : Eff}
    {body : Ctx → State → Res} {k : State → Eff → List (Nat × List Piece) → Res}
    (h : Issues i anyProfile s c) (hs : c.strm = false) (hp : storePasses s x at_ eff) (hroom : c.sq.length < 32)
    (hx : exec i s = issue i body s) (hb : body c s = withStore c s x.who x.acc x.n x.rs k)
    (hk : ∀ s1 eff, ∃ d, k s1 eff at_ = .done d ∧ d.go = .seq ∧ (∀ r, d.regs r = r) ∧
      d.eff = Eff.seq eff (pushSq c x.kind x.rel (decide (x.sem = 1 ∨ x.sem = 3)) (storeItems x at_))) :
    ∃ t, exec i s = .next t ∧ Completes c s t [.cores, .clusters, .faults] [.sq] RegsKept none ∧
      ∀ g, mfind s.groups c.key = some g → ∃ h, mfind t.groups c.key = some h ∧
        h.sq = g.sq ++ [{ id := s.nextId, kind := x.kind, rel := x.rel, items := storeItems x at_, frank := c.frank
                          acq := decide (x.sem = 1 ∨ x.sem = 3) }] := by
  have hcores := onCores_locate hp.1
  obtain ⟨d, hd, hgo, hregs, heff⟩ := hk (applyAll (eff s) s) (Eff.seq eff (countAccess x.who x.acc x.n x.rs))
  have hE : Framed translParts (Eff.seq eff (countAccess x.who x.acc x.n x.rs)) :=
    ((framed_of_onCores hcores).mono (by decide)).seq (framed_countAccess _ _ _ _)
  obtain ⟨t, ht, hc, -, hsq⟩ := completes_pushSq h hx hs (hb.trans ((withStore_of_passes hp hroom k).trans hd)) hgo hregs heff hE
    ((takesNoId_of_onCores hcores).seq (takesNoId_countAccess _ _ _ _))
  exact ⟨t, ht, hc, hsq⟩

/-- Settles O39: each form's body passes the checks and ends with its entry in the queue. -/
theorem storeForms : Obligations.StoreForms := by
  unfold Obligations.StoreForms
  intro i s c x at_ eff h hs hx hp hroom
  have hrel (sem scope : Nat) : relScope sem scope = if sem = 2 ∨ sem = 3 then scope else 0 := by simp [relScope]
  have hacq (sem : Nat) : (sem == 1 || sem == 3) = decide (sem = 1 ∨ sem = 3) := by simp [Bool.decide_or, beq_eq_decide]
  cases i with
  | st w =>
    cases hx
    exact storeForm_done h hs hp hroom rfl rfl fun s1 eff => ⟨_, rfl, rfl, fun _ => rfl, by rw [← hrel]; rfl⟩
  | kst w =>
    cases hx
    exact storeForm_done h hs hp hroom rfl rfl fun s1 eff => ⟨_, rfl, rfl, fun _ => rfl, rfl⟩
  | atom sub w | cas w =>
    cases hx
    exact storeForm_done h hs hp hroom rfl rfl fun s1 eff => ⟨_, rfl, rfl, fun _ => rfl, by rw [← hrel, ← hacq]; rfl⟩
  | katom w =>
    cases hx
    refine storeForm_done h hs hp hroom rfl rfl fun s1 eff => ⟨_, rfl, rfl, fun _ => rfl, ?_⟩
    simp only [← hrel, ← hacq]
    simp [storeItems]
  | _ => cases hx

end Sys2Proof.Machine
end

section
/-! PROOFS. Loads (O36). -/

namespace Sys2Proof.Machine

/-! ## What a load does beside its value -/

theorem framed_requestFill (core line span : Nat) (nc : Bool) (tags : Map Nat) (frank : Nat) :
    Framed [.coh] (requestFill core line span nc tags frank) := framed_of fun s => by
  unfold requestFill
  dsimp only
  split
  · split
    · exact ⟨Eff.nop, rfl, framed_nop _⟩
    · exact ⟨fun _ => [.coh _], rfl, framed_coh fun _ => _⟩
  · split
    · exact ⟨Eff.nop, rfl, framed_nop _⟩
    · exact ⟨_, rfl, (framed_coh fun _ => _).seq ((framed_countRead _ _ _).mono (by simp))⟩

theorem framed_dropStale (core line : Nat) : Framed [.cores] (dropStale core line) := framed_cores _ fun s u hu => by
  unfold dropStale at hu
  split at hu
  · split at hu
    · cases hu
    · exact ⟨_, _, List.mem_singleton.1 hu⟩
  · cases hu

/-- The parts that the misses of a load change. -/
abbrev missParts : List Comp := [.cores, .coh]

theorem framed_missEffect (core frank span : Nat) (alloc : Bool) (tags : Map Nat) (r : Nat × Nat × Bool) :
    Framed missParts (missEffect core frank span alloc tags r) := framed_of fun s => by
  unfold missEffect
  split
  · exact ⟨Eff.nop, rfl, framed_nop _⟩
  · refine ⟨_, rfl, ((framed_dropStale core _).mono (by simp)).seq ?_⟩
    split
    · exact (framed_requestFill _ _ _ _ _ _).mono (by simp)
    · exact (framed_countRead _ _ _).mono (by simp)

theorem framed_countRoot (frank : Nat) (ps : List Piece) : Framed [] (countRoot frank ps) := framed_forEach _ _ fun p _ => by
  split
  · exact framed_count _ _ _
  · exact framed_nop _

theorem framed_missesEff (c : Ctx) (m : LdMode) (rs : List LReq) (at_ : List (Nat × List Piece)) :
    Framed missParts (missesEff c m rs at_) :=
  framed_forEach _ _ fun e _ => framed_of fun _ =>
    ⟨_, rfl, (framed_forEach _ _ fun _ _ => framed_missEffect _ _ _ _ _ _).seq (((framed_countRoot _ _).mono (by simp)).when _)⟩

theorem framed_hear (core r n : Nat) : Framed [.cores] (hear core r n) := framed_cores _ fun s u hu => by
  unfold hear at hu
  split at hu
  · exact ⟨_, _, List.mem_singleton.1 hu⟩
  · cases hu

theorem keepsG_raiseFloor (lane r n : Nat) (g : Group) : KeepsG [.floors, .ovf] g (raiseFloor lane r n g) := by
  refine ⟨⟨rfl, rfl, rfl, rfl, rfl⟩, rfl, fun _ => rfl, fun x hx => ?_⟩
  cases x with
  | floors | ovf => exact absurd (by simp) hx
  | live => exact ⟨rfl, rfl⟩
  | rs => exact fun _ => rfl
  | loop | ops | strap | stopped => trivial
  | _ => rfl

theorem keepsG_raiseFloors (lanes : List Nat) (r n : Nat) (g : Group) :
    KeepsG [.floors, .ovf] g (lanes.foldl (fun g l => raiseFloor l r n g) g) := by
  induction lanes generalizing g with
  | nil => exact KeepsG.refl _ _
  | cons l ls ih => exact (keepsG_raiseFloor l r n g).trans (ih _)

theorem ownFramed_forEach {α : Type} {c : Ctx} {xs : List Comp} {own : List Own} (l : List α) (f : α → Eff)
    (h : ∀ a ∈ l, OwnFramed c xs own (f a)) : OwnFramed c xs own (Eff.forEach l f) := ownFramed_all _ fun g hg => by
  obtain ⟨a, ha, rfl⟩ := List.mem_map.1 hg
  exact h a ha

theorem ownFramed_heardEff (c : Ctx) (acq : Bool) (lanes : Nat → List Nat) (at_ : List (Nat × List Piece)) :
    OwnFramed c [.cores] [.floors, .ovf] (heardEff c acq lanes at_) :=
  ownFramed_forEach _ _ fun e _ => ownFramed_forEach _ _ fun p _ => by
    split
    · refine ownFramed_of fun s => ⟨_, rfl, ((framed_hear _ _ _).own _).seq ?_⟩
      split
      · exact (ownFramed_onGroup fun g => keepsG_raiseFloors _ _ _ g).mono (by simp) fun _ => id
      · exact (framed_nop _).own _
    · exact (framed_nop _).own _

theorem framed_heardEff (c : Ctx) (lanes : Nat → List Nat) (at_ : List (Nat × List Piece)) :
    Framed [.cores] (heardEff c false lanes at_) :=
  framed_forEach _ _ fun e _ => framed_forEach _ _ fun p _ => by
    split
    · exact framed_of fun s => ⟨_, rfl, (framed_hear _ _ _).seq (framed_nop _)⟩
    · exact framed_nop _

/-! ## A load that passes its checks -/

/-- What comes before a load's value: its translations, and the merges that its lines call for (R309). -/
def loadPre (c : Ctx) (s : State) (at_ : List (Nat × List Piece)) (eff : Eff) : Eff :=
  Eff.seq eff (mergeRuns c.core (at_.flatMap (fun e => physRuns s e.2)))

theorem framed_loadPre {c : Ctx} {s : State} {at_ : List (Nat × List Piece)} {eff : Eff} (h : ∀ t, OnCores (eff t)) :
    Framed homeParts (loadPre c s at_ eff) :=
  ((framed_of_onCores h).mono (by decide)).seq (framed_mergeRuns _ _)

/-- Where no line has privatised copies, no byte changes before a load's value. -/
theorem mem_loadPre {c : Ctx} {s t : State} {at_ : List (Nat × List Piece)} {eff : Eff} (h : ∀ t, OnCores (eff t))
    (hn : noPrivate t) : (applyAll (loadPre c s at_ eff t) t).mem = t.mem := by
  have hsame := (framed_of_onCores h).same t
  have hcoh : (applyAll (eff t) t).coh = t.coh := hsame .coh (by decide)
  rw [loadPre, applyAll_seq, mergeRuns_of_noPrivate (by rw [noPrivate, hcoh]; exact hn)]
  exact hsame .mem (by decide)

theorem noPrivate_carded {c : Ctx} {s : State} (h : noPrivate s) : noPrivate (carded c s) := by
  rw [noPrivate, show (carded c s).coh = s.coh from same_carded c s .coh (by decide)]
  exact h

theorem mem_carded (c : Ctx) (s : State) : (carded c s).mem = s.mem := same_carded c s .mem (by decide)

theorem withLoad_of_passes {c : Ctx} {s : State} {x : LoadCase} {at_ : List (Nat × List Piece)} {eff : Eff}
    {vs : List (Nat × Nat)} (h : loadPasses c s x at_ eff vs) (k : State → Eff → List (Nat × List Piece) → List (Nat × Nat) → Res) :
    withLoad c s x.who x.n x.late x.rs x.mode k = k (readState c s at_ eff) (loadPre c s at_ eff) at_ vs := by
  obtain ⟨hloc, hacq, ⟨hpoison, hblocked⟩, hvals⟩ := h
  simp only [readState] at hpoison hblocked hvals
  have hloc' : locate s x.who x.mode.acc x.n x.late x.rs = .ok at_ eff := hloc
  simp only [withLoad, hloc', hpoison, hblocked, hacq, hvals]
  rfl

/-- The parts that a load may change. -/
abbrev loadParts : List Comp := [.mem, .cores, .clusters, .faults, .coh]

/-- A word that reads and then has an effect on no byte of memory. -/
theorem completes_load {i : Instr} {s : State} {c : Ctx} {x : LoadCase} {at_ : List (Nat × List Piece)} {eff : Eff}
    {vs : List (Nat × Nat)} {body : Ctx → State → Res} {k : State → Eff → List (Nat × List Piece) → List (Nat × Nat) → Res}
    {d : Done} {E : Eff} {own : List Own} {R : Regs → Regs → Prop}
    (h : Issues i anyProfile s c) (hp : loadPasses c s x at_ eff vs) (hx : exec i s = issue i body s)
    (hb : body c s = withLoad c s x.who x.n x.late x.rs x.mode k)
    (hk : k (readState c s at_ eff) (loadPre c s at_ eff) at_ vs = .done d) (hgo : d.go = .seq)
    (heff : d.eff = Eff.seq (loadPre c s at_ eff) E) (hE : OwnFramed c [.cores, .clusters, .faults, .coh] own E)
    (hR : ∀ r, R r (d.regs r)) :
    ∃ t, exec i s = .next t ∧ Completes c s t loadParts own R none ∧ (noPrivate s → t.mem = s.mem) ∧
      (c.strm = false → ∀ g, mfind (applyAll (d.eff (carded c s)) (carded c s)).groups c.key = some g →
        ∃ u q x, mfind t.groups c.key = some { g with u := u, sched := q, samp := x }) := by
  have hcores := onCores_locate hp.1
  have hown : OwnFramed c loadParts own d.eff :=
    heff ▸ (((framed_loadPre hcores).own own).mono (by decide) fun _ => id).seq (hE.mono (by decide) fun _ => id)
  obtain ⟨t, ht, hc, hsame, hgroup⟩ := completes_group h hx (hb.trans ((withLoad_of_passes hp k).trans hk)) hgo hown hR
  refine ⟨t, ht, hc, fun hn => ?_, hgroup⟩
  calc t.mem = (applyAll (d.eff (carded c s)) (carded c s)).mem := hsame .mem (by decide)
    _ = (applyAll (loadPre c s at_ eff (carded c s)) (carded c s)).mem := by
      rw [heff, applyAll_seq]
      exact hE.same _ .mem (by decide)
    _ = (carded c s).mem := mem_loadPre hcores (noPrivate_carded hn)
    _ = s.mem := mem_carded c s

/-- What a load does after its value: its accesses are counted, its misses fill, it hears rounds. -/
def afterLoad (c : Ctx) (x : LoadCase) (lanes : Nat → List Nat) (at_ : List (Nat × List Piece)) : Eff :=
  Eff.all [countAccess x.who x.mode.acc x.n x.rs, missesEff c x.mode x.rs at_, heardEff c x.mode.acq lanes at_]

theorem ownFramed_afterLoad (c : Ctx) (x : LoadCase) (lanes : Nat → List Nat) (at_ : List (Nat × List Piece)) :
    OwnFramed c [.cores, .clusters, .faults, .coh] [.floors, .ovf] (afterLoad c x lanes at_) := by
  have hcount := (framed_countAccess x.who x.mode.acc x.n x.rs).own (c := c) [.floors, .ovf]
  have hmiss := (framed_missesEff c x.mode x.rs at_).own (c := c) [.floors, .ovf]
  exact (hcount.mono (by decide) fun _ => id).seq ((hmiss.mono (by decide) fun _ => id).seq
    (((ownFramed_heardEff c x.mode.acq lanes at_).mono (by decide) fun _ => id).seq ((framed_nop _).own _)))

/-- Settles O36: both forms read behind their checks and put the values read in their destination. -/
theorem loadForms : Obligations.LoadForms := by
  unfold Obligations.LoadForms
  intro i s c x at_ eff vs h hx hp
  have hown := fun lanes => ownFramed_afterLoad c x lanes at_
  cases i with
  | ld w =>
    cases hx
    obtain ⟨t, ht, hc, hmem, -⟩ := completes_load (R := LaneWritten w.ty w.d false (c.active w.g w.gn) fun l => movePat w.ty (valAt vs l))
      h hp rfl rfl rfl rfl rfl (hown fun l => [l]) fun r => laneWritten_putLanes _ _ _ _ _ r
    exact ⟨t, ht, hc, hmem⟩
  | kld w =>
    cases hx
    obtain ⟨t, ht, hc, hmem, -⟩ := completes_load (R := KWritten w.d (valAt vs 255))
      h hp rfl rfl rfl rfl rfl (hown fun _ => []) fun r => kWritten_putU _ _ r
    exact ⟨t, ht, hc, hmem⟩
  | _ => cases hx

end Sys2Proof.Machine
end

section
/-! PROOFS. The monitors (O41: R272, R273). -/

namespace Sys2Proof.Machine

/-- A group with other armed slots. -/
theorem keepsG_mons (m : Group → Map Mon) (g : Group) : KeepsG [.mons] g { g with mons := m g } := by
  refine ⟨⟨rfl, rfl, rfl, rfl, rfl⟩, rfl, fun _ => rfl, fun x hx => ?_⟩
  cases x with
  | mons => exact absurd (List.mem_singleton_self _) hx
  | live => exact ⟨rfl, rfl⟩
  | rs => exact fun _ => rfl
  | loop | ops | strap | stopped => trivial
  | _ => rfl

theorem group_onGroup {c : Ctx} {s : State} {g : Group} (hs : c.strm = false) (hg : mfind s.groups c.key = some g)
    (hu : g.uid = c.uid) (f : Group → Group) : mfind (applyAll (onGroup c f s) s).groups c.key = some (f g) := by
  rw [onGroup_eq hs hg hu]
  exact mfind_mput_same _ _ _

theorem uid_of_ctxHere {i : Instr} {s : State} {c : Ctx} {g : Group} (h : ctxHere i s = some c) (hs : c.strm = false)
    (hg : mfind s.groups c.key = some g) : g.uid = c.uid := by
  obtain ⟨iss, -, hctx⟩ := ctxHere_iss h
  obtain ⟨g', hg', huid, -⟩ := ctxOf_group hctx hs
  exact Option.some.inj (hg.symm.trans hg') ▸ huid

/-! ## MON.ARM -/

/-- What MON.ARM writes in its slot. -/
def monRead (c : Ctx) (w : UniW) (vs : List (Nat × Nat)) (at_ : List (Nat × List Piece)) : Mon :=
  { addr := BitVec.ofNat 64 (c.ua w), value := BitVec.ofNat 64 (valAt vs 255), place := (at_.headD (0, [])).2 }

/-- The group with that slot. -/
def armMon (c : Ctx) (w : UniW) (vs : List (Nat × Nat)) (at_ : List (Nat × List Piece)) (g : Group) : Group :=
  { g with mons := mput g.mons (c.ub w % 4) (monRead c w vs at_) }

/-- What MON.ARM does after its value and before it writes the slot. -/
def armReads (c : Ctx) (w : UniW) (at_ : List (Nat × List Piece)) : List Eff :=
  [countAccess (c.who false) .load 8 (uReq (BitVec.ofNat 64 (c.ua w))), missesEff c {} (uReq (BitVec.ofNat 64 (c.ua w))) at_,
    heardEff c false (fun _ => []) at_]

theorem framed_armReads (c : Ctx) (w : UniW) (at_ : List (Nat × List Piece)) :
    ∀ f ∈ armReads c w at_, Framed [.cores, .clusters, .faults, .coh] f := by
  simp only [armReads, List.forall_mem_cons]
  exact ⟨(framed_countAccess _ _ _ _).mono (by decide), (framed_missesEff _ _ _ _).mono (by decide),
    (framed_heardEff _ _ _).mono (by decide), by simp⟩

theorem ownFramed_armReads (c : Ctx) (w : UniW) (at_ : List (Nat × List Piece)) (vs : List (Nat × Nat)) :
    OwnFramed c [.cores, .clusters, .faults, .coh] [.mons] (Eff.all (armReads c w at_ ++ [onGroup c (armMon c w vs at_)])) :=
  ownFramed_all _ fun f hf => (List.mem_append.1 hf).elim (fun hf => (framed_armReads c w at_ f hf).own _) fun hf => by
    rw [List.mem_singleton.1 hf]
    exact (ownFramed_onGroup (keepsG_mons _)).mono (by simp) fun _ => id

theorem monArm_done {w : UniW} {s : State} {c : Ctx} {x : LoadCase} {at_ : List (Nat × List Piece)} {eff : Eff}
    {vs : List (Nat × Nat)} {g : Group} (h : Issues (.monArm w) anyProfile s c) (hs : c.strm = false)
    (hg : mfind s.groups c.key = some g)
    (hx : x = { who := c.who false, n := 8, rs := uReq (BitVec.ofNat 64 (c.ua w)), mode := {}, late := none, regs := fun _ _ _ => True })
    (hp : loadPasses c s x at_ eff vs) :
    ∃ t, exec (.monArm w) s = .next t ∧ Completes c s t loadParts [.mons] RegsKept none ∧
      (noPrivate s → t.mem = s.mem) ∧ ∃ h, mfind t.groups c.key = some h ∧ h.mons = mput g.mons (c.ub w % 4) (monRead c w vs at_) := by
  have harmed : mfind (applyAll (Eff.seq (loadPre c s at_ eff) (Eff.all (armReads c w at_ ++ [onGroup c (armMon c w vs at_)]))
      (carded c s)) (carded c s)).groups c.key = some (armMon c w vs at_ g) := by
    rw [applyAll_seq, applyAll_all_concat, applyAll_seq]
    refine group_onGroup hs ?_ (uid_of_ctxHere h.1 hs hg) _
    rw [(framed_all _ (framed_armReads c w at_)).groups, (framed_loadPre (onCores_locate hp.1)).groups, groups_carded]
    exact hg
  subst hx
  obtain ⟨t, ht, hc, hmem, hgroup⟩ := completes_load (R := RegsKept) h hp rfl rfl rfl rfl rfl (ownFramed_armReads c w at_ vs) fun _ => rfl
  obtain ⟨u, q, y, hy⟩ := hgroup hs _ harmed
  exact ⟨t, ht, hc, hmem, _, hy, rfl⟩

/-! ## MON.WAIT -/

/-- What a MON.WAIT that returns does: it finds its words, merges the lines of those that differ, and disarms them. -/
def waitEff (c : Ctx) (s : State) (g : Group) (at_ : List (Nat × List Piece)) (found : Eff) : Eff :=
  Eff.all [Eff.seq found (onGroup c (monPlaced at_)), mergeRuns c.core (monRuns s (monPlaced at_ g) (monDiffer s c.core (monPlaced at_ g))),
    onGroup c (disarm (monDiffer s c.core (monPlaced at_ g)))]

theorem ownFramed_waitEff {c : Ctx} {s : State} {g : Group} {at_ : List (Nat × List Piece)} {found : Eff}
    (h : ∀ t, OnCores (found t)) : OwnFramed c loadParts [.mons] (waitEff c s g at_ found) := by
  have hmons (m : Group → Map Mon) : OwnFramed c loadParts [.mons] (onGroup c fun g => { g with mons := m g }) :=
    (ownFramed_onGroup (keepsG_mons m)).mono (by simp) fun _ => id
  exact OwnFramed.seq ((((framed_of_onCores h).own _).mono (by decide) fun _ => id).seq (hmons _))
    ((((framed_mergeRuns _ _).own _).mono (by decide) fun _ => id).seq ((hmons _).seq ((framed_nop _).own _)))

theorem group_waitEff {c : Ctx} {s t : State} {g : Group} {at_ : List (Nat × List Piece)} {found : Eff}
    (h : ∀ t, OnCores (found t)) (hs : c.strm = false) (hg : mfind t.groups c.key = some g) (hu : g.uid = c.uid) :
    mfind (applyAll (waitEff c s g at_ found t) t).groups c.key =
      some (disarm (monDiffer s c.core (monPlaced at_ g)) (monPlaced at_ g)) := by
  have hplaced : mfind (applyAll (onGroup c (monPlaced at_) (applyAll (found t) t)) (applyAll (found t) t)).groups c.key =
      some (monPlaced at_ g) := group_onGroup hs (by rw [(framed_of_onCores h).groups]; exact hg) hu _
  rw [waitEff, applyAll_all_cons, applyAll_all_cons, applyAll_all_cons, applyAll_all_nil, applyAll_seq]
  refine group_onGroup hs ?_ (g := monPlaced at_ g) hu _
  rw [(framed_mergeRuns _ _).groups]
  exact hplaced

theorem mem_waitEff {c : Ctx} {s t : State} {g : Group} {at_ : List (Nat × List Piece)} {found : Eff}
    (h : ∀ t, OnCores (found t)) (hn : noPrivate t) : (applyAll (waitEff c s g at_ found t) t).mem = t.mem := by
  have hfound := (framed_of_onCores h).same t
  have hplaced : OwnFramed c [] [.mons] (onGroup c (monPlaced at_)) := ownFramed_onGroup (keepsG_mons _)
  have hdisarm : OwnFramed c [] [.mons] (onGroup c (disarm (monDiffer s c.core (monPlaced at_ g)))) := ownFramed_onGroup (keepsG_mons _)
  have hcoh : (applyAll (Eff.seq found (onGroup c (monPlaced at_)) t) t).coh = t.coh := by
    rw [applyAll_seq]
    exact (hplaced.same _ .coh (by decide)).trans (hfound .coh (by decide))
  rw [waitEff, applyAll_all_cons, applyAll_all_cons, mergeRuns_of_noPrivate (by rw [noPrivate, hcoh]; exact hn),
    applyAll_all_cons, applyAll_all_nil, applyAll_seq]
  exact (hdisarm.same _ .mem (by decide)).trans ((hplaced.same _ .mem (by decide)).trans (hfound .mem (by decide)))

theorem translate_nil (s : State) (w : Who) (a : Acc) : translate s w a [] = .ok Eff.nop := rfl

theorem monWait_done {w : UniW} {s : State} {c : Ctx} {g : Group} {at_ : List (Nat × List Piece)} {found : Eff}
    (h : Issues (.monWait w) anyProfile s c) (hs : c.strm = false) (hg : mfind s.groups c.key = some g)
    (hloc : locate s (c.who false) .home 8 none ((g.mons.filter monBlind).map (fun e => { lane := 255, ea := e.2.addr })) = .ok at_ found)
    (hover : (monPlaced at_ g).mons = [] ∨ monDiffer s c.core (monPlaced at_ g) ≠ 0) (hpoison : monPoison s (monPlaced at_ g) = none)
    (hblocked : monBlocked s (monPlaced at_ g) = none) (hdenied : monDenied s c.core (monPlaced at_ g) = []) :
    ∃ t, exec (.monWait w) s = .next t ∧
      Completes c s t loadParts [.mons] (KWritten w.d (monDiffer s c.core (monPlaced at_ g))) none ∧
      (noPrivate s → t.mem = s.mem) ∧
      ∃ h, mfind t.groups c.key = some h ∧
        h.mons = (disarm (monDiffer s c.core (monPlaced at_ g)) (monPlaced at_ g)).mons := by
  have huid := uid_of_ctxHere h.1 hs hg
  have hgroup : groupOf c s = some g := by simp [groupOf, hs, hg]
  have hcores := onCores_locate hloc
  have hreturns : ((monPlaced at_ g).mons.isEmpty || decide (monDiffer s c.core (monPlaced at_ g) ≠ 0)) = true := by simpa using hover
  obtain ⟨t, ht, hc, hsame, hafter⟩ := completes_group (i := .monWait w) (R := KWritten w.d (monDiffer s c.core (monPlaced at_ g)))
    (d := { act := c.lanes, regs := putU w.d (monDiffer s c.core (monPlaced at_ g)), eff := waitEff c s g at_ found }) h rfl
    (by simp only [hgroup, hloc, hpoison, hblocked, hdenied, translate_nil, hreturns, if_true]; rfl) rfl
    (ownFramed_waitEff hcores) fun r => kWritten_putU _ _ r
  obtain ⟨u, q, y, hy⟩ := hafter hs _ (group_waitEff hcores hs (by rw [groups_carded]; exact hg) huid)
  refine ⟨t, ht, hc, fun hn => ?_, _, hy, rfl⟩
  calc t.mem = _ := hsame .mem (by decide)
    _ = (carded c s).mem := mem_waitEff hcores (noPrivate_carded hn)
    _ = s.mem := mem_carded c s

/-- Settles O41: MON.ARM reads as a load does and then writes its slot; MON.WAIT finds its words, compares them and disarms. -/
theorem monitorForms : Obligations.MonitorForms := by
  unfold Obligations.MonitorForms
  refine ⟨fun w s c x at_ eff vs g h hs hg hx hp => ?_, fun w s c g at_ found g' h hs hg hloc hg' hover hpoison hblocked hdenied => ?_⟩
  · obtain ⟨t, ht, hc, hmem, k, hk, hmons⟩ := monArm_done h hs hg hx hp
    refine ⟨t, ht, hc, hmem, k, hk, fun n => ?_⟩
    rw [hmons]
    split
    · next hn => exact hn ▸ mfind_mput_same _ _ _
    · next hn => exact mfind_mput_other _ _ _ _ hn
  · subst hg'
    exact monWait_done h hs hg hloc hover hpoison hblocked hdenied

end Sys2Proof.Machine
end

section
/-! PROOFS. Prefetches, cache and code maintenance (O40: R267, R271, R429 to R431). -/

namespace Sys2Proof.Machine

/-! ## Forms that leave the queue as it is -/

/-- A form of a group with no effect on its own group. -/
theorem completes_sqKept {i : Instr} {s : State} {c : Ctx} {body : Ctx → State → Res} {d : Done} {xs : List Comp}
    (h : Issues i anyProfile s c) (hx : exec i s = issue i body s) (hs : c.strm = false) (hb : body c s = .done d)
    (hgo : d.go = .seq) (hregs : ∀ r, d.regs r = r) (hE : Framed xs d.eff) :
    ∃ t, exec i s = .next t ∧ Completes c s t xs [.sq] RegsKept none ∧ Same [] (applyAll (d.eff (carded c s)) (carded c s)) t ∧
      ∀ g h, mfind s.groups c.key = some g → mfind t.groups c.key = some h → h.sq = g.sq := by
  obtain ⟨t, ht, hc, hsame, hgroup⟩ := completes_group (R := RegsKept) h hx hb hgo (hE.own _) hregs
  refine ⟨t, ht, hc, hsame, fun g k hg hk => ?_⟩
  obtain ⟨u, q, x, hk'⟩ := hgroup hs g (by rw [hE.groups, groups_carded]; exact hg)
  rw [Option.some.inj (hk.symm.trans hk')]

/-! ## Prefetches -/

/-- What a lane's prf does with the line it names. -/
theorem framed_prfLine (c : Ctx) (w : LaneW) (l : Nat) : Framed missParts (fun s =>
    match prfLine c s (c.ea w l) with
    | some (a, nc) =>
      if qCache w.q = 1 || l1Hit s c.core (lineOf a) || lineBlocked s (lineOf a) then []
      else requestFill c.core (lineOf a) (if qCache w.q = 2 then 8192 else 512) nc (tagsFor c s l (c.ea w l)) c.frank s
    | none => []) := framed_of fun s => by
  split
  · split
    · exact ⟨Eff.nop, rfl, framed_nop _⟩
    · exact ⟨_, rfl, (framed_requestFill _ _ _ _ _ _).mono (by simp)⟩
  · exact ⟨Eff.nop, rfl, framed_nop _⟩

theorem framed_cacheLine (core line : Nat) (bad : Bool) : Framed [.cores] (cacheLine core line bad) := framed_cores _ fun s u hu => by
  unfold cacheLine at hu
  dsimp only at hu
  split at hu
  · cases hu
  · exact ⟨_, _, List.mem_singleton.1 hu⟩

theorem framed_prefetchLine (core frank line : Nat) : Framed [.cores, .trace, .clusters] (prefetchLine core frank line) :=
  framed_of fun s => ⟨Eff.seq (cacheLine core line _) (Eff.when (mfind s.coh.poison line).isSome (emit _ _ _ _ _ _ _)), rfl,
    ((framed_cacheLine _ _ _).mono (by simp)).seq (((framed_emit _ _ _ _ _ _ _).mono (by simp)).when _)⟩

/-! ## Copies of a range -/

/-- Where a page lies depends on the identity registers alone. -/
theorem meetsRange_congr {s t : State} (h : t.idn = s.idn) : meetsRange t = meetsRange s := by
  have hown : ownPkg t = ownPkg s := by rw [ownPkg, h, ownPkg]
  have haddr : pkgAddr t = pkgAddr s := by funext p a; rw [pkgAddr, hown, pkgAddr]
  have hnear : nearest t = nearest s := by funext reps; rw [nearest, hown, nearest]
  have hplace : placeOf t = placeOf s := by funext e va; rw [placeOf, haddr, placeOf]
  have hphys : pagePhys t = pagePhys s := by funext e; rw [pagePhys, hplace, hnear, haddr, pagePhys]
  funext pages lo hi a n
  rw [meetsRange, hphys, meetsRange]

/-- The core's copies of a range's lines given up. -/
def dropRange (core : Nat) (pages : List TlbE) (lo hi : Nat) : Eff := fun s =>
  [.core core { getCore s core with l1 := (getCore s core).l1.filter (fun e => !meetsRange s pages lo hi (e.1 * 128) 128) }]

theorem l1_dropRange {s t : State} (h : t.idn = s.idn) (core : Nat) (pages : List TlbE) (lo hi : Nat) :
    ∀ e ∈ (getCore (applyAll (dropRange core pages lo hi t) t) core).l1, meetsRange s pages lo hi (e.1 * 128) 128 = false := by
  intro e he
  rw [dropRange, getCore_core, if_pos rfl, meetsRange_congr h] at he
  simpa using (List.mem_filter.1 he).2

/-! ## Merges take no number -/

theorem takesNoId_coh (g : State → Coh) : TakesNoId (fun s => [.coh (g s)]) := fun _ => rfl

theorem takesNoId_mergeLine (line : Nat) : TakesNoId (mergeLine line) := takesNoId_of fun s => by
  have hwrite (cs : List Host.Cell) : TakesNoId (writeMem cs) := fun s => by
    unfold writeMem sameNextId
    dsimp only
    split <;> rfl
  have hmark (bad : Bool) : TakesNoId (markHome line bad) := fun s => by
    unfold markHome sameNextId
    split <;> rfl
  have hdrops : TakesNoId (l1Drops [line]) := takesNoId_of_onCores fun s u hu => by
    obtain ⟨e, -, hu⟩ := List.mem_flatMap.mp hu
    split at hu
    · exact ⟨_, _, List.mem_singleton.mp hu⟩
    · cases hu
  have hdropLines : TakesNoId (dropLines [line]) := by
    rw [dropLines, invalLines_eq]
    exact (hdrops.seq (takesNoId_coh _)).seq (takesNoId_coh _)
  unfold mergeLine
  dsimp only
  split
  · exact ⟨Eff.nop, rfl, takesNoId_nop⟩
  · exact ⟨_, rfl, ((hwrite _).seq (takesNoId_coh _)).seq ((hmark _).seq (hdropLines.seq
      ((takesNoId_forEach _ _ fun _ => takesNoId_count _ _ _).seq takesNoId_nop)))⟩

/-! ## Code (R430, R431) -/

/-- The instruction caches without the lines that a test names. -/
def dropIcache (meets : Nat → Nat → Bool) : Eff := fun s => s.cores.flatMap (fun e =>
  let keep := e.2.icache.filter (fun x => !meets (x.1 * 128) 128)
  if keep.length = e.2.icache.length then [] else [.core e.1 { e.2 with icache := keep }])

theorem framed_dropIcache (meets : Nat → Nat → Bool) : Framed [.cores] (dropIcache meets) := framed_cores _ fun s u hu => by
  obtain ⟨e, -, hu⟩ := List.mem_flatMap.1 hu
  dsimp only at hu
  split at hu
  · cases hu
  · exact ⟨_, _, List.mem_singleton.1 hu⟩

/-- Older values of code words forgotten. -/
theorem framed_dropOlder (meets : Nat → Nat → Bool) : Framed [.coh] (fun s =>
    let keep := s.coh.stale.filter (fun x => !meets x.1 4)
    if keep.length = s.coh.stale.length then [] else [.coh { s.coh with stale := keep }]) := framed_of fun s => by
  dsimp only
  split
  · exact ⟨Eff.nop, rfl, framed_nop _⟩
  · exact ⟨fun _ => [.coh _], rfl, framed_coh fun _ => _⟩

/-- The merges that come before. -/
def mergeCode (meets : Nat → Nat → Bool) : Eff := fun s =>
  Eff.forEach ((s.coh.dirs.filter (fun e => !e.2.priv.isEmpty && meets (e.1 * 128) 128)).map (·.1)) mergeLine s

theorem framed_mergeCode (meets : Nat → Nat → Bool) : Framed homeParts (mergeCode meets) :=
  framed_of fun _ => ⟨Eff.forEach _ mergeLine, rfl, framed_merges _⟩

theorem framed_dropCode (meets : Nat → Nat → Bool) : Framed homeParts (dropCode meets) :=
  (framed_mergeCode meets).seq
    (((framed_dropIcache meets).mono (by simp)).seq (((framed_dropOlder meets).mono (by simp)).seq (framed_nop _)))

theorem dropIcache_eq (meets : Nat → Nat → Bool) (s : State) : dropIcache meets s =
    (s.cores.filter (fun e => (e.2.icache.filter (fun x => !meets (x.1 * 128) 128)).length ≠ e.2.icache.length)).map (fun e =>
      Upd.core e.1 { e.2 with icache := e.2.icache.filter (fun x => !meets (x.1 * 128) 128) }) := by
  unfold dropIcache
  induction s.cores with
  | nil => rfl
  | cons e l ih =>
    rw [List.flatMap_cons, ih, List.filter_cons]
    by_cases h : (e.2.icache.filter (fun x => !meets (x.1 * 128) 128)).length = e.2.icache.length <;> simp [h]

/-- The caches without the lines, whatever they held before. -/
abbrev icachesClear (meets : Nat → Nat → Bool) : State → Prop := everyCore fun k => ∀ x ∈ k.icache, meets (x.1 * 128) 128 = false

theorem icachesClear_dropIcache (meets : Nat → Nat → Bool) (s : State) :
    icachesClear meets (applyAll (dropIcache meets s) s) := by
  rw [dropIcache_eq]
  refine everyCore_applyAll (fun e : Nat × Core => e.1) _ _ _ (fun e _ x hx => by simpa using (List.mem_filter.1 hx).2) fun e he hkept => ?_
  have hsame : (e.2.icache.filter (fun x => !meets (x.1 * 128) 128)).length = e.2.icache.length := by
    by_contra hne
    exact hkept e (List.mem_filter.2 ⟨he, by simpa using hne⟩) rfl
  exact fun x hx => by simpa using List.length_filter_eq_length_iff.1 hsame x hx

theorem icachesClear_dropCode (meets : Nat → Nat → Bool) (s : State) : icachesClear meets (applyAll (dropCode meets s) s) := by
  have hsplit : applyAll (dropCode meets s) s = applyAll (Eff.seq (Eff.seq (mergeCode meets) (dropIcache meets)) (fun s =>
      let keep := s.coh.stale.filter (fun x => !meets x.1 4)
      if keep.length = s.coh.stale.length then [] else [.coh { s.coh with stale := keep }]) s) s := by
    rw [applyAll_seq, applyAll_seq]
    simp only [dropCode, applyAll_all_cons, applyAll_all_nil]
    rfl
  rw [hsplit, applyAll_seq, applyAll_seq]
  exact everyCore_of_cores (icachesClear_dropIcache _ _) ((framed_dropOlder meets).same _ .cores (by simp))

theorem mem_dropCode (meets : Nat → Nat → Bool) {s : State} (h : noPrivate s) : (applyAll (dropCode meets s) s).mem = s.mem := by
  have hmerge : applyAll (mergeCode meets s) s = s := forEach_mergeLine_of_priv_nil _ s fun l _ => getDir_priv_of_noPrivate h l
  have hrest := ((framed_dropIcache meets).mono (ys := [.cores, .coh]) (by simp)).seq ((framed_dropOlder meets).mono (by simp))
  rw [dropCode, applyAll_all_cons]
  refine (Eq.trans ?_ (hrest.same _ .mem (by simp))).trans (congrArg State.mem hmerge)
  rw [applyAll_all_cons, applyAll_all_cons, applyAll_all_nil, applyAll_seq]
  rfl

/-! ## The forms -/

/-- The parts that the maintenance of a range changes. -/
abbrev cacheParts : List Comp := [.mem, .cores, .coh]

theorem cinv_done {w : UniW} {s : State} {c : Ctx} (h : Issues (.cinv w) anyProfile s c) (hs : c.strm = false)
    (hrange : rangeTrap s c (c.ua w) (c.ub w) true = none) :
    ∃ t, exec (.cinv w) s = .next t ∧ Completes c s t cacheParts [.sq] RegsKept none ∧ (noPrivate s → t.mem = s.mem) ∧
      (∀ e ∈ (getCore t c.core).l1,
        meetsRange s (pagesIn s c.blk.tctx (c.ua w) (c.ua w + c.ub w)) (c.ua w) (c.ua w + c.ub w) (e.1 * 128) 128 = false) ∧
      ∀ g h, mfind s.groups c.key = some g → mfind t.groups c.key = some h → h.sq = g.sq := by
  let pages := pagesIn s c.blk.tctx (c.ua w) (c.ua w + c.ub w)
  let merges := Eff.forEach (ownedLines s c pages (c.ua w) (c.ua w + c.ub w)) mergeLine
  let drop := dropRange c.core pages (c.ua w) (c.ua w + c.ub w)
  have hdrop : Framed [.cores] drop := framed_core _ _
  obtain ⟨t, ht, hc, hsame, hsq⟩ := completes_sqKept (xs := cacheParts) (d := { act := c.lanes, eff := Eff.seq merges drop }) h rfl hs
    (by simp only [hrange]; rfl) rfl (fun _ => rfl) (((framed_merges _).mono (by simp)).seq (hdrop.mono (by simp)))
  have hcores : t.cores = (applyAll (Eff.seq merges drop (carded c s)) (carded c s)).cores := hsame .cores (by simp)
  refine ⟨t, ht, hc, fun hn => ?_, fun e he => ?_, hsq⟩
  · have hmerge : applyAll (merges (carded c s)) (carded c s) = carded c s :=
      forEach_mergeLine_of_priv_nil _ _ fun l _ => getDir_priv_of_noPrivate (noPrivate_carded hn) l
    calc t.mem = (applyAll (Eff.seq merges drop (carded c s)) (carded c s)).mem := hsame .mem (by simp)
      _ = (carded c s).mem := by rw [applyAll_seq, hmerge]; exact hdrop.same _ .mem (by simp)
      _ = s.mem := mem_carded c s
  · rw [getCore_congr hcores, applyAll_seq] at he
    have hidn : (applyAll (merges (carded c s)) (carded c s)).idn = s.idn :=
      ((framed_merges _).same _ .idn (by simp)).trans (same_carded c s .idn (by simp))
    exact l1_dropRange hidn _ _ _ _ e he

theorem icinv_done {w : UniW} {s : State} {c : Ctx} (h : Issues (.icinv w) anyProfile s c) (hs : c.strm = false)
    (hrange : rangeTrap s c (c.ua w) (c.ub w) false = none) (hready : c.ub w = 0 ∨ drained s c.sq 9 = true) :
    ∃ t, exec (.icinv w) s = .next t ∧ Completes c s t cacheParts [.sq] RegsKept none ∧ (noPrivate s → t.mem = s.mem) ∧
      (0 < c.ub w → ∀ e ∈ t.cores, ∀ x ∈ e.2.icache,
        meetsRange s (pagesIn s c.blk.tctx (c.ua w / 128 * 128) ((c.ua w + c.ub w + 127) / 128 * 128)) (c.ua w / 128 * 128)
          ((c.ua w + c.ub w + 127) / 128 * 128) (x.1 * 128) 128 = false) ∧
      ∀ g h, mfind s.groups c.key = some g → mfind t.groups c.key = some h → h.sq = g.sq := by
  by_cases hempty : c.ub w = 0
  · obtain ⟨t, ht, hc, hsame, hsq⟩ := completes_sqKept (xs := cacheParts) (d := { act := c.lanes }) h rfl hs
      (by rw [hempty] at hrange; simp only [hempty, hrange, if_true]) rfl (fun _ => rfl) (framed_nop cacheParts)
    exact ⟨t, ht, hc, fun _ => (hsame .mem (by simp)).trans (mem_carded c s), fun hpos => absurd hempty (by omega), hsq⟩
  · have hdrained := hready.resolve_left hempty
    let meets := fun a n => meetsRange s (pagesIn s c.blk.tctx (c.ua w / 128 * 128) ((c.ua w + c.ub w + 127) / 128 * 128))
      (c.ua w / 128 * 128) ((c.ua w + c.ub w + 127) / 128 * 128) a n
    obtain ⟨t, ht, hc, hsame, hsq⟩ := completes_sqKept (xs := cacheParts) (d := { act := c.lanes, eff := dropCode meets }) h rfl hs
      (by simp only [hrange, hempty, hdrained, Bool.not_true, Bool.false_eq_true, if_false]; rfl) rfl (fun _ => rfl) ((framed_dropCode meets).mono (by simp))
    refine ⟨t, ht, hc, fun hn => ?_, fun _ => ?_, hsq⟩
    · exact ((hsame .mem (by simp)).trans (mem_dropCode meets (noPrivate_carded hn))).trans (mem_carded c s)
    · exact everyCore_of_cores (icachesClear_dropCode meets _) (hsame .cores (by simp))

theorem cwb_done {w : UniW} {s : State} {c : Ctx} (h : Issues (.cwb w) anyProfile s c) (hs : c.strm = false)
    (hrange : rangeTrap s c (c.ua w) (c.ub w) true = none) (hroom : c.sq.length < 32) :
    ∃ t, exec (.cwb w) s = .next t ∧ Completes c s t cacheParts [.sq] RegsKept none ∧ (noPrivate s → t.mem = s.mem) ∧
      ∀ g, mfind s.groups c.key = some g → ∃ h, mfind t.groups c.key = some h ∧
        h.sq = g.sq ++ [{ id := s.nextId, kind := .writeBack (dirtyLines s c
          (pagesIn s c.blk.tctx (c.ua w) (c.ua w + c.ub w)) (c.ua w) (c.ua w + c.ub w)), rel := 0, items := [], frank := c.frank }] := by
  have hfull : sqFull c.sq = false := decide_eq_false (Nat.not_le.2 hroom)
  let pages := pagesIn s c.blk.tctx (c.ua w) (c.ua w + c.ub w)
  let merges := Eff.forEach (ownedLines s c pages (c.ua w) (c.ua w + c.ub w)) mergeLine
  obtain ⟨t, ht, hc, hsame, hsq⟩ := completes_pushSq (xs := cacheParts) (E := merges) (kind := .writeBack (dirtyLines s c pages (c.ua w) (c.ua w + c.ub w)))
    (rel := 0) (acq := false) (items := []) (d := { act := c.lanes, eff := Eff.seq merges (pushSq c _ 0 false []) }) h rfl hs
    (by simp only [hrange, hfull, Bool.false_eq_true, if_false]; rfl) rfl (fun _ => rfl) rfl ((framed_merges _).mono (by simp))
    (takesNoId_forEach _ _ takesNoId_mergeLine)
  refine ⟨t, ht, hc, fun hn => ?_, hsq⟩
  have hmerge : applyAll (merges (carded c s)) (carded c s) = carded c s :=
    forEach_mergeLine_of_priv_nil _ _ fun l _ => getDir_priv_of_noPrivate (noPrivate_carded hn) l
  rw [hmerge] at hsame
  exact (hsame .mem (by simp)).trans (mem_carded c s)

/-- A prefetch: its operation changes parts other than memory. -/
theorem prefetch_done {i : Instr} {s : State} {c : Ctx} {body : Ctx → State → Res} {d : Done} {xs : List Comp}
    (h : Issues i anyProfile s c) (hx : exec i s = issue i body s) (hs : c.strm = false) (hb : body c s = .done d)
    (hgo : d.go = .seq) (hregs : ∀ r, d.regs r = r) (hE : Framed xs d.eff) (hmem : Comp.mem ∉ xs) :
    ∃ t, exec i s = .next t ∧ Completes c s t xs [.sq] RegsKept none ∧ t.mem = s.mem ∧
      ∀ g h, mfind s.groups c.key = some g → mfind t.groups c.key = some h → h.sq = g.sq := by
  obtain ⟨t, ht, hc, hsame, hsq⟩ := completes_sqKept h hx hs hb hgo hregs hE
  exact ⟨t, ht, hc, (hsame .mem (by simp)).trans ((hE.same _ .mem hmem).trans (mem_carded c s)), hsq⟩

theorem iprefForm_done {w : UniW} {s : State} {c : Ctx} (h : Issues (.ipref w) anyProfile s c) (hs : c.strm = false) :
    ∃ t, exec (.ipref w) s = .next t ∧ Completes c s t [.cores, .trace, .clusters] [.sq] RegsKept none ∧ t.mem = s.mem ∧
      ∀ g h, mfind s.groups c.key = some g → mfind t.groups c.key = some h → h.sq = g.sq := by
  let n := min 8192 (c.ubI w)
  by_cases hhint : (!(kindI w && u0 w.d && dK w.a) || decide (n = 0)) = true
  · exact prefetch_done (d := { act := c.lanes }) h rfl hs (if_pos hhint) rfl (fun _ => rfl) (framed_nop _) (by simp)
  · exact prefetch_done h rfl hs (if_neg hhint) rfl (fun _ => rfl) (framed_forEach _ _ fun _ _ => framed_prefetchLine _ _ _) (by simp)

/-- Settles O40: each form's body passes its range's checks and does what its operation says. -/
theorem cacheForms : Obligations.CacheForms := by
  unfold Obligations.CacheForms
  intro i s c xs h hs hx
  cases i with
  | prf w =>
    cases hx
    obtain ⟨t, ht, hc, hmem, hsq⟩ := prefetch_done h rfl hs rfl rfl (fun _ => rfl)
      (framed_forEach (lanesOf (c.active w.g w.gn)) _ fun l _ => (framed_prfLine c w l).mono (ys := [.coh, .cores]) (by simp)) (by simp)
    refine ⟨t, ht, hc, fun _ => hmem, ?_, ?_, hsq⟩
    · exact fun _ hw => nomatch hw
    · exact fun _ hw => nomatch hw
  | ipref w =>
    cases hx
    obtain ⟨t, ht, hc, hmem, hsq⟩ := iprefForm_done h hs
    refine ⟨t, ht, hc, fun _ => hmem, ?_, ?_, hsq⟩
    · exact fun _ hw => nomatch hw
    · exact fun _ hw => nomatch hw
  | cinv w =>
    obtain ⟨hrange, hxs⟩ := Option.ite_none_right_eq_some.1 hx
    cases hxs
    obtain ⟨t, ht, hc, hmem, hdropped, hsq⟩ := cinv_done h hs hrange
    refine ⟨t, ht, hc, hmem, fun w' hw => ?_, ?_, hsq⟩
    · obtain rfl := Instr.cinv.inj hw
      exact hdropped
    · exact fun _ hw => nomatch hw
  | icinv w =>
    obtain ⟨⟨hrange, hready⟩, hxs⟩ := Option.ite_none_right_eq_some.1 hx
    cases hxs
    obtain ⟨t, ht, hc, hmem, hdropped, hsq⟩ := icinv_done h hs hrange hready
    refine ⟨t, ht, hc, hmem, ?_, fun w' hw hpos _ => ?_, hsq⟩
    · exact fun _ hw => nomatch hw
    · obtain rfl := Instr.icinv.inj hw
      exact hdropped hpos
  | cwb w =>
    obtain ⟨⟨hrange, hroom⟩, hxs⟩ := Option.ite_none_right_eq_some.1 hx
    cases hxs
    obtain ⟨t, ht, hc, hmem, hsq⟩ := cwb_done h hs hrange hroom
    refine ⟨t, ht, hc, hmem, ?_, ?_, fun g k hg hk => ?_⟩
    · exact fun _ hw => nomatch hw
    · exact fun _ hw => nomatch hw
    · obtain ⟨k', hk', hq⟩ := hsq g hg
      rw [Option.some.inj (hk.symm.trans hk')]
      exact hq
  | _ => cases hx

end Sys2Proof.Machine
end

section
/-! PROOFS. What the operations of the homes and of the store queues change (O44, O58). -/

namespace Sys2Proof.Machine

/-! ## Operations on memory, its copies and its homes -/

/-- An update of memory, the scratchpads, the cores, the homes, the next number, or the amounts counted (R411). -/
def Upd.AtHomes (s : State) : Upd → Prop
  | .mem _ | .spad _ | .core _ _ | .coh _ | .nextId _ => True
  | .ctrs x => x.sets = s.ctrs.sets
  | _ => False

/-- An operation made of such updates. -/
def Eff.AtHomes (f : Eff) : Prop := ∀ s, ∀ u ∈ f s, u.AtHomes s

/-- The parts that such an operation changes. -/
abbrev storeParts : List Comp := [.mem, .spad, .cores, .coh]

/-- A state whose agents, free choices and other parts are another's. -/
structure HomesOnly (s t : State) : Prop where
  same    : Same storeParts s t
  groups  : t.groups = s.groups
  streams : t.streams = s.streams
  fresh   : t.fresh = s.fresh

theorem HomesOnly.refl (s : State) : HomesOnly s s := ⟨Same.refl _ _, rfl, rfl, rfl⟩

theorem HomesOnly.trans {s t u : State} (h : HomesOnly s t) (k : HomesOnly t u) : HomesOnly s u :=
  ⟨h.same.trans k.same, k.groups.trans h.groups, k.streams.trans h.streams, k.fresh.trans h.fresh⟩

theorem Upd.AtHomes.congr {u : Upd} {s t : State} (h : u.AtHomes t) (hsets : t.ctrs.sets = s.ctrs.sets) : u.AtHomes s := by
  cases u with
  | ctrs x => exact Eq.trans h hsets
  | mem | spad | core | coh | nextId => trivial
  | _ => exact h.elim

theorem Upd.AtHomes.homesOnly {u : Upd} {s : State} (h : u.AtHomes s) : HomesOnly s (u.apply s) := by
  cases u with
  | ctrs y =>
    refine ⟨fun x _ => ?_, rfl, rfl, rfl⟩
    cases x with
    | sets => exact h
    | _ => rfl
  | mem | spad | core | coh | nextId =>
    refine ⟨fun x hx => ?_, rfl, rfl, rfl⟩
    cases x with
    | mem | spad | cores | coh => exact absurd (by simp) hx
    | _ => rfl
  | _ => exact h.elim

theorem homesOnly_applyAll {us : List Upd} {s : State} (h : ∀ u ∈ us, u.AtHomes s) : HomesOnly s (applyAll us s) := by
  induction us generalizing s with
  | nil => exact HomesOnly.refl s
  | cons u us ih =>
    have hu := (h u List.mem_cons_self).homesOnly
    exact hu.trans (ih fun v hv => (h v (List.mem_cons_of_mem _ hv)).congr (hu.same .sets (by simp)).symm)

theorem Eff.AtHomes.homesOnly {f : Eff} (h : f.AtHomes) (s : State) : HomesOnly s (applyAll (f s) s) := homesOnly_applyAll (h s)

theorem atHomes_nop : Eff.nop.AtHomes := fun _ _ hu => absurd hu List.not_mem_nil

theorem Eff.AtHomes.seq {f g : Eff} (hf : f.AtHomes) (hg : g.AtHomes) : (Eff.seq f g).AtHomes := fun s u hu =>
  (List.mem_append.1 hu).elim (hf s u) fun hu => (hg _ u hu).congr ((hf.homesOnly s).same .sets (by simp))

theorem atHomes_all (fs : List Eff) (h : ∀ f ∈ fs, f.AtHomes) : (Eff.all fs).AtHomes := by
  induction fs with
  | nil => exact atHomes_nop
  | cons f fs ih => exact (h f List.mem_cons_self).seq (ih fun g hg => h g (List.mem_cons_of_mem _ hg))

theorem Eff.AtHomes.when {f : Eff} (hf : f.AtHomes) (c : Bool) : (Eff.when c f).AtHomes := by
  cases c with
  | false => exact atHomes_nop
  | true => exact hf

theorem atHomes_forEach {α : Type} (l : List α) (f : α → Eff) (h : ∀ a, (f a).AtHomes) : (Eff.forEach l f).AtHomes :=
  atHomes_all _ fun g hg => by
    obtain ⟨a, -, rfl⟩ := List.mem_map.1 hg
    exact h a

theorem atHomes_of {f : Eff} (h : ∀ s, ∃ g : Eff, f s = g s ∧ g.AtHomes) : f.AtHomes := fun s u hu => by
  obtain ⟨g, hg, hf⟩ := h s
  exact hf s u (hg ▸ hu)

theorem atHomes_of_cores {f : Eff} (h : ∀ s, OnCores (f s)) : f.AtHomes := fun s u hu => by
  obtain ⟨n, k, rfl⟩ := h s u hu
  trivial

theorem atHomes_coh (g : State → Coh) : Eff.AtHomes (fun s => [.coh (g s)]) := fun s u hu => by
  obtain rfl := List.mem_singleton.1 hu
  trivial

theorem atHomes_coh_id (g : State → Coh) (n : State → Nat) : Eff.AtHomes (fun s => [.coh (g s), .nextId (n s)]) :=
  fun s u hu => by
    simp only [List.mem_cons, List.not_mem_nil, or_false] at hu
    rcases hu with rfl | rfl <;> trivial

theorem atHomes_spad (g : State → List Host.Cell) : Eff.AtHomes (fun s => [.spad (g s)]) := fun s u hu => by
  obtain rfl := List.mem_singleton.1 hu
  trivial

theorem atHomes_count (frank ev n : Nat) : (count frank ev n).AtHomes := fun s u hu => by
  unfold count at hu
  split at hu
  · cases hu
  · obtain rfl := List.mem_singleton.1 hu
    rfl

/-! ## Merges and performed bytes -/

theorem atHomes_writeMem (cs : List Host.Cell) : (writeMem cs).AtHomes := fun s u hu => by
  unfold writeMem at hu
  dsimp only at hu
  split at hu <;> simp only [List.mem_cons, List.not_mem_nil, or_false] at hu
  · exact hu ▸ trivial
  · rcases hu with rfl | rfl <;> trivial

theorem onCores_l1Drops (ls : List Nat) (s : State) : OnCores (l1Drops ls s) := fun u hu => by
  obtain ⟨e, -, hu⟩ := List.mem_flatMap.1 hu
  split at hu
  · exact ⟨_, _, List.mem_singleton.1 hu⟩
  · cases hu

theorem atHomes_dropLines (ls : List Nat) : (dropLines ls).AtHomes := by
  rw [dropLines, invalLines_eq]
  exact ((atHomes_of_cores (onCores_l1Drops ls)).seq (atHomes_coh _)).seq (atHomes_coh _)

theorem atHomes_markHome (line : Nat) (bad : Bool) : (markHome line bad).AtHomes := atHomes_of fun s => by
  unfold markHome
  split
  · exact ⟨fun _ => [.coh _], rfl, atHomes_coh fun _ => _⟩
  · exact ⟨Eff.nop, rfl, atHomes_nop⟩

theorem atHomes_mergeLine (line : Nat) : (mergeLine line).AtHomes := atHomes_of fun s => by
  unfold mergeLine
  dsimp only
  split
  · exact ⟨Eff.nop, rfl, atHomes_nop⟩
  · exact ⟨_, rfl, ((atHomes_writeMem _).seq (atHomes_coh _)).seq ((atHomes_markHome _ _).seq ((atHomes_dropLines _).seq
      ((atHomes_forEach _ _ fun _ => atHomes_count _ _ _).seq atHomes_nop)))⟩

theorem atHomes_extendMask (core line : Nat) (as : List Nat) : (extendMask core line as).AtHomes := atHomes_of fun s => by
  unfold extendMask
  dsimp only
  split
  · exact ⟨Eff.nop, rfl, atHomes_nop⟩
  · split
    · exact ⟨Eff.nop, rfl, atHomes_nop⟩
    · exact ⟨fun _ => [.coh _], rfl, atHomes_coh fun _ => _⟩

theorem atHomes_mergeRuns (core : Nat) (rs : List (Nat × Nat × Bool)) : (mergeRuns core rs).AtHomes :=
  atHomes_forEach _ _ fun _ => atHomes_forEach _ _ fun l => atHomes_of fun s => by
    split
    · exact ⟨_, rfl, atHomes_mergeLine l⟩
    · exact ⟨_, rfl, atHomes_extendMask _ _ _⟩

theorem atHomes_performCells (cs : List Host.Cell) : (performCells cs).AtHomes := by
  have hclear : (clearPoison cs).AtHomes := atHomes_of fun s => by
    unfold clearPoison
    split
    · exact ⟨fun _ => [.coh _], rfl, atHomes_coh fun _ => _⟩
    · exact ⟨Eff.nop, rfl, atHomes_nop⟩
  have hfire (ls : List Nat) : (fireWatches ls).AtHomes := atHomes_of fun s => by
    unfold fireWatches
    split
    · exact ⟨fun _ => [.coh _], rfl, atHomes_coh fun _ => _⟩
    · exact ⟨Eff.nop, rfl, atHomes_nop⟩
  exact (atHomes_writeMem cs).seq (hclear.seq ((hfire _).seq atHomes_nop))

theorem onCores_dropNc (core : Nat) (ls : List Nat) (s : State) : OnCores (dropNc core ls s) := fun u hu => by
  obtain ⟨e, -, hu⟩ := List.mem_flatMap.1 hu
  split at hu
  · exact ⟨_, _, List.mem_singleton.1 hu⟩
  · cases hu

/-! ## Writes that reach their homes -/

theorem atHomes_queueWrite (core uid frank cost line : Nat) (cs : List Host.Cell) :
    (queueWrite core uid frank cost line cs).AtHomes := atHomes_of fun s => by
  unfold queueWrite
  dsimp only
  split
  · exact ⟨_, rfl, (atHomes_performCells _).seq (((atHomes_of_cores (onCores_dropNc _ _)).when _).seq
      ((atHomes_count _ _ _).seq atHomes_nop))⟩
  · exact ⟨fun _ => [.coh _, .nextId _], rfl, atHomes_coh_id (fun _ => _) fun _ => _⟩

theorem atHomes_privWrite (core frank line : Nat) (cs : List Host.Cell) : (privWrite core frank line cs).AtHomes :=
  atHomes_of fun s => by
    have hclear : (clearPoison cs).AtHomes := atHomes_of fun s => by
      unfold clearPoison
      split
      · exact ⟨fun _ => [.coh _], rfl, atHomes_coh fun _ => _⟩
      · exact ⟨Eff.nop, rfl, atHomes_nop⟩
    exact ⟨_, rfl, (atHomes_coh _).seq hclear⟩

theorem atHomes_homeWrite (core uid frank : Nat) (unc : Bool) (line : Nat) (cs : List Host.Cell) :
    (homeWrite core uid frank unc line cs).AtHomes := atHomes_of fun s => by
  unfold homeWrite
  dsimp only
  split
  · exact ⟨_, rfl, atHomes_privWrite _ _ _ _⟩
  · split
    · exact ⟨_, rfl, (atHomes_mergeLine _).seq (atHomes_queueWrite _ _ _ _ _ _)⟩
    · split
      · exact ⟨_, rfl, atHomes_privWrite _ _ _ _⟩
      · exact ⟨_, rfl, atHomes_queueWrite _ _ _ _ _ _⟩

theorem atHomes_ncWrite (core uid frank line : Nat) (cs : List Host.Cell) : (ncWrite core uid frank line cs).AtHomes :=
  (atHomes_mergeLine _).seq (atHomes_of fun s => by
    split
    · exact ⟨_, rfl, (atHomes_performCells _).seq ((atHomes_of_cores (onCores_dropNc _ _)).seq ((atHomes_count _ _ _).seq atHomes_nop))⟩
    · exact ⟨_, rfl, atHomes_queueWrite _ _ _ _ _ _⟩)

theorem onCores_patchL1 (core : Nat) (cs : List Host.Cell) (s : State) : OnCores (patchL1 core cs s) := fun u hu => by
  unfold patchL1 at hu
  dsimp only at hu
  split at hu
  · cases hu
  · exact ⟨_, _, List.mem_singleton.1 hu⟩

theorem atHomes_storeCells (core uid frank : Nat) (nc unc : Bool) (cs : List Host.Cell) :
    (storeCells core uid frank nc unc cs).AtHomes :=
  (atHomes_of_cores (onCores_patchL1 core cs)).seq (atHomes_forEach _ _ fun l => by
    cases nc
    · exact atHomes_homeWrite _ _ _ _ _ _
    · exact atHomes_ncWrite _ _ _ _ _)

/-! ## Replicated pages -/

theorem atHomes_countRepl (frank : Nat) (reps : List (Nat × Nat)) (off n : Nat) : (countRepl frank reps off n).AtHomes :=
  (atHomes_count _ _ _).seq (atHomes_of fun _ => ⟨_, rfl, atHomes_forEach _ _ fun _ => atHomes_count _ _ _⟩)

theorem atHomes_writeThrough (k : Writer) (cs : List Host.Cell) : (writeThrough k cs).AtHomes := by
  have hunclaim (ls : List Nat) : (unclaim k ls).AtHomes := atHomes_of fun s => by
    unfold unclaim
    split
    · exact ⟨fun _ => [.coh _], rfl, atHomes_coh fun _ => _⟩
    · exact ⟨Eff.nop, rfl, atHomes_nop⟩
  exact (hunclaim _).seq ((atHomes_performCells cs).seq ((atHomes_of_cores (onCores_dropNc _ _)).seq atHomes_nop))

theorem atHomes_replOrder (rs : List (Nat × Nat)) (off : Nat) (bs : List Byte) : (replOrder rs off bs).AtHomes :=
  atHomes_of fun s => by
    unfold replOrder
    split
    · exact ⟨Eff.nop, rfl, atHomes_nop⟩
    · exact ⟨fun _ => [.coh _], rfl, atHomes_coh fun _ => _⟩

theorem atHomes_replWrite (k : Writer) (reps : List (Nat × Nat)) (off : Nat) (bs : List Byte) : (replWrite k reps off bs).AtHomes :=
  atHomes_of fun s => by
    unfold replWrite
    dsimp only
    split
    · exact ⟨_, rfl, (atHomes_writeThrough _ _).seq (atHomes_replOrder _ _ _)⟩
    · exact ⟨_, rfl, atHomes_replOrder _ _ _⟩

/-! ## Entries of the store queues -/

theorem atHomes_writePiece (k : Writer) (core uid frank : Nat) (p : Piece) (bs : List Byte) :
    (writePiece k core uid frank p bs).AtHomes := atHomes_of fun s => by
  unfold writePiece
  split
  · exact ⟨fun _ => [.spad _], rfl, atHomes_spad fun _ => _⟩
  · exact ⟨_, rfl, atHomes_storeCells _ _ _ _ _ _⟩
  · exact ⟨_, rfl, (atHomes_replWrite _ _ _ _).seq (atHomes_countRepl _ _ _ _)⟩
  · exact ⟨Eff.nop, rfl, atHomes_nop⟩

theorem atHomes_writePieces (k : Writer) (core uid frank : Nat) (ps : List Piece) (bs : List Byte) :
    (writePieces k core uid frank ps bs).AtHomes := by
  induction ps generalizing bs with
  | nil => exact atHomes_nop
  | cons p ps ih => exact (atHomes_writePiece _ _ _ _ _ _).seq (ih _)

theorem onCores_dropOld (core line : Nat) (s : State) : OnCores (dropOld core line s) := fun u hu => by
  unfold dropOld at hu
  split at hu
  · split at hu
    · exact ⟨_, _, List.mem_singleton.1 hu⟩
    · cases hu
  · cases hu

theorem atHomes_countOld (frank : Nat) (kind : SqKind) (ps : List Piece) : (countOld frank kind ps).AtHomes :=
  Eff.AtHomes.when (atHomes_forEach _ _ fun p => by
    split
    · exact atHomes_count _ _ _
    · exact atHomes_nop) _

theorem atHomes_casCount (frank : Nat) (ps : List Piece) : (casCount frank ps).AtHomes := atHomes_forEach _ _ fun p => by
  split
  · exact atHomes_count _ _ _
  · exact atHomes_count _ _ _
  · exact atHomes_nop

/-- What an atomic does before it reads: its lines merge, older copies are given up, what its root returns is counted. -/
def atomPre (core frank : Nat) (kind : SqKind) (ps : List Piece) : Eff := fun s =>
  Eff.all [mergeRuns core (physRuns s ps), Eff.forEach (physRuns s ps) (fun r => dropOld core (lineOf r.1)), countOld frank kind ps] s

theorem atHomes_atomPre (core frank : Nat) (kind : SqKind) (ps : List Piece) : (atomPre core frank kind ps).AtHomes :=
  atHomes_of fun s => ⟨Eff.all [mergeRuns core (physRuns s ps), Eff.forEach (physRuns s ps) (fun r => dropOld core (lineOf r.1)),
      countOld frank kind ps],
    rfl, (atHomes_mergeRuns _ _).seq
      ((atHomes_forEach _ _ fun _ => atHomes_of_cores (onCores_dropOld _ _)).seq ((atHomes_countOld _ _ _).seq atHomes_nop))⟩

/-- The newest bytes of some pieces. -/
def piecesBytes (core : Nat) (ps : List Piece) (s : State) : List Byte := ps.flatMap (newestBytes s core)

/-- What an atomic or cas writes where it has read. -/
def atomPut (k : Writer) (core uid frank : Nat) (kind : SqKind) (it : SqItem) : Eff := fun s =>
  let bs := piecesBytes core it.pieces s
  match kind with
  | .atomic op ty _ => writePieces k core uid frank it.pieces (toBytes bs.length (atomVal op ty (ofBytes bs) it.data.toNat)) s
  | .cas ty _ =>
    if ofBytes bs == it.cmp.toNat % 2 ^ tyWidth ty then writePieces k core uid frank it.pieces (toBytes bs.length it.data.toNat) s
    else casCount frank it.pieces s
  | _ => []

theorem atomItem_eq (k : Writer) (core uid frank : Nat) (kind : SqKind) (it : SqItem) (s : State) :
    atomItem k core uid frank kind it s =
      (Eff.seq (atomPre core frank kind it.pieces) (atomPut k core uid frank kind it) s,
        ofBytes (piecesBytes core it.pieces (applyAll (atomPre core frank kind it.pieces s) s))) := by
  cases kind with
  | store | writeBack | hold => exact Prod.ext (List.append_nil _).symm rfl
  | _ => rfl

theorem atHomes_atomPut (k : Writer) (core uid frank : Nat) (kind : SqKind) (it : SqItem) : (atomPut k core uid frank kind it).AtHomes :=
  atHomes_of fun s => by
    cases kind with
    | atomic op ty d => exact ⟨writePieces _ _ _ _ _ _, rfl, atHomes_writePieces _ _ _ _ _ _⟩
    | cas ty d =>
      simp only [atomPut]
      split
      · exact ⟨_, rfl, atHomes_writePieces _ _ _ _ _ _⟩
      · exact ⟨_, rfl, atHomes_casCount _ _⟩
    | store | writeBack | hold => exact ⟨Eff.nop, rfl, atHomes_nop⟩

theorem atHomes_atomItem (k : Writer) (core uid frank : Nat) (kind : SqKind) (it : SqItem) :
    Eff.AtHomes (fun s => (atomItem k core uid frank kind it s).1) := atHomes_of fun s =>
  ⟨_, congrArg Prod.fst (atomItem_eq k core uid frank kind it s), (atHomes_atomPre _ _ _ _).seq (atHomes_atomPut _ _ _ _ _ _)⟩

theorem atHomes_atomItems (k : Writer) (core uid frank : Nat) (kind : SqKind) (its : List SqItem) :
    Eff.AtHomes (fun s => (atomItems k core uid frank kind its s).1) := by
  induction its with
  | nil => exact atHomes_nop
  | cons it its ih => exact (atHomes_atomItem k core uid frank kind it).seq ih

/-! ## Stores (R261, R376) -/

theorem atHomes_storeGo (core uid : Nat) (e : SqE) (other : Piece → Bool) (ps : List Piece) (bs : List Byte) :
    (storeEntry.go core uid e other ps bs).AtHomes := by
  induction ps generalizing bs with
  | nil => exact atHomes_nop
  | cons p ps ih =>
    refine Eff.AtHomes.seq ?_ (ih _)
    split
    · exact atHomes_writePiece _ _ _ _ _ _
    · exact atHomes_nop

theorem atHomes_storeEntry (core uid : Nat) (e : SqE) : (storeEntry core uid e).AtHomes := by
  refine atHomes_all _ fun f hf => ?_
  simp only [List.mem_cons, List.not_mem_nil, or_false] at hf
  rcases hf with rfl | rfl | rfl | rfl
  · exact atHomes_forEach _ _ fun it => atHomes_of fun s => ⟨mergeRuns core (physRuns s it.pieces), rfl, atHomes_mergeRuns _ _⟩
  · exact atHomes_storeCells _ _ _ _ _ _
  · exact atHomes_storeCells _ _ _ _ _ _
  · exact (atHomes_forEach _ _ fun _ => atHomes_storeGo _ _ _ _ _ _).when _

/-! ## The head of a queue -/

/-- What the head of a queue does at its places. -/
def headEff (core uid : Nat) (e : SqE) : Eff :=
  match e.kind with
  | .store => storeEntry core uid e
  | .writeBack _ => Eff.nop
  | .hold _ => Eff.nop
  | k => fun s => (atomItems (.entry e.id) core uid e.frank k e.items s).1

/-- The values found by the lanes of the head of a queue. -/
def headOlds (core uid : Nat) (e : SqE) (s : State) : List (Nat × Nat) :=
  match e.kind with
  | .store => []
  | .writeBack _ => []
  | .hold _ => []
  | k => (atomItems (.entry e.id) core uid e.frank k e.items s).2

theorem atHomes_headEff (core uid : Nat) (e : SqE) : (headEff core uid e).AtHomes := by
  unfold headEff
  split
  · exact atHomes_storeEntry _ _ _
  · exact atHomes_nop
  · exact atHomes_nop
  · exact atHomes_atomItems _ _ _ _ _ _

/-- The head leaves its queue. -/
def popHead (p : Nat) (e : SqE) (rest : List SqE) (olds : List (Nat × Nat)) : Eff := fun s =>
  match mfind s.groups p with
  | some g => [.group p (atomResults e.id s.fresh e.kind olds { g with sq := rest }), .fresh (s.fresh + 1)]
  | none => []

theorem performHead_eq {s : State} {p : Nat} {g : Group} {e : SqE} {rest : List SqE} (hg : mfind s.groups p = some g)
    (hsq : g.sq = e :: rest) :
    performHead p s = Eff.seq (headEff (coreOfG p) g.uid e) (popHead p e rest (headOlds (coreOfG p) g.uid e s)) s := by
  unfold performHead headEff headOlds popHead
  simp only [hg, hsq]
  cases e.kind with
  | writeBack | hold => simp [Eff.seq, Eff.nop, hg]
  | _ => rfl

/-- The state after the head of a queue has performed: what it does at its places, then its group without it. -/
theorem applyAll_performHead {s : State} {p : Nat} {g : Group} {e : SqE} {rest : List SqE} (hg : mfind s.groups p = some g)
    (hsq : g.sq = e :: rest) :
    applyAll (performHead p s) s =
      applyAll [.group p (atomResults e.id s.fresh e.kind (headOlds (coreOfG p) g.uid e s) { g with sq := rest }), .fresh (s.fresh + 1)]
        (applyAll (headEff (coreOfG p) g.uid e s) s) := by
  have hkept := (atHomes_headEff (coreOfG p) g.uid e).homesOnly s
  rw [performHead_eq hg hsq, applyAll_seq]
  simp only [popHead, hkept.groups, hg, hkept.fresh]

/-- A ready head performs, and then its group has left it behind (R261). -/
theorem storePerform_done {s : State} {p : Nat} {g : Group} {e : SqE} {rest : List SqE} {P : State → Prop} (hp : p = subjAt s 0)
    (hg : mfind s.groups p = some g) (hsq : g.sq = e :: rest) (hready : headReady s (coreOfG p) e = true)
    (hpoison : entryPoison s e = none)
    (hP : ∀ t, mfind t.groups p = some (atomResults e.id s.fresh e.kind (headOlds (coreOfG p) g.uid e s) { g with sq := rest }) →
      t.mem = (applyAll (headEff (coreOfG p) g.uid e s) s).mem → t.spad = (applyAll (headEff (coreOfG p) g.uid e s) s).spad → P t) :
    EventDoes .storePerform s storeParts [p] [] P := by
  have hevent : storeEvent p s = performHead p s := by
    simp only [storeEvent, hg, hsq, hready, hpoison, Bool.not_true, Bool.false_eq_true, if_false]
  have hkept := (atHomes_headEff (coreOfG p) g.uid e).homesOnly s
  refine ⟨applyAll (performHead p s) s, ?_, ?_, ?_⟩
  · subst hp
    exact congrArg (fun us => Host.Outcome.next (applyAll us s)) hevent
  · rw [applyAll_performHead hg hsq]
    refine ⟨hkept.same, fun q hq => ?_, fun q _ => congrArg (mfind · q) hkept.streams⟩
    have hne : q ≠ p := by simpa using hq
    exact (mfind_mput_other _ _ _ _ hne).trans (congrArg (mfind · q) hkept.groups)
  · rw [applyAll_performHead hg hsq]
    exact hP _ (mfind_mput_same _ _ _) rfl rfl

end Sys2Proof.Machine
end

section
/-! PROOFS. Stores and atomics at a scratchpad and at pages mapped NC (O44, O58). -/

namespace Sys2Proof.Machine

/-! ## Bytes after a write -/

/-- Cells written at once. -/
theorem bytesAfter_writeCells (m : List Host.Cell) (a : Nat) (bs : List Byte) : BytesAfter m (writeCells m (cellsAt a bs)) a bs :=
  fun x => by
    rw [readByte_writeCells (fun x => bs.getD (x - a) 0) (cellsAt a bs) m fun c hc => (mem_cellsAt.1 hc).2.2]
    refine if_congr ⟨?_, fun h => ⟨(x, bs.getD (x - a) 0), mem_cellsAt.2 ⟨h.1, h.2, rfl⟩, rfl⟩⟩ rfl rfl
    rintro ⟨c, hc, rfl⟩
    obtain ⟨h1, h2, -⟩ := mem_cellsAt.1 hc
    exact ⟨h1, h2⟩

theorem applyAll_forEach_cons {α : Type} (x : α) (l : List α) (f : α → Eff) (s : State) :
    applyAll (Eff.forEach (x :: l) f s) s = applyAll (Eff.forEach l f (applyAll (f x s) s)) (applyAll (f x s) s) := applyAll_seq _ _ _

/-- Writes that, at lines where nothing holds them off, perform at once, made line by line: the cells of those lines. -/
theorem forEach_lineWrites {Q : State → Nat → Prop} {W : Nat → List Host.Cell → Eff}
    (hW : ∀ l cs s, Q s l → (applyAll (W l cs s) s).mem = writeCells s.mem cs ∧ ∀ m, Q s m → Q (applyAll (W l cs s) s) m)
    (f : Nat → Byte) (cs : List Host.Cell) (hf : ∀ c ∈ cs, c.2 = f c.1) (ls : List Nat) (s : State) (h : ∀ l ∈ ls, Q s l) (x : Nat) :
    readByte (applyAll (Eff.forEach ls (fun l => W l (cs.filter (fun c => lineOf c.1 == l))) s) s).mem x =
      if lineOf x ∈ ls ∧ ∃ c ∈ cs, c.1 = x then f x else readByte s.mem x := by
  induction ls generalizing s with
  | nil => simp [Eff.forEach, Eff.all, Eff.nop]
  | cons l ls ih =>
    obtain ⟨hmem, hkeeps⟩ := hW l (cs.filter (fun c => lineOf c.1 == l)) s (h l List.mem_cons_self)
    have hown : (∃ d ∈ cs.filter (fun d => lineOf d.1 == l), d.1 = x) ↔ lineOf x = l ∧ ∃ c ∈ cs, c.1 = x := by
      simp only [List.mem_filter, beq_iff_eq]
      constructor
      · rintro ⟨d, ⟨hd, hl⟩, rfl⟩
        exact ⟨hl, d, hd, rfl⟩
      · rintro ⟨hl, c, hc, rfl⟩
        exact ⟨c, ⟨hc, hl⟩, rfl⟩
    rw [applyAll_forEach_cons, ih _ fun m hm => hkeeps m (h m (List.mem_cons_of_mem _ hm)), hmem,
      readByte_writeCells f _ _ fun c hc => hf c (List.mem_of_mem_filter hc)]
    simp only [hown, List.mem_cons]
    by_cases hc : ∃ c ∈ cs, c.1 = x
    · by_cases hx : lineOf x = l <;> simp [hc, hx]
    · simp [hc]

theorem mem_cellLines {cs : List Host.Cell} {l : Nat} : l ∈ cellLines cs ↔ ∃ c ∈ cs, lineOf c.1 = l := by
  simp [cellLines, List.mem_eraseDups]

/-! ## Writes through pages mapped NC (R260) -/

/-- Nothing holds off a core's write through a page mapped NC to a line. -/
def NcOpen (core : Nat) (s : State) (l : Nat) : Prop :=
  (getDir s l).priv = [] ∧ liveLeases s l = [] ∧ foreignHolders s core l = [] ∧ homeWaits s l = false ∧ lineBlocked s l = false

theorem ncOpen_congr {s t : State} {core l : Nat} (hd : t.coh.dirs = s.coh.dirs) (hl : t.coh.leases = s.coh.leases)
    (hh : t.coh.homeq = s.coh.homeq) (hm : t.coh.migs = s.coh.migs) (hc : t.clk = s.clk) (h : NcOpen core s l) : NcOpen core t l := by
  unfold NcOpen getDir liveLeases foreignHolders homeWaits lineBlocked getDir at *
  rw [hd, hl, hh, hm, hc]
  exact h

theorem ncOpen_of_linesOpen {s : State} {core a n l : Nat} (hn : noPrivate s) (h : linesOpen s core a n) (hl : l ∈ linesOf a n) :
    NcOpen core s l := ⟨getDir_priv_of_noPrivate hn l, h l hl⟩

theorem framed_ncWrite (core uid frank line : Nat) (cs : List Host.Cell) : Framed homeParts (ncWrite core uid frank line cs) :=
  (framed_mergeLine _).seq (framed_of fun s => by
    split
    · exact ⟨_, rfl, (framed_performCells _).seq ((framed_dropNc _ _).seq (((framed_count _ _ _).mono (by simp)).seq (framed_nop _)))⟩
    · exact ⟨_, rfl, framed_queueWrite _ _ _ _ _ _⟩)

theorem ncWrite_open (core uid frank line : Nat) (cs : List Host.Cell) (s : State) (h : NcOpen core s line) :
    (applyAll (ncWrite core uid frank line cs s) s).mem = writeCells s.mem cs ∧
    ∀ l, NcOpen core s l → NcOpen core (applyAll (ncWrite core uid frank line cs s) s) l := by
  obtain ⟨hpriv, hleases, hholders, hwaits, hblocked⟩ := h
  have hop : ncWrite core uid frank line cs s =
      Eff.seq (performCells cs) (Eff.seq (dropNc core [line]) (countAt frank (line * 128) cs.length)) s := by
    simp [ncWrite, Eff.seq, Eff.all, Eff.nop, mergeLine_of_priv_nil hpriv, hleases, hholders, hwaits, hblocked]
  have hclk := (framed_ncWrite core uid frank line cs).same s .clk (by decide)
  have hrest : Framed [.cores] (Eff.seq (dropNc core [line]) (countAt frank (line * 128) cs.length)) :=
    (framed_of_onCores (onCores_dropNc _ _)).seq ((framed_count _ _ _).mono (by simp))
  obtain ⟨hmem, -, hcoh⟩ := performCells_done cs s
  rw [hop, applyAll_seq] at hclk ⊢
  have hcoh' := (hrest.same (applyAll (performCells cs s) s) .coh (by simp)).trans hcoh
  exact ⟨(hrest.same _ .mem (by simp)).trans hmem, fun l => ncOpen_congr (by rw [hcoh']) (by rw [hcoh']) (by rw [hcoh']) (by rw [hcoh']) hclk⟩

theorem framed_storeNc (core uid frank : Nat) (unc : Bool) (cs : List Host.Cell) :
    Framed homeParts (storeCells core uid frank true unc cs) :=
  ((framed_of_onCores (onCores_patchL1 core cs)).mono (by simp)).seq (framed_forEach _ _ fun _ _ => framed_ncWrite _ _ _ _ _)

/-- A store through a page mapped NC, at lines where nothing holds it off, is in memory at once. -/
theorem storeNc_open (core uid frank : Nat) (unc : Bool) (a : Nat) (bs : List Byte) (s : State) (hn : noPrivate s)
    (h : linesOpen s core a bs.length) :
    BytesAfter s.mem (applyAll (storeCells core uid frank true unc (cellsAt a bs) s) s).mem a bs := fun x => by
  have hpatch := (framed_of_onCores (onCores_patchL1 core (cellsAt a bs))).same s
  have hmem : (applyAll (patchL1 core (cellsAt a bs) s) s).mem = s.mem := hpatch .mem (by simp)
  have hcoh : (applyAll (patchL1 core (cellsAt a bs) s) s).coh = s.coh := hpatch .coh (by simp)
  have hclk : (applyAll (patchL1 core (cellsAt a bs) s) s).clk = s.clk := hpatch .clk (by simp)
  have hopen : ∀ l ∈ cellLines (cellsAt a bs), NcOpen core (applyAll (patchL1 core (cellsAt a bs) s) s) l := fun l hl => by
    obtain ⟨c, hc, rfl⟩ := mem_cellLines.1 hl
    obtain ⟨h1, h2, -⟩ := mem_cellsAt.1 hc
    exact ncOpen_congr (by rw [hcoh]) (by rw [hcoh]) (by rw [hcoh]) (by rw [hcoh]) hclk
      (ncOpen_of_linesOpen hn h (lineOf_mem_linesOf h1 h2))
  have hread := forEach_lineWrites (ncWrite_open core uid frank) (fun x => bs.getD (x - a) 0) (cellsAt a bs)
    (fun c hc => (mem_cellsAt.1 hc).2.2) _ _ hopen x
  rw [hmem] at hread
  rw [storeCells, applyAll_seq]
  refine hread.trans (if_congr ⟨?_, fun hx => ?_⟩ rfl rfl)
  · rintro ⟨-, c, hc, rfl⟩
    obtain ⟨h1, h2, -⟩ := mem_cellsAt.1 hc
    exact ⟨h1, h2⟩
  · have hc : (x, bs.getD (x - a) 0) ∈ cellsAt a bs := mem_cellsAt.2 ⟨hx.1, hx.2, rfl⟩
    exact ⟨mem_cellLines.2 ⟨_, hc, rfl⟩, _, hc, rfl⟩

/-! ## One store at a scratchpad, one at a page mapped NC -/

theorem keysOf_singleton_length (p : Piece) : (keysOf [p]).length = p.len := by simp [keysOf]

theorem take_toBytes (n v : Nat) : (toBytes n v).take n = toBytes n v := List.take_of_length_le (Nat.le_of_eq (length_toBytes _ _))

theorem storeCells_nil (core uid frank : Nat) (nc unc : Bool) (s : State) : storeCells core uid frank nc unc [] s = [] := by
  simp [storeCells, patchL1, cellLines, Eff.seq, Eff.forEach, Eff.all, Eff.nop]

/-- A store of one piece in a scratchpad. -/
theorem storeEntry_spad {e : SqE} {lane c o n : Nat} {data cmp : DWord} (h : e.items = [⟨lane, [⟨.spad c o, n⟩], data, cmp⟩])
    (core uid : Nat) (s : State) :
    storeEntry core uid e s = [.spad (cellsAt (spadKey c o) (toBytes n data.toNat))] := by
  have hcells : itemCells ⟨lane, [⟨.spad c o, n⟩], data, cmp⟩ = [] := rfl
  have hruns : physRuns s [⟨.spad c o, n⟩] = [] := rfl
  simp [storeEntry, h, hcells, hruns, storeCells_nil, Eff.seq, Eff.forEach, Eff.all, Eff.nop, Eff.when, mergeRuns, storeEntry.go, writePiece,
    keysOf_singleton_length, take_toBytes]

/-- A store of one piece of a page mapped NC. -/
theorem storeEntry_nc {e : SqE} {lane a n : Nat} {data cmp : DWord} (h : e.items = [⟨lane, [⟨.phys a true, n⟩], data, cmp⟩])
    (core uid : Nat) {s : State} (hn : noPrivate s) :
    applyAll (storeEntry core uid e s) s =
      applyAll (storeCells core uid e.frank true false (cellsAt a (toBytes n data.toNat)) s) s := by
  have hcells : itemCells ⟨lane, [⟨.phys a true, n⟩], data, cmp⟩ = (cellsAt a (toBytes n data.toNat)).map (fun c => (true, c)) := by
    simp [itemCells, itemCells.go, keysOf_singleton_length, take_toBytes]
  have hmerge := mergeRuns_of_noPrivate hn core (physRuns s [⟨.phys a true, n⟩])
  simp [storeEntry, h, hcells, hmerge, storeCells_nil, Eff.forEach, Eff.when, List.filter_map, Function.comp_def]

/-! ## One atomic in a scratchpad -/

/-- A single lane's atomic is the whole of its entry. -/
theorem atomItems_singleton (k : Writer) (core uid frank : Nat) (kind : SqKind) (it : SqItem) (s : State) :
    atomItems k core uid frank kind [it] s = ((atomItem k core uid frank kind it s).1, [(it.lane, (atomItem k core uid frank kind it s).2)]) :=
  Prod.ext (List.append_nil _) rfl

theorem atomPre_spad (core frank : Nat) (kind : SqKind) (c o n : Nat) (s : State) : atomPre core frank kind [⟨.spad c o, n⟩] s = [] := by
  have hruns : physRuns s [⟨.spad c o, n⟩] = [] := rfl
  have hnone (b : Bool) : Eff.when b (Eff.forEach [(⟨.spad c o, n⟩ : Piece)] (fun p =>
      match p.place with
      | .repl _ _ _ => count frank 13 p.len
      | _ => Eff.nop)) s = [] := by cases b <;> rfl
  have hcount : countOld frank kind [⟨.spad c o, n⟩] s = [] := hnone _
  simp [atomPre, hruns, hcount, mergeRuns, Eff.forEach, Eff.all, Eff.seq, Eff.nop]

theorem piecesBytes_spad (core c o n : Nat) (s : State) : piecesBytes core [⟨.spad c o, n⟩] s = readBytes s.spad (spadKey c o) n :=
  List.append_nil _

theorem writePieces_spad (k : Writer) (core uid frank c o n v : Nat) (s : State) :
    writePieces k core uid frank [⟨.spad c o, n⟩] (toBytes n v) s = [.spad (cellsAt (spadKey c o) (toBytes n v))] := by
  simp [writePieces, writePiece, Eff.seq, Eff.nop, take_toBytes]

theorem length_readBytes (m : List Host.Cell) (a n : Nat) : (readBytes m a n).length = n := by simp [readBytes]

theorem atomItem_spad (k : Writer) (core uid frank : Nat) (kind : SqKind) (lane c o n : Nat) (data cmp : DWord) (s : State) :
    atomItem k core uid frank kind ⟨lane, [⟨.spad c o, n⟩], data, cmp⟩ s =
      (match kind with
        | .atomic op ty _ => [.spad (cellsAt (spadKey c o) (toBytes n (atomVal op ty (ofBytes (readBytes s.spad (spadKey c o) n)) data.toNat)))]
        | .cas ty _ =>
          if ofBytes (readBytes s.spad (spadKey c o) n) = cmp.toNat % 2 ^ tyWidth ty then
            [.spad (cellsAt (spadKey c o) (toBytes n data.toNat))] else []
        | _ => [], ofBytes (readBytes s.spad (spadKey c o) n)) := by
  have hpre := atomPre_spad core frank kind c o n s
  rw [atomItem_eq]
  simp only [Eff.seq, hpre, applyAll_nil, piecesBytes_spad, List.nil_append, atomPut, length_readBytes]
  cases kind with
  | atomic op ty d => simp only [writePieces_spad]
  | cas ty d => simp only [writePieces_spad, beq_iff_eq]; rfl
  | _ => rfl

/-! ## One atomic at a page mapped NC -/

/-- With no privatised copy and no waiting write, the newest bytes are memory's. -/
theorem piecesBytes_nc {s : State} (h : noneHeld s) (core a n : Nat) : piecesBytes core [⟨.phys a true, n⟩] s = readBytes s.mem a n := by
  obtain ⟨hpriv, hhomeq⟩ := h
  have hown (x : Nat) : privByte s core x = none := by simp [privByte, privOwn, getDir_priv_of_noPrivate hpriv]
  have hlast (x : Nat) : lastByte s x = readByte s.mem x := by simp [lastByte, hhomeq]
  simp [piecesBytes, newestBytes, hown, hlast, readBytes]

theorem framed_dropOld (core line : Nat) : Framed [.cores] (dropOld core line) := framed_of_onCores (onCores_dropOld core line)

theorem framed_countOld (frank : Nat) (kind : SqKind) (ps : List Piece) : Framed [] (countOld frank kind ps) :=
  Framed.when _ (framed_forEach _ _ fun p _ => by
    split
    · exact framed_count _ _ _
    · exact framed_nop _)

theorem framed_casCount (frank : Nat) (ps : List Piece) : Framed [] (casCount frank ps) := framed_forEach _ _ fun p _ => by
  split
  · exact framed_count _ _ _
  · exact framed_count _ _ _
  · exact framed_nop _

/-- Where nothing is merged, an atomic changes no more than the core's own copies before it reads. -/
theorem same_atomPre {s : State} (hn : noPrivate s) (core frank : Nat) (kind : SqKind) (ps : List Piece) :
    Same [.cores] s (applyAll (atomPre core frank kind ps s) s) := by
  have hrest : Framed [.cores] (Eff.all [Eff.forEach (physRuns s ps) (fun r => dropOld core (lineOf r.1)), countOld frank kind ps]) :=
    (framed_forEach _ _ fun r _ => framed_dropOld core (lineOf r.1)).seq
      (((framed_countOld frank kind ps).mono (by simp)).seq (framed_nop _))
  have hsplit : applyAll (atomPre core frank kind ps s) s = _ := applyAll_all_cons s (mergeRuns core (physRuns s ps))
    [Eff.forEach (physRuns s ps) (fun r => dropOld core (lineOf r.1)), countOld frank kind ps]
  rw [mergeRuns_of_noPrivate hn] at hsplit
  rw [hsplit]
  exact hrest.same s

theorem writePieces_nc (k : Writer) (core uid frank a n v : Nat) (s : State) :
    writePieces k core uid frank [⟨.phys a true, n⟩] (toBytes n v) s = storeCells core uid frank true true (cellsAt a (toBytes n v)) s := by
  simp [writePieces, writePiece, Eff.seq, Eff.nop, take_toBytes]

/-- What an atomic or cas of one piece of a page mapped NC leaves, where nothing holds its write off. -/
theorem atomItem_nc (k : Writer) (core uid frank : Nat) (kind : SqKind) (lane a n : Nat) (data cmp : DWord) {s : State} {old : Nat}
    (h : noneHeld s) (hopen : linesOpen s core a n) (hold : old = ofBytes (readBytes s.mem a n)) :
    let t := applyAll (atomItem k core uid frank kind ⟨lane, [⟨.phys a true, n⟩], data, cmp⟩ s).1 s
    t.spad = s.spad ∧
    (∀ op ty d, kind = .atomic op ty d → BytesAfter s.mem t.mem a (toBytes n (atomVal op ty old data.toNat))) ∧
    ∀ ty d, kind = .cas ty d → if old = cmp.toNat % 2 ^ tyWidth ty then
      BytesAfter s.mem t.mem a (toBytes n data.toNat) else t.mem = s.mem := by
  have hpre := same_atomPre h.1 core frank kind [⟨.phys a true, n⟩]
  intro t
  have ht : t = applyAll (atomPut k core uid frank kind ⟨lane, [⟨.phys a true, n⟩], data, cmp⟩
      (applyAll (atomPre core frank kind [⟨.phys a true, n⟩] s) s)) (applyAll (atomPre core frank kind [⟨.phys a true, n⟩] s) s) := by
    rw [← applyAll_seq]
    exact congrArg (fun r => applyAll r.1 s) (atomItem_eq k core uid frank kind ⟨lane, [⟨.phys a true, n⟩], data, cmp⟩ s)
  generalize applyAll (atomPre core frank kind [⟨.phys a true, n⟩] s) s = s1 at *
  have hmem : s1.mem = s.mem := hpre .mem (by simp)
  have hspad : s1.spad = s.spad := hpre .spad (by simp)
  have hcoh : s1.coh = s.coh := hpre .coh (by simp)
  have hclk : s1.clk = s.clk := hpre .clk (by simp)
  have hheld : noneHeld s1 := by simpa only [noneHeld, noPrivate, hcoh] using h
  have hopen1 : linesOpen s1 core a n := by
    simpa only [linesOpen, liveLeases, foreignHolders, getDir, homeWaits, lineBlocked, hcoh, hclk] using hopen
  have hbytes : piecesBytes core [⟨.phys a true, n⟩] s1 = readBytes s.mem a n := (piecesBytes_nc hheld core a n).trans (by rw [hmem])
  have hstore (v : Nat) : (applyAll (writePieces k core uid frank [⟨.phys a true, n⟩] (toBytes n v) s1) s1).spad = s.spad ∧
      BytesAfter s.mem (applyAll (writePieces k core uid frank [⟨.phys a true, n⟩] (toBytes n v) s1) s1).mem a (toBytes n v) := by
    rw [writePieces_nc, ← hmem]
    exact ⟨((framed_storeNc _ _ _ _ _).same s1 .spad (by simp)).trans hspad,
      storeNc_open _ _ _ _ _ _ _ hheld.1 (by rw [length_toBytes]; exact hopen1)⟩
  subst hold
  cases kind with
  | atomic op ty d =>
    simp only [atomPut, hbytes, length_readBytes] at ht
    obtain ⟨h1, h2⟩ := hstore (atomVal op ty (ofBytes (readBytes s.mem a n)) data.toNat)
    rw [← ht] at h1 h2
    exact ⟨h1, fun _ _ _ hk => by cases hk; exact h2, fun _ _ hk => nomatch hk⟩
  | cas ty d =>
    simp only [atomPut, hbytes, length_readBytes, beq_iff_eq] at ht
    by_cases hmatch : ofBytes (readBytes s.mem a n) = cmp.toNat % 2 ^ tyWidth ty
    · obtain ⟨h1, h2⟩ := hstore data.toNat
      rw [if_pos hmatch] at ht
      rw [← ht] at h1 h2
      exact ⟨h1, fun _ _ _ hk => (nomatch hk), fun _ _ hk => by cases hk; rw [if_pos hmatch]; exact h2⟩
    · have hcount := (framed_casCount frank [⟨.phys a true, n⟩]).same s1
      rw [if_neg hmatch] at ht
      rw [← ht] at hcount
      exact ⟨(hcount .spad (by simp)).trans hspad, fun _ _ _ hk => (nomatch hk),
        fun _ _ hk => by cases hk; rw [if_neg hmatch]; exact (hcount .mem (by simp)).trans hmem⟩
  | store | writeBack | hold =>
    refine ⟨?_, fun _ _ _ hk => (nomatch hk), fun _ _ hk => nomatch hk⟩
    rw [ht]; exact hspad

end Sys2Proof.Machine
end

section
/-! PROOFS. Atomics at their turn, and the settlement of O44 (R264, R266, R299). -/

namespace Sys2Proof.Machine

/-! ## Loads behind an acquire -/

theorem sq_of_stream {i : Instr} {iss : Issue} {s : State} {c : Ctx} (h : ctxOf i iss s = some c) (hc : c.strm = true) : c.sq = [] := by
  unfold ctxOf at h
  dsimp only at h
  repeat' split at h
  all_goals cases h
  · cases hc
  · cases hc
  · rfl
  · rfl

theorem withLoad_of_acquire {c : Ctx} {s : State} {x : LoadCase} {at_ : List (Nat × List Piece)} {eff : Eff} {id : Nat}
    (hloc : locate s x.who (if x.mode.root then .acq else if x.mode.useL1 then .load else .home) x.n x.late x.rs = .ok at_ eff)
    (hclear : loadClear c s x.mode.useL1 at_ eff) (hacq : acqHeld c.sq = some id)
    (k : State → Eff → List (Nat × List Piece) → List (Nat × Nat) → Res) :
    withLoad c s x.who x.n x.late x.rs x.mode k = .park (.retry (.sqEntry id)) (loadPre c s at_ eff) := by
  obtain ⟨hpoison, hblocked⟩ := hclear
  simp only [readState] at hpoison hblocked
  have hloc' : locate s x.who x.mode.acc x.n x.late x.rs = .ok at_ eff := hloc
  simp only [withLoad, hloc', hpoison, hblocked, hacq]
  rfl

/-- A load of a group whose queue holds an acquire waits (R299). -/
theorem load_parks {i : Instr} {s : State} {c : Ctx} {x : LoadCase} {at_ : List (Nat × List Piece)} {eff : Eff} {id : Nat}
    {body : Ctx → State → Res} {k : State → Eff → List (Nat × List Piece) → List (Nat × Nat) → Res}
    (h : Issues i anyProfile s c)
    (hloc : locate s x.who (if x.mode.root then .acq else if x.mode.useL1 then .load else .home) x.n x.late x.rs = .ok at_ eff)
    (hclear : loadClear c s x.mode.useL1 at_ eff) (hacq : acqHeld c.sq = some id)
    (hx : exec i s = issue i body s) (hb : body c s = withLoad c s x.who x.n x.late x.rs x.mode k) :
    ∃ t, exec i s = .next t ∧ Parks c s t loadParts (.retry (.sqEntry id)) := by
  obtain ⟨iss, -, hctx⟩ := ctxHere_iss h.1
  have hs : c.strm = false := by
    by_contra hs
    rw [sq_of_stream hctx (Bool.eq_true_of_not_eq_false hs)] at hacq
    cases hacq
  have hpre := framed_loadPre (c := c) (s := s) (at_ := at_) (onCores_locate hloc)
  refine ⟨_, hx.trans (issue_retry h (hb.trans (withLoad_of_acquire hloc hclear hacq k))), ?_⟩
  have hsame : Same (cardParts c s ++ loadParts) s (applyAll (loadPre c s at_ eff s) s) :=
    (hpre.same s).mono fun x hx => List.mem_append_right _ ((by decide : ∀ x ∈ homeParts, x ∈ loadParts) x hx)
  exact (parks_parkAt h.1 hs hsame (hpre.groups s) (hpre.streams s) (applyAll_seq _ _ _)).1

/-! ## The new values of integer atomics (R264) -/

theorem atomVal_int (ty : Ty) {old x : Nat} (hold : old < 2 ^ tyWidth ty) (hx : x < 2 ^ tyWidth ty) :
    atomVal 0 ty old x = (old + x) % 2 ^ tyWidth ty ∧
    (atomVal 1 ty old x = old ∨ atomVal 1 ty old x = x) ∧ intVal ty (atomVal 1 ty old x) = min (intVal ty old) (intVal ty x) ∧
    (atomVal 2 ty old x = old ∨ atomVal 2 ty old x = x) ∧ intVal ty (atomVal 2 ty old x) = max (intVal ty old) (intVal ty x) ∧
    atomVal 3 ty old x = old &&& x ∧ atomVal 4 ty old x = old ||| x ∧ atomVal 5 ty old x = old ^^^ x ∧ atomVal 6 ty old x = x := by
  have h1 : atomVal 1 ty old x = if intVal ty x < intVal ty old then x else old := by simp [atomVal, Nat.mod_eq_of_lt hx]
  have h2 : atomVal 2 ty old x = if intVal ty old < intVal ty x then x else old := by simp [atomVal, Nat.mod_eq_of_lt hx]
  refine ⟨rfl, ?_, ?_, ?_, ?_, Nat.mod_eq_of_lt (Nat.and_lt_two_pow _ hx), Nat.mod_eq_of_lt (Nat.or_lt_two_pow hold hx),
    Nat.mod_eq_of_lt (Nat.xor_lt_two_pow hold hx), Nat.mod_eq_of_lt hx⟩
  · rw [h1]; split <;> simp
  · rw [h1]; split <;> omega
  · rw [h2]; split <;> simp
  · rw [h2]; split <;> omega

/-! ## The value found reaches the destination -/

theorem getV_lateWrite (fresh : Nat) {ty : Ty} (h : tyIs64 ty = false) (k lane v : Nat) (r : Regs) :
    getV (lateWrite fresh [] ty (.v k) lane v r).l k lane = BitVec.ofNat 32 (v % 2 ^ 32) := by
  simp [lateWrite, lateElem, h, setElem, getV, setV, mget_mset]

/-- With no later result outstanding, the destination of a lane's atomic holds the value found. -/
theorem getV_atomResults {id fresh op lane k old : Nat} {ty : Ty} {g : Group} (h : tyIs64 ty = false)
    (hone : g.u.outs.length ≤ 1) :
    getV (atomResults id fresh (.atomic op ty (some (.v k))) [(lane, old)] g).u.regs.l k lane = BitVec.ofNat 32 (old % 2 ^ 32) := by
  have hlater : (g.u.outs.dropWhile (fun o => o.sq != some id)).drop 1 = [] :=
    List.drop_eq_nil_of_le ((List.length_dropWhile_le _ _).trans hone)
  simp only [atomResults, hlater, List.foldl_cons, List.foldl_nil]
  exact getV_lateWrite fresh h k lane old g.u.regs

/-! ## The head of a queue -/

theorem head_of_atomic {e : SqE} (h : (∃ op ty d, e.kind = .atomic op ty d) ∨ ∃ ty d, e.kind = .cas ty d) (core uid : Nat) (s : State) :
    headEff core uid e s = (atomItems (.entry e.id) core uid e.frank e.kind e.items s).1 ∧
    headOlds core uid e s = (atomItems (.entry e.id) core uid e.frank e.kind e.items s).2 := by
  rcases h with ⟨op, ty, d, hk⟩ | ⟨ty, d, hk⟩ <;> simp [headEff, headOlds, hk]

/-- A head of one piece in a scratchpad: what it leaves of memory and of the scratchpads. -/
theorem head_spad {e : SqE} {lane c o n old : Nat} {data cmp : DWord} {s : State} (core uid : Nat)
    (hitems : e.items = [⟨lane, [⟨.spad c o, n⟩], data, cmp⟩]) (hold : old = ofBytes (readBytes s.spad (spadKey c o) n)) :
    let t := applyAll (headEff core uid e s) s
    t.mem = s.mem ∧
    (∀ op ty d, e.kind = .atomic op ty d → headOlds core uid e s = [(lane, old)] ∧
      BytesAfter s.spad t.spad (spadKey c o) (toBytes n (atomVal op ty old data.toNat))) ∧
    ∀ ty d, e.kind = .cas ty d → if old = cmp.toNat % 2 ^ tyWidth ty then
      BytesAfter s.spad t.spad (spadKey c o) (toBytes n data.toNat) else t.spad = s.spad := by
  intro t
  have hitem := atomItem_spad (.entry e.id) core uid e.frank e.kind lane c o n data cmp s
  rw [← hold] at hitem
  cases hk : e.kind with
  | store =>
    have ht : t = applyAll [.spad (cellsAt (spadKey c o) (toBytes n data.toNat))] s := by
      rw [← storeEntry_spad hitems core uid s]
      simp only [t, headEff, hk]
    exact ⟨by rw [ht]; rfl, fun _ _ _ h => (nomatch h), fun _ _ h => nomatch h⟩
  | writeBack | hold =>
    have ht : t = s := by simp only [t, headEff, hk]; rfl
    exact ⟨by rw [ht], fun _ _ _ h => (nomatch h), fun _ _ h => nomatch h⟩
  | atomic op ty d =>
    obtain ⟨heff, holds⟩ := head_of_atomic (.inl ⟨op, ty, d, hk⟩) core uid s
    rw [hitems, atomItems_singleton, hitem] at heff holds
    simp only [hk] at heff holds
    have ht : t = applyAll [.spad (cellsAt (spadKey c o) (toBytes n (atomVal op ty old data.toNat)))] s := by rw [← heff]
    refine ⟨by rw [ht]; rfl, fun _ _ _ h => ?_, fun _ _ h => nomatch h⟩
    cases h
    exact ⟨holds, by rw [ht]; exact bytesAfter_writeCells _ _ _⟩
  | cas ty d =>
    obtain ⟨heff, -⟩ := head_of_atomic (.inr ⟨ty, d, hk⟩) core uid s
    rw [hitems, atomItems_singleton, hitem] at heff
    simp only [hk] at heff
    by_cases hmatch : old = cmp.toNat % 2 ^ tyWidth ty
    · rw [if_pos hmatch] at heff
      have ht : t = applyAll [.spad (cellsAt (spadKey c o) (toBytes n data.toNat))] s := by rw [← heff]
      refine ⟨by rw [ht]; rfl, fun _ _ _ h => (nomatch h), fun _ _ h => ?_⟩
      cases h
      rw [if_pos hmatch, ht]
      exact bytesAfter_writeCells _ _ _
    · rw [if_neg hmatch] at heff
      have ht : t = s := by rw [← applyAll_nil s, ← heff]
      refine ⟨by rw [ht], fun _ _ _ h => (nomatch h), fun _ _ h => ?_⟩
      cases h
      rw [if_neg hmatch, ht]

/-- A head of one piece of a page mapped NC, where nothing holds its write off. -/
theorem head_nc {e : SqE} {lane a n old : Nat} {data cmp : DWord} {s : State} {core : Nat} (uid : Nat)
    (hitems : e.items = [⟨lane, [⟨.phys a true, n⟩], data, cmp⟩]) (hheld : noneHeld s) (hopen : linesOpen s core a n)
    (hold : old = ofBytes (readBytes s.mem a n)) :
    let t := applyAll (headEff core uid e s) s
    t.spad = s.spad ∧
    (∀ op ty d, e.kind = .atomic op ty d → BytesAfter s.mem t.mem a (toBytes n (atomVal op ty old data.toNat))) ∧
    ∀ ty d, e.kind = .cas ty d → if old = cmp.toNat % 2 ^ tyWidth ty then
      BytesAfter s.mem t.mem a (toBytes n data.toNat) else t.mem = s.mem := by
  intro t
  have hitem := atomItem_nc (.entry e.id) core uid e.frank e.kind lane a n data cmp hheld hopen hold
  cases hk : e.kind with
  | store =>
    have ht : t = applyAll (storeCells core uid e.frank true false (cellsAt a (toBytes n data.toNat)) s) s := by
      rw [← storeEntry_nc hitems core uid hheld.1]
      simp only [t, headEff, hk]
    exact ⟨by rw [ht]; exact (framed_storeNc _ _ _ _ _).same s .spad (by simp), fun _ _ _ h => (nomatch h), fun _ _ h => nomatch h⟩
  | writeBack | hold =>
    have ht : t = s := by simp only [t, headEff, hk]; rfl
    exact ⟨by rw [ht], fun _ _ _ h => (nomatch h), fun _ _ h => nomatch h⟩
  | atomic op ty d =>
    have heff := (head_of_atomic (.inl ⟨op, ty, d, hk⟩) core uid s).1
    rw [hitems, atomItems_singleton] at heff
    rw [← hk]
    simpa only [t, heff] using hitem
  | cas ty d =>
    have heff := (head_of_atomic (.inr ⟨ty, d, hk⟩) core uid s).1
    rw [hitems, atomItems_singleton] at heff
    rw [← hk]
    simpa only [t, heff] using hitem

/-- Settles O44: a load behind an acquire parks; the head of a queue performs its lanes in order, and its lone lane at a
scratchpad or at an open page mapped NC reads and writes the bytes there. -/
theorem acquireAtomics : Obligations.AcquireAtomics := by
  unfold Obligations.AcquireAtomics
  refine ⟨fun i s c x at_ eff id h hx hloc hclear hacq => ?_, fun s p g e rest r hp hg hsq hready hpoison hkind hr => ?_,
    fun s p g e rest lane c o n data cmp old hp hg hsq hready hpoison hitems hold => ?_,
    fun s p g e rest lane a n data cmp old hp hg hsq hready hpoison hitems hheld hopen hold => ?_,
    fun ty old x _ hold hx => atomVal_int ty hold hx⟩
  · cases i with
    | ld w | kld w =>
      cases hx
      exact load_parks h hloc hclear hacq rfl rfl
    | _ => cases hx
  · obtain ⟨heff, holds⟩ := head_of_atomic hkind (coreOfG p) g.uid s
    refine storePerform_done hp hg hsq hready hpoison fun t hgroup hmem hspad => ?_
    rw [holds, ← hr] at hgroup
    rw [heff, ← hr] at hmem hspad
    exact ⟨hgroup, hmem, hspad⟩
  · obtain ⟨t, hx, -, hgroup, hmem, hspad⟩ := storePerform_done hp hg hsq hready hpoison
      (P := fun t => _ ∧ _ ∧ _) fun t hgroup hmem hspad => ⟨hgroup, hmem, hspad⟩
    obtain ⟨hkept, hatomic, hcas⟩ := head_spad (coreOfG p) g.uid hitems hold
    refine ⟨t, hx, hmem.trans hkept, fun op ty d hk => ?_, fun ty d hk => ?_, fun op ty k hk h32 _ hone => ⟨_, hgroup, ?_⟩⟩
    · rw [hspad]; exact (hatomic op ty d hk).2
    · rw [hspad]; exact hcas ty d hk
    · rw [(hatomic _ _ _ hk).1, hk]
      exact getV_atomResults h32 hone
  · obtain ⟨t, hx, -, -, hmem, hspad⟩ := storePerform_done hp hg hsq hready hpoison
      (P := fun t => _ ∧ _ ∧ _) fun t hgroup hmem hspad => ⟨hgroup, hmem, hspad⟩
    obtain ⟨hkept, hatomic, hcas⟩ := head_nc g.uid hitems hheld hopen hold
    rw [← hmem] at hatomic hcas
    exact ⟨t, hx, hspad.trans hkept, hatomic, hcas⟩

end Sys2Proof.Machine
end

section
/-! PROOFS. The events of the store queues, the homes and the directory (O58: R258 to R261, R307 to R311). -/

namespace Sys2Proof.Machine

/-! ## Shared facts -/

theorem takeNth_of_takenAt {α : Type} {l : List α} {n : Nat} {x : α} {rest : List α} (h : takenAt l n x rest) :
    takeNth l n = some (x, rest) := by
  obtain ⟨hx, rfl⟩ := h
  simp only [takeNth, hx]

theorem framed_onCoh (f : Coh → Coh) : Framed [.coh] (onCoh f) := framed_coh _

/-! ## Stores at their turn -/

/-- What the results of an atomic change of its group. -/
theorem atomResults_keeps (id fresh : Nat) (kind : SqKind) (olds : List (Nat × Nat)) (g : Group) :
    atomResults id fresh kind olds g =
      { g with u := { g.u with regs := (atomResults id fresh kind olds g).u.regs, outs := (atomResults id fresh kind olds g).u.outs } } := by
  unfold atomResults
  dsimp only
  split <;> rfl

theorem head_of_store {e : SqE} (h : e.kind = .store) (core uid : Nat) : headEff core uid e = storeEntry core uid e := by
  simp only [headEff, h]

theorem storePerform_keeps {s : State} {p : Nat} {g : Group} {e : SqE} {rest : List SqE} (hp : p = subjAt s 0)
    (hg : mfind s.groups p = some g) (hsq : g.sq = e :: rest) (hready : headReady s (coreOfG p) e = true)
    (hpoison : entryPoison s e = none) :
    EventDoes .storePerform s [.mem, .spad, .cores, .coh] [p] [] (fun t =>
      (∃ h, mfind t.groups p = some h ∧ h = { g with sq := rest, u := { g.u with regs := h.u.regs, outs := h.u.outs } } ∧
        (e.kind = .store → h.u.regs = g.u.regs)) ∧
      (∀ lane c o n data cmp, e.kind = .store → e.items = [⟨lane, [⟨.spad c o, n⟩], data, cmp⟩] →
        t.mem = s.mem ∧ BytesAfter s.spad t.spad (spadKey c o) (toBytes n data.toNat)) ∧
      ∀ lane a n data cmp, e.kind = .store → e.items = [⟨lane, [⟨.phys a true, n⟩], data, cmp⟩] → noPrivate s →
        linesOpen s (coreOfG p) a n → t.spad = s.spad ∧ BytesAfter s.mem t.mem a (toBytes n data.toNat)) := by
  refine storePerform_done hp hg hsq hready hpoison fun t hgroup hmem hspad => ⟨⟨_, hgroup, atomResults_keeps _ _ _ _ _, fun hk => ?_⟩,
    fun lane c o n data cmp hk hitems => ?_, fun lane a n data cmp hk hitems hn hopen => ?_⟩
  · rw [hk]; rfl
  · rw [head_of_store hk, storeEntry_spad hitems] at hmem hspad
    exact ⟨hmem, hspad ▸ bytesAfter_writeCells _ _ _⟩
  · rw [head_of_store hk, storeEntry_nc hitems _ _ hn] at hmem hspad
    rw [hmem, hspad]
    exact ⟨(framed_storeNc _ _ _ _ _).same s .spad (by simp), storeNc_open _ _ _ _ _ _ _ hn (by rwa [length_toBytes])⟩

/-! ## Writes that waited at their homes -/

/-- The homes without a write that performs now, and without the leases of its line that have ended. -/
def homeTaken (w : HomeW) (s : State) : Coh :=
  { s.coh with
    homeq := s.coh.homeq.filter (fun x => x.id != w.id)
    leases := s.coh.leases.filter (fun x => !(x.line == w.line && decide (x.lexp ≤ s.clk.cyc))) }

/-- A waiting write that performs leaves its bytes in memory, and of what the homes keep changes the marks and the watches alone. -/
theorem homePerform_done (w : HomeW) (s : State) :
    (applyAll (homePerform w s) s).mem = writeCells s.mem w.bytes ∧
    (applyAll (homePerform w s) s).coh = { homeTaken w s with
      stale := (applyAll (homePerform w s) s).coh.stale, poison := (applyAll (homePerform w s) s).coh.poison
      watches := (applyAll (homePerform w s) s).coh.watches } := by
  have hrest : Framed [.cores] (Eff.seq (Eff.when (w.core != outsideCore) (dropNc w.core [w.line])) (countAt w.frank (w.line * 128) w.cost)) :=
    ((framed_of_onCores (onCores_dropNc _ _)).when _).seq ((framed_count _ _ _).mono (by simp))
  obtain ⟨hmem, -, hcoh⟩ := performCells_done w.bytes { s with coh := homeTaken w s }
  have hop : applyAll (homePerform w s) s = applyAll (Eff.seq (Eff.when (w.core != outsideCore) (dropNc w.core [w.line]))
      (countAt w.frank (w.line * 128) w.cost) (applyAll (performCells w.bytes { s with coh := homeTaken w s }) { s with coh := homeTaken w s }))
      (applyAll (performCells w.bytes { s with coh := homeTaken w s }) { s with coh := homeTaken w s }) := by
    simp only [homePerform, applyAll_all_cons, applyAll_all_nil, applyAll_seq]
    rfl
  have hcoh' := hrest.same (applyAll (performCells w.bytes { s with coh := homeTaken w s }) { s with coh := homeTaken w s }) .coh (by simp)
  rw [hop]
  refine ⟨(hrest.same _ .mem (by simp)).trans hmem, ?_⟩
  rw [show (applyAll _ _).coh = _ from hcoh']
  exact hcoh

theorem framed_homeStep (l : Nat) : Framed homeParts (homeStep l) := framed_of fun s => by
  unfold homeStep
  split
  · split
    · exact ⟨_, rfl, framed_homePerform _⟩
    · exact ⟨Eff.nop, rfl, framed_nop _⟩
  · exact ⟨Eff.nop, rfl, framed_nop _⟩

/-- The first write at a home performs or not: what stays at the homes stood there before. -/
theorem homeStep_keeps (l : Nat) (s : State) :
    (applyAll (homeStep l s) s).coh.acks = s.coh.acks ∧
    (∀ x ∈ (applyAll (homeStep l s) s).coh.homeq, x ∈ s.coh.homeq) ∧ ∀ x ∈ (applyAll (homeStep l s) s).coh.leases, x ∈ s.coh.leases := by
  unfold homeStep
  split
  · split
    · next w _ _ =>
      rw [(homePerform_done w s).2]
      exact ⟨rfl, fun x hx => List.mem_of_mem_filter hx, fun x hx => List.mem_of_mem_filter hx⟩
    · exact ⟨rfl, fun _ h => h, fun _ h => h⟩
  · exact ⟨rfl, fun _ h => h, fun _ h => h⟩

/-- A ready first write performs. -/
theorem homeStep_ready {l : Nat} {s : State} {w : HomeW} (hw : homeHead s l = some w) (hready : homeReady s w = true) :
    (applyAll (homeStep l s) s).mem = writeCells s.mem w.bytes ∧ ∀ x ∈ (applyAll (homeStep l s) s).coh.homeq, x.id ≠ w.id := by
  obtain ⟨hmem, hcoh⟩ := homePerform_done w s
  simp only [homeStep, hw, hready, if_true]
  refine ⟨hmem, fun x hx => ?_⟩
  rw [hcoh] at hx
  simpa using (List.mem_filter.1 hx).2

/-- The leases of a line that have ended are gone. -/
def leasesEnded (l : Nat) : Eff := fun s =>
  [.coh { s.coh with leases := s.coh.leases.filter (fun x => !(x.line == l && decide (x.lexp ≤ s.clk.cyc))) }]

theorem leaseEnd_does {s : State} {l : Nat} (hl : l = subjAt s 0) :
    EventDoes .leaseEnd s [.mem, .cores, .coh] [] [] (fun t =>
      (∀ x ∈ t.coh.leases, x.line = l → s.clk.cyc < x.lexp) ∧
      ∀ w, homeHead s l = some w → homeReady s w = true → t.mem = writeCells s.mem w.bytes ∧ ∀ x ∈ t.coh.homeq, x.id ≠ w.id) := by
  subst hl
  refine eventDoes_of_framed (f := Eff.seq (leasesEnded (subjAt s 0)) (homeStep (subjAt s 0)))
    (((framed_coh _).mono (by simp)).seq ((framed_homeStep _).mono (by simp))) rfl ⟨fun x hx hline => ?_, fun w hw hready => ?_⟩
  · rw [applyAll_seq] at hx
    have hkept := (List.mem_filter.1 ((homeStep_keeps _ _).2.2 x hx)).2
    simpa [hline] using hkept
  · rw [applyAll_seq]
    exact homeStep_ready (s := applyAll (leasesEnded (subjAt s 0) s) s) hw hready

/-- What an acknowledgement lets the home of the write that it is for do. -/
def ackServed (o : Option HomeW) : Eff :=
  match o with
  | some w => homeStep w.line
  | none => Eff.nop

theorem ackServed_keeps (o : Option HomeW) : Framed homeParts (ackServed o) ∧ ∀ t,
    (applyAll (ackServed o t) t).coh.acks = t.coh.acks ∧ ∀ x ∈ (applyAll (ackServed o t) t).coh.homeq, x ∈ t.coh.homeq := by
  cases o with
  | some w => exact ⟨framed_homeStep _, fun t => ⟨(homeStep_keeps _ t).1, (homeStep_keeps _ t).2.1⟩⟩
  | none => exact ⟨framed_nop _, fun t => ⟨rfl, fun _ h => h⟩⟩

theorem acknowledged_does {s : State} {wid core : Nat} {rest : List (Nat × Nat)} (h : takenAt s.coh.acks (subjAt s 0) (wid, core) rest) :
    EventDoes .invalidationAcknowledged s [.mem, .cores, .coh] [] [] (fun t => t.coh.acks = rest ∧
      ∀ w ∈ t.coh.homeq, w.id = wid → ∃ w' ∈ s.coh.homeq, w'.id = wid ∧ w.acks = w'.acks.erase core) := by
  let taken : Eff := onCoh (fun c => { c with
    acks := rest
    homeq := c.homeq.map (fun w => if w.id == wid then { w with acks := w.acks.erase core } else w)
    claims := c.claims.map (fun x => if x.id == wid then { x with acks := x.acks.erase core } else x) })
  let served : Eff := ackServed (s.coh.homeq.find? (fun w => w.id == wid))
  have hserved := ackServed_keeps (s.coh.homeq.find? (fun w => w.id == wid))
  have hx : ackEvent (subjAt s 0) s = Eff.seq taken served s := by
    simp only [ackEvent, takeNth_of_takenAt h]
    rfl
  refine eventDoes_of_framed (f := Eff.seq taken served) (((framed_onCoh _).mono (by simp)).seq (hserved.1.mono (by simp)))
    (congrArg (fun us => Host.Outcome.next (applyAll us s)) hx) ?_
  rw [applyAll_seq]
  obtain ⟨hacks, hhomeq⟩ := hserved.2 (applyAll (taken s) s)
  refine ⟨hacks, fun w hw hid => ?_⟩
  obtain ⟨w', hw', hmap⟩ := List.mem_map.1 (hhomeq w hw)
  by_cases hmatch : w'.id = wid
  · refine ⟨w', hw', hmatch, ?_⟩
    rw [← hmap, if_pos (by simpa using hmatch)]
  · rw [if_neg (by simpa using hmatch)] at hmap
    exact absurd (hmap ▸ hid) hmatch

end Sys2Proof.Machine
end

section
/-! PROOFS. The events of the directory and of the caches (O58: R308 to R311, R376). -/

namespace Sys2Proof.Machine

/-! ## Invalidations -/

theorem framed_dropCopyOf (core line seq : Nat) : Framed [.cores] (dropCopyOf core line seq) := framed_cores _ fun s u hu => by
  unfold dropCopyOf at hu
  split at hu
  · split at hu
    · cases hu
    · exact ⟨_, _, List.mem_singleton.1 hu⟩
  · cases hu

/-- What an invalidation leaves of a core's copy (R311). -/
theorem l1_dropCopyOf (core line seq : Nat) (s : State) :
    mfind (getCore (applyAll (dropCopyOf core line seq s) s) core).l1 line =
      match mfind (getCore s core).l1 line with
      | some y => if y.tracked = true ∧ seqDiff seq y.seq < 0 then some y else none
      | none => none := by
  unfold dropCopyOf
  cases hl : mfind (getCore s core).l1 line with
  | none => exact hl
  | some y =>
    dsimp only
    by_cases hyoung : y.tracked = true ∧ seqDiff seq y.seq < 0
    · rw [if_pos (by simpa using hyoung), if_pos hyoung]
      exact hl
    · rw [if_neg (by simpa using hyoung), if_neg hyoung, getCore_core, if_pos rfl]
      exact mfind_mdel_same _ _

theorem invalidation_does {s : State} {x : Inval} {rest : List Inval} (h : takenAt s.coh.invals (subjAt s 0) x rest)
    (hfills : ∀ f ∈ s.coh.fills, ¬(f.core = x.core ∧ f.line = x.line)) :
    EventDoes .invalidation s [.cores, .coh] [] [] (fun t =>
      (mfind (getCore t x.core).l1 x.line = match mfind (getCore s x.core).l1 x.line with
        | some y => if y.tracked = true ∧ seqDiff x.seq y.seq < 0 then some y else none
        | none => none) ∧
      t.coh = { s.coh with invals := rest, acks := s.coh.acks ++ [(x.wid, x.core)] }) := by
  let told : Eff := onCoh (fun c => { c with invals := rest, acks := c.acks ++ [(x.wid, x.core)] })
  have hnone : s.coh.fills.find? (fun f => f.core == x.core && f.line == x.line) = none :=
    List.find?_eq_none.2 fun f hf => by simpa using hfills f hf
  have hx : invalEvent (subjAt s 0) s = Eff.seq (dropCopyOf x.core x.line x.seq) told s := by
    simp only [invalEvent, takeNth_of_takenAt h, hnone]
    rfl
  refine eventDoes_of_framed (f := Eff.seq (dropCopyOf x.core x.line x.seq) told)
    (((framed_dropCopyOf _ _ _).mono (by simp)).seq ((framed_onCoh _).mono (by simp)))
    (congrArg (fun us => Host.Outcome.next (applyAll us s)) hx) ?_
  rw [applyAll_seq]
  refine ⟨l1_dropCopyOf _ _ _ _, ?_⟩
  have hcoh : (applyAll (dropCopyOf x.core x.line x.seq s) s).coh = s.coh := (framed_dropCopyOf _ _ _).same s .coh (by simp)
  exact congrArg (fun c : Coh => { c with invals := rest, acks := c.acks ++ [(x.wid, x.core)] }) hcoh

/-- An invalidation that meets a pending fill is held with it. -/
theorem invalidationHeld_does {s : State} {x : Inval} {rest : List Inval} {f : Fill} (h : takenAt s.coh.invals (subjAt s 0) x rest)
    (hfill : s.coh.fills.find? (fun f => f.core == x.core && f.line == x.line) = some f) (hheld : f.held = none) :
    EventDoes .invalidation s [.coh] [] [] (fun t => t.coh = { s.coh with invals := rest, fills := t.coh.fills } ∧
      ∀ y ∈ t.coh.fills, y.core = x.core → y.line = x.line → y.held = some (x.seq, x.wid)) := by
  let holds : Eff := onCoh (fun c => { c with
    invals := rest
    fills := c.fills.map (fun y => if y.core == x.core && y.line == x.line then { y with held := some (x.seq, x.wid) } else y) })
  have hx : invalEvent (subjAt s 0) s = holds s := by
    simp only [invalEvent, takeNth_of_takenAt h, hfill, hheld]
    rfl
  refine eventDoes_of_framed (f := holds) (framed_onCoh _) (congrArg (fun us => Host.Outcome.next (applyAll us s)) hx)
    ⟨rfl, fun y hy hcore hline => ?_⟩
  obtain ⟨z, -, hz⟩ := List.mem_map.1 hy
  by_cases hmatch : (z.core == x.core && z.line == x.line) = true
  · rw [if_pos hmatch] at hz
    rw [← hz]
  · rw [if_neg hmatch] at hz
    exact absurd (by simp [hz, hcore, hline]) hmatch

/-! ## A clean line gives way -/

/-- A home takes the mark of a poisoned copy that comes to it, and nothing else changes. -/
theorem markHome_done (line : Nat) (bad : Bool) (s : State) :
    Same [.coh] s (applyAll (markHome line bad s) s) ∧
    (applyAll (markHome line bad s) s).coh = { s.coh with poison := (applyAll (markHome line bad s) s).coh.poison } ∧
    mfind (applyAll (markHome line bad s) s).coh.poison line =
      if bad = true ∧ mfind s.coh.poison line = none then some (memUnit line) else mfind s.coh.poison line := by
  unfold markHome
  by_cases h : bad = true ∧ mfind s.coh.poison line = none
  · rw [if_pos (by simpa using h), if_pos h]
    exact ⟨(framed_coh fun _ => _).same s, rfl, mfind_mput_same _ _ _⟩
  · rw [if_neg (by simpa using h), if_neg h]
    exact ⟨Same.refl _ _, rfl, rfl⟩

/-- A core's copy of a line given up. -/
def dropL1 (core line : Nat) : Eff := fun s => [.core core { getCore s core with l1 := mdel (getCore s core).l1 line }]

theorem getCore_dropL1 (core line k : Nat) (s : State) : getCore (applyAll (dropL1 core line s) s) k =
    if k = core then { getCore s core with l1 := mdel (getCore s core).l1 line } else getCore s k := getCore_core _ _ _ _

/-- A clean line that gives way: the core's copy is gone, and its home has its mark. -/
theorem evict_clean {s : State} {c l : Nat} (h : lineClean s c l = true) :
    evict 2 c l s = Eff.seq (dropL1 c l) (markHome l (badCopy s c l)) s := by
  simp only [evict, h, if_true]
  rfl

theorem evict_does (s : State) (c l : Nat) : ∃ t, act (.evict 2 c l) s = .next t ∧ Same [.cores, .coh] s t ∧
    (∀ k, k ≠ c → getCore t k = getCore s k) ∧ t.coh = { s.coh with poison := t.coh.poison } ∧
    (lineClean s c l = true → mfind (getCore t c).l1 l = none ∧
      mfind t.coh.poison l = if badCopy s c l = true ∧ mfind s.coh.poison l = none then some (memUnit l) else mfind s.coh.poison l) ∧
    (lineClean s c l = false → t = s) := by
  refine ⟨applyAll (evict 2 c l s) s, rfl, ?_⟩
  by_cases hclean : lineClean s c l = true
  · obtain ⟨hsame, hcoh, hpoison⟩ := markHome_done l (badCopy s c l) (applyAll (dropL1 c l s) s)
    have hdrop : Framed [.cores] (dropL1 c l) := framed_core _ _
    have hcores (k : Nat) := (getCore_congr (hsame .cores (by simp)) k).trans (getCore_dropL1 c l k s)
    rw [evict_clean hclean, applyAll_seq]
    refine ⟨((hdrop.same s).mono (by simp)).trans (hsame.mono (by simp)), fun k hk => (hcores k).trans (if_neg hk), hcoh, fun _ => ⟨?_, hpoison⟩,
      fun h => absurd hclean (by simp [h])⟩
    rw [hcores, if_pos rfl]
    exact mfind_mdel_same _ _
  · have hnone : evict 2 c l s = [] := if_neg hclean
    rw [hnone]
    exact ⟨Same.refl _ _, fun _ _ => rfl, rfl, fun h => absurd h hclean, fun _ => rfl⟩

/-! ## Fills -/

/-- A fill's copy as it is installed. -/
def filledCopy (s : State) (f : Fill) : Line := { f.copy with data := fillLine s f.core f.line }

theorem framed_installFill (f : Fill) : Framed [.cores] (installFill f) := framed_cores _ fun s u hu => by
  unfold installFill at hu
  split at hu
  · cases hu
  · exact ⟨_, _, List.mem_singleton.1 hu⟩

theorem installFill_done {f : Fill} {s : State} (h : privOwn s f.core f.line = none) :
    (∀ k, k ≠ f.core → getCore (applyAll (installFill f s) s) k = getCore s k) ∧
    if mfind s.coh.poison f.line ≠ none then (applyAll (installFill f s) s).cores = s.cores
    else mfind (getCore (applyAll (installFill f s) s) f.core).l1 f.line = some (filledCopy s f) := by
  unfold installFill
  by_cases hbad : mfind s.coh.poison f.line = none
  · rw [if_neg (by simp [h, hbad]), if_neg (by simp [hbad])]
    refine ⟨fun k hk => (getCore_core _ _ _ _).trans (if_neg hk), ?_⟩
    rw [getCore_core, if_pos rfl]
    exact mfind_mput_same _ _ _
  · rw [if_pos (by simp [Option.isSome_iff_ne_none, hbad]), if_pos hbad]
    exact ⟨fun _ _ => rfl, rfl⟩

theorem lineFill_does {s : State} {f : Fill} {rest : List Fill} (h : takenAt s.coh.fills (subjAt s 0) f rest)
    (hpriv : privOwn s f.core f.line = none) :
    EventDoes .lineFill s [.cores, .coh] [] [] (fun t => t.coh = { s.coh with fills := rest, acks := s.coh.acks ++ heldAcks [f] } ∧
      (∀ k, k ≠ f.core → getCore t k = getCore s k) ∧
      (if (∃ h, f.held = some h ∧ 0 ≤ seqDiff h.1 f.seq) ∨ mfind s.coh.poison f.line ≠ none then t.cores = s.cores
        else mfind (getCore t f.core).l1 f.line = some { f.copy with data := fillLine s f.core f.line })) := by
  let gone : Eff := onCoh (fun c => { c with fills := rest, acks := c.acks ++ heldAcks [f] })
  have hgone : Framed [.coh] gone := framed_onCoh _
  have hcore (k : Nat) : getCore (applyAll (gone s) s) k = getCore s k := rfl
  by_cases hyoung : ∃ h, f.held = some h ∧ 0 ≤ seqDiff h.1 f.seq
  · obtain ⟨⟨si, wid⟩, hheld, hsi⟩ := hyoung
    have hx : fillEvent (subjAt s 0) s = gone s := by
      simp only [fillEvent, takeNth_of_takenAt h, hheld, if_neg (not_lt.2 hsi)]
      rfl
    refine eventDoes_of_framed (f := gone) (hgone.mono (by simp)) (congrArg (fun us => Host.Outcome.next (applyAll us s)) hx)
      ⟨rfl, fun k _ => hcore k, ?_⟩
    rw [if_pos (.inl ⟨_, hheld, hsi⟩)]
    rfl
  · have hx : fillEvent (subjAt s 0) s = Eff.seq gone (installFill f) s := by
      simp only [fillEvent, takeNth_of_takenAt h]
      cases hheld : f.held with
      | none => rfl
      | some y => exact if_pos (not_le.1 fun hle => hyoung ⟨y, hheld, hle⟩)
    refine eventDoes_of_framed (f := Eff.seq gone (installFill f)) ((hgone.mono (by simp)).seq ((framed_installFill f).mono (by simp)))
      (congrArg (fun us => Host.Outcome.next (applyAll us s)) hx) ?_
    obtain ⟨hothers, hcopy⟩ := installFill_done (s := applyAll (gone s) s) (f := f) hpriv
    rw [applyAll_seq]
    refine ⟨(framed_installFill f).same _ .coh (by simp), fun k hk => (hothers k hk).trans (hcore k), ?_⟩
    simp only [hyoung, false_or]
    exact hcopy

/-! ## Merges -/

theorem dirInval_keeps (cyc : Nat) (hs : List Nat) (d : Dir) : (dirInval cyc hs d).priv = d.priv ∧ (dirInval cyc hs d).until_ = d.until_ := by
  unfold dirInval
  induction hs generalizing d with
  | nil => exact ⟨rfl, rfl⟩
  | cons h hs ih => exact (ih _)

theorem mfind_clearHolders (cyc : Nat) (ls : List Nat) (m : Map Dir) (l : Nat) :
    mfind (clearHolders cyc ls m) l = (mfind m l).map (fun d => if ls.contains l then dirInval cyc d.holders d else d) := by
  induction m with
  | nil => rfl
  | cons e m ih =>
    obtain ⟨k, d⟩ := e
    have hcons : clearHolders cyc ls ((k, d) :: m) =
        (k, if ls.contains k then dirInval cyc d.holders d else d) :: clearHolders cyc ls m := by
      simp only [clearHolders, List.map_cons]
      split <;> rfl
    rw [hcons, mfind_cons, mfind_cons, ih]
    by_cases hk : k = l
    · rw [if_pos hk, if_pos hk, hk]; rfl
    · rw [if_neg hk, if_neg hk]

/-- The directory after some lines' holders are invalidated: each entry keeps its privatised copies and the end of its ban. -/
theorem mget_clearHolders (cyc : Nat) (ls : List Nat) (m : Map Dir) (l : Nat) :
    (mget {} (clearHolders cyc ls m) l).priv = (mget {} m l).priv ∧
    (mget {} (clearHolders cyc ls m) l).until_ = (mget {} m l).until_ := by
  unfold mget
  rw [mfind_clearHolders]
  cases mfind m l with
  | none => exact ⟨rfl, rfl⟩
  | some d =>
    simp only [Option.map_some]
    split
    · exact dirInval_keeps _ _ _
    · exact ⟨rfl, rfl⟩

/-- No listed core holds a copy of a line. -/
abbrev noneHolds (l : Nat) : State → Prop := everyCore fun k => mfind k.l1 l = none

theorem l1Drops_eq (ls : List Nat) (s : State) : l1Drops ls s =
    (s.cores.filter (fun e => ls.any (fun l => (mfind e.2.l1 l).isSome))).map (fun e =>
      Upd.core e.1 { e.2 with l1 := e.2.l1.filter (fun x => !ls.contains x.1) }) := by
  unfold l1Drops
  induction s.cores with
  | nil => rfl
  | cons e cs ih =>
    rw [List.flatMap_cons, ih, List.filter_cons]
    split <;> rfl

/-- After some lines' copies are dropped no core holds one of them. -/
theorem noneHolds_l1Drops {ls : List Nat} {l : Nat} (hl : l ∈ ls) (s : State) : noneHolds l (applyAll (l1Drops ls s) s) := by
  rw [l1Drops_eq]
  refine everyCore_applyAll (fun e : Nat × Core => e.1) _ _ _ (fun e _ => ?_) fun e he hkept => ?_
  · exact (mfind_filter_key (fun k => !ls.contains k) e.2.l1 l).trans (if_neg (by simpa using hl))
  · by_contra hsome
    refine hkept e (List.mem_filter.2 ⟨he, ?_⟩) rfl
    exact List.any_eq_true.2 ⟨l, hl, Option.isSome_iff_ne_none.2 hsome⟩

/-- Lines given up: no core holds one, and the directory keeps its privatised copies and bans. -/
theorem dropLines_keeps {ls : List Nat} {l : Nat} (hl : l ∈ ls) (s : State) :
    noneHolds l (applyAll (dropLines ls s) s) ∧ (applyAll (dropLines ls s) s).coh.dirs = clearHolders s.clk.cyc ls s.coh.dirs := by
  have hdrops := (framed_l1Drops ls).same s
  have hcoh : (applyAll (l1Drops ls s) s).coh = s.coh := hdrops .coh (by simp)
  have hclk : (applyAll (l1Drops ls s) s).clk = s.clk := hdrops .clk (by simp)
  rw [dropLines, invalLines_eq, applyAll_seq, applyAll_seq]
  refine ⟨everyCore_of_cores (noneHolds_l1Drops hl s) rfl, ?_⟩
  rw [← hcoh, ← hclk]
  rfl

theorem writeMem_done (cs : List Host.Cell) (s : State) :
    (applyAll (writeMem cs s) s).mem = writeCells s.mem cs ∧ (applyAll (writeMem cs s) s).coh.dirs = s.coh.dirs ∧
    (applyAll (writeMem cs s) s).clk = s.clk := by
  unfold writeMem
  dsimp only
  split <;> exact ⟨rfl, rfl, rfl⟩

/-- A line with privatised copies after its merge (R309). -/
theorem mergeLine_done {s : State} {l : Nat} (h : (getDir s l).priv ≠ []) :
    let t := applyAll (mergeLine l s) s
    t.mem = writeCells s.mem (privCells l (getDir s l)) ∧ (getDir t l).priv = [] ∧ (getDir t l).until_ = s.clk.cyc + 65536 ∧
      noneHolds l t := by
  intro t
  let composed : Eff := Eff.seq (writeMem (privCells l (getDir s l)))
    (fun s' => [.coh { s'.coh with dirs := mput s'.coh.dirs l { getDir s l with priv := [], until_ := s'.clk.cyc + 65536 } }])
  have ht : t = applyAll (Eff.all [markHome l ((getDir s l).priv.any (·.poison)), dropLines [l],
      Eff.forEach (getDir s l).priv (fun p => countAt p.frank (l * 128) 128)] (applyAll (composed s) s)) (applyAll (composed s) s) := by
    rw [← applyAll_seq]
    exact congrArg (applyAll · s) (if_neg (by simpa using h))
  obtain ⟨hmem, hdirs, hclk⟩ := writeMem_done (privCells l (getDir s l)) s
  have hcomposed : (applyAll (composed s) s).mem = writeCells s.mem (privCells l (getDir s l)) ∧
      (applyAll (composed s) s).coh.dirs = mput s.coh.dirs l { getDir s l with priv := [], until_ := s.clk.cyc + 65536 } := by
    rw [applyAll_seq]
    exact ⟨hmem, by rw [← hdirs, ← hclk]; rfl⟩
  generalize applyAll (composed s) s = s1 at ht hcomposed
  obtain ⟨hmark, hmarkCoh, -⟩ := markHome_done l ((getDir s l).priv.any (·.poison)) s1
  rw [applyAll_all_cons, applyAll_all_cons, applyAll_all_cons, applyAll_all_nil] at ht
  generalize applyAll (markHome l ((getDir s l).priv.any (·.poison)) s1) s1 = s2 at ht hmark hmarkCoh
  obtain ⟨hnone, hdropped⟩ := dropLines_keeps (ls := [l]) (List.mem_singleton_self l) s2
  have hcount := (framed_forEach (getDir s l).priv (fun p => countAt p.frank (l * 128) 128) fun _ _ => framed_count _ _ _).same
    (applyAll (dropLines [l] s2) s2)
  rw [← ht] at hcount
  have hdir : (getDir t l).priv = [] ∧ (getDir t l).until_ = s.clk.cyc + 65536 := by
    have hcoh : t.coh.dirs = clearHolders s2.clk.cyc [l] (mput s.coh.dirs l { getDir s l with priv := [], until_ := s.clk.cyc + 65536 }) := by
      rw [show t.coh = _ from hcount .coh (by simp), hdropped, hmarkCoh, ← hcomposed.2]
    obtain ⟨hpriv, huntil⟩ := mget_clearHolders s2.clk.cyc [l] (mput s.coh.dirs l { getDir s l with priv := [], until_ := s.clk.cyc + 65536 }) l
    rw [mget_mput, if_pos rfl] at hpriv huntil
    rw [getDir, hcoh]
    exact ⟨hpriv, huntil⟩
  refine ⟨?_, hdir.1, hdir.2, everyCore_of_cores hnone (hcount .cores (by simp))⟩
  exact (hcount .mem (by simp)).trans ((dropLines_done [l] s2).1.trans ((hmark .mem (by simp)).trans hcomposed.1))

theorem privatisedMerge_does {s : State} {l : Nat} (hl : l = subjAt s 0) (h : (getDir s l).priv ≠ []) :
    EventDoes .privatisedMerge s [.mem, .cores, .coh] [] [] (fun t =>
      t.mem = writeCells s.mem (privCells l (getDir s l)) ∧ (getDir t l).priv = [] ∧ (getDir t l).until_ = s.clk.cyc + 65536 ∧
      ∀ k, mfind (getCore t k).l1 l = none) := by
  obtain ⟨hmem, hpriv, huntil, hnone⟩ := mergeLine_done h
  subst hl
  exact eventDoes_of_framed (f := mergeLine (subjAt s 0)) ((framed_mergeLine _).mono (by simp)) rfl
    ⟨hmem, hpriv, huntil, fun k => hnone.getCore rfl k⟩

end Sys2Proof.Machine
end

section
/-! PROOFS. Round notices, pushes and replicas (O58: R277, R317, R321). -/

namespace Sys2Proof.Machine

/-! ## Rounds -/

/-- A core that hears a round knows it, where it lies in the region's scope (R317). -/
theorem knownRound_hear (core r n : Nat) (s : State) : knownRound (applyAll (hear core r n s) s) core r =
    if inRegionScope s r core then max (knownRound s core r) n else knownRound s core r := by
  unfold hear
  by_cases hscope : inRegionScope s r core = true
  · rw [if_pos hscope]
    by_cases hlt : knownRound s core r < n
    · rw [if_pos (by simp [hscope, hlt]), knownRound, getCore_core, if_pos rfl, mget_mput, if_pos rfl]
      omega
    · rw [if_neg (by simp [hlt]), applyAll_nil]
      omega
  · rw [if_neg hscope, if_neg (by simp [hscope])]
    rfl

theorem roundNotice_does {s : State} {core r count : Nat} {rest : List (Nat × Nat × Nat)}
    (h : takenAt s.coh.notices (subjAt s 0) (core, r, count) rest) :
    EventDoes .roundNotice s [.cores, .coh] [] [] (fun t => t.coh = { s.coh with notices := rest } ∧
      knownRound t core r = if inRegionScope s r core then max (knownRound s core r) count else knownRound s core r) := by
  let gone : Eff := onCoh (fun c => { c with notices := rest })
  have hx : noticeEvent (subjAt s 0) s = Eff.seq gone (hear core r count) s := by
    simp only [noticeEvent, takeNth_of_takenAt h]
    rfl
  refine eventDoes_of_framed (f := Eff.seq gone (hear core r count)) (((framed_onCoh _).mono (by simp)).seq ((framed_hear _ _ _).mono (by simp)))
    (congrArg (fun us => Host.Outcome.next (applyAll us s)) hx) ?_
  rw [applyAll_seq]
  exact ⟨(framed_hear _ _ _).same _ .coh (by simp), knownRound_hear core r count (applyAll (gone s) s)⟩

/-! ## Watches -/

theorem id_of_watchId {s : State} {id : Nat} {w : Watch} (h : watchId s id = some w) : w.id = id := by
  simpa using List.find?_some h

theorem endWatch_limits (id : Nat) (s : State) : ∀ x ∈ (applyAll (endWatch id s) s).coh.watches, x.id = id → x.limit = 0 := by
  intro x hx hid
  obtain ⟨w, -, hw⟩ := List.mem_map.1 hx
  by_cases hmatch : (w.id == id) = true
  · rw [if_pos hmatch] at hw
    rw [← hw]
  · rw [if_neg hmatch] at hw
    exact absurd (by simpa [hw] using hid) hmatch

theorem stallTimeout_does {s : State} {w : Watch} (hw : watchId s (subjAt s 0) = some w) (hfired : w.fired = false)
    (hlimit : w.limit ≠ 0) (hpast : w.limit ≤ s.clk.cyc) :
    EventDoes .stallWatchTimeout s [.coh] [] [] (fun t => t.coh = { s.coh with watches := t.coh.watches } ∧
      ∀ x ∈ t.coh.watches, x.id = w.id → x.limit = 0) := by
  refine eventDoes_of_framed (f := endWatch w.id) (framed_onCoh _) ?_ ⟨rfl, endWatch_limits w.id s⟩
  have hx : exec .stallWatchTimeout s = commit (fun s =>
    match watchId s (subjAt s 0) with
    | some w => if !w.fired && w.limit != 0 && decide (w.limit ≤ s.clk.cyc) then endWatch w.id s else []
    | none => []) s := rfl
  rw [hx, commit]
  simp only [hw]
  rw [if_pos (by simp [hfired, hlimit, hpast])]

/-! ## Pushes -/

/-- What a push does at its core: its line enters the L1, or its tags join a fill that is on its way. -/
def pushLine (s : State) (w : Watch) : Eff :=
  if fillPending s w.core w.line then requestFill w.core w.line 512 w.nc (pushedLine s w).tags w.frank
  else if (privOwn s w.core w.line).isSome then Eff.nop
  else
    Eff.seq
      (fun t => [.core w.core { getCore t w.core with l1 := mput (getCore t w.core).l1 w.line (pushedLine s w) }])
      (onCoh (fun c =>
        if (pushedLine s w).tracked then (grantTracked w.core w.line c s.clk.cyc).2
        else if (pushedLine s w).nc then c
        else { c with leases := c.leases ++ [{ core := w.core, line := w.line, lexp := (pushedLine s w).lexp }] }))

theorem framed_pushLine (s : State) (w : Watch) : Framed missParts (pushLine s w) := by
  unfold pushLine
  split
  · exact (framed_requestFill _ _ _ _ _ _).mono (by simp)
  · split
    · exact framed_nop _
    · exact ((framed_core _ _).mono (by simp)).seq ((framed_onCoh _).mono (by simp))

theorem pushEvent_eq {s : State} {id : Nat} {w : Watch} (hw : watchId s id = some w) (hfired : w.fired = true) (hlimit : w.limit ≠ 0) :
    pushEvent id s = Eff.all [pushLine s w, countAt w.frank (w.line * 128) 128, endWatch id] s := by
  simp only [pushEvent, hw]
  rw [if_neg (by simp [hfired, hlimit])]
  rfl

theorem le_joinTags (m : Map Nat) (r n : Nat) : n ≤ mget 0 (joinTags m [(r, n)]) r := by
  simp only [joinTags, List.foldl_cons, List.foldl_nil]
  split <;> simp [mget_mput]

/-- A push while a fill of its line is on its way: its tag joins that fill. -/
theorem pushLine_pending {s : State} {w : Watch} (h : fillPending s w.core w.line = true) :
    (applyAll (pushLine s w s) s).cores = s.cores ∧
    ∀ x ∈ (applyAll (pushLine s w s) s).coh.fills, x.core = w.core → x.line = w.line → w.tag ≤ mget 0 x.copy.tags w.region := by
  have hop : pushLine s w s = [.coh { s.coh with fills := s.coh.fills.map (fun f =>
      if f.core == w.core && f.line == w.line then
        { f with copy := { f.copy with tags := joinTags f.copy.tags [(w.region, w.tag)] } } else f) }] := by
    rw [pushLine, if_pos h, requestFill]
    exact if_pos h
  rw [hop]
  refine ⟨rfl, fun x hx hcore hline => ?_⟩
  obtain ⟨f, -, hf⟩ := List.mem_map.1 hx
  by_cases hmatch : (f.core == w.core && f.line == w.line) = true
  · rw [if_pos hmatch] at hf
    rw [← hf]
    exact le_joinTags _ _ _
  · rw [if_neg hmatch] at hf
    exact absurd (by simp [hf, hcore, hline]) hmatch

/-- Any other push installs its line. -/
theorem pushLine_installs {s : State} {w : Watch} (h : fillPending s w.core w.line = false) (hpriv : privOwn s w.core w.line = none) :
    mfind (getCore (applyAll (pushLine s w s) s) w.core).l1 w.line = some (pushedLine s w) := by
  simp only [pushLine, h, hpriv, Option.isSome_none, Bool.false_eq_true, if_false]
  rw [applyAll_seq, getCore_congr ((framed_onCoh _).same _ .cores (by simp)), getCore_core, if_pos rfl]
  exact mfind_mput_same _ _ _

theorem stallPush_does {s : State} {w : Watch} (hw : watchId s (subjAt s 0) = some w) (hfired : w.fired = true)
    (hlimit : w.limit ≠ 0) (hpriv : privOwn s w.core w.line = none) :
    EventDoes .stallPush s [.cores, .coh] [] [] (fun t => (∀ x ∈ t.coh.watches, x.id = w.id → x.limit = 0) ∧
      if fillPending s w.core w.line = true then t.cores = s.cores ∧
        (∀ x ∈ t.coh.fills, x.core = w.core → x.line = w.line → w.tag ≤ mget 0 x.copy.tags w.region)
      else mfind (getCore t w.core).l1 w.line = some (pushedLine s w)) := by
  have hend : Framed [.coh] (endWatch (subjAt s 0)) := framed_onCoh _
  have hcount : Framed [] (countAt w.frank (w.line * 128) 128) := framed_count _ _ _
  refine eventDoes_of_framed (f := Eff.all [pushLine s w, countAt w.frank (w.line * 128) 128, endWatch (subjAt s 0)])
    ((framed_pushLine s w).seq ((hcount.mono (by simp)).seq ((hend.mono (by simp)).seq (framed_nop _))))
    (congrArg (fun us => Host.Outcome.next (applyAll us s)) (pushEvent_eq hw hfired hlimit)) ?_
  rw [applyAll_all_cons, applyAll_all_cons, applyAll_all_cons, applyAll_all_nil]
  have hcores := (hend.same (applyAll (countAt w.frank (w.line * 128) 128 (applyAll (pushLine s w s) s)) (applyAll (pushLine s w s) s))
    .cores (by simp)).trans (hcount.same (applyAll (pushLine s w s) s) .cores (by simp))
  have hcoh := hcount.same (applyAll (pushLine s w s) s) .coh (by simp)
  refine ⟨fun x hx hid => endWatch_limits (subjAt s 0) _ x hx (hid.trans (id_of_watchId hw)), ?_⟩
  split
  · next hpending =>
    obtain ⟨hkept, htags⟩ := pushLine_pending hpending
    refine ⟨hcores.trans hkept, ?_⟩
    exact fun x hx => htags x ((congrArg Coh.fills hcoh : _) ▸ hx)
  · next hfree =>
    rw [getCore_congr hcores]
    exact pushLine_installs (Bool.eq_false_of_not_eq_true hfree) hpriv

/-! ## Replicas -/

theorem claimOf_isSome {s : State} {k : Writer} {l : Nat} :
    (claimOf s k l).isSome = true ↔ ∃ x ∈ s.coh.claims, x.who = k ∧ x.line = l := by
  simp [claimOf, List.find?_isSome]

/-- What the arrival of a writer leaves as it was, where no line has privatised copies: bytes, ordered writes, claims. -/
structure Arrived (s t : State) : Prop where
  mem    : t.mem = s.mem
  reps   : t.coh.reps = s.coh.reps
  priv   : noPrivate t
  claims : ∀ x ∈ s.coh.claims, x ∈ t.coh.claims

/-- Invalidations sent leave the privatised copies, the ordered writes and the claims. -/
theorem invalidate_keeps (line cyc wid : Nat) (hs : List Nat) (c : Coh) :
    ((∀ e ∈ c.dirs, e.2.priv = []) → ∀ e ∈ (invalidate line cyc wid hs c).dirs, e.2.priv = []) ∧
    (invalidate line cyc wid hs c).reps = c.reps ∧ (invalidate line cyc wid hs c).claims = c.claims := by
  unfold invalidate
  split
  · exact ⟨id, rfl, rfl⟩
  · refine ⟨fun h e he => ?_, rfl, rfl⟩
    rcases mem_mput he with rfl | ⟨he, -⟩
    · refine (dirInval_keeps _ _ _).1.trans ?_
      unfold mget
      split
      · next d hd => exact h _ (mem_of_mfind hd)
      · rfl
    · exact h e he

theorem claimLine_done {s : State} (k : Writer) (line : Nat) (hn : noPrivate s) :
    Arrived s (applyAll (claimLine k line s) s) ∧ (claimOf (applyAll (claimLine k line s) s) k line).isSome = true := by
  obtain ⟨hpriv, hreps, hclaims⟩ := invalidate_keeps line s.clk.cyc s.nextId (getDir s line).holders s.coh
  rw [claimLine, applyAll_seq, mergeLine_of_priv_nil (getDir_priv_of_noPrivate hn line), applyAll_nil]
  refine ⟨⟨rfl, hreps, hpriv hn, fun x hx => List.mem_append_left _ (by rw [hclaims]; exact hx)⟩, claimOf_isSome.2 ?_⟩
  exact ⟨_, List.mem_append_right _ (List.mem_singleton_self _), rfl, rfl⟩

theorem forEach_claimLine_done {s : State} (k : Writer) (ls : List Nat) (hn : noPrivate s) :
    Arrived s (applyAll (Eff.forEach ls (claimLine k) s) s) ∧
    ∀ l ∈ ls, (claimOf (applyAll (Eff.forEach ls (claimLine k) s) s) k l).isSome = true := by
  induction ls generalizing s with
  | nil => exact ⟨⟨rfl, rfl, hn, fun _ h => h⟩, fun _ h => absurd h List.not_mem_nil⟩
  | cons l ls ih =>
    obtain ⟨hfirst, hclaim⟩ := claimLine_done k l hn
    obtain ⟨hrest, hclaims⟩ := ih hfirst.priv
    rw [applyAll_forEach_cons]
    refine ⟨⟨hrest.mem.trans hfirst.mem, hrest.reps.trans hfirst.reps, hrest.priv, fun x hx => hrest.claims x (hfirst.claims x hx)⟩, ?_⟩
    intro m hm
    rcases List.mem_cons.1 hm with rfl | hm
    · obtain ⟨x, hx, hwho, hline⟩ := claimOf_isSome.1 hclaim
      exact claimOf_isSome.2 ⟨x, hrest.claims x hx, hwho, hline⟩
    · exact hclaims m hm

/-- An effect that keeps the ordered writes that the replicas have not applied. -/
def KeepsReps (f : Eff) : Prop := ∀ s, (applyAll (f s) s).coh.reps = s.coh.reps

theorem KeepsReps.seq {f g : Eff} (hf : KeepsReps f) (hg : KeepsReps g) : KeepsReps (Eff.seq f g) := fun s => by
  rw [applyAll_seq]
  exact (hg _).trans (hf s)

theorem keepsReps_of_framed {xs : List Comp} {f : Eff} (h : Framed xs f) (hc : Comp.coh ∉ xs) : KeepsReps f := fun s =>
  congrArg Coh.reps (h.same s .coh hc)

theorem keepsReps_writeMem (cs : List Host.Cell) : KeepsReps (writeMem cs) := fun s => by
  unfold writeMem
  dsimp only
  split <;> rfl

theorem keepsReps_markHome (l : Nat) (bad : Bool) : KeepsReps (markHome l bad) := fun s => by
  unfold markHome
  split <;> rfl

theorem keepsReps_dropLines (ls : List Nat) : KeepsReps (dropLines ls) := by
  rw [dropLines, invalLines_eq]
  refine ((keepsReps_of_framed (framed_l1Drops ls) (by simp)).seq ?_).seq ?_
  · exact fun _ => rfl
  · exact fun _ => rfl

/-- A merge orders no write for a replica. -/
theorem reps_mergeLine (l : Nat) : KeepsReps (mergeLine l) := fun s => by
  by_cases hpriv : (getDir s l).priv = []
  · rw [mergeLine_of_priv_nil hpriv, applyAll_nil]
  · have hcopies (d : Dir) : KeepsReps (fun s => [.coh { s.coh with dirs := mput s.coh.dirs l { d with priv := [], until_ := s.clk.cyc + 65536 } }]) :=
      fun _ => rfl
    have hcounts (ps : List PrivCopy) : KeepsReps (Eff.forEach ps (fun p => countAt p.frank (l * 128) 128)) :=
      keepsReps_of_framed (framed_forEach _ _ fun _ _ => framed_count _ _ _) (by simp)
    have hnop : KeepsReps Eff.nop := fun _ => rfl
    have hcomposed := ((keepsReps_writeMem (privCells l (getDir s l))).seq (hcopies (getDir s l))).seq
      ((keepsReps_markHome l ((getDir s l).priv.any (·.poison))).seq
        ((keepsReps_dropLines [l]).seq ((hcounts (getDir s l).priv).seq hnop)))
    refine (congrArg (fun us => (applyAll us s).coh.reps) ?_).trans (hcomposed s)
    exact if_neg (by simpa using hpriv)

theorem reps_claimLines (k : Writer) (ls : List Nat) (s : State) : (applyAll (claimLines k ls s) s).coh.reps = s.coh.reps := by
  unfold claimLines
  generalize toClaim s k ls = ms
  induction ms generalizing s with
  | nil => rfl
  | cons m ms ih =>
    rw [applyAll_forEach_cons, ih, claimLine, applyAll_seq]
    exact (invalidate_keeps _ _ _ _ _).2.1.trans (reps_mergeLine m s)

theorem framed_claimLines (k : Writer) (ls : List Nat) : Framed homeParts (claimLines k ls) := by
  refine framed_of fun s => ⟨Eff.forEach (toClaim s k ls) (claimLine k), rfl, framed_forEach _ _ fun l _ => ?_⟩
  refine (framed_mergeLine l).seq (framed_of fun s => ⟨Eff.seq (fun _ => [.coh _]) (fun _ => [.nextId _]), rfl, ?_⟩)
  exact ((framed_coh fun _ => _).mono (by simp)).seq ((framed_nextId fun _ => _).mono (by simp))

/-- A line that is not ready for a writer is one that it has claimed, or one that it claims now. -/
theorem mem_toClaim {s : State} {k : Writer} {ls : List Nat} {l : Nat} (hl : l ∈ ls) (hready : lineReady s k l = false) :
    (claimOf s k l).isSome = true ∨ l ∈ toClaim s k ls := by
  by_cases hclaim : (claimOf s k l).isSome = true
  · exact .inl hclaim
  · exact .inr (List.mem_filter.2 ⟨List.mem_eraseDups.2 hl, by simpa [hready] using hclaim⟩)

theorem reps_writeThrough (k : Writer) (cs : List Host.Cell) (s : State) :
    (applyAll (writeThrough k cs s) s).coh.reps = s.coh.reps := by
  have hunclaim : (applyAll (unclaim k (cellLines cs) s) s).coh.reps = s.coh.reps := by
    unfold unclaim
    split <;> rfl
  have hdrop := framed_of_onCores (onCores_dropNc unitCore (cellLines cs))
  obtain ⟨-, -, hcoh⟩ := performCells_done cs (applyAll (unclaim k (cellLines cs) s) s)
  rw [writeThrough, applyAll_all_cons, applyAll_all_cons, applyAll_all_cons, applyAll_all_nil]
  rw [show (applyAll (dropNc unitCore (cellLines cs) _) _).coh = _ from hdrop.same _ .coh (by simp), hcoh]
  exact hunclaim

/-- The next ordered write is applied where its homes are ready. -/
theorem repStep_ready {s : State} {pkg : Nat} {cs : List Host.Cell} {rest : List (Nat × List Host.Cell)}
    (h : takeRep pkg s.coh.reps = some (cs, rest)) (hready : (cellLines cs).all (lineReady s (.replica pkg)) = true) :
    repStep s pkg = some (Eff.seq (onCoh (fun c => { c with reps := rest })) (writeThrough (.replica pkg) cs)) := by
  simp only [repStep, h, hready, if_true]

/-- Elsewhere it arrives at the homes where it has still to arrive. -/
theorem repStep_waits {s : State} {pkg : Nat} {cs : List Host.Cell} {rest : List (Nat × List Host.Cell)}
    (h : takeRep pkg s.coh.reps = some (cs, rest)) (hready : ¬(cellLines cs).all (lineReady s (.replica pkg)) = true) :
    Eff.opt (repStep s pkg) s = claimLines (.replica pkg) (cellLines cs) s := by
  simp only [repStep, h, if_neg hready]
  by_cases hempty : (toClaim s (.replica pkg) (cellLines cs)).isEmpty = true
  · rw [if_pos hempty, claimLines, List.isEmpty_iff.1 hempty]
    rfl
  · rw [if_neg hempty]
    rfl

theorem replicaUpdate_does {s : State} {cs : List Host.Cell} {rest : List (Nat × List Host.Cell)}
    (h : takeRep (subjAt s 0) s.coh.reps = some (cs, rest)) :
    EventDoes .replicaUpdate s [.mem, .cores, .coh] [] [] (fun t =>
      if (cellLines cs).all (lineReady s (.replica (subjAt s 0))) = true then t.coh.reps = rest ∧ t.mem = writeCells s.mem cs
      else t.coh.reps = s.coh.reps ∧ (noPrivate s → t.mem = s.mem ∧
        ∀ l ∈ cellLines cs, lineReady s (.replica (subjAt s 0)) l = false → (claimOf t (.replica (subjAt s 0)) l).isSome = true)) := by
  by_cases hready : (cellLines cs).all (lineReady s (.replica (subjAt s 0))) = true
  · refine eventDoes_of_framed (((framed_onCoh _).mono (by simp)).seq ((framed_writeThrough _ _).mono (by simp)))
      (congrArg (fun o => Host.Outcome.next (applyAll (Eff.opt o s) s)) (repStep_ready h hready)) ?_
    rw [if_pos hready, applyAll_seq]
    exact ⟨reps_writeThrough _ cs _, (writeThrough_done _ cs _).1⟩
  · refine eventDoes_of_framed ((framed_claimLines _ (cellLines cs)).mono (by simp))
      (congrArg (fun us => Host.Outcome.next (applyAll us s)) (repStep_waits h hready)) ?_
    rw [if_neg hready]
    refine ⟨reps_claimLines _ (cellLines cs) s, fun hn => ?_⟩
    obtain ⟨harrived, hclaims⟩ := forEach_claimLine_done (.replica (subjAt s 0)) (toClaim s (.replica (subjAt s 0)) (cellLines cs)) hn
    refine ⟨harrived.mem, fun l hl hwaits => ?_⟩
    rcases mem_toClaim hl hwaits with hclaim | hnew
    · obtain ⟨x, hx, hwho, hline⟩ := claimOf_isSome.1 hclaim
      exact claimOf_isSome.2 ⟨x, harrived.claims x hx, hwho, hline⟩
    · exact hclaims l hnew

end Sys2Proof.Machine
end

section
/-! PROOFS. Walks that end, fault records, and the memory system's events together (O58: R285, R286). -/

namespace Sys2Proof.Machine

/-! ## Walks (R285) -/

theorem mem_tlbPut (cap : Nat) (l : List TlbE) (e : TlbE) : e ∈ tlbPut cap l e :=
  List.mem_append_right _ (List.mem_singleton_self e)

theorem tlbFillL1_done (core : Nat) (e : TlbE) (s : State) :
    { e with count := 0 } ∈ (getCore (applyAll (tlbFillL1 core e s) s) core).tlb := by
  unfold tlbFillL1
  by_cases hheld : (getCore s core).tlb.contains { e with count := 0 } = true
  · rw [if_pos hheld]
    exact List.contains_iff_mem.1 hheld
  · rw [if_neg hheld, getCore_core, if_pos rfl]
    exact mem_tlbPut _ _ _

/-- The entry of a walk leaves its merge table, and what it found enters the TLBs. -/
def walkFilled (cl : Nat) (m : MergeE) (e : TlbE) : Eff := Eff.all [mergeDel cl m, tlbFillL2 cl e, tlbFillL1 m.core e]

theorem framed_walkFilled (cl : Nat) (m : MergeE) (e : TlbE) : Framed [.clusters, .cores] (walkFilled cl m e) :=
  ((framed_cluster _ _).mono (by simp)).seq (((framed_tlbFillL2 _ _).mono (by simp)).seq (((framed_tlbFillL1 _ _).mono (by simp)).seq (framed_nop _)))

theorem walkFilled_done (cl : Nat) (m : MergeE) (e : TlbE) (s : State) :
    let t := applyAll (walkFilled cl m e s) s
    (∀ x ∈ (getCluster t cl).merge, ¬(x.asid = m.asid ∧ x.page = m.page)) ∧ e ∈ (getCluster t cl).tlb ∧
      { e with count := 0 } ∈ (getCore t m.core).tlb := by
  intro t
  let removed := applyAll (mergeDel cl m s) s
  let filled := applyAll (tlbFillL2 cl e removed) removed
  have ht : t = applyAll (tlbFillL1 m.core e filled) filled := by
    simp only [t, walkFilled, applyAll_all_cons, applyAll_all_nil]
    rfl
  have hclusters : getCluster t cl = getCluster filled cl := by
    rw [getCluster, getCluster, ht, show (applyAll (tlbFillL1 m.core e filled) filled).clusters = filled.clusters from
      (framed_tlbFillL1 m.core e).same filled .clusters (by simp)]
  have hfilled : getCluster filled cl = { getCluster removed cl with tlb := tlbPut 8192 (getCluster removed cl).tlb e } :=
    (getCluster_cluster cl cl _ removed).trans (if_pos rfl)
  have hremoved : getCluster removed cl = { getCluster s cl with
      merge := (getCluster s cl).merge.filter (fun x => !(x.asid == m.asid && x.page == m.page)) } :=
    (getCluster_cluster cl cl _ s).trans (if_pos rfl)
  refine ⟨fun x hx => ?_, ?_, ?_⟩
  · rw [hclusters, hfilled, hremoved] at hx
    exact not_and_or.2 (by simpa using (List.mem_filter.1 hx).2)
  · rw [hclusters, hfilled]
    exact mem_tlbPut _ _ _
  · rw [ht]
    exact tlbFillL1_done m.core e filled

/-- The record of a walk that ends in a fault. -/
def walkRecord (cause : Nat) (m : MergeE) : FaultRec := { m.rcd with kind := if cause = 9 then 2 else 1 }

theorem framed_walkFault (cl cause : Nat) (m : MergeE) : Framed [.clusters, .faults] (walkFault cl cause m) := framed_of fun s =>
  ⟨Eff.seq (mergeSet cl { m with cause := some cause, rcd := walkRecord cause m })
      (fun _ => [.faults { s.faults with pend := s.faults.pend ++ [(cl, walkRecord cause m)] }]), rfl,
    ((framed_cluster _ _).mono (by simp)).seq ((framed_faults _).mono (by simp))⟩

theorem walkFault_done (cl cause : Nat) (m : MergeE) (s : State) :
    (applyAll (walkFault cl cause m s) s).faults = { s.faults with pend := s.faults.pend ++ [(cl, walkRecord cause m)] } := by
  rw [walkFault, applyAll_append]
  rfl

/-- What the end of a walk does, by what the walk found. -/
def walkEnded (s : State) (cl : Nat) (m : MergeE) : TlbE ⊕ Nat → Eff
  | .inl e => if rootDown s e (accOf m.rcd.acc) then walkFault cl 8 m else walkFilled cl m e
  | .inr cause => walkFault cl cause m

theorem walkEvent_eq {s : State} {cl n : Nat} {m : MergeE} (hm : mergeNth s cl n = some m) (hcause : m.cause = none) :
    walkEvent cl n s = Eff.seq (countWalk m.rcd.frank (entryTctx s m) m.rcd.va)
      (walkEnded s cl m (walkEnd s (entryTctx s m) m.asid m.rcd.va (accOf m.rcd.acc) m.user)) s := by
  simp only [walkEvent, hm, hcause, Option.isSome_none, Bool.false_eq_true, if_false, walkEnded]
  rfl

theorem framed_walkEnded (s : State) (cl : Nat) (m : MergeE) (r : TlbE ⊕ Nat) :
    Framed [.clusters, .cores, .faults] (walkEnded s cl m r) := by
  cases r with
  | inl e =>
    unfold walkEnded
    dsimp only
    split
    · exact (framed_walkFault _ _ _).mono (by simp)
    · exact (framed_walkFilled _ _ _).mono (by simp)
  | inr cause => exact (framed_walkFault _ _ _).mono (by simp)

theorem pageWalk_does {s : State} {cl : Nat} {m : MergeE} (hcl : cl = subjAt s 0) (hm : mergeNth s cl (subjAt s 1) = some m)
    (hcause : m.cause = none) :
    EventDoes .pageWalkComplete s [.clusters, .cores, .faults] [] [] (fun t =>
      match walkEnd s (entryTctx s m) m.asid m.rcd.va (accOf m.rcd.acc) m.user with
      | .inl e =>
        if rootDown s e (accOf m.rcd.acc) then
          t.faults = { s.faults with pend := s.faults.pend ++ [(cl, { m.rcd with kind := 1 })] } ∧ t.cores = s.cores
        else t.faults = s.faults ∧ (∀ x ∈ (getCluster t cl).merge, ¬(x.asid = m.asid ∧ x.page = m.page)) ∧
          e ∈ (getCluster t cl).tlb ∧ { e with count := 0 } ∈ (getCore t m.core).tlb
      | .inr cause =>
        t.faults = { s.faults with pend := s.faults.pend ++ [(cl, { m.rcd with kind := if cause = 9 then 2 else 1 })] } ∧
          t.cores = s.cores) := by
  subst hcl
  have hcount : Framed [] (countWalk m.rcd.frank (entryTctx s m) m.rcd.va) := framed_countWalk _ _ _
  refine eventDoes_of_framed ((hcount.mono (by simp)).seq (framed_walkEnded s (subjAt s 0) m _))
    (congrArg (fun us => Host.Outcome.next (applyAll us s)) (walkEvent_eq hm hcause)) ?_
  rw [applyAll_seq]
  have hfaults := hcount.same s .faults (by simp)
  have hcores := hcount.same s .cores (by simp)
  generalize applyAll (countWalk m.rcd.frank (entryTctx s m) m.rcd.va s) s = counted at hfaults hcores ⊢
  have hfault (cause : Nat) :
      (applyAll (walkFault (subjAt s 0) cause m counted) counted).faults =
        { s.faults with pend := s.faults.pend ++ [(subjAt s 0, walkRecord cause m)] } ∧
      (applyAll (walkFault (subjAt s 0) cause m counted) counted).cores = s.cores :=
    ⟨(walkFault_done _ _ _ _).trans (by rw [show counted.faults = s.faults from hfaults]),
      ((framed_walkFault _ _ _).same counted .cores (by simp)).trans hcores⟩
  generalize walkEnd s (entryTctx s m) m.asid m.rcd.va (accOf m.rcd.acc) m.user = found
  cases found with
  | inl e =>
    dsimp only [walkEnded]
    split
    · exact hfault 8
    · exact ⟨((framed_walkFilled _ _ _).same counted .faults (by simp)).trans hfaults, walkFilled_done _ _ _ _⟩
  | inr cause => exact hfault cause

/-! ## Fault records (R286) -/

theorem framed_markRecorded (cl : Nat) (r : FaultRec) : Framed [.clusters] (markRecorded cl r) := framed_of fun s => by
  unfold markRecorded
  split
  · exact ⟨Eff.nop, rfl, framed_nop _⟩
  · split
    · split
      · exact ⟨mergeSet cl _, rfl, framed_cluster _ _⟩
      · exact ⟨Eff.nop, rfl, framed_nop _⟩
    · exact ⟨Eff.nop, rfl, framed_nop _⟩

/-- The bytes of a record, counted, where its place exists. -/
def recordWritten (s : State) (r : FaultRec) (a : Nat) : Eff :=
  Eff.seq (Eff.when (physExists s a) (writeThrough .record (cellsAt a (recordBytes r s.faults.seq (timeReg s.clk)))))
    (Eff.when (physExists s a) (countAt r.frank a 32))

/-- The opener of a record that is not HOT may trap, and the host is told. -/
def recordTold (cl : Nat) (r : FaultRec) : Eff := Eff.seq (Eff.when (r.kind != 3) (markRecorded cl r)) (Eff.when (r.kind != 3) (hostEvent 1))

/-- The fault unit with its oldest record written. -/
def recordGone (f : FaultUnit) (rest : List (Nat × FaultRec)) : FaultUnit :=
  { f with ptr := setFld f.ptr 31 0 (fld f.ptr 31 0 + 1), seq := (f.seq + 1) % 65536, pend := rest }

theorem framed_recordWritten (s : State) (r : FaultRec) (a : Nat) : Framed homeParts (recordWritten s r a) :=
  ((framed_writeThrough _ _).when _).seq (((framed_count _ _ _).when _).mono (by simp))

theorem framed_recordTold (cl : Nat) (r : FaultRec) : Framed [.mem, .cores, .coh, .clusters] (recordTold cl r) :=
  (((framed_markRecorded cl r).mono (by simp)).when _).seq (((framed_hostEvent 1).mono (by simp)).when _)

theorem mem_recordWritten {s : State} {r : FaultRec} {a : Nat} (ha : physExists s a = true) :
    (applyAll (recordWritten s r a s) s).mem = writeCells s.mem (cellsAt a (recordBytes r s.faults.seq (timeReg s.clk))) := by
  rw [recordWritten, applyAll_seq, ha, applyAll_when_true, applyAll_when_true]
  exact ((framed_count _ _ _).same _ .mem (by simp)).trans (writeThrough_done _ _ s).1

/-- No host event where the host asks for none, or for a HOT record. -/
theorem mem_recordTold {s : State} {cl : Nat} {r : FaultRec} (h : s.idn.hevt = 0 ∨ r.kind = 3) :
    (applyAll (recordTold cl r s) s).mem = s.mem := by
  have hmark := ((framed_markRecorded cl r).when (r.kind != 3)).same s
  rw [recordTold, applyAll_seq]
  refine Eq.trans ?_ (hmark .mem (by simp))
  generalize applyAll (Eff.when (r.kind != 3) (markRecorded cl r) s) s = marked at hmark ⊢
  rcases h with hevt | hkind
  · have hsilent : hostEvent 1 marked = [] := if_pos (by simp [show marked.idn = s.idn from hmark .idn (by simp), hevt])
    cases r.kind != 3
    · rfl
    · rw [applyAll_when_true, hsilent, applyAll_nil]
  · rw [show (r.kind != 3) = false by simp [hkind], applyAll_when_false]

theorem recordEvent_eq {s : State} {cl : Nat} {r : FaultRec} {rest : List (Nat × FaultRec)} (hpend : s.faults.pend = (cl, r) :: rest)
    (hfull : faultRingFull s.faults = false) (hready : (linesOf (recordAt s.faults) 32).all (lineReady s .record) = true) :
    applyAll (recordEvent s) s = applyAll (Eff.seq (recordWritten s r (recordAt s.faults))
      (Eff.seq (fun _ => [.faults (recordGone s.faults rest)]) (recordTold cl r)) s) s := by
  simp only [recordEvent, hfull, hpend, hready, Bool.false_eq_true, if_false, Bool.not_true, Bool.and_false, recordWritten, recordTold,
    applyAll_all_cons, applyAll_all_nil, applyAll_seq]
  rfl

theorem recordWrite_does {s : State} {cl : Nat} {r : FaultRec} {rest : List (Nat × FaultRec)} {a : Nat}
    (hpend : s.faults.pend = (cl, r) :: rest) (hfull : faultRingFull s.faults = false)
    (ha : a = fld s.faults.cfg 47 12 * 4096 + 32 * (fld s.faults.ptr 31 0 % 2 ^ fld s.faults.cfg 4 0))
    (hready : (linesOf a 32).all (lineReady s .record) = true) :
    EventDoes .faultRecordWrite s [.mem, .cores, .coh, .clusters, .faults] [] [] (fun t =>
      t.faults = { s.faults with ptr := t.faults.ptr, seq := (s.faults.seq + 1) % 65536, pend := rest } ∧
      fld t.faults.ptr 31 0 = (fld s.faults.ptr 31 0 + 1) % 2 ^ 32 ∧ fld t.faults.ptr 63 32 = fld s.faults.ptr 63 32 ∧
      (physExists s a = true → s.idn.hevt = 0 ∨ r.kind = 3 →
        BytesAfter s.mem t.mem a (recordBytes r s.faults.seq (timeReg s.clk)))) := by
  replace ha : a = recordAt s.faults := ha
  subst ha
  have hwritten := framed_recordWritten s r (recordAt s.faults)
  have htold := framed_recordTold cl r
  refine eventDoes_of_framed ((hwritten.mono (by simp)).seq (((framed_faults fun _ => recordGone s.faults rest).mono (by simp)).seq
    (htold.mono (by simp)))) (congrArg Host.Outcome.next (recordEvent_eq hpend hfull hready)) ?_
  rw [applyAll_seq, applyAll_seq]
  have hidn := hwritten.same s .idn (by simp)
  have hmem : physExists s (recordAt s.faults) = true → _ := mem_recordWritten (r := r)
  generalize applyAll (recordWritten s r (recordAt s.faults) s) s = written at hidn hmem ⊢
  let gone := applyAll [.faults (recordGone s.faults rest)] written
  have hfaults : (applyAll (recordTold cl r gone) gone).faults = recordGone s.faults rest := htold.same gone .faults (by simp)
  refine ⟨by rw [hfaults]; rfl, ?_, ?_, fun hexists hquiet => ?_⟩
  · rw [hfaults]
    exact fld_setFld_same _ 31 0 _ (by omega) (by omega)
  · rw [hfaults]
    exact fld_setFld_other _ 31 0 63 32 _ (by omega) (by omega) (by omega)
  · have hsilent : gone.idn.hevt = 0 ∨ r.kind = 3 := by rwa [show gone.idn = s.idn from hidn]
    rw [mem_recordTold hsilent, show gone.mem = _ from hmem hexists]
    exact bytesAfter_writeCells _ _ _

/-! ## The memory system's events -/

/-- Settles O58: each event by the lemma of its own. -/
theorem memoryEvents : Obligations.MemoryEvents := by
  unfold Obligations.MemoryEvents
  exact ⟨⟨fun _ _ _ _ _ => storePerform_keeps, fun _ _ => leaseEnd_does, fun _ _ _ _ => acknowledged_does,
      fun _ _ _ => invalidation_does, fun _ _ _ _ => invalidationHeld_does, evict_does, fun _ _ _ => lineFill_does,
      fun _ _ => privatisedMerge_does⟩,
    ⟨fun _ _ _ _ _ => roundNotice_does, fun _ _ => stallPush_does, fun _ _ => stallTimeout_does, fun _ _ _ => replicaUpdate_does⟩,
    fun _ _ _ => pageWalk_does, fun _ _ _ _ _ => recordWrite_does⟩

end Sys2Proof.Machine
end
